-- ==== Sys2Proof/Word.lean ====
section
/-! DEFINITION. The word types of the machine. -/
namespace Sys2Proof

abbrev Byte := BitVec 8
abbrev Dword := BitVec 64

/-- Bits [lo + n − 1 : lo] of a natural number. -/
abbrev bits (w lo n : Nat) : Nat := w / 2 ^ lo % 2 ^ n

/-- Bit `lo` of a natural number. -/
abbrev bit (w lo : Nat) : Bool := bits w lo 1 == 1

/-- The number below `n` that a bit field of that range holds. -/
abbrev fin (n : Nat) [NeZero n] (k : Nat) : Fin n := Fin.ofNat n k

end Sys2Proof
end

