-- ==== Sys2Proof/Syntax.lean ====
section
/-! DEFINITION. The instructions of Miesh and the steps of the package's other agents: one constructor per row of
spec/opcode_table.json. Operand fields are the raw fields of the encodings (R27, R39); which values are legal is
WellFormed's question, and what they do is the machine's. -/
namespace Sys2Proof

/-- The engine classes of clauses (R18). -/
inductive EngineClass where
  | seq | vi | vf | mem | ten | tsk | brg
  deriving DecidableEq, Repr

/-- A route field of an RX word (R33): KIND with its PARAM taken apart. -/
inductive Route where
  | none
  | rot (lane : Fin 32) (sub : Fin 8)
  | bcst (lane : Fin 32) (sub : Fin 8)
  | xor (lane : Fin 32) (sub : Fin 8)
  | idx (reg : Fin 64) (byte : Fin 4)
  | shup (dist : Fin 32) (zero : Bool)
  | shdn (dist : Fin 32) (zero : Bool)
  | segb (g : Fin 8) (pos : Fin 32)
  deriving DecidableEq, Repr

/-- The GUARD field of an RX or MX word (R31, R34): negate and predicate register; 0b0000 is unguarded. -/
structure Guard where
  neg : Bool
  q : Fin 8
  deriving DecidableEq, Repr

/-- The RX extension (R31): the first word, and ROUTE_C of the second word when MORE is set. -/
structure Rx where
  a : Route
  b : Route
  guard : Guard
  rnd : Fin 8
  sat : Bool
  c : Option Route
  deriving DecidableEq, Repr

/-- The MX extension of an access that is no gather or scatter (R34). -/
structure Mx where
  guard : Guard
  hint : Fin 8
  deriving DecidableEq, Repr

/-- The MX word of LDX and STX (R34), with its index fields. -/
structure Gx where
  index : Fin 64
  iw : Fin 4
  signed : Bool
  scale : Fin 8
  guard : Guard
  hint : Fin 8
  deriving DecidableEq, Repr

/-- The atomic operations of PCI Express that BAR2 answers (R409). -/
inductive PcieOp where
  | fetchAdd | swap | cas
  deriving DecidableEq, Repr

/-- Where a checkpoint is copied to or restored from (R423): host memory or a peer package. -/
inductive CkptPlace where
  | host (addr : Nat)
  | peer (package addr : Nat)
  deriving DecidableEq, Repr

/-- An access that a peer package makes through an inbound window (R416). -/
inductive PeerAccess where
  | read (len : Nat)
  | write (data : List (BitVec 8))
  | atomic (op : Fin 16) (w32 : Bool) (operand : BitVec 64) (compare : Option (BitVec 64))
  | red (op : Fin 16) (w32 : Bool) (operand : BitVec 64)
  deriving DecidableEq, Repr

/-- The state of a fabric link to a peer package (R415). -/
inductive LinkState where
  | up | retraining | down
  deriving DecidableEq, Repr

/-- A message of the pod barrier network (R318, R321, R323): arrivals, deductions (threads, and how many of them had arrived)
or pending bytes of another package; its crew's BARI, with the launch, the count and the threads that the crew lacks, and the
answer to it; the end of an enrolled crew's task; a completed phase; the end of a launch; its pre-emption, which asks for its object,
and the answer, empty where it owns none; the object that returns with it. -/
inductive PodMessage where
  | arrivals (object : Fin 2) (count : Nat)
  | deduction (object : Fin 2) (threads arrived : Nat)
  | bytes (object : Fin 2) (count : BitVec 64)
  | phase (object : Fin 2) (value : BitVec 16)
  | claim (object : Fin 2) (package crew : Nat) (owner : BitVec 32) (expect : BitVec 20) (missing : Nat)
  | claimed (object : Fin 2) (package crew : Nat) (granted : Bool) (phase : BitVec 16)
  | leave (object : Fin 2)
  | free (object : Fin 2) (owner : BitVec 32)
  | save (object : Fin 2) (package launch : Nat) (owner : BitVec 32)
  | saved (object : Fin 2) (package launch : Nat) (words : List (BitVec 64))
  | restore (object : Fin 2) (package launch : Nat) (owner : BitVec 32) (words : List (BitVec 64))
  | restored (object : Fin 2) (package launch : Nat) (owner : BitVec 32) (granted : Bool)
  deriving DecidableEq, Repr

/-- The instructions and events. -/
inductive Instr where
  -- class SEQ: uniform, control and system-register instructions (R39)
  | nop
  | bra (off : BitVec 24)
  | brz (u : Bool) (a : Fin 64) (off : BitVec 12)
  | brnz (u : Bool) (a : Fin 64) (off : BitVec 12)
  | brq (q : Fin 8) (neg : Bool) (off : BitVec 20)
  | jmpi (a : Fin 64)
  | call (off : BitVec 24)
  | calli (a : Fin 64)
  | ret
  | exit
  | safept (off : BitVec 20)
  | waitf (mask : BitVec 12)
  | rep (n : Fin 64) (step : BitVec 4)
  | brk (code : BitVec 12)
  | sadd (d a b : Fin 64)
  | ssub (d a b : Fin 64)
  | smul (d a b : Fin 64)
  | smulh (d a b : Fin 64)
  | smulhz (d a b : Fin 64)
  | sand (d a b : Fin 64)
  | sor (d a b : Fin 64)
  | sxor (d a b : Fin 64)
  | sshl (d a b : Fin 64)
  | sshr (d a b : Fin 64)
  | ssar (d a b : Fin 64)
  | smin (d a b : Fin 64)
  | smax (d a b : Fin 64)
  | sminz (d a b : Fin 64)
  | smaxz (d a b : Fin 64)
  | scmp (d a b : Fin 64) (cc : Fin 16)
  | ssel (d a b c : Fin 64)
  | smov (d a : Fin 64)
  | spopc (d a : Fin 64)
  | sclz (d a : Fin 64)
  | saddi (d a : Fin 64) (imm : BitVec 12)
  | sandi (d a : Fin 64) (imm : BitVec 12)
  | sori (d a : Fin 64) (imm : BitVec 12)
  | sshli (d a n : Fin 64)
  | sshri (d a n : Fin 64)
  | smovk (d : Fin 64) (sh : Fin 4) (imm : BitVec 16)
  | smovz (d : Fin 64) (sh : Fin 4) (imm : BitVec 16)
  | slimm (d : Fin 64) (lit : BitVec 64)
  | srdl (d a b : Fin 64) (n : Fin 32)
  | mfsr (d : Fin 64) (num : BitVec 12)
  | mtsr (num : BitVec 12) (a : Fin 64)
  -- class VI: vector integer, predicate and crew-wide instructions (R39)
  | vmov (d a : Fin 64) (fs : Bool) (rx : Option Rx)
  | vadd (d a b : Fin 64) (fs : Bool) (rx : Option Rx)
  | vsub (d a b : Fin 64) (fs : Bool) (rx : Option Rx)
  | vadds (d a b : Fin 64) (fs : Bool) (rx : Option Rx)
  | vsubs (d a b : Fin 64) (fs : Bool) (rx : Option Rx)
  | vmul (d a b : Fin 64) (fs : Bool) (rx : Option Rx)
  | vmulh (d a b : Fin 64) (fs : Bool) (rx : Option Rx)
  | vmad (d a b c : Fin 64) (fs : Bool) (rx : Option Rx)
  | vmin (d a b : Fin 64) (fs : Bool) (rx : Option Rx)
  | vmax (d a b : Fin 64) (fs : Bool) (rx : Option Rx)
  | vabs (d a : Fin 64) (fs : Bool) (rx : Option Rx)
  | vneg (d a : Fin 64) (fs : Bool) (rx : Option Rx)
  | vabsd (d a b : Fin 64) (fs : Bool) (rx : Option Rx)
  | vand (d a b : Fin 64) (fs : Bool) (rx : Option Rx)
  | vor (d a b : Fin 64) (fs : Bool) (rx : Option Rx)
  | vxor (d a b : Fin 64) (fs : Bool) (rx : Option Rx)
  | vandn (d a b : Fin 64) (fs : Bool) (rx : Option Rx)
  | vnot (d a : Fin 64) (fs : Bool) (rx : Option Rx)
  | vshl (d a b : Fin 64) (fs : Bool) (rx : Option Rx)
  | vshr (d a b : Fin 64) (fs : Bool) (rx : Option Rx)
  | vsar (d a b : Fin 64) (fs : Bool) (rx : Option Rx)
  | vrol (d a b : Fin 64) (fs : Bool) (rx : Option Rx)
  | vbfx (d a b c : Fin 64) (fs : Bool) (rx : Option Rx)
  | vbfi (d a b c : Fin 64) (fs : Bool) (rx : Option Rx)
  | vpopc (d a : Fin 64) (fs : Bool) (rx : Option Rx)
  | vclz (d a : Fin 64) (fs : Bool) (rx : Option Rx)
  | vbrev (d a : Fin 64) (fs : Bool) (rx : Option Rx)
  | vcmp (d : Fin 8) (a b : Fin 64) (cc : Fin 16) (fs : Bool) (rx : Option Rx)
  | vsel (d a b : Fin 64) (q : Fin 8) (fs : Bool) (rx : Option Rx)
  | vqop (d a b op : Fin 8) (rx : Option Rx)
  | vqmov (d a : Fin 64) (dir fs : Bool) (rx : Option Rx)
  | vaddi (d a : Fin 64) (imm : BitVec 12) (rx : Option Rx)
  | vandi (d a : Fin 64) (imm : BitVec 12) (rx : Option Rx)
  | vori (d a : Fin 64) (imm : BitVec 12) (rx : Option Rx)
  | vxori (d a : Fin 64) (imm : BitVec 12) (rx : Option Rx)
  | vshli (d a n : Fin 64) (rx : Option Rx)
  | vshri (d a n : Fin 64) (rx : Option Rx)
  | vsari (d a n : Fin 64) (rx : Option Rx)
  | vmovi (d : Fin 64) (sh : Fin 4) (imm : BitVec 16) (rx : Option Rx)
  | vlimm (d : Fin 64) (lit : BitVec 64)
  | viota (d a : Fin 64) (tag : Fin 16) (rx : Option Rx)
  | vwrl (d a b c : Fin 64) (fs : Bool) (rx : Option Rx)
  | vvote (d : Fin 8) (a : Fin 64) (mode : Fin 4) (fs : Bool) (rx : Option Rx)
  | vballot (d a : Fin 64) (fs : Bool) (rx : Option Rx)
  | vmatch (d a : Fin 64) (fs : Bool) (rx : Option Rx)
  | vfirst (d a : Fin 64) (fs : Bool) (rx : Option Rx)
  | vactive (d : Fin 64) (rx : Option Rx)
  -- class VF: vector float, conversion and tag instructions (R39)
  | fadd (d a b : Fin 64) (fs : Bool) (rx : Option Rx)
  | fsub (d a b : Fin 64) (fs : Bool) (rx : Option Rx)
  | fmul (d a b : Fin 64) (fs : Bool) (rx : Option Rx)
  | fma (d a b c : Fin 64) (fs : Bool) (rx : Option Rx)
  | fms (d a b c : Fin 64) (fs : Bool) (rx : Option Rx)
  | fnma (d a b c : Fin 64) (fs : Bool) (rx : Option Rx)
  | fmin (d a b : Fin 64) (fs : Bool) (rx : Option Rx)
  | fmax (d a b : Fin 64) (fs : Bool) (rx : Option Rx)
  | fminn (d a b : Fin 64) (fs : Bool) (rx : Option Rx)
  | fmaxn (d a b : Fin 64) (fs : Bool) (rx : Option Rx)
  | fabs (d a : Fin 64) (fs : Bool) (rx : Option Rx)
  | fneg (d a : Fin 64) (fs : Bool) (rx : Option Rx)
  | fcps (d a b : Fin 64) (fs : Bool) (rx : Option Rx)
  | fcmp (d : Fin 8) (a b : Fin 64) (cc : Fin 16) (fs : Bool) (rx : Option Rx)
  | fclass (d a : Fin 64) (fs : Bool) (rx : Option Rx)
  | frnd (d a : Fin 64) (fs : Bool) (rx : Option Rx)
  | fdot2 (d a b c : Fin 64) (fs : Bool) (rx : Option Rx)
  | fdot4 (d a b c : Fin 64) (fs : Bool) (rx : Option Rx)
  | fscale (d a b : Fin 64) (fs : Bool) (rx : Option Rx)
  | fgetx (d a : Fin 64) (fs : Bool) (rx : Option Rx)
  | fpivg (d a b c : Fin 64) (fs : Bool) (rx : Option Rx)
  | frcp (d a : Fin 64) (fs : Bool) (rx : Option Rx)
  | frsq (d a : Fin 64) (fs : Bool) (rx : Option Rx)
  | fsqrt (d a : Fin 64) (fs : Bool) (rx : Option Rx)
  | fdiv (d a b : Fin 64) (fs : Bool) (rx : Option Rx)
  | fexp2 (d a : Fin 64) (fs : Bool) (rx : Option Rx)
  | flog2 (d a : Fin 64) (fs : Bool) (rx : Option Rx)
  | fsinp (d a : Fin 64) (fs : Bool) (rx : Option Rx)
  | fcosp (d a : Fin 64) (fs : Bool) (rx : Option Rx)
  | ftanh (d a : Fin 64) (fs : Bool) (rx : Option Rx)
  | cvt (d a : Fin 64) (p : Fin 8) (tag : Fin 16) (fs : Bool) (rx : Option Rx)
  | cvts (d a b : Fin 64) (p : Fin 8) (fs : Bool) (rx : Option Rx)
  | fmaxx (d a b : Fin 64) (acc fs : Bool) (rx : Option Rx)
  | vsettag (d a : Fin 64) (tag : Fin 16) (fs : Bool) (rx : Option Rx)
  | vgettag (d a : Fin 64) (fs : Bool) (rx : Option Rx)
  | sclget (d a : Fin 64) (rx : Option Rx)
  | sclset (d a : Fin 64) (rx : Option Rx)
  | flimm (d : Fin 64) (lit : BitVec 64)
  -- class MEM: memory-access, atomic, reduction, fence and cache instructions (R39)
  | ord (order scope : Fin 8)
  | ld (d base : Fin 64) (ty : Fin 16) (off : Fin 256) (mx : Option Mx)
  | lde (d base : Fin 64) (ty : Fin 16) (off : Fin 256) (mx : Option Mx)
  | st (d base : Fin 64) (ty : Fin 16) (off : Fin 256) (mx : Option Mx)
  | ste (d base : Fin 64) (ty : Fin 16) (off : Fin 256) (mx : Option Mx)
  | ldu (d base : Fin 64) (ty : Fin 16) (off : Fin 256) (mx : Option Mx)
  | stu (d base : Fin 64) (ty : Fin 16) (off : Fin 256) (mx : Option Mx)
  | ldx (d base : Fin 64) (ty : Fin 16) (off : Fin 256) (gx : Gx)
  | stx (d base : Fin 64) (ty : Fin 16) (off : Fin 256) (gx : Gx)
  | ldp (d base : Fin 64) (ty : Fin 16) (off : Fin 256) (mx : Option Mx)
  | stp (d base : Fin 64) (ty : Fin 16) (off : Fin 256) (mx : Option Mx)
  | atom (d a b : Fin 64) (op : Fin 16) (fs : Bool) (mx : Option Mx)
  | atomc (x y z : Fin 64) (w : Fin 32) (fs : Bool) (mx : Option Mx)
  | red (a b : Fin 64) (op : Fin 16) (mx : Option Mx)
  | atomu (d a b : Fin 64) (op : Fin 16) (w32 fs : Bool) (mx : Option Mx)
  | fence (d : Fin 64) (scope : Fin 8)
  | cpin (base : Fin 64) (ways : Fin 16) (slot : Fin 4)
  | cunpin (slot : Fin 4)
  | cpref (base : Fin 64) (off : Fin 256) (mx : Option Mx)
  | cinv (kind : Fin 4) (base : Fin 64) (off : Fin 256)
  -- class TEN: tensor and solver instructions (R39)
  | tzero (x n : Fin 8) (fs : Bool)
  | tld (x : Fin 8) (y : Fin 64) (fs : Bool)
  | tst (x : Fin 8) (y : Fin 64) (rnd : Fin 8) (sat fs : Bool)
  | tmma (x : Fin 8) (y z : Fin 64) (zero rows fs : Bool)
  | tgang (fs : Bool)
  | tsweep (x y z : Fin 64) (w : Fin 32) (fs : Bool)
  | tred (x y : Fin 8) (op : Fin 4) (w : Fin 32) (fs : Bool)
  | tfact (x : Fin 8) (y : Fin 64) (fs : Bool)
  | ttrs (x y : Fin 8) (z : Fin 64) (fs : Bool)
  | tmov (x y : Fin 8) (z : Fin 64) (t fs : Bool)
  | tscl (x : Fin 8) (y z : Fin 64) (col scalar fs : Bool)
  -- class TSK: task, reducer, chunk, barrier and trap instructions (R39)
  | spawn (x y : Fin 64) (n : Fin 8) (split atom : Bool) (die : Fin 8) (hint : Bool)
  | spawnr (x y : Fin 64) (n : Fin 8) (split atom : Bool)
  | spawng (x y : Fin 64) (n b : Fin 8) (m : Fin 16) (raft split : Bool)
  | sync
  | pgrd (d a : Fin 64) (dep : Bool)
  | pgkey (d : Fin 64)
  | prng (x y : Fin 64) (j : Fin 4) (f32 fs : Bool)
  | palloc (d a : Fin 64) (k : Fin 16)
  | plog (a : Fin 64)
  | view (i : Fin 16) (a b : Fin 64) (op : Fin 8)
  | rdacc (i : Fin 16) (a b : Fin 64) (q : Fin 8) (neg : Bool)
  | rdget (d : Fin 64) (i : Fin 16) (fs : Bool)
  | chunk
  | chkst (d : Fin 64)
  | bar (scope : Fin 8) (b : Fin 16)
  | bara (d : Fin 64) (scope : Fin 8) (b : Fin 16)
  | barw (a : Fin 64) (scope : Fin 8) (b : Fin 16)
  | bari (a : Fin 64) (scope : Fin 8) (b : Fin 16)
  | barb (a : Fin 64) (scope : Fin 8) (b : Fin 16)
  | trap (code : BitVec 12)
  -- class BRG: copy-engine instructions (R39)
  | cpy (x y tag : Fin 64) (w : Fin 32) (fs : Bool)
  | cpyf (x y tag : Fin 64) (w : Fin 32) (fs : Bool)
  | wtagany (x y : Fin 64) (fs : Bool)
  | wtagall (x y : Fin 64) (fs : Bool)
  | tagff (x y : Fin 64) (fs : Bool)
  | tagclr (y : Fin 64) (fs : Bool)
  -- the steps of the other agents of the package (spec/95_what_each_step_holds.md)
  | frontierSelection (c : Nat)
  | longLatencyCompletion (c k : Nat)
  | sfuAcceptance (core : Nat)
  | chunkCommit (c : Nat)
  | softErrorFerry (c : Nat)
  | landingRequest (c : Nat)
  | invalidation (c line : Nat)
  | exclusiveMode (c : Nat)
  | tableWalk (c : Nat) (va : BitVec 64)
  | taskStart (c : Nat)
  | windowPlacement (c : Nat)
  | taskEnd (c : Nat)
  | steal (core : Nat)
  | frameReady (c : Nat)
  | viewMerge (c : Nat) (i : Fin 16)
  | userMergeRoutine (c : Nat) (i : Fin 16)
  | hintQueueTake (core : Nat)
  | gangStart (c : Nat)
  | bargeCommandEntry (c : Nat)
  | copyStart (core : Nat)
  | copyLineCommit (core k : Nat)
  | copyCompletion (core k : Nat)
  | tagWaitCompletion (core k : Nat)
  | tensorCommandEntry (c : Nat)
  | tensorCommandDispatch (core : Nat)
  | tensorCommandCompletion (core : Nat)
  | latchPairing (raft : Nat)
  | launchStart (slot : Nat)
  | launchCompletion (slot : Nat)
  | preemptionRequest (slot : Nat)
  | contextSave (slot : Nat)
  | stopTimeout (slot : Nat)
  | contextResume (slot : Nat)
  | doorbell (queue : Nat) (tail : BitVec 64)
  | bar0RegisterWrite (off : Nat) (value : BitVec 64)
  | bar2Write (off : Nat) (data : List (BitVec 8))
  | bar2Read (off len : Nat)
  | bar2AtomicOp (off : Nat) (w64 : Bool) (op : PcieOp) (operand compare : BitVec 64)
  | keyload (slot : Nat) (wrapped : BitVec 512)
  | keydestroy (slot : Nat)
  | preempt (queue : Nat)
  | checkpoint (queue : Nat) (dest : CkptPlace)
  | checkpointCopyDone (queue : Nat)
  | restore (queue : Nat) (source : CkptPlace)
  | fwstage (host len : Nat)
  | sensors (host : Nat)
  | window (i : Fin 64) (lo hi : BitVec 64)
  | bar2set (base key : BitVec 64)
  | evread (host first count : Nat)
  | peerInboundAccess (src off : Nat) (access : PeerAccess)
  | linkStateChange (peer : Nat) (state : LinkState)
  | linkTimeout (c : Nat)
  | fenceWaitEnd (c : Nat)
  | dieFailure (die : Nat)
  | powerCap (mw : Nat)
  | thermalTrip (die : Nat)
  | redirectCompletion (c : Nat) (pc : BitVec 57)
  | podBarrierMessage (msg : PodMessage)
  -- rows without an operand: RFT (class TSK), and four steps of the hub
  | rft
  | rotationTick
  | fwactivate
  | coldReset
  | warmReset
  deriving DecidableEq, Repr

end Sys2Proof
end

