-- ==== Sys2Proof/WellFormed.lean ====
section
/-! DEFINITION. Which field values of an instruction word are legal encodings (R28, R31 to R34, R41 and the encoding
rules of the instruction entries). What depends on the clause around the word is checked when it issues. -/
namespace Sys2Proof

/-- A route field is legal (R33). -/
def Route.wf : Route → Bool
  | .segb g p => decide (g.val ≤ 5) && decide (p.val < 2 ^ g.val)
  | _ => true

/-- The route is of kind IDX. -/
def Route.isIdx : Route → Bool
  | .idx _ _ => true
  | _ => false

/-- The instruction carries an IDX route (R24). -/
def hasIdx : Option Rx → Bool
  | none => false
  | some r => r.a.isIdx || r.b.isIdx || (match r.c with | some c => c.isIdx | none => false)

/-- The RX words are legal on an instruction whose routable operands and honoured modifiers are as named (R31, R32). -/
def rxOk (rx : Option Rx) (a b c rnd sat : Bool) : Bool :=
  match rx with
  | none => true
  | some r =>
    r.a.wf && r.b.wf && (a || r.a == .none) && (b || r.b == .none) &&
      (match r.c with | none => true | some rc => c && rc.wf) &&
      r.rnd.val != 7 && (rnd || r.rnd.val == 0) && (sat || !r.sat)

/-- The guard of an RX word, 0b0000 where there is none. -/
def rxGuard : Option Rx → Guard
  | none => ⟨false, 0⟩
  | some r => r.guard

/-- No guard (R137). -/
def rxUnguarded (rx : Option Rx) : Bool := rxGuard rx == ⟨false, 0⟩

/-- The hint of an MX word is legal (R34). -/
def mxOk : Option Mx → Bool
  | none => true
  | some m => decide (m.hint.val < 5)

/-- No guard (R179, R236). -/
def mxUnguarded : Option Mx → Bool
  | none => true
  | some m => m.guard == ⟨false, 0⟩

/-- The width in bits of an element of a tag code (R52); RAW and HND count as 64, the reserved code as 64. -/
def tagWidth (t : Fin 16) : Nat :=
  match t.val with
  | 1 | 5 | 13 => 8
  | 2 | 6 | 9 | 10 => 16
  | 3 | 7 | 11 => 32
  | _ => 64

/-- The number of elements of a tag code (R52). -/
def tagCount (t : Fin 16) : Nat := 64 / tagWidth t

/-- The number of index registers of a gather or scatter (R182). -/
def gxGroup (ty : Fin 16) (g : Gx) : Nat := (tagCount ty * (8 * 2 ^ g.iw.val) + 63) / 64

/-- The MX word of a gather or scatter is legal: the hint, and the index group within v63 (R179, R182). -/
def gxOk (ty : Fin 16) (g : Gx) : Bool :=
  decide (g.hint.val < 5) && decide (g.index.val + gxGroup ty g ≤ 64)

/-- An operation code that ATOM and ATOMU have (R235, R236). -/
def atomOp (op : Fin 16) : Bool := !(op.val == 1 || op.val == 10 || op.val == 14 || op.val == 15)

/-- An operation code that RED has (R235, R236). -/
def redOp (op : Fin 16) : Bool := atomOp op && op.val != 9 && op.val != 13

/-- The static legality of an instruction word (R28, R32, R41): the rules of encoding that name ILLEGAL for a
value of a field of the word, or of its extension words, whatever the clause and the state. The events carry no
word and are well formed. -/
def Instr.wf : Instr → Bool
  | .nop => true
  | .bra _ => true
  | .brz _ _ _ => true
  | .brnz _ _ _ => true
  | .brq _ _ _ => true
  | .jmpi _ => true
  | .call _ => true
  | .calli _ => true
  | .ret => true
  | .exit => true
  | .safept _ => true
  | .waitf _ => true
  | .rep _ _ => true
  | .brk _ => true
  | .sadd _ _ _ => true
  | .ssub _ _ _ => true
  | .smul _ _ _ => true
  | .smulh _ _ _ => true
  | .smulhz _ _ _ => true
  | .sand _ _ _ => true
  | .sor _ _ _ => true
  | .sxor _ _ _ => true
  | .sshl _ _ _ => true
  | .sshr _ _ _ => true
  | .ssar _ _ _ => true
  | .smin _ _ _ => true
  | .smax _ _ _ => true
  | .sminz _ _ _ => true
  | .smaxz _ _ _ => true
  | .scmp _ _ _ cc => decide (cc.val < 10)
  | .ssel _ _ _ _ => true
  | .smov _ _ => true
  | .spopc _ _ => true
  | .sclz _ _ => true
  | .saddi _ _ _ => true
  | .sandi _ _ _ => true
  | .sori _ _ _ => true
  | .sshli _ _ _ => true
  | .sshri _ _ _ => true
  | .smovk _ _ _ => true
  | .smovz _ _ _ => true
  | .slimm _ _ => true
  | .srdl _ _ _ _ => true
  | .mfsr _ _ => true
  | .mtsr _ _ => true
  | .vmov _ _ fs rx => rxOk rx true false false false false && (!fs || hasIdx rx)
  | .vadd _ _ _ fs rx => rxOk rx true true false false false && (!fs || hasIdx rx)
  | .vsub _ _ _ fs rx => rxOk rx true true false false false && (!fs || hasIdx rx)
  | .vadds _ _ _ fs rx => rxOk rx true true false false false && (!fs || hasIdx rx)
  | .vsubs _ _ _ fs rx => rxOk rx true true false false false && (!fs || hasIdx rx)
  | .vmul _ _ _ fs rx => rxOk rx true true false false true && (!fs || hasIdx rx)
  | .vmulh _ _ _ fs rx => rxOk rx true true false false false && (!fs || hasIdx rx)
  | .vmad _ _ _ c fs rx => rxOk rx true true true false true && (!fs || hasIdx rx) && (!hasIdx rx || decide (c.val < 32))
  | .vmin _ _ _ fs rx => rxOk rx true true false false false && (!fs || hasIdx rx)
  | .vmax _ _ _ fs rx => rxOk rx true true false false false && (!fs || hasIdx rx)
  | .vabs _ _ fs rx => rxOk rx true false false false true && (!fs || hasIdx rx)
  | .vneg _ _ fs rx => rxOk rx true false false false true && (!fs || hasIdx rx)
  | .vabsd _ _ _ fs rx => rxOk rx true true false false true && (!fs || hasIdx rx)
  | .vand _ _ _ fs rx => rxOk rx true true false false false && (!fs || hasIdx rx)
  | .vor _ _ _ fs rx => rxOk rx true true false false false && (!fs || hasIdx rx)
  | .vxor _ _ _ fs rx => rxOk rx true true false false false && (!fs || hasIdx rx)
  | .vandn _ _ _ fs rx => rxOk rx true true false false false && (!fs || hasIdx rx)
  | .vnot _ _ fs rx => rxOk rx true false false false false && (!fs || hasIdx rx)
  | .vshl _ _ _ fs rx => rxOk rx true true false false false && (!fs || hasIdx rx)
  | .vshr _ _ _ fs rx => rxOk rx true true false false false && (!fs || hasIdx rx)
  | .vsar _ _ _ fs rx => rxOk rx true true false false false && (!fs || hasIdx rx)
  | .vrol _ _ _ fs rx => rxOk rx true true false false false && (!fs || hasIdx rx)
  | .vbfx _ _ _ c fs rx => rxOk rx true true true false false && (!fs || hasIdx rx) && (!hasIdx rx || decide (c.val < 32))
  | .vbfi _ _ _ c fs rx => rxOk rx true true true false false && (!fs || hasIdx rx) && (!hasIdx rx || decide (c.val < 32))
  | .vpopc _ _ fs rx => rxOk rx true false false false false && (!fs || hasIdx rx)
  | .vclz _ _ fs rx => rxOk rx true false false false false && (!fs || hasIdx rx)
  | .vbrev _ _ fs rx => rxOk rx true false false false false && (!fs || hasIdx rx)
  | .vcmp _ _ _ cc fs rx => decide (cc.val < 10) && rxOk rx true true false false false && (!fs || hasIdx rx)
  | .vsel _ _ _ _ fs rx => rxOk rx true true false false false && (!fs || hasIdx rx)
  | .vqop _ _ b op rx => decide (op.val < 6) && (decide (op.val < 4) || b.val == 0) && rxOk rx false false false false false
  | .vqmov d a dir fs rx => (if dir then decide (a.val < 8) else decide (d.val < 8)) && rxOk rx (!dir) false false false false && (!fs || hasIdx rx)
  | .vaddi _ _ _ rx => rxOk rx true false false false false
  | .vandi _ _ _ rx => rxOk rx true false false false false
  | .vori _ _ _ rx => rxOk rx true false false false false
  | .vxori _ _ _ rx => rxOk rx true false false false false
  | .vshli _ _ _ rx => rxOk rx true false false false false
  | .vshri _ _ _ rx => rxOk rx true false false false false
  | .vsari _ _ _ rx => rxOk rx true false false false false
  | .vmovi _ _ _ rx => rxOk rx false false false false false
  | .vlimm _ _ => true
  | .viota _ _ tag rx => decide (1 ≤ tag.val) && decide (tag.val ≤ 8) && rxOk rx false false false false false
  | .vwrl _ _ _ c fs rx => rxOk rx true false false false false && (!fs || hasIdx rx) && (!hasIdx rx || decide (c.val < 32))
  | .vvote _ _ mode fs rx => decide (mode.val < 3) && rxOk rx true false false false false && (!fs || hasIdx rx)
  | .vballot _ _ fs rx => rxOk rx true false false false false && (!fs || hasIdx rx)
  | .vmatch _ _ fs rx => rxOk rx true false false false false && (!fs || hasIdx rx)
  | .vfirst _ _ fs rx => rxOk rx true false false false false && (!fs || hasIdx rx)
  | .vactive _ rx => rxOk rx false false false false false
  | .fadd _ _ _ fs rx => rxOk rx true true false true true && (!fs || hasIdx rx)
  | .fsub _ _ _ fs rx => rxOk rx true true false true true && (!fs || hasIdx rx)
  | .fmul _ _ _ fs rx => rxOk rx true true false true true && (!fs || hasIdx rx)
  | .fma _ _ _ c fs rx => rxOk rx true true true true true && (!fs || hasIdx rx) && (!hasIdx rx || decide (c.val < 32))
  | .fms _ _ _ c fs rx => rxOk rx true true true true true && (!fs || hasIdx rx) && (!hasIdx rx || decide (c.val < 32))
  | .fnma _ _ _ c fs rx => rxOk rx true true true true true && (!fs || hasIdx rx) && (!hasIdx rx || decide (c.val < 32))
  | .fmin _ _ _ fs rx => rxOk rx true true false false false && (!fs || hasIdx rx)
  | .fmax _ _ _ fs rx => rxOk rx true true false false false && (!fs || hasIdx rx)
  | .fminn _ _ _ fs rx => rxOk rx true true false false false && (!fs || hasIdx rx)
  | .fmaxn _ _ _ fs rx => rxOk rx true true false false false && (!fs || hasIdx rx)
  | .fabs _ _ fs rx => rxOk rx true false false false false && (!fs || hasIdx rx)
  | .fneg _ _ fs rx => rxOk rx true false false false false && (!fs || hasIdx rx)
  | .fcps _ _ _ fs rx => rxOk rx true true false false false && (!fs || hasIdx rx)
  | .fcmp _ _ _ cc fs rx => decide (cc.val < 10) && rxOk rx true true false false false && (!fs || hasIdx rx)
  | .fclass _ _ fs rx => rxOk rx true false false false false && (!fs || hasIdx rx)
  | .frnd _ _ fs rx => rxOk rx true false false true false && (!fs || hasIdx rx)
  | .fdot2 _ _ _ c fs rx => rxOk rx true true true true true && (!fs || hasIdx rx) && (!hasIdx rx || decide (c.val < 32))
  | .fdot4 _ _ _ c fs rx => rxOk rx true true true true true && (!fs || hasIdx rx) && (!hasIdx rx || decide (c.val < 32))
  | .fscale _ _ _ fs rx => rxOk rx true true false true true && (!fs || hasIdx rx)
  | .fgetx _ _ fs rx => rxOk rx true false false false false && (!fs || hasIdx rx)
  | .fpivg _ _ _ c fs rx => rxOk rx true true true false false && (!fs || hasIdx rx) && (!hasIdx rx || decide (c.val < 32))
  | .frcp _ _ _ rx => rxOk rx true false false false false
  | .frsq _ _ _ rx => rxOk rx true false false false false
  | .fsqrt _ _ _ rx => rxOk rx true false false false false
  | .fdiv _ _ _ _ rx => rxOk rx true true false false false
  | .fexp2 _ _ _ rx => rxOk rx true false false false false
  | .flog2 _ _ _ rx => rxOk rx true false false false false
  | .fsinp _ _ _ rx => rxOk rx true false false false false
  | .fcosp _ _ _ rx => rxOk rx true false false false false
  | .ftanh _ _ _ rx => rxOk rx true false false false false
  | .cvt _ _ _ tag fs rx => decide (1 ≤ tag.val) && decide (tag.val ≤ 13) && rxOk rx true false false true true && (!fs || hasIdx rx)
  | .cvts _ _ _ _ fs rx => rxOk rx true true false true true && (!fs || hasIdx rx)
  | .fmaxx _ _ b acc fs rx => (acc || b.val == 0) && rxOk rx true acc false false false && (!fs || hasIdx rx)
  | .vsettag _ _ tag fs rx => decide (tag.val ≤ 13) && rxOk rx true false false false false && (!fs || hasIdx rx)
  | .vgettag _ _ fs rx => rxOk rx true false false false false && (!fs || hasIdx rx)
  | .sclget _ _ rx => rxOk rx false false false false false
  | .sclset _ _ rx => rxUnguarded rx && rxOk rx false false false false false
  | .flimm _ _ => true
  | .ord order scope => decide (order.val < 5) && decide (scope.val < 7)
  | .ld _ _ ty _ mx => ty.val != 14 && mxOk mx
  | .lde _ _ ty _ mx => ty.val != 14 && mxOk mx
  | .st _ _ ty _ mx => ty.val != 14 && mxOk mx
  | .ste _ _ ty _ mx => ty.val != 14 && mxOk mx
  | .ldu _ _ ty _ mx => ty.val != 14 && mxUnguarded mx && mxOk mx
  | .stu _ _ ty _ mx => ty.val != 14 && mxUnguarded mx && mxOk mx
  | .ldx _ _ ty _ gx => ty.val != 14 && gxOk ty gx
  | .stx _ _ ty _ gx => ty.val != 14 && gxOk ty gx
  | .ldp d _ ty _ mx => ty.val != 14 && d.val != 63 && mxOk mx
  | .stp d _ ty _ mx => ty.val != 14 && d.val != 63 && mxOk mx
  | .atom _ _ _ op _ mx => atomOp op && mxOk mx
  | .atomc _ _ _ _ _ mx => mxOk mx
  | .red _ _ op mx => redOp op && mxOk mx
  | .atomu _ _ _ op w32 _ mx => mxUnguarded mx && (atomOp op && (w32 || op.val != 13)) && mxOk mx
  | .fence _ scope => decide (scope.val < 7)
  | .cpin base ways _ => decide (base.val ≤ 62) && decide (1 ≤ ways.val) && decide (ways.val ≤ 12)
  | .cunpin _ => true
  | .cpref _ _ mx => mxOk mx
  | .cinv kind _ _ => kind.val != 3
  | .tzero x n _ => decide (x.val + n.val < 8)
  | .tld _ _ _ => true
  | .tst _ _ rnd _ _ => rnd.val != 7
  | .tmma _ _ _ _ _ _ => true
  | .tgang _ => true
  | .tsweep _ _ _ _ _ => true
  | .tred _ _ op _ _ => op.val != 3
  | .tfact _ y _ => decide (y.val ≤ 60)
  | .ttrs _ _ _ _ => true
  | .tmov _ _ _ _ _ => true
  | .tscl _ _ _ _ _ _ => true
  | .spawn _ y n _ _ _ _ => decide (y.val + n.val ≤ 64)
  | .spawnr _ y n _ _ => decide (n.val ≤ 5) && decide (y.val + 3 + n.val ≤ 64)
  | .spawng _ y n _ m _ _ => decide (n.val ≤ 6) && m.val != 0 && decide (y.val + n.val ≤ 64)
  | .sync => true
  | .pgrd _ a dep => (!dep || a.val == 0)
  | .pgkey _ => true
  | .prng _ _ _ _ _ => true
  | .palloc _ _ k => decide (k.val ≤ 12)
  | .plog a => decide (a.val ≤ 60)
  | .view _ a b op => (match op.val with | 0 => true | 1 => decide (b.val ≤ 62) | 2 => decide (a.val ≤ 56) && b.val == 0 | _ => false)
  | .rdacc _ _ _ _ _ => true
  | .rdget _ _ _ => true
  | .chunk => true
  | .chkst _ => true
  | .bar _ _ => true
  | .bara _ _ _ => true
  | .barw _ _ _ => true
  | .bari _ _ _ => true
  | .barb _ _ _ => true
  | .trap _ => true
  | .rft => true
  | .cpy _ _ _ _ _ => true
  | .cpyf _ _ _ _ _ => true
  | .wtagany _ _ _ => true
  | .wtagall _ _ _ => true
  | .tagff _ _ _ => true
  | .tagclr _ _ => true
  | .frontierSelection _ => true
  | .longLatencyCompletion _ _ => true
  | .sfuAcceptance _ => true
  | .chunkCommit _ => true
  | .softErrorFerry _ => true
  | .landingRequest _ => true
  | .invalidation _ _ => true
  | .exclusiveMode _ => true
  | .tableWalk _ _ => true
  | .taskStart _ => true
  | .windowPlacement _ => true
  | .taskEnd _ => true
  | .steal _ => true
  | .frameReady _ => true
  | .viewMerge _ _ => true
  | .userMergeRoutine _ _ => true
  | .hintQueueTake _ => true
  | .gangStart _ => true
  | .bargeCommandEntry _ => true
  | .copyStart _ => true
  | .copyLineCommit _ _ => true
  | .copyCompletion _ _ => true
  | .tagWaitCompletion _ _ => true
  | .tensorCommandEntry _ => true
  | .tensorCommandDispatch _ => true
  | .tensorCommandCompletion _ => true
  | .latchPairing _ => true
  | .launchStart _ => true
  | .launchCompletion _ => true
  | .preemptionRequest _ => true
  | .contextSave _ => true
  | .stopTimeout _ => true
  | .contextResume _ => true
  | .rotationTick => true
  | .doorbell _ _ => true
  | .bar0RegisterWrite _ _ => true
  | .bar2Write _ _ => true
  | .bar2Read _ _ => true
  | .bar2AtomicOp _ _ _ _ _ => true
  | .keyload _ _ => true
  | .keydestroy _ => true
  | .preempt _ => true
  | .checkpoint _ _ => true
  | .checkpointCopyDone _ => true
  | .restore _ _ => true
  | .fwstage _ _ => true
  | .fwactivate => true
  | .sensors _ => true
  | .window _ _ _ => true
  | .bar2set _ _ => true
  | .evread _ _ _ => true
  | .peerInboundAccess _ _ _ => true
  | .linkStateChange _ _ => true
  | .linkTimeout _ => true
  | .fenceWaitEnd _ => true
  | .dieFailure _ => true
  | .powerCap _ => true
  | .thermalTrip _ => true
  | .coldReset => true
  | .warmReset => true
  | .redirectCompletion _ _ => true
  | .podBarrierMessage _ => true

end Sys2Proof
end

