-- ==== Sys2Proof/Machine/Flags.lean ====
section
/-! DEFINITION. Values, comparisons and sticky flags: the integer families of the format tags, condition codes,
saturation, and the FPFLAGS bits. -/
namespace Sys2Proof.Machine

/-- FPFLAGS (R70): SAT, NX, UF, OF, DZ, NV in bits [5:0]. -/
abbrev FpFlags := BitVec 6

def fNV : FpFlags := 0x01
def fDZ : FpFlags := 0x02
def fOF : FpFlags := 0x04
def fUF : FpFlags := 0x08
def fNX : FpFlags := 0x10
def fSAT : FpFlags := 0x20

/-- The tag codes of R52 that the rules name. -/
def tRAW : Fin 16 := 0
def tS32 : Fin 16 := 3
def tZ8 : Fin 16 := 5
def tZ64 : Fin 16 := 8
def tF16 : Fin 16 := 9
def tBF16 : Fin 16 := 10
def tF32 : Fin 16 := 11
def tF64 : Fin 16 := 12
def tM8 : Fin 16 := 13
def tHND : Fin 16 := 15

/-- The family of a tag (R52). -/
def tagSigned (t : Fin 16) : Bool := decide (1 ≤ t.val) && decide (t.val ≤ 4)
def tagUnsigned (t : Fin 16) : Bool := decide (5 ≤ t.val) && decide (t.val ≤ 8)
def tagInt (t : Fin 16) : Bool := decide (1 ≤ t.val) && decide (t.val ≤ 8)
/-- The four binary floating-point formats (R127). -/
def tagBin (t : Fin 16) : Bool := decide (9 ≤ t.val) && decide (t.val ≤ 12)

/-- The w-bit pattern `n` read as a two's-complement integer. -/
def signedOf (w n : Nat) : Int := if n < 2 ^ (w - 1) then (n : Int) else (n : Int) - (2 ^ w : Nat)

/-- An element read by its tag's signedness (R114). -/
def elemInt (t : Fin 16) (n : Nat) : Int := if tagSigned t then signedOf (tagWidth t) n else n

/-- `wrap(x)` of R114: x mod 2^w as a pattern. -/
def wrapInt (w : Nat) (x : Int) : Nat := (x % ((2 ^ w : Nat) : Int)).toNat

/-- min and max of an integer element (R114). -/
def intMin (signed : Bool) (w : Nat) : Int := if signed then -((2 ^ (w - 1) : Nat) : Int) else 0
def intMax (signed : Bool) (w : Nat) : Int :=
  if signed then ((2 ^ (w - 1) : Nat) : Int) - 1 else ((2 ^ w : Nat) : Int) - 1

/-- Saturation (R114): the value and whether it was replaced. -/
def saturate (signed : Bool) (w : Nat) (x : Int) : Int × Bool :=
  if x < intMin signed w then (intMin signed w, true)
  else if intMax signed w < x then (intMax signed w, true)
  else (x, false)

/-- A condition code on two w-bit patterns (R115); codes above 9 are refused by the decoder. -/
def condInt (signed : Bool) (w cc a b : Nat) : Bool :=
  let x := if signed then signedOf w a else (a : Int)
  let y := if signed then signedOf w b else (b : Int)
  match cc with
  | 0 => a == b
  | 1 => a != b
  | 2 => decide (x < y)
  | 3 => decide (x ≤ y)
  | 4 => decide (x > y)
  | 5 => decide (x ≥ y)
  | 6 => decide (a < b)
  | 7 => decide (a ≤ b)
  | 8 => decide (a > b)
  | 9 => decide (a ≥ b)
  | _ => false

/-- The number of 1 bits among the low `w` bits. -/
def popcount : Nat → Nat → Nat
  | 0, _ => 0
  | w + 1, n => n % 2 + popcount w (n / 2)

/-- The bits of an `w`-bit pattern in reverse order (R123 VBREV). -/
def bitReverse : Nat → Nat → Nat
  | 0, _ => 0
  | w + 1, n => n % 2 * 2 ^ w + bitReverse w (n / 2)

/-- Leading zero bits of a `w`-bit pattern, `w` for zero. -/
def leadingZeros (w n : Nat) : Nat := if n = 0 then w else w - 1 - Nat.log2 n

/-- Bit-wise complement of a `w`-bit pattern. -/
def notBits (w n : Nat) : Nat := 2 ^ w - 1 - n % 2 ^ w

/-- Shifts of a `w`-bit pattern by any count (R117, R123). -/
def shlBits (w a k : Nat) : Nat := if w ≤ k then 0 else a * 2 ^ k % 2 ^ w
def shrBits (w a k : Nat) : Nat := if w ≤ k then 0 else a / 2 ^ k
def sarBits (w a k : Nat) : Nat :=
  if w ≤ k then (if 2 ^ (w - 1) ≤ a then 2 ^ w - 1 else 0) else wrapInt w (signedOf w a / ((2 ^ k : Nat) : Int))
def rolBits (w a k : Nat) : Nat :=
  let j := k % w
  a * 2 ^ j % 2 ^ w + a / 2 ^ (w - j)

end Sys2Proof.Machine
end

