-- ==== Sys2Proof/Decode.lean ====
section
/-! DEFINITION. From the words of a clause to instructions, and back: the decoder (R16 to R42), the encoder, and the
static shape of a clause. -/
namespace Sys2Proof

/-- A route field of 11 bits (R33): KIND in [10:8], PARAM in [7:0]; `none` where R33 names ILLEGAL for zero bits
(the bounds of SEGB are WellFormed's). -/
def decodeRoute (n : Nat) : Option Route :=
  match bits n 8 3 with
  | 0 => if bits n 0 8 == 0 then some .none else none
  | 1 => some (.rot (fin 32 (bits n 0 5)) (fin 8 (bits n 5 3)))
  | 2 => some (.bcst (fin 32 (bits n 0 5)) (fin 8 (bits n 5 3)))
  | 3 => some (.xor (fin 32 (bits n 0 5)) (fin 8 (bits n 5 3)))
  | 4 => some (.idx (fin 64 (bits n 0 6)) (fin 4 (bits n 6 2)))
  | 5 => if bits n 5 2 == 0 then some (.shup (fin 32 (bits n 0 5)) (bit n 7)) else none
  | 6 => if bits n 5 2 == 0 then some (.shdn (fin 32 (bits n 0 5)) (bit n 7)) else none
  | _ => some (.segb (fin 8 (bits n 0 3)) (fin 32 (bits n 3 5)))

/-- A GUARD field of 4 bits: [3] negate, [2:0] q. -/
def decodeGuard (n : Nat) : Guard := ⟨bit n 3, fin 8 (bits n 0 3)⟩

/-- The RX words (R31): `r1`, and `r2` where MORE is set; `none` for a nonzero reserved bit or an illegal route. -/
def decodeRx (r1 : Nat) (r2 : Option Nat) : Option Rx :=
  if bits r1 0 1 == 0 then
    match decodeRoute (bits r1 21 11), decodeRoute (bits r1 10 11) with
    | some a, some b =>
      let mk := fun c => Rx.mk a b (decodeGuard (bits r1 6 4)) (fin 8 (bits r1 3 3)) (bit r1 2) c
      match r2 with
      | none => some (mk none)
      | some w2 =>
        if bits w2 0 21 == 0 then
          match decodeRoute (bits w2 21 11) with
          | some c => some (mk (some c))
          | none => none
        else none
    | _, _ => none
  else none

/-- The MX word of an access without an index (R34): bits [31:20] and [12:0] are zero. -/
def decodeMx (m : Nat) : Option Mx :=
  if bits m 0 13 == 0 && bits m 20 12 == 0 then some ⟨decodeGuard (bits m 16 4), fin 8 (bits m 13 3)⟩ else none

/-- The MX word of LDX and STX (R34). -/
def decodeGx (m : Nat) : Option Gx :=
  if bits m 0 13 == 0 then
    some ⟨fin 64 (bits m 26 6), fin 4 (bits m 24 2), bit m 23, fin 8 (bits m 20 3), decodeGuard (bits m 16 4),
      fin 8 (bits m 13 3)⟩
  else none

/-- Operand C of a form-A word of VI or VF: with an IDX route C[5] is FS and the register is among the first 32 (R24). -/
def cReg (w : Nat) (rx : Option Rx) : Fin 64 := if hasIdx rx then fin 64 (bits w 0 5) else fin 64 (bits w 0 6)

/-- FS beside a register in C: C[5] where there is an IDX route, else absent (R24). -/
def cFs (w : Nat) (rx : Option Rx) : Bool := hasIdx rx && bit w 5

/-- Class SEQ (R39): the instruction that bits [23:0] of `w` encode under OP `op`; `none` for an OP the class
does not assign and for a nonzero unused bit (R28, R40). Literals are decoded by `decodeLit`. -/
def decodeSeq (w op : Nat) : Option Instr :=
  match op with
  | 0x0 => if bits w 0 24 == 0 then some (.nop) else none
  | 0x1 => some (.bra (BitVec.ofNat 24 (bits w 0 24)))
  | 0x2 => if bits w 19 5 == 0 then some (.brz (bit w 18) (fin 64 (bits w 12 6)) (BitVec.ofNat 12 (bits w 0 12))) else none
  | 0x3 => if bits w 19 5 == 0 then some (.brnz (bit w 18) (fin 64 (bits w 12 6)) (BitVec.ofNat 12 (bits w 0 12))) else none
  | 0x4 => some (.brq (fin 8 (bits w 21 3)) (bit w 20) (BitVec.ofNat 20 (bits w 0 20)))
  | 0x5 => if bits w 0 12 == 0 && bits w 18 6 == 0 then some (.jmpi (fin 64 (bits w 12 6))) else none
  | 0x6 => some (.call (BitVec.ofNat 24 (bits w 0 24)))
  | 0x7 => if bits w 0 12 == 0 && bits w 18 6 == 0 then some (.calli (fin 64 (bits w 12 6))) else none
  | 0x8 => if bits w 0 24 == 0 then some (.ret) else none
  | 0x9 => if bits w 0 24 == 0 then some (.exit) else none
  | 0xa => if bits w 20 4 == 0 then some (.safept (BitVec.ofNat 20 (bits w 0 20))) else none
  | 0xb => if bits w 12 12 == 0 then some (.waitf (BitVec.ofNat 12 (bits w 0 12))) else none
  | 0xc => if bits w 0 14 == 0 then some (.rep (fin 64 (bits w 18 6)) (BitVec.ofNat 4 (bits w 14 4))) else none
  | 0xd => if bits w 12 12 == 0 then some (.brk (BitVec.ofNat 12 (bits w 0 12))) else none
  | 0x10 => if bits w 0 6 == 0 then some (.sadd (fin 64 (bits w 18 6)) (fin 64 (bits w 12 6)) (fin 64 (bits w 6 6))) else none
  | 0x11 => if bits w 0 6 == 0 then some (.ssub (fin 64 (bits w 18 6)) (fin 64 (bits w 12 6)) (fin 64 (bits w 6 6))) else none
  | 0x12 => if bits w 0 6 == 0 then some (.smul (fin 64 (bits w 18 6)) (fin 64 (bits w 12 6)) (fin 64 (bits w 6 6))) else none
  | 0x13 => if bits w 0 6 == 0 then some (.smulh (fin 64 (bits w 18 6)) (fin 64 (bits w 12 6)) (fin 64 (bits w 6 6))) else none
  | 0x14 => if bits w 0 6 == 0 then some (.smulhz (fin 64 (bits w 18 6)) (fin 64 (bits w 12 6)) (fin 64 (bits w 6 6))) else none
  | 0x15 => if bits w 0 6 == 0 then some (.sand (fin 64 (bits w 18 6)) (fin 64 (bits w 12 6)) (fin 64 (bits w 6 6))) else none
  | 0x16 => if bits w 0 6 == 0 then some (.sor (fin 64 (bits w 18 6)) (fin 64 (bits w 12 6)) (fin 64 (bits w 6 6))) else none
  | 0x17 => if bits w 0 6 == 0 then some (.sxor (fin 64 (bits w 18 6)) (fin 64 (bits w 12 6)) (fin 64 (bits w 6 6))) else none
  | 0x18 => if bits w 0 6 == 0 then some (.sshl (fin 64 (bits w 18 6)) (fin 64 (bits w 12 6)) (fin 64 (bits w 6 6))) else none
  | 0x19 => if bits w 0 6 == 0 then some (.sshr (fin 64 (bits w 18 6)) (fin 64 (bits w 12 6)) (fin 64 (bits w 6 6))) else none
  | 0x1a => if bits w 0 6 == 0 then some (.ssar (fin 64 (bits w 18 6)) (fin 64 (bits w 12 6)) (fin 64 (bits w 6 6))) else none
  | 0x1b => if bits w 0 6 == 0 then some (.smin (fin 64 (bits w 18 6)) (fin 64 (bits w 12 6)) (fin 64 (bits w 6 6))) else none
  | 0x1c => if bits w 0 6 == 0 then some (.smax (fin 64 (bits w 18 6)) (fin 64 (bits w 12 6)) (fin 64 (bits w 6 6))) else none
  | 0x1d => if bits w 0 6 == 0 then some (.sminz (fin 64 (bits w 18 6)) (fin 64 (bits w 12 6)) (fin 64 (bits w 6 6))) else none
  | 0x1e => if bits w 0 6 == 0 then some (.smaxz (fin 64 (bits w 18 6)) (fin 64 (bits w 12 6)) (fin 64 (bits w 6 6))) else none
  | 0x1f => if bits w 4 2 == 0 then some (.scmp (fin 64 (bits w 18 6)) (fin 64 (bits w 12 6)) (fin 64 (bits w 6 6)) (fin 16 (bits w 0 4))) else none
  | 0x20 => some (.ssel (fin 64 (bits w 18 6)) (fin 64 (bits w 12 6)) (fin 64 (bits w 6 6)) (fin 64 (bits w 0 6)))
  | 0x21 => if bits w 0 12 == 0 then some (.smov (fin 64 (bits w 18 6)) (fin 64 (bits w 12 6))) else none
  | 0x22 => if bits w 0 12 == 0 then some (.spopc (fin 64 (bits w 18 6)) (fin 64 (bits w 12 6))) else none
  | 0x23 => if bits w 0 12 == 0 then some (.sclz (fin 64 (bits w 18 6)) (fin 64 (bits w 12 6))) else none
  | 0x28 => some (.saddi (fin 64 (bits w 18 6)) (fin 64 (bits w 12 6)) (BitVec.ofNat 12 (bits w 0 12)))
  | 0x29 => some (.sandi (fin 64 (bits w 18 6)) (fin 64 (bits w 12 6)) (BitVec.ofNat 12 (bits w 0 12)))
  | 0x2a => some (.sori (fin 64 (bits w 18 6)) (fin 64 (bits w 12 6)) (BitVec.ofNat 12 (bits w 0 12)))
  | 0x2b => if bits w 6 6 == 0 then some (.sshli (fin 64 (bits w 18 6)) (fin 64 (bits w 12 6)) (fin 64 (bits w 0 6))) else none
  | 0x2c => if bits w 6 6 == 0 then some (.sshri (fin 64 (bits w 18 6)) (fin 64 (bits w 12 6)) (fin 64 (bits w 0 6))) else none
  | 0x2d => some (.smovk (fin 64 (bits w 18 6)) (fin 4 (bits w 16 2)) (BitVec.ofNat 16 (bits w 0 16)))
  | 0x2e => some (.smovz (fin 64 (bits w 18 6)) (fin 4 (bits w 16 2)) (BitVec.ofNat 16 (bits w 0 16)))
  | 0x30 => if bits w 5 1 == 0 then some (.srdl (fin 64 (bits w 18 6)) (fin 64 (bits w 12 6)) (fin 64 (bits w 6 6)) (fin 32 (bits w 0 5))) else none
  | 0x38 => if bits w 12 6 == 0 then some (.mfsr (fin 64 (bits w 18 6)) (BitVec.ofNat 12 (bits w 0 12))) else none
  | 0x39 => if bits w 18 6 == 0 then some (.mtsr (BitVec.ofNat 12 (bits w 0 12)) (fin 64 (bits w 12 6))) else none
  | _ => none

/-- Class VI (R39): the instruction that bits [23:0] of `w` encode under OP `op`; `none` for an OP the class
does not assign and for a nonzero unused bit (R28, R40). Literals are decoded by `decodeLit`. -/
def decodeVI (w op : Nat) (rx : Option Rx) : Option Instr :=
  match op with
  | 0x0 => if bits w 0 5 == 0 && bits w 6 6 == 0 then some (.vmov (fin 64 (bits w 18 6)) (fin 64 (bits w 12 6)) (bit w 5) rx) else none
  | 0x1 => if bits w 0 5 == 0 then some (.vadd (fin 64 (bits w 18 6)) (fin 64 (bits w 12 6)) (fin 64 (bits w 6 6)) (bit w 5) rx) else none
  | 0x2 => if bits w 0 5 == 0 then some (.vsub (fin 64 (bits w 18 6)) (fin 64 (bits w 12 6)) (fin 64 (bits w 6 6)) (bit w 5) rx) else none
  | 0x3 => if bits w 0 5 == 0 then some (.vadds (fin 64 (bits w 18 6)) (fin 64 (bits w 12 6)) (fin 64 (bits w 6 6)) (bit w 5) rx) else none
  | 0x4 => if bits w 0 5 == 0 then some (.vsubs (fin 64 (bits w 18 6)) (fin 64 (bits w 12 6)) (fin 64 (bits w 6 6)) (bit w 5) rx) else none
  | 0x5 => if bits w 0 5 == 0 then some (.vmul (fin 64 (bits w 18 6)) (fin 64 (bits w 12 6)) (fin 64 (bits w 6 6)) (bit w 5) rx) else none
  | 0x6 => if bits w 0 5 == 0 then some (.vmulh (fin 64 (bits w 18 6)) (fin 64 (bits w 12 6)) (fin 64 (bits w 6 6)) (bit w 5) rx) else none
  | 0x7 => some (.vmad (fin 64 (bits w 18 6)) (fin 64 (bits w 12 6)) (fin 64 (bits w 6 6)) (cReg w rx) (cFs w rx) rx)
  | 0x8 => if bits w 0 5 == 0 then some (.vmin (fin 64 (bits w 18 6)) (fin 64 (bits w 12 6)) (fin 64 (bits w 6 6)) (bit w 5) rx) else none
  | 0x9 => if bits w 0 5 == 0 then some (.vmax (fin 64 (bits w 18 6)) (fin 64 (bits w 12 6)) (fin 64 (bits w 6 6)) (bit w 5) rx) else none
  | 0xa => if bits w 0 5 == 0 && bits w 6 6 == 0 then some (.vabs (fin 64 (bits w 18 6)) (fin 64 (bits w 12 6)) (bit w 5) rx) else none
  | 0xb => if bits w 0 5 == 0 && bits w 6 6 == 0 then some (.vneg (fin 64 (bits w 18 6)) (fin 64 (bits w 12 6)) (bit w 5) rx) else none
  | 0xc => if bits w 0 5 == 0 then some (.vabsd (fin 64 (bits w 18 6)) (fin 64 (bits w 12 6)) (fin 64 (bits w 6 6)) (bit w 5) rx) else none
  | 0x10 => if bits w 0 5 == 0 then some (.vand (fin 64 (bits w 18 6)) (fin 64 (bits w 12 6)) (fin 64 (bits w 6 6)) (bit w 5) rx) else none
  | 0x11 => if bits w 0 5 == 0 then some (.vor (fin 64 (bits w 18 6)) (fin 64 (bits w 12 6)) (fin 64 (bits w 6 6)) (bit w 5) rx) else none
  | 0x12 => if bits w 0 5 == 0 then some (.vxor (fin 64 (bits w 18 6)) (fin 64 (bits w 12 6)) (fin 64 (bits w 6 6)) (bit w 5) rx) else none
  | 0x13 => if bits w 0 5 == 0 then some (.vandn (fin 64 (bits w 18 6)) (fin 64 (bits w 12 6)) (fin 64 (bits w 6 6)) (bit w 5) rx) else none
  | 0x14 => if bits w 0 5 == 0 && bits w 6 6 == 0 then some (.vnot (fin 64 (bits w 18 6)) (fin 64 (bits w 12 6)) (bit w 5) rx) else none
  | 0x15 => if bits w 0 5 == 0 then some (.vshl (fin 64 (bits w 18 6)) (fin 64 (bits w 12 6)) (fin 64 (bits w 6 6)) (bit w 5) rx) else none
  | 0x16 => if bits w 0 5 == 0 then some (.vshr (fin 64 (bits w 18 6)) (fin 64 (bits w 12 6)) (fin 64 (bits w 6 6)) (bit w 5) rx) else none
  | 0x17 => if bits w 0 5 == 0 then some (.vsar (fin 64 (bits w 18 6)) (fin 64 (bits w 12 6)) (fin 64 (bits w 6 6)) (bit w 5) rx) else none
  | 0x18 => if bits w 0 5 == 0 then some (.vrol (fin 64 (bits w 18 6)) (fin 64 (bits w 12 6)) (fin 64 (bits w 6 6)) (bit w 5) rx) else none
  | 0x19 => some (.vbfx (fin 64 (bits w 18 6)) (fin 64 (bits w 12 6)) (fin 64 (bits w 6 6)) (cReg w rx) (cFs w rx) rx)
  | 0x1a => some (.vbfi (fin 64 (bits w 18 6)) (fin 64 (bits w 12 6)) (fin 64 (bits w 6 6)) (cReg w rx) (cFs w rx) rx)
  | 0x1b => if bits w 0 5 == 0 && bits w 6 6 == 0 then some (.vpopc (fin 64 (bits w 18 6)) (fin 64 (bits w 12 6)) (bit w 5) rx) else none
  | 0x1c => if bits w 0 5 == 0 && bits w 6 6 == 0 then some (.vclz (fin 64 (bits w 18 6)) (fin 64 (bits w 12 6)) (bit w 5) rx) else none
  | 0x1d => if bits w 0 5 == 0 && bits w 6 6 == 0 then some (.vbrev (fin 64 (bits w 18 6)) (fin 64 (bits w 12 6)) (bit w 5) rx) else none
  | 0x20 => if bits w 4 1 == 0 && bits w 21 3 == 0 then some (.vcmp (fin 8 (bits w 18 3)) (fin 64 (bits w 12 6)) (fin 64 (bits w 6 6)) (fin 16 (bits w 0 4)) (bit w 5) rx) else none
  | 0x21 => if bits w 3 2 == 0 then some (.vsel (fin 64 (bits w 18 6)) (fin 64 (bits w 12 6)) (fin 64 (bits w 6 6)) (fin 8 (bits w 0 3)) (bit w 5) rx) else none
  | 0x22 => if bits w 3 3 == 0 && bits w 9 3 == 0 && bits w 15 3 == 0 && bits w 21 3 == 0 then some (.vqop (fin 8 (bits w 18 3)) (fin 8 (bits w 12 3)) (fin 8 (bits w 6 3)) (fin 8 (bits w 0 3)) rx) else none
  | 0x23 => if bits w 1 4 == 0 && bits w 6 6 == 0 then some (.vqmov (fin 64 (bits w 18 6)) (fin 64 (bits w 12 6)) (bit w 0) (bit w 5) rx) else none
  | 0x28 => some (.vaddi (fin 64 (bits w 18 6)) (fin 64 (bits w 12 6)) (BitVec.ofNat 12 (bits w 0 12)) rx)
  | 0x29 => some (.vandi (fin 64 (bits w 18 6)) (fin 64 (bits w 12 6)) (BitVec.ofNat 12 (bits w 0 12)) rx)
  | 0x2a => some (.vori (fin 64 (bits w 18 6)) (fin 64 (bits w 12 6)) (BitVec.ofNat 12 (bits w 0 12)) rx)
  | 0x2b => some (.vxori (fin 64 (bits w 18 6)) (fin 64 (bits w 12 6)) (BitVec.ofNat 12 (bits w 0 12)) rx)
  | 0x2c => if bits w 6 6 == 0 then some (.vshli (fin 64 (bits w 18 6)) (fin 64 (bits w 12 6)) (fin 64 (bits w 0 6)) rx) else none
  | 0x2d => if bits w 6 6 == 0 then some (.vshri (fin 64 (bits w 18 6)) (fin 64 (bits w 12 6)) (fin 64 (bits w 0 6)) rx) else none
  | 0x2e => if bits w 6 6 == 0 then some (.vsari (fin 64 (bits w 18 6)) (fin 64 (bits w 12 6)) (fin 64 (bits w 0 6)) rx) else none
  | 0x2f => some (.vmovi (fin 64 (bits w 18 6)) (fin 4 (bits w 16 2)) (BitVec.ofNat 16 (bits w 0 16)) rx)
  | 0x31 => if bits w 0 6 == 0 && bits w 10 2 == 0 then some (.viota (fin 64 (bits w 18 6)) (fin 64 (bits w 12 6)) (fin 16 (bits w 6 4)) rx) else none
  | 0x32 => some (.vwrl (fin 64 (bits w 18 6)) (fin 64 (bits w 12 6)) (fin 64 (bits w 6 6)) (cReg w rx) (cFs w rx) rx)
  | 0x38 => if bits w 2 3 == 0 && bits w 6 6 == 0 && bits w 21 3 == 0 then some (.vvote (fin 8 (bits w 18 3)) (fin 64 (bits w 12 6)) (fin 4 (bits w 0 2)) (bit w 5) rx) else none
  | 0x39 => if bits w 0 5 == 0 && bits w 6 6 == 0 then some (.vballot (fin 64 (bits w 18 6)) (fin 64 (bits w 12 6)) (bit w 5) rx) else none
  | 0x3a => if bits w 0 5 == 0 && bits w 6 6 == 0 then some (.vmatch (fin 64 (bits w 18 6)) (fin 64 (bits w 12 6)) (bit w 5) rx) else none
  | 0x3b => if bits w 0 5 == 0 && bits w 6 6 == 0 then some (.vfirst (fin 64 (bits w 18 6)) (fin 64 (bits w 12 6)) (bit w 5) rx) else none
  | 0x3c => if bits w 0 18 == 0 then some (.vactive (fin 64 (bits w 18 6)) rx) else none
  | _ => none

/-- Class VF (R39): the instruction that bits [23:0] of `w` encode under OP `op`; `none` for an OP the class
does not assign and for a nonzero unused bit (R28, R40). Literals are decoded by `decodeLit`. -/
def decodeVF (w op : Nat) (rx : Option Rx) : Option Instr :=
  match op with
  | 0x0 => if bits w 0 5 == 0 then some (.fadd (fin 64 (bits w 18 6)) (fin 64 (bits w 12 6)) (fin 64 (bits w 6 6)) (bit w 5) rx) else none
  | 0x1 => if bits w 0 5 == 0 then some (.fsub (fin 64 (bits w 18 6)) (fin 64 (bits w 12 6)) (fin 64 (bits w 6 6)) (bit w 5) rx) else none
  | 0x2 => if bits w 0 5 == 0 then some (.fmul (fin 64 (bits w 18 6)) (fin 64 (bits w 12 6)) (fin 64 (bits w 6 6)) (bit w 5) rx) else none
  | 0x3 => some (.fma (fin 64 (bits w 18 6)) (fin 64 (bits w 12 6)) (fin 64 (bits w 6 6)) (cReg w rx) (cFs w rx) rx)
  | 0x4 => some (.fms (fin 64 (bits w 18 6)) (fin 64 (bits w 12 6)) (fin 64 (bits w 6 6)) (cReg w rx) (cFs w rx) rx)
  | 0x5 => some (.fnma (fin 64 (bits w 18 6)) (fin 64 (bits w 12 6)) (fin 64 (bits w 6 6)) (cReg w rx) (cFs w rx) rx)
  | 0x6 => if bits w 0 5 == 0 then some (.fmin (fin 64 (bits w 18 6)) (fin 64 (bits w 12 6)) (fin 64 (bits w 6 6)) (bit w 5) rx) else none
  | 0x7 => if bits w 0 5 == 0 then some (.fmax (fin 64 (bits w 18 6)) (fin 64 (bits w 12 6)) (fin 64 (bits w 6 6)) (bit w 5) rx) else none
  | 0x8 => if bits w 0 5 == 0 then some (.fminn (fin 64 (bits w 18 6)) (fin 64 (bits w 12 6)) (fin 64 (bits w 6 6)) (bit w 5) rx) else none
  | 0x9 => if bits w 0 5 == 0 then some (.fmaxn (fin 64 (bits w 18 6)) (fin 64 (bits w 12 6)) (fin 64 (bits w 6 6)) (bit w 5) rx) else none
  | 0xa => if bits w 0 5 == 0 && bits w 6 6 == 0 then some (.fabs (fin 64 (bits w 18 6)) (fin 64 (bits w 12 6)) (bit w 5) rx) else none
  | 0xb => if bits w 0 5 == 0 && bits w 6 6 == 0 then some (.fneg (fin 64 (bits w 18 6)) (fin 64 (bits w 12 6)) (bit w 5) rx) else none
  | 0xc => if bits w 0 5 == 0 then some (.fcps (fin 64 (bits w 18 6)) (fin 64 (bits w 12 6)) (fin 64 (bits w 6 6)) (bit w 5) rx) else none
  | 0xd => if bits w 4 1 == 0 && bits w 21 3 == 0 then some (.fcmp (fin 8 (bits w 18 3)) (fin 64 (bits w 12 6)) (fin 64 (bits w 6 6)) (fin 16 (bits w 0 4)) (bit w 5) rx) else none
  | 0xe => if bits w 0 5 == 0 && bits w 6 6 == 0 then some (.fclass (fin 64 (bits w 18 6)) (fin 64 (bits w 12 6)) (bit w 5) rx) else none
  | 0xf => if bits w 0 5 == 0 && bits w 6 6 == 0 then some (.frnd (fin 64 (bits w 18 6)) (fin 64 (bits w 12 6)) (bit w 5) rx) else none
  | 0x10 => some (.fdot2 (fin 64 (bits w 18 6)) (fin 64 (bits w 12 6)) (fin 64 (bits w 6 6)) (cReg w rx) (cFs w rx) rx)
  | 0x11 => some (.fdot4 (fin 64 (bits w 18 6)) (fin 64 (bits w 12 6)) (fin 64 (bits w 6 6)) (cReg w rx) (cFs w rx) rx)
  | 0x12 => if bits w 0 5 == 0 then some (.fscale (fin 64 (bits w 18 6)) (fin 64 (bits w 12 6)) (fin 64 (bits w 6 6)) (bit w 5) rx) else none
  | 0x13 => if bits w 0 5 == 0 && bits w 6 6 == 0 then some (.fgetx (fin 64 (bits w 18 6)) (fin 64 (bits w 12 6)) (bit w 5) rx) else none
  | 0x14 => some (.fpivg (fin 64 (bits w 18 6)) (fin 64 (bits w 12 6)) (fin 64 (bits w 6 6)) (cReg w rx) (cFs w rx) rx)
  | 0x18 => if bits w 0 5 == 0 && bits w 6 6 == 0 then some (.frcp (fin 64 (bits w 18 6)) (fin 64 (bits w 12 6)) (bit w 5) rx) else none
  | 0x19 => if bits w 0 5 == 0 && bits w 6 6 == 0 then some (.frsq (fin 64 (bits w 18 6)) (fin 64 (bits w 12 6)) (bit w 5) rx) else none
  | 0x1a => if bits w 0 5 == 0 && bits w 6 6 == 0 then some (.fsqrt (fin 64 (bits w 18 6)) (fin 64 (bits w 12 6)) (bit w 5) rx) else none
  | 0x1b => if bits w 0 5 == 0 then some (.fdiv (fin 64 (bits w 18 6)) (fin 64 (bits w 12 6)) (fin 64 (bits w 6 6)) (bit w 5) rx) else none
  | 0x1c => if bits w 0 5 == 0 && bits w 6 6 == 0 then some (.fexp2 (fin 64 (bits w 18 6)) (fin 64 (bits w 12 6)) (bit w 5) rx) else none
  | 0x1d => if bits w 0 5 == 0 && bits w 6 6 == 0 then some (.flog2 (fin 64 (bits w 18 6)) (fin 64 (bits w 12 6)) (bit w 5) rx) else none
  | 0x1e => if bits w 0 5 == 0 && bits w 6 6 == 0 then some (.fsinp (fin 64 (bits w 18 6)) (fin 64 (bits w 12 6)) (bit w 5) rx) else none
  | 0x1f => if bits w 0 5 == 0 && bits w 6 6 == 0 then some (.fcosp (fin 64 (bits w 18 6)) (fin 64 (bits w 12 6)) (bit w 5) rx) else none
  | 0x20 => if bits w 0 5 == 0 && bits w 6 6 == 0 then some (.ftanh (fin 64 (bits w 18 6)) (fin 64 (bits w 12 6)) (bit w 5) rx) else none
  | 0x28 => if bits w 4 1 == 0 && bits w 9 3 == 0 then some (.cvt (fin 64 (bits w 18 6)) (fin 64 (bits w 12 6)) (fin 8 (bits w 6 3)) (fin 16 (bits w 0 4)) (bit w 5) rx) else none
  | 0x29 => if bits w 3 2 == 0 then some (.cvts (fin 64 (bits w 18 6)) (fin 64 (bits w 12 6)) (fin 64 (bits w 6 6)) (fin 8 (bits w 0 3)) (bit w 5) rx) else none
  | 0x2a => if bits w 1 4 == 0 then some (.fmaxx (fin 64 (bits w 18 6)) (fin 64 (bits w 12 6)) (fin 64 (bits w 6 6)) (bit w 0) (bit w 5) rx) else none
  | 0x2b => if bits w 4 1 == 0 && bits w 6 6 == 0 then some (.vsettag (fin 64 (bits w 18 6)) (fin 64 (bits w 12 6)) (fin 16 (bits w 0 4)) (bit w 5) rx) else none
  | 0x2c => if bits w 0 5 == 0 && bits w 6 6 == 0 then some (.vgettag (fin 64 (bits w 18 6)) (fin 64 (bits w 12 6)) (bit w 5) rx) else none
  | 0x2d => if bits w 0 12 == 0 then some (.sclget (fin 64 (bits w 18 6)) (fin 64 (bits w 12 6)) rx) else none
  | 0x2e => if bits w 0 12 == 0 then some (.sclset (fin 64 (bits w 18 6)) (fin 64 (bits w 12 6)) rx) else none
  | _ => none

/-- Class MEM (R39): the instruction that bits [23:0] of `w` encode under OP `op`; `none` for an OP the class
does not assign and for a nonzero unused bit (R28, R40). Literals are decoded by `decodeLit`. -/
def decodeMem (w op : Nat) (mx : Option Mx) (gx : Option Gx) : Option Instr :=
  match op with
  | 0x0 => if bits w 0 18 == 0 then some (.ord (fin 8 (bits w 21 3)) (fin 8 (bits w 18 3))) else none
  | 0x1 => some (.ld (fin 64 (bits w 18 6)) (fin 64 (bits w 12 6)) (fin 16 (bits w 8 4)) (fin 256 (bits w 0 8)) mx)
  | 0x2 => some (.lde (fin 64 (bits w 18 6)) (fin 64 (bits w 12 6)) (fin 16 (bits w 8 4)) (fin 256 (bits w 0 8)) mx)
  | 0x3 => some (.st (fin 64 (bits w 18 6)) (fin 64 (bits w 12 6)) (fin 16 (bits w 8 4)) (fin 256 (bits w 0 8)) mx)
  | 0x4 => some (.ste (fin 64 (bits w 18 6)) (fin 64 (bits w 12 6)) (fin 16 (bits w 8 4)) (fin 256 (bits w 0 8)) mx)
  | 0x5 => some (.ldu (fin 64 (bits w 18 6)) (fin 64 (bits w 12 6)) (fin 16 (bits w 8 4)) (fin 256 (bits w 0 8)) mx)
  | 0x6 => some (.stu (fin 64 (bits w 18 6)) (fin 64 (bits w 12 6)) (fin 16 (bits w 8 4)) (fin 256 (bits w 0 8)) mx)
  | 0x7 => gx.bind fun gx => some (.ldx (fin 64 (bits w 18 6)) (fin 64 (bits w 12 6)) (fin 16 (bits w 8 4)) (fin 256 (bits w 0 8)) gx)
  | 0x8 => gx.bind fun gx => some (.stx (fin 64 (bits w 18 6)) (fin 64 (bits w 12 6)) (fin 16 (bits w 8 4)) (fin 256 (bits w 0 8)) gx)
  | 0x9 => some (.ldp (fin 64 (bits w 18 6)) (fin 64 (bits w 12 6)) (fin 16 (bits w 8 4)) (fin 256 (bits w 0 8)) mx)
  | 0xa => some (.stp (fin 64 (bits w 18 6)) (fin 64 (bits w 12 6)) (fin 16 (bits w 8 4)) (fin 256 (bits w 0 8)) mx)
  | 0x10 => if bits w 4 1 == 0 then some (.atom (fin 64 (bits w 18 6)) (fin 64 (bits w 12 6)) (fin 64 (bits w 6 6)) (fin 16 (bits w 0 4)) (bit w 5) mx) else none
  | 0x11 => some (.atomc (fin 64 (bits w 18 6)) (fin 64 (bits w 12 6)) (fin 64 (bits w 6 6)) (fin 32 (bits w 0 5)) (bit w 5) mx)
  | 0x12 => if bits w 4 2 == 0 && bits w 18 6 == 0 then some (.red (fin 64 (bits w 12 6)) (fin 64 (bits w 6 6)) (fin 16 (bits w 0 4)) mx) else none
  | 0x13 => some (.atomu (fin 64 (bits w 18 6)) (fin 64 (bits w 12 6)) (fin 64 (bits w 6 6)) (fin 16 (bits w 0 4)) (bit w 4) (bit w 5) mx)
  | 0x18 => if bits w 3 15 == 0 then some (.fence (fin 64 (bits w 18 6)) (fin 8 (bits w 0 3))) else none
  | 0x19 => if bits w 2 6 == 0 && bits w 18 6 == 0 then some (.cpin (fin 64 (bits w 12 6)) (fin 16 (bits w 8 4)) (fin 4 (bits w 0 2))) else none
  | 0x1a => if bits w 2 22 == 0 then some (.cunpin (fin 4 (bits w 0 2))) else none
  | 0x1b => if bits w 8 4 == 0 && bits w 18 6 == 0 then some (.cpref (fin 64 (bits w 12 6)) (fin 256 (bits w 0 8)) mx) else none
  | 0x1c => if bits w 8 4 == 0 && bits w 20 4 == 0 then some (.cinv (fin 4 (bits w 18 2)) (fin 64 (bits w 12 6)) (fin 256 (bits w 0 8))) else none
  | _ => none

/-- Class TEN (R39): the instruction that bits [23:0] of `w` encode under OP `op`; `none` for an OP the class
does not assign and for a nonzero unused bit (R28, R40). Literals are decoded by `decodeLit`. -/
def decodeTen (w op : Nat) : Option Instr :=
  match op with
  | 0x1 => if bits w 0 5 == 0 && bits w 9 9 == 0 && bits w 21 3 == 0 then some (.tzero (fin 8 (bits w 18 3)) (fin 8 (bits w 6 3)) (bit w 5)) else none
  | 0x2 => if bits w 0 5 == 0 && bits w 6 6 == 0 && bits w 21 3 == 0 then some (.tld (fin 8 (bits w 18 3)) (fin 64 (bits w 12 6)) (bit w 5)) else none
  | 0x3 => if bits w 0 5 == 0 && bits w 10 2 == 0 && bits w 21 3 == 0 then some (.tst (fin 8 (bits w 18 3)) (fin 64 (bits w 12 6)) (fin 8 (bits w 6 3)) (bit w 9) (bit w 5)) else none
  | 0x4 => if bits w 2 3 == 0 && bits w 21 3 == 0 then some (.tmma (fin 8 (bits w 18 3)) (fin 64 (bits w 12 6)) (fin 64 (bits w 6 6)) (bit w 0) (bit w 1) (bit w 5)) else none
  | 0x5 => if bits w 0 5 == 0 && bits w 6 18 == 0 then some (.tgang (bit w 5)) else none
  | 0x6 => some (.tsweep (fin 64 (bits w 18 6)) (fin 64 (bits w 12 6)) (fin 64 (bits w 6 6)) (fin 32 (bits w 0 5)) (bit w 5))
  | 0x7 => if bits w 8 4 == 0 && bits w 15 3 == 0 && bits w 21 3 == 0 then some (.tred (fin 8 (bits w 18 3)) (fin 8 (bits w 12 3)) (fin 4 (bits w 6 2)) (fin 32 (bits w 0 5)) (bit w 5)) else none
  | 0x8 => if bits w 0 5 == 0 && bits w 6 6 == 0 && bits w 21 3 == 0 then some (.tfact (fin 8 (bits w 18 3)) (fin 64 (bits w 12 6)) (bit w 5)) else none
  | 0x9 => if bits w 0 5 == 0 && bits w 15 3 == 0 && bits w 21 3 == 0 then some (.ttrs (fin 8 (bits w 18 3)) (fin 8 (bits w 12 3)) (fin 64 (bits w 6 6)) (bit w 5)) else none
  | 0xa => if bits w 1 4 == 0 && bits w 15 3 == 0 && bits w 21 3 == 0 then some (.tmov (fin 8 (bits w 18 3)) (fin 8 (bits w 12 3)) (fin 64 (bits w 6 6)) (bit w 0) (bit w 5)) else none
  | 0xb => if bits w 2 3 == 0 && bits w 21 3 == 0 then some (.tscl (fin 8 (bits w 18 3)) (fin 64 (bits w 12 6)) (fin 64 (bits w 6 6)) (bit w 0) (bit w 1) (bit w 5)) else none
  | _ => none

/-- Class TSK (R39): the instruction that bits [23:0] of `w` encode under OP `op`; `none` for an OP the class
does not assign and for a nonzero unused bit (R28, R40). Literals are decoded by `decodeLit`. -/
def decodeTsk (w op : Nat) : Option Instr :=
  match op with
  | 0x0 => if bits w 9 3 == 0 then some (.spawn (fin 64 (bits w 18 6)) (fin 64 (bits w 12 6)) (fin 8 (bits w 6 3)) (bit w 0) (bit w 1) (fin 8 (bits w 2 3)) (bit w 5)) else none
  | 0x1 => if bits w 2 4 == 0 && bits w 9 3 == 0 then some (.spawnr (fin 64 (bits w 18 6)) (fin 64 (bits w 12 6)) (fin 8 (bits w 6 3)) (bit w 0) (bit w 1)) else none
  | 0x2 => some (.spawng (fin 64 (bits w 18 6)) (fin 64 (bits w 12 6)) (fin 8 (bits w 6 3)) (fin 8 (bits w 9 3)) (fin 16 (bits w 0 4)) (bit w 4) (bit w 5))
  | 0x3 => if bits w 0 24 == 0 then some (.sync) else none
  | 0x4 => if bits w 1 11 == 0 then some (.pgrd (fin 64 (bits w 18 6)) (fin 64 (bits w 12 6)) (bit w 0)) else none
  | 0x5 => if bits w 0 18 == 0 then some (.pgkey (fin 64 (bits w 18 6))) else none
  | 0x6 => if bits w 0 5 == 0 && bits w 9 3 == 0 then some (.prng (fin 64 (bits w 18 6)) (fin 64 (bits w 12 6)) (fin 4 (bits w 6 2)) (bit w 8) (bit w 5)) else none
  | 0x7 => if bits w 4 8 == 0 then some (.palloc (fin 64 (bits w 18 6)) (fin 64 (bits w 12 6)) (fin 16 (bits w 0 4))) else none
  | 0x8 => if bits w 0 12 == 0 && bits w 18 6 == 0 then some (.plog (fin 64 (bits w 12 6))) else none
  | 0x9 => if bits w 3 3 == 0 && bits w 22 2 == 0 then some (.view (fin 16 (bits w 18 4)) (fin 64 (bits w 12 6)) (fin 64 (bits w 6 6)) (fin 8 (bits w 0 3))) else none
  | 0xa => if bits w 4 2 == 0 && bits w 22 2 == 0 then some (.rdacc (fin 16 (bits w 18 4)) (fin 64 (bits w 12 6)) (fin 64 (bits w 6 6)) (fin 8 (bits w 0 3)) (bit w 3)) else none
  | 0xb => if bits w 0 5 == 0 && bits w 6 6 == 0 && bits w 16 2 == 0 then some (.rdget (fin 64 (bits w 18 6)) (fin 16 (bits w 12 4)) (bit w 5)) else none
  | 0xc => if bits w 0 24 == 0 then some (.chunk) else none
  | 0xd => if bits w 0 18 == 0 then some (.chkst (fin 64 (bits w 18 6))) else none
  | 0xe => if bits w 7 17 == 0 then some (.bar (fin 8 (bits w 0 3)) (fin 16 (bits w 3 4))) else none
  | 0xf => if bits w 7 11 == 0 then some (.bara (fin 64 (bits w 18 6)) (fin 8 (bits w 0 3)) (fin 16 (bits w 3 4))) else none
  | 0x10 => if bits w 7 5 == 0 && bits w 18 6 == 0 then some (.barw (fin 64 (bits w 12 6)) (fin 8 (bits w 0 3)) (fin 16 (bits w 3 4))) else none
  | 0x11 => if bits w 7 5 == 0 && bits w 18 6 == 0 then some (.bari (fin 64 (bits w 12 6)) (fin 8 (bits w 0 3)) (fin 16 (bits w 3 4))) else none
  | 0x12 => if bits w 7 5 == 0 && bits w 18 6 == 0 then some (.barb (fin 64 (bits w 12 6)) (fin 8 (bits w 0 3)) (fin 16 (bits w 3 4))) else none
  | 0x13 => if bits w 12 12 == 0 then some (.trap (BitVec.ofNat 12 (bits w 0 12))) else none
  | 0x14 => if bits w 0 24 == 0 then some (.rft) else none
  | _ => none

/-- Class BRG (R39): the instruction that bits [23:0] of `w` encode under OP `op`; `none` for an OP the class
does not assign and for a nonzero unused bit (R28, R40). Literals are decoded by `decodeLit`. -/
def decodeBrg (w op : Nat) : Option Instr :=
  match op with
  | 0x0 => some (.cpy (fin 64 (bits w 18 6)) (fin 64 (bits w 12 6)) (fin 64 (bits w 6 6)) (fin 32 (bits w 0 5)) (bit w 5))
  | 0x1 => some (.cpyf (fin 64 (bits w 18 6)) (fin 64 (bits w 12 6)) (fin 64 (bits w 6 6)) (fin 32 (bits w 0 5)) (bit w 5))
  | 0x2 => if bits w 0 5 == 0 && bits w 6 6 == 0 then some (.wtagany (fin 64 (bits w 18 6)) (fin 64 (bits w 12 6)) (bit w 5)) else none
  | 0x3 => if bits w 0 5 == 0 && bits w 6 6 == 0 then some (.wtagall (fin 64 (bits w 18 6)) (fin 64 (bits w 12 6)) (bit w 5)) else none
  | 0x4 => if bits w 0 5 == 0 && bits w 6 6 == 0 then some (.tagff (fin 64 (bits w 18 6)) (fin 64 (bits w 12 6)) (bit w 5)) else none
  | 0x5 => if bits w 0 5 == 0 && bits w 6 6 == 0 && bits w 18 6 == 0 then some (.tagclr (fin 64 (bits w 12 6)) (bit w 5)) else none
  | _ => none

/-- SLIMM, VLIMM and FLIMM (R29), whose own word has zero in [17:0]. -/
def decodeLit (cls : EngineClass) (w op lo hi : Nat) : Option Instr :=
  if bits w 0 18 == 0 then
    let d := fin 64 (bits w 18 6)
    let lit := BitVec.ofNat 64 (lo + hi * 2 ^ 32)
    match cls with
    | .seq => if op == 0x2f then some (.slimm d lit) else none
    | .vi => if op == 0x30 then some (.vlimm d lit) else none
    | .vf => if op == 0x2f then some (.flimm d lit) else none
    | _ => none
  else none

/-- OP is that of a literal instruction of the class (R29). -/
def isLitOp (cls : EngineClass) (op : Nat) : Bool :=
  match cls with
  | .seq | .vf => op == 0x2f
  | .vi => op == 0x30
  | _ => false

/-- The MEM instructions that an MX word may follow (R30). -/
def takesMx (op : Nat) : Bool :=
  (decide (1 ≤ op) && decide (op ≤ 0xa)) || (decide (0x10 ≤ op) && decide (op ≤ 0x13)) || op == 0x1b

/-- The instruction at the head of `w :: rest` under the clause's class, before WellFormed's checks, with the words
that follow it. -/
def decodeRaw (cls : EngineClass) (w : Nat) (rest : List Nat) : Option (Instr × List Nat) :=
  let op := bits w 24 7
  let ext := bit w 31
  if isLitOp cls op then
    if ext then none else
      match rest with
      | lo :: hi :: r => (decodeLit cls w op lo hi).map fun i => (i, r)
      | _ => none
  else if ext then
    match cls, rest with
    | .vi, r1 :: r =>
      if bit r1 1 then
        match r with
        | r2 :: r' => (decodeRx r1 (some r2)).bind fun rx => (decodeVI w op (some rx)).map fun i => (i, r')
        | [] => none
      else (decodeRx r1 none).bind fun rx => (decodeVI w op (some rx)).map fun i => (i, r)
    | .vf, r1 :: r =>
      if bit r1 1 then
        match r with
        | r2 :: r' => (decodeRx r1 (some r2)).bind fun rx => (decodeVF w op (some rx)).map fun i => (i, r')
        | [] => none
      else (decodeRx r1 none).bind fun rx => (decodeVF w op (some rx)).map fun i => (i, r)
    | .mem, m :: r =>
      if takesMx op then
        if op == 7 || op == 8 then (decodeGx m).bind fun gx => (decodeMem w op none (some gx)).map fun i => (i, r)
        else (decodeMx m).bind fun mx => (decodeMem w op (some mx) none).map fun i => (i, r)
      else none
    | _, _ => none
  else
    (match cls with
    | .seq => decodeSeq w op
    | .vi => decodeVI w op none
    | .vf => decodeVF w op none
    | .mem => decodeMem w op none none
    | .ten => decodeTen w op
    | .tsk => decodeTsk w op
    | .brg => decodeBrg w op).map fun i => (i, rest)

/-- The decoder: total on any words, `none` where the word raises ILLEGAL (R41). -/
def decode (cls : EngineClass) (w : Nat) (rest : List Nat) : Option (Instr × List Nat) :=
  match decodeRaw cls w rest with
  | some (i, r) => if i.wf then some (i, r) else none
  | none => none

/-- `w` carries SAFEPT's bits as word 1 of a clause of another class than SEQ (R83). -/
def isSafeptWord (w : Nat) : Bool := !bit w 31 && bits w 24 7 == 0xa && bits w 20 4 == 0

/-- The decoder at word index `idx` of a clause (R19, R83). -/
def decodeAt (cls : EngineClass) (idx w : Nat) (rest : List Nat) : Option (Instr × List Nat) :=
  if idx == 1 && isSafeptWord w then decode .seq w rest else decode cls w rest

/-- The first class, in the order of R18, under which the words decode. -/
def decodeFirst (w : Nat) (rest : List Nat) : List EngineClass → Option Instr
  | [] => none
  | c :: cs => match decode c w rest with
    | some (i, _) => some i
    | none => decodeFirst w rest cs

/-- The classes in the order of their codes (R18). -/
def allClasses : List EngineClass := [.seq, .vi, .vf, .mem, .ten, .tsk, .brg]

/-- The instruction of a word of spec/opcode_table.json, the words after it zero. The table's words do not say their
class; DESIGN CHOICE (log entry 2): the first class that accepts them. -/
def decodeTableWord (_nbits w : Nat) : Option Instr :=
  decodeFirst (w % 2 ^ 32) [w / 2 ^ 32 % 2 ^ 32, w / 2 ^ 64 % 2 ^ 32] allClasses

/-- A route as its 11-bit field (R33). -/
def encodeRoute : Route → Nat
  | .none => 0
  | .rot l e => 1 * 2 ^ 8 + e.val * 2 ^ 5 + l.val
  | .bcst l e => 2 * 2 ^ 8 + e.val * 2 ^ 5 + l.val
  | .xor l e => 3 * 2 ^ 8 + e.val * 2 ^ 5 + l.val
  | .idx v b => 4 * 2 ^ 8 + b.val * 2 ^ 6 + v.val
  | .shup d z => 5 * 2 ^ 8 + z.toNat * 2 ^ 7 + d.val
  | .shdn d z => 6 * 2 ^ 8 + z.toNat * 2 ^ 7 + d.val
  | .segb g p => 7 * 2 ^ 8 + p.val * 2 ^ 3 + g.val

/-- A guard as its 4-bit field. -/
def encodeGuard (g : Guard) : Nat := g.neg.toNat * 2 ^ 3 + g.q.val

/-- The RX words (R31). -/
def encodeRx : Option Rx → List Nat
  | none => []
  | some r =>
    (encodeRoute r.a * 2 ^ 21 + encodeRoute r.b * 2 ^ 10 + encodeGuard r.guard * 2 ^ 6 + r.rnd.val * 2 ^ 3 +
      r.sat.toNat * 2 ^ 2 + r.c.isSome.toNat * 2) ::
    (match r.c with | none => [] | some c => [encodeRoute c * 2 ^ 21])

/-- The MX word (R34). -/
def encodeMx : Option Mx → List Nat
  | none => []
  | some m => [encodeGuard m.guard * 2 ^ 16 + m.hint.val * 2 ^ 13]

/-- The MX word of a gather or scatter (R34). -/
def encodeGx (g : Gx) : Nat :=
  g.index.val * 2 ^ 26 + g.iw.val * 2 ^ 24 + g.signed.toNat * 2 ^ 23 + g.scale.val * 2 ^ 20 +
    encodeGuard g.guard * 2 ^ 16 + g.hint.val * 2 ^ 13

/-- A word of OP `op` whose fields are given as (value, lowest bit). -/
def pack (op : Nat) : List (Nat × Nat) → Nat
  | [] => op * 2 ^ 24
  | (v, lo) :: l => v * 2 ^ lo + pack op l

/-- Bits [30:0] of the instruction's own word, by the tables of R39 and of the instruction entries, with OP in
[30:24]; EXT is added by `encode`. An event has no word. -/
def encodeBody : Instr → Nat
  | .nop => pack 0x0 []
  | .bra off => pack 0x1 [(off.toNat, 0)]
  | .brz u a off => pack 0x2 [(u.toNat, 18), (a.val, 12), (off.toNat, 0)]
  | .brnz u a off => pack 0x3 [(u.toNat, 18), (a.val, 12), (off.toNat, 0)]
  | .brq q neg off => pack 0x4 [(q.val, 21), (neg.toNat, 20), (off.toNat, 0)]
  | .jmpi a => pack 0x5 [(a.val, 12)]
  | .call off => pack 0x6 [(off.toNat, 0)]
  | .calli a => pack 0x7 [(a.val, 12)]
  | .ret => pack 0x8 []
  | .exit => pack 0x9 []
  | .safept off => pack 0xa [(off.toNat, 0)]
  | .waitf mask => pack 0xb [(mask.toNat, 0)]
  | .rep n step => pack 0xc [(n.val, 18), (step.toNat, 14)]
  | .brk code => pack 0xd [(code.toNat, 0)]
  | .sadd d a b => pack 0x10 [(d.val, 18), (a.val, 12), (b.val, 6)]
  | .ssub d a b => pack 0x11 [(d.val, 18), (a.val, 12), (b.val, 6)]
  | .smul d a b => pack 0x12 [(d.val, 18), (a.val, 12), (b.val, 6)]
  | .smulh d a b => pack 0x13 [(d.val, 18), (a.val, 12), (b.val, 6)]
  | .smulhz d a b => pack 0x14 [(d.val, 18), (a.val, 12), (b.val, 6)]
  | .sand d a b => pack 0x15 [(d.val, 18), (a.val, 12), (b.val, 6)]
  | .sor d a b => pack 0x16 [(d.val, 18), (a.val, 12), (b.val, 6)]
  | .sxor d a b => pack 0x17 [(d.val, 18), (a.val, 12), (b.val, 6)]
  | .sshl d a b => pack 0x18 [(d.val, 18), (a.val, 12), (b.val, 6)]
  | .sshr d a b => pack 0x19 [(d.val, 18), (a.val, 12), (b.val, 6)]
  | .ssar d a b => pack 0x1a [(d.val, 18), (a.val, 12), (b.val, 6)]
  | .smin d a b => pack 0x1b [(d.val, 18), (a.val, 12), (b.val, 6)]
  | .smax d a b => pack 0x1c [(d.val, 18), (a.val, 12), (b.val, 6)]
  | .sminz d a b => pack 0x1d [(d.val, 18), (a.val, 12), (b.val, 6)]
  | .smaxz d a b => pack 0x1e [(d.val, 18), (a.val, 12), (b.val, 6)]
  | .scmp d a b cc => pack 0x1f [(d.val, 18), (a.val, 12), (b.val, 6), (cc.val, 0)]
  | .ssel d a b c => pack 0x20 [(d.val, 18), (a.val, 12), (b.val, 6), (c.val, 0)]
  | .smov d a => pack 0x21 [(d.val, 18), (a.val, 12)]
  | .spopc d a => pack 0x22 [(d.val, 18), (a.val, 12)]
  | .sclz d a => pack 0x23 [(d.val, 18), (a.val, 12)]
  | .saddi d a imm => pack 0x28 [(d.val, 18), (a.val, 12), (imm.toNat, 0)]
  | .sandi d a imm => pack 0x29 [(d.val, 18), (a.val, 12), (imm.toNat, 0)]
  | .sori d a imm => pack 0x2a [(d.val, 18), (a.val, 12), (imm.toNat, 0)]
  | .sshli d a n => pack 0x2b [(d.val, 18), (a.val, 12), (n.val, 0)]
  | .sshri d a n => pack 0x2c [(d.val, 18), (a.val, 12), (n.val, 0)]
  | .smovk d sh imm => pack 0x2d [(d.val, 18), (sh.val, 16), (imm.toNat, 0)]
  | .smovz d sh imm => pack 0x2e [(d.val, 18), (sh.val, 16), (imm.toNat, 0)]
  | .slimm d _ => pack 0x2f [(d.val, 18)]
  | .srdl d a b n => pack 0x30 [(d.val, 18), (a.val, 12), (b.val, 6), (n.val, 0)]
  | .mfsr d num => pack 0x38 [(d.val, 18), (num.toNat, 0)]
  | .mtsr num a => pack 0x39 [(num.toNat, 0), (a.val, 12)]
  | .vmov d a fs _ => pack 0x0 [(d.val, 18), (a.val, 12), (fs.toNat, 5)]
  | .vadd d a b fs _ => pack 0x1 [(d.val, 18), (a.val, 12), (b.val, 6), (fs.toNat, 5)]
  | .vsub d a b fs _ => pack 0x2 [(d.val, 18), (a.val, 12), (b.val, 6), (fs.toNat, 5)]
  | .vadds d a b fs _ => pack 0x3 [(d.val, 18), (a.val, 12), (b.val, 6), (fs.toNat, 5)]
  | .vsubs d a b fs _ => pack 0x4 [(d.val, 18), (a.val, 12), (b.val, 6), (fs.toNat, 5)]
  | .vmul d a b fs _ => pack 0x5 [(d.val, 18), (a.val, 12), (b.val, 6), (fs.toNat, 5)]
  | .vmulh d a b fs _ => pack 0x6 [(d.val, 18), (a.val, 12), (b.val, 6), (fs.toNat, 5)]
  | .vmad d a b c fs _ => pack 0x7 [(d.val, 18), (a.val, 12), (b.val, 6), (c.val, 0), (fs.toNat, 5)]
  | .vmin d a b fs _ => pack 0x8 [(d.val, 18), (a.val, 12), (b.val, 6), (fs.toNat, 5)]
  | .vmax d a b fs _ => pack 0x9 [(d.val, 18), (a.val, 12), (b.val, 6), (fs.toNat, 5)]
  | .vabs d a fs _ => pack 0xa [(d.val, 18), (a.val, 12), (fs.toNat, 5)]
  | .vneg d a fs _ => pack 0xb [(d.val, 18), (a.val, 12), (fs.toNat, 5)]
  | .vabsd d a b fs _ => pack 0xc [(d.val, 18), (a.val, 12), (b.val, 6), (fs.toNat, 5)]
  | .vand d a b fs _ => pack 0x10 [(d.val, 18), (a.val, 12), (b.val, 6), (fs.toNat, 5)]
  | .vor d a b fs _ => pack 0x11 [(d.val, 18), (a.val, 12), (b.val, 6), (fs.toNat, 5)]
  | .vxor d a b fs _ => pack 0x12 [(d.val, 18), (a.val, 12), (b.val, 6), (fs.toNat, 5)]
  | .vandn d a b fs _ => pack 0x13 [(d.val, 18), (a.val, 12), (b.val, 6), (fs.toNat, 5)]
  | .vnot d a fs _ => pack 0x14 [(d.val, 18), (a.val, 12), (fs.toNat, 5)]
  | .vshl d a b fs _ => pack 0x15 [(d.val, 18), (a.val, 12), (b.val, 6), (fs.toNat, 5)]
  | .vshr d a b fs _ => pack 0x16 [(d.val, 18), (a.val, 12), (b.val, 6), (fs.toNat, 5)]
  | .vsar d a b fs _ => pack 0x17 [(d.val, 18), (a.val, 12), (b.val, 6), (fs.toNat, 5)]
  | .vrol d a b fs _ => pack 0x18 [(d.val, 18), (a.val, 12), (b.val, 6), (fs.toNat, 5)]
  | .vbfx d a b c fs _ => pack 0x19 [(d.val, 18), (a.val, 12), (b.val, 6), (c.val, 0), (fs.toNat, 5)]
  | .vbfi d a b c fs _ => pack 0x1a [(d.val, 18), (a.val, 12), (b.val, 6), (c.val, 0), (fs.toNat, 5)]
  | .vpopc d a fs _ => pack 0x1b [(d.val, 18), (a.val, 12), (fs.toNat, 5)]
  | .vclz d a fs _ => pack 0x1c [(d.val, 18), (a.val, 12), (fs.toNat, 5)]
  | .vbrev d a fs _ => pack 0x1d [(d.val, 18), (a.val, 12), (fs.toNat, 5)]
  | .vcmp d a b cc fs _ => pack 0x20 [(d.val, 18), (a.val, 12), (b.val, 6), (cc.val, 0), (fs.toNat, 5)]
  | .vsel d a b q fs _ => pack 0x21 [(d.val, 18), (a.val, 12), (b.val, 6), (q.val, 0), (fs.toNat, 5)]
  | .vqop d a b op _ => pack 0x22 [(d.val, 18), (a.val, 12), (b.val, 6), (op.val, 0)]
  | .vqmov d a dir fs _ => pack 0x23 [(d.val, 18), (a.val, 12), (dir.toNat, 0), (fs.toNat, 5)]
  | .vaddi d a imm _ => pack 0x28 [(d.val, 18), (a.val, 12), (imm.toNat, 0)]
  | .vandi d a imm _ => pack 0x29 [(d.val, 18), (a.val, 12), (imm.toNat, 0)]
  | .vori d a imm _ => pack 0x2a [(d.val, 18), (a.val, 12), (imm.toNat, 0)]
  | .vxori d a imm _ => pack 0x2b [(d.val, 18), (a.val, 12), (imm.toNat, 0)]
  | .vshli d a n _ => pack 0x2c [(d.val, 18), (a.val, 12), (n.val, 0)]
  | .vshri d a n _ => pack 0x2d [(d.val, 18), (a.val, 12), (n.val, 0)]
  | .vsari d a n _ => pack 0x2e [(d.val, 18), (a.val, 12), (n.val, 0)]
  | .vmovi d sh imm _ => pack 0x2f [(d.val, 18), (sh.val, 16), (imm.toNat, 0)]
  | .vlimm d _ => pack 0x30 [(d.val, 18)]
  | .viota d a tag _ => pack 0x31 [(d.val, 18), (a.val, 12), (tag.val, 6)]
  | .vwrl d a b c fs _ => pack 0x32 [(d.val, 18), (a.val, 12), (b.val, 6), (c.val, 0), (fs.toNat, 5)]
  | .vvote d a mode fs _ => pack 0x38 [(d.val, 18), (a.val, 12), (mode.val, 0), (fs.toNat, 5)]
  | .vballot d a fs _ => pack 0x39 [(d.val, 18), (a.val, 12), (fs.toNat, 5)]
  | .vmatch d a fs _ => pack 0x3a [(d.val, 18), (a.val, 12), (fs.toNat, 5)]
  | .vfirst d a fs _ => pack 0x3b [(d.val, 18), (a.val, 12), (fs.toNat, 5)]
  | .vactive d _ => pack 0x3c [(d.val, 18)]
  | .fadd d a b fs _ => pack 0x0 [(d.val, 18), (a.val, 12), (b.val, 6), (fs.toNat, 5)]
  | .fsub d a b fs _ => pack 0x1 [(d.val, 18), (a.val, 12), (b.val, 6), (fs.toNat, 5)]
  | .fmul d a b fs _ => pack 0x2 [(d.val, 18), (a.val, 12), (b.val, 6), (fs.toNat, 5)]
  | .fma d a b c fs _ => pack 0x3 [(d.val, 18), (a.val, 12), (b.val, 6), (c.val, 0), (fs.toNat, 5)]
  | .fms d a b c fs _ => pack 0x4 [(d.val, 18), (a.val, 12), (b.val, 6), (c.val, 0), (fs.toNat, 5)]
  | .fnma d a b c fs _ => pack 0x5 [(d.val, 18), (a.val, 12), (b.val, 6), (c.val, 0), (fs.toNat, 5)]
  | .fmin d a b fs _ => pack 0x6 [(d.val, 18), (a.val, 12), (b.val, 6), (fs.toNat, 5)]
  | .fmax d a b fs _ => pack 0x7 [(d.val, 18), (a.val, 12), (b.val, 6), (fs.toNat, 5)]
  | .fminn d a b fs _ => pack 0x8 [(d.val, 18), (a.val, 12), (b.val, 6), (fs.toNat, 5)]
  | .fmaxn d a b fs _ => pack 0x9 [(d.val, 18), (a.val, 12), (b.val, 6), (fs.toNat, 5)]
  | .fabs d a fs _ => pack 0xa [(d.val, 18), (a.val, 12), (fs.toNat, 5)]
  | .fneg d a fs _ => pack 0xb [(d.val, 18), (a.val, 12), (fs.toNat, 5)]
  | .fcps d a b fs _ => pack 0xc [(d.val, 18), (a.val, 12), (b.val, 6), (fs.toNat, 5)]
  | .fcmp d a b cc fs _ => pack 0xd [(d.val, 18), (a.val, 12), (b.val, 6), (cc.val, 0), (fs.toNat, 5)]
  | .fclass d a fs _ => pack 0xe [(d.val, 18), (a.val, 12), (fs.toNat, 5)]
  | .frnd d a fs _ => pack 0xf [(d.val, 18), (a.val, 12), (fs.toNat, 5)]
  | .fdot2 d a b c fs _ => pack 0x10 [(d.val, 18), (a.val, 12), (b.val, 6), (c.val, 0), (fs.toNat, 5)]
  | .fdot4 d a b c fs _ => pack 0x11 [(d.val, 18), (a.val, 12), (b.val, 6), (c.val, 0), (fs.toNat, 5)]
  | .fscale d a b fs _ => pack 0x12 [(d.val, 18), (a.val, 12), (b.val, 6), (fs.toNat, 5)]
  | .fgetx d a fs _ => pack 0x13 [(d.val, 18), (a.val, 12), (fs.toNat, 5)]
  | .fpivg d a b c fs _ => pack 0x14 [(d.val, 18), (a.val, 12), (b.val, 6), (c.val, 0), (fs.toNat, 5)]
  | .frcp d a fs _ => pack 0x18 [(d.val, 18), (a.val, 12), (fs.toNat, 5)]
  | .frsq d a fs _ => pack 0x19 [(d.val, 18), (a.val, 12), (fs.toNat, 5)]
  | .fsqrt d a fs _ => pack 0x1a [(d.val, 18), (a.val, 12), (fs.toNat, 5)]
  | .fdiv d a b fs _ => pack 0x1b [(d.val, 18), (a.val, 12), (b.val, 6), (fs.toNat, 5)]
  | .fexp2 d a fs _ => pack 0x1c [(d.val, 18), (a.val, 12), (fs.toNat, 5)]
  | .flog2 d a fs _ => pack 0x1d [(d.val, 18), (a.val, 12), (fs.toNat, 5)]
  | .fsinp d a fs _ => pack 0x1e [(d.val, 18), (a.val, 12), (fs.toNat, 5)]
  | .fcosp d a fs _ => pack 0x1f [(d.val, 18), (a.val, 12), (fs.toNat, 5)]
  | .ftanh d a fs _ => pack 0x20 [(d.val, 18), (a.val, 12), (fs.toNat, 5)]
  | .cvt d a p tag fs _ => pack 0x28 [(d.val, 18), (a.val, 12), (p.val, 6), (tag.val, 0), (fs.toNat, 5)]
  | .cvts d a b p fs _ => pack 0x29 [(d.val, 18), (a.val, 12), (b.val, 6), (p.val, 0), (fs.toNat, 5)]
  | .fmaxx d a b acc fs _ => pack 0x2a [(d.val, 18), (a.val, 12), (b.val, 6), (acc.toNat, 0), (fs.toNat, 5)]
  | .vsettag d a tag fs _ => pack 0x2b [(d.val, 18), (a.val, 12), (tag.val, 0), (fs.toNat, 5)]
  | .vgettag d a fs _ => pack 0x2c [(d.val, 18), (a.val, 12), (fs.toNat, 5)]
  | .sclget d a _ => pack 0x2d [(d.val, 18), (a.val, 12)]
  | .sclset d a _ => pack 0x2e [(d.val, 18), (a.val, 12)]
  | .flimm d _ => pack 0x2f [(d.val, 18)]
  | .ord order scope => pack 0x0 [(order.val, 21), (scope.val, 18)]
  | .ld d base ty off _ => pack 0x1 [(d.val, 18), (base.val, 12), (ty.val, 8), (off.val, 0)]
  | .lde d base ty off _ => pack 0x2 [(d.val, 18), (base.val, 12), (ty.val, 8), (off.val, 0)]
  | .st d base ty off _ => pack 0x3 [(d.val, 18), (base.val, 12), (ty.val, 8), (off.val, 0)]
  | .ste d base ty off _ => pack 0x4 [(d.val, 18), (base.val, 12), (ty.val, 8), (off.val, 0)]
  | .ldu d base ty off _ => pack 0x5 [(d.val, 18), (base.val, 12), (ty.val, 8), (off.val, 0)]
  | .stu d base ty off _ => pack 0x6 [(d.val, 18), (base.val, 12), (ty.val, 8), (off.val, 0)]
  | .ldx d base ty off _ => pack 0x7 [(d.val, 18), (base.val, 12), (ty.val, 8), (off.val, 0)]
  | .stx d base ty off _ => pack 0x8 [(d.val, 18), (base.val, 12), (ty.val, 8), (off.val, 0)]
  | .ldp d base ty off _ => pack 0x9 [(d.val, 18), (base.val, 12), (ty.val, 8), (off.val, 0)]
  | .stp d base ty off _ => pack 0xa [(d.val, 18), (base.val, 12), (ty.val, 8), (off.val, 0)]
  | .atom d a b op fs _ => pack 0x10 [(d.val, 18), (a.val, 12), (b.val, 6), (op.val, 0), (fs.toNat, 5)]
  | .atomc x y z w fs _ => pack 0x11 [(x.val, 18), (y.val, 12), (z.val, 6), (w.val, 0), (fs.toNat, 5)]
  | .red a b op _ => pack 0x12 [(a.val, 12), (b.val, 6), (op.val, 0)]
  | .atomu d a b op w32 fs _ => pack 0x13 [(d.val, 18), (a.val, 12), (b.val, 6), (op.val, 0), (w32.toNat, 4), (fs.toNat, 5)]
  | .fence d scope => pack 0x18 [(d.val, 18), (scope.val, 0)]
  | .cpin base ways slot => pack 0x19 [(base.val, 12), (ways.val, 8), (slot.val, 0)]
  | .cunpin slot => pack 0x1a [(slot.val, 0)]
  | .cpref base off _ => pack 0x1b [(base.val, 12), (off.val, 0)]
  | .cinv kind base off => pack 0x1c [(kind.val, 18), (base.val, 12), (off.val, 0)]
  | .tzero x n fs => pack 0x1 [(x.val, 18), (n.val, 6), (fs.toNat, 5)]
  | .tld x y fs => pack 0x2 [(x.val, 18), (y.val, 12), (fs.toNat, 5)]
  | .tst x y rnd sat fs => pack 0x3 [(x.val, 18), (y.val, 12), (rnd.val, 6), (sat.toNat, 9), (fs.toNat, 5)]
  | .tmma x y z zero rows fs => pack 0x4 [(x.val, 18), (y.val, 12), (z.val, 6), (zero.toNat, 0), (rows.toNat, 1), (fs.toNat, 5)]
  | .tgang fs => pack 0x5 [(fs.toNat, 5)]
  | .tsweep x y z w fs => pack 0x6 [(x.val, 18), (y.val, 12), (z.val, 6), (w.val, 0), (fs.toNat, 5)]
  | .tred x y op w fs => pack 0x7 [(x.val, 18), (y.val, 12), (op.val, 6), (w.val, 0), (fs.toNat, 5)]
  | .tfact x y fs => pack 0x8 [(x.val, 18), (y.val, 12), (fs.toNat, 5)]
  | .ttrs x y z fs => pack 0x9 [(x.val, 18), (y.val, 12), (z.val, 6), (fs.toNat, 5)]
  | .tmov x y z t fs => pack 0xa [(x.val, 18), (y.val, 12), (z.val, 6), (t.toNat, 0), (fs.toNat, 5)]
  | .tscl x y z col scalar fs => pack 0xb [(x.val, 18), (y.val, 12), (z.val, 6), (col.toNat, 0), (scalar.toNat, 1), (fs.toNat, 5)]
  | .spawn x y n split atom die hint => pack 0x0 [(x.val, 18), (y.val, 12), (n.val, 6), (split.toNat, 0), (atom.toNat, 1), (die.val, 2), (hint.toNat, 5)]
  | .spawnr x y n split atom => pack 0x1 [(x.val, 18), (y.val, 12), (n.val, 6), (split.toNat, 0), (atom.toNat, 1)]
  | .spawng x y n b m raft split => pack 0x2 [(x.val, 18), (y.val, 12), (n.val, 6), (b.val, 9), (m.val, 0), (raft.toNat, 4), (split.toNat, 5)]
  | .sync => pack 0x3 []
  | .pgrd d a dep => pack 0x4 [(d.val, 18), (a.val, 12), (dep.toNat, 0)]
  | .pgkey d => pack 0x5 [(d.val, 18)]
  | .prng x y j f32 fs => pack 0x6 [(x.val, 18), (y.val, 12), (j.val, 6), (f32.toNat, 8), (fs.toNat, 5)]
  | .palloc d a k => pack 0x7 [(d.val, 18), (a.val, 12), (k.val, 0)]
  | .plog a => pack 0x8 [(a.val, 12)]
  | .view i a b op => pack 0x9 [(i.val, 18), (a.val, 12), (b.val, 6), (op.val, 0)]
  | .rdacc i a b q neg => pack 0xa [(i.val, 18), (a.val, 12), (b.val, 6), (q.val, 0), (neg.toNat, 3)]
  | .rdget d i fs => pack 0xb [(d.val, 18), (i.val, 12), (fs.toNat, 5)]
  | .chunk => pack 0xc []
  | .chkst d => pack 0xd [(d.val, 18)]
  | .bar scope b => pack 0xe [(scope.val, 0), (b.val, 3)]
  | .bara d scope b => pack 0xf [(d.val, 18), (scope.val, 0), (b.val, 3)]
  | .barw a scope b => pack 0x10 [(a.val, 12), (scope.val, 0), (b.val, 3)]
  | .bari a scope b => pack 0x11 [(a.val, 12), (scope.val, 0), (b.val, 3)]
  | .barb a scope b => pack 0x12 [(a.val, 12), (scope.val, 0), (b.val, 3)]
  | .trap code => pack 0x13 [(code.toNat, 0)]
  | .rft => pack 0x14 []
  | .cpy x y tag w fs => pack 0x0 [(x.val, 18), (y.val, 12), (tag.val, 6), (w.val, 0), (fs.toNat, 5)]
  | .cpyf x y tag w fs => pack 0x1 [(x.val, 18), (y.val, 12), (tag.val, 6), (w.val, 0), (fs.toNat, 5)]
  | .wtagany x y fs => pack 0x2 [(x.val, 18), (y.val, 12), (fs.toNat, 5)]
  | .wtagall x y fs => pack 0x3 [(x.val, 18), (y.val, 12), (fs.toNat, 5)]
  | .tagff x y fs => pack 0x4 [(x.val, 18), (y.val, 12), (fs.toNat, 5)]
  | .tagclr y fs => pack 0x5 [(y.val, 12), (fs.toNat, 5)]
  | .frontierSelection _ => 0
  | .longLatencyCompletion _ _ => 0
  | .sfuAcceptance _ => 0
  | .chunkCommit _ => 0
  | .softErrorFerry _ => 0
  | .landingRequest _ => 0
  | .invalidation _ _ => 0
  | .exclusiveMode _ => 0
  | .tableWalk _ _ => 0
  | .taskStart _ => 0
  | .windowPlacement _ => 0
  | .taskEnd _ => 0
  | .steal _ => 0
  | .frameReady _ => 0
  | .viewMerge _ _ => 0
  | .userMergeRoutine _ _ => 0
  | .hintQueueTake _ => 0
  | .gangStart _ => 0
  | .bargeCommandEntry _ => 0
  | .copyStart _ => 0
  | .copyLineCommit _ _ => 0
  | .copyCompletion _ _ => 0
  | .tagWaitCompletion _ _ => 0
  | .tensorCommandEntry _ => 0
  | .tensorCommandDispatch _ => 0
  | .tensorCommandCompletion _ => 0
  | .latchPairing _ => 0
  | .launchStart _ => 0
  | .launchCompletion _ => 0
  | .preemptionRequest _ => 0
  | .contextSave _ => 0
  | .stopTimeout _ => 0
  | .contextResume _ => 0
  | .rotationTick => 0
  | .doorbell _ _ => 0
  | .bar0RegisterWrite _ _ => 0
  | .bar2Write _ _ => 0
  | .bar2Read _ _ => 0
  | .bar2AtomicOp _ _ _ _ _ => 0
  | .keyload _ _ => 0
  | .keydestroy _ => 0
  | .preempt _ => 0
  | .checkpoint _ _ => 0
  | .checkpointCopyDone _ => 0
  | .restore _ _ => 0
  | .fwstage _ _ => 0
  | .fwactivate => 0
  | .sensors _ => 0
  | .window _ _ _ => 0
  | .bar2set _ _ => 0
  | .evread _ _ _ => 0
  | .peerInboundAccess _ _ _ => 0
  | .linkStateChange _ _ => 0
  | .linkTimeout _ => 0
  | .fenceWaitEnd _ => 0
  | .dieFailure _ => 0
  | .powerCap _ => 0
  | .thermalTrip _ => 0
  | .coldReset => 0
  | .warmReset => 0
  | .redirectCompletion _ _ => 0
  | .podBarrierMessage _ => 0

/-- The extension words (R31, R34) or literal words (R29) that follow the instruction word. -/
def encodeExt : Instr → List Nat
  | .nop => []
  | .bra _ => []
  | .brz _ _ _ => []
  | .brnz _ _ _ => []
  | .brq _ _ _ => []
  | .jmpi _ => []
  | .call _ => []
  | .calli _ => []
  | .ret => []
  | .exit => []
  | .safept _ => []
  | .waitf _ => []
  | .rep _ _ => []
  | .brk _ => []
  | .sadd _ _ _ => []
  | .ssub _ _ _ => []
  | .smul _ _ _ => []
  | .smulh _ _ _ => []
  | .smulhz _ _ _ => []
  | .sand _ _ _ => []
  | .sor _ _ _ => []
  | .sxor _ _ _ => []
  | .sshl _ _ _ => []
  | .sshr _ _ _ => []
  | .ssar _ _ _ => []
  | .smin _ _ _ => []
  | .smax _ _ _ => []
  | .sminz _ _ _ => []
  | .smaxz _ _ _ => []
  | .scmp _ _ _ _ => []
  | .ssel _ _ _ _ => []
  | .smov _ _ => []
  | .spopc _ _ => []
  | .sclz _ _ => []
  | .saddi _ _ _ => []
  | .sandi _ _ _ => []
  | .sori _ _ _ => []
  | .sshli _ _ _ => []
  | .sshri _ _ _ => []
  | .smovk _ _ _ => []
  | .smovz _ _ _ => []
  | .slimm _ lit => [lit.toNat % 2 ^ 32, lit.toNat / 2 ^ 32]
  | .srdl _ _ _ _ => []
  | .mfsr _ _ => []
  | .mtsr _ _ => []
  | .vmov _ _ _ rx => encodeRx rx
  | .vadd _ _ _ _ rx => encodeRx rx
  | .vsub _ _ _ _ rx => encodeRx rx
  | .vadds _ _ _ _ rx => encodeRx rx
  | .vsubs _ _ _ _ rx => encodeRx rx
  | .vmul _ _ _ _ rx => encodeRx rx
  | .vmulh _ _ _ _ rx => encodeRx rx
  | .vmad _ _ _ _ _ rx => encodeRx rx
  | .vmin _ _ _ _ rx => encodeRx rx
  | .vmax _ _ _ _ rx => encodeRx rx
  | .vabs _ _ _ rx => encodeRx rx
  | .vneg _ _ _ rx => encodeRx rx
  | .vabsd _ _ _ _ rx => encodeRx rx
  | .vand _ _ _ _ rx => encodeRx rx
  | .vor _ _ _ _ rx => encodeRx rx
  | .vxor _ _ _ _ rx => encodeRx rx
  | .vandn _ _ _ _ rx => encodeRx rx
  | .vnot _ _ _ rx => encodeRx rx
  | .vshl _ _ _ _ rx => encodeRx rx
  | .vshr _ _ _ _ rx => encodeRx rx
  | .vsar _ _ _ _ rx => encodeRx rx
  | .vrol _ _ _ _ rx => encodeRx rx
  | .vbfx _ _ _ _ _ rx => encodeRx rx
  | .vbfi _ _ _ _ _ rx => encodeRx rx
  | .vpopc _ _ _ rx => encodeRx rx
  | .vclz _ _ _ rx => encodeRx rx
  | .vbrev _ _ _ rx => encodeRx rx
  | .vcmp _ _ _ _ _ rx => encodeRx rx
  | .vsel _ _ _ _ _ rx => encodeRx rx
  | .vqop _ _ _ _ rx => encodeRx rx
  | .vqmov _ _ _ _ rx => encodeRx rx
  | .vaddi _ _ _ rx => encodeRx rx
  | .vandi _ _ _ rx => encodeRx rx
  | .vori _ _ _ rx => encodeRx rx
  | .vxori _ _ _ rx => encodeRx rx
  | .vshli _ _ _ rx => encodeRx rx
  | .vshri _ _ _ rx => encodeRx rx
  | .vsari _ _ _ rx => encodeRx rx
  | .vmovi _ _ _ rx => encodeRx rx
  | .vlimm _ lit => [lit.toNat % 2 ^ 32, lit.toNat / 2 ^ 32]
  | .viota _ _ _ rx => encodeRx rx
  | .vwrl _ _ _ _ _ rx => encodeRx rx
  | .vvote _ _ _ _ rx => encodeRx rx
  | .vballot _ _ _ rx => encodeRx rx
  | .vmatch _ _ _ rx => encodeRx rx
  | .vfirst _ _ _ rx => encodeRx rx
  | .vactive _ rx => encodeRx rx
  | .fadd _ _ _ _ rx => encodeRx rx
  | .fsub _ _ _ _ rx => encodeRx rx
  | .fmul _ _ _ _ rx => encodeRx rx
  | .fma _ _ _ _ _ rx => encodeRx rx
  | .fms _ _ _ _ _ rx => encodeRx rx
  | .fnma _ _ _ _ _ rx => encodeRx rx
  | .fmin _ _ _ _ rx => encodeRx rx
  | .fmax _ _ _ _ rx => encodeRx rx
  | .fminn _ _ _ _ rx => encodeRx rx
  | .fmaxn _ _ _ _ rx => encodeRx rx
  | .fabs _ _ _ rx => encodeRx rx
  | .fneg _ _ _ rx => encodeRx rx
  | .fcps _ _ _ _ rx => encodeRx rx
  | .fcmp _ _ _ _ _ rx => encodeRx rx
  | .fclass _ _ _ rx => encodeRx rx
  | .frnd _ _ _ rx => encodeRx rx
  | .fdot2 _ _ _ _ _ rx => encodeRx rx
  | .fdot4 _ _ _ _ _ rx => encodeRx rx
  | .fscale _ _ _ _ rx => encodeRx rx
  | .fgetx _ _ _ rx => encodeRx rx
  | .fpivg _ _ _ _ _ rx => encodeRx rx
  | .frcp _ _ _ rx => encodeRx rx
  | .frsq _ _ _ rx => encodeRx rx
  | .fsqrt _ _ _ rx => encodeRx rx
  | .fdiv _ _ _ _ rx => encodeRx rx
  | .fexp2 _ _ _ rx => encodeRx rx
  | .flog2 _ _ _ rx => encodeRx rx
  | .fsinp _ _ _ rx => encodeRx rx
  | .fcosp _ _ _ rx => encodeRx rx
  | .ftanh _ _ _ rx => encodeRx rx
  | .cvt _ _ _ _ _ rx => encodeRx rx
  | .cvts _ _ _ _ _ rx => encodeRx rx
  | .fmaxx _ _ _ _ _ rx => encodeRx rx
  | .vsettag _ _ _ _ rx => encodeRx rx
  | .vgettag _ _ _ rx => encodeRx rx
  | .sclget _ _ rx => encodeRx rx
  | .sclset _ _ rx => encodeRx rx
  | .flimm _ lit => [lit.toNat % 2 ^ 32, lit.toNat / 2 ^ 32]
  | .ord _ _ => []
  | .ld _ _ _ _ mx => encodeMx mx
  | .lde _ _ _ _ mx => encodeMx mx
  | .st _ _ _ _ mx => encodeMx mx
  | .ste _ _ _ _ mx => encodeMx mx
  | .ldu _ _ _ _ mx => encodeMx mx
  | .stu _ _ _ _ mx => encodeMx mx
  | .ldx _ _ _ _ gx => [encodeGx gx]
  | .stx _ _ _ _ gx => [encodeGx gx]
  | .ldp _ _ _ _ mx => encodeMx mx
  | .stp _ _ _ _ mx => encodeMx mx
  | .atom _ _ _ _ _ mx => encodeMx mx
  | .atomc _ _ _ _ _ mx => encodeMx mx
  | .red _ _ _ mx => encodeMx mx
  | .atomu _ _ _ _ _ _ mx => encodeMx mx
  | .fence _ _ => []
  | .cpin _ _ _ => []
  | .cunpin _ => []
  | .cpref _ _ mx => encodeMx mx
  | .cinv _ _ _ => []
  | .tzero _ _ _ => []
  | .tld _ _ _ => []
  | .tst _ _ _ _ _ => []
  | .tmma _ _ _ _ _ _ => []
  | .tgang _ => []
  | .tsweep _ _ _ _ _ => []
  | .tred _ _ _ _ _ => []
  | .tfact _ _ _ => []
  | .ttrs _ _ _ _ => []
  | .tmov _ _ _ _ _ => []
  | .tscl _ _ _ _ _ _ => []
  | .spawn _ _ _ _ _ _ _ => []
  | .spawnr _ _ _ _ _ => []
  | .spawng _ _ _ _ _ _ _ => []
  | .sync => []
  | .pgrd _ _ _ => []
  | .pgkey _ => []
  | .prng _ _ _ _ _ => []
  | .palloc _ _ _ => []
  | .plog _ => []
  | .view _ _ _ _ => []
  | .rdacc _ _ _ _ _ => []
  | .rdget _ _ _ => []
  | .chunk => []
  | .chkst _ => []
  | .bar _ _ => []
  | .bara _ _ _ => []
  | .barw _ _ _ => []
  | .bari _ _ _ => []
  | .barb _ _ _ => []
  | .trap _ => []
  | .rft => []
  | .cpy _ _ _ _ _ => []
  | .cpyf _ _ _ _ _ => []
  | .wtagany _ _ _ => []
  | .wtagall _ _ _ => []
  | .tagff _ _ _ => []
  | .tagclr _ _ => []
  | .frontierSelection _ => []
  | .longLatencyCompletion _ _ => []
  | .sfuAcceptance _ => []
  | .chunkCommit _ => []
  | .softErrorFerry _ => []
  | .landingRequest _ => []
  | .invalidation _ _ => []
  | .exclusiveMode _ => []
  | .tableWalk _ _ => []
  | .taskStart _ => []
  | .windowPlacement _ => []
  | .taskEnd _ => []
  | .steal _ => []
  | .frameReady _ => []
  | .viewMerge _ _ => []
  | .userMergeRoutine _ _ => []
  | .hintQueueTake _ => []
  | .gangStart _ => []
  | .bargeCommandEntry _ => []
  | .copyStart _ => []
  | .copyLineCommit _ _ => []
  | .copyCompletion _ _ => []
  | .tagWaitCompletion _ _ => []
  | .tensorCommandEntry _ => []
  | .tensorCommandDispatch _ => []
  | .tensorCommandCompletion _ => []
  | .latchPairing _ => []
  | .launchStart _ => []
  | .launchCompletion _ => []
  | .preemptionRequest _ => []
  | .contextSave _ => []
  | .stopTimeout _ => []
  | .contextResume _ => []
  | .rotationTick => []
  | .doorbell _ _ => []
  | .bar0RegisterWrite _ _ => []
  | .bar2Write _ _ => []
  | .bar2Read _ _ => []
  | .bar2AtomicOp _ _ _ _ _ => []
  | .keyload _ _ => []
  | .keydestroy _ => []
  | .preempt _ => []
  | .checkpoint _ _ => []
  | .checkpointCopyDone _ => []
  | .restore _ _ => []
  | .fwstage _ _ => []
  | .fwactivate => []
  | .sensors _ => []
  | .window _ _ _ => []
  | .bar2set _ _ => []
  | .evread _ _ _ => []
  | .peerInboundAccess _ _ _ => []
  | .linkStateChange _ _ => []
  | .linkTimeout _ => []
  | .fenceWaitEnd _ => []
  | .dieFailure _ => []
  | .powerCap _ => []
  | .thermalTrip _ => []
  | .coldReset => []
  | .warmReset => []
  | .redirectCompletion _ _ => []
  | .podBarrierMessage _ => []

/-- The engine class whose clauses hold the instruction (R39); `none` for an event, which has no word. -/
def Instr.cls : Instr → Option EngineClass
  | .nop => some .seq
  | .bra _ => some .seq
  | .brz _ _ _ => some .seq
  | .brnz _ _ _ => some .seq
  | .brq _ _ _ => some .seq
  | .jmpi _ => some .seq
  | .call _ => some .seq
  | .calli _ => some .seq
  | .ret => some .seq
  | .exit => some .seq
  | .safept _ => some .seq
  | .waitf _ => some .seq
  | .rep _ _ => some .seq
  | .brk _ => some .seq
  | .sadd _ _ _ => some .seq
  | .ssub _ _ _ => some .seq
  | .smul _ _ _ => some .seq
  | .smulh _ _ _ => some .seq
  | .smulhz _ _ _ => some .seq
  | .sand _ _ _ => some .seq
  | .sor _ _ _ => some .seq
  | .sxor _ _ _ => some .seq
  | .sshl _ _ _ => some .seq
  | .sshr _ _ _ => some .seq
  | .ssar _ _ _ => some .seq
  | .smin _ _ _ => some .seq
  | .smax _ _ _ => some .seq
  | .sminz _ _ _ => some .seq
  | .smaxz _ _ _ => some .seq
  | .scmp _ _ _ _ => some .seq
  | .ssel _ _ _ _ => some .seq
  | .smov _ _ => some .seq
  | .spopc _ _ => some .seq
  | .sclz _ _ => some .seq
  | .saddi _ _ _ => some .seq
  | .sandi _ _ _ => some .seq
  | .sori _ _ _ => some .seq
  | .sshli _ _ _ => some .seq
  | .sshri _ _ _ => some .seq
  | .smovk _ _ _ => some .seq
  | .smovz _ _ _ => some .seq
  | .slimm _ _ => some .seq
  | .srdl _ _ _ _ => some .seq
  | .mfsr _ _ => some .seq
  | .mtsr _ _ => some .seq
  | .vmov _ _ _ _ => some .vi
  | .vadd _ _ _ _ _ => some .vi
  | .vsub _ _ _ _ _ => some .vi
  | .vadds _ _ _ _ _ => some .vi
  | .vsubs _ _ _ _ _ => some .vi
  | .vmul _ _ _ _ _ => some .vi
  | .vmulh _ _ _ _ _ => some .vi
  | .vmad _ _ _ _ _ _ => some .vi
  | .vmin _ _ _ _ _ => some .vi
  | .vmax _ _ _ _ _ => some .vi
  | .vabs _ _ _ _ => some .vi
  | .vneg _ _ _ _ => some .vi
  | .vabsd _ _ _ _ _ => some .vi
  | .vand _ _ _ _ _ => some .vi
  | .vor _ _ _ _ _ => some .vi
  | .vxor _ _ _ _ _ => some .vi
  | .vandn _ _ _ _ _ => some .vi
  | .vnot _ _ _ _ => some .vi
  | .vshl _ _ _ _ _ => some .vi
  | .vshr _ _ _ _ _ => some .vi
  | .vsar _ _ _ _ _ => some .vi
  | .vrol _ _ _ _ _ => some .vi
  | .vbfx _ _ _ _ _ _ => some .vi
  | .vbfi _ _ _ _ _ _ => some .vi
  | .vpopc _ _ _ _ => some .vi
  | .vclz _ _ _ _ => some .vi
  | .vbrev _ _ _ _ => some .vi
  | .vcmp _ _ _ _ _ _ => some .vi
  | .vsel _ _ _ _ _ _ => some .vi
  | .vqop _ _ _ _ _ => some .vi
  | .vqmov _ _ _ _ _ => some .vi
  | .vaddi _ _ _ _ => some .vi
  | .vandi _ _ _ _ => some .vi
  | .vori _ _ _ _ => some .vi
  | .vxori _ _ _ _ => some .vi
  | .vshli _ _ _ _ => some .vi
  | .vshri _ _ _ _ => some .vi
  | .vsari _ _ _ _ => some .vi
  | .vmovi _ _ _ _ => some .vi
  | .vlimm _ _ => some .vi
  | .viota _ _ _ _ => some .vi
  | .vwrl _ _ _ _ _ _ => some .vi
  | .vvote _ _ _ _ _ => some .vi
  | .vballot _ _ _ _ => some .vi
  | .vmatch _ _ _ _ => some .vi
  | .vfirst _ _ _ _ => some .vi
  | .vactive _ _ => some .vi
  | .fadd _ _ _ _ _ => some .vf
  | .fsub _ _ _ _ _ => some .vf
  | .fmul _ _ _ _ _ => some .vf
  | .fma _ _ _ _ _ _ => some .vf
  | .fms _ _ _ _ _ _ => some .vf
  | .fnma _ _ _ _ _ _ => some .vf
  | .fmin _ _ _ _ _ => some .vf
  | .fmax _ _ _ _ _ => some .vf
  | .fminn _ _ _ _ _ => some .vf
  | .fmaxn _ _ _ _ _ => some .vf
  | .fabs _ _ _ _ => some .vf
  | .fneg _ _ _ _ => some .vf
  | .fcps _ _ _ _ _ => some .vf
  | .fcmp _ _ _ _ _ _ => some .vf
  | .fclass _ _ _ _ => some .vf
  | .frnd _ _ _ _ => some .vf
  | .fdot2 _ _ _ _ _ _ => some .vf
  | .fdot4 _ _ _ _ _ _ => some .vf
  | .fscale _ _ _ _ _ => some .vf
  | .fgetx _ _ _ _ => some .vf
  | .fpivg _ _ _ _ _ _ => some .vf
  | .frcp _ _ _ _ => some .vf
  | .frsq _ _ _ _ => some .vf
  | .fsqrt _ _ _ _ => some .vf
  | .fdiv _ _ _ _ _ => some .vf
  | .fexp2 _ _ _ _ => some .vf
  | .flog2 _ _ _ _ => some .vf
  | .fsinp _ _ _ _ => some .vf
  | .fcosp _ _ _ _ => some .vf
  | .ftanh _ _ _ _ => some .vf
  | .cvt _ _ _ _ _ _ => some .vf
  | .cvts _ _ _ _ _ _ => some .vf
  | .fmaxx _ _ _ _ _ _ => some .vf
  | .vsettag _ _ _ _ _ => some .vf
  | .vgettag _ _ _ _ => some .vf
  | .sclget _ _ _ => some .vf
  | .sclset _ _ _ => some .vf
  | .flimm _ _ => some .vf
  | .ord _ _ => some .mem
  | .ld _ _ _ _ _ => some .mem
  | .lde _ _ _ _ _ => some .mem
  | .st _ _ _ _ _ => some .mem
  | .ste _ _ _ _ _ => some .mem
  | .ldu _ _ _ _ _ => some .mem
  | .stu _ _ _ _ _ => some .mem
  | .ldx _ _ _ _ _ => some .mem
  | .stx _ _ _ _ _ => some .mem
  | .ldp _ _ _ _ _ => some .mem
  | .stp _ _ _ _ _ => some .mem
  | .atom _ _ _ _ _ _ => some .mem
  | .atomc _ _ _ _ _ _ => some .mem
  | .red _ _ _ _ => some .mem
  | .atomu _ _ _ _ _ _ _ => some .mem
  | .fence _ _ => some .mem
  | .cpin _ _ _ => some .mem
  | .cunpin _ => some .mem
  | .cpref _ _ _ => some .mem
  | .cinv _ _ _ => some .mem
  | .tzero _ _ _ => some .ten
  | .tld _ _ _ => some .ten
  | .tst _ _ _ _ _ => some .ten
  | .tmma _ _ _ _ _ _ => some .ten
  | .tgang _ => some .ten
  | .tsweep _ _ _ _ _ => some .ten
  | .tred _ _ _ _ _ => some .ten
  | .tfact _ _ _ => some .ten
  | .ttrs _ _ _ _ => some .ten
  | .tmov _ _ _ _ _ => some .ten
  | .tscl _ _ _ _ _ _ => some .ten
  | .spawn _ _ _ _ _ _ _ => some .tsk
  | .spawnr _ _ _ _ _ => some .tsk
  | .spawng _ _ _ _ _ _ _ => some .tsk
  | .sync => some .tsk
  | .pgrd _ _ _ => some .tsk
  | .pgkey _ => some .tsk
  | .prng _ _ _ _ _ => some .tsk
  | .palloc _ _ _ => some .tsk
  | .plog _ => some .tsk
  | .view _ _ _ _ => some .tsk
  | .rdacc _ _ _ _ _ => some .tsk
  | .rdget _ _ _ => some .tsk
  | .chunk => some .tsk
  | .chkst _ => some .tsk
  | .bar _ _ => some .tsk
  | .bara _ _ _ => some .tsk
  | .barw _ _ _ => some .tsk
  | .bari _ _ _ => some .tsk
  | .barb _ _ _ => some .tsk
  | .trap _ => some .tsk
  | .rft => some .tsk
  | .cpy _ _ _ _ _ => some .brg
  | .cpyf _ _ _ _ _ => some .brg
  | .wtagany _ _ _ => some .brg
  | .wtagall _ _ _ => some .brg
  | .tagff _ _ _ => some .brg
  | .tagclr _ _ => some .brg
  | .frontierSelection _ => none
  | .longLatencyCompletion _ _ => none
  | .sfuAcceptance _ => none
  | .chunkCommit _ => none
  | .softErrorFerry _ => none
  | .landingRequest _ => none
  | .invalidation _ _ => none
  | .exclusiveMode _ => none
  | .tableWalk _ _ => none
  | .taskStart _ => none
  | .windowPlacement _ => none
  | .taskEnd _ => none
  | .steal _ => none
  | .frameReady _ => none
  | .viewMerge _ _ => none
  | .userMergeRoutine _ _ => none
  | .hintQueueTake _ => none
  | .gangStart _ => none
  | .bargeCommandEntry _ => none
  | .copyStart _ => none
  | .copyLineCommit _ _ => none
  | .copyCompletion _ _ => none
  | .tagWaitCompletion _ _ => none
  | .tensorCommandEntry _ => none
  | .tensorCommandDispatch _ => none
  | .tensorCommandCompletion _ => none
  | .latchPairing _ => none
  | .launchStart _ => none
  | .launchCompletion _ => none
  | .preemptionRequest _ => none
  | .contextSave _ => none
  | .stopTimeout _ => none
  | .contextResume _ => none
  | .rotationTick => none
  | .doorbell _ _ => none
  | .bar0RegisterWrite _ _ => none
  | .bar2Write _ _ => none
  | .bar2Read _ _ => none
  | .bar2AtomicOp _ _ _ _ _ => none
  | .keyload _ _ => none
  | .keydestroy _ => none
  | .preempt _ => none
  | .checkpoint _ _ => none
  | .checkpointCopyDone _ => none
  | .restore _ _ => none
  | .fwstage _ _ => none
  | .fwactivate => none
  | .sensors _ => none
  | .window _ _ _ => none
  | .bar2set _ _ => none
  | .evread _ _ _ => none
  | .peerInboundAccess _ _ _ => none
  | .linkStateChange _ _ => none
  | .linkTimeout _ => none
  | .fenceWaitEnd _ => none
  | .dieFailure _ => none
  | .powerCap _ => none
  | .thermalTrip _ => none
  | .coldReset => none
  | .warmReset => none
  | .redirectCompletion _ _ => none
  | .podBarrierMessage _ => none

/-- The instruction carries an extension word, which EXT announces (R30). -/
def Instr.hasExt : Instr → Bool
  | .slimm _ _ | .vlimm _ _ | .flimm _ _ => false
  | i => !(encodeExt i).isEmpty

/-- The words of an instruction: its own word with EXT in [31], then its extension or literal words. -/
def encode (i : Instr) : List Nat := (encodeBody i + i.hasExt.toNat * 2 ^ 31) :: encodeExt i

/-- A clause header (R17). -/
structure Header where
  count : Fin 16
  cls : EngineClass
  wait : BitVec 12
  seta : Fin 16
  setb : Fin 16
  lp : Bool
  cb : Bool
  pri : Fin 8
  deriving DecidableEq, Repr

/-- The class code of a header (R18); 7 is none. -/
def decodeClass (n : Nat) : Option EngineClass :=
  match n with
  | 0 => some .seq | 1 => some .vi | 2 => some .vf | 3 => some .mem | 4 => some .ten | 5 => some .tsk | 6 => some .brg
  | _ => none

/-- The class code (R18). -/
def encodeClass : EngineClass → Nat
  | .seq => 0 | .vi => 1 | .vf => 2 | .mem => 3 | .ten => 4 | .tsk => 5 | .brg => 6

/-- SETA and SETB hold 0 to 11 or 0xF (R17). -/
def setOk (n : Fin 16) : Bool := decide (n.val < 12) || n.val == 15

/-- The header word of a clause; `none` where it raises CLAUSE (R17, R18, R41). -/
def decodeHeader (w : Nat) : Option Header :=
  match decodeClass (bits w 25 3) with
  | none => none
  | some c =>
    let h : Header := ⟨fin 16 (bits w 28 4), c, BitVec.ofNat 12 (bits w 13 12), fin 16 (bits w 9 4), fin 16 (bits w 5 4),
      bit w 4, bit w 3, fin 8 (bits w 0 3)⟩
    if h.count.val != 0 && setOk h.seta && setOk h.setb then some h else none

/-- The header word (R17). -/
def encodeHeader (h : Header) : Nat :=
  h.count.val * 2 ^ 28 + encodeClass h.cls * 2 ^ 25 + h.wait.toNat * 2 ^ 13 + h.seta.val * 2 ^ 9 + h.setb.val * 2 ^ 5 +
    h.lp.toNat * 2 ^ 4 + h.cb.toNat * 2 ^ 3 + h.pri.val

/-- OP is assigned in the class and an RX word may follow it (R30, R39). -/
def assignedV (cls : EngineClass) (op : Nat) : Bool :=
  match cls with
  | .vi => decide (op ≤ 0xc) || (decide (0x10 ≤ op) && decide (op ≤ 0x1d)) || (decide (0x20 ≤ op) && decide (op ≤ 0x23)) ||
      (decide (0x28 ≤ op) && decide (op ≤ 0x2f)) || op == 0x31 || op == 0x32 || (decide (0x38 ≤ op) && decide (op ≤ 0x3c))
  | .vf => decide (op ≤ 0x14) || (decide (0x18 ≤ op) && decide (op ≤ 0x20)) || (decide (0x28 ≤ op) && decide (op ≤ 0x2e))
  | _ => false

/-- The number of words that an instruction word takes in its clause, itself included (R29, R30, R31 MORE); `next` is
the word after it. A word that is no instruction takes one. -/
def wordLen (cls : EngineClass) (idx w next : Nat) : Nat :=
  let op := bits w 24 7
  if idx == 1 && isSafeptWord w then 1
  else if isLitOp cls op then 3
  else if !bit w 31 then 1
  else if assignedV cls op then (if bit next 1 then 3 else 2)
  else match cls with
    | .mem => if takesMx op then 2 else 1
    | _ => 1

/-- The RX words of a VI or VF instruction. -/
def Instr.rx : Instr → Option Rx
  | .vmov _ _ _ rx => rx
  | .vadd _ _ _ _ rx => rx
  | .vsub _ _ _ _ rx => rx
  | .vadds _ _ _ _ rx => rx
  | .vsubs _ _ _ _ rx => rx
  | .vmul _ _ _ _ rx => rx
  | .vmulh _ _ _ _ rx => rx
  | .vmad _ _ _ _ _ rx => rx
  | .vmin _ _ _ _ rx => rx
  | .vmax _ _ _ _ rx => rx
  | .vabs _ _ _ rx => rx
  | .vneg _ _ _ rx => rx
  | .vabsd _ _ _ _ rx => rx
  | .vand _ _ _ _ rx => rx
  | .vor _ _ _ _ rx => rx
  | .vxor _ _ _ _ rx => rx
  | .vandn _ _ _ _ rx => rx
  | .vnot _ _ _ rx => rx
  | .vshl _ _ _ _ rx => rx
  | .vshr _ _ _ _ rx => rx
  | .vsar _ _ _ _ rx => rx
  | .vrol _ _ _ _ rx => rx
  | .vbfx _ _ _ _ _ rx => rx
  | .vbfi _ _ _ _ _ rx => rx
  | .vpopc _ _ _ rx => rx
  | .vclz _ _ _ rx => rx
  | .vbrev _ _ _ rx => rx
  | .vcmp _ _ _ _ _ rx => rx
  | .vsel _ _ _ _ _ rx => rx
  | .vqop _ _ _ _ rx => rx
  | .vqmov _ _ _ _ rx => rx
  | .vaddi _ _ _ rx => rx
  | .vandi _ _ _ rx => rx
  | .vori _ _ _ rx => rx
  | .vxori _ _ _ rx => rx
  | .vshli _ _ _ rx => rx
  | .vshri _ _ _ rx => rx
  | .vsari _ _ _ rx => rx
  | .vmovi _ _ _ rx => rx
  | .viota _ _ _ rx => rx
  | .vwrl _ _ _ _ _ rx => rx
  | .vvote _ _ _ _ rx => rx
  | .vballot _ _ _ rx => rx
  | .vmatch _ _ _ rx => rx
  | .vfirst _ _ _ rx => rx
  | .vactive _ rx => rx
  | .fadd _ _ _ _ rx => rx
  | .fsub _ _ _ _ rx => rx
  | .fmul _ _ _ _ rx => rx
  | .fma _ _ _ _ _ rx => rx
  | .fms _ _ _ _ _ rx => rx
  | .fnma _ _ _ _ _ rx => rx
  | .fmin _ _ _ _ rx => rx
  | .fmax _ _ _ _ rx => rx
  | .fminn _ _ _ _ rx => rx
  | .fmaxn _ _ _ _ rx => rx
  | .fabs _ _ _ rx => rx
  | .fneg _ _ _ rx => rx
  | .fcps _ _ _ _ rx => rx
  | .fcmp _ _ _ _ _ rx => rx
  | .fclass _ _ _ rx => rx
  | .frnd _ _ _ rx => rx
  | .fdot2 _ _ _ _ _ rx => rx
  | .fdot4 _ _ _ _ _ rx => rx
  | .fscale _ _ _ _ rx => rx
  | .fgetx _ _ _ rx => rx
  | .fpivg _ _ _ _ _ rx => rx
  | .frcp _ _ _ rx => rx
  | .frsq _ _ _ rx => rx
  | .fsqrt _ _ _ rx => rx
  | .fdiv _ _ _ _ rx => rx
  | .fexp2 _ _ _ rx => rx
  | .flog2 _ _ _ rx => rx
  | .fsinp _ _ _ rx => rx
  | .fcosp _ _ _ rx => rx
  | .ftanh _ _ _ rx => rx
  | .cvt _ _ _ _ _ rx => rx
  | .cvts _ _ _ _ _ rx => rx
  | .fmaxx _ _ _ _ _ rx => rx
  | .vsettag _ _ _ _ rx => rx
  | .vgettag _ _ _ rx => rx
  | .sclget _ _ rx => rx
  | .sclset _ _ rx => rx
  | _ => none

/-- The FS bit; false where the form has none (R24). -/
def Instr.fsBit : Instr → Bool
  | .vmov _ _ fs _ => fs
  | .vadd _ _ _ fs _ => fs
  | .vsub _ _ _ fs _ => fs
  | .vadds _ _ _ fs _ => fs
  | .vsubs _ _ _ fs _ => fs
  | .vmul _ _ _ fs _ => fs
  | .vmulh _ _ _ fs _ => fs
  | .vmad _ _ _ _ fs _ => fs
  | .vmin _ _ _ fs _ => fs
  | .vmax _ _ _ fs _ => fs
  | .vabs _ _ fs _ => fs
  | .vneg _ _ fs _ => fs
  | .vabsd _ _ _ fs _ => fs
  | .vand _ _ _ fs _ => fs
  | .vor _ _ _ fs _ => fs
  | .vxor _ _ _ fs _ => fs
  | .vandn _ _ _ fs _ => fs
  | .vnot _ _ fs _ => fs
  | .vshl _ _ _ fs _ => fs
  | .vshr _ _ _ fs _ => fs
  | .vsar _ _ _ fs _ => fs
  | .vrol _ _ _ fs _ => fs
  | .vbfx _ _ _ _ fs _ => fs
  | .vbfi _ _ _ _ fs _ => fs
  | .vpopc _ _ fs _ => fs
  | .vclz _ _ fs _ => fs
  | .vbrev _ _ fs _ => fs
  | .vcmp _ _ _ _ fs _ => fs
  | .vsel _ _ _ _ fs _ => fs
  | .vqmov _ _ _ fs _ => fs
  | .vwrl _ _ _ _ fs _ => fs
  | .vvote _ _ _ fs _ => fs
  | .vballot _ _ fs _ => fs
  | .vmatch _ _ fs _ => fs
  | .vfirst _ _ fs _ => fs
  | .fadd _ _ _ fs _ => fs
  | .fsub _ _ _ fs _ => fs
  | .fmul _ _ _ fs _ => fs
  | .fma _ _ _ _ fs _ => fs
  | .fms _ _ _ _ fs _ => fs
  | .fnma _ _ _ _ fs _ => fs
  | .fmin _ _ _ fs _ => fs
  | .fmax _ _ _ fs _ => fs
  | .fminn _ _ _ fs _ => fs
  | .fmaxn _ _ _ fs _ => fs
  | .fabs _ _ fs _ => fs
  | .fneg _ _ fs _ => fs
  | .fcps _ _ _ fs _ => fs
  | .fcmp _ _ _ _ fs _ => fs
  | .fclass _ _ fs _ => fs
  | .frnd _ _ fs _ => fs
  | .fdot2 _ _ _ _ fs _ => fs
  | .fdot4 _ _ _ _ fs _ => fs
  | .fscale _ _ _ fs _ => fs
  | .fgetx _ _ fs _ => fs
  | .fpivg _ _ _ _ fs _ => fs
  | .frcp _ _ fs _ => fs
  | .frsq _ _ fs _ => fs
  | .fsqrt _ _ fs _ => fs
  | .fdiv _ _ _ fs _ => fs
  | .fexp2 _ _ fs _ => fs
  | .flog2 _ _ fs _ => fs
  | .fsinp _ _ fs _ => fs
  | .fcosp _ _ fs _ => fs
  | .ftanh _ _ fs _ => fs
  | .cvt _ _ _ _ fs _ => fs
  | .cvts _ _ _ _ fs _ => fs
  | .fmaxx _ _ _ _ fs _ => fs
  | .vsettag _ _ _ fs _ => fs
  | .vgettag _ _ fs _ => fs
  | .atom _ _ _ _ fs _ => fs
  | .atomc _ _ _ _ fs _ => fs
  | .atomu _ _ _ _ _ fs _ => fs
  | .tzero _ _ fs => fs
  | .tld _ _ fs => fs
  | .tst _ _ _ _ fs => fs
  | .tmma _ _ _ _ _ fs => fs
  | .tgang fs => fs
  | .tsweep _ _ _ _ fs => fs
  | .tred _ _ _ _ fs => fs
  | .tfact _ _ fs => fs
  | .ttrs _ _ _ fs => fs
  | .tmov _ _ _ _ fs => fs
  | .tscl _ _ _ _ _ fs => fs
  | .prng _ _ _ _ fs => fs
  | .rdget _ _ fs => fs
  | .cpy _ _ _ _ fs => fs
  | .cpyf _ _ _ _ fs => fs
  | .wtagany _ _ fs => fs
  | .wtagall _ _ fs => fs
  | .tagff _ _ fs => fs
  | .tagclr _ fs => fs
  | _ => false

/-- A long-latency instruction (R24). -/
def Instr.longLatency : Instr → Bool
  | .ld .. | .lde .. | .ldu .. | .ldx .. | .ldp .. | .atom .. | .atomc .. | .atomu .. | .prng .. | .rdget .. => true
  | .frcp .. | .frsq .. | .fsqrt .. | .fdiv .. | .fexp2 .. | .flog2 .. | .fsinp .. | .fcosp .. | .ftanh .. => true
  | i => hasIdx i.rx || i.cls == some .ten || i.cls == some .brg

/-- A control transfer (R19). -/
def Instr.isTransfer : Instr → Bool
  | .bra .. | .brz .. | .brnz .. | .brq .. | .jmpi .. | .call .. | .calli .. | .ret | .exit => true
  | _ => false

/-- A prefix (R35, R36). -/
def Instr.isPrefix : Instr → Bool
  | .rep .. | .ord .. => true
  | _ => false

/-- The flag number that a long-latency instruction is assigned under a header (R24); 15 means none. -/
def Header.flagOf (h : Header) (i : Instr) : Fin 16 := if i.fsBit then h.setb else h.seta

/-- The word at index `idx` (1 is the first) breaks a rule of R19, `len` words long in a clause of `count` words. -/
def clauseFaultAt (h : Header) (idx w : Nat) (rest : List Nat) : Bool :=
  let len := wordLen h.cls idx w (rest.headD 0)
  let last := idx + len == h.count.val + 1
  if h.count.val + 1 < idx + len then true
  else match decodeAt h.cls idx w rest with
    | none => false
    | some (i, _) => (i.isTransfer && !last) || (i.isPrefix && last) || (i.longLatency && (h.flagOf i).val == 15)

/-- The index of the first word of a clause that raises CLAUSE (R19, R41, R42), walking `fuel` words at most. -/
def clauseFault (h : Header) : Nat → Nat → List Nat → Option Nat
  | 0, _, _ => none
  | _, _, [] => none
  | fuel + 1, idx, w :: rest =>
    if clauseFaultAt h idx w rest then some idx
    else
      let len := wordLen h.cls idx w (rest.headD 0)
      clauseFault h fuel (idx + len) (rest.drop (len - 1))

end Sys2Proof
end

