-- ==== Sys2Proof/Config.lean ====
section
/-! DEFINITION. What an implementation fixes, and the free values: constants without a body that stand for what the
manual leaves open. -/
namespace Sys2Proof.Config

/-- The byte that memory which nothing has written since the last cold reset holds (R422), by the number of cold resets
and the address. Log entry 4. -/
opaque arbitraryByte : Nat → Nat → BitVec 8

/-- A byte that the host or a peer package answers to a read (R240, R408), by the free-value counter and the address.
Log entry 7. -/
opaque outsideByte : Nat → Nat → BitVec 8

/-- The byte that a line written under one key reads as under another (R417), by the two keys and the address.
Log entry 19. -/
opaque wrongKeyByte : Nat → Nat → Nat → BitVec 8

/-- Whether the ECDSA check of a staged image passes (R421), by its bytes. Log entry 19. -/
opaque signatureOk : List (BitVec 8) → Bool

/-- The block of sensor readings (R424), by the free-value counter. Log entry 20. -/
opaque sensorBlock : Nat → List (BitVec 8)

/-- Whether a boot reaches the ready state (R421), by the free-value counter. Log entry 20. -/
opaque bootReady : Nat → Bool

/-- The code of an event record (R420), by the kind of event. Log entry 24. -/
opaque eventCode : Nat → BitVec 16

/-- What a checkpoint's copy holds at its destination (R423), by the free-value counter. Log entry 72. -/
opaque checkpointCopy : Nat → List (BitVec 8)

end Sys2Proof.Config
end

