-- ==== Sys2Proof/Machine/State.lean ====
section
/-! DEFINITION. The machine's state as plain data: crews with their registers, frontiers and chunks, cores, landings,
engines, memory, the scheduler and the outside interfaces; the reasons a step can stop; and the state after reset. -/
namespace Sys2Proof.Machine

/-- Why a step stops. -/
inductive Fault where
  /-- Raised by no meaning: every fault of the manual is delivered to a crew as a next state (R385, R387), and R4 says
  that the device never acts in an unspecified way. Safe. -/
  | none
  deriving DecidableEq, Repr

/-- Why an instruction has no meaning here. -/
inductive Refusal where
  /-- Raised by the dispatcher for an instruction that the model does not give a meaning to. Safe. -/
  | notModelled (mnemonic : String)
  deriving DecidableEq, Repr

/-- A set of lanes of a crew, or of its threads. -/
abbrev Lanes := BitVec 32

/-- A generic 57-bit address (R166). -/
abbrev Addr := BitVec 57

/-- One thread's v register: value and format tag (R49, R52). -/
structure VReg where
  val : Dword
  tag : Fin 16
  deriving DecidableEq, Repr

/-- The scale side field of a v register (R64): BASEREG and the eight DELTAs. -/
structure Side where
  base : Fin 64
  delta : BitVec 32
  deriving DecidableEq, Repr

/-- A register file that pending markers name (R25), with the code of FLTADDR for HAZARD (R384). -/
inductive RegFile where
  | v | s | q
  deriving DecidableEq, Repr

/-- A pending marker of one thread (R25): the register, the thread and the recorded flag. -/
structure Mark where
  file : RegFile
  num : Fin 64
  lane : Fin 32
  flag : Fin 12
  deriving DecidableEq, Repr

/-- A register write that a long-latency instruction makes when it completes: of the masked bits of a v register, of
an s register, of the masked bits of a q register. -/
inductive RegWrite where
  | v (d : Fin 64) (lane : Fin 32) (mask val : Dword) (tag : Fin 16)
  | s (d : Fin 64) (val : Dword)
  | q (d : Fin 8) (lane : Fin 32) (mask val : Byte)
  deriving DecidableEq, Repr

/-- What an uncompleted long-latency instruction waits for: nothing but its latency, its turn at the special-function
unit, its execution in step 6 of its chunk (R241), or an engine. `sfu` tells whether the unit has accepted it. -/
inductive LongKind where
  | plain
  | sfu (accepted : Bool)
  | held (tag : Nat)
  | engine (tag : Nat)
  deriving DecidableEq, Repr

/-- A long-latency instruction that has issued and not completed (R23). `old` tells that it issued before the chunk
in progress began, so that a rollback does not withdraw it (R26); `lost` the s registers that later issues have written, which it
leaves as they are (R63). -/
structure Inflight where
  flag : Fin 12
  kind : LongKind
  writes : List RegWrite
  fp : BitVec 6
  old : Bool
  lost : List (Fin 64)
  deriving DecidableEq, Repr

/-- A frontier entry (R76). `redir`: it waits for a redirect to complete (R77, R97). -/
structure Entry where
  pc : Addr
  threads : Lanes
  stamp : Nat
  redir : Bool
  deriving DecidableEq, Repr

/-- A pedigree level (R256). -/
structure Level where
  rank : BitVec 16
  mark : BitVec 16
  deriving DecidableEq, Repr

/-- PIVST (R70). -/
structure Pivst where
  nan : Bool
  sub : BitVec 8
  lane : BitVec 32
  deriving DecidableEq, Repr

/-- The fault record and the writable bits of PRIVST (R383); `repc` is REPC as it stood at a faulting repeat, which no
register names (R35, log entry 15). -/
structure FltRegs where
  code : BitVec 8
  eng : Bool
  post : Bool
  pcWord : BitVec 4
  pcClause : Addr
  addr : Dword
  lanes : Lanes
  chkpc : Addr
  sup : Bool
  retire : Bool
  cancel : Bool
  repc : BitVec 6
  deriving DecidableEq, Repr

/-- A touched reducer view (R295), by the layout of its kind; MINP and MAXP share one. An untouched view is absent. -/
inductive ViewVal where
  | esum32 (v : BitVec 320) (nan pinf ninf : Bool)
  | esum64 (v : BitVec 2176) (nan pinf ninf : Bool)
  | isum (v : BitVec 128)
  | pick (value index : BitVec 32) (onlyNan : Bool)
  | app (head tail bytes : Dword) (count : BitVec 32)
  | usr (image : BitVec 512)
  deriving DecidableEq, Repr

/-- The touched views of a strand, by reducer. -/
abbrev Views := List (Fin 16 × ViewVal)

/-- A barrier object of core scope or wider (R318): scope code, physical instance, number. -/
structure ObjId where
  scope : Fin 8
  inst : Nat
  num : Nat
  deriving DecidableEq, Repr

/-- Threads that wait for a phase of a barrier object to pass (R328); `none` is the crew object. -/
structure BarWait where
  obj : Option ObjId
  phase : BitVec 16
  lanes : Lanes
  deriving DecidableEq, Repr

/-- What a rollback restores (R71, R75, R85, R255, R391): the registers of a crew, its control and frontier state,
and its crew-held system registers. -/
structure Regs where
  v : Vector (Vector VReg 32) 64
  side : Vector Side 64
  s : Vector Dword 64
  q : Vector (Vector Byte 32) 8
  marks : List Mark
  inflight : List Inflight
  frontier : List Entry
  csp : Vector (BitVec 32) 32
  cdepth : Vector (BitVec 16) 32
  blocked : Lanes
  tmask : Lanes
  emask : Lanes
  barPhase : BitVec 16
  barArrived : Lanes
  waits : List BarWait
  views : Views
  repc : BitVec 6
  srctr : Dword
  fpflags : BitVec 6
  pivst : Pivst
  rndmode : Fin 8
  gang : BitVec 4
  safecnt : Nat
  pedigree : List Level
  arenaBase : Addr
  arenaLim : Addr
  logBase : Dword
  logSeq : BitVec 32
  redtab : Dword
  spmBase : BitVec 12
  spmSize : BitVec 13
  keyslot : BitVec 12
  flt : FltRegs
  deriving DecidableEq, Repr

/-- A REP in progress (R35): repeats issued, repeats still to issue, and the STEP bits (D, A, B, C from bit 3 down). -/
structure Rep where
  done : Nat
  left : Nat
  step : BitVec 4
  deriving DecidableEq, Repr

/-- The clause being issued (R22, R81): its header address, header and words; the index of the next word (1 is the
first); the issuing lanes; an ORD prefix that governs the next word (R36); a REP in progress; whether its control
transfer has moved the frontier (R79); and whether the word last reached waits for a flag to clear or for a merge routine
to end, so that it is reached again (R92, R93, R301). -/
structure Clause where
  addr : Addr
  header : Header
  words : List (BitVec 32)
  idx : Nat
  lanes : Lanes
  order : Option (Fin 8 × Fin 8)
  rep : Option Rep
  moved : Bool
  held : Bool
  deriving DecidableEq, Repr

/-- The replay record of a chunk (R206, R211, R233): conflict rollbacks in a row, soft-error replays on this core, that
it is a replay, that it holds every landing exclusively, that it was ferried. -/
structure Replay where
  conf : Nat
  soft : Nat
  replay : Bool
  excl : Bool
  ferried : Bool
  deriving DecidableEq, Repr

/-- A word's origin, kept with a step-6 action for the faults it may raise: clause header, word index, issuing lanes. -/
structure Origin where
  pc : Addr
  word : BitVec 4
  lanes : Lanes
  deriving DecidableEq, Repr

/-- A fault waiting for delivery after a commit (R386), with POST and ENG. -/
structure PostFault where
  code : BitVec 8
  addr : Dword
  org : Origin
  lanes : Lanes
  eng : Bool
  deriving DecidableEq, Repr

/-- The trap state (R382), with the fault that the device delivered at entry (R387) and the replay record of the chunk that CHKPC
begins (R206, R233); the faults that wait for the return (R386). -/
structure TrapState where
  frontier : List Entry
  csp : Vector (BitVec 32) 32
  cdepth : Vector (BitVec 16) 32
  blocked : Lanes
  safecnt : Nat
  saved : Vector Dword 4
  chkpc : Addr
  cause : BitVec 10
  addr : Dword
  replay : Replay
  posts : List PostFault
  deriving DecidableEq, Repr

/-- Where an access goes (R166, R215): a CHUNKED, STREAM or SYSTEM page, the package scratchpad, a private slice, or a
core scratchpad. -/
inductive Region where
  | chunked | stream | system | pkg | priv | spad
  deriving DecidableEq, Repr

/-- A checked and translated access: its region, the memory key of its first byte, the virtual address, whether the
page is race-tracked, its key slot. -/
structure Loc where
  region : Region
  key : Nat
  va : Dword
  rt : Bool
  slot : BitVec 12
  deriving DecidableEq, Repr

/-- A reduction record (R243): byte offset in the line, operand. -/
structure RedRec where
  off : Nat
  operand : Dword
  deriving DecidableEq, Repr

/-- What a chunk-buffer line holds (R195, R243): masked bytes, or reduction records of one code and width in bits. -/
inductive BufData where
  | bytes (l : List (Nat × Byte))
  | reds (op : Fin 16) (w : Nat) (l : List RedRec)
  deriving DecidableEq, Repr

/-- A chunk-buffer line: the region, the line number of its memory key, the virtual address of the line, the hint of
its last store (R190), the key slot of its page, of a STREAM line the number of release writes of the chunk up to it and
whether a sequentially consistent one is in it (R222, R224), its contents. -/
structure BufLine where
  region : Region
  line : Nat
  va : Dword
  hint : Fin 8
  slot : BitVec 12
  gen : Nat
  sc : Bool
  data : BufData
  deriving DecidableEq, Repr

/-- An undo-log entry of a scratchpad granule (R209): its memory key and its 32 bytes before the write. -/
structure SpadLog where
  key : Nat
  old : List Byte
  deriving DecidableEq, Repr

/-- A race-tracked access of a chunk (R309 to R312), kept until the chunk commits: the granule's virtual and physical
address, whether it writes, the word that made it and its lanes. -/
structure Tracked where
  va : Dword
  pa : Nat
  write : Bool
  pc : Addr
  word : BitVec 4
  lanes : Lanes
  deriving DecidableEq, Repr

/-- One lane's part of a returning atomic (R238): lane, location, operand or new value, expected value for ATOMC. -/
structure AtomReq where
  lane : Fin 32
  loc : Loc
  operand : Dword
  expect : Option Dword
  deriving DecidableEq, Repr

/-- A BRG command with the operands it read at issue (R336, R341, R347). -/
inductive BrgOp where
  | cpy (dst src : Dword) (tag : Fin 64) (flags : Dword)
  | cpyf (dst fill : Dword) (tag : Fin 64) (flags : Dword)
  | waitAny (d : Fin 64) (mask : Dword)
  | waitAll (d : Fin 64) (mask : Dword)
  | tagFf (d : Fin 64) (mask : Dword)
  | tagClr (mask : Dword)
  deriving DecidableEq, Repr

/-- A TEN command with the operands it read at issue (R355, R359); `members` is GANG.MEMBERS. -/
inductive TenOp where
  | zero (x : Fin 8) (n : Nat)
  | ld (x : Fin 8) (rec : Dword)
  | st (x : Fin 8) (rec : Dword) (sat : Bool)
  | mma (x : Fin 8) (a b : Dword) (fresh rows : Bool) (members : BitVec 4)
  | gang (members : BitVec 4)
  | sweep (d a : Dword) (b : Option Dword) (word : Dword)
  | red (x y : Fin 8) (op : Fin 4) (span : Dword)
  | fact (x : Fin 8) (span tau delta status : Dword)
  | trs (x y : Fin 8) (span : Dword)
  | mov (x y : Fin 8) (span : Dword) (transpose : Bool)
  | scl (x : Fin 8) (factor span : Dword) (col scalar : Bool)
  deriving DecidableEq, Repr

/-- Where an engine command stands: not yet performed, at element `i`, suspended there by a fault, or to go on from there when
the tensor engine takes it again (R346, R358). -/
inductive CmdState where
  | queued
  | latched
  | running (i : Nat)
  | suspended (i : Nat)
  | resumed (i : Nat)
  | done
  deriving DecidableEq, Repr

/-- A dimension of an iterator record (R338). -/
structure Dim where
  ext : Nat
  str : Int
  deriving DecidableEq, Repr

/-- An iterator record's fields (R338). -/
structure Iter where
  base : Nat
  ndim : Nat
  esz : Nat
  tag : Nat
  dims : List Dim
  start : Nat
  deriving DecidableEq, Repr

/-- A shape record as read at entry (R361). -/
structure Shape where
  base : Dword
  rows : Nat
  cols : Nat
  stride : Nat
  tag : Fin 16
  major : Bool
  basereg : Nat
  scales : Dword
  deriving DecidableEq, Repr

/-- The strand under which an engine command or a step-6 action acts: launch, pedigree, page-table root, key slot. -/
structure Actor where
  crew : Nat
  launch : Nat
  pedigree : List Level
  deriving DecidableEq, Repr

/-- A command in the barge (R336): its number, issuer and origin, its operation, its state, the records it holds; of a tag
wait, the bitmap that has satisfied it (R349). -/
structure BrgCmd where
  id : Nat
  actor : Actor
  org : Origin
  op : BrgOp
  st : CmdState
  recs : Option (Iter × Option Iter)
  seen : Option Dword
  deriving DecidableEq, Repr

/-- A command in the tensor engine (R355): the same, with the effective rounding code and the counter and key that
code 6 reads at issue (R357); `raw` the records read at entry, with their addresses, and `sregs` the s registers as they stood
there, of which a record may name BASEREG (R355, R361); `fp` the flag bits it has collected (R356); `paired` that the raft latch has paired it (R369). -/
structure TenCmd where
  id : Nat
  actor : Actor
  org : Origin
  op : TenOp
  st : CmdState
  code : Nat
  ctr : Dword
  key : Dword
  raw : List (Dword × List Byte)
  sregs : List Dword
  fp : BitVec 6
  paired : Bool
  deriving DecidableEq, Repr

/-- What a spawning word asks for, copied at issue (R254 to R257, R276, R281): `live` the live mask that its SAFEPT names, with
the address of its record (R263). -/
structure SpawnReq where
  entry : Addr
  args : List Dword
  threads : Lanes
  pedigree : List Level
  rndmode : Fin 8
  arenaBase : Addr
  arenaLim : Addr
  atomic : Bool
  range : Option (Nat × Nat × Nat × Bool)
  live : Option (BitVec 128)
  liveAt : Addr
  deriving DecidableEq, Repr

/-- A returning atomic's operation on the lanes that issued it (R238, R242); whether it is an acquire, which later accesses wait
for (R248). -/
structure AtomJob where
  id : Nat
  op : Fin 16
  w : Nat
  tag : Fin 16
  dst : Fin 64
  uniform : Bool
  acq : Bool
  hint : Fin 8
  todo : List AtomReq
  done : List RegWrite
  deriving DecidableEq, Repr

/-- What a value that a load reads makes of a register write: value number `src` without its low `drop` bits; replicated
into every position of a tag, sign-extended from a width, or moved up by `up` bits (R181). -/
structure LoadDest where
  src : Nat
  drop : Nat
  rep : Option (Fin 16)
  sext : Option Nat
  up : Nat
  write : RegWrite
  deriving DecidableEq, Repr

/-- A read of a held load: where, of how many bytes, and those of them that it leaves out (R181). -/
structure HeldRead where
  loc : Loc
  size : Nat
  idle : BitVec 16
  deriving DecidableEq, Repr

/-- A load that ORD holds until an atomic of its clause has been performed (R222, R248): its number, hint, whether it is an
acquire, the number of STREAM generations of the chunk before it, its reads, the register writes. -/
structure LoadJob where
  id : Nat
  hint : Fin 8
  acq : Bool
  gen : Nat
  reads : List HeldRead
  dests : List LoadDest
  deriving DecidableEq, Repr

/-- The step-6 actions (R203). `late` and `lateSpad` are writes that ORD keeps behind an access of step 6 (R222, R248). -/
inductive ActKind where
  | streamLine (line gen : Nat)
  | late (b : BufLine)
  | lateSpad (cells : List (Nat × Byte))
  | load (job : LoadJob)
  | sysStore (loc : Loc) (data : List (Nat × Byte))
  | sysRed (loc : Loc) (op : Fin 16) (w : Nat) (operand : Dword)
  | spadRed (key : Nat) (op : Fin 16) (w : Nat) (operand : Dword)
  | atom (job : AtomJob)
  | cpin (slot : Fin 4) (base size : Dword) (ways : Nat)
  | cunpin (slot : Fin 4)
  | cinvCode (addr : Dword)
  | cinvPage (addr : Dword)
  | cinvSpace
  | brg (id : Nat) (op : BrgOp)
  | ten (id : Nat) (op : TenOp) (code : Nat) (ctr key : Dword)
  | sysreg (num : Nat) (val : Dword)
  | spawn (req : SpawnReq) (die : Option Nat)
  | gang (req : SpawnReq) (m : Nat) (raft : Bool) (obj : Fin 8)
  | sync
  | fence (scope : Nat) (d : Fin 64)
  | bar (obj : ObjId) (lanes : Lanes)
  | bara (obj : ObjId) (lanes : Lanes) (d : Fin 64)
  | barw (obj : ObjId) (lanes : Lanes) (token : BitVec 16)
  | bari (obj : ObjId) (count : Dword) (num : Nat) (sent : Bool)
  | barb (obj : ObjId) (bytes : Dword)
  | exitLanes (lanes : Lanes)
  | plog (seq : BitVec 32) (pedigree : List Level) (payload : List Dword)
  | viewApp (desc data len : Dword) (tail : Option Dword)
  | trap (code : Nat)
  | rft
  deriving DecidableEq, Repr

/-- A step-6 action with the word that gave rise to it. -/
structure Act where
  org : Origin
  kind : ActKind
  deriving DecidableEq, Repr

/-- What a release asks for (R222): that the first `acts` actions are performed and their writes visible at `scope` before
the access that follows them; `home`: that access commits at the commit point. -/
structure RelMark where
  acts : Nat
  scope : Nat
  home : Bool
  deriving DecidableEq, Repr

/-- The chunk in progress (R193 to R209). `clauses` counts the clauses issued, `issued` the instructions (R197); `len`
and `retry` are the limits in force (R69); `buf` the chunk buffer in issue order; `rsig`, `wsig` the signatures;
`rmask` the read landing mask; `logV`, `logS`, `logUnits` the undo log; `acts` the step-6 actions; `tracked` the
accesses the race filter records at the commit point; `used` the pages whose translations the chunk used, with their sizes
in bits (R186); `rels` the releases still to be met, and `gen` how many release writes it holds (R222); `ends` that a boundary
follows the clause (R194); `holdAll`, `holdSc` that ORD holds every later load, or every later sequentially consistent one
(R222, R224, R248); `soft` that its state holds an uncorrectable error (R211); `stop` the entry at which pre-emption has ended
it (R86); `next` the replay record with which the crew's next chunk begins (R206, R233, R388); `seq` the place of its commit point in
the global commit order (R67). -/
structure Chunk where
  first : Addr
  clauses : Nat
  issued : Nat
  len : BitVec 13
  retry : BitVec 3
  buf : List BufLine
  rsig : BitVec 1024
  wsig : BitVec 1024
  rmask : BitVec 200
  logV : List (Fin 64)
  logS : List SpadLog
  logUnits : Nat
  acts : List Act
  tracked : List Tracked
  used : List (Nat × Nat)
  rels : List RelMark
  gen : Nat
  ends : Bool
  holdAll : Bool
  holdSc : Bool
  soft : Bool
  stop : Option Addr
  next : Replay
  seq : Nat
  deriving DecidableEq, Repr

/-- Where a crew is (R10, R259 to R266, R397): in a slot of a physical core, in a frame of that core's spill region, or
waiting for a slot, a window or slices there; or in a physical die's hint queue. -/
inductive Place where
  | slot (core slot : Nat)
  | frame (core : Nat)
  | waiting (core : Nat)
  | hinted (die : Nat)
  deriving DecidableEq, Repr

/-- What a crew is doing: created and not started; issuing; its chunk has ended and waits to commit, asking the landings
still listed (R202); past its commit point (R203); in step 6; parked in a deque (R259); suspended at SYNC (R264); at
its task end (R265); stopped for pre-emption (R86); stopped by a double fault (R387). -/
inductive Phase where
  | unstarted
  | run
  | asking (todo : List Nat)
  | granted
  | acting
  | parked
  | suspended
  | ending
  | stopped
  | halted
  deriving DecidableEq, Repr

/-- A child of the sync block (R264): its crew, whether it has ended, its final flags. -/
structure Kid where
  crew : Nat
  ended : Bool
  fp : BitVec 6
  deriving DecidableEq, Repr

/-- An entry of a sync block's list of views, in English order (R296): a strand's own views, a child that runs, or the
views of one that has ended. -/
inductive BlockItem where
  | own (v : Views)
  | kid (crew : Nat)
  | joined (v : Views)
  deriving DecidableEq, Repr

/-- What kind of task a crew runs (R254, R268, R269, R271, R301, R402). -/
inductive TaskKind where
  | root | child | member | resident | routine
  deriving DecidableEq, Repr

/-- A range frame's range still to run (R269): lo, hi, grain, arena split; of a piece of a RANGE launch, the number of its first
leaf (R270). -/
structure RangeRec where
  lo : Nat
  hi : Nat
  grain : Nat
  split : Bool
  leaf : Option Nat
  deriving DecidableEq, Repr

/-- An enrollment in a barrier object with the crew's arrival mask (R320). -/
structure Enroll where
  obj : ObjId
  mask : Lanes
  deriving DecidableEq, Repr

/-- What a task is in its launch (R254 to R271): launch, kind, parent, entry, whether it must be one chunk (R282), its
range, the children and views of its sync block, its gang object until it starts, members not yet ended, that it is parked as a gang's
parent (R267, R271), the live mask
of its spawn with the address of its record (R263), its private group (R268), the strand and moment numbers that order it. -/
structure Task where
  launch : Nat
  kind : TaskKind
  parent : Option Nat
  entry : Addr
  args : List Dword
  atomic : Bool
  range : Option RangeRec
  kids : List Kid
  block : List BlockItem
  gangObj : Option ObjId
  gangLeft : Nat
  gang : Bool
  live : Option (BitVec 128)
  liveAt : Addr
  group : Option Nat
  since : Nat
  merge : Option (Nat × Fin 16)
  waited : Bool
  deriving DecidableEq, Repr

/-- A crew (R9, R10, R49): its registers with their shadow (R209), its chunk, the clause it issues, its trap state, and
where it stands. `dirty` are the 4 KiB granules of its window that a store has written (R399); `tenFp` the flags of
completed TEN commands (R356); `post` the faults to deliver before its next clause (R386), the first one first; `tiles` the tiles in use
(R67). -/
structure Crew where
  uid : Nat
  r : Regs
  shadow : Regs
  chunk : Chunk
  cur : Option Clause
  trap : Option TrapState
  replay : Replay
  phase : Phase
  place : Place
  task : Task
  enroll : List Enroll
  dirty : List Nat
  window : Option (Nat × Nat)
  saved : List (Nat × List Byte)
  tenFp : BitVec 6
  tiles : BitVec 8
  post : List PostFault
  deriving DecidableEq, Repr

/-- A barrier object (R319). -/
structure Barrier where
  owner : BitVec 32
  v : Bool
  enrolled : Nat
  phase : BitVec 16
  arrived : Nat
  expect : BitVec 20
  pendb : Dword
  deriving DecidableEq, Repr

/-- A translation held by a TLB (R177): hardware queue slot, virtual page number, page size in bits, its leaf entry and
the entry's physical address. -/
structure TlbEntry where
  slot : Nat
  page : Nat
  shift : Nat
  leaf : Dword
  pte : Nat
  deriving DecidableEq, Repr

/-- A non-leaf table entry in the walk cache of a die (R177): hardware queue slot, the number of the region that it maps,
that region's size in bits, the table that it names. -/
structure WalkEntry where
  slot : Nat
  page : Nat
  shift : Nat
  table : Nat
  deriving DecidableEq, Repr

/-- A line of an instruction cache (R21): physical address of the line and the words it holds. -/
structure CodeLine where
  line : Nat
  data : List Byte
  deriving DecidableEq, Repr

/-- The state of a line in an L2 slice (R212, R244); a line in L1 is clean. -/
inductive LineState where
  | clean | dirty | part
  deriving DecidableEq, Repr

/-- A tag of a data cache (R190, R212, R447): line, evict-last protection, and in L2 the way it stands in, the retention slot it is
a line of (R189) and its state; the key slot under which it was read or written last (R418). -/
structure CacheTag where
  line : Nat
  key : Nat
  keep : Bool
  way : Nat
  slot : Option (Fin 4)
  st : LineState
  deriving DecidableEq, Repr

/-- Bytes that a copy has written and released, and not yet counted into its barrier object (R331, R345): the command's number, its
launch. -/
structure Owed where
  id : Nat
  launch : Nat
  obj : ObjId
  bytes : Nat
  deriving DecidableEq, Repr

/-- The barge of a core (R336): commands queued, copies started, tag waits, suspended commands; byte counts that wait for the
writes they release. -/
structure Barge where
  queue : List BrgCmd
  jobs : List BrgCmd
  waits : List BrgCmd
  owed : List Owed
  deriving DecidableEq, Repr

/-- A core (R10): registers held per core, barrier objects, CT bitmaps by hardware slot (R337), deque with its spill
region (R261, R267; the oldest first), last victim (R262), the slot whose special-function instruction was accepted
last (R165), engines, TLB, caches, the soft errors that it has corrected (R211), the views in its view store by crew and
reducer, the most recently used first (R298). -/
structure Core where
  chklen : BitVec 13
  chkretry : BitVec 3
  trapvec : Addr
  pmc : List Dword
  bars : List Barrier
  ct : List Dword
  deque : List Nat
  spill : List Nat
  victim : Option Nat
  sfu : Nat
  barge : Barge
  ten : List TenCmd
  tlb : List TlbEntry
  code : List CodeLine
  l1 : List CacheTag
  corrected : Nat
  viewStore : List (Nat × Fin 16)
  deriving DecidableEq, Repr

/-- A raft (R9): barrier objects and second-level TLB (R177), the most recent entry first. -/
structure Raft where
  bars : List Barrier
  tlb : List TlbEntry
  deriving DecidableEq, Repr

/-- A compute die: barrier objects, hint queue (R266), failed (R247), the walker's cache (R177), and the lines homed on other dies
of which its L2 holds a read-only copy (R212), with the key slots under which they were read (R418). -/
structure Die where
  bars : List Barrier
  hints : List Nat
  failed : Bool
  walks : List WalkEntry
  copies : List (Nat × Nat)
  deriving DecidableEq, Repr

/-- A grant, or a request that waits, at a landing (R202): holder (a crew, or what else commits a line there), whether it is
exclusive, whether it writes, the lines homed there that it writes and its signatures. -/
structure Grant where
  crew : Nat
  excl : Bool
  write : Bool
  lines : List Nat
  rsig : BitVec 1024
  wsig : BitVec 1024
  deriving DecidableEq, Repr

/-- A landing (R11, R202). -/
structure Landing where
  held : List Grant
  waiting : List Grant
  deriving DecidableEq, Repr

/-- A released STREAM line that is not yet visible everywhere (R217): its number, its crew and that crew's core, the other
cores at which it is visible. -/
structure StreamOut where
  id : Nat
  crew : Nat
  core : Nat
  seen : List Nat
  line : BufLine
  deriving DecidableEq, Repr

/-- A Part copy of a line (R244): the die that holds it, the line, code, width, the key slot of its page, and the touched
elements. -/
structure Partial where
  die : Nat
  line : Nat
  op : Fin 16
  w : Nat
  slot : BitVec 12
  elems : List (Nat × Dword)
  deriving DecidableEq, Repr

/-- The key slot under which a line was last written, and the key that the slot held (R417). -/
structure Keyed where
  line : Nat
  slot : Nat
  key : Nat
  deriving DecidableEq, Repr

/-- A strand of a launch's race filter (R310): its number, pedigree and the offset of its entry. -/
structure Strand where
  num : Nat
  pedigree : List Level
  off : Nat
  deriving DecidableEq, Repr

/-- A line record of the race filter (R311) with its offset in the region. -/
structure LineRec where
  off : Nat
  line : Nat
  writer : Nat
  rdl : Nat
  rdh : Nat
  wmask : BitVec 32
  rmask : BitVec 32
  deriving DecidableEq, Repr

/-- An entry of a reducer table (R292). -/
structure RedEntry where
  kind : Nat
  result : Dword
  routine : Dword
  deriving DecidableEq, Repr

/-- A launch packet (R402). -/
structure Packet where
  entry : Dword
  args : Dword
  mode : Nat
  dieset : BitVec 8
  pri : Nat
  flags : Nat
  crews : Nat
  lo : Nat
  hi : Nat
  grain : Nat
  spmreq : Nat
  privreq : Nat
  redtab : Dword
  arenaBase : Dword
  arenaSize : Dword
  keyslot : BitVec 12
  compl : Dword
  deriving DecidableEq, Repr

/-- A queue descriptor (R411). -/
structure Desc where
  qbase : Dword
  qsize : Nat
  state : Nat
  rootpt : Nat
  rfbase : Dword
  rfsize : Nat
  savebase : Nat
  savesize : Nat
  spillbase : Dword
  spillsize : Nat
  privbase : Dword
  privsize : Nat
  deriving DecidableEq, Repr

/-- What a frame of a spill region holds (R260, R298): a crew, a view of its strand, or the views of its sync block. -/
inductive FrameUse where
  | crew
  | view (i : Fin 16)
  | block
  deriving DecidableEq, Repr

/-- A frame in a launch's spill region (R260, R298, R411): the crew it belongs to, what it holds, its offset from SPILLBASE
and its size. -/
structure Frame where
  crew : Nat
  use : FrameUse
  off : Nat
  size : Nat
  deriving DecidableEq, Repr

/-- A launch: its number and uid, queue, hardware slot while mapped, packet, descriptor; its roots, its reducer table
(R292), the pieces dealt to each core (R270), the private groups in use (R268), its race filter (R310, R311), the time
of a pre-emption request (R397), whether it is saved, the status and fault with which it ends (R403), its retired
resident views by g (R300), its root's final flags (R265), the frames in its spill region (R260, R298), the pod objects that a
pre-emption asks package 0 for, with the answers (R318, R332). `holding`: its crews wait for the reducer check (R293) or for slots
(R402). -/
structure Launch where
  uid : Nat
  number : Nat
  queue : Nat
  slot : Option Nat
  packet : Packet
  desc : Desc
  holding : Bool
  reducers : Option (List RedEntry)
  deal : List (Nat × Nat)
  groups : List Nat
  strands : List Strand
  recs : List LineRec
  rfNext : Nat
  stopAt : Option Nat
  saved : Bool
  ended : Option (Nat × Dword × Dword)
  finals : List (Nat × Views)
  fpflags : BitVec 6
  frames : List Frame
  pods : List (Fin 2 × Option (List Dword))
  deriving DecidableEq, Repr

/-- A software queue (R404, R405, R412, R413): its number, tail, head, when it last became ready and unmapped, the
hardware slot it is mapped to or waits for, disabled, kept from being ready by a checkpoint copy, the descriptor as read
when it was last mapped and whether that is refused (R411), and what the mailbox has asked of it: PREEMPT, or CHECKPOINT
to a destination (R419). -/
structure Queue where
  num : Nat
  tail : Nat
  head : Nat
  since : Option Nat
  slot : Option Nat
  disabled : Bool
  copying : Bool
  desc : Desc
  refused : Bool
  asked : Bool
  ckpt : Option CkptPlace
  deriving DecidableEq, Repr

/-- A hardware queue slot (R404): the queue that holds it, and the newly mapped queue that it will pass to (R405). -/
structure QSlot where
  queue : Option Nat
  next : Option Nat
  deriving DecidableEq, Repr

/-- A saved context beside its image (R397, R399, R401; log entry 12): its launch, the frames of its crews in the order
of the image's records, its suspended engine commands under logical die and core (of the barge, whether a copy had started), and
whether its resume was refused. -/
structure SavedCtx where
  launch : Nat
  crews : List Crew
  brg : List (Nat × Nat × Bool × BrgCmd)
  ten : List (Nat × Nat × TenCmd)
  refused : Bool
  deriving DecidableEq, Repr

/-- A checkpoint (R423): where it was copied, its queue, the launch with its context, the frames' physical ranges with
the bytes listed there and the keys of their lines, and the keys of the slots that they name. -/
structure Checkpoint where
  place : CkptPlace
  queue : Nat
  launch : Launch
  ctx : SavedCtx
  frames : List (Nat × Nat)
  cells : List Host.Cell
  keyed : List Keyed
  keys : List (Nat × Nat)
  deriving DecidableEq, Repr

/-- The scheduler on the hub (R404, R405, R410): the descriptor table, queues, slots, launches, saved contexts,
checkpoints, the time of the next tick. -/
structure Sched where
  qtbase : Dword
  qtcount : Nat
  queues : List Queue
  slots : List QSlot
  launches : List Launch
  saved : List SavedCtx
  ckpts : List Checkpoint
  tick : Nat
  deriving DecidableEq, Repr

/-- An event record (R420): clock cycles, source, code, queue, datum; its sequence number is its place. -/
structure Event where
  seq : Nat
  cycles : Nat
  source : Nat
  code : Nat
  queue : Nat
  datum : Dword
  deriving DecidableEq, Repr

/-- An inbound window (R416): its two dwords. -/
structure Window where
  lo : Dword
  hi : Dword
  deriving DecidableEq, Repr

/-- The registers held per package (R68, R70, R188, R231, R394, R398, R404); `retplace` the ways that each retention slot holds in
every set (R189). -/
structure PkgRegs where
  pkg : BitVec 10
  harv : List (BitVec 36)
  diemap : List (Fin 8)
  lct : List Dword
  retbase : List Dword
  retsize : List Dword
  retways : List Dword
  retplace : List (BitVec 16)
  l2ways : BitVec 5
  qage : BitVec 16
  qrot : BitVec 16
  linkTmo : BitVec 32
  stopTmo : BitVec 32
  deriving DecidableEq, Repr


/-- The management processor and the package's links (R410, R414 to R424): loaded key slots and their wrapped keys, BAR2
registers and size, inbound windows, mailbox command block and MBXCTL, event ring, validity of the firmware images and the active
one, links that are not Up, the key slots that are being destroyed while accesses under them complete (R418), the peers whose links have gone down in the order of their last failures (R230), clock, power cap, power of the compute dies, the package scratchpad's size in units of 32 MiB and
what the boot firmware makes of it at the next cold reset (R8), L2 tags by slice, the lines of the package cache with the most
recent first, with the key slots under which they were read or written (R8, R12, R418). -/
structure Hub where
  regs : PkgRegs
  bars : List Barrier
  pods : List Barrier
  keys : List Nat
  wraps : List (Nat × BitVec 512)
  bar2base : Dword
  bar2key : BitVec 12
  bar2size : Fin 10
  windows : List Window
  mailbox : List (Nat × Dword)
  mbx : Dword
  events : List Event
  nextEvent : Nat
  fwA : Bool
  fwB : Bool
  activeB : Bool
  staged : Bool
  links : List (Nat × LinkState)
  dying : List Nat
  failed : List Nat
  clock : Nat
  capMw : Nat
  powered : Bool
  spadUnits : Fin 9
  nextUnits : Fin 9
  l2 : List (Nat × List CacheTag)
  cache : List (Nat × Nat)
  deriving DecidableEq, Repr

/-- What leaves the package (log entry 7), in order: writes and atomics posted to the host or a peer, replies to the
host, the completions that turn an access away (Completer Abort of R414 and an error response of R416, Unsupported Request of
R412), pod barrier messages to a package, or to every one whose link is Up. -/
inductive Output where
  | hostWrite (addr : Nat) (data : List Byte)
  | peerWrite (package addr : Nat) (data : List Byte)
  | hostAtomic (addr : Nat) (op w : Nat) (operand : Dword) (compare : Option Dword)
  | peerAtomic (package addr : Nat) (op w : Nat) (operand : Dword) (compare : Option Dword)
  | reply (data : List Byte)
  | abort (addr : Nat)
  | unsupported (addr : Nat)
  | pod (peer : Option Nat) (msg : PodMessage)
  deriving DecidableEq, Repr

/-- A write or atomic that its target has not acknowledged (R230, R415): crew, target package (`none` the host), address,
what a retraining link still holds of it, whether the link went down before the acknowledgement, and whether it is an atomic. Of
crew 0: what nothing waits for, held by a retraining link. -/
structure Posted where
  crew : Nat
  peer : Option Nat
  addr : Nat
  held : Option Output
  lost : Bool
  atomic : Bool
  deriving DecidableEq, Repr

/-- A request from outside that waits (R202, R412, R414): its number, BAR2BASE and BAR2KEY as they stood when it arrived, and what is
left of it. -/
structure Inbound where
  id : Nat
  base : Dword
  key : BitVec 12
  req : Instr
  deriving DecidableEq, Repr

/-- A FENCE that waits (R230): since when, the retraining links that it has met with the time since which each retrains for
it, and the peers that have failed, the first one first. -/
structure FenceWait where
  crew : Nat
  since : Nat
  links : List (Nat × Nat)
  failed : List Nat
  deriving DecidableEq, Repr

/-- A move of the agenda (log entry 1): a step of the opcode table; the issue of the next word of a crew's clause; or
what the physical world does, which the manual names and the table has no row for: a STREAM line becomes visible at its home,
or at one core ahead of the others; a posted access is acknowledged, or answered with an error (R240, R416); a request from
outside that waits tries again; an error arises in a crew's state, in its undo log or shadow, in memory, or is corrected; the boot
firmware settles its next split of the hub's SRAM (R8), or writes a DIEMAP or LCT entry (R394, R444); or the host resizes BAR2
(R410). -/
inductive Move where
  | step (i : Instr)
  | issue (crew : Nat)
  | streamVisible (k : Nat)
  | streamSeen (k core : Nat)
  | acknowledge (k : Nat)
  | postError (k : Nat)
  | inbound (k : Nat)
  | softError (crew : Nat) (log : Bool)
  | corrected (core : Nat)
  | memError (addr : Nat)
  | bootSplit (units : Fin 9)
  | firmwareMap (num : Nat) (val : Dword)
  | resizeBar2 (size : Fin 10)
  deriving DecidableEq, Repr

/-- The package. `focus` is the crew whose instructions the meanings act on, `pool` every other crew; `mem` the bytes of
HBM, package scratchpad, core scratchpads and tiles under one numbering (Memory); `filled` the stretches of the core
scratchpads that hold a known value (R168, R422); `keyed` the key under which a line was last written; `bad` the bytes with an
uncorrectable error; `inbound` the requests from outside that wait (R202, R412, R414); `stall` that a read within the step has to
wait for a grant or for a home, so that the step is not taken (R203, R246; false between steps); `now` the time in µs; `uids` the next number for crews, launches and commands; `free` the free-value counter, `epoch` the number of cold resets;
`agenda` the moves to come, each with the µs that pass before it (log entries 1, 4, 9). -/
structure State where
  focus : Crew
  pool : List Crew
  cores : List Core
  rafts : List Raft
  dies : List Die
  hub : Hub
  sched : Sched
  landings : List Landing
  mem : List Host.Cell
  filled : List (Nat × Nat)
  keyed : List Keyed
  bad : List Nat
  streams : List StreamOut
  partials : List Partial
  posted : List Posted
  fences : List FenceWait
  inbound : List Inbound
  stall : Bool
  outbox : List Output
  now : Nat
  uids : Nat
  free : Nat
  epoch : Nat
  agenda : List (Nat × Move)
  deriving DecidableEq, Repr

/-! The machine after a cold reset (R422, and the reset columns of the register layouts) -/

def VReg.reset : VReg := ⟨0, 0⟩

/-- The trap and fault registers at reset (R383). -/
def FltRegs.reset : FltRegs := ⟨0, false, false, 0, 0, 0, 0, 0, false, false, false, 0⟩

/-- The registers of an empty crew slot, which are also those of a task start before its arguments (R51, R70, R75,
R255). -/
def Regs.reset : Regs where
  v := Vector.replicate 64 (Vector.replicate 32 VReg.reset)
  side := Vector.replicate 64 ⟨0, 0⟩
  s := Vector.replicate 64 0
  q := Vector.replicate 8 (Vector.replicate 32 0)
  marks := []
  inflight := []
  frontier := []
  csp := Vector.replicate 32 0
  cdepth := Vector.replicate 32 0
  blocked := 0
  tmask := 0
  emask := 0
  barPhase := 0
  barArrived := 0
  waits := []
  views := []
  repc := 0
  srctr := 0
  fpflags := 0
  pivst := ⟨false, 0, 0⟩
  rndmode := 1
  gang := 0
  safecnt := 0
  pedigree := [⟨0, 0⟩]
  arenaBase := 0
  arenaLim := 0
  logBase := 0
  logSeq := 0
  redtab := 0
  spmBase := 0
  spmSize := 0
  keyslot := 0
  flt := FltRegs.reset

def Replay.none : Replay := ⟨0, 0, false, false, false⟩

/-- A chunk that has not begun (R193, R198). -/
def Chunk.empty : Chunk :=
  ⟨0, 0, 0, 2048, 3, [], 0, 0, 0, [], [], 0, [], [], [], [], 0, false, false, false, false, Option.none, Replay.none, 0⟩

/-- A task of no launch: launches are numbered from 1, so that launch 0 is none. -/
def Task.none : Task :=
  ⟨0, .child, Option.none, 0, [], false, Option.none, [], [], Option.none, 0, false, Option.none, 0, Option.none, 0, Option.none, false⟩

/-- An empty crew slot. -/
def Crew.empty : Crew :=
  ⟨0, Regs.reset, Regs.reset, Chunk.empty, Option.none, Option.none, Replay.none, .halted, .slot 0 0, Task.none, [], [],
    Option.none, [], 0, 0, []⟩

def Barrier.reset : Barrier := ⟨0, false, 0, 0, 0, 0, 0⟩

/-- A core after reset; the special-function unit's round robin serves slot 0 first (R165, log entry 109). -/
def Core.reset : Core where
  chklen := 2048
  chkretry := 3
  trapvec := 0
  pmc := List.replicate 16 0
  bars := List.replicate 16 Barrier.reset
  ct := List.replicate 64 0
  deque := []
  spill := []
  victim := none
  sfu := 15
  barge := ⟨[], [], [], []⟩
  ten := []
  tlb := []
  code := []
  l1 := []
  corrected := 0
  viewStore := []

/-- The LCT that firmware writes after a reset of a part with these fused cores (R394, R422): entry j of a logical die
is its j-th core that is not fused; the others have V = 0. -/
def lctOfDie (die : Nat) (harv : BitVec 36) : List Dword :=
  let on := (List.range 36).filter fun p => !harv.getLsbD p
  (List.range 36).map fun j => match on[j]? with
    | some p => BitVec.ofNat 64 (2 ^ 15 + die * 2 ^ 8 + p)
    | none => 0

/-- The package's registers at reset (R68, R188, R231, R394, R398, R404). The fuses are those of a part with no core
fused (log entry 6). -/
def PkgRegs.reset : PkgRegs where
  pkg := 0
  harv := List.replicate 8 0
  diemap := [0, 1, 2, 3, 4, 5, 6, 7]
  lct := (List.range 8).flatMap fun d => lctOfDie d 0
  retbase := List.replicate 4 0
  retsize := List.replicate 4 0
  retways := List.replicate 4 0
  retplace := List.replicate 4 0
  l2ways := 0
  qage := 500
  qrot := 200
  linkTmo := 2000
  stopTmo := 20000

def Hub.reset : Hub where
  regs := PkgRegs.reset
  bars := List.replicate 4 Barrier.reset
  pods := List.replicate 2 Barrier.reset
  keys := [0]
  wraps := []
  bar2base := 0
  bar2key := 0
  bar2size := 9
  windows := List.replicate 64 ⟨0, 0⟩
  mailbox := []
  mbx := 0
  events := []
  nextEvent := 0
  fwA := true
  fwB := false
  activeB := false
  staged := false
  links := []
  dying := []
  failed := []
  clock := 940
  capMw := 2000000
  powered := true
  spadUnits := 8
  nextUnits := 8
  l2 := []
  cache := []

def Sched.reset : Sched := ⟨0, 0, [], List.replicate 64 ⟨none, none⟩, [], [], [], 200⟩

/-- The machine right after a cold reset (R422): no crew runs, no memory is written, every table is empty. -/
def State.reset : State where
  focus := Crew.empty
  pool := []
  cores := List.replicate 288 Core.reset
  rafts := List.replicate 72 ⟨List.replicate 8 Barrier.reset, []⟩
  dies := List.replicate 8 ⟨List.replicate 4 Barrier.reset, [], false, [], []⟩
  hub := Hub.reset
  sched := Sched.reset
  landings := List.replicate 200 ⟨[], []⟩
  mem := []
  filled := []
  keyed := []
  bad := []
  streams := []
  partials := []
  posted := []
  fences := []
  inbound := []
  stall := false
  outbox := []
  now := 0
  uids := 1
  free := 0
  epoch := 0
  agenda := []

end Sys2Proof.Machine
end

