-- ==== Sys2Proof/Machine/Memory.lean ====
section
/-! DEFINITION. The one memory: its numbering, reads and writes that keep its canonical form, lines, homes (R200, R408),
signatures (R198), and the reduction arithmetic that REDs and atomics share (R238, R239). -/
namespace Sys2Proof.Machine

/-! Numbering: a physical address below 2^52 is its own key (R408) -/

/-- Byte `o` of the package scratchpad (R171). -/
def keyPkg (o : Nat) : Nat := 2 ^ 52 + o
/-- Byte `o` of the scratchpad of a physical core (R10). -/
def keySpad (core o : Nat) : Nat := 2 ^ 53 + core * 2 ^ 19 + o
/-- Byte `o` of the accumulator memory of a physical core (R353). -/
def keyTile (core o : Nat) : Nat := 2 ^ 54 + core * 2 ^ 18 + o

/-- The bytes of one HBM stack: 48 GiB (R408). -/
def hbmStack : Nat := 0xC00000000
/-- A physical address in HBM (R408). -/
def isHbm (pa : Nat) : Bool := decide (pa < 8 * hbmStack)
/-- A physical address in a peer window: 384 GiB of each of 1,024 packages (R408). -/
def isPeer (pa : Nat) : Bool :=
  decide (2 ^ 50 ≤ pa) && decide (pa < 2 ^ 51) && decide ((pa - 2 ^ 50) % 2 ^ 40 < 8 * hbmStack)
/-- A physical address in host memory (R408). -/
def isHost (pa : Nat) : Bool := decide (2 ^ 51 ≤ pa) && decide (pa < 2 ^ 52)
def peerOf (pa : Nat) : Nat := (pa - 2 ^ 50) / 2 ^ 40
/-- The physical die of an HBM address (R200). -/
def dieOfPa (pa : Nat) : Nat := pa / hbmStack

/-- What an address that memory does not list reads as. Scratchpads, where they have been given to a window (R168), and tiles
read zero (log entries 4 and 5); HBM and the package scratchpad hold no known value until they are written (R422). -/
def unlisted (k : Nat) : Option Byte := if 2 ^ 53 ≤ k then some 0 else none

/-- The byte that memory lists at a key, or what the key reads as without. -/
def readCell : List Host.Cell → Nat → Option Byte
  | [], k => unlisted k
  | (a, b) :: m, k => if a = k then some b else if k < a then unlisted k else readCell m k

/-- Enter a byte in key order; the value that an unlisted key reads as takes the entry out. -/
def writeCell (k : Nat) (b : Byte) : List Host.Cell → List Host.Cell
  | [] => if unlisted k = some b then [] else [(k, b)]
  | (a, x) :: m =>
    if a = k then (if unlisted k = some b then m else (k, b) :: m)
    else if k < a then (if unlisted k = some b then (a, x) :: m else (k, b) :: (a, x) :: m)
    else (a, x) :: writeCell k b m

/-- The canonical form: keys strictly rising, no entry equal to what its key reads as unlisted. -/
abbrev Memory.wf (m : List Host.Cell) : Prop :=
  m.Pairwise (fun x y => x.1 < y.1) ∧ ∀ x ∈ m, unlisted x.1 ≠ some x.2

/-- A byte of a core scratchpad. -/
def isSpad (k : Nat) : Bool := decide (2 ^ 53 ≤ k) && decide (k < 2 ^ 54)

/-- A scratchpad byte that a window has covered since the reset, or that has been written. -/
def State.given (s : State) (k : Nat) : Bool := s.filled.any fun f => decide (f.1 ≤ k) && decide (k < f.1 + f.2)

/-- The byte at a key; what nothing has written since the reset is a free value (R422, log entry 4). -/
def State.byte (s : State) (k : Nat) : Byte :=
  if isSpad k && !s.given k then Config.arbitraryByte s.epoch k else (readCell s.mem k).getD (Config.arbitraryByte s.epoch k)

def State.putByte (k : Nat) (b : Byte) (s : State) : State :=
  { s with mem := writeCell k b s.mem, filled := if isSpad k && !s.given k then (k, 1) :: s.filled else s.filled }

def State.putBytes (l : List (Nat × Byte)) (s : State) : State := l.foldl (fun s x => s.putByte x.1 x.2) s

/-- `n` bytes from a key up. -/
def State.bytes (s : State) (k n : Nat) : List Byte := (List.range n).map fun i => s.byte (k + i)

/-- Little-endian (R1). -/
def leNat : List Byte → Nat
  | [] => 0
  | b :: bs => b.toNat + 256 * leNat bs

/-- A little-endian field of a record. -/
def fieldOf (b : List Byte) (off n : Nat) : Nat := leNat ((b.drop off).take n)

/-- The `n` bytes of a number, least significant first. -/
def leBytes (n x : Nat) : List Byte := (List.range n).map fun i => BitVec.ofNat 8 (x / 2 ^ (8 * i))

/-- Bytes at consecutive keys. -/
def cellsAt (k : Nat) (l : List Byte) : List (Nat × Byte) := l.zipIdx.map fun x => (k + x.2, x.1)

def State.dword (s : State) (k : Nat) : Dword := BitVec.ofNat 64 (leNat (s.bytes k 8))

/-- Bytes of a list of (key, byte), the last of a key winning, over a base. -/
def overlay (l : List (Nat × Byte)) (base : Nat → Byte) (k : Nat) : Byte :=
  l.foldl (fun b x => if x.1 = k then x.2 else b) (base k)

/-! Lines (R2, R198, R200) -/

/-- The line of a key. -/
def lineOf (k : Nat) : Nat := k / 128

/-- The landing that homes a line (R11, R200): of HBM the slice's, of the package scratchpad the hub's. -/
def landingOf (line : Nat) : Nat :=
  if 2 ^ 45 ≤ line then 192 + line % 8 else 24 * dieOfPa (line * 128) + line % 24

/-- The partial landing of a line on a die (R244). -/
def partialLanding (die line : Nat) : Nat := 24 * die + line % 24

/-- The signature multipliers (R198). -/
def sigMul : List Nat := [0xA5B31C6F2D84E917, 0xC4E17A2593B60D4B, 0xE7F24C19B85D3A61, 0xD3A86E075B1FC2A9]

/-- The four signature bits of a line (R198). -/
def sigBits (line : Nat) : List Nat := sigMul.zipIdx.map fun m => 256 * m.2 + line * m.1 % 2 ^ 64 / 2 ^ 56

/-- A line enters a signature. -/
def sigAdd (line : Nat) (g : BitVec 1024) : BitVec 1024 :=
  (sigBits line).foldl (fun g b => g ||| BitVec.ofNat 1024 (2 ^ b)) g

/-- A line is a member of a signature. -/
def sigHas (g : BitVec 1024) (line : Nat) : Bool := (sigBits line).all g.getLsbD

/-- Two signatures overlap: their AND is nonzero in every bank. -/
def sigOverlap (a b : BitVec 1024) : Bool :=
  (List.range 4).all fun i => ((a &&& b).extractLsb' (256 * i) 256) != 0

/-- The key that a slot holds, as a number (R417): the firmware's, a loaded one by its wrapped form, or none. -/
def State.material (s : State) (slot : Nat) : Nat :=
  if slot = 0 then 0
  else match s.hub.wraps.find? fun x => x.1 == slot with
    | some x => x.2.toNat + 1
    | none => 2 ^ 513 + slot

/-- A line is to be written under a key slot (R417): what stood there under another key is read through this one. -/
def State.keyLine (line slot : Nat) (s : State) : State :=
  let new := s.material slot
  let s := match s.keyed.find? fun x => x.line == line with
    | some x =>
      if x.key = new then s
      else s.putBytes ((List.range 128).map fun i => (line * 128 + i, Config.wrongKeyByte x.key new (line * 128 + i)))
    | none => s
  { s with keyed := ⟨line, slot, new⟩ :: s.keyed.filter fun x => x.line != line }

end Sys2Proof.Machine
end

