-- ==== Sys2Proof/Machine/Ops.lean ====
section
/-! DEFINITION. The named operations over the crew in focus: registers, pending markers, the chunk's undo log, the
frontier, and taking a fault. -/
namespace Sys2Proof.Machine

/-- A vector from a function of its index. -/
def tab {α : Type} (n : Nat) (f : Fin n → α) : Vector α n := ⟨⟨(List.finRange n).map f⟩, by simp⟩

/-- Change the registers of the crew in focus. -/
def State.mapR (f : Regs → Regs) (s : State) : State := { s with focus := { s.focus with r := f s.focus.r } }

/-- Change the chunk of the crew in focus. -/
def State.mapChunk (f : Chunk → Chunk) (s : State) : State :=
  { s with focus := { s.focus with chunk := f s.focus.chunk } }

/-- The clause in issue of the crew in focus; an empty one where there is none. -/
def State.clause (s : State) : Clause :=
  s.focus.cur.getD ⟨0, ⟨1, .seq, 0, 15, 15, false, false, 0⟩, [], 1, 0, none, none, false, false⟩

/-- The word in issue is sequentially consistent (R222). -/
def Clause.sc (c : Clause) : Bool := c.order.any fun o => o.1 == 4

/-- Change the clause in issue. -/
def State.mapCur (f : Clause → Clause) (s : State) : State :=
  { s with focus := { s.focus with cur := s.focus.cur.map f } }

/-- The word in issue waits: it is reached again when something has completed (R92, R93). -/
def State.hold (s : State) : State := s.mapCur fun c => { c with held := true }

/-- Lane `t` is in the set. -/
def hasLane (m : Lanes) (t : Fin 32) : Bool := m.getLsbD t.val

/-- The lanes of a set, lowest first. -/
def laneList (m : Lanes) : List (Fin 32) := (List.finRange 32).filter (hasLane m)

/-- The set of the lanes of a list. -/
def laneSet (l : List (Fin 32)) : Lanes := l.foldl (fun m t => m ||| BitVec.ofNat 32 (2 ^ t.val)) 0

/-- The issuing lanes. -/
def State.lanes (s : State) : List (Fin 32) := laneList s.clause.lanes

/-! Registers (R49, R50) -/

/-- A read of an s register; s0 reads zero. -/
def Regs.readS (r : Regs) (i : Fin 64) : Dword := if i = 0 then 0 else r.s[i]

/-- An instruction in flight no longer writes an s register: a later issue's value stands (R63). -/
def Inflight.lose (i : Fin 64) (x : Inflight) : Inflight := if x.lost.contains i then x else { x with lost := i :: x.lost }

/-- A write of an s register, over those that are still in flight; a write to s0 is discarded. -/
def Regs.writeS (r : Regs) (i : Fin 64) (x : Dword) : Regs :=
  if i = 0 then r else { r with s := r.s.set i x, inflight := r.inflight.map (Inflight.lose i) }

/-- A read of a thread's q register; q0 reads all ones. -/
def Regs.readQ (r : Regs) (i : Fin 8) (t : Fin 32) : Byte := if i = 0 then 0xFF else r.q[i][t]

/-- A write of the masked bits of a thread's q register; a write to q0 is discarded. -/
def Regs.writeQ (r : Regs) (i : Fin 8) (t : Fin 32) (mask x : Byte) : Regs :=
  if i = 0 then r
  else { r with q := r.q.set i (r.q[i].set t ((r.q[i][t] &&& ~~~mask) ||| (x &&& mask))) }

/-- A thread's v register. -/
def Regs.readV (r : Regs) (i : Fin 64) (t : Fin 32) : VReg := r.v[i][t]

/-- A write of the masked bits of a thread's v register, with its tag (R62). -/
def Regs.writeV (r : Regs) (i : Fin 64) (t : Fin 32) (mask x : Dword) (tag : Fin 16) : Regs :=
  { r with v := r.v.set i (r.v[i].set t ⟨(r.v[i][t].val &&& ~~~mask) ||| (x &&& mask), tag⟩) }

/-- One write of a completed instruction. -/
def Regs.apply (r : Regs) : RegWrite → Regs
  | .v d t mask x tag => r.writeV d t mask x tag
  | .s d x => r.writeS d x
  | .q d t mask x => r.writeQ d t mask x

def Regs.applyAll (r : Regs) (l : List RegWrite) : Regs := l.foldl Regs.apply r

/-- The launched, not exited threads. -/
def Regs.live (r : Regs) : Lanes := r.tmask &&& ~~~r.emask

/-! Pending markers and completion flags (R23, R25) -/

/-- A completion flag is set. -/
def Regs.flagSet (r : Regs) (f : Fin 12) : Bool := r.inflight.any (·.flag == f)

/-- Some flag of the mask is set. -/
def Regs.flagsBusy (r : Regs) (mask : BitVec 12) : Bool := r.inflight.any fun x => mask.getLsbD x.flag.val

/-- A word of the crew waits for the special-function unit (R165). -/
def Regs.sfuWaits (r : Regs) : Bool := r.inflight.any fun x => x.kind == .sfu false

/-- The marker of a register of a thread. -/
def Regs.marked (r : Regs) (f : RegFile) (n : Nat) (t : Fin 32) : Bool :=
  r.marks.any fun m => m.file == f && m.num.val == n && m.lane == t

/-- The marker as a routed read or SRDL sees it: that of an exited lane is disregarded when the clause's WAIT selects
the recorded flag (R100, R112). -/
def Regs.markedRead (r : Regs) (wait : BitVec 12) (n : Nat) (t : Fin 32) : Bool :=
  r.marks.any fun m => m.file == .v && m.num.val == n && m.lane == t &&
    !(hasLane r.emask t && wait.getLsbD m.flag.val)

/-- Clear the markers of the lanes that record a flag of the mask (R25, R93). -/
def Regs.clearMarks (r : Regs) (mask : BitVec 12) (lanes : Lanes) : Regs :=
  { r with marks := r.marks.filter fun m => !(mask.getLsbD m.flag.val && hasLane lanes m.lane) }

/-- Set a marker; none is ever set on s0 or q0 (R25). -/
def Regs.addMark (r : Regs) (f : RegFile) (n : Fin 64) (t : Fin 32) (flag : Fin 12) : Regs :=
  if n = 0 && f != .v then r
  else { r with marks := ⟨f, n, t, flag⟩ :: r.marks.filter fun m => !(m.file == f && m.num == n && m.lane == t) }

/-- The code of a register file in FLTADDR (R384). -/
def RegFile.code : RegFile → Nat
  | .v => 0 | .s => 1 | .q => 2

/-- A use of registers that R25 checks: the file, the number and the lanes whose marker is checked. -/
structure Use where
  file : RegFile
  num : Nat
  lanes : List (Fin 32)
  deriving DecidableEq, Repr

/-- The first register of the uses whose marker is set, as FLTADDR holds it: [7:6] file, [5:0] number. -/
def Regs.hazard (r : Regs) (uses : List Use) : Option Nat :=
  (uses.find? fun u => u.lanes.any (r.marked u.file u.num)).map fun u => u.file.code * 64 + u.num

/-! Faults: codes and taking one (R42, R208, R384 to R388) -/

/-- The fault and machine-check codes (R384). -/
inductive FltCode where
  | illegal | clause | format | hazard | landing | misalign | page | prot | spmbound | shape | gang | race | pedovf
  | arena | view | safedist | priv | trap | peer | logfull | key | rfspace | soft | homelost | memerr
  deriving DecidableEq, Repr

def FltCode.num : FltCode → BitVec 8
  | .illegal => 0x01 | .clause => 0x02 | .format => 0x03 | .hazard => 0x04 | .landing => 0x05 | .misalign => 0x06
  | .page => 0x07 | .prot => 0x08 | .spmbound => 0x09 | .shape => 0x0A | .gang => 0x0B | .race => 0x0C
  | .pedovf => 0x0D | .arena => 0x0E | .view => 0x0F | .safedist => 0x10 | .priv => 0x11 | .trap => 0x12
  | .peer => 0x13 | .logfull => 0x14 | .key => 0x15 | .rfspace => 0x16 | .soft => 0x20 | .homelost => 0x21
  | .memerr => 0x22

/-- A fault with what its record holds beside the clause: code, FLTADDR, the lanes it names (none: the issuing lanes,
R42), and the word index where it is not that of the word in issue. -/
structure Flt where
  code : FltCode
  addr : Dword
  lanes : Option Lanes
  word : Option (BitVec 4)
  deriving DecidableEq, Repr

/-- A fault of the word in issue that names the issuing lanes. -/
def flt (code : FltCode) (addr : Nat) : Flt := ⟨code, BitVec.ofNat 64 addr, none, none⟩

/-! Crews, cores, launches -/

/-- The physical core of a crew (R10). -/
def Crew.core (c : Crew) : Nat :=
  match c.place with
  | .slot k _ => k
  | .frame k => k
  | .waiting k => k
  | .hinted d => 36 * d

def State.coreAt (s : State) (k : Nat) : Core := s.cores.getD k Core.reset
def State.mapCore (k : Nat) (f : Core → Core) (s : State) : State := { s with cores := s.cores.modify k f }
def State.ownCore (s : State) : Core := s.coreAt s.focus.core

/-- Every crew of the package. -/
def State.crews (s : State) : List Crew := s.focus :: s.pool

def State.crew? (s : State) (uid : Nat) : Option Crew := s.crews.find? fun c => c.uid == uid

/-- Change every crew. -/
def State.mapCrews (f : Crew → Crew) (s : State) : State := { s with focus := f s.focus, pool := s.pool.map f }

/-- Change the first crew with a number. -/
def changeCrew (uid : Nat) (f : Crew → Crew) : List Crew → List Crew
  | [] => []
  | x :: l => if x.uid = uid then f x :: l else x :: changeCrew uid f l

/-- Change one crew. -/
def State.mapCrew (uid : Nat) (f : Crew → Crew) (s : State) : State :=
  if s.focus.uid = uid then { s with focus := f s.focus } else { s with pool := changeCrew uid f s.pool }

/-- Change the crew in focus. -/
def State.mapFocus (f : Crew → Crew) (s : State) : State := { s with focus := f s.focus }

/-- A crew takes the place of the first one with a number. -/
def putCrew (uid : Nat) (c : Crew) : List Crew → List Crew
  | [] => []
  | x :: l => if x.uid = uid then c :: l else x :: putCrew uid c l

/-- Bring a crew into focus; the crew that was there takes its place. -/
def State.focusOn (uid : Nat) (s : State) : State :=
  if s.focus.uid = uid then s
  else match s.pool.find? fun c => c.uid == uid with
    | some c => { s with focus := c, pool := putCrew uid s.focus s.pool }
    | none => s

/-- Act on a crew in focus, and return the focus to the crew that had it. -/
def State.onCrew (uid : Nat) (f : State → State) (s : State) : State :=
  if (s.crew? uid).isNone then s else (f (s.focusOn uid)).focusOn s.focus.uid

def State.launch? (s : State) (uid : Nat) : Option Launch := s.sched.launches.find? fun l => l.uid == uid
def State.mapLaunch (uid : Nat) (f : Launch → Launch) (s : State) : State :=
  { s with sched := { s.sched with launches := s.sched.launches.map fun l => if l.uid = uid then f l else l } }

/-- Pre-emption is pending for a launch (R86, R397), or it is being stopped to be ended (R387). -/
def Launch.stopping (l : Launch) : Bool := l.stopAt.isSome || l.ended.isSome

def State.stopping (s : State) (c : Crew) : Bool :=
  match s.launch? c.task.launch with
  | some l => l.stopping
  | none => false

/-- The kinds of event that R420 names through the rules that log them. -/
inductive EvKind where
  | doubleFault | launchEnd | replay | slicesWait | hostAccess | doorbell | link | fence | homeLost | resultFault
  | recordDropped | stopTimeout | resumeRefused | descriptor | firmware | sensor | ferry | window | memerr
  deriving DecidableEq, Repr

def EvKind.num : EvKind → Nat
  | .doubleFault => 0 | .launchEnd => 1 | .replay => 2 | .slicesWait => 3 | .hostAccess => 4 | .doorbell => 5
  | .link => 6 | .fence => 7 | .homeLost => 8 | .resultFault => 9 | .recordDropped => 10 | .stopTimeout => 11
  | .resumeRefused => 12 | .descriptor => 13 | .firmware => 14 | .sensor => 15 | .ferry => 16 | .window => 17 | .memerr => 18

/-- The last `n` of a list. -/
def keepLast {α : Type} (n : Nat) (l : List α) : List α := (l.reverse.take n).reverse

/-! Logical dies, rafts and cores (R394) -/

/-- The physical core of an LCT entry, where it exists. -/
def lctCore (e : Dword) : Option Nat := if bit e.toNat 15 then some (36 * bits e.toNat 8 3 + bits e.toNat 0 6) else none

/-- The physical core of a logical die and core. -/
def PkgRegs.physical (r : PkgRegs) (die core : Nat) : Option Nat := lctCore (r.lct.getD (36 * die + core) 0)

/-- The logical cores of a logical die, as physical cores in logical order. -/
def PkgRegs.coresOf (r : PkgRegs) (die : Nat) : List Nat := (List.range 36).filterMap fun j => r.physical die j

/-- The physical cores of a die set, in logical order (die, then core). -/
def PkgRegs.coresIn (r : PkgRegs) (set : BitVec 8) : List Nat :=
  ((List.range 8).filter set.getLsbD).flatMap r.coresOf

/-- The place of a physical core in the LCT; `none` for a core that no entry names (R394). -/
def PkgRegs.entryOf (r : PkgRegs) (k : Nat) : Option Nat := (r.lct.zipIdx.find? fun e => lctCore e.1 == some k).map (·.2)

/-- The logical die and core of a physical core. -/
def PkgRegs.logical (r : PkgRegs) (k : Nat) : Nat × Nat :=
  match r.entryOf k with
  | some e => (e / 36, e % 36)
  | none => (0, 0)

/-- The event arbiter appends a record (R420); of 65,536 records the oldest goes. `kind` is 0 core, 1 landing, 2 link,
3 memory controller, 4 sensor, 5 scheduler. -/
def State.event (kind unit : Nat) (ev : EvKind) (queue : Nat) (datum : Dword) (s : State) : State :=
  let e : Event := ⟨s.hub.nextEvent, s.now * 1880, kind * 4096 + unit % 4096, ev.num, queue, datum⟩
  { s with hub := { s.hub with events := keepLast 65536 (s.hub.events ++ [e]), nextEvent := s.hub.nextEvent + 1 } }

/-- The unit of a core in an event record (R6, R420): 36 × its logical die + its logical core (log entry 79). -/
def State.unitOf (s : State) (core : Nat) : Nat :=
  let (d, k) := s.hub.regs.logical core
  36 * d + k

/-- The queue number of a launch for the event log; 0xFFFF_FFFF for none. -/
def State.queueOf (s : State) (launch : Nat) : Nat :=
  match s.launch? launch with
  | some l => l.queue
  | none => 0xFFFFFFFF

/-! Rollback (R71, R75, R85, R208, R209) -/

/-- A crew's grants and waiting requests leave the landings (R205, R208). -/
def Landing.drop (uid : Nat) (l : Landing) : Landing :=
  ⟨l.held.filter fun g => g.crew != uid, l.waiting.filter fun g => g.crew != uid⟩

def State.dropGrants (uid : Nat) (s : State) : State := { s with landings := s.landings.map (Landing.drop uid) }

/-! Requests and grants (R202, R206) -/

/-- A request conflicts with a held grant. -/
def Grant.conflicts (g h : Grant) : Bool :=
  g.crew != h.crew &&
    (g.excl || h.excl || g.lines.any (fun n => sigHas h.wsig n || sigHas h.rsig n) || (h.write && sigOverlap g.rsig h.wsig))

/-- A request may be granted: below 16 grants, no conflict, nothing waiting before it. -/
def Landing.may (g : Grant) (l : Landing) : Bool :=
  decide (l.held.length < 16) && (l.waiting.takeWhile fun w => w.crew != g.crew).isEmpty && !l.held.any g.conflicts

/-- A landing is held exclusively by the one that asks (R206). -/
def Landing.ownedBy (id : Nat) (l : Landing) : Bool := l.held.any fun h => h.crew == id && h.excl

/-- The request joins those that wait, in the order of arrival. -/
def Landing.enqueue (g : Grant) (l : Landing) : Landing :=
  if l.waiting.any fun w => w.crew == g.crew then l else { l with waiting := l.waiting ++ [g] }

/-- Ask a landing: the request is granted, or joins those that wait. -/
def Landing.ask (g : Grant) (l : Landing) : Landing × Bool :=
  if l.ownedBy g.crew then (l, true)
  else if l.may g then (⟨l.held ++ [g], l.waiting.filter fun w => w.crew != g.crew⟩, true)
  else (l.enqueue g, false)

def State.askLanding (g : Grant) (j : Nat) (s : State) : State × Bool :=
  match s.landings[j]? with
  | none => (s, true)
  | some l => let (l, ok) := l.ask g; ({ s with landings := s.landings.set j l }, ok)

/-- The request of the write of one line that is granted, made and released within one step. -/
def lineGrant (id line : Nat) : Grant := ⟨id, false, true, [line], 0, 0⟩

/-- Ask a landing for the write of one line within the step: it is made now, or the request joins those that wait. -/
def State.passAt (id landing line : Nat) (s : State) : State × Bool :=
  match s.landings[landing]? with
  | none => (s, true)
  | some l =>
    if l.ownedBy id then (s, true)
    else if l.may (lineGrant id line) then
      ({ s with landings := s.landings.set landing { l with waiting := l.waiting.filter fun w => w.crew != id } }, true)
    else ({ s with landings := s.landings.set landing (l.enqueue (lineGrant id line)) }, false)

/-- A request that nothing asks for any more leaves the landing of a line. -/
def State.withdraw (id line : Nat) (s : State) : State :=
  { s with landings := s.landings.modify (landingOf line) fun l => { l with waiting := l.waiting.filter fun w => w.crew != id } }

/-- The same at a line's home. -/
def State.passLine (id line : Nat) (s : State) : State × Bool := s.passAt id (landingOf line) line

/-- The crew's registers, control state and views return to the shadow and its chunk is discarded, with the exclusive
grants that it may hold (R206), and REPC to zero (R35); the clause in issue is abandoned, and the chunk will run as a replay
(R233). -/
def Crew.rollback (c : Crew) : Crew :=
  { c with
    r := { c.shadow with repc := 0 }
    cur := none
    chunk := { Chunk.empty with first := c.chunk.first, len := c.chunk.len, retry := c.chunk.retry }
    replay := { c.replay with excl := false, replay := true }
    phase := match c.phase with
      | .asking _ => .run
      | p => p }

/-- Roll a crew's chunk back (R208): grants and requests, registers, and the scratchpad granules it logged, newest entry
first. -/
def State.rollbackCrew (uid : Nat) (s : State) : State :=
  match s.crew? uid with
  | none => s
  | some c =>
    ((c.chunk.logS.foldl (fun s g => s.putBytes (cellsAt g.key g.old)) s).dropGrants uid).mapCrew uid Crew.rollback

/-- Roll the chunk of the crew in focus back. -/
def State.rollback (s : State) : State := s.rollbackCrew s.focus.uid

/-! Invalidations (R205, R206, R212) -/

/-- The crew has a chunk that has not reached its commit point (R205). -/
def Crew.uncommitted (c : Crew) : Bool :=
  match c.phase with
  | .run | .asking _ => true
  | _ => false

/-- A conflict rollback (R205, R206): one more in a row. -/
def State.conflictRollback (uid : Nat) (s : State) : State :=
  (s.rollbackCrew uid).mapCrew uid fun c => { c with replay := { c.replay with conf := c.replay.conf + 1 } }

/-- The invalidations of a written line reach every uncommitted crew that has read it (R205); `except` is the writer. -/
def State.invalidateLine (line except : Nat) (s : State) : State :=
  (s.crews.filter fun c => c.uid != except && c.uncommitted && sigHas c.chunk.rsig line).foldl
    (fun s c => s.conflictRollback c.uid) s

/-- Every L1 but one core's loses its copy of a line, and so does the L2 of every die from which the directory need not reach that
core (R212). -/
def State.dropCopies (core line : Nat) (s : State) : State :=
  { s with
    cores := s.cores.zipIdx.map fun c =>
      if c.2 = core then c.1 else { c.1 with l1 := c.1.l1.filter fun t => t.line != line }
    dies := s.dies.zipIdx.map fun d =>
      if d.2 = core / 36 && (s.coreAt core).l1.any fun t => t.line == line then d.1
      else { d.1 with copies := d.1.copies.filter (·.1 != line) } }

/-- The errors of bytes that are written are gone (R181). -/
def State.clearBad (cells : List (Nat × Byte)) (s : State) : State :=
  { s with bad := s.bad.filter fun b => !cells.any fun x => x.1 == b }

/-- A core number that no core has: no L1 keeps a copy. -/
def noCore : Nat := 288

/-! Taking a fault (R42, R382 to R388) -/

/-- A launch is to end with a status and the fault that ends it (R387, R403); the first reason stands. Its crews stop as
if pre-empted, in the time that R398 gives a request. -/
def State.endLaunch (launch : Nat) (status : Nat) (cause addr : Dword) (s : State) : State :=
  s.mapLaunch launch fun l => { l with
    ended := l.ended.orElse fun _ => some (status, cause, addr)
    stopAt := l.stopAt.orElse fun _ => some s.now }

/-- FLTCAUSE as the device delivers it: POST, ENG, CODE (R383). -/
def causeOf (code : BitVec 8) (post eng : Bool) : BitVec 10 :=
  BitVec.ofNat 10 (code.toNat + (if eng then 256 else 0) + (if post then 512 else 0))

/-- A double fault (R387): the crew stops, the event log records both codes, and the launch ends with status 2 and the
first fault. -/
def State.doubleFault (code : BitVec 8) (first : BitVec 10) (addr : Dword) (s : State) : State :=
  let c := s.focus
  let s := s.event 0 (s.unitOf c.core) .doubleFault (s.queueOf c.task.launch)
    (BitVec.ofNat 64 (first.toNat % 256 * 256 + code.toNat))
  let s := s.endLaunch c.task.launch 2 (first.zeroExtend 64) addr
  s.mapFocus fun c => { c with phase := .halted, cur := none }

/-- The memory controller of a physical address of HBM; 0 elsewhere (log entry 79). -/
def memUnit (a : Nat) : Nat := if isHbm a then a / hbmStack else 0

/-- The address of a data error is logged (R181, R240). -/
def State.logMemerr (code : BitVec 8) (addr : Dword) (s : State) : State :=
  if code = FltCode.memerr.num then s.event 3 (memUnit addr.toNat) .memerr (s.queueOf s.focus.task.launch) addr else s

/-- An error that another package or the host has answered is reported once (R240, R416). -/
def State.takeBad (key n : Nat) (s : State) : State :=
  if isHbm key || 2 ^ 52 ≤ key then s else { s with bad := s.bad.filter fun b => !(decide (key ≤ b) && decide (b < key + n)) }

/-- Delivery to the crew in focus (R385), after a machine check has been logged (R181): the record with the REPC of the faulting repeat (R35), the trap state, and lane 0
alone at TRAPVEC in supervisor mode, in a chunk that has met no replay (R233); the replay record of the chunk at CHKPC and the
faults still to be delivered wait for RFT (R206, R386, log entry 113); with PRIVST.SUP set, a double fault (R387). A
fault in a merge routine ends the routine, which keeps its FLTPC (R301). -/
def State.deliverAt (repc : BitVec 6) (code : BitVec 8) (addr : Dword) (post eng : Bool) (pc : Addr) (word : BitVec 4) (lanes : Lanes)
    (chkpc : Addr) (s : State) : State :=
  let s := s.logMemerr code addr
  let r := s.focus.r
  if s.focus.task.kind = .routine then
    s.mapFocus fun c => { c with
      phase := .halted, cur := none, r := { r with flt := { r.flt with code := code, pcWord := word, pcClause := pc } } }
  else match r.flt.sup, s.focus.trap with
  | true, some t => s.doubleFault code t.cause t.addr
  | true, none => s.doubleFault code 0 0
  | false, _ =>
    let t : TrapState := ⟨r.frontier, r.csp, r.cdepth, r.blocked, r.safecnt, tab 4 fun i => r.s[60 + i.val], chkpc,
      causeOf code post eng, addr, s.focus.replay, s.focus.post⟩
    let vec := s.ownCore.trapvec
    s.mapFocus fun c => { c with
      trap := some t
      cur := none
      replay := Replay.none
      post := []
      r := { r with
        flt := ⟨code, eng, post, word, pc, addr, lanes, chkpc, true, false, false, repc⟩
        frontier := [⟨vec, 1, 0, false⟩]
        csp := r.csp.set 0 0
        cdepth := r.cdepth.set 0 0
        blocked := r.blocked &&& ~~~1 } }

/-- The delivery of a fault that no repeat raised. -/
def State.deliverFault (code : BitVec 8) (addr : Dword) (post eng : Bool) (pc : Addr) (word : BitVec 4) (lanes : Lanes)
    (chkpc : Addr) (s : State) : State := s.deliverAt 0 code addr post eng pc word lanes chkpc

/-- A fault raised at an instruction's issue (R42, R386): rollback, then delivery with CHKPC at the chunk's first
clause and with REPC as it stood (R35). -/
def State.raise (f : Flt) (s : State) : State :=
  let c := s.clause
  let first := s.focus.chunk.first
  s.rollback.deliverAt s.focus.r.repc f.code.num f.addr false false c.addr (f.word.getD (BitVec.ofNat 4 c.idx))
    (f.lanes.getD c.lanes) first

/-- HAZARD of the register that `n` encodes (R384). -/
def hazardFlt (n : Nat) : Flt := flt .hazard n

/-- The pending-marker check of R25 before an effect. -/
def checked (uses : List Use) (s : State) (k : State → State) : State :=
  match s.focus.r.hazard uses with
  | some n => s.raise (hazardFlt n)
  | none => k s

/-! The frontier (R76, R79) -/

/-- A lane joins the entry at `pc`, or a new one (R79). `redir`: it got there by a control transfer (R97), and the whole
entry waits for the redirect to complete (log entry 81). -/
def joinEntry (pc : Addr) (t : Fin 32) (stamp : Nat) (redir : Bool) : List Entry → List Entry
  | [] => [⟨pc, BitVec.ofNat 32 (2 ^ t.val), stamp, redir⟩]
  | e :: es =>
    if e.pc = pc then
      ⟨pc, e.threads ||| BitVec.ofNat 32 (2 ^ t.val), max e.stamp stamp, e.redir || redir⟩ :: es
    else e :: joinEntry pc t stamp redir es

/-- Lane `t` leaves the entry at `pc`. -/
def leaveEntry (pc : Addr) (t : Fin 32) (l : List Entry) : List Entry :=
  l.map fun e => if e.pc = pc then { e with threads := e.threads &&& ~~~BitVec.ofNat 32 (2 ^ t.val) } else e

/-- The highest stamp. -/
def maxStamp (l : List Entry) : Nat := l.foldl (fun m e => max m e.stamp) 0

/-- The frontier after a clause at `h` issued for `lanes` (R79): lane `t` goes to `(next t).1`, having transferred when
`(next t).2`. -/
def advanceFrontier (h : Addr) (lanes : List (Fin 32)) (next : Fin 32 → Addr × Bool) (redir : Bool) (l : List Entry) :
    List Entry :=
  let sOld := ((l.find? fun e => e.pc = h).map Entry.stamp).getD 0
  let sNew := 1 + maxStamp l
  (lanes.foldl (fun l t =>
      let (n, tr) := next t
      joinEntry n t (if tr && decide (n ≤ h) then sNew else sOld) redir (leaveEntry h t l)) l).filter
    fun e => e.threads != 0

/-- The address of the clause that follows (R20). -/
def Clause.next (c : Clause) : Addr := c.addr + BitVec.ofNat 57 (4 * (c.header.count.val + 1))

/-- A control transfer of the issuing lanes (R79, R88): each lane goes to its target, or falls through. -/
def State.transfer (target : Fin 32 → Option Addr) (s : State) : State :=
  let c := s.clause
  let next := fun t => match target t with
    | some a => (a, true)
    | none => (c.next, false)
  let s := s.mapR fun r => { r with frontier := advanceFrontier c.addr (laneList c.lanes) next true r.frontier }
  s.mapCur fun c => { c with moved := true }

end Sys2Proof.Machine
end

