-- ==== Sys2Proof/Machine/Operands.lean ====
section
/-! DEFINITION. Operand forms: reading a v register through a route (R98 to R102), block scales (R65), guards and
active positions (R60 to R62), and the shared issue of a VI or VF instruction over its operands. -/
namespace Sys2Proof.Machine

/-- A v operand: its register and its route. -/
structure Operand where
  reg : Fin 64
  route : Route
  deriving DecidableEq, Repr

/-- Where a routed read of one position comes from (R99, R101): a lane, the reader's own element, or zero. -/
inductive Feed where
  | lane (l : Fin 32)
  | own
  | zero
  deriving DecidableEq, Repr

/-- Index byte number `k` of an index register. -/
def indexByte (ix : Dword) (k : Nat) : Nat := ix.toNat / 2 ^ (8 * (k % 8)) % 256

/-- Step 1 of R99: the source of position `e` for reader `t`; `ix` is the reader's index register. -/
def routeFeed (rt : Route) (ix : Dword) (t : Fin 32) (e : Nat) : Feed :=
  match rt with
  | .none => .own
  | .rot l _ => .lane (t - l)
  | .bcst l _ => .lane l
  | .xor l _ => .lane (fin 32 (t.val ^^^ l.val))
  | .idx _ b => .lane (fin 32 (indexByte ix (b.val + e) % 32))
  | .shup d z => if d.val ≤ t.val then .lane (t - d) else if z then .zero else .own
  | .shdn d z => if t.val + d.val ≤ 31 then .lane (t + d) else if z then .zero else .own
  | .segb g p => .lane (fin 32 (t.val / 2 ^ g.val * 2 ^ g.val + p.val))

/-- Step 3 of R99: the source position, of `n`, within the source lane. -/
def routePos (rt : Route) (ix : Dword) (e n : Nat) : Nat :=
  match rt with
  | .rot _ k => (e + 8 * n - k.val) % n
  | .bcst _ k => k.val % n
  | .xor _ k => (e ^^^ k.val) % n
  | .idx _ b => indexByte ix (b.val + e) / 32 % n
  | _ => e

/-- The value of the index register of an IDX route in the reading thread; 0 for another route. -/
def Operand.index (r : Regs) (o : Operand) (t : Fin 32) : Dword :=
  match o.route with
  | .idx v _ => (r.readV v t).val
  | _ => 0

/-- The tag that a source delivers to reader `t` (R58, R100, R101). -/
def Operand.feedTag (r : Regs) (o : Operand) (t : Fin 32) : Feed → Fin 16
  | .lane l => if hasLane r.tmask l then (r.readV o.reg l).tag else (r.readV o.reg t).tag
  | _ => (r.readV o.reg t).tag

/-- The tag that reaches the arithmetic in thread `t` (R102): that of the lane feeding position 0. -/
def Operand.tag (r : Regs) (o : Operand) (t : Fin 32) : Fin 16 :=
  o.feedTag r t (routeFeed o.route (o.index r t) t 0)

/-- Position `P` of width `w` of a 64-bit value. -/
def elemOf (w P : Nat) (x : Dword) : Nat := x.toNat / 2 ^ (w * P) % 2 ^ w

/-- The element that position `e` of thread `t` reads (R99 to R101), counted in the tag that reaches it. -/
def Operand.elem (r : Regs) (o : Operand) (t : Fin 32) (e : Nat) : Nat :=
  let T := o.tag r t
  let ix := o.index r t
  match routeFeed o.route ix t e with
  | .own => elemOf (tagWidth T) e (r.readV o.reg t).val
  | .zero => 0
  | .lane l =>
    if hasLane r.tmask l then elemOf (tagWidth T) (routePos o.route ix e (tagCount T)) (r.readV o.reg l).val else 0

/-- All positions read by a thread, joined into a register value. -/
def Operand.whole (r : Regs) (o : Operand) (t : Fin 32) : Dword :=
  match o.route with
  | .none => (r.readV o.reg t).val
  | _ =>
    let w := tagWidth (o.tag r t)
    BitVec.ofNat 64 (((List.range (tagCount (o.tag r t))).map fun e => o.elem r t e * 2 ^ (w * e)).sum)

/-- The scale exponent base + delta of block `l / 4` of a register (R64, R65). -/
def Regs.scale (r : Regs) (reg : Fin 64) (l : Fin 32) : Int :=
  let sd := r.side[reg]
  signedOf 16 ((r.readS sd.base).toNat % 2 ^ 16) + signedOf 4 (bits sd.delta.toNat (4 * (l.val / 4)) 4)

/-- The scale of the element that position `e` of thread `t` reads: that of its source lane's block (R65). -/
def Operand.scale (r : Regs) (o : Operand) (t : Fin 32) (e : Nat) : Int :=
  match routeFeed o.route (o.index r t) t e with
  | .own => r.scale o.reg t
  | .zero => 0
  | .lane l => if hasLane r.tmask l then r.scale o.reg l else 0

/-- The feeding lanes of a routed operand for an active thread (R102). -/
def Operand.feeds (r : Regs) (o : Operand) (t : Fin 32) : List Feed :=
  match o.route with
  | .none => []
  | .idx _ _ => (List.range (tagCount (o.tag r t))).map (routeFeed o.route (o.index r t) t)
  | rt => [routeFeed rt 0 t 0]

def Feed.isLane : Feed → Bool
  | .lane _ => true
  | _ => false

/-- The tags of all feeding lanes of the active threads; R58 and R102 ask that they be one. -/
def Operand.feedTags (r : Regs) (o : Operand) (act : List (Fin 32)) : List (Fin 16) :=
  (act.map fun t => ((o.feeds r t).filter Feed.isLane).map (o.feedTag r t)).flatten

def allSame : List (Fin 16) → Bool
  | [] => true
  | x :: xs => xs.all (· == x)

/-- The markers that reading the operand in thread `t` meets (R25, R99, R100): the index register in the reader, the
register in each launched feeding lane, or in the reader for its own element; for m8 also s[BASEREG] (R65). A zero fill, which
takes the reader's tag alone, meets none (log entry 107). -/
def Operand.hazard (r : Regs) (wait : BitVec 12) (lanes : List (Fin 32)) (o : Operand) (t : Fin 32) : Option Nat :=
  let ixHit := match o.route with
    | .idx v _ => if r.marked .v v.val t then some v.val else none
    | _ => none
  let own := o.route == .none || routeFeed o.route (o.index r t) t 0 == .own
  let laneHit := (o.feeds r t).any fun f => match f with
    | .lane l => hasLane r.tmask l && r.markedRead wait o.reg.val l
    | _ => false
  let base := r.side[o.reg].base
  match ixHit with
  | some n => some n
  | none =>
    if laneHit || (own && r.marked .v o.reg.val t) then some o.reg.val
    else if o.tag r t == tM8 && lanes.any (r.marked .s base.val) then some (64 + base.val)
    else none

/-! Guards (R60 to R62) -/

/-- Position `e`, of `n`, is active under the guard in thread `t`. -/
def posActive (r : Regs) (g : Guard) (n : Nat) (t : Fin 32) (e : Nat) : Bool :=
  (r.readQ g.q t).getLsbD (8 / n * e) != g.neg

/-- The active positions of thread `t`, counted in `n`. -/
def activePos (r : Regs) (g : Guard) (n : Nat) (t : Fin 32) : List Nat := (List.range n).filter (posActive r g n t)

/-- The bits of position `e` of width `w` in a register (R62). -/
def posMask (w e : Nat) : Dword := BitVec.ofNat 64 ((2 ^ w - 1) * 2 ^ (w * e))

/-- The predicate bits of position `e` of width `w` (R60). -/
def predMask (w e : Nat) : Byte := BitVec.ofNat 8 ((2 ^ (w / 8) - 1) * 2 ^ (w / 8 * e))

/-! The shared issue of a VI or VF instruction -/

/-- The destination of a vector instruction. -/
inductive Dst where
  | v (d : Fin 64)
  | q (d : Fin 8)
  | s (d : Fin 64)
  deriving DecidableEq, Repr

/-- The marker uses of writing a destination in the given lanes. -/
def Dst.uses (lanes : List (Fin 32)) : Dst → List Use
  | .v d => [⟨.v, d.val, lanes⟩]
  | .q d => [⟨.q, d.val, lanes⟩]
  | .s d => [⟨.s, d.val, lanes⟩]

/-- What a long-latency instruction marks (R25). -/
def Regs.markDst (r : Regs) (lanes : List (Fin 32)) (flag : Fin 12) (d : Dst) : Regs :=
  match d with
  | .v d => lanes.foldl (fun r t => r.addMark .v d t flag) r
  | .q d => lanes.foldl (fun r t => r.addMark .q ⟨d.val, by omega⟩ t flag) r
  | .s d => lanes.foldl (fun r t => r.addMark .s d t flag) { r with inflight := r.inflight.map (Inflight.lose d) }

/-- The flag that a long-latency word of the clause is assigned (R24); the clause check has refused 0xF (R19). -/
def Clause.flag (c : Clause) (fs : Bool) : Fin 12 := fin 12 (if fs then c.header.setb else c.header.seta).val

/-- The undo-log entry of a v register on its first write in the chunk (R209); where the log has no room, LANDING with
FLTADDR 0 (R196). -/
def logV (d : Dst) (s : State) (k : State → State) : State :=
  match d with
  | .v d =>
    let ch := s.focus.chunk
    if ch.logV.contains d then k s
    else if 256 < ch.logUnits + 10 then s.raise (flt .landing 0)
    else k { s with focus := { s.focus with chunk := { ch with logV := d :: ch.logV, logUnits := ch.logUnits + 10 } } }
  | _ => k s

/-- A long-latency instruction issues: its destinations are marked in the issuing threads, its writes held (R23, R25). -/
def State.holdResult (flag : Fin 12) (kind : LongKind) (dsts : List Dst) (lanes : List (Fin 32)) (writes : List RegWrite) (fp : BitVec 6)
    (s : State) : State :=
  s.mapR fun r =>
    let r := dsts.foldl (fun r d => r.markDst lanes flag d) r
    { r with inflight := r.inflight ++ [⟨flag, kind, writes, fp, false, []⟩] }

/-- The end of an instruction's issue: its writes are made at once, or held until it completes where it is
long-latency (R23 to R25). `lanes` are the issuing threads, in which the destination is marked. -/
def State.deliver (ll : Option (Fin 12 × LongKind)) (dst : Dst) (lanes : List (Fin 32)) (writes : List RegWrite) (fp : FpFlags)
    (s : State) : State :=
  match ll with
  | none => s.mapR fun r => { r.applyAll writes with fpflags := r.fpflags ||| fp }
  | some (flag, kind) => s.holdResult flag kind [dst] lanes writes fp

/-- A vector instruction as its entry gives it. `count` and `result` take the tags that reach the arithmetic, in operand
order: the tag in which the guard is counted, and the result tag (`none`: FORMAT). `elem` computes a position: from the
tags and the routed 64-bit values of the operands, the block scale of an operand's position, the thread, the position
and the old element of D; `none` leaves the position unwritten. `uses` are the registers that active threads use
beside the operands. -/
structure VOp where
  ops : List Operand
  dst : Dst
  count : List (Fin 16) → Fin 16
  result : List (Fin 16) → Option (Fin 16)
  elem : List (Fin 16) → List Dword → (Nat → Nat → Int) → Fin 32 → Nat → Nat → Option (Nat × FpFlags)
  uses : List (Fin 32) → List Use

/-- The tags of the operands in a thread. -/
def VOp.tags (v : VOp) (r : Regs) (t : Fin 32) : List (Fin 16) := v.ops.map fun o => o.tag r t

/-- The active positions of a thread, with the width of a position. -/
def VOp.active (v : VOp) (r : Regs) (g : Guard) (t : Fin 32) : List Nat :=
  activePos r g (tagCount (v.count (v.tags r t))) t

/-- The active threads (R61). -/
def VOp.activeLanes (v : VOp) (r : Regs) (g : Guard) (lanes : List (Fin 32)) : List (Fin 32) :=
  lanes.filter fun t => !(v.active r g t).isEmpty

/-- The first pending register that the instruction would use (R25, R62): the guard in every issuing thread; in active
threads the operands and the other registers; the destination. -/
def VOp.hazard (v : VOp) (r : Regs) (wait : BitVec 12) (g : Guard) (lanes act : List (Fin 32)) : Option Nat :=
  match r.hazard [⟨.q, g.q.val, lanes⟩] with
  | some n => some n
  | none =>
    match (act.map fun t => v.ops.filterMap fun o => o.hazard r wait lanes t).flatten with
    | n :: _ => some n
    | [] => r.hazard (v.uses act ++ v.dst.uses act)

/-- FORMAT by R55, R58 or R102. -/
def VOp.formatOk (v : VOp) (r : Regs) (act : List (Fin 32)) : Bool :=
  v.ops.all (fun o => allSame (o.feedTags r act)) && act.all (fun t => (v.result (v.tags r t)).isSome)

/-- The results of one thread: the masked value with its tag, and the flags. -/
def VOp.thread (v : VOp) (r : Regs) (g : Guard) (t : Fin 32) : RegWrite × FpFlags :=
  let tags := v.tags r t
  let w := tagWidth (v.count tags)
  let raws := v.ops.map fun o => o.whole r t
  let res := (v.active r g t).filterMap fun e =>
    let old := match v.dst with
      | .v d => elemOf w e (r.readV d t).val
      | _ => 0
    (v.elem tags raws (fun k i => match v.ops[k]? with | some o => o.scale r t i | none => 0) t e old).map fun x => (e, x)
  let fl := res.foldl (fun f x => f ||| x.2.2) 0
  match v.dst with
  | .v d =>
    (.v d t (res.foldl (fun m x => m ||| posMask w x.1) 0)
      (res.foldl (fun m x => m ||| BitVec.ofNat 64 (x.2.1 % 2 ^ w * 2 ^ (w * x.1))) 0)
      ((v.result tags).getD 0), fl)
  | .q d =>
    (.q d t (res.foldl (fun m x => m ||| predMask w x.1) 0)
      (res.foldl (fun m x => m ||| (if x.2.1 = 0 then 0 else predMask w x.1)) 0), fl)
  | .s d => (.s d 0, fl)

/-- The long-latency issue of an instruction that an IDX route makes so (R24). -/
def idxLong (c : Clause) (rx : Option Rx) (fs : Bool) : Option (Fin 12 × LongKind) :=
  if hasIdx rx then some (c.flag fs, .plain) else none

/-- The issue of a vector instruction: HAZARD, then FORMAT, then the undo log, then the results of every active
thread (R42, R59, R98). -/
def State.vecIssue (v : VOp) (g : Guard) (ll : Option (Fin 12 × LongKind)) (post : Regs → Regs) (s : State) : State :=
  let r := s.focus.r
  let lanes := s.lanes
  let act := v.activeLanes r g lanes
  match v.hazard r s.clause.header.wait g lanes act with
  | some n => s.raise (hazardFlt n)
  | none =>
    if v.formatOk r act then
      logV v.dst s fun s =>
        let res := act.map (v.thread r g)
        (s.deliver ll v.dst lanes (res.map (·.1)) (res.foldl (fun f x => f ||| x.2) 0)).mapR post
    else s.raise (flt .format 0)

/-- The routes of operands A and B, and of C. -/
def rxA (rx : Option Rx) : Route := match rx with | some r => r.a | none => .none
def rxB (rx : Option Rx) : Route := match rx with | some r => r.b | none => .none
def rxC (rx : Option Rx) : Route := match rx with | some r => r.c.getD .none | none => .none
def rxSat (rx : Option Rx) : Bool := match rx with | some r => r.sat | none => false
def rxRnd (rx : Option Rx) : Fin 8 := match rx with | some r => r.rnd | none => 0

end Sys2Proof.Machine
end

