-- ==== Sys2Proof/Machine/Uniform.lean ====
section
/-! DEFINITION. The uniform integer instructions (R116 to R118) and SRDL (R112). -/
namespace Sys2Proof.Machine

/-- What a meaning answers. -/
abbrev Out := Host.Outcome State Fault Refusal

/-- A uniform instruction: HAZARD over its sources and destination in the issuing threads (R25, R117), else one write
of s[D] (R63). -/
def uniform (srcs : List (Fin 64)) (d : Fin 64) (f : Regs → Dword) (s : State) : State :=
  checked ((srcs ++ [d]).map fun n => ⟨.s, n.val, s.lanes⟩) s fun s => s.mapR fun r => r.writeS d (f r)

def shl64 (a b : Dword) : Dword := if 64 ≤ b.toNat then 0 else a <<< b.toNat
def shr64 (a b : Dword) : Dword := if 64 ≤ b.toNat then 0 else a >>> b.toNat
def sar64 (a b : Dword) : Dword := if 64 ≤ b.toNat then (if a.msb then BitVec.allOnes 64 else 0) else a.sshiftRight b.toNat
def mulh64 (a b : Dword) : Dword := BitVec.ofInt 64 (a.toInt * b.toInt / ((2 ^ 64 : Nat) : Int))
def mulhz64 (a b : Dword) : Dword := BitVec.ofNat 64 (a.toNat * b.toNat / 2 ^ 64)
def sext12 (i : BitVec 12) : Dword := i.signExtend 64
/-- IMM16 at bit 16 × SH (R27 form K). -/
def immK (sh : Fin 4) (i : BitVec 16) : Dword := BitVec.ofNat 64 (i.toNat * 2 ^ (16 * sh.val))
/-- `x` with bits [16SH + 15 : 16SH] replaced (R117 SMOVK). -/
def putK (x : Dword) (sh : Fin 4) (i : BitVec 16) : Dword := (x &&& ~~~immK sh (BitVec.allOnes 16)) ||| immK sh i

def execSadd (d a b : Fin 64) (s : State) : Out := .next (uniform [a, b] d (fun r => r.readS a + r.readS b) s)
def execSsub (d a b : Fin 64) (s : State) : Out := .next (uniform [a, b] d (fun r => r.readS a - r.readS b) s)
def execSmul (d a b : Fin 64) (s : State) : Out := .next (uniform [a, b] d (fun r => r.readS a * r.readS b) s)
def execSmulh (d a b : Fin 64) (s : State) : Out := .next (uniform [a, b] d (fun r => mulh64 (r.readS a) (r.readS b)) s)
def execSmulhz (d a b : Fin 64) (s : State) : Out := .next (uniform [a, b] d (fun r => mulhz64 (r.readS a) (r.readS b)) s)
def execSand (d a b : Fin 64) (s : State) : Out := .next (uniform [a, b] d (fun r => r.readS a &&& r.readS b) s)
def execSor (d a b : Fin 64) (s : State) : Out := .next (uniform [a, b] d (fun r => r.readS a ||| r.readS b) s)
def execSxor (d a b : Fin 64) (s : State) : Out := .next (uniform [a, b] d (fun r => r.readS a ^^^ r.readS b) s)
def execSshl (d a b : Fin 64) (s : State) : Out := .next (uniform [a, b] d (fun r => shl64 (r.readS a) (r.readS b)) s)
def execSshr (d a b : Fin 64) (s : State) : Out := .next (uniform [a, b] d (fun r => shr64 (r.readS a) (r.readS b)) s)
def execSsar (d a b : Fin 64) (s : State) : Out := .next (uniform [a, b] d (fun r => sar64 (r.readS a) (r.readS b)) s)
def execSmin (d a b : Fin 64) (s : State) : Out :=
  .next (uniform [a, b] d (fun r => if (r.readS b).slt (r.readS a) then r.readS b else r.readS a) s)
def execSmax (d a b : Fin 64) (s : State) : Out :=
  .next (uniform [a, b] d (fun r => if (r.readS a).slt (r.readS b) then r.readS b else r.readS a) s)
def execSminz (d a b : Fin 64) (s : State) : Out :=
  .next (uniform [a, b] d (fun r => if (r.readS b).ult (r.readS a) then r.readS b else r.readS a) s)
def execSmaxz (d a b : Fin 64) (s : State) : Out :=
  .next (uniform [a, b] d (fun r => if (r.readS a).ult (r.readS b) then r.readS b else r.readS a) s)
def execScmp (d a b : Fin 64) (cc : Fin 16) (s : State) : Out :=
  .next (uniform [a, b] d (fun r => if condInt true 64 cc.val (r.readS a).toNat (r.readS b).toNat then 1 else 0) s)
def execSsel (d a b c : Fin 64) (s : State) : Out :=
  .next (uniform [a, b, c] d (fun r => if r.readS c = 0 then r.readS b else r.readS a) s)
def execSmov (d a : Fin 64) (s : State) : Out := .next (uniform [a] d (fun r => r.readS a) s)
def execSpopc (d a : Fin 64) (s : State) : Out :=
  .next (uniform [a] d (fun r => BitVec.ofNat 64 (popcount 64 (r.readS a).toNat)) s)
def execSclz (d a : Fin 64) (s : State) : Out :=
  .next (uniform [a] d (fun r => BitVec.ofNat 64 (leadingZeros 64 (r.readS a).toNat)) s)
def execSaddi (d a : Fin 64) (imm : BitVec 12) (s : State) : Out := .next (uniform [a] d (fun r => r.readS a + sext12 imm) s)
def execSandi (d a : Fin 64) (imm : BitVec 12) (s : State) : Out := .next (uniform [a] d (fun r => r.readS a &&& sext12 imm) s)
def execSori (d a : Fin 64) (imm : BitVec 12) (s : State) : Out := .next (uniform [a] d (fun r => r.readS a ||| sext12 imm) s)
def execSshli (d a n : Fin 64) (s : State) : Out := .next (uniform [a] d (fun r => r.readS a <<< n.val) s)
def execSshri (d a n : Fin 64) (s : State) : Out := .next (uniform [a] d (fun r => r.readS a >>> n.val) s)
def execSmovk (d : Fin 64) (sh : Fin 4) (imm : BitVec 16) (s : State) : Out :=
  .next (uniform [] d (fun r => putK (r.readS d) sh imm) s)
def execSmovz (d : Fin 64) (sh : Fin 4) (imm : BitVec 16) (s : State) : Out := .next (uniform [] d (fun _ => immK sh imm) s)
def execSlimm (d : Fin 64) (lit : BitVec 64) (s : State) : Out := .next (uniform [] d (fun _ => lit) s)

/-- The lane that SRDL reads (R112). -/
def srdlLane (r : Regs) (b : Fin 64) (n : Fin 32) : Fin 32 := fin 32 ((r.readS b).toNat % 32 + n.val)

/-- SRDL (R112): the marker of v[A] in the lane read is that of R100. -/
def execSrdl (d a b : Fin 64) (n : Fin 32) (s : State) : Out :=
  .next (checked [⟨.s, b.val, s.lanes⟩] s fun s =>
    let r := s.focus.r
    let l := srdlLane r b n
    if hasLane r.tmask l && r.markedRead s.clause.header.wait a.val l then s.raise (hazardFlt a.val)
    else checked [⟨.s, d.val, s.lanes⟩] s fun s =>
      s.mapR fun r => r.writeS d (if hasLane r.tmask l then (r.readV a l).val else 0))

end Sys2Proof.Machine
end

