-- ==== Sys2Proof/Machine/Integer.lean ====
section
/-! DEFINITION. The vector integer, logic, compare, select, predicate and immediate instructions (R119 to R125). -/
namespace Sys2Proof.Machine

/-- The common tag of the operands, where they carry one. -/
def commonTag : List (Fin 16) → Option (Fin 16)
  | [] => none
  | t :: ts => if ts.all (· == t) then some t else none

/-- The tag that counts the guard: the result tag where there is one, else operand A's (R61). -/
def countBy (result : List (Fin 16) → Option (Fin 16)) (ts : List (Fin 16)) : Fin 16 := (result ts).getD (ts.headD 0)

/-- Common tag within the accepted family, else FORMAT (R55). -/
def tagIf (ok : Fin 16 → Bool) (ts : List (Fin 16)) : Option (Fin 16) := (commonTag ts).filter ok

/-- The common tag of the sources whatever its family: what a guard is counted in for an arithmetic result (R61). -/
def countCommon (ts : List (Fin 16)) : Fin 16 := ts.headD 0

/-- R56: the common tag, or RAW where the sources differ or one is a handle. -/
def logicTag (ts : List (Fin 16)) : Fin 16 :=
  match commonTag ts with
  | some t => if t = tHND then tRAW else t
  | none => tRAW

def rawAt (raws : List Dword) (k : Nat) : Dword := raws.getD k 0

/-- No register beside the operands. -/
def noUses : List (Fin 32) → List Use := fun _ => []

/-- The issue of a VI instruction under its RX words. -/
def State.viIssue (v : VOp) (rx : Option Rx) (fs : Bool) (s : State) : Out :=
  .next (s.vecIssue v (rxGuard rx) (idxLong s.clause rx fs) id)

/-- An arithmetic instruction (R122): exact on the elements, then saturated where `sat`, then wrapped; the operands
carry one tag that `ok` accepts (R121). -/
def arithOp (ok : Fin 16 → Bool) (sat : Bool) (ops : List Operand) (d : Fin 64) (f : Nat → List Int → Int) : VOp where
  ops := ops
  dst := .v d
  count := countCommon
  result := tagIf ok
  elem := fun ts raws _ _ e _ =>
    let T := ts.headD 0
    let w := tagWidth T
    let x := f w (raws.map fun x => elemInt T (elemOf w e x))
    let (y, hit) := if sat then saturate (tagSigned T) w x else (x, false)
    some (wrapInt w y, if hit then fSAT else 0)
  uses := noUses

def int1 (f : Int → Int) : Nat → List Int → Int := fun _ l => f (l.getD 0 0)
def int2 (f : Int → Int → Int) : Nat → List Int → Int := fun _ l => f (l.getD 0 0) (l.getD 1 0)

def opA (a : Fin 64) (rx : Option Rx) : Operand := ⟨a, rxA rx⟩
def opB (b : Fin 64) (rx : Option Rx) : Operand := ⟨b, rxB rx⟩
def opC (c : Fin 64) (rx : Option Rx) : Operand := ⟨c, rxC rx⟩

def execVadd (d a b : Fin 64) (fs : Bool) (rx : Option Rx) (s : State) : Out :=
  s.viIssue (arithOp tagInt false [opA a rx, opB b rx] d (int2 fun x y => x + y)) rx fs
def execVsub (d a b : Fin 64) (fs : Bool) (rx : Option Rx) (s : State) : Out :=
  s.viIssue (arithOp tagInt false [opA a rx, opB b rx] d (int2 fun x y => x - y)) rx fs
def execVadds (d a b : Fin 64) (fs : Bool) (rx : Option Rx) (s : State) : Out :=
  s.viIssue (arithOp tagInt true [opA a rx, opB b rx] d (int2 fun x y => x + y)) rx fs
def execVsubs (d a b : Fin 64) (fs : Bool) (rx : Option Rx) (s : State) : Out :=
  s.viIssue (arithOp tagInt true [opA a rx, opB b rx] d (int2 fun x y => x - y)) rx fs
def execVmul (d a b : Fin 64) (fs : Bool) (rx : Option Rx) (s : State) : Out :=
  s.viIssue (arithOp tagInt (rxSat rx) [opA a rx, opB b rx] d (int2 fun x y => x * y)) rx fs
def execVmulh (d a b : Fin 64) (fs : Bool) (rx : Option Rx) (s : State) : Out :=
  s.viIssue (arithOp tagInt false [opA a rx, opB b rx] d
    (fun w l => l.getD 0 0 * l.getD 1 0 / ((2 ^ w : Nat) : Int))) rx fs
def execVmad (d a b c : Fin 64) (fs : Bool) (rx : Option Rx) (s : State) : Out :=
  s.viIssue (arithOp tagInt (rxSat rx) [opA a rx, opB b rx, opC c rx] d
    (fun _ l => l.getD 0 0 * l.getD 1 0 + l.getD 2 0)) rx fs
def execVmin (d a b : Fin 64) (fs : Bool) (rx : Option Rx) (s : State) : Out :=
  s.viIssue (arithOp tagInt false [opA a rx, opB b rx] d (int2 min)) rx fs
def execVmax (d a b : Fin 64) (fs : Bool) (rx : Option Rx) (s : State) : Out :=
  s.viIssue (arithOp tagInt false [opA a rx, opB b rx] d (int2 max)) rx fs
def execVabs (d a : Fin 64) (fs : Bool) (rx : Option Rx) (s : State) : Out :=
  s.viIssue (arithOp tagSigned (rxSat rx) [opA a rx] d (int1 fun x => (x.natAbs : Int))) rx fs
def execVneg (d a : Fin 64) (fs : Bool) (rx : Option Rx) (s : State) : Out :=
  s.viIssue (arithOp tagSigned (rxSat rx) [opA a rx] d (int1 fun x => -x)) rx fs
def execVabsd (d a b : Fin 64) (fs : Bool) (rx : Option Rx) (s : State) : Out :=
  s.viIssue (arithOp tagInt (rxSat rx) [opA a rx, opB b rx] d (int2 fun x y => ((x - y).natAbs : Int))) rx fs

/-- VMOV (R121, R122): the value and tag of A, of any tag. -/
def execVmov (d a : Fin 64) (fs : Bool) (rx : Option Rx) (s : State) : Out :=
  s.viIssue { ops := [opA a rx], dst := .v d, count := countCommon, result := commonTag, uses := noUses,
              elem := fun ts raws _ _ e _ => some (elemOf (tagWidth (ts.headD 0)) e (rawAt raws 0), 0) } rx fs

/-- A logic, shift, bit-field or bit-count instruction (R56, R121, R123): computed over A's positions of width w on the
operands read in A's layout, then written by the positions of the result tag. `f` takes w, whether A's tag is signed,
and the elements. -/
def logicOp (ops : List Operand) (d : Fin 64) (f : Nat → Bool → List Nat → Nat) : VOp where
  ops := ops
  dst := .v d
  count := logicTag
  result := fun ts => some (logicTag ts)
  elem := fun ts raws _ _ e _ =>
    let A := ts.headD 0
    let w := tagWidth A
    let at' := fun i => f w (tagSigned A) (raws.map (elemOf w i))
    let R := logicTag ts
    if tagWidth R = w then some (at' e, 0)
    else some (((List.range (64 / w)).map fun i => at' i * 2 ^ (w * i)).sum, 0)
  uses := noUses

def nat1 (f : Nat → Nat → Nat) : Nat → Bool → List Nat → Nat := fun w _ l => f w (l.getD 0 0)
def nat2 (f : Nat → Nat → Nat → Nat) : Nat → Bool → List Nat → Nat := fun w _ l => f w (l.getD 0 0) (l.getD 1 0)

def execVand (d a b : Fin 64) (fs : Bool) (rx : Option Rx) (s : State) : Out :=
  s.viIssue (logicOp [opA a rx, opB b rx] d (nat2 fun _ x y => x &&& y)) rx fs
def execVor (d a b : Fin 64) (fs : Bool) (rx : Option Rx) (s : State) : Out :=
  s.viIssue (logicOp [opA a rx, opB b rx] d (nat2 fun _ x y => x ||| y)) rx fs
def execVxor (d a b : Fin 64) (fs : Bool) (rx : Option Rx) (s : State) : Out :=
  s.viIssue (logicOp [opA a rx, opB b rx] d (nat2 fun _ x y => x ^^^ y)) rx fs
def execVandn (d a b : Fin 64) (fs : Bool) (rx : Option Rx) (s : State) : Out :=
  s.viIssue (logicOp [opA a rx, opB b rx] d (nat2 fun w x y => x &&& notBits w y)) rx fs
def execVnot (d a : Fin 64) (fs : Bool) (rx : Option Rx) (s : State) : Out :=
  s.viIssue (logicOp [opA a rx] d (nat1 notBits)) rx fs
def execVshl (d a b : Fin 64) (fs : Bool) (rx : Option Rx) (s : State) : Out :=
  s.viIssue (logicOp [opA a rx, opB b rx] d (nat2 shlBits)) rx fs
def execVshr (d a b : Fin 64) (fs : Bool) (rx : Option Rx) (s : State) : Out :=
  s.viIssue (logicOp [opA a rx, opB b rx] d (nat2 shrBits)) rx fs
def execVsar (d a b : Fin 64) (fs : Bool) (rx : Option Rx) (s : State) : Out :=
  s.viIssue (logicOp [opA a rx, opB b rx] d (nat2 sarBits)) rx fs
def execVrol (d a b : Fin 64) (fs : Bool) (rx : Option Rx) (s : State) : Out :=
  s.viIssue (logicOp [opA a rx, opB b rx] d (nat2 rolBits)) rx fs

/-- VBFX (R123). -/
def bfx (w : Nat) (signed : Bool) (a p n : Nat) : Nat :=
  if w ≤ p || n = 0 then 0
  else
    let m := min n (w - p)
    let x := a / 2 ^ p % 2 ^ m
    if signed then wrapInt w (signedOf m x) else x

/-- VBFI (R123). -/
def bfi (w old a p n : Nat) : Nat :=
  if w ≤ p || n = 0 then old
  else
    let m := (2 ^ min n (w - p) - 1) * 2 ^ p
    (old &&& notBits w m) ||| (a * 2 ^ p &&& m)

def execVbfx (d a b c : Fin 64) (fs : Bool) (rx : Option Rx) (s : State) : Out :=
  s.viIssue (logicOp [opA a rx, opB b rx, opC c rx] d
    (fun w sg l => bfx w sg (l.getD 0 0) (l.getD 1 0) (l.getD 2 0))) rx fs
def execVbfi (d a b c : Fin 64) (fs : Bool) (rx : Option Rx) (s : State) : Out :=
  s.viIssue (logicOp [opA a rx, opB b rx, opC c rx, ⟨d, .none⟩] d
    (fun w _ l => bfi w (l.getD 3 0) (l.getD 0 0) (l.getD 1 0) (l.getD 2 0))) rx fs
def execVpopc (d a : Fin 64) (fs : Bool) (rx : Option Rx) (s : State) : Out :=
  s.viIssue (logicOp [opA a rx] d (nat1 popcount)) rx fs
def execVclz (d a : Fin 64) (fs : Bool) (rx : Option Rx) (s : State) : Out :=
  s.viIssue (logicOp [opA a rx] d (nat1 leadingZeros)) rx fs
def execVbrev (d a : Fin 64) (fs : Bool) (rx : Option Rx) (s : State) : Out :=
  s.viIssue (logicOp [opA a rx] d (nat1 bitReverse)) rx fs

/-- VCMP (R124): the guard is counted in A's tag, the common tag. -/
def execVcmp (d : Fin 8) (a b : Fin 64) (cc : Fin 16) (fs : Bool) (rx : Option Rx) (s : State) : Out :=
  s.viIssue { ops := [opA a rx, opB b rx], dst := .q d, count := countCommon, result := tagIf tagInt, uses := noUses,
              elem := fun ts raws _ _ e _ =>
                let w := tagWidth (ts.headD 0)
                let hit := condInt (tagSigned (ts.headD 0)) w cc.val (elemOf w e (rawAt raws 0)) (elemOf w e (rawAt raws 1))
                some (if hit then 1 else 0, 0) } rx fs

/-- VSEL (R124): A where bit (w·e)/8 of q[C] of the thread is 1, else B; A and B carry one tag. -/
def execVsel (d a b : Fin 64) (q : Fin 8) (fs : Bool) (rx : Option Rx) (s : State) : Out :=
  let r := s.focus.r
  s.viIssue { ops := [opA a rx, opB b rx], dst := .v d, count := countCommon, result := commonTag,
              uses := fun act => [⟨.q, q.val, act⟩],
              elem := fun ts raws _ t e _ =>
                let w := tagWidth (ts.headD 0)
                some (elemOf w e (rawAt raws (if (r.readQ q t).getLsbD (w * e / 8) then 0 else 1)), 0) } rx fs

/-- The VQOP operations (R119): bit values x and y. -/
def qopBit (op : Nat) (x y : Bool) : Bool :=
  match op with
  | 0 => x && y
  | 1 => x || y
  | 2 => x != y
  | 3 => x && !y
  | 4 => !x
  | _ => x

/-- VQOP (R124): guard bit i governs q bit i. NOT and MOV read no B. -/
def execVqop (d a b op : Fin 8) (rx : Option Rx) (s : State) : Out :=
  let r := s.focus.r
  s.viIssue { ops := [], dst := .q d, count := fun _ => tZ8, result := fun _ => some tZ8,
              uses := fun act => ⟨.q, a.val, act⟩ :: (if op.val < 4 then [⟨.q, b.val, act⟩] else []),
              elem := fun _ _ _ t e _ =>
                some (if qopBit op.val ((r.readQ a t).getLsbD e) ((r.readQ b t).getLsbD e) then 1 else 0, 0) } rx false

/-- VQMOV (R124): direction 0 tests the bytes of the routed v[A], direction 1 spreads q[A] over v[D] with tag z8. -/
def execVqmov (d a : Fin 64) (dir fs : Bool) (rx : Option Rx) (s : State) : Out :=
  let r := s.focus.r
  if dir then
    s.viIssue { ops := [], dst := .v d, count := fun _ => tZ8, result := fun _ => some tZ8,
                uses := fun act => [⟨.q, a.val, act⟩],
                elem := fun _ _ _ t e _ => some (if (r.readQ (fin 8 a.val) t).getLsbD e then 255 else 0, 0) } rx fs
  else
    s.viIssue { ops := [opA a rx], dst := .q (fin 8 d.val), count := fun _ => tZ8, result := fun _ => some tZ8, uses := noUses,
                elem := fun _ raws _ _ e _ => some (elemOf 8 e (rawAt raws 0), 0) } rx fs

/-- VADDI (R122). -/
def execVaddi (d a : Fin 64) (imm : BitVec 12) (rx : Option Rx) (s : State) : Out :=
  s.viIssue (arithOp tagInt false [opA a rx] d (int1 fun x => x + imm.toInt)) rx false
/-- sext(IMM12) truncated to w bits (R123). -/
def immBits (imm : BitVec 12) (w : Nat) : Nat := wrapInt w imm.toInt
def execVandi (d a : Fin 64) (imm : BitVec 12) (rx : Option Rx) (s : State) : Out :=
  s.viIssue (logicOp [opA a rx] d (nat1 fun w x => x &&& immBits imm w)) rx false
def execVori (d a : Fin 64) (imm : BitVec 12) (rx : Option Rx) (s : State) : Out :=
  s.viIssue (logicOp [opA a rx] d (nat1 fun w x => x ||| immBits imm w)) rx false
def execVxori (d a : Fin 64) (imm : BitVec 12) (rx : Option Rx) (s : State) : Out :=
  s.viIssue (logicOp [opA a rx] d (nat1 fun w x => x ^^^ immBits imm w)) rx false
def execVshli (d a n : Fin 64) (rx : Option Rx) (s : State) : Out :=
  s.viIssue (logicOp [opA a rx] d (nat1 fun w x => shlBits w x n.val)) rx false
def execVshri (d a n : Fin 64) (rx : Option Rx) (s : State) : Out :=
  s.viIssue (logicOp [opA a rx] d (nat1 fun w x => shrBits w x n.val)) rx false
def execVsari (d a n : Fin 64) (rx : Option Rx) (s : State) : Out :=
  s.viIssue (logicOp [opA a rx] d (nat1 fun w x => sarBits w x n.val)) rx false

/-- A 64-bit constant with its tag in every active thread (R124, R143). -/
def constOp (d : Fin 64) (x : Dword) (tag : Fin 16) : VOp where
  ops := []
  dst := .v d
  count := fun _ => tag
  result := fun _ => some tag
  elem := fun _ _ _ _ e _ => some (elemOf (tagWidth tag) e x, 0)
  uses := noUses

def execVmovi (d : Fin 64) (sh : Fin 4) (imm : BitVec 16) (rx : Option Rx) (s : State) : Out :=
  s.viIssue (constOp d (immK sh imm) tZ64) rx false
def execVlimm (d : Fin 64) (lit : BitVec 64) (s : State) : Out := s.viIssue (constOp d lit tZ64) none false

/-- VIOTA (R124): s[A] is read once for the issue. -/
def execViota (d a : Fin 64) (tag : Fin 16) (rx : Option Rx) (s : State) : Out :=
  let r := s.focus.r
  let lanes := s.lanes
  s.viIssue { ops := [], dst := .v d, count := fun _ => tag, result := fun _ => some tag,
              uses := fun act => if act.isEmpty then [] else [⟨.s, a.val, lanes⟩],
              elem := fun _ _ _ t e _ =>
                some (((r.readS a).toNat + tagCount tag * t.val + e) % 2 ^ tagWidth tag, 0) } rx false

end Sys2Proof.Machine
end

