-- ==== Sys2Proof/Machine/Crewwide.lean ====
section
/-! DEFINITION. The crew-wide VI instructions (R105 to R111). -/
namespace Sys2Proof.Machine

/-- A crew-wide instruction (R106): the guard counts one position, a participating thread writes its whole
destination, no tag family is checked. `f` gives the value of a participating thread, `tag` the result tag. -/
def wideOp (ops : List Operand) (dst : Dst) (tag : Fin 16) (f : Fin 32 → Nat) : VOp where
  ops := ops
  dst := dst
  count := fun _ => tRAW
  result := fun _ => some tag
  elem := fun _ _ _ t _ _ => some (f t, 0)
  uses := noUses

/-- The participating threads (R106). -/
def State.participating (s : State) (rx : Option Rx) : List (Fin 32) :=
  s.lanes.filter fun t => posActive s.focus.r (rxGuard rx) 1 t 0

/-- The routed 64-bit value and the tag of A in a thread. -/
def routedVal (r : Regs) (o : Operand) (t : Fin 32) : Dword × Fin 16 := (o.whole r t, o.tag r t)

/-- VVOTE (R107). -/
def execVvote (d : Fin 8) (a : Fin 64) (mode : Fin 4) (fs : Bool) (rx : Option Rx) (s : State) : Out :=
  let r := s.focus.r
  let o := opA a rx
  let xs := (s.participating rx).map (routedVal r o)
  let res := match mode.val with
    | 0 => xs.all fun x => x.1 != 0
    | 1 => xs.any fun x => x.1 != 0
    | _ => xs.all fun x => x == xs.headD (0, 0)
  s.viIssue (wideOp [o] (.q d) tRAW fun _ => if res then 1 else 0) rx fs

/-- The mask of the threads of a list for which `p` holds (R108). -/
def maskOf (l : List (Fin 32)) (p : Fin 32 → Bool) : Nat := ((l.filter p).map fun t => 2 ^ t.val).sum

/-- VBALLOT (R108). -/
def execVballot (d a : Fin 64) (fs : Bool) (rx : Option Rx) (s : State) : Out :=
  let r := s.focus.r
  let o := opA a rx
  let m := maskOf (s.participating rx) fun t => (o.whole r t) != 0
  s.viIssue (wideOp [o] (.v d) tZ64 fun _ => m) rx fs

/-- VMATCH (R109). -/
def execVmatch (d a : Fin 64) (fs : Bool) (rx : Option Rx) (s : State) : Out :=
  let r := s.focus.r
  let o := opA a rx
  let part := s.participating rx
  s.viIssue (wideOp [o] (.v d) tZ64 fun t => maskOf part fun u => routedVal r o u == routedVal r o t) rx fs

/-- VFIRST (R110): value and tag, HND included (log entry 106), of the lowest-numbered participating thread. -/
def execVfirst (d a : Fin 64) (fs : Bool) (rx : Option Rx) (s : State) : Out :=
  let r := s.focus.r
  let o := opA a rx
  let t0 := (s.participating rx).headD 0
  s.viIssue (wideOp [o] (.v d) (o.tag r t0) fun _ => (o.whole r t0).toNat) rx fs

/-- VACTIVE (R108): the participating threads, with their count in [37:32]. -/
def execVactive (d : Fin 64) (rx : Option Rx) (s : State) : Out :=
  let part := s.participating rx
  s.viIssue (wideOp [] (.v d) tZ64 fun _ => maskOf part (fun _ => true) + part.length * 2 ^ 32) rx false

/-- VWRL (R111): the routed value with one position of one lane replaced by s[B]. -/
def execVwrl (d a b c : Fin 64) (fs : Bool) (rx : Option Rx) (s : State) : Out :=
  let r := s.focus.r
  let lanes := s.lanes
  let l := (r.readS c).toNat % 32
  let k := (r.readS c).toNat / 32 % 8
  s.viIssue { ops := [opA a rx], dst := .v d, count := countCommon,
              result := fun ts => (commonTag ts).filter (· != tHND),
              uses := fun act => if act.isEmpty then [] else [⟨.s, b.val, lanes⟩, ⟨.s, c.val, lanes⟩],
              elem := fun ts raws _ t e _ =>
                let w := tagWidth (ts.headD 0)
                let n := tagCount (ts.headD 0)
                some (if t.val = l && e = k % n then (r.readS b).toNat % 2 ^ w else elemOf w e (rawAt raws 0), 0) } rx fs

end Sys2Proof.Machine
end

