-- ==== Sys2Proof/Machine/Float.lean ====
section
/-! DEFINITION. The floating-point formats (R127 to R131) as exact values, and the one rounding of an exact value into
a format (R132 to R135). An exact value is a sign with a magnitude m × 2^e; `sticky` says that the true magnitude lies
strictly between m and m + 1 units of 2^e. -/
namespace Sys2Proof.Machine

/-- A decoded floating-point element. -/
inductive FVal where
  | nan (signalling : Bool)
  | inf (neg : Bool)
  | num (neg : Bool) (m : Nat) (e : Int)
  deriving DecidableEq, Repr

/-- Exponent and fraction bits of a binary format (R127). -/
structure Fmt where
  eb : Nat
  fb : Nat
  deriving DecidableEq, Repr

/-- The binary formats of R127, by tag. -/
def fmtOf (t : Fin 16) : Option Fmt :=
  match t.val with
  | 9 => some ⟨5, 10⟩
  | 10 => some ⟨8, 7⟩
  | 11 => some ⟨8, 23⟩
  | 12 => some ⟨11, 52⟩
  | _ => none

def Fmt.bias (f : Fmt) : Nat := 2 ^ (f.eb - 1) - 1
/-- The exponent of the smallest normal magnitude. -/
def Fmt.emin (f : Fmt) : Int := 1 - (f.bias : Int)
def Fmt.signBit (f : Fmt) : Nat := 2 ^ (f.eb + f.fb)
def Fmt.infBits (f : Fmt) : Nat := (2 ^ f.eb - 1) * 2 ^ f.fb
def Fmt.maxBits (f : Fmt) : Nat := f.infBits - 1
def Fmt.nanBits (f : Fmt) : Nat := f.infBits + 2 ^ (f.fb - 1)

/-- The value of a pattern of a binary format (R127, R128). -/
def Fmt.decode (f : Fmt) (n : Nat) : FVal :=
  let neg := bit n (f.eb + f.fb)
  let ex := bits n f.fb f.eb
  let fr := bits n 0 f.fb
  if ex = 2 ^ f.eb - 1 then (if fr = 0 then .inf neg else .nan (decide (fr < 2 ^ (f.fb - 1))))
  else if ex = 0 then .num neg fr (f.emin - f.fb)
  else .num neg (2 ^ f.fb + fr) (f.emin - f.fb + (ex - 1 : Nat))

/-- The magnitude of an m8 body (R129) in units of 2^−11. -/
def m8Mag (body : Nat) : Nat :=
  if body = 0 then 0
  else if 64 ≤ body then (16 + body % 16) * 2 ^ (bits body 4 2 + 7)
  else if 32 ≤ body then (8 + body % 8) * 2 ^ (bits body 3 2 + 4)
  else if 16 ≤ body then (4 + body % 4) * 2 ^ (bits body 2 2 + 13)
  else if 8 ≤ body then (2 + body % 2) * 2 ^ (bits body 1 2 + 2)
  else if 4 ≤ body then 2 ^ (body % 4 + 19)
  else if 2 ≤ body then 2 ^ (body % 2 + 1)
  else 1

/-- The value of an m8 code under a block scale 2^scale (R65, R129, R130); NaR counts as a quiet NaN. -/
def m8Decode (n : Nat) (scale : Int) : FVal :=
  if n = 0x80 then .nan false
  else .num (decide (128 ≤ n) && n % 128 != 0) (m8Mag (n % 128)) (if n % 128 = 0 then 0 else scale - 11)

/-- An element of a register of a float tag; `scale` is the block scale exponent, used by m8 alone. -/
def fdecode (t : Fin 16) (scale : Int) (n : Nat) : FVal :=
  match fmtOf t with
  | some f => f.decode n
  | none => m8Decode n scale

def FVal.isNan : FVal → Bool
  | .nan _ => true
  | _ => false
def FVal.isSnan : FVal → Bool
  | .nan true => true
  | _ => false
def FVal.isInf : FVal → Bool
  | .inf _ => true
  | _ => false
def FVal.isZero : FVal → Bool
  | .num _ 0 _ => true
  | _ => false
/-- The sign; a NaN has none. -/
def FVal.sign : FVal → Bool
  | .nan _ => false
  | .inf n => n
  | .num n _ _ => n
def FVal.negate : FVal → FVal
  | .nan s => .nan s
  | .inf n => .inf (!n)
  | .num n m e => .num (!n) m e

/-- Rounding: the effective code 1 to 6 (R132, R133), SAT, and for code 6 the drawn value u of m bits (R134). -/
structure Rounding where
  code : Nat
  sat : Bool
  u : Nat
  ubits : Nat
  deriving DecidableEq, Repr

/-- RNE without SAT. -/
def rne : Rounding := ⟨1, false, 0, 0⟩

/-- Whether the magnitude k + rem/den (a little more where `sticky`) rounds up to k + 1 (R132, R133). -/
def roundsUp (r : Rounding) (neg : Bool) (k rem den : Nat) (sticky : Bool) : Bool :=
  match r.code with
  | 1 => decide (den < 2 * rem) || (2 * rem == den && (sticky || k % 2 == 1))
  | 3 => !neg && (rem != 0 || sticky)
  | 4 => neg && (rem != 0 || sticky)
  | 5 => decide (den ≤ 2 * rem)
  | 6 => decide (r.u * den < rem * 2 ^ r.ubits)
  | _ => false

/-- A pattern with the flags it raises. -/
abbrev Rounded := Nat × FpFlags

def withSign (f : Fmt) (neg : Bool) (n : Nat) : Nat := if neg then n + f.signBit else n

/-- An overflow whose result by the rounding code is infinite (R132); by the others it is the largest finite value. -/
def overflowsAway (r : Rounding) (neg : Bool) : Bool :=
  !(r.code == 2 || (r.code == 3 && neg) || (r.code == 4 && !neg))

/-- The result of an overflow (R132): infinity or the largest finite value by the rounding code, and with SAT the
largest finite value with the SAT flag in place of an infinity. -/
def overflowResult (f : Fmt) (r : Rounding) (neg : Bool) : Rounded :=
  if overflowsAway r neg then
    (if r.sat then (withSign f neg f.maxBits, fOF ||| fNX ||| fSAT) else (withSign f neg f.infBits, fOF ||| fNX))
  else (withSign f neg f.maxBits, fOF ||| fNX)

/-- An exact nonzero magnitude rounded once to a binary format (R132, R133, R135, R150, R152). -/
def roundBin (f : Fmt) (r : Rounding) (neg : Bool) (m : Nat) (e : Int) (sticky : Bool) : Rounded :=
  let top : Int := (Nat.log2 m : Int) + e
  let tiny := decide (top < f.emin)
  let q : Int := (if tiny then f.emin else top) - f.fb
  let sh := (q - e).toNat
  let den : Nat := 2 ^ sh
  let k := if q ≤ e then m * 2 ^ (e - q).toNat else m / den
  let rem := if q ≤ e then 0 else m % den
  let inexact := rem != 0 || sticky
  let k' := if roundsUp r neg k rem den sticky then k + 1 else k
  let n := (q - (f.emin - f.fb)).toNat * 2 ^ f.fb + k'
  if f.infBits ≤ n then overflowResult f r neg
  else
    (withSign f neg n, (if inexact then fNX else 0) ||| (if inexact && tiny then fUF else 0))

/-- A zero of a format with its sign. -/
def zeroBits (f : Fmt) (neg : Bool) : Nat := withSign f neg 0

/-- An exact infinite result (R132): itself, or with SAT the largest finite value with SAT and NX. -/
def infResult (f : Fmt) (r : Rounding) (neg : Bool) : Rounded :=
  if r.sat then (withSign f neg f.maxBits, fSAT ||| fNX) else (withSign f neg f.infBits, 0)

/-- The bodies of m8 in order of magnitude (R129), zero first. -/
def m8Bodies : List Nat :=
  (List.range 4) ++ (List.range 8).map (· + 8) ++ (List.range 32).map (· + 32) ++ (List.range 64).map (· + 64) ++
    (List.range 16).map (· + 16) ++ (List.range 4).map (· + 4)

/-- The bodies whose magnitudes bracket num/den units of 2^−11: the greatest not above it, and the next. -/
def m8Bracket (num den : Nat) : List Nat → Nat × Nat
  | [] => (7, 7)
  | [b] => (b, b)
  | b :: b' :: bs => if num < m8Mag b' * den then (b, b') else m8Bracket num den (b' :: bs)

/-- R131: an exact scaled magnitude m × 2^e rounded into m8. -/
def roundM8 (r : Rounding) (neg : Bool) (m : Nat) (e : Int) : Rounded :=
  let s := if neg then 128 else 0
  let up := (e + 11).toNat
  let den : Nat := 2 ^ (-(e + 11)).toNat
  let x := m * 2 ^ up
  if 2 ^ 22 * den < x then (s + 7, fOF ||| fNX ||| fSAT)
  else
    let (b0, b1) := m8Bracket x den m8Bodies
    let lo := m8Mag b0 * den
    let gap := m8Mag b1 * den - lo
    let rem := x - lo
    let pick := match r.code with
      | 1 => decide (gap < 2 * rem) || (2 * rem == gap && b1 % 2 == 0)
      | _ => roundsUp r neg 0 rem gap false
    let b := if rem != 0 && pick then b1 else b0
    let inexact := rem != 0
    (if b = 0 then 0 else s + b,
      (if inexact then fNX else 0) ||| (if inexact && decide (x < den) then fUF else 0))

/-- A float value rounded once into a destination tag of the float family: `scale` is the destination's block scale
exponent for m8 (R131, R138, R151). A signalling NaN sets NV (R135). -/
def roundTo (t : Fin 16) (scale : Int) (r : Rounding) : FVal → Rounded
  | .nan s => ((match fmtOf t with | some f => f.nanBits | none => 0x80), if s then fNV else 0)
  | .inf neg => match fmtOf t with
    | some f => infResult f r neg
    | none => (if neg then 0x87 else 0x07, fOF ||| fNX ||| fSAT)
  | .num neg m e => match fmtOf t with
    | some f => if m = 0 then (zeroBits f neg, 0) else roundBin f r neg m e false
    | none => if m = 0 then (0, 0) else roundM8 r neg m (e - scale)

/-- The magnitude m × 2^e rounded to an integer (R138, R154): the integer, and whether it changed. -/
def roundToNat (r : Rounding) (neg : Bool) (m : Nat) (e : Int) : Nat × Bool :=
  if 0 ≤ e then (m * 2 ^ e.toNat, false)
  else
    let den : Nat := 2 ^ (-e).toNat
    let k := m / den
    let rem := m % den
    (if rem != 0 && roundsUp r neg k rem den false then k + 1 else k, rem != 0)

/-- A float converted to an integer tag (R135, R138); a draw of code 6 comes before the check of the range (log entry 108). -/
def floatToInt (t : Fin 16) (r : Rounding) : FVal → Rounded
  | .nan _ => (0, fNV)
  | .inf neg =>
    (wrapInt (tagWidth t) (if neg then intMin (tagSigned t) (tagWidth t) else intMax (tagSigned t) (tagWidth t)),
      fNV ||| fSAT ||| fNX)
  | .num neg m e =>
    let (k, inexact) := roundToNat r neg m e
    let x : Int := if neg then -(k : Int) else k
    let (y, out) := saturate (tagSigned t) (tagWidth t) x
    (wrapInt (tagWidth t) y, if out then fNV ||| fSAT ||| fNX else if inexact then fNX else 0)

/-- An exact integer as a float value. -/
def intValue (x : Int) : FVal := .num (decide (x < 0)) x.natAbs 0

/-- An exact dyadic number: an integer times a power of two. -/
structure Dy where
  m : Int
  e : Int
  deriving DecidableEq, Repr

def Dy.add (x y : Dy) : Dy :=
  let e := if x.e ≤ y.e then x.e else y.e
  ⟨x.m * ((2 ^ (x.e - e).toNat : Nat) : Int) + y.m * ((2 ^ (y.e - e).toNat : Nat) : Int), e⟩

/-- The sum of dyadic numbers; a zero term adds nothing, whatever its exponent. -/
def Dy.sum (l : List Dy) : Dy := (l.filter fun d => d.m != 0).foldl Dy.add ⟨0, 0⟩

/-- A product of two float values (R150, R151): `none` where it is invalid (0 × ∞), with NaN passed on. -/
def FVal.mul : FVal → FVal → FVal
  | .nan s, y => .nan (s || y.isSnan)
  | x, .nan s => .nan (s || x.isSnan)
  | .inf n, y => if y.isZero then .nan false else .inf (n != y.sign)
  | x, .inf n => if x.isZero then .nan false else .inf (n != x.sign)
  | .num n m e, .num n' m' e' => .num (n != n') (m * m') (e + e')

/-- 0 × ∞ (R152). -/
def mulInvalid (x y : FVal) : Bool := (x.isZero && y.isInf) || (x.isInf && y.isZero)

def FVal.dy : FVal → Dy
  | .num n m e => ⟨if n then -(m : Int) else m, e⟩
  | _ => ⟨0, 0⟩

/-- An exact sum of terms rounded once (R150 to R152, R161); `nv` is set by an invalid product or a signalling NaN
among the operands; a NaN among the terms gives the canonical NaN, and so do infinities of both signs, which set NV beside
a NaN too. -/
def sumResult (f : Fmt) (r : Rounding) (nv : Bool) (terms : List FVal) : Rounded :=
  let clash := terms.any (· == .inf true) && terms.any (· == .inf false)
  let v : FpFlags := if nv || clash then fNV else 0
  if terms.any FVal.isNan || clash then (f.nanBits, v)
  else if terms.any (· == .inf true) then let (n, fl) := infResult f r true; (n, fl ||| v)
  else if terms.any (· == .inf false) then let (n, fl) := infResult f r false; (n, fl ||| v)
  else
    let s := Dy.sum (terms.map FVal.dy)
    if s.m = 0 then
      let neg := if terms.all FVal.isZero && terms.all (fun t => t.sign == (terms.headD (.num false 0 0)).sign)
        then (terms.headD (.num false 0 0)).sign else r.code == 4
      (zeroBits f neg, v)
    else
      let (n, fl) := roundBin f r (decide (s.m < 0)) s.m.natAbs s.e false
      (n, fl ||| v)

/-- The order of two float values that are no NaN, −0 equal to +0: −1, 0 or 1. -/
def fcmp3 (x y : FVal) : Int :=
  match x, y with
  | .inf a, .inf b => if a = b then 0 else if a then -1 else 1
  | .inf a, _ => if a then -1 else 1
  | _, .inf b => if b then 1 else -1
  | x, y =>
    let d := Dy.add x.dy ⟨-y.dy.m, y.dy.e⟩
    if d.m < 0 then -1 else if d.m = 0 then 0 else 1

/-- The order of FMIN and FMAX (R155), in which −0 is below +0. -/
def fless (x y : FVal) : Bool :=
  let c := fcmp3 x y
  decide (c < 0) || (c == 0 && x.sign && !y.sign)

/-- A condition code on float values (R38, R157). -/
def condFloat (cc : Nat) (x y : FVal) : Bool :=
  let un := x.isNan || y.isNan
  let c := fcmp3 x y
  match cc with
  | 0 => !un && c == 0
  | 1 => un || c != 0
  | 2 => !un && decide (c < 0)
  | 3 => !un && decide (c ≤ 0)
  | 4 => !un && decide (c > 0)
  | 5 => !un && decide (c ≥ 0)
  | 6 => un
  | 7 => !un
  | _ => false

/-- floor(log2 |x|) of a nonzero number. -/
def floorLog2 (m : Nat) (e : Int) : Int := (Nat.log2 m : Int) + e

/-- xexp of R140. -/
def xexp : FVal → Int
  | .nan _ => 32767
  | .inf _ => 32767
  | .num _ m e => if m = 0 then -32768 else max (-32768) (min 32767 (floorLog2 m e))

end Sys2Proof.Machine
end

