-- ==== Sys2Proof/Machine/Special.lean ====
section
/-! DEFINITION. The special functions (R162, R163): exact values where they are dyadic, correctly rounded enclosures
elsewhere. Reciprocal, roots and quotient are exact integer computations with a remainder; the transcendental
functions are enclosed at a precision of P bits and tried again at a higher one until both ends of the enclosure
round alike, so that the result is the rounding of the exact value. -/
namespace Sys2Proof.Machine

/-- What a special function returns before rounding: a value with its flags, or a real magnitude m × 2^e (`sticky`:
strictly between m and m + 1). -/
inductive Exact where
  | val (v : FVal) (fl : FpFlags)
  | real (neg : Bool) (m : Nat) (e : Int) (sticky : Bool)
  deriving DecidableEq, Repr

/-- A real magnitude rounded by RNE to the tag; f16 and bf16 by way of f32, with the flags of R162. -/
def roundReal (t : Fin 16) (neg : Bool) (m : Nat) (e : Int) (sticky : Bool) : Rounded :=
  match fmtOf t with
  | none => (0, 0)
  | some f =>
    if t = tF32 || t = tF64 then roundBin f rne neg m e sticky
    else
      let f32 : Fmt := ⟨8, 23⟩
      let (n1, fl1) := roundBin f32 rne neg m e sticky
      let (n2, fl2) := roundTo t 0 rne (f32.decode n1)
      let nx := (fl1 ||| fl2) &&& fNX != 0
      (n2, (if nx then fNX else 0) ||| (if n2 % f.signBit = f.infBits then fOF else 0) |||
        (if nx && decide (floorLog2 m e < f.emin) then fUF else 0))

/-- The delivered pattern and flags of a special function. -/
def Exact.finish (t : Fin 16) : Exact → Rounded
  | .val (.num neg m e) fl =>
    if m = 0 then ((match fmtOf t with | some f => zeroBits f neg | none => 0), fl)
    else let (n, fl') := roundReal t neg m e false; (n, fl ||| fl')
  | .val v fl => ((roundTo t 0 rne v).1, fl)
  | .real neg m e sticky => roundReal t neg m e sticky

/-- NaN with NV; a NaN operand gives NaN, with NV where it is signalling. -/
def exactInvalid : Exact := .val (.nan false) fNV
def exactNan (s : Bool) : Exact := .val (.nan false) (if s then fNV else 0)

/-- The integer square root, one bit at a time from bit `i − 1` down. -/
def isqrtGo (n : Nat) : Nat → Nat → Nat
  | 0, r => r
  | i + 1, r => let r' := r + 2 ^ i; isqrtGo n i (if r' * r' ≤ n then r' else r)
def isqrt (n : Nat) : Nat := isqrtGo n (Nat.log2 n / 2 + 1) 0

/-- a / b of nonzero magnitudes. -/
def exactDiv (neg : Bool) (m : Nat) (e : Int) (m' : Nat) (e' : Int) : Exact :=
  .real neg (m * 2 ^ 256 / m') (e - e' - 256) (m * 2 ^ 256 % m' != 0)

/-- FDIV (R162, R163). -/
def fdivExact : FVal → FVal → Exact
  | .nan s, y => exactNan (s || y.isSnan)
  | x, .nan s => exactNan (s || x.isSnan)
  | .inf _, .inf _ => exactInvalid
  | .inf n, y => .val (.inf (n != y.sign)) 0
  | x, .inf n => .val (.num (x.sign != n) 0 0) 0
  | .num n m e, .num n' m' e' =>
    if m' = 0 then (if m = 0 then exactInvalid else .val (.inf (n != n')) fDZ)
    else if m = 0 then .val (.num (n != n') 0 0) 0
    else exactDiv (n != n') m e m' e'

/-- FRCP. -/
def frcpExact : FVal → Exact
  | .nan s => exactNan s
  | .inf n => .val (.num n 0 0) 0
  | .num n m e => if m = 0 then .val (.inf n) fDZ else exactDiv n 1 0 m e

/-- The magnitude with an even exponent. -/
def evenExp (m : Nat) (e : Int) : Nat × Int := if e % 2 = 0 then (m, e) else (2 * m, e - 1)

/-- FSQRT. -/
def fsqrtExact : FVal → Exact
  | .nan s => exactNan s
  | .inf n => if n then exactInvalid else .val (.inf false) 0
  | .num n m e =>
    if m = 0 then .val (.num n 0 0) 0
    else if n then exactInvalid
    else
      let (m', e') := evenExp m e
      let x := m' * 2 ^ 256
      let r := isqrt x
      .real false r (e' / 2 - 128) (r * r != x)

/-- FRSQ. -/
def frsqExact : FVal → Exact
  | .nan s => exactNan s
  | .inf n => if n then exactInvalid else .val (.num false 0 0) 0
  | .num n m e =>
    if m = 0 then .val (.inf n) fDZ
    else if n then exactInvalid
    else
      let (m', e') := evenExp m e
      let r := isqrt (2 ^ 400 / m')
      .real false r (-(e' / 2) - 200) (r * r * m' != 2 ^ 400)

/-- Σ 2^P / ((2k + 1) · d^(2k + 1)), alternating or not: an inverse tangent of 1/d, hyperbolic or circular, as the
sums of its positive and of its negative terms, each below its exact value by less than a unit a term. -/
def atanInvGo (alt : Bool) (d : Nat) : Nat → Nat → Nat → Nat → Nat → Nat × Nat
  | 0, _, _, p, n => (p, n)
  | fuel + 1, k, pw, p, n =>
    let t := pw / (2 * k + 1)
    if alt && k % 2 == 1 then atanInvGo alt d fuel (k + 1) (pw / (d * d)) p (n + t)
    else atanInvGo alt d fuel (k + 1) (pw / (d * d)) (p + t) n

/-- ln 2 in units of 2^−P, at most 4P units below it. -/
def ln2Fix (P : Nat) : Nat := 2 * (atanInvGo false 3 (P / 3 + 2) 0 (2 ^ P / 3) 0 0).1

/-- π in units of 2^−P, within 32P units (Machin). -/
def piFix (P : Nat) : Nat :=
  let a := atanInvGo true 5 (P / 4 + 2) 0 (2 ^ P / 5) 0 0
  let b := atanInvGo true 239 (P / 15 + 2) 0 (2 ^ P / 239) 0 0
  (16 * a.1 + 4 * b.2) - (16 * a.2 + 4 * b.1)

/-- Σ t^k / k! in units of 2^−P, from the term numbered k. -/
def expGo (P t : Nat) : Nat → Nat → Nat → Nat → Nat
  | 0, _, _, acc => acc
  | fuel + 1, k, term, acc => expGo P t fuel (k + 1) (term * t / 2 ^ P / (k + 1)) (acc + term)
def expFix (P t : Nat) : Nat := expGo P t (P / 2 + 8) 0 (2 ^ P) 0

/-- Σ z^(2k + 1) / (2k + 1) in units of 2^−P, for 0 ≤ z < 1/3. -/
def atanhGo (P z2 : Nat) : Nat → Nat → Nat → Nat → Nat
  | 0, _, _, acc => acc
  | fuel + 1, k, pw, acc => atanhGo P z2 fuel (k + 1) (pw * z2 / 2 ^ P) (acc + pw / (2 * k + 1))

/-- The alternating series of sine (first term θ, j = 2) or cosine (first term 1, j = 1): sums of the positive and of
the negative terms. -/
def trigGo (P th2 : Nat) : Nat → Nat → Bool → Nat → Nat → Nat → Nat × Nat
  | 0, _, _, _, p, n => (p, n)
  | fuel + 1, j, neg, term, p, n =>
    let next := term * th2 / 2 ^ (2 * P) / (j * (j + 1))
    if neg then trigGo P th2 fuel (j + 2) false next p (n + term) else trigGo P th2 fuel (j + 2) true next (p + term) n

/-- sin (π r / den) for 0 ≤ r / den ≤ 1/4, or the cosine. -/
def trigFix (cos : Bool) (P r den : Nat) : Nat :=
  let th := piFix P * r / den
  let s := if cos then trigGo P (th * th) (P / 4 + 4) 1 false (2 ^ P) 0 0
    else trigGo P (th * th) (P / 4 + 4) 2 false th 0 0
  s.1 - s.2

/-- An enclosure: sign, lower and upper magnitude, exponent. -/
structure Encl where
  neg : Bool
  lo : Nat
  hi : Nat
  e : Int

/-- Rounded when both ends of the enclosure round alike. -/
def Encl.settle (t : Fin 16) (c : Encl) : Option Rounded :=
  if c.lo = 0 then none
  else
    let a := roundReal t c.neg c.lo c.e true
    let b := roundReal t c.neg c.hi c.e true
    if a = b then some a else none

/-- An enclosure from a centre and an error, both in units of 2^e. -/
def enclOf (neg : Bool) (s err : Nat) (e : Int) : Encl := ⟨neg, s - err, s + err, e⟩

/-- 2^x for x = m × 2^e, sign `neg`, no integer, below 2^10 in magnitude. -/
def exp2Encl (neg : Bool) (m : Nat) (e : Int) (P : Nat) : Encl :=
  let den : Nat := 2 ^ (-e).toNat
  let x : Int := if neg then -(m : Int) else m
  let n := x / (den : Int)
  let f : Nat := (x % (den : Int)).toNat * 2 ^ P / den
  enclOf false (expFix P (f * ln2Fix P / 2 ^ P)) (64 * P) (n - P)

/-- log2 of m × 2^e, no power of two. -/
def log2Encl (m : Nat) (e : Int) (P : Nat) : Encl :=
  let k := Nat.log2 m
  let y := m * 2 ^ P / 2 ^ k
  let z := (y - 2 ^ P) * 2 ^ P / (y + 2 ^ P)
  let ln := 2 * atanhGo P (z * z / 2 ^ P) (P / 3 + 4) 0 z 0
  let v : Int := ((k : Int) + e) * ((2 ^ P : Nat) : Int) + ((ln * 2 ^ P / ln2Fix P : Nat) : Int)
  enclOf (decide (v < 0)) v.natAbs (64 * P) (-(P : Int))

/-- sin (π f) for the fraction f = r / den in (0, 1/2), or the cosine. -/
def trigEncl (neg cos : Bool) (r den P : Nat) : Encl :=
  let s := if 4 * r ≤ den then trigFix cos P r den else trigFix (!cos) P (den - 2 * r) (2 * den)
  enclOf neg s (64 * P) (-(P : Int))

/-- tanh of the magnitude m × 2^e, below 64. -/
def tanhEncl (neg : Bool) (m : Nat) (e : Int) (P : Nat) : Encl :=
  let y := 2 * m * 2 ^ (e + P).toNat / 2 ^ (-(e + P)).toNat
  let l := ln2Fix P
  let n := y / l
  let s := expFix P (y - n * l)
  let one := 2 ^ P
  let lo := (s - 8192 * P) * 2 ^ n
  let hi := (s + 8192 * P) * 2 ^ n
  ⟨neg, (lo - one) * one / (lo + one), (hi - one) * one / (hi + one) + 1, -(P : Int)⟩

/-- The precisions tried. Every f16, bf16 and f32 operand settles at one of them (the least distance of a value from
a rounding boundary is far above 2^−900); the last answer stands in for an operand that would not. -/
def precisions : List Nat := [96, 192, 384, 1024]

def settleFrom (t : Fin 16) (c : Nat → Encl) : List Nat → Rounded
  | [] => let k := c 1024; roundReal t k.neg (k.lo + 1) k.e true
  | p :: ps => match (c p).settle t with
    | some r => r
    | none => settleFrom t c ps

/-- A special-function operation of one operand (R162). -/
inductive SfuOp where
  | rcp | rsq | sqrt | exp2 | log2 | sinp | cosp | tanh
  deriving DecidableEq, Repr

/-- 2^a (R163). -/
def fexp2Of (t : Fin 16) : FVal → Rounded
  | .nan s => (exactNan s).finish t
  | .inf n => (Exact.val (if n then .num false 0 0 else .inf false) 0).finish t
  | .num neg m e =>
    if m = 0 then (Exact.real false 1 0 false).finish t
    else if 10 ≤ floorLog2 m e then roundReal t false 1 (if neg then -5000 else 5000) true
    else
      let den : Nat := 2 ^ (-e).toNat
      if 0 ≤ e || m % den = 0 then
        let k : Int := ((m * 2 ^ e.toNat / den : Nat) : Int)
        (Exact.real false 1 (if neg then -k else k) false).finish t
      else settleFrom t (exp2Encl neg m e) precisions

/-- log2 a (R163). -/
def flog2Of (t : Fin 16) : FVal → Rounded
  | .nan s => (exactNan s).finish t
  | .inf n => (if n then exactInvalid else .val (.inf false) 0).finish t
  | .num neg m e =>
    if m = 0 then (Exact.val (.inf true) fDZ).finish t
    else if neg then exactInvalid.finish t
    else if m = 2 ^ Nat.log2 m then
      (Exact.val (intValue (floorLog2 m e)) 0).finish t
    else settleFrom t (log2Encl m e) precisions

/-- sin (π a) or cos (π a) (R163), by exact reduction of a modulo 2. -/
def ftrigOf (cos : Bool) (t : Fin 16) : FVal → Rounded
  | .nan s => (exactNan s).finish t
  | .inf _ => exactInvalid.finish t
  | .num neg m e =>
    let den : Nat := 2 ^ (-e).toNat
    let x := m * 2 ^ e.toNat % (2 * den)
    let odd := decide (den ≤ x)
    let r := x % den
    if r = 0 then
      (if cos then Exact.val (.num odd 1 0) 0 else Exact.val (.num neg 0 0) 0).finish t
    else if 2 * r = den then
      (if cos then Exact.val (.num false 0 0) 0 else Exact.val (.num (neg != odd) 1 0) 0).finish t
    else
      let up := decide (den < 2 * r)
      let r' := if up then den - r else r
      settleFrom t (trigEncl (if cos then odd != up else neg != odd) cos r' den) precisions

/-- tanh a (R163). -/
def ftanhOf (t : Fin 16) : FVal → Rounded
  | .nan s => (exactNan s).finish t
  | .inf n => (Exact.val (.num n 1 0) 0).finish t
  | .num neg m e =>
    if m = 0 then (Exact.val (.num neg 0 0) 0).finish t
    else if 6 ≤ floorLog2 m e then roundReal t neg (2 ^ 90 - 1) (-90) true
    else settleFrom t (tanhEncl neg m e) precisions

/-- A special function of one operand, rounded to the operand's tag. -/
def sfuOne (op : SfuOp) (t : Fin 16) (a : FVal) : Rounded :=
  match op with
  | .rcp => (frcpExact a).finish t
  | .rsq => (frsqExact a).finish t
  | .sqrt => (fsqrtExact a).finish t
  | .exp2 => fexp2Of t a
  | .log2 => flog2Of t a
  | .sinp => ftrigOf false t a
  | .cosp => ftrigOf true t a
  | .tanh => ftanhOf t a

/-- FDIV rounded to its tag. -/
def sfuDiv (t : Fin 16) (a b : FVal) : Rounded := (fdivExact a b).finish t

end Sys2Proof.Machine
end

