-- ==== Sys2Proof/Machine/FloatArith.lean ====
section
/-! DEFINITION. The floating-point arithmetic instructions (R146 to R163). -/
namespace Sys2Proof.Machine

/-- mix64 of R275. -/
def mix64 (x : Dword) : Dword :=
  let x := (x ^^^ (x >>> 31)) * 0x9E6F1C3B57A42D8D
  let x := (x ^^^ (x >>> 29)) * 0xC2B74E19A63F0B27
  x ^^^ (x >>> 32)

/-- A pedigree level as a word (R256). -/
def Level.word (l : Level) : BitVec 32 := l.rank ++ l.mark

/-- pgkey of R275, from level number `i`. -/
def pgkeyGo : Nat → Dword → List Level → Dword
  | _, k, [] => k
  | i, k, l :: ls => pgkeyGo (i + 1) (mix64 (k ^^^ ((l.word.zeroExtend 64 <<< 32) ||| BitVec.ofNat 64 i))) ls
def pgkey (pg : List Level) : Dword := pgkeyGo 1 0x5A17C3D20B9E6F41 pg

/-- prng of R275. -/
def prng (k c : Dword) (t : Fin 32) (j : Nat) : Dword :=
  mix64 (k ^^^ ((c <<< 7) ||| BitVec.ofNat 64 (t.val * 4 + j)))

/-- The effective rounding code (R132). -/
def Regs.code (r : Regs) (rx : Option Rx) : Nat := if rxRnd rx = 0 then r.rndmode.val else (rxRnd rx).val

/-- The rounding of position `e`, of `n`, in thread `t` (R132, R134). -/
def Regs.rounding (r : Regs) (code : Nat) (sat : Bool) (t : Fin 32) (e n : Nat) : Rounding :=
  if code = 6 then ⟨6, sat, elemOf (64 / n) e (prng (pgkey r.pedigree) r.srctr t 3), 64 / n⟩ else ⟨code, sat, 0, 0⟩

/-- SRCTR advances once for an issue whose effective code is 6 (R134). -/
def drawn (code : Nat) (r : Regs) : Regs := if code = 6 then { r with srctr := r.srctr + 1 } else r

/-- The issue of a VF instruction; `code` is its effective rounding code, 1 where it honours none. -/
def State.vfIssue (v : VOp) (code : Nat) (rx : Option Rx) (fs : Bool) (s : State) : Out :=
  .next (s.vecIssue v (rxGuard rx) (idxLong s.clause rx fs) (drawn code))

/-- The value of element `e` of operand `k` by its own tag, and its block scale for m8. -/
def fval (ts : List (Fin 16)) (raws : List Dword) (scale : Nat → Nat → Int) (k e : Nat) : FVal :=
  let T := ts.getD k 0
  fdecode T (if T = tM8 then scale k e else 0) (elemOf (tagWidth T) e (rawAt raws k))

/-- An instruction on elements of one binary format, with a result of that format (R149): `f` takes the format, the
rounding and the elements. -/
def floatOp (ops : List Operand) (d : Fin 64) (rnd : Fin 32 → Nat → Nat → Rounding)
    (f : Fin 16 → Rounding → List FVal → Rounded) : VOp where
  ops := ops
  dst := .v d
  count := countCommon
  result := tagIf tagBin
  elem := fun ts raws scale t e _ =>
    let T := ts.headD 0
    some (f T (rnd t e (tagCount T)) ((List.range ops.length).map fun k => fval ts raws scale k e))
  uses := noUses

/-- A sum of products under the tag's format, with NV for a signalling NaN or an invalid product (R150 to R152). -/
def fsum (T : Fin 16) (r : Rounding) (nv : Bool) (terms : List FVal) : Rounded :=
  match fmtOf T with
  | some f => sumResult f r nv terms
  | none => (0, 0)

def snanIn (l : List FVal) : Bool := l.any FVal.isSnan

def v0 (l : List FVal) : FVal := l.getD 0 (.num false 0 0)
def v1 (l : List FVal) : FVal := l.getD 1 (.num false 0 0)
def v2 (l : List FVal) : FVal := l.getD 2 (.num false 0 0)

/-- a × b + c with the product exact; `c` is absent for FMUL (R154). -/
def fmaOf (T : Fin 16) (r : Rounding) (negProd : Bool) (l : List FVal) (c : Option FVal) : Rounded :=
  let p := FVal.mul (v0 l) (v1 l)
  let p := if negProd then p.negate else p
  fsum T r (snanIn (l ++ c.toList) || mulInvalid (v0 l) (v1 l)) (p :: c.toList)

/-- A rounding instruction of this chapter: its effective code and SAT from the RX word. -/
def State.fIssue (ops : List Operand) (d : Fin 64) (fs : Bool) (rx : Option Rx) (f : Fin 16 → Rounding → List FVal → Rounded)
    (s : State) : Out :=
  let r := s.focus.r
  let code := r.code rx
  s.vfIssue (floatOp ops d (r.rounding code (rxSat rx)) f) code rx fs

def execFadd (d a b : Fin 64) (fs : Bool) (rx : Option Rx) (s : State) : Out :=
  s.fIssue [opA a rx, opB b rx] d fs rx fun T r l => fsum T r (snanIn l) [v0 l, v1 l]
def execFsub (d a b : Fin 64) (fs : Bool) (rx : Option Rx) (s : State) : Out :=
  s.fIssue [opA a rx, opB b rx] d fs rx fun T r l => fsum T r (snanIn l) [v0 l, (v1 l).negate]
def execFmul (d a b : Fin 64) (fs : Bool) (rx : Option Rx) (s : State) : Out :=
  s.fIssue [opA a rx, opB b rx] d fs rx fun T r l => fmaOf T r false l none
def execFma (d a b c : Fin 64) (fs : Bool) (rx : Option Rx) (s : State) : Out :=
  s.fIssue [opA a rx, opB b rx, opC c rx] d fs rx fun T r l => fmaOf T r false l (some (v2 l))
def execFms (d a b c : Fin 64) (fs : Bool) (rx : Option Rx) (s : State) : Out :=
  s.fIssue [opA a rx, opB b rx, opC c rx] d fs rx fun T r l => fmaOf T r false l (some (v2 l).negate)
def execFnma (d a b c : Fin 64) (fs : Bool) (rx : Option Rx) (s : State) : Out :=
  s.fIssue [opA a rx, opB b rx, opC c rx] d fs rx fun T r l => fmaOf T r true l (some (v2 l))

/-- Minimum or maximum (R155): `number` ignores a NaN operand in favour of a number. -/
def fminmax (max number : Bool) (T : Fin 16) (l : List FVal) : Rounded :=
  let x := v0 l
  let y := v1 l
  let nv : FpFlags := if snanIn l then fNV else 0
  let pick := if fless x y != max then x else y
  let v := if x.isNan && y.isNan then x
    else if x.isNan then (if number then y else x)
    else if y.isNan then (if number then x else y)
    else pick
  ((roundTo T 0 rne v).1, nv)

/-- An instruction of one format that rounds nothing. -/
def State.fPlain (ops : List Operand) (d : Fin 64) (fs : Bool) (rx : Option Rx) (f : Fin 16 → List FVal → Rounded) (s : State) : Out :=
  s.vfIssue (floatOp ops d (fun _ _ _ => rne) fun T _ l => f T l) 1 rx fs

def execFmin (d a b : Fin 64) (fs : Bool) (rx : Option Rx) (s : State) : Out :=
  s.fPlain [opA a rx, opB b rx] d fs rx (fminmax false false)
def execFmax (d a b : Fin 64) (fs : Bool) (rx : Option Rx) (s : State) : Out :=
  s.fPlain [opA a rx, opB b rx] d fs rx (fminmax true false)
def execFminn (d a b : Fin 64) (fs : Bool) (rx : Option Rx) (s : State) : Out :=
  s.fPlain [opA a rx, opB b rx] d fs rx (fminmax false true)
def execFmaxn (d a b : Fin 64) (fs : Bool) (rx : Option Rx) (s : State) : Out :=
  s.fPlain [opA a rx, opB b rx] d fs rx (fminmax true true)

/-- An instruction on the bits of float elements (R156): `f` takes the width and the patterns. -/
def floatBits (ops : List Operand) (d : Fin 64) (f : Nat → List Nat → Nat) : VOp where
  ops := ops
  dst := .v d
  count := countCommon
  result := tagIf tagBin
  elem := fun ts raws _ _ e _ =>
    let w := tagWidth (ts.headD 0)
    some (f w (raws.map (elemOf w e)), 0)
  uses := noUses

def execFabs (d a : Fin 64) (fs : Bool) (rx : Option Rx) (s : State) : Out :=
  s.vfIssue (floatBits [opA a rx] d fun w l => l.getD 0 0 % 2 ^ (w - 1)) 1 rx fs
def execFneg (d a : Fin 64) (fs : Bool) (rx : Option Rx) (s : State) : Out :=
  s.vfIssue (floatBits [opA a rx] d fun w l => (l.getD 0 0 + 2 ^ (w - 1)) % 2 ^ w) 1 rx fs
def execFcps (d a b : Fin 64) (fs : Bool) (rx : Option Rx) (s : State) : Out :=
  s.vfIssue (floatBits [opA a rx, opB b rx] d fun w l =>
    l.getD 0 0 % 2 ^ (w - 1) + l.getD 1 0 / 2 ^ (w - 1) * 2 ^ (w - 1)) 1 rx fs

/-- FCMP (R38, R152, R157): codes 8 and 9 raise FORMAT. -/
def execFcmp (d : Fin 8) (a b : Fin 64) (cc : Fin 16) (fs : Bool) (rx : Option Rx) (s : State) : Out :=
  s.vfIssue { ops := [opA a rx, opB b rx], dst := .q d, count := countCommon, uses := noUses,
              result := fun ts => if cc.val < 8 then tagIf tagBin ts else none,
              elem := fun ts raws scale _ e _ =>
                let x := fval ts raws scale 0 e
                let y := fval ts raws scale 1 e
                let nan := x.isNan || y.isNan
                let ordered := decide (2 ≤ cc.val) && decide (cc.val ≤ 5)
                some (if condFloat cc.val x y then 1 else 0,
                  if x.isSnan || y.isSnan || (ordered && nan) then fNV else 0) } 1 rx fs

/-- The class mask of a pattern (R158). -/
def classMask (f : Fmt) (n : Nat) : Nat :=
  let neg := bit n (f.eb + f.fb)
  match f.decode n with
  | .nan sn => if sn then 2 ^ 8 else 2 ^ 9
  | .inf _ => if neg then 2 ^ 0 else 2 ^ 7
  | .num _ m _ =>
    if m = 0 then (if neg then 2 ^ 3 else 2 ^ 4)
    else if m < 2 ^ f.fb then (if neg then 2 ^ 2 else 2 ^ 5)
    else (if neg then 2 ^ 1 else 2 ^ 6)

/-- The unsigned or signed integer tag of a float tag's width (R149). -/
def intTagOf (signed : Bool) (T : Fin 16) : Fin 16 :=
  match tagWidth T with
  | 16 => if signed then 2 else 6
  | 32 => if signed then 3 else 7
  | _ => if signed then 4 else 8

/-- An instruction from a float element to an integer of its width. -/
def floatToIntOp (a : Operand) (d : Fin 64) (signed : Bool) (f : Fmt → Nat → Nat × FpFlags) : VOp where
  ops := [a]
  dst := .v d
  count := countCommon
  result := fun ts => (tagIf tagBin ts).map (intTagOf signed)
  elem := fun ts raws _ _ e _ =>
    let T := ts.headD 0
    some (match fmtOf T with | some fm => f fm (elemOf (tagWidth T) e (rawAt raws 0)) | none => (0, 0))
  uses := noUses

def execFclass (d a : Fin 64) (fs : Bool) (rx : Option Rx) (s : State) : Out :=
  s.vfIssue (floatToIntOp (opA a rx) d false fun f n => (classMask f n, if (f.decode n).isSnan then fNV else 0)) 1 rx fs

/-- floor(log2 |a|) with the extremes of the width (R159). -/
def getx (f : Fmt) (n : Nat) : Nat × FpFlags :=
  let w := 1 + f.eb + f.fb
  match f.decode n with
  | .nan sn => (2 ^ (w - 1) - 1, if sn then fNV else 0)
  | .inf _ => (2 ^ (w - 1) - 1, 0)
  | .num _ m e => (if m = 0 then 2 ^ (w - 1) else wrapInt w (floorLog2 m e), 0)

def execFgetx (d a : Fin 64) (fs : Bool) (rx : Option Rx) (s : State) : Out :=
  s.vfIssue (floatToIntOp (opA a rx) d true getx) 1 rx fs

/-- FRND (R154): to the integer nearest by the code; a zero result keeps the sign. -/
def frndOf (T : Fin 16) (r : Rounding) (l : List FVal) : Rounded :=
  match fmtOf T with
  | none => (0, 0)
  | some f => match v0 l with
    | .nan sn => (f.nanBits, if sn then fNV else 0)
    | .inf neg => (withSign f neg f.infBits, 0)
    | .num neg m e =>
      if m = 0 then (zeroBits f neg, 0)
      else
        let (k, inexact) := roundToNat r neg m e
        (if k = 0 then zeroBits f neg else (roundBin f rne neg k 0 false).1, if inexact then fNX else 0)

def execFrnd (d a : Fin 64) (fs : Bool) (rx : Option Rx) (s : State) : Out := s.fIssue [opA a rx] d fs rx frndOf

/-- a × 2^b (R154 FSCALE). An exponent beyond ±5,000 acts as ±5,000: both take every value out of every format. -/
def fscaleOf (T : Fin 16) (r : Rounding) (x : FVal) (b : Int) : Rounded :=
  match x with
  | .num neg m e => roundTo T 0 r (.num neg m (e + max (-5000) (min 5000 b)))
  | v => roundTo T 0 r v

/-- FSCALE (R149, R154): B is a signed integer of A's width. -/
def execFscale (d a b : Fin 64) (fs : Bool) (rx : Option Rx) (s : State) : Out :=
  let r := s.focus.r
  let code := r.code rx
  s.vfIssue { ops := [opA a rx, opB b rx], dst := .v d, count := countCommon, uses := noUses,
              result := fun ts => if tagBin (ts.getD 0 0) && ts.getD 1 0 == intTagOf true (ts.getD 0 0) then some (ts.getD 0 0) else none,
              elem := fun ts raws scale t e _ =>
                let T := ts.headD 0
                let w := tagWidth T
                some (fscaleOf T (r.rounding code (rxSat rx) t e (tagCount T)) (fval ts raws scale 0 e)
                  (signedOf w (elemOf w e (rawAt raws 1)))) } code rx fs

/-- A dot product (R161): position p of the f32 result sums the products of `k` positions of its half. -/
def dotOp (ops : List Operand) (d : Fin 64) (k : Nat) (ok : Fin 16 → Bool) (rnd : Fin 32 → Nat → Nat → Rounding) : VOp where
  ops := ops
  dst := .v d
  count := fun _ => tF32
  result := fun ts => if ok (ts.getD 0 0) && ts.getD 1 0 == ts.getD 0 0 && ts.getD 2 0 == tF32 then some tF32 else none
  elem := fun ts raws scale t p _ =>
    let pairs := (List.range k).map fun i => (fval ts raws scale 0 (k * p + i), fval ts raws scale 1 (k * p + i))
    let c := fval ts raws scale 2 p
    let nv := c.isSnan || pairs.any fun x => x.1.isSnan || x.2.isSnan || mulInvalid x.1 x.2
    some (fsum tF32 (rnd t p 2) nv (c :: pairs.map fun x => FVal.mul x.1 x.2))
  uses := noUses

def execFdot2 (d a b c : Fin 64) (fs : Bool) (rx : Option Rx) (s : State) : Out :=
  let r := s.focus.r
  let code := r.code rx
  s.vfIssue (dotOp [opA a rx, opB b rx, opC c rx] d 2 (fun t => t == tF16 || t == tBF16) (r.rounding code (rxSat rx))) code rx fs
def execFdot4 (d a b c : Fin 64) (fs : Bool) (rx : Option Rx) (s : State) : Out :=
  let r := s.focus.r
  let code := r.code rx
  s.vfIssue (dotOp [opA a rx, opB b rx, opC c rx] d 4 (· == tM8) (r.rounding code (rxSat rx))) code rx fs

/-- The pivot guard of one element (R160): a is kept where a > τ. -/
def pivKeeps (x tau : FVal) : Bool := condFloat 4 x tau

/-- What FPIVG adds to PIVST over the active positions (R160). -/
def pivstAfter (v : VOp) (r : Regs) (g : Guard) (act : List (Fin 32)) : Pivst :=
  act.foldl (fun p t =>
    let ts := v.tags r t
    let raws := v.ops.map fun o => o.whole r t
    (v.active r g t).foldl (fun p e =>
      let x := fval ts raws (fun _ _ => 0) 0 e
      if pivKeeps x (fval ts raws (fun _ _ => 0) 1 e) then p
      else ⟨p.nan || x.isNan, p.sub ||| BitVec.ofNat 8 (2 ^ e), p.lane ||| BitVec.ofNat 32 (2 ^ t.val)⟩) p) r.pivst

/-- FPIVG. -/
def execFpivg (d a b c : Fin 64) (fs : Bool) (rx : Option Rx) (s : State) : Out :=
  let r := s.focus.r
  let v : VOp := { ops := [opA a rx, opB b rx, opC c rx], dst := .v d, count := countCommon, result := tagIf tagBin, uses := noUses,
                   elem := fun ts raws scale _ e _ =>
                     let w := tagWidth (ts.headD 0)
                     let x := fval ts raws scale 0 e
                     some (elemOf w e (rawAt raws (if pivKeeps x (fval ts raws scale 1 e) then 0 else 2)),
                       if x.isSnan then fNV else 0) }
  let pv := pivstAfter v r (rxGuard rx) (v.activeLanes r (rxGuard rx) s.lanes)
  .next (s.vecIssue v (rxGuard rx) (idxLong s.clause rx fs) fun r => { r with pivst := pv })

/-! The special functions (R162, R163): always long-latency (R24), served by the core's special-function unit -/

/-- The issue of a special-function instruction: the unit has yet to accept it (R165). -/
def State.sfuIssue (v : VOp) (fs : Bool) (rx : Option Rx) (s : State) : Out :=
  .next (s.vecIssue v (rxGuard rx) (some (s.clause.flag fs, .sfu false)) id)

def sfuOp (ok : Fin 16 → Bool) (op : SfuOp) (a : Operand) (d : Fin 64) : VOp where
  ops := [a]
  dst := .v d
  count := countCommon
  result := tagIf ok
  elem := fun ts raws scale _ e _ => some (sfuOne op (ts.headD 0) (fval ts raws scale 0 e))
  uses := noUses

/-- f64 is no operand of FEXP2 to FTANH (R149). -/
def tagBin32 (t : Fin 16) : Bool := tagBin t && t != tF64

def execFrcp (d a : Fin 64) (fs : Bool) (rx : Option Rx) (s : State) : Out := s.sfuIssue (sfuOp tagBin .rcp (opA a rx) d) fs rx
def execFrsq (d a : Fin 64) (fs : Bool) (rx : Option Rx) (s : State) : Out := s.sfuIssue (sfuOp tagBin .rsq (opA a rx) d) fs rx
def execFsqrt (d a : Fin 64) (fs : Bool) (rx : Option Rx) (s : State) : Out := s.sfuIssue (sfuOp tagBin .sqrt (opA a rx) d) fs rx
def execFexp2 (d a : Fin 64) (fs : Bool) (rx : Option Rx) (s : State) : Out := s.sfuIssue (sfuOp tagBin32 .exp2 (opA a rx) d) fs rx
def execFlog2 (d a : Fin 64) (fs : Bool) (rx : Option Rx) (s : State) : Out := s.sfuIssue (sfuOp tagBin32 .log2 (opA a rx) d) fs rx
def execFsinp (d a : Fin 64) (fs : Bool) (rx : Option Rx) (s : State) : Out := s.sfuIssue (sfuOp tagBin32 .sinp (opA a rx) d) fs rx
def execFcosp (d a : Fin 64) (fs : Bool) (rx : Option Rx) (s : State) : Out := s.sfuIssue (sfuOp tagBin32 .cosp (opA a rx) d) fs rx
def execFtanh (d a : Fin 64) (fs : Bool) (rx : Option Rx) (s : State) : Out := s.sfuIssue (sfuOp tagBin32 .tanh (opA a rx) d) fs rx

def execFdiv (d a b : Fin 64) (fs : Bool) (rx : Option Rx) (s : State) : Out :=
  s.sfuIssue { ops := [opA a rx, opB b rx], dst := .v d, count := countCommon, result := tagIf tagBin, uses := noUses,
               elem := fun ts raws scale _ e _ =>
                 some (sfuDiv (ts.headD 0) (fval ts raws scale 0 e) (fval ts raws scale 1 e)) } fs rx

end Sys2Proof.Machine
end

