-- ==== Sys2Proof/Machine/Convert.lean ====
section
/-! DEFINITION. The conversion and tag instructions (R136 to R144). -/
namespace Sys2Proof.Machine

/-- One element converted (R138): source tag, destination tag with its block scale, SAT, rounding. An integer out of an
integer destination's range sets NV and NX by the words of R135. -/
def convertElem (S T : Fin 16) (srcScale dstScale : Int) (r : Rounding) (n : Nat) : Rounded :=
  if tagInt S then
    let x := elemInt S n
    if tagInt T then
      let (y, out) := saturate (tagSigned T) (tagWidth T) x
      if r.sat then (wrapInt (tagWidth T) y, if out then fNV ||| fSAT ||| fNX else 0)
      else (wrapInt (tagWidth T) x, if out then fNV ||| fNX else 0)
    else roundTo T dstScale r (intValue x)
  else
    let v := fdecode S srcScale n
    if tagInt T then floatToInt T r v else roundTo T dstScale r v

/-- The source position that position `e` of the destination is converted from (R138), if the part covers it. -/
def cvtSrc (ns nd p e : Nat) : Option Nat :=
  if ns < nd then (if p * ns ≤ e ∧ e < p * ns + ns then some (e - p * ns) else none)
  else if nd < ns then some (p * nd + e)
  else some e

/-- The part is within the ratio of the position counts (R138). -/
def cvtPartOk (ns nd p : Nat) : Bool :=
  decide (p < if ns < nd then nd / ns else if nd < ns then ns / nd else 1)

/-- The uses of s[BASEREG] of an m8 destination (R65). -/
def m8BaseUse (r : Regs) (T : Fin 16) (d : Fin 64) (lanes act : List (Fin 32)) : List Use :=
  if T = tM8 && !act.isEmpty then [⟨.s, (r.side[d]).base.val, lanes⟩] else []

/-- CVT with its result tag check; `scaleOf` is the block scale of the destination in a thread. -/
def cvtOp (r : Regs) (a : Operand) (d : Fin 64) (p : Nat) (T : Fin 16) (lanes : List (Fin 32)) (rnd : Fin 32 → Nat → Nat → Rounding)
    (scaleOf : Fin 32 → Int) : VOp where
  ops := [a]
  dst := .v d
  count := fun _ => T
  result := fun ts =>
    let S := ts.headD 0
    if S = tRAW || S = tHND || !cvtPartOk (tagCount S) (tagCount T) p then none else some T
  elem := fun ts raws scale t e _ =>
    let S := ts.headD 0
    (cvtSrc (tagCount S) (tagCount T) p e).map fun j =>
      convertElem S T (if S = tM8 then scale 0 j else 0) (if T = tM8 then scaleOf t else 0) (rnd t e (tagCount T))
        (elemOf (tagWidth S) j (rawAt raws 0))
  uses := m8BaseUse r T d lanes

def execCvt (d a : Fin 64) (p : Fin 8) (tag : Fin 16) (fs : Bool) (rx : Option Rx) (s : State) : Out :=
  let r := s.focus.r
  let code := r.code rx
  s.vfIssue (cvtOp r (opA a rx) d p.val tag s.lanes (r.rounding code (rxSat rx)) (r.scale d)) code rx fs

/-- The delta of block `b` after CVTS (R139): the clamped difference where the block has an active thread. -/
def cvtsDelta (r : Regs) (d : Fin 64) (b : Operand) (act : List (Fin 32)) (blk : Nat) : Nat :=
  match (act.filter fun t => t.val / 4 == blk).map fun t => signedOf 32 (elemOf 32 0 (b.whole r t)) with
  | [] => bits r.side[d].delta.toNat (4 * blk) 4
  | m :: ms =>
    let base := signedOf 16 ((r.readS (r.side[d]).base).toNat % 2 ^ 16)
    wrapInt 4 (max (-8) (min 7 (ms.foldl max m - base - 3)))

/-- The side field of v[D] after CVTS. -/
def cvtsSide (r : Regs) (d : Fin 64) (b : Operand) (act : List (Fin 32)) : Side :=
  { r.side[d] with delta := BitVec.ofNat 32 (((List.range 8).map fun k => cvtsDelta r d b act k * 2 ^ (4 * k)).sum) }

/-- CVTS (R139): the deltas first, which then govern the conversion into m8. -/
def execCvts (d a b : Fin 64) (p : Fin 8) (fs : Bool) (rx : Option Rx) (s : State) : Out :=
  let r := s.focus.r
  let code := r.code rx
  let lanes := s.lanes
  let act := lanes.filter fun t => !(activePos r (rxGuard rx) 8 t).isEmpty
  let sd := cvtsSide r d (opB b rx) act
  let r' : Regs := { r with side := r.side.set d sd }
  let v := cvtOp r (opA a rx) d p.val tM8 lanes (r.rounding code (rxSat rx)) (r'.scale d)
  let v' : VOp := { v with
    ops := [opA a rx, opB b rx]
    result := fun ts => if tagBin (ts.getD 0 0) && ts.getD 1 0 == tS32 then v.result ts else none }
  .next (s.vecIssue v' (rxGuard rx) (idxLong s.clause rx fs) fun q =>
    drawn code { q with side := if act.isEmpty then q.side else q.side.set d sd })

/-- FMAXX (R140): the guard counts one position; each block of four lanes writes its largest exponent. -/
def execFmaxx (d a b : Fin 64) (acc fs : Bool) (rx : Option Rx) (s : State) : Out :=
  let r := s.focus.r
  let oa := opA a rx
  let part := s.participating rx
  let laneMax := fun t =>
    let T := oa.tag r t
    ((List.range (tagCount T)).map fun e =>
      xexp (fdecode T (if T = tM8 then oa.scale r t e else 0) (elemOf (tagWidth T) e (oa.whole r t)))).foldl max (-32768)
  let blkMax := fun (t : Fin 32) => ((part.filter fun u => u.val / 4 == t.val / 4).map laneMax).foldl max (-32768)
  let val := fun t =>
    let x := if acc then max (blkMax t) (signedOf 32 (elemOf 32 0 ((opB b rx).whole r t))) else blkMax t
    wrapInt 32 x * (2 ^ 32 + 1)
  s.vfIssue { ops := if acc then [oa, opB b rx] else [oa], dst := .v d, count := fun _ => tRAW, uses := noUses,
              result := fun ts =>
                if (tagBin (ts.getD 0 0) || ts.getD 0 0 == tM8) && (!acc || ts.getD 1 0 == tS32) then some tS32 else none,
              elem := fun _ _ _ t _ _ => some (val t, 0) } 1 rx fs

/-- VSETTAG (R141): the bits of A under the encoded tag; a handle raises FORMAT. -/
def execVsettag (d a : Fin 64) (tag : Fin 16) (fs : Bool) (rx : Option Rx) (s : State) : Out :=
  s.vfIssue { ops := [opA a rx], dst := .v d, count := fun _ => tag, uses := noUses,
              result := fun ts => if ts.headD 0 = tHND then none else some tag,
              elem := fun _ raws _ _ e _ => some (elemOf (tagWidth tag) e (rawAt raws 0), 0) } 1 rx fs

/-- VGETTAG (R141). -/
def execVgettag (d a : Fin 64) (fs : Bool) (rx : Option Rx) (s : State) : Out :=
  let r := s.focus.r
  s.vfIssue (wideOp [opA a rx] (.v d) tZ64 fun t => ((opA a rx).tag r t).val) 1 rx fs

/-- SCLGET (R142): the side field of the register named, zero-extended. -/
def execSclget (d a : Fin 64) (rx : Option Rx) (s : State) : Out :=
  let sd := s.focus.r.side[a]
  s.vfIssue (constOp d (BitVec.ofNat 64 (sd.base.val * 2 ^ 32 + sd.delta.toNat)) tZ64) 1 rx false

/-- SCLSET (R142): once per issue, the side field of v[D] from s[A][37:0], which the undo log holds (R209). -/
def execSclset (d a : Fin 64) (_rx : Option Rx) (s : State) : Out :=
  .next (checked [⟨.s, a.val, s.lanes⟩] s fun s => logV (.v d) s fun s => s.mapR fun r =>
    let x := (r.readS a).toNat
    { r with side := r.side.set d ⟨fin 64 (bits x 32 6), BitVec.ofNat 32 (bits x 0 32)⟩ })

/-- FLIMM (R143). -/
def execFlimm (d : Fin 64) (lit : BitVec 64) (s : State) : Out := s.vfIssue (constOp d lit tF64) 1 none false

end Sys2Proof.Machine
end

