-- ==== Sys2Proof/Machine/Space.lean ====
section
/-! DEFINITION. The address spaces: reduction arithmetic on memory (R238, R239), partial copies (R244 to R246),
translation (R173 to R177), the generic windows (R166 to R172), the cache tags that the counters see (R189 to R191). -/
namespace Sys2Proof.Machine

/-! Reduction arithmetic -/

/-- The f32 or f64 tag of a width. -/
def floatTag (w : Nat) : Fin 16 := if w = 32 then tF32 else tF64

/-- The operation of code `op` on a w-bit location `m` with operand `b` (R238). -/
def reduceOp (op : Fin 16) (w m b : Nat) : Nat :=
  let f := floatTag w
  let vals := [fdecode f 0 m, fdecode f 0 b]
  match op.val with
  | 0 => (m + b) % 2 ^ w
  | 2 => m &&& b
  | 3 => m ||| b
  | 4 => m ^^^ b
  | 5 => if signedOf w b < signedOf w m then b else m
  | 6 => if signedOf w m < signedOf w b then b else m
  | 7 => min m b
  | 8 => max m b
  | 9 => b
  | 11 => (fminmax false false f vals).1
  | 12 => (fminmax true false f vals).1
  | 13 => (fsum tF32 rne false vals).1
  | _ => m

/-- A reduction of the w bits at a key. -/
def State.reduceAt (op : Fin 16) (w k : Nat) (b : Dword) (s : State) : State :=
  s.putBytes (cellsAt k (leBytes (w / 8) (reduceOp op w (leNat (s.bytes k (w / 8))) (b.toNat % 2 ^ w))))

/-! Cache tags: timing and PMC0 to PMC5 only (R188 to R191, R212, R447; log entry 11) -/

/-- Count an event in a performance counter of a core (R191). -/
def State.count (core n : Nat) (s : State) : State :=
  s.mapCore core fun c => { c with pmc := c.pmc.modify n fun x => x + 1 }

/-- The members of one set, most recent first, and the tags of the other sets. -/
def setSplit (same : CacheTag → Bool) (l : List CacheTag) : List CacheTag × List CacheTag :=
  (l.filter same, l.filter fun t => !same t)

/-- A replacement pass from the least recent tag on: one that may not be replaced stays, one under evict-last protection is
passed over and loses it, the next is taken out. -/
def passOver (pinned : CacheTag → Bool) : List CacheTag → List CacheTag × Option CacheTag
  | [] => ([], none)
  | t :: l =>
    if pinned t then let (r, v) := passOver pinned l; (t :: r, v)
    else if t.keep then let (r, v) := passOver pinned l; ({ t with keep := false } :: r, v)
    else (l, some t)

/-- Take out the tag that a replacement chooses; a pass that finds every tag protected is followed by another. -/
def evictOne (pinned : CacheTag → Bool) (l : List CacheTag) : List CacheTag × Option CacheTag :=
  match passOver pinned l.reverse with
  | (r, some v) => (r.reverse, some v)
  | (r, none) => let (r, v) := passOver pinned r; (r.reverse, v)

/-- A tag takes the place that its hint gives (R190). -/
def insertTag (hint : Fin 8) (tag : CacheTag) (l : List CacheTag) : List CacheTag :=
  if hint = 1 then l ++ [tag] else { tag with keep := hint = 2 } :: l

/-- A line enters a set of `ways` ways under a hint; the tag that left it. -/
def enterSet (ways : Nat) (pinned : CacheTag → Bool) (tag : CacheTag) (hint : Fin 8) (l : List CacheTag) :
    List CacheTag × Option CacheTag :=
  let l := l.filter fun t => t.line != tag.line
  if ways = 0 then (l, none)
  else if l.length < ways then (insertTag hint tag l, none)
  else match evictOne pinned l with
    | (l, some v) => (insertTag hint tag l, some v)
    | (l, none) => (l, none)

/-- The ways of an L2 slice in use (R188). -/
def PkgRegs.waysInUse (r : PkgRegs) : Nat := if r.l2ways.toNat = 0 || 16 < r.l2ways.toNat then 16 else r.l2ways.toNat

/-- RETWAYS fields (R188). -/
def retOwner (x : Dword) : Nat := bits x.toNat 16 12
def retValid (x : Dword) : Bool := bit x.toNat 4
def retWays (x : Dword) : Nat := bits x.toNat 0 4

/-- The retention slot that marks a request (R189): the lowest valid one of the context's key slot that holds the
address. -/
def PkgRegs.retSlot (r : PkgRegs) (key : Nat) (va : Nat) : Option (Fin 4) :=
  (List.finRange 4).find? fun i =>
    let w := r.retways.getD i.val 0
    let b := (r.retbase.getD i.val 0).toNat
    retValid w && retOwner w == key && b ≤ va && decide (va < b + (r.retsize.getD i.val 0).toNat)

/-- A way is one of those that a valid slot reserves in every set. -/
def PkgRegs.reservedWay (r : PkgRegs) (w : Nat) : Bool :=
  (List.range 4).any fun i => retValid (r.retways.getD i 0) && (r.retplace.getD i 0).getLsbD w

/-- The ways in use that a slot reserves. -/
def PkgRegs.waysOf (r : PkgRegs) (i : Nat) : List Nat := (List.range r.waysInUse).filter (r.retplace.getD i 0).getLsbD

/-- The ways in use that no valid slot reserves. -/
def PkgRegs.normalWays (r : PkgRegs) : List Nat := (List.range r.waysInUse).filter fun w => !r.reservedWay w

/-- A slot keeps its ways, and takes the highest normal ones while it holds fewer than its WAYS; one that is not valid holds none
(R189, log entry 11). -/
def PkgRegs.refitSlot (r : PkgRegs) (i : Nat) : PkgRegs :=
  let w := r.retways.getD i 0
  let ways := if retValid w then
      let mine := (r.waysOf i).take (retWays w)
      mine ++ r.normalWays.reverse.take (retWays w - mine.length)
    else []
  { r with retplace := r.retplace.set i (BitVec.ofNat 16 ((ways.map fun k => 2 ^ k).sum)) }

/-- The reserved ways after a change of RETWAYS or L2WAYS. -/
def PkgRegs.refit (r : PkgRegs) : PkgRegs := (List.range 4).foldl PkgRegs.refitSlot r

/-- The slice of a line's home. -/
def homeSlice (line : Nat) : Nat := 24 * dieOfPa (line * 128) + line % 24

/-- The tags of a slice. -/
def State.sliceTags (s : State) (slice : Nat) : List CacheTag := ((s.hub.l2.find? fun x => x.1 == slice).map (·.2)).getD []
def State.putSlice (slice : Nat) (l : List CacheTag) (s : State) : State :=
  { s with hub := { s.hub with l2 := (slice, l) :: s.hub.l2.filter fun x => x.1 != slice } }

/-- The victim in the ways of a slot: the least recent tag there that is no line of the slot. -/
def PkgRegs.slotVictim (r : PkgRegs) (pinned : CacheTag → Bool) (i : Fin 4) (set : List CacheTag) : List CacheTag × Option CacheTag :=
  match set.reverse.find? fun t => (r.waysOf i.val).contains t.way && t.slot != some i && !pinned t with
  | some v => (set.filter fun t => t.line != v.line, some v)
  | none => (set, none)

/-- A line enters its set of a slice (R189, R190), in an empty way if there is one: a line that a slot marks takes a way of the slot
that holds no line of it, the least recent of these; another takes a normal way. The tag that left the set. -/
def PkgRegs.enterSlice (r : PkgRegs) (pinned : CacheTag → Bool) (tag : CacheTag) (hint : Fin 8) (set : List CacheTag) :
    List CacheTag × Option CacheTag :=
  let set := set.filter fun t => t.line != tag.line
  let ways := match tag.slot with | some i => r.waysOf i.val | none => r.normalWays
  match ways.find? fun w => !set.any fun t => t.way == w with
  | some w => (insertTag hint { tag with way := w } set, none)
  | none =>
    match (match tag.slot with
      | some i => r.slotVictim pinned i set
      | none => evictOne (fun t => pinned t || !ways.contains t.way) set) with
    | (l, some v) => (insertTag hint { tag with way := v.way } l, some v)
    | (l, none) => (l, none)

/-- The slot under which a line allocates: its mark's, unless every way of the slot holds a line of it. -/
def PkgRegs.roomIn (r : PkgRegs) (mark : Option (Fin 4)) (set : List CacheTag) : Option (Fin 4) :=
  mark.filter fun i => (r.waysOf i.val).any fun w => !set.any fun t => t.way == w && t.slot == some i

/-- The set of a line in a slice, and the rest of the slice. -/
def State.sliceSet (s : State) (slice line : Nat) : List CacheTag × List CacheTag :=
  setSplit (fun t => t.line / 24 % 1024 == line / 24 % 1024) (s.sliceTags slice)

/-- A tag of a slice is a Part copy. -/
def CacheTag.isPart (t : CacheTag) : Bool := t.st == .part

/-- The package cache holds a line that an L2 slice misses (R8, R12; log entry 11). -/
def State.fillCache (line key : Nat) (s : State) : State :=
  { s with hub := { s.hub with cache :=
      ((line, key) :: s.hub.cache.filter fun n => n.1 != line).take ((24 - s.hub.spadUnits.val) * 2 ^ 25 / 128) } }

/-- The key slot under which a line was last written. -/
def State.keyOf (s : State) (line : Nat) : Nat := ((s.keyed.find? fun x => x.line == line).map Keyed.slot).getD 0

/-- The home holds a line newer than memory (R212, R246). A Part copy never makes room for it. -/
def State.homeDirty (line : Nat) (s : State) : State :=
  let slice := homeSlice line
  let (set, rest) := s.sliceSet slice line
  if set.any fun t => t.line == line then
    s.putSlice slice ((set.map fun t => if t.line = line then { t with st := .dirty } else t) ++ rest)
  else s.putSlice slice ((s.hub.regs.enterSlice CacheTag.isPart ⟨line, s.keyOf line, false, 0, none, .dirty⟩ 0 set).1 ++ rest)

/-! Partial copies -/

/-- Every Part copy of a line merges into its home, under the key of its page, and leaves its slice; the home line is dirty
(R246, R417). -/
def State.mergeLine (line : Nat) (s : State) : State :=
  match s.partials.filter fun p => p.line == line with
  | [] => s
  | ps =>
    let s := ps.foldl (fun s p => p.elems.foldl (fun s e => s.reduceAt p.op p.w (line * 128 + e.1) e.2) (s.keyLine line p.slot.toNat)) s
    { s with
      partials := s.partials.filter fun p => p.line != line
      hub := { s.hub with l2 := s.hub.l2.map fun (x : Nat × List CacheTag) => (x.1, x.2.filter fun t => !(t.isPart && t.line == line)) } }.homeDirty line

/-- Before an access of a line at its home its partials merge, under the grant of its landing (R245, R246): now, or the
request waits there. -/
def State.mergeFor (id line : Nat) (s : State) : State × Bool :=
  if s.partials.any fun p => p.line == line then
    match s.passLine id line with
    | (s, true) => (s.mergeLine line, true)
    | (s, false) => (s, false)
  else (s.withdraw id line, true)

/-- The landing of a line would grant its write now. -/
def State.grantsNow (s : State) (id line : Nat) : Bool :=
  match s.landings[landingOf line]? with
  | some l => l.ownedBy id || l.may (lineGrant id line)
  | none => true

/-- A Part copy whose merge would not be granted at its home's landing now: it is not evicted (R246). -/
def State.mergeWaits (s : State) (t : CacheTag) : Bool := t.isPart && !s.grantsNow 0 t.line

/-- The region's lines enter signatures (R199). -/
def Region.signed (r : Region) : Bool := r == .chunked || r == .pkg || r == .priv

/-- The home of a line answers no read: another crew's chunk has the grants to write it, and has not applied it (R203). -/
def State.homeBusy (s : State) (uid line : Nat) : Bool :=
  s.crews.any fun c => c.uid != uid && c.phase == .granted && c.chunk.buf.any fun b => b.region.signed && b.line == line

/-- A read of a line within a step, by a walker, a fetch, an engine or the hub: its partials merge first (R245). Where the landing does
not grant that now, or the home does not answer, the step is not taken (R203, R246; log entry 44). -/
def State.readLine (line : Nat) (s : State) : State :=
  let waits := s.homeBusy 0 line || ((s.partials.any fun p => p.line == line) && !s.grantsNow s.focus.uid line)
  { s.mergeLine line with stall := s.stall || waits }

/-- A tag that leaves its slice: a Part copy merges (R245). -/
def State.tagLeaves (v : Option CacheTag) (s : State) : State :=
  match v with
  | some t => if t.isPart then s.mergeLine t.line else s
  | none => s

/-- A request under a key slot reaches a line's home slice (R189 to R191): hit or miss is counted for the core where it is a load's or
an atomic's (`counts`, R441), the line allocates, and a write leaves it dirty. -/
def State.touchL2 (core line key : Nat) (mark : Option (Fin 4)) (hint : Fin 8) (alloc counts write : Bool) (s : State) : State :=
  let tally := fun (n : Nat) (s : State) => if counts then s.count core n else s
  let slice := homeSlice line
  let (set, rest) := s.sliceSet slice line
  let regs := s.hub.regs
  match set.find? fun t => t.line == line with
  | some t =>
    let s := tally 2 s
    let s := if regs.reservedWay t.way then tally 4 s else s
    let t' := { t with key := key, st := if write then .dirty else t.st }
    s.putSlice slice ((if hint = 1 then set.map fun x => if x.line = line then t' else x
      else t' :: set.filter fun x => x.line != line) ++ rest)
  | none =>
    let s := (tally 3 s).fillCache line key
    if !alloc then s
    else
      let room := regs.roomIn mark set
      let s := if mark.isSome && room.isNone then tally 5 s else s
      let (set, v) := regs.enterSlice s.mergeWaits ⟨line, key, false, 0, room, if write then .dirty else .clean⟩ hint set
      (s.putSlice slice (set ++ rest)).tagLeaves v

/-- A Part copy of a line takes its place in the slice of its partial landing (R244). -/
def State.placePart (die line key : Nat) (s : State) : State :=
  let slice := partialLanding die line
  let (set, rest) := s.sliceSet slice line
  let (set, v) := s.hub.regs.enterSlice s.mergeWaits ⟨line, key, false, 0, none, .part⟩ 0 set
  (s.putSlice slice (set ++ rest)).tagLeaves v

/-- The L2 of a die holds a read-only copy of a line that is homed on another die (R212): the die's bit of the directory
(log entry 11). -/
def State.copyIn (die line key : Nat) (s : State) : State :=
  if dieOfPa (line * 128) = die then s
  else { s with dies := s.dies.modify die fun d => { d with copies := (line, key) :: d.copies.filter (·.1 != line) } }

/-- A read of a cacheable line by a core (R190, R191, R212, R447). A line in the read signature of an uncommitted chunk of the core
stays in its L1 (R205). On a hit hint 1 leaves the order as it is, and no hint protects (log entry 112). -/
def State.touchRead (core key line va : Nat) (hint : Fin 8) (s : State) : State :=
  let set := (s.coreAt core).l1
  match set.find? fun t => t.line == line with
  | some t =>
    (s.count core 0).mapCore core fun c => { c with l1 := if hint = 1 then c.l1 else t :: c.l1.filter fun x => x.line != line }
  | none =>
    let s := (s.count core 1).touchL2 core line key (s.hub.regs.retSlot key va) hint (hint != 4) true false
    let s := if hint = 4 then s else s.copyIn (core / 36) line key
    if hint = 3 || hint = 4 then s
    else
      let pinned := fun (t : CacheTag) => s.crews.any fun c => c.core == core && c.uncommitted && sigHas c.chunk.rsig t.line
      s.mapCore core fun c =>
        let split := setSplit (fun t => t.line % 128 == line % 128) c.l1
        { c with l1 := (enterSet 8 pinned ⟨line, key, false, 0, none, .clean⟩ hint split.1).1 ++ split.2 }

/-- A returning atomic looks up L1 without allocating there, and reaches the home with its hint as a write does (R236, R441). -/
def State.touchAtom (core key line va : Nat) (hint : Fin 8) (s : State) : State :=
  (s.count core (if (s.coreAt core).l1.any fun t => t.line == line then 0 else 1)).touchL2 core line key (s.hub.regs.retSlot key va) (if hint = 4 then 1 else hint) true true false

/-- The home of a line is on a die that has failed (R247). -/
def State.homeLost (s : State) (k : Nat) : Bool :=
  isHbm k && ((s.dies[dieOfPa k]?).map Die.failed).getD false

/-! Translation (R173 to R177) -/

/-- What an access needs of a page. -/
structure Need where
  rd : Bool
  wr : Bool
  ex : Bool
  deriving DecidableEq, Repr

/-- Whose translation: hardware queue slot, root table, supervisor rights, physical core. -/
structure Space where
  slot : Nat
  root : Nat
  sup : Bool
  core : Nat
  deriving DecidableEq, Repr

/-- The fields of a table entry (R174). -/
def pteFrame (e : Dword) : Nat := bits e.toNat 22 36 * 2 ^ 16
def pteKey (e : Dword) : Nat := bits e.toNat 10 12
def ptePk (e : Dword) : Nat := bits e.toNat 5 2

/-- What a walk finds: a leaf with its page size in bits and the entry's address, or a fault. -/
inductive Walk where
  | leaf (e : Dword) (shift pte : Nat)
  | fault (c : FltCode)
  deriving DecidableEq, Repr

/-- A table entry as a walk reads it through the L2 (R173): after any partials of its line merge (R245). The read leaves the
slice's tags as they are (log entry 87). -/
def State.readPte (s : State) (pa : Nat) : State × Dword :=
  let s := s.readLine (lineOf pa)
  (s, s.dword pa)

/-- The size in bits of what an entry of the next level maps (R173). -/
def nextShift (shift : Nat) : Nat := if shift = 55 then 42 else shift - 13

/-- The levels of a walk (R173, R174), from the table at `pa` whose entries each map 2^shift bytes; `levels` remain. The
non-leaf entries that it meets come with the answer. An entry that lies outside HBM raises PROT (log entry 87). -/
def State.walk (slot va : Nat) : Nat → Nat → Nat → State → State × Walk × List WalkEntry
  | 0, _, _, s => (s, .fault .page, [])
  | levels + 1, pa, shift, s =>
    let at_ := pa + 8 * (va / 2 ^ shift % (if shift = 55 then 4 else 8192))
    if !isHbm at_ then (s, .fault .prot, [])
    else if s.homeLost at_ then (s, .fault .homelost, [])
    else
      let (s, e) := s.readPte at_
      let n := e.toNat
      if bits n 59 5 != 0 || !bit n 0 then (s, .fault .page, [])
      else if bit n 58 then
        (s, if shift = 55 || pteFrame e % 2 ^ shift != 0 then .fault .page else .leaf e shift at_, [])
      else if bits n 1 21 != 0 || shift = 16 then (s, .fault .page, [])
      else
        let (s, w, l) := s.walk slot va levels (pteFrame e) (nextShift shift)
        (s, w, ⟨slot, va / 2 ^ shift, shift, pteFrame e⟩ :: l)

/-- An entry of a walk cache maps an address of a slot. -/
def WalkEntry.hits (slot va : Nat) (e : WalkEntry) : Bool := e.slot == slot && e.page == va / 2 ^ e.shift

/-- The entry of a walk cache nearest to the leaf. -/
def deepest (l : List WalkEntry) : Option WalkEntry :=
  l.foldl (fun a e => match a with
    | some x => if e.shift < x.shift then some e else a
    | none => some e) none

/-- The walker of a die translates an address (R177): from the deepest table that its walk cache names, or from the root.
A walk that faults leaves nothing in the cache. -/
def State.walkFrom (die slot root va : Nat) (s : State) : State × Walk :=
  let cache := ((s.dies[die]?).map Die.walks).getD []
  let (s, w, l) := match deepest (cache.filter (WalkEntry.hits slot va)) with
    | some e => s.walk slot va (if e.shift = 55 then 3 else if e.shift = 42 then 2 else 1) e.table (nextShift e.shift)
    | none => s.walk slot va 4 root 55
  match w with
  | .leaf .. => ({ s with dies := s.dies.modify die fun d => { d with walks := l ++ d.walks.filter fun e => !l.contains e } }, w)
  | .fault _ => (s, w)

/-- A TLB entry translates an address of a slot. -/
def TlbEntry.hits (x : Space) (va : Nat) (e : TlbEntry) : Bool := e.slot == x.slot && e.page == va / 2 ^ e.shift

/-- An entry enters the core TLB of 64 entries, the most recent first; the oldest goes (R177, log entry 10). -/
def enterTlb (e : TlbEntry) (l : List TlbEntry) : List TlbEntry := (e :: l.filter (· != e)).take 64

/-- An entry enters its set of the raft TLB, of 256 sets of 8 ways; the oldest of the set goes (R177, log entry 10). -/
def enterRaft (e : TlbEntry) (l : List TlbEntry) : List TlbEntry :=
  let l := l.filter (· != e)
  let same := fun (x : TlbEntry) => x.page % 256 == e.page % 256
  (e :: (l.filter same).take 7) ++ l.filter fun x => !same x

/-- Install a translation in the core TLB and the raft TLB. -/
def State.install (x : Space) (e : TlbEntry) (s : State) : State :=
  let s := s.mapCore x.core fun c => { c with tlb := enterTlb e c.tlb }
  { s with rafts := s.rafts.modify (x.core / 4) fun r => { r with tlb := enterRaft e r.tlb } }

/-- Set bits of the leaf held for an entry, everywhere. -/
def State.relabel (pte : Nat) (bits : Dword) (s : State) : State :=
  let f := fun (l : List TlbEntry) => l.map fun e => if e.pte = pte then { e with leaf := e.leaf ||| bits } else e
  { s with
    cores := s.cores.map fun c => { c with tlb := f c.tlb }
    rafts := s.rafts.map fun r => { r with tlb := f r.tlb } }

/-- The walker sets AF or DF by an atomic write at the entry's home (R176), which merges the line's partials first and
invalidates its readers (R205) but for the crew whose own access asks for it (log entry 10): of the entry as memory holds it. Where
the landing does not grant it now the step is not taken. -/
def State.setPteBits (mask : Dword) (pte : Nat) (s : State) : State :=
  let line := lineOf pte
  let waits := !s.grantsNow s.focus.uid line
  let s := s.readLine line
  let s := { s with stall := s.stall || waits }
  (((s.putBytes (cellsAt pte (leBytes 8 (s.dword pte ||| mask).toNat))).invalidateLine line s.focus.uid).dropCopies noCore line
    |>.homeDirty line).relabel pte mask

/-- A leaf for an address (R177): from the core TLB, the raft TLB, or a walk that installs it and sets AF (R176). -/
def State.lookup (x : Space) (va : Nat) (s : State) : State × Walk :=
  match (s.coreAt x.core).tlb.find? (TlbEntry.hits x va) with
  | some e => (s, .leaf e.leaf e.shift e.pte)
  | none =>
    let s := s.count x.core 6
    match ((s.rafts[x.core / 4]?).map Raft.tlb).bind fun l => l.find? (TlbEntry.hits x va) with
    | some e => (s.install x e, .leaf e.leaf e.shift e.pte)
    | none =>
      match (s.count x.core 7).walkFrom (x.core / 36) x.slot x.root va with
      | (s, .fault f) => (s, .fault f)
      | (s, .leaf leaf shift pte) =>
        let leaf' := leaf ||| 0x100
        let s := if bit leaf.toNat 8 then s else s.setPteBits 0x100 pte
        (s.install x ⟨x.slot, va / 2 ^ shift, shift, leaf', pte⟩, .leaf leaf' shift pte)

/-- A key slot holds a key that is not being destroyed (R175, R418). -/
def Hub.holdsKey (h : Hub) (k : Nat) : Bool := h.keys.contains k && !h.dying.contains k

/-- The checks of R175 (with R200 and R408 in step 5) on a leaf and the physical address it gives. -/
def State.leafFault (s : State) (x : Space) (n : Need) (leaf : Dword) (pa : Nat) : Option FltCode :=
  let b := fun k => bit leaf.toNat k
  let pk := ptePk leaf
  if pk = 3 then some .prot
  else if !x.sup && !b 4 then some .prot
  else if (n.rd && !b 1) || (n.wr && !b 2) || (n.ex && !b 3) then some .prot
  else if !s.hub.holdsKey (pteKey leaf) then some .key
  else if isHbm pa then none
  else if isPeer pa then (if pk = 0 then some .prot else none)
  else if isHost pa then (if pk = 2 then none else some .prot)
  else some .prot

/-- What a translation answers: the leaf and the physical address, or the fault. -/
inductive Trans where
  | ok (leaf : Dword) (pa : Nat) (page : Nat × Nat)
  | fault (c : FltCode)
  deriving DecidableEq, Repr

/-- Translate a global address for an access (R173 to R177); a write sets DF (R176). The page comes with its first address
and its size in bits. -/
def State.translate (x : Space) (n : Need) (va : Nat) (s : State) : State × Trans :=
  match s.lookup x va with
  | (s, .fault f) => (s, .fault f)
  | (s, .leaf leaf shift pte) =>
    let pa := pteFrame leaf + va % 2 ^ shift
    match s.leafFault x n leaf pa with
    | some f => (s, .fault f)
    | none =>
      if s.homeLost pa then (s, .fault .homelost)
      else
        let s := if n.wr && !bit leaf.toNat 9 then s.setPteBits 0x200 pte else s
        (s, .ok leaf pa (va / 2 ^ shift * 2 ^ shift, shift))

/-! Windows (R166 to R172) -/

/-- The bases of the windows (R166). -/
def winOwn : Nat := 2 ^ 56
def winRaft : Nat := 2 ^ 56 + 2 ^ 32
def winPkg : Nat := 2 ^ 56 + 2 * 2 ^ 32
def winPriv : Nat := 2 ^ 56 + 3 * 2 ^ 32

/-- The space of a crew; `sup` may add supervisor rights, for its private slice (R170). -/
def State.space (s : State) (c : Crew) (sup : Bool) : Space :=
  match s.launch? c.task.launch with
  | some l => ⟨l.slot.getD 64, l.desc.rootpt, sup || c.r.flt.sup, c.core⟩
  | none => ⟨64, 0, sup || c.r.flt.sup, c.core⟩

/-- The launch of a crew asks for the race filter (R309). -/
def State.raceOn (s : State) (c : Crew) : Bool :=
  match s.launch? c.task.launch with
  | some l => bit l.packet.flags 0
  | none => false

/-- The scratchpad window of a crew in bytes: base and size (R167). -/
def Regs.spmWindow (r : Regs) : Nat × Nat := (r.spmBase.toNat * 128, r.spmSize.toNat * 128)

/-- The enabled physical cores of a physical raft, in member order (R9, R394). -/
def State.raftMembers (s : State) (raft : Nat) : List Nat :=
  ((List.range 4).map fun m => raft * 4 + m).filter fun k =>
    !((s.hub.regs.harv.getD (k / 36) 0).getLsbD (k % 36))

/-- What a location check answers. -/
inductive Located where
  | ok (l : Loc) (page : Option (Nat × Nat))
  | fault (c : FltCode)
  deriving DecidableEq, Repr

/-- An access of `size` bytes at a global address. -/
def State.locateGlobal (c : Crew) (n : Need) (a : Dword) (s : State) : State × Located :=
  match s.translate (s.space c false) n a.toNat with
  | (s, .fault f) => (s, .fault f)
  | (s, .ok leaf pa page) =>
    let reg : Region := match ptePk leaf with
      | 0 => .chunked
      | 1 => .stream
      | _ => .system
    (s, .ok ⟨reg, pa, a, reg == .chunked && bit leaf.toNat 7 && s.raceOn c, BitVec.ofNat 12 (pteKey leaf)⟩ (some page))

/-- The byte of a thread's slice at an offset, as a virtual address (R268). -/
def Launch.sliceVa (l : Launch) (group : Nat) (t : Fin 32) (o : Nat) : Nat :=
  l.desc.privbase.toNat + (group * 32 + t.val) * l.packet.privreq + o

/-- An access through the private window (R170): thread `t`'s own slice, with supervisor rights. -/
def State.locatePriv (c : Crew) (t : Option (Fin 32)) (n : Need) (a : Dword) (o size : Nat) (s : State) : State × Located :=
  match s.launch? c.task.launch, c.task.group, t with
  | some l, some g, some t =>
    if l.packet.privreq < o + size then (s, .fault .prot)
    else match s.translate (s.space c true) n (l.sliceVa g t o % 2 ^ 57) with
      | (s, .fault f) => (s, .fault f)
      | (s, .ok leaf pa page) => (s, .ok ⟨.priv, pa, a, false, BitVec.ofNat 12 (pteKey leaf)⟩ (some page))
  | _, _, _ => (s, .fault .prot)

/-- A crew of the launch on the core has the bytes in its window (R169). -/
def State.inSomeWindow (s : State) (launch core o size : Nat) : Bool :=
  s.crews.any fun d =>
    match d.place with
    | .slot k _ =>
      k == core && d.task.launch == launch && d.r.spmWindow.1 ≤ o && o + size ≤ d.r.spmWindow.1 + d.r.spmWindow.2
    | _ => false

/-- An access through a window that is not translated (R166, R169, R171). -/
def State.locateWindow (c : Crew) (t : Option (Fin 32)) (n : Need) (a : Dword) (size : Nat) (s : State) : State × Located :=
  let o := a.toNat % 2 ^ 32
  let w := c.r.spmWindow
  if winOwn ≤ a.toNat && decide (a.toNat < winRaft) then
    if 2 ^ 19 < w.1 + o + size then (s, .fault .prot)
    else if w.2 < o + size then (s, .fault .spmbound)
    else (s, .ok ⟨.spad, keySpad c.core (w.1 + o), a, false, 0⟩ none)
  else if winRaft ≤ a.toNat && decide (a.toNat < winRaft + 4 * 2 ^ 19) then
    match (s.raftMembers (c.core / 4))[o / 2 ^ 19]? with
    | none => (s, .fault .prot)
    | some k =>
      if s.inSomeWindow c.task.launch k (o % 2 ^ 19) size then (s, .ok ⟨.spad, keySpad k (o % 2 ^ 19), a, false, 0⟩ none)
      else (s, .fault .spmbound)
  else if winPkg ≤ a.toNat && decide (a.toNat < winPriv) then
    if o + size ≤ s.hub.spadUnits.val * 2 ^ 25 then (s, .ok ⟨.pkg, keyPkg o, a, false, 0⟩ none) else (s, .fault .prot)
  else if winPriv ≤ a.toNat && decide (a.toNat < winPriv + 2 ^ 32) then s.locatePriv c t n a o size
  else (s, .fault .prot)

/-- Where an access of `size` bytes at `a` by thread `t` goes (R166, R180): MISALIGN first, then the window and
translation checks. -/
def State.locate (c : Crew) (t : Option (Fin 32)) (n : Need) (a : Dword) (size : Nat) (s : State) : State × Located :=
  if a.toNat % size ≠ 0 then (s, .fault .misalign)
  else if 2 ^ 57 ≤ a.toNat then (s, .fault .prot)
  else if a.toNat < winOwn then s.locateGlobal c n a
  else s.locateWindow c t n a size

end Sys2Proof.Machine
end

