-- ==== Sys2Proof/Machine/RaceFilter.lean ====
section
/-! DEFINITION. The series-parallel rule (R290, R291) and the race filter (R309 to R315). -/
namespace Sys2Proof.Machine

/-- How two strands stand to one another (R290); the flag tells that the first is first, or is the low side. -/
inductive Rel where
  | same
  | ser (first : Bool)
  | par (low : Bool)
  deriving DecidableEq, Repr

/-- relate of R290 on pedigrees. -/
def relate : List Level → List Level → Rel
  | [], [] => .same
  | [], _ => .ser true
  | _, [] => .ser false
  | [x], [y] =>
    if x = y then .same
    else if x.rank = y.rank then .ser true else .ser (decide (x.rank < y.rank))
  | x :: xs, y :: ys =>
    if x = y && !xs.isEmpty && !ys.isEmpty then relate xs ys
    else if x.rank = y.rank then
      (if xs.isEmpty then .ser true else if ys.isEmpty then .ser false else .ser (decide (x.mark < y.mark)))
    else
      let low := decide (x.rank < y.rank)
      let deep := if low then !xs.isEmpty else !ys.isEmpty
      let high := if low then y else x
      let lowRank := if low then x.rank else y.rank
      if deep && decide (high.mark ≤ lowRank) then .par low else .ser low

/-- English and Hebrew order (R291). -/
def english (a b : List Level) : Bool :=
  match relate a b with
  | .same => false
  | .ser f => f
  | .par l => l
def hebrew (a b : List Level) : Bool :=
  match relate a b with
  | .same => false
  | .ser f => f
  | .par l => !l
def isPar (a b : List Level) : Bool :=
  match relate a b with
  | .par _ => true
  | _ => false

/-- The physical address and the key slot at which the hub writes a virtual address of a launch: by a walk of its tables, which
sets AF and DF (R176); no core's translations have a part in it. -/
def State.hubPlace (l : Launch) (va : Nat) (s : State) : State × Option (Nat × Nat) :=
  match s.walk (l.slot.getD 64) va 4 l.desc.rootpt 55 with
  | (s, .fault _, _) => (s, none)
  | (s, .leaf e shift pte, _) =>
    let s := if bit e.toNat 8 && bit e.toNat 9 then s else s.setPteBits 0x300 pte
    (s, some (pteFrame e + va % 2 ^ shift, pteKey e))

/-- Write bytes of one line at a virtual address of a launch (R311, R411): under its page's key, whether that is memory of the
package. -/
def State.pokeLine (l : Launch) (va : Nat) (bytes : List Byte) (s : State) : State × Bool :=
  match s.hubPlace l va with
  | (s, some (pa, slot)) =>
    if isHbm pa then
      let line := lineOf pa
      let cells := cellsAt pa bytes
      ((((((s.readLine line).keyLine line slot).putBytes cells).clearBad cells).dropCopies noCore line).touchL2 noCore line slot
        (s.hub.regs.retSlot slot va) 0 true false true, true)
    else (s, false)
  | (s, none) => (s, false)

/-- Write bytes at a virtual address of a launch, a line at a time; whether all of them reached memory. -/
def State.pokeVa (l : Launch) : Nat → Nat → List Byte → State → State × Bool
  | 0, _, bytes, s => (s, bytes.isEmpty)
  | fuel + 1, va, bytes, s =>
    if bytes.isEmpty then (s, true)
    else
      let n := 128 - va % 128
      match s.pokeLine l va (bytes.take n) with
      | (s, false) => (s, false)
      | (s, true) => State.pokeVa l fuel (va + n) (bytes.drop n) s

/-- Write bytes into the filter region of a launch (R311). -/
def State.pokeRf (l : Launch) (off : Nat) (bytes : List Byte) (s : State) : State :=
  (s.pokeVa l bytes.length (l.desc.rfbase.toNat + off) bytes).1

/-- The bytes of a strand entry (R311). -/
def Strand.bytes (t : Strand) : List Byte :=
  leBytes 4 t.pedigree.length ++ leBytes 4 t.num ++ leBytes 8 0 ++
    ((List.range 32).map fun i => leBytes 4 (match t.pedigree[i]? with | some l => l.word.toNat | none => 0)).flatten ++
    leBytes 16 0

/-- The bytes of a line record (R311). -/
def LineRec.bytes (r : LineRec) : List Byte :=
  leBytes 8 r.line ++ leBytes 4 r.writer ++ leBytes 4 r.rdl ++ leBytes 4 r.rdh ++ leBytes 4 r.wmask.toNat ++
    leBytes 4 r.rmask.toNat ++ leBytes 4 0

/-- The header of the region (R311), which holds its cursor from the start of the launch on. -/
def State.pokeRfHeader (l : Launch) (s : State) : State :=
  s.pokeRf l 0 (leBytes 8 l.rfNext ++ leBytes 8 l.strands.length ++ leBytes 8 l.recs.length ++ leBytes 40 0)

/-- A launch's new filter state, in the model's records and in the region. -/
def State.setRf (l : Launch) (s : State) : State := (s.mapLaunch l.uid fun _ => l).pokeRfHeader l

/-- The strand of a pedigree, numbered at its first tracked access (R310); `none` where the region is full (R315). -/
def State.strandOf (c : Crew) (pg : List Level) (s : State) : Option (State × Nat) :=
  match s.launch? c.task.launch with
  | none => some (s, 0)
  | some l =>
    match l.strands.find? fun t => t.pedigree == pg with
    | some t => some (s, t.num)
    | none =>
      let n := l.strands.length + 1
      if l.desc.rfsize < l.rfNext + 160 || 2 ^ 32 ≤ n then none
      else
        let t : Strand := ⟨n, pg, l.rfNext⟩
        some (((s.setRf { l with strands := l.strands ++ [t], rfNext := l.rfNext + 160 }).pokeRf l t.off t.bytes), n)

/-- The pedigree of a strand number. -/
def Launch.pedigreeOf (l : Launch) (n : Nat) : List Level :=
  match l.strands.find? fun t => t.num == n with
  | some t => t.pedigree
  | none => []

/-- Writer and reader slots of the granule at a physical address (R311, R312). -/
def Launch.granule (l : Launch) (pa : Nat) : Nat × Nat × Nat :=
  let g := pa / 4 % 32
  let rs := l.recs.filter fun r => r.line == lineOf pa
  ((((rs.find? fun r => r.wmask.getLsbD g).map LineRec.writer).getD 0),
    (((rs.find? fun r => r.rmask.getLsbD g).map LineRec.rdl).getD 0),
    (((rs.find? fun r => r.rmask.getLsbD g).map LineRec.rdh).getD 0))

/-- Put a granule's slots into the record of its combination, which takes 32 bytes where it is new (R311); `none` where
the region is full. -/
def State.setGranule (c : Crew) (pa w rl rh : Nat) (s : State) : Option State :=
  match s.launch? c.task.launch with
  | none => some s
  | some l =>
    let bit : BitVec 32 := BitVec.ofNat 32 (2 ^ (pa / 4 % 32))
    let line := lineOf pa
    let cleared := l.recs.map fun r =>
      if r.line = line then { r with wmask := r.wmask &&& ~~~bit, rmask := r.rmask &&& ~~~bit } else r
    let put := fun (r : LineRec) =>
      { r with
        wmask := if w = 0 then r.wmask else r.wmask ||| bit
        rmask := if rl = 0 then r.rmask else r.rmask ||| bit }
    let same := fun (r : LineRec) => r.line == line && r.writer == w && r.rdl == rl && r.rdh == rh
    let write := fun (l' : Launch) (s : State) =>
      (l'.recs.filter fun r => r.line == line).foldl (fun s r => s.pokeRf l' r.off r.bytes) (s.setRf l')
    if w = 0 && rl = 0 then some (write { l with recs := cleared } s)
    else if l.recs.any same then
      some (write { l with recs := cleared.map fun r => if same r then put r else r } s)
    else if l.desc.rfsize < l.rfNext + 32 then none
    else some (write { l with recs := cleared ++ [put ⟨l.rfNext, line, w, rl, rh, 0, 0⟩], rfNext := l.rfNext + 32 } s)

/-- The strand that the access of strand `pg` conflicts with (R312): for a read the granule's writer, for a write any of
its slots; with whether that earlier access wrote. -/
def Launch.conflict (l : Launch) (pg : List Level) (me pa : Nat) (write : Bool) : Option (List Level × Bool) :=
  let (w, rl, rh) := l.granule pa
  let hit := fun n => n != 0 && n != me && isPar (l.pedigreeOf n) pg
  if hit w then some (l.pedigreeOf w, true)
  else if write && hit rl then some (l.pedigreeOf rl, false)
  else if write && hit rh then some (l.pedigreeOf rh, false)
  else none

/-- The race report (R314). -/
def raceReport (va pa : Nat) (write wrote : Bool) (earlier this : List Level) : List Byte :=
  let levels := fun (p : List Level) =>
    ((List.range 32).map fun i => leBytes 4 (match p[i]? with | some l => l.word.toNat | none => 0)).flatten
  leBytes 8 va ++ leBytes 8 pa ++ leBytes 1 (write.toNat + 2 * wrote.toNat) ++ leBytes 1 earlier.length ++
    leBytes 1 this.length ++ leBytes 45 0 ++ levels earlier ++ levels this

/-- What a check of the filter answers: nothing wrong, a race, or no room (R312, R315). -/
inductive RaceAnswer where
  | ok
  | race
  | space
  deriving DecidableEq, Repr

/-- FLTADDR of RFSPACE (R315). -/
def State.rfEnd (s : State) (c : Crew) : Dword :=
  match s.launch? c.task.launch with
  | some l => l.desc.rfbase + BitVec.ofNat 64 l.desc.rfsize
  | none => 0

/-- Check one granule for a strand (R312); a race that is to be noted writes the report first (R314). -/
def State.raceCheck (note : Bool) (c : Crew) (pg : List Level) (va pa : Nat) (write : Bool) (s : State) : State × RaceAnswer :=
  match s.strandOf c pg with
  | none => (s, .space)
  | some (s, me) =>
    match s.launch? c.task.launch with
    | none => (s, .ok)
    | some l =>
      match l.conflict pg me pa write with
      | some (p, wrote) => (if note then s.pokeRf l 64 (raceReport va pa write wrote p pg) else s, .race)
      | none => (s, .ok)

/-- Record one granule at a commit point (R312); `none` where the region is full. -/
def State.raceRecord (c : Crew) (pg : List Level) (pa : Nat) (write : Bool) (s : State) : Option State :=
  match s.strandOf c pg with
  | none => none
  | some (s, me) =>
    match s.launch? c.task.launch with
    | none => some s
    | some l =>
      let (w, rl, rh) := l.granule pa
      if write then s.setGranule c pa me 0 0
      else
        let rl' := if rl = 0 || english pg (l.pedigreeOf rl) then me else rl
        let rh' := if rh = 0 || hebrew (l.pedigreeOf rh) pg then me else rh
        if rl' = rl && rh' = rh then some s else s.setGranule c pa w rl' rh'

/-- The granules of an access of `size` bytes (R309): virtual and physical addresses. -/
def granulesOf (va : Dword) (pa size : Nat) : List (Nat × Nat) :=
  (List.range ((pa % 4 + size + 3) / 4)).map fun i => (va.toNat - va.toNat % 4 + 4 * i, pa - pa % 4 + 4 * i)

/-- The first answer other than `ok` over granules. -/
def State.raceCheckAll (note : Bool) (c : Crew) (pg : List Level) (write : Bool) : List (Nat × Nat) → State → State × RaceAnswer
  | [], s => (s, .ok)
  | (va, pa) :: l, s =>
    match s.raceCheck note c pg va pa write with
    | (s, .ok) => s.raceCheckAll note c pg write l
    | r => r

/-- Check the granules that a write touches: a race names the lowest conflicting one and reports it (R314); or there is no room. -/
def State.raceWrites (c : Crew) (pg : List Level) (gs : List (Nat × Nat)) (s : State) : State × Option (FltCode × Dword) :=
  match gs.filter fun g => (s.raceCheck false c pg g.1 g.2 true).2 == .race with
  | h :: hs =>
    let low := hs.foldl (fun a b => if b.1 < a.1 then b else a) h
    ((s.raceCheck true c pg low.1 low.2 true).1, some (.race, BitVec.ofNat 64 low.1))
  | [] => match s.raceCheckAll false c pg true gs with
    | (s, .space) => (s, some (.rfspace, s.rfEnd c))
    | (s, _) => (s, none)

/-- Record granules in order. -/
def State.raceRecordAll (c : Crew) (pg : List Level) (write : Bool) : List (Nat × Nat) → State → Option State
  | [], s => some s
  | (_, pa) :: l, s => (s.raceRecord c pg pa write).bind (State.raceRecordAll c pg write l)

end Sys2Proof.Machine
end

