-- ==== Sys2Proof/Machine/Access.lean ====
section
/-! DEFINITION. The accesses of one issue: checking them all (R184), reading through the chunk buffer (R181, R215 to
R219, R243), writing into the buffer and the scratchpads (R172, R195, R196, R209, R213), and the signatures (R199). -/
namespace Sys2Proof.Machine

/-- One access of an issue: the thread that makes it (none for a uniform access), its address and size in bytes, and the
bytes of it that a load leaves out because their positions are inactive. -/
structure Want where
  lane : Option (Fin 32)
  addr : Dword
  size : Nat
  idle : BitVec 16
  deriving DecidableEq, Repr

/-- What the checks of one access answer: where it goes and the page it used, or a fault with its address. -/
inductive Probe where
  | ok (l : Loc) (page : Option (Nat × Nat))
  | fault (c : FltCode) (addr : Dword)
  deriving DecidableEq, Repr

/-- A location outside the package. -/
def Loc.away (l : Loc) : Bool := !isHbm l.key && decide (l.key < 2 ^ 52)

/-- The package at which a key of a peer window lies; `none` for the host. -/
def awayPeer (key : Nat) : Option Nat := if isHost key then none else some (peerOf key)

/-- The state of the link to a peer. -/
def State.link (s : State) (peer : Option Nat) : LinkState :=
  match peer with
  | none => .up
  | some k => ((s.hub.links.find? fun l => l.1 == k).map (·.2)).getD .up

/-- An access that needs a reply waits while its link retrains (R415). -/
def State.linkWaits (s : State) (l : Loc) : Bool := l.away && s.link (awayPeer l.key) == .retraining

/-- A byte of the access has an uncorrectable error (R181), or its peer's link is down (R415). -/
def State.badAt (s : State) (key size : Nat) : Bool :=
  (s.bad.any fun b => decide (key ≤ b) && decide (b < key + size)) ||
    (isPeer key && s.hub.links.any fun l => l.1 == peerOf key && l.2 == .down)

/-- A committed byte as a page of a key slot sees it (R417). -/
def State.byteUnder (s : State) (slot : BitVec 12) (k : Nat) : Byte :=
  match s.keyed.find? fun x => x.line == lineOf k with
  | some x =>
    let key := s.material slot.toNat
    if isHbm k && x.key != key then Config.wrongKeyByte x.key key k else s.byte k
  | none => s.byte k

/-- A line's bytes with one buffer entry applied (R213, R243). -/
def BufData.over (d : BufData) (l : List Byte) : List Byte :=
  match d with
  | .bytes bs => bs.foldl (fun l x => l.set x.1 x.2) l
  | .reds op w rs => rs.foldl (fun l r =>
      let old := leNat ((l.drop r.off).take (w / 8))
      (leBytes (w / 8) (reduceOp op w old (r.operand.toNat % 2 ^ w))).zipIdx.foldl (fun l b => l.set (r.off + b.2) b.1) l) l

/-- A released STREAM line shows at a core, or to its own crew (R217). -/
def StreamOut.shows (uid core : Nat) (x : StreamOut) : Bool := x.crew == uid || x.seen.contains core

/-- The writes to lines that the chunk holds: its buffer, then those that ORD keeps for step 6 (R195, R222). -/
def Chunk.entries (ch : Chunk) : List BufLine :=
  ch.buf ++ ch.acts.filterMap fun a => match a.kind with
    | .late b => some b
    | _ => none

/-- The scratchpad bytes that ORD keeps for step 6 (R222). -/
def Chunk.lateCells (ch : Chunk) : List (Nat × Byte) :=
  ch.acts.flatMap fun a => match a.kind with
    | .lateSpad cells => cells
    | _ => []

/-- The entries that the crew in focus sees over a line's bytes at its home: released STREAM lines on their way there that it
can see, then its own chunk's. -/
def State.ownEntries (s : State) (line : Nat) : List BufData :=
  (s.streams.filter fun x => x.shows s.focus.uid s.focus.core && x.line.line == line).map (fun x => x.line.data) ++
    (s.focus.chunk.entries.filter fun b => b.line == line).map BufLine.data

/-- A load of the crew in focus takes a byte from what the crew itself has written, and not from memory (R181). -/
def State.ownByte (s : State) (l : Loc) (k : Nat) : Bool :=
  match l.region with
  | .system => false
  | .spad => s.focus.chunk.lateCells.any fun x => x.1 == k
  | _ => (s.ownEntries (lineOf k)).any fun d => match d with
    | .bytes bs => bs.any fun x => x.1 == k % 128
    | .reds _ _ _ => false

/-- A byte of memory as a load finds it outside its crew: committed, or answered by the host or a peer. -/
def State.outerByte (s : State) (slot : BitVec 12) (k : Nat) : Byte :=
  if isHbm k || 2 ^ 52 ≤ k then s.byteUnder slot k else Config.outsideByte s.free k

/-- The granules that a read touches (R309): those with a byte that an active position reads. -/
def readGranules (l : Loc) (w : Want) : List (Nat × Nat) :=
  (granulesOf l.va l.key w.size).filter fun g =>
    (List.range w.size).any fun i => (l.key + i) / 4 == g.2 / 4 && !w.idle.getLsbD i

/-- A byte that an active position reads from memory has an uncorrectable error (R181). -/
def State.badRead (s : State) (l : Loc) (size : Nat) (idle : BitVec 16) : Bool :=
  (List.range size).any fun i => !idle.getLsbD i && !s.ownByte l (l.key + i) && s.badAt (l.key + i) 1

/-- The checks of one access of the crew in focus (R166 to R175, R247, R181, R312); `note` that a race is reported (R314): no access
before it has failed. -/
def State.probe (n : Need) (race note : Bool) (w : Want) (s : State) : State × Probe :=
  match s.locate s.focus w.lane n w.addr w.size with
  | (s, .fault f) => (s, .fault f w.addr)
  | (s, .ok l page) =>
    if n.rd && s.badRead l w.size w.idle then (s.takeBad l.key w.size, .fault .memerr (BitVec.ofNat 64 l.key))
    else if race && l.rt then
      match s.raceCheckAll note s.focus s.focus.r.pedigree false (readGranules l w) with
      | (s, .ok) => (s, .ok l page)
      | (s, .race) => (s, .fault .race w.addr)
      | (s, .space) => (s, .fault .rfspace (s.rfEnd s.focus))
    else (s, .ok l page)

/-- The checks of one access of an atomic or RED: an address of the private window raises PROT untranslated (R240), and an
error in the bytes that it combines with, MEMERR (R252), at issue where it stands there (log entry 115). -/
def State.probeAtom (n : Need) (w : Want) (s : State) : State × Probe :=
  if w.addr.toNat % w.size = 0 && decide (winPriv ≤ w.addr.toNat) && decide (w.addr.toNat < winPriv + 2 ^ 32) then
    (s, .fault .prot w.addr)
  else match s.probe n false false w with
    | (s, .ok l page) => if s.badRead l w.size 0 then (s.takeBad l.key w.size, .fault .memerr (BitVec.ofNat 64 l.key)) else (s, .ok l page)
    | r => r

/-- An access has passed its checks. -/
def Probe.isOk : Probe → Bool
  | .ok _ _ => true
  | .fault _ _ => false

/-- The checks of every access of an issue, in order; each learns whether those before it have passed. -/
def probeEach (f : Bool → Want → State → State × Probe) : Bool → List Want → State → State × List (Want × Probe)
  | _, [], s => (s, [])
  | fine, w :: ws, s =>
    let (s, p) := f fine w s
    let (s, ps) := probeEach f (fine && p.isOk) ws s
    (s, (w, p) :: ps)

def State.probeAll (n : Need) (race : Bool) (ws : List Want) (s : State) : State × List (Want × Probe) :=
  probeEach (State.probe n race) true ws s

/-- The fault of an issue (R184): of the first faulting access, naming every lane with one. -/
def probeFault (ps : List (Want × Probe)) : Option Flt :=
  let bad := ps.filterMap fun x => match x.2 with
    | .fault c a => some (x.1.lane, c, a)
    | .ok _ _ => none
  match bad with
  | [] => none
  | (l, c, a) :: _ =>
    some ⟨c, a, if l.isNone then none else some (laneSet (bad.filterMap fun x => x.1)), none⟩

/-- The locations of an issue without a fault. -/
def probeLocs (ps : List (Want × Probe)) : List (Want × Loc) :=
  ps.filterMap fun x => match x.2 with
    | .ok l _ => some (x.1, l)
    | .fault _ _ => none

/-- The word in issue, as the origin of an action. -/
def State.origin (s : State) : Origin := ⟨s.clause.addr, BitVec.ofNat 4 s.clause.idx, s.clause.lanes⟩

/-- Translations that the chunk used (R186). -/
def Chunk.uses (pages : List (Nat × Nat)) (ch : Chunk) : Chunk :=
  { ch with used := pages.foldl (fun l p => if l.contains p then l else p :: l) ch.used }

/-- The pages whose translations the issue used (R186), and the boundary that a SYSTEM access makes (R194). -/
def notePages (ps : List (Want × Probe)) (ch : Chunk) : Chunk :=
  let pages := ps.filterMap fun x => match x.2 with
    | .ok _ p => p
    | .fault _ _ => none
  let sys := (probeLocs ps).any fun x => x.2.region == .system
  { ch.uses pages with ends := ch.ends || sys }

/-- The crew in focus has used the translation of an address that its core holds (R186): of a fetch, a prefetch. -/
def State.noteUse (va : Nat) (s : State) : State :=
  match s.ownCore.tlb.find? (TlbEntry.hits (s.space s.focus false) va) with
  | some e => if va < winOwn then s.mapChunk (Chunk.uses [(e.page * 2 ^ e.shift, e.shift)]) else s
  | none => s

/-- A further check of a location after those of every access. -/
def probeWith (extra : Loc → Option FltCode) (ps : List (Want × Probe)) : List (Want × Probe) :=
  ps.map fun x => match x.2 with
    | .ok l _ => match extra l with
      | some c => (x.1, .fault c x.1.addr)
      | none => x
    | .fault _ _ => x

/-- An issue whose accesses have been checked: the fault, with none performed, or the continuation on the locations
(R184). -/
def State.checkedAll (extra : Loc → Option FltCode) (p : State × List (Want × Probe)) (k : List (Want × Loc) → State → State) : State :=
  let ps := probeWith extra p.2
  match probeFault ps with
  | some f => p.1.raise f
  | none => k (probeLocs ps) (p.1.mapChunk (notePages ps))

/-- An issue of accesses: every check, then what follows. -/
def State.access (n : Need) (race : Bool) (extra : Loc → Option FltCode) (ws : List Want) (s : State)
    (k : List (Want × Loc) → State → State) : State := State.checkedAll extra (s.probeAll n race ws) k

/-- An issue of atomics or REDs. -/
def State.accessAtom (n : Need) (extra : Loc → Option FltCode) (ws : List Want) (s : State) (k : List (Want × Loc) → State → State) :
    State := State.checkedAll extra (probeEach (fun _ => State.probeAtom n) true ws s) k

/-! Reading -/

/-- `n` bytes at a location, the newest visible to the crew (R181). -/
def State.readLoc (s : State) (l : Loc) (n : Nat) : List Byte :=
  match l.region with
  | .spad => (List.range n).map fun i => overlay s.focus.chunk.lateCells s.byte (l.key + i)
  | .system => (List.range n).map fun i => s.outerByte l.slot (l.key + i)
  | _ =>
    let line := lineOf l.key
    match s.ownEntries line with
    | [] => (List.range n).map fun i => s.outerByte l.slot (l.key + i)
    | es =>
      let base := (List.range 128).map fun i => s.outerByte l.slot (line * 128 + i)
      ((es.foldl (fun b d => d.over b) base).drop (l.key % 128)).take n

/-- Before a read the partials of its lines merge (R245), or the read waits for their landings; it waits too for a home that does
not answer (R203). -/
def State.mergeReads : List Loc → State → State × Bool
  | [], s => (s, true)
  | l :: ls, s =>
    match if l.region == .spad then (s, true) else if s.homeBusy s.focus.uid (lineOf l.key) || s.linkWaits l then (s, false)
        else s.mergeFor s.focus.uid (lineOf l.key) with
    | (s, true) => s.mergeReads ls
    | (s, false) => (s, false)

/-- The race-tracked reads of an access (R309). -/
def State.trackReads (s : State) (w : Want) (l : Loc) : List Tracked :=
  if l.rt then (readGranules l w).map fun g =>
    ⟨BitVec.ofNat 64 g.1, g.2, false, s.clause.addr, BitVec.ofNat 4 s.clause.idx, s.clause.lanes⟩
  else []

/-- The line of a read enters the signature and the landing mask (R199). -/
def Chunk.signRead (l : Loc) (ch : Chunk) : Chunk :=
  if l.region.signed then
    { ch with
      rsig := sigAdd (lineOf l.key) ch.rsig
      rmask := ch.rmask ||| BitVec.ofNat 200 (2 ^ landingOf (lineOf l.key)) }
  else ch

/-- What a read leaves behind: signature and landing mask (R199), race record (R312), and a counter step where the outside
answered. -/
def State.noteRead (race : Bool) (w : Want) (l : Loc) (s : State) : State :=
  let s := s.mapChunk fun ch =>
    let ch := ch.signRead l
    if race then { ch with tracked := ch.tracked ++ s.trackReads w l } else ch
  if l.region == .spad || isHbm l.key || 2 ^ 52 ≤ l.key then s else { s with free := s.free + 1 }

/-- The hint under which a line is placed: none for the private window (R166). -/
def Loc.hint (l : Loc) (hint : Fin 8) : Fin 8 := if l.region == .priv then 0 else hint

/-- The requests of an issue's accesses to lines that are cached, one a line, in the order of the lowest lane that touches
each (R189, R441). -/
def lineRequests (ls : List Loc) : List Loc :=
  (ls.filter fun l => isHbm l.key && l.region != .system).foldl
    (fun out l => if out.any fun x => lineOf x.key == lineOf l.key then out else out ++ [l]) []

/-- The reads of an issue: each leaves its traces, and those of a load make their requests of the caches (R441). -/
def State.noteReads (load : Bool) (hint : Fin 8) (ls : List (Want × Loc)) (s : State) : State :=
  let s := ls.foldl (fun s x => s.noteRead load x.1 x.2) s
  if load then
    (lineRequests (ls.map (·.2))).foldl
      (fun s l => s.touchRead s.focus.core l.slot.toNat (lineOf l.key) l.va.toNat (l.hint hint)) s
  else s

/-- The values of the accesses, read one after another (R218: outside reads are separate events). -/
def State.readAll (ls : List (Want × Loc)) (s : State) : List (Want × Nat) :=
  ls.zipIdx.map fun x =>
    (x.1.1, leNat (State.readLoc { s with free := s.free + x.2 } x.1.2 x.1.1.size))

/-! Writing -/

/-- Held SYSTEM stores and REDs take a buffer line each (R195). -/
def ActKind.takesLine : ActKind → Bool
  | .sysStore _ _ | .sysRed _ _ _ _ => true
  | _ => false

/-- Data joins a buffer entry of its own kind (R195, R213, R243). -/
def BufData.join : BufData → BufData → Option BufData
  | .bytes a, .bytes b => some (.bytes (a.filter (fun x => !b.any fun y => y.1 == x.1) ++ b))
  | .reds o w a, .reds o' w' b => if o = o' && w = w' then some (.reds o w (a ++ b)) else none
  | _, _ => none

/-- Entries of one line that both commit at the commit point, or are both released in step 6 (R219). -/
def BufLine.alike (a b : BufLine) : Bool := a.line == b.line && a.region.signed == b.region.signed

/-- An entry that would have joined the last one like it, and stands apart only for the order in which writes become visible: it
takes no further line (R195, R222, R243). -/
def apartOnly (l : List BufLine) (b : BufLine) (i : Nat) : Bool :=
  match ((l.take i).filter b.alike).getLast? with
  | some a => (a.data.join b.data).isSome
  | none => false

/-- Chunk-buffer lines in use (R195, R233). -/
def Chunk.lines (ch : Chunk) : Nat :=
  (ch.entries.zipIdx.filter fun b => !apartOnly ch.entries b.1 b.2).length + (ch.acts.filter fun a => a.kind.takesLine).length

/-- The most recent entry of a line, with its place. -/
def lastEntry (line : Nat) (buf : List BufLine) : Option (BufLine × Nat) :=
  (buf.zipIdx.filter fun b => b.1.line == line).getLast?

/-- The bytes of its line that an entry writes. -/
def BufData.offsets : BufData → List Nat
  | .bytes l => l.map (·.1)
  | .reds _ w l => l.flatMap fun r => (List.range (w / 8)).map (r.off + ·)

/-- An entry that a write of the commit point overwrites in part commits with it, ahead of it: a crew's writes of one byte keep
their order (R216, R219; log entry 110). -/
def BufLine.overtaken (b e : BufLine) : BufLine :=
  if b.region.signed && !e.region.signed && e.line == b.line && e.data.offsets.any b.data.offsets.contains then
    { e with region := b.region, gen := 0 }
  else e

/-- Data enters the chunk buffer: it joins the most recent entry of its line where that is of its kind and no release write
stands between, else it takes a further entry; `none` for a 33rd line (R196). -/
def Chunk.enter (ch : Chunk) (b : BufLine) : Option Chunk :=
  let buf := ch.buf.map b.overtaken
  let new := { ch with buf := buf ++ [b] }
  let room := if new.lines ≤ 32 then some new else none
  match lastEntry b.line buf with
  | some (e, i) => match e.gen == b.gen && e.alike b, e.data.join b.data with
    | true, some d => some { ch with buf := buf.set i { e with data := d, hint := b.hint, sc := e.sc || b.sc } }
    | _, _ => room
  | none => room

/-- Later STREAM writes of a line do not join those before this point, which another write or atomic of the line follows (R216). -/
def Chunk.split (line : Nat) (ch : Chunk) : Chunk :=
  if ch.buf.any fun b => b.region == .stream && b.line == line then { ch with gen := ch.gen + 1 } else ch

/-- A step-6 action joins the chunk. -/
def Chunk.act (o : Origin) (k : ActKind) (ch : Chunk) : Chunk := { ch with acts := ch.acts ++ [⟨o, k⟩] }

/-- The release of a STREAM line takes the place of its last write (R203) since the chunk's last release write (R222,
R225). -/
def Chunk.actStream (o : Origin) (line gen : Nat) (ch : Chunk) : Chunk :=
  { ch with acts := ch.acts.filter (fun a => !(a.kind == .streamLine line gen)) ++ [⟨o, .streamLine line gen⟩] }

/-- LANDING for an access (R196). -/
def landingFlt (a : Dword) : Flt := ⟨.landing, a, none, none⟩

/-- A scratchpad granule is logged before its first write in the chunk (R209): two units. -/
def State.logGranule (a : Dword) (key : Nat) (s : State) (k : State → State) : State :=
  let g := key / 32 * 32
  let ch := s.focus.chunk
  if ch.logS.any fun e => e.key == g then k s
  else if 256 < ch.logUnits + 2 then s.raise (landingFlt a)
  else k (s.mapChunk fun ch => { ch with logS := ⟨g, s.bytes g 32⟩ :: ch.logS, logUnits := ch.logUnits + 2 })

/-- The 4 KiB granule of the window that holds a scratchpad byte becomes dirty (R399). -/
def State.markDirty (key : Nat) (s : State) : State :=
  if key < 2 ^ 53 || 2 ^ 54 ≤ key then s
  else
    let core := (key - 2 ^ 53) / 2 ^ 19
    let o := (key - 2 ^ 53) % 2 ^ 19
    s.mapCrews fun c =>
      let w := c.r.spmWindow
      match c.place with
      | .slot k _ =>
        if k = core && w.1 ≤ o && o < w.1 + w.2 && !c.dirty.contains ((o - w.1) / 4096) then
          { c with dirty := (o - w.1) / 4096 :: c.dirty } else c
      | _ => c

/-- One store of an issue: bytes at offsets from the location (R183). -/
structure Put where
  want : Want
  loc : Loc
  data : List (Nat × Byte)
  deriving DecidableEq, Repr

/-- An access that is performed in step 6 only, and no later than its chunk's other actions (R203, R241). -/
def ActKind.stays : ActKind → Bool
  | .atom _ | .load _ | .spadRed .. | .late _ | .lateSpad _ | .plog .. | .viewApp .. => true
  | _ => false

/-- ORD keeps a write of the clause in issue for step 6: behind an acquire that is performed there, or, a release, behind any access
that is (R222, R248, log entry 118). -/
def State.keepsWrite (s : State) : Bool :=
  s.focus.chunk.holdAll || ((s.clause.order.any fun o => o.1 == 2 || o.1 == 3 || o.1 == 4) && s.focus.chunk.acts.any fun a => a.kind.stays)

/-- A write of the line is kept for step 6: later ones of it keep behind it (R216). -/
def Chunk.keepsLine (ch : Chunk) (line : Nat) : Bool :=
  ch.acts.any fun a => match a.kind with
    | .late b => b.line == line
    | _ => false

/-- A write to a line enters the chunk: its buffer, with the place of a STREAM line among the step-6 actions, or those actions
themselves where ORD keeps it (R195, R203, R222); `none` for a 33rd line (R196). -/
def State.enterLine (s : State) (b : BufLine) : Option Chunk :=
  let ch := s.focus.chunk
  let sign := fun (ch : Chunk) => if b.region.signed then { ch with wsig := sigAdd b.line ch.wsig } else ch
  if (s.keepsWrite && b.region != .stream) || ch.keepsLine b.line then
    let ch := (ch.split b.line).act s.origin (.late b)
    if ch.lines ≤ 32 then some (sign ch) else none
  else if b.region == .stream then (ch.enter b).map (Chunk.actStream s.origin b.line b.gen)
  else (ch.enter b).map sign

/-- The chunk-buffer entry of an access's data. -/
def State.entryOf (s : State) (hint : Fin 8) (l : Loc) (d : BufData) : BufLine :=
  ⟨l.region, lineOf l.key, l.va &&& ~~~127, l.hint hint, l.slot, if l.region == .stream then s.focus.chunk.gen else 0,
    l.region == .stream && s.clause.sc, d⟩

/-- One store (R172, R195, R199, R217, R218); a store of no byte takes nothing. -/
def State.store (hint : Fin 8) (p : Put) (s : State) (k : State → State) : State :=
  let l := p.loc
  if p.data.isEmpty then k s else
  match l.region with
  | .spad => s.logGranule p.want.addr l.key fun s =>
      let cells := p.data.map fun x => (l.key + x.1, x.2)
      let kept := s.focus.chunk.lateCells.any fun x => cells.any fun y => y.1 == x.1
      k (if s.keepsWrite || kept then s.mapChunk (Chunk.act s.origin (.lateSpad cells)) else (s.putBytes cells).markDirty l.key)
  | .system =>
    if s.focus.chunk.lines < 32 then k (s.mapChunk fun ch => (ch.split (lineOf l.key)).act s.origin (.sysStore l p.data))
    else s.raise (landingFlt p.want.addr)
  | _ =>
    match s.enterLine (s.entryOf hint l (.bytes (p.data.map fun x => (l.key % 128 + x.1, x.2)))) with
    | none => s.raise (landingFlt p.want.addr)
    | some ch =>
      let ch := if l.rt then { ch with
          tracked := ch.tracked ++ (p.data.map fun x => ((l.va.toNat + x.1) / 4 * 4, (l.key + x.1) / 4 * 4)).eraseDups.map
            fun g => ⟨BitVec.ofNat 64 g.1, g.2, true, s.clause.addr, BitVec.ofNat 4 s.clause.idx, s.clause.lanes⟩ }
        else ch
      k (s.mapChunk fun _ => ch)

/-- The stores of an issue, in increasing thread and position (R183). -/
def State.storeAll (hint : Fin 8) : List Put → State → (State → State) → State
  | [], s, k => k s
  | p :: ps, s, k => s.store hint p fun s => s.storeAll hint ps k

end Sys2Proof.Machine
end

