-- ==== Sys2Proof/Machine/LoadStore.lean ====
section
/-! DEFINITION. The loads and stores (R178 to R184), and ORD (R36, R222, R229). -/
namespace Sys2Proof.Machine

/-- The guard and hint of an MX word, unguarded and normal where there is none (R30, R34). -/
def mxGuard (mx : Option Mx) : Guard := match mx with | some m => m.guard | none => ⟨false, 0⟩
def mxHint (mx : Option Mx) : Fin 8 := match mx with | some m => m.hint | none => 0

/-- The threads with an active position counted in `n` (R61). -/
def guardLanes (r : Regs) (g : Guard) (n : Nat) (lanes : List (Fin 32)) : List (Fin 32) :=
  lanes.filter fun t => !(activePos r g n t).isEmpty

/-- Undo-log entries of several v registers (R209). -/
def logVs : List (Fin 64) → State → (State → State) → State
  | [], s, k => k s
  | d :: ds, s, k => logV (.v d) s fun s => logVs ds s k

/-- What kind of access ORD governs (R222): a load, whether it is held; a store or RED, whether it commits at the commit point;
a returning atomic. -/
inductive Ordered where
  | load (held : Bool)
  | write (home : Bool)
  | atom
  deriving DecidableEq, Repr

/-- An acquire of this kind is performed in step 6, after what follows it has issued, so that it holds every later load
(R222, R248). -/
def Ordered.late : Ordered → Bool
  | .load held => held
  | .write _ => false
  | .atom => true

/-- What a release of order `o` and a scope asks for, `before` actions into the chunk, `after` with the access itself (R222): a
sequentially consistent write is visible too before the commit goes on. -/
def relMarks (k : Ordered) (o : Fin 8) (scope before after : Nat) : List RelMark :=
  match k with
  | .load _ => if o = 4 then [⟨before, scope, true⟩] else []
  | .write home => if o = 2 then [⟨before, scope, home⟩] else if o = 4 then [⟨before, scope, home⟩, ⟨after, scope, true⟩] else []
  | .atom => if o = 2 || o = 3 || o = 4 then [⟨before, scope, false⟩] else []

/-- What ORD asks of the access that it governs (R194, R222, R224, R248): `before` is the number of step-6 actions ahead
of it. Later STREAM writes do not join a sequentially consistent one (R224). -/
def State.ordered (k : Ordered) (before : Nat) (s : State) : State :=
  match s.clause.order with
  | none => s
  | some (o, scope) =>
    s.mapChunk fun ch =>
      { ch with
        gen := if o = 4 then ch.gen + 1 else ch.gen
        ends := ch.ends || o != 0
        rels := ch.rels ++ relMarks k o scope.val before ch.acts.length
        holdAll := ch.holdAll || (k.late && (o == 1 || o == 3 || o == 4))
        holdSc := ch.holdSc || (o == 4 && match k with | .load _ => false | _ => true) }

/-- A release write is kept apart from the writes before it (R222). -/
def State.newGen (s : State) : State :=
  if s.clause.order.any fun o => o.1 == 2 || o.1 == 3 || o.1 == 4 then s.mapChunk fun ch => { ch with gen := ch.gen + 1 } else s

/-- No further check. -/
def noExtra : Loc → Option FltCode := fun _ => none

/-- An element value in every position (R181 LDE). -/
def replicateElem (ty : Fin 16) (y : Nat) : Dword :=
  BitVec.ofNat 64 (((List.range (tagCount ty)).map fun e => y * 2 ^ (tagWidth ty * e)).sum)

/-- What a load makes of the values that it reads (R181). -/
def LoadDest.value (x : LoadDest) (vs : List Nat) : Dword :=
  let y := vs.getD x.src 0 / 2 ^ x.drop
  match x.rep, x.sext with
  | some ty, _ => replicateElem ty y
  | none, some w => BitVec.ofInt 64 (signedOf w y)
  | none, none => BitVec.ofNat 64 (y * 2 ^ x.up)

/-- The register write of a load's values. -/
def LoadDest.fill (vs : List Nat) (x : LoadDest) : RegWrite :=
  match x.write with
  | .v d t m _ tag => .v d t m (x.value vs) tag
  | .s d _ => .s d (x.value vs)
  | w => w

/-- A whole value into the masked bits of a thread's v register. -/
def destV (src drop : Nat) (d : Fin 64) (t : Fin 32) (m : Dword) (tag : Fin 16) : LoadDest := ⟨src, drop, none, none, 0, .v d t m 0 tag⟩

/-- ORD holds a load behind an atomic or a sequentially consistent write of its clause (R222, R224, R248). -/
def State.holdsLoad (s : State) : Bool := s.focus.chunk.holdAll || (s.focus.chunk.holdSc && s.clause.sc)

/-- The next number for a command, an atomic, a held load or a STREAM line. -/
def State.freshId (s : State) : State × Nat := ({ s with uids := s.uids + 1 }, s.uids)

/-- The word in issue is an acquire (R222). -/
def Clause.acquires (c : Clause) : Bool := c.order.any fun o => o.1 == 1 || o.1 == 3 || o.1 == 4

/-- The locations of a load are performed at its issue (R181, R199), or join the step-6 actions where ORD holds them; its reads are
in the signature from its issue on. -/
def State.performLoad (dsts : List Dst) (hint : Fin 8) (ls : List (Want × Loc)) (dests : List LoadDest) (s : State) : State :=
  let flag := s.clause.flag false
  let before := s.focus.chunk.acts.length
  if s.holdsLoad then
    let (s, id) := s.freshId
    let job : LoadJob := ⟨id, hint, s.clause.acquires, s.focus.chunk.gen, ls.map fun x => ⟨x.2, x.1.size, x.1.idle⟩, dests⟩
    let s := s.mapChunk fun ch => { ls.foldl (fun ch x => ch.signRead x.2) (ch.act s.origin (.load job)) with
      ends := true, gen := ch.gen + 1, tracked := ch.tracked ++ ls.flatMap fun x => s.trackReads x.1 x.2 }
    (s.holdResult flag (.held id) dsts s.lanes [] 0).ordered (.load true) before
  else
    match s.mergeReads (ls.map (·.2)) with
    | (s, false) => s.hold
    | (s, true) =>
      let vs := (s.readAll ls).map (·.2)
      ((s.noteReads true hint ls).holdResult flag .plain dsts s.lanes (dests.map (LoadDest.fill vs)) 0).ordered (.load false) before

/-- A load (R181): the guard is checked for HAZARD in the issuing threads, `uses` and the destinations in the active
ones; `dests` are its register writes. -/
def State.loadIssue (ty : Fin 16) (handle : Bool) (guardUse : List Use) (uses : List Use) (dsts : List Dst) (hint : Fin 8)
    (wants : List Want) (dests : List LoadDest) (s : State) : State :=
  if ty = tHND && handle && !s.focus.r.flt.sup then s.raise (flt .priv 0)
  else checked (guardUse ++ uses) s fun s =>
    s.access ⟨true, false, false⟩ true noExtra wants fun ls s =>
      logVs (dsts.filterMap fun d => match d with | .v d => some d | _ => none) s fun s => s.performLoad dsts hint ls dests

/-- The address of a thread's access (R180). -/
def vaOf (r : Regs) (base : Fin 64) (off scale : Nat) (t : Fin 32) : Dword :=
  (r.readV base t).val + BitVec.ofNat 64 (off * scale)

/-- The mask of the active positions of a thread (R62). -/
def actMask (r : Regs) (g : Guard) (ty : Fin 16) (t : Fin 32) : Dword :=
  (activePos r g (tagCount ty) t).foldl (fun m e => m ||| posMask (tagWidth ty) e) 0

/-- The bytes of an access of one or two whole registers that no active position reads (R181). -/
def idleBytes (r : Regs) (g : Guard) (ty : Fin 16) (t : Fin 32) : BitVec 16 :=
  let m := actMask r g ty t
  BitVec.ofNat 16 ((((List.range 16).filter fun i => m.getLsbD (8 * (i % 8)) == false).map fun i => 2 ^ i).sum)

/-- The guard of an access as a use (R25). -/
def guardUse (g : Guard) (s : State) : List Use := [⟨.q, g.q.val, s.lanes⟩]

/-- LD and LDE: one access per active thread. -/
def State.ldIssue (elem : Bool) (d base : Fin 64) (ty : Fin 16) (off : Fin 256) (mx : Option Mx) (s : State) : State :=
  let r := s.focus.r
  let g := mxGuard mx
  let act := guardLanes r g (tagCount ty) s.lanes
  let size := if elem then tagWidth ty / 8 else 8
  s.loadIssue ty true (guardUse g s) [⟨.v, base.val, act⟩, ⟨.v, d.val, act⟩] [.v d] (mxHint mx)
    (act.map fun t => ⟨some t, vaOf r base off.val size t, size, if elem then 0 else idleBytes r g ty t⟩)
    (act.zipIdx.map fun x => { destV x.2 0 d x.1 (actMask r g ty x.1) ty with rep := if elem then some ty else none })

def execLd (d base : Fin 64) (ty : Fin 16) (off : Fin 256) (mx : Option Mx) (s : State) : Out :=
  .next (s.ldIssue false d base ty off mx)
def execLde (d base : Fin 64) (ty : Fin 16) (off : Fin 256) (mx : Option Mx) (s : State) : Out :=
  .next (s.ldIssue true d base ty off mx)

/-- LDP (R178, R181): 16 bytes into v[D] and v[D+1]. -/
def execLdp (d base : Fin 64) (ty : Fin 16) (off : Fin 256) (mx : Option Mx) (s : State) : Out :=
  let r := s.focus.r
  let g := mxGuard mx
  let act := guardLanes r g (tagCount ty) s.lanes
  .next (s.loadIssue ty true (guardUse g s) [⟨.v, base.val, act⟩, ⟨.v, d.val, act⟩, ⟨.v, (d + 1).val, act⟩]
    [.v d, .v (d + 1)] (mxHint mx) (act.map fun t => ⟨some t, vaOf r base off.val 16 t, 16, idleBytes r g ty t⟩)
    (act.zipIdx.flatMap fun x =>
      [destV x.2 0 d x.1 (actMask r g ty x.1) ty, destV x.2 64 (d + 1) x.1 (actMask r g ty x.1) ty]))

/-- LDU (R181): sign-extended for the signed tags, zero-extended otherwise. -/
def execLdu (d base : Fin 64) (ty : Fin 16) (off : Fin 256) (_mx : Option Mx) (s : State) : Out :=
  let r := s.focus.r
  let w := tagWidth ty
  .next (s.loadIssue ty false [] [⟨.s, base.val, s.lanes⟩, ⟨.s, d.val, s.lanes⟩] [.s d] (mxHint _mx)
    [⟨none, r.readS base + BitVec.ofNat 64 (off.val * (w / 8)), w / 8, 0⟩]
    [⟨0, 0, none, if tagSigned ty then some w else none, 0, .s d 0⟩])

/-- The index term of position `e` (R182). -/
def gatherIndex (r : Regs) (gx : Gx) (t : Fin 32) (e : Nat) : Dword :=
  let b := 8 * 2 ^ gx.iw.val
  let j := b * e / 64
  let x := elemOf b (e - j * (64 / b)) (r.readV (gx.index + fin 64 j) t).val
  BitVec.ofInt 64 ((if gx.signed then signedOf b x else (x : Int)) * ((2 ^ gx.scale.val : Nat) : Int))

/-- The active (thread, position) pairs, in increasing thread and position. -/
def activePairs (r : Regs) (g : Guard) (n : Nat) (act : List (Fin 32)) : List (Fin 32 × Nat) :=
  act.flatMap fun t => (activePos r g n t).map fun e => (t, e)

/-- The index registers of a gather or scatter, as uses. -/
def indexUses (ty : Fin 16) (gx : Gx) (act : List (Fin 32)) : List Use :=
  (List.range (gxGroup ty gx)).map fun j => ⟨.v, (gx.index.val + j) % 64, act⟩

/-- LDX (R181, R182): one access per active position. -/
def execLdx (d base : Fin 64) (ty : Fin 16) (off : Fin 256) (gx : Gx) (s : State) : Out :=
  let r := s.focus.r
  let w := tagWidth ty
  let act := guardLanes r gx.guard (tagCount ty) s.lanes
  let ps := activePairs r gx.guard (tagCount ty) act
  .next (s.loadIssue ty true (guardUse gx.guard s) (⟨.v, base.val, act⟩ :: indexUses ty gx act ++ [⟨.v, d.val, act⟩]) [.v d]
    gx.hint (ps.map fun p => ⟨some p.1, vaOf r base off.val (w / 8) p.1 + gatherIndex r gx p.1 p.2, w / 8, 0⟩)
    (ps.zipIdx.map fun x => { destV x.2 0 d x.1.1 (posMask w x.1.2) ty with up := w * x.1.2 }))

/-- A store (R183): HAZARD, FORMAT, the accesses, then the bytes. A register is read whole under any tag, an m8 register
without its scale: s[BASEREG] is no operand of a store (R65, log entry 80). -/
def State.storeIssue (guardUse uses : List Use) (formatOk : Bool) (hint : Fin 8) (puts : List (Want × List (Nat × Byte)))
    (s : State) : State :=
  checked (guardUse ++ uses) s fun s =>
    if formatOk then
      s.access ⟨false, true, false⟩ false noExtra (puts.map (·.1)) fun ls s =>
        let before := s.focus.chunk.acts.length
        let kept := s.keepsWrite
        s.newGen.storeAll hint ((ls.zip puts).map fun x => ⟨x.1.1, x.1.2, x.2.2⟩) fun s =>
          s.ordered (.write (!kept && ls.any fun x => x.2.region.signed)) before
    else s.raise (flt .format 0)

/-- The bytes of the active positions of a register value (R183). -/
def activeBytes (r : Regs) (g : Guard) (ty : Fin 16) (t : Fin 32) (at_ : Nat) (x : Dword) : List (Nat × Byte) :=
  let k := tagWidth ty / 8
  (activePos r g (tagCount ty) t).flatMap fun e => (List.range k).map fun i =>
    (at_ + k * e + i, BitVec.ofNat 8 (x.toNat / 2 ^ (8 * (k * e + i))))

/-- FORMAT of a store (R183). -/
def storeFormat (r : Regs) (ty : Fin 16) (act : List (Fin 32)) (ds : List (Fin 64)) : Bool :=
  ty == tRAW || act.all fun t => ds.all fun d => (r.readV d t).tag == ty

def execSt (d base : Fin 64) (ty : Fin 16) (off : Fin 256) (mx : Option Mx) (s : State) : Out :=
  let r := s.focus.r
  let g := mxGuard mx
  let act := guardLanes r g (tagCount ty) s.lanes
  .next (s.storeIssue (guardUse g s) [⟨.v, base.val, act⟩, ⟨.v, d.val, act⟩] (storeFormat r ty act [d]) (mxHint mx)
    (act.map fun t => (⟨some t, vaOf r base off.val 8 t, 8, 0⟩, activeBytes r g ty t 0 (r.readV d t).val)))

/-- STP: v[D] at a, v[D+1] at a + 8. -/
def execStp (d base : Fin 64) (ty : Fin 16) (off : Fin 256) (mx : Option Mx) (s : State) : Out :=
  let r := s.focus.r
  let g := mxGuard mx
  let act := guardLanes r g (tagCount ty) s.lanes
  .next (s.storeIssue (guardUse g s) [⟨.v, base.val, act⟩, ⟨.v, d.val, act⟩, ⟨.v, (d + 1).val, act⟩]
    (storeFormat r ty act [d, d + 1]) (mxHint mx)
    (act.map fun t => (⟨some t, vaOf r base off.val 16 t, 16, 0⟩,
      activeBytes r g ty t 0 (r.readV d t).val ++ activeBytes r g ty t 8 (r.readV (d + 1) t).val)))

/-- The low `k` bytes of a value, at offsets from 0. -/
def lowBytes (k : Nat) (x : Dword) : List (Nat × Byte) :=
  (List.range k).map fun i => (i, BitVec.ofNat 8 (x.toNat / 2 ^ (8 * i)))

/-- STE: position 0 where it is active. -/
def execSte (d base : Fin 64) (ty : Fin 16) (off : Fin 256) (mx : Option Mx) (s : State) : Out :=
  let r := s.focus.r
  let g := mxGuard mx
  let k := tagWidth ty / 8
  let act := guardLanes r g (tagCount ty) s.lanes
  .next (s.storeIssue (guardUse g s) [⟨.v, base.val, act⟩, ⟨.v, d.val, act⟩] (storeFormat r ty act [d]) (mxHint mx)
    (act.map fun t => (⟨some t, vaOf r base off.val k t, k, 0⟩,
      if posActive r g (tagCount ty) t 0 then lowBytes k (r.readV d t).val else [])))

/-- STU: the low bits of s[D], once. -/
def execStu (d base : Fin 64) (ty : Fin 16) (off : Fin 256) (mx : Option Mx) (s : State) : Out :=
  let r := s.focus.r
  let k := tagWidth ty / 8
  .next (s.storeIssue [] [⟨.s, base.val, s.lanes⟩, ⟨.s, d.val, s.lanes⟩] true (mxHint mx)
    [(⟨none, r.readS base + BitVec.ofNat 64 (off.val * k), k, 0⟩, lowBytes k (r.readS d))])

/-- STX: one access per active position. -/
def execStx (d base : Fin 64) (ty : Fin 16) (off : Fin 256) (gx : Gx) (s : State) : Out :=
  let r := s.focus.r
  let k := tagWidth ty / 8
  let act := guardLanes r gx.guard (tagCount ty) s.lanes
  .next (s.storeIssue (guardUse gx.guard s) (⟨.v, base.val, act⟩ :: indexUses ty gx act ++ [⟨.v, d.val, act⟩])
    (storeFormat r ty act [d]) gx.hint
    ((activePairs r gx.guard (tagCount ty) act).map fun p =>
      (⟨some p.1, vaOf r base off.val k p.1 + gatherIndex r gx p.1 p.2, k, 0⟩,
        lowBytes k (BitVec.ofNat 64 (elemOf (8 * k) p.2 (r.readV d p.1).val)))))

/-! ORD -/

/-- The instruction that follows the word in issue in its clause, where the word takes one word. -/
def Clause.following (c : Clause) : Option Instr :=
  match (c.words.map BitVec.toNat).drop c.idx with
  | w :: rest => (decodeAt c.header.cls (c.idx + 1) w rest).map (·.1)
  | [] => none

/-- R36: the orders that the next word may carry. -/
def ordPair (o : Fin 8) : Option Instr → Bool
  | some (.ld ..) | some (.lde ..) | some (.ldu ..) | some (.ldx ..) | some (.ldp ..) | some (.cpref ..) =>
    o = 0 || o = 1 || o = 4
  | some (.st ..) | some (.ste ..) | some (.stu ..) | some (.stx ..) | some (.stp ..) | some (.red ..) =>
    o = 0 || o = 2 || o = 4
  | some (.atom ..) | some (.atomc ..) | some (.atomu ..) => decide (o.val ≤ 4)
  | _ => false

/-- ORD governs the next word of its clause (R36, R229). -/
def execOrd (order scope : Fin 8) (s : State) : Out :=
  .next (if ordPair order s.clause.following then s.mapCur fun c => { c with order := some (order, scope) }
    else s.raise (flt .illegal 0))

end Sys2Proof.Machine
end

