-- ==== Sys2Proof/Machine/Atomics.lean ====
section
/-! DEFINITION. The issue of ATOM, ATOMC, ATOMU and RED (R235 to R243, R252), of FENCE (R230), and of the cache
instructions (R185 to R187). What step 6 does with them stands in Commit. -/
namespace Sys2Proof.Machine

/-- The tags that an operation accepts, with the width (R237); `none` raises FORMAT. -/
def atomWidth (op : Fin 16) (tag : Fin 16) : Option Nat :=
  let int := tag.val == 3 || tag.val == 4 || tag.val == 7 || tag.val == 8
  let ok := match op.val with
    | 0 | 5 | 6 | 7 | 8 => int
    | 2 | 3 | 4 => int || tag == tRAW
    | 9 => int || tag == tRAW || tag == tF32 || tag == tF64
    | 11 | 12 => tag == tF32 || tag == tF64
    | 13 => tag == tF32
    | _ => false
  if ok then some (tagWidth tag) else none

/-- The location rule of R240 for a SYSTEM page of host memory: only what PCI Express offers; `pcie` says so. -/
def atomPlace (pcie : Bool) (l : Loc) : Option FltCode := if isHost l.key && !pcie then some .prot else none

/-- Add, swap and compare-and-swap are AtomicOps (R240); RED add is a FetchAdd. -/
def pcieOp (op : Fin 16) : Bool := op == 0 || op == 9

/-- The widths of the operands of the active threads, all accepted (R237). -/
def atomFormat (op : Fin 16) (r : Regs) (b : Fin 64) (act : List (Fin 32)) : Bool :=
  act.all fun t => (atomWidth op (r.readV b t).tag).isSome

/-- The width in bits of a thread's operand by its tag. -/
def operandWidth (r : Regs) (b : Fin 64) (t : Fin 32) : Nat := tagWidth (r.readV b t).tag

/-- The threads whose single position the guard lets act (R106, R236). -/
def oneLanes (s : State) (g : Guard) : List (Fin 32) := guardLanes s.focus.r g 1 s.lanes

/-- A returning atomic enters the chunk: its markers and held result, its step-6 action, the boundary (R194, R241). -/
def State.holdAtom (fs : Bool) (dst : Dst) (job : AtomJob) (before : Nat) (s : State) : State :=
  ((s.mapChunk fun ch => { (job.todo.foldl (fun ch q => ch.split (lineOf q.loc.key)) ch).act s.origin (.atom job) with ends := true }).holdResult (s.clause.flag fs) (.held job.id) [dst]
    s.lanes [] 0).ordered .atom before

/-- ATOM and ATOMC, after their operand checks. -/
def State.atomIssue (op : Fin 16) (cas : Bool) (d a b : Fin 64) (c : Option (Fin 64)) (fs : Bool) (mx : Option Mx) (s : State) : State :=
  let r := s.focus.r
  let g := mxGuard mx
  let act := oneLanes s g
  let uses := [⟨.v, a.val, act⟩, ⟨.v, b.val, act⟩, ⟨.v, d.val, act⟩] ++ (c.toList.map fun x => (⟨.v, x.val, act⟩ : Use))
  checked (guardUse g s ++ uses) s fun s =>
    if atomFormat op r b act && act.all (fun t => c.toList.all fun x => (r.readV x t).tag == (r.readV b t).tag) then
      s.accessAtom ⟨true, true, false⟩ (atomPlace (cas || pcieOp op))
        (act.map fun t => ⟨some t, (r.readV a t).val, operandWidth r b t / 8, 0⟩) fun ls s =>
        logV (.v d) s fun s =>
          let (s, id) := s.freshId
          let todo := (act.zip ls).map fun x =>
            let y := (r.readV b x.1).val
            match c with
            | none => (⟨x.1, x.2.2, y, none⟩ : AtomReq)
            | some z => ⟨x.1, x.2.2, (r.readV z x.1).val, some y⟩
          s.holdAtom fs (.v d) ⟨id, if cas then 9 else op, 0, 0, d, false, s.clause.acquires, mxHint mx, todo,
            act.map fun t => .v d t 0 0 (r.readV b t).tag⟩ s.focus.chunk.acts.length
    else s.raise (flt .format 0)

/-- ATOM (R235, R238). -/
def execAtom (d a b : Fin 64) (op : Fin 16) (fs : Bool) (mx : Option Mx) (s : State) : Out :=
  .next (s.atomIssue op false d a b none fs mx)

/-- ATOMC (R235, R238): v[Z] is expected, v[W] the new value. -/
def execAtomc (x y z : Fin 64) (w : Fin 32) (fs : Bool) (mx : Option Mx) (s : State) : Out :=
  .next (s.atomIssue 9 true x y z (some ⟨w.val, by omega⟩) fs mx)

/-- ATOMU (R235, R238): once per issue, on s registers. -/
def execAtomu (d a b : Fin 64) (op : Fin 16) (w32 : Bool) (fs : Bool) (mx : Option Mx) (s : State) : Out :=
  let r := s.focus.r
  let w := if w32 then 32 else 64
  .next (checked [⟨.s, a.val, s.lanes⟩, ⟨.s, b.val, s.lanes⟩, ⟨.s, d.val, s.lanes⟩] s fun s =>
    s.accessAtom ⟨true, true, false⟩ (atomPlace (pcieOp op)) [⟨none, r.readS a, w / 8, 0⟩] fun ls s =>
      let (s, id) := s.freshId
      let todo := ls.map fun l => (⟨0, l.2, r.readS b, none⟩ : AtomReq)
      s.holdAtom fs (.s d) ⟨id, op, w, 0, d, true, s.clause.acquires, mxHint mx, todo, []⟩ s.focus.chunk.acts.length)

/-- One thread's RED (R239, R243): a reduction record in the buffer, or an action of step 6 on a SYSTEM page or a
scratchpad. -/
def State.redOne (op : Fin 16) (w : Nat) (hint : Fin 8) (want : Want) (l : Loc) (x : Dword) (s : State) (k : State → State) : State :=
  match l.region with
  | .spad => k (s.mapChunk (Chunk.act s.origin (.spadRed l.key op w x)))
  | .system =>
    if s.focus.chunk.lines < 32 then k (s.mapChunk fun ch => (ch.split (lineOf l.key)).act s.origin (.sysRed l op w x))
    else s.raise (landingFlt want.addr)
  | _ =>
    match s.enterLine (s.entryOf hint l (.reds op w [⟨l.key % 128, x⟩])) with
    | none => s.raise (landingFlt want.addr)
    | some ch => k (s.mapChunk fun _ => ch)

/-- The REDs of an issue in increasing thread. -/
def State.redAll (op : Fin 16) (hint : Fin 8) : List (Nat × Want × Loc × Dword) → State → (State → State) → State
  | [], s, k => k s
  | (w, want, l, x) :: rs, s, k => s.redOne op w hint want l x fun s => s.redAll op hint rs k

/-- RED (R235 to R239, R243). -/
def execRed (a b : Fin 64) (op : Fin 16) (mx : Option Mx) (s : State) : Out :=
  let r := s.focus.r
  let g := mxGuard mx
  let act := oneLanes s g
  .next (checked (guardUse g s ++ [⟨.v, a.val, act⟩, ⟨.v, b.val, act⟩]) s fun s =>
    if atomFormat op r b act then
      s.accessAtom ⟨false, true, false⟩ (atomPlace (op == 0))
        (act.map fun t => ⟨some t, (r.readV a t).val, operandWidth r b t / 8, 0⟩) fun ls s =>
        let before := s.focus.chunk.acts.length
        let kept := s.keepsWrite
        s.newGen.redAll op (mxHint mx) ((act.zip ls).map fun x =>
          (operandWidth r b x.1, x.2.1, x.2.2, (r.readV b x.1).val)) fun s =>
            s.ordered (.write (!kept && ls.any fun x => x.2.region.signed)) before
    else s.raise (flt .format 0))

/-! FENCE and the cache instructions -/

/-- The word in issue is the last of its clause. -/
def Clause.isLast (c : Clause) : Bool := c.idx == c.header.count.val

/-- FENCE (R230): last in its clause; its wait stands in step 6 after every earlier action. -/
def execFence (d : Fin 64) (scope : Fin 8) (s : State) : Out :=
  .next (if s.clause.isLast then
      checked [⟨.s, d.val, s.lanes⟩] s fun s =>
        s.mapChunk fun ch => { ch.act s.origin (.fence scope.val d) with ends := true }
    else s.raise (flt .illegal 0))

/-- CPIN (R185, R186): its operands are checked at issue; it acts in step 6. -/
def execCpin (base : Fin 64) (ways : Fin 16) (slot : Fin 4) (s : State) : Out :=
  .next (checked [⟨.s, base.val, s.lanes⟩, ⟨.s, (base + 1).val, s.lanes⟩] s fun s =>
    let b := s.focus.r.readS base
    let n := s.focus.r.readS (base + 1)
    if b.toNat % 128 ≠ 0 || n.toNat % 128 ≠ 0 then s.raise ⟨.misalign, b, none, none⟩
    else if n = 0 || winOwn < b.toNat + n.toNat then s.raise ⟨.prot, b, none, none⟩
    else s.mapChunk (Chunk.act s.origin (.cpin slot b n ways.val)))

/-- CUNPIN (R186). -/
def execCunpin (slot : Fin 4) (s : State) : Out := .next (s.mapChunk (Chunk.act s.origin (.cunpin slot)))

/-- One thread's prefetch (R187), which no counter counts (R441): dropped where it would fault, on a SYSTEM page, outside
the global window, or where the home would have to wait for its answer (R203, R245; log entry 44). -/
def State.prefetch (hint : Fin 8) (a : Dword) (s : State) : State :=
  if winOwn ≤ a.toNat then s
  else match s.locateGlobal s.focus ⟨true, false, false⟩ a with
    | (s₁, .ok l _) => if l.region == .system || !isHbm l.key then s₁ else
        match s₁.mergeReads [l] with
        | (s', true) =>
          let pmc := s'.ownCore.pmc
          ((s'.touchRead s'.focus.core l.slot.toNat (lineOf l.key) a.toNat hint).mapCore s'.focus.core fun c => { c with pmc := pmc }).noteUse a.toNat
        | (_, false) => s₁.noteUse a.toNat
    | (s', .fault _) => s'

/-- CPREF (R187): each active thread's line, guarded with one position per thread. -/
def execCpref (base : Fin 64) (off : Fin 256) (mx : Option Mx) (s : State) : Out :=
  let r := s.focus.r
  let g := mxGuard mx
  let act := oneLanes s g
  .next (checked (guardUse g s ++ [⟨.v, base.val, act⟩]) s fun s =>
    (act.foldl (fun s t => s.prefetch (mxHint mx) (vaOf r base off.val 128 t)) s).ordered (.load false) s.focus.chunk.acts.length)

/-- CINV (R185, R186): code, page or space; the last two are for the supervisor. -/
def execCinv (kind : Fin 4) (base : Fin 64) (off : Fin 256) (s : State) : Out :=
  .next (if kind ≠ 0 && !s.focus.r.flt.sup then s.raise (flt .priv 0)
    else checked [⟨.s, base.val, s.lanes⟩] s fun s =>
      let a := s.focus.r.readS base + BitVec.ofNat 64 (off.val * 128)
      s.mapChunk (Chunk.act s.origin (match kind with
        | 0 => .cinvCode a
        | 1 => .cinvPage a
        | _ => .cinvSpace)))

end Sys2Proof.Machine
end

