-- ==== Sys2Proof/Machine/System.lean ====
section
/-! DEFINITION. Logical numbers (R394), system registers (R68 to R70, R383, R390, R391), and the meanings of MFSR, MTSR,
TRAP and RFT at issue (R389, R393). -/
namespace Sys2Proof.Machine

/-! Rafts and members (R394) -/

/-- The logical raft of a physical core within its die: the rank of its physical raft among those with an enabled
core. -/
def PkgRegs.raftOf (r : PkgRegs) (k : Nat) : Nat :=
  let on := fun p => !((r.harv.getD (k / 36) 0).getLsbD p)
  ((List.range (k % 36 / 4)).filter fun q => (List.range 4).any fun m => on (4 * q + m)).length

/-- The logical member number of a physical core in its raft (R394). -/
def State.memberOf (s : State) (k : Nat) : Nat := ((s.raftMembers (k / 4)).filter fun j => decide (j < k)).length

/-- The die set of a launch; every die where there is no launch. -/
def State.dieset (s : State) (launch : Nat) : BitVec 8 :=
  match s.launch? launch with
  | some l => l.packet.dieset
  | none => 0xFF

/-! System registers -/

/-- Who may use a register (R68): nobody may write (`ro`), the supervisor may, both may; and whether the user may read. -/
structure SysAccess where
  userRead : Bool
  userWrite : Bool
  supWrite : Bool
  deriving DecidableEq, Repr

/-- The register numbers of R68; `none` for an absent number. -/
def sysAccess (n : Nat) : Option SysAccess :=
  let ro : SysAccess := ⟨true, false, false⟩
  let sup : SysAccess := ⟨true, false, true⟩
  let hid : SysAccess := ⟨false, false, true⟩
  if n ≤ 0x006 || n = 0x008 || n = 0x009 || (0x010 ≤ n && n ≤ 0x017) then some ro
  else if (0x018 ≤ n && n ≤ 0x13F) || n = 0x140 || n = 0x141 then some sup
  else if 0x150 ≤ n && n ≤ 0x153 then some ⟨true, true, true⟩
  else if n = 0x154 || n = 0x155 || (0x160 ≤ n && n ≤ 0x164) || n = 0x168 || n = 0x169 then some sup
  else if 0x170 ≤ n && n ≤ 0x17B then some sup
  else if n = 0x180 then some hid
  else if 0x190 ≤ n && n ≤ 0x19F then some sup
  else if (0x1A0 ≤ n && n ≤ 0x1A4) || n = 0x1B0 || n = 0x1B1 then some hid
  else if n = 0x1B2 then some sup
  else if (0x1C0 ≤ n && n ≤ 0x1C3) || n = 0x1D0 then some hid
  else none

/-- Registers held per crew (R68). -/
def isCrewReg (n : Nat) : Bool :=
  (0x150 ≤ n && n ≤ 0x169) || (0x1A0 ≤ n && n ≤ 0x1A4) || n = 0x1B1 || n = 0x1B2 || n = 0x1D0

def pivstWord (p : Pivst) : Dword := BitVec.ofNat 64 (p.nan.toNat * 2 ^ 63 + p.sub.toNat * 2 ^ 32 + p.lane.toNat)

/-- FLTCAUSE, FLTPC and PRIVST as words (R383). -/
def FltRegs.causeWord (f : FltRegs) : Dword := (causeOf f.code f.post f.eng).zeroExtend 64
def FltRegs.pcWord64 (f : FltRegs) : Dword := BitVec.ofNat 64 (f.pcWord.toNat * 2 ^ 60 + f.pcClause.toNat)
def FltRegs.privWord (f : FltRegs) : Dword := BitVec.ofNat 64 (f.sup.toNat + 2 * f.retire.toNat + 4 * f.cancel.toNat)

/-- The crew-held registers of R68 that a crew's own state gives. -/
def Regs.readSys (r : Regs) (n : Nat) : Dword :=
  match n with
  | 0x005 => r.tmask.zeroExtend 64
  | 0x006 => r.emask.zeroExtend 64
  | 0x150 => r.gang.zeroExtend 64
  | 0x151 => pivstWord r.pivst
  | 0x152 => BitVec.ofNat 64 r.rndmode.val
  | 0x153 => r.fpflags.zeroExtend 64
  | 0x154 => r.repc.zeroExtend 64
  | 0x155 => r.srctr
  | 0x160 => r.redtab
  | 0x161 => r.arenaBase.zeroExtend 64
  | 0x162 => r.arenaLim.zeroExtend 64
  | 0x163 => r.logBase
  | 0x164 => r.logSeq.zeroExtend 64
  | 0x168 => BitVec.ofNat 64 (r.spmBase.toNat * 128)
  | 0x169 => BitVec.ofNat 64 (r.spmSize.toNat * 128)
  | 0x1A0 => r.flt.causeWord
  | 0x1A1 => r.flt.pcWord64
  | 0x1A2 => r.flt.addr
  | 0x1A3 => r.flt.lanes.zeroExtend 64
  | 0x1A4 => r.flt.chkpc.zeroExtend 64
  | 0x1B1 => r.flt.privWord
  | 0x1B2 => BitVec.ofNat 64 r.safecnt
  | 0x1D0 => r.keyslot.zeroExtend 64
  | _ => 0

/-- The registers that the package holds (R68). -/
def PkgRegs.read (p : PkgRegs) (n : Nat) : Dword :=
  if n = 0x004 then p.pkg.zeroExtend 64
  else if 0x010 ≤ n && n ≤ 0x017 then (p.harv.getD (n - 0x010) 0).zeroExtend 64
  else if 0x018 ≤ n && n ≤ 0x01F then BitVec.ofNat 64 (p.diemap.getD (n - 0x018) 0).val
  else if 0x020 ≤ n && n ≤ 0x13F then p.lct.getD (n - 0x020) 0
  else if 0x170 ≤ n && n ≤ 0x173 then p.retbase.getD (n - 0x170) 0
  else if 0x174 ≤ n && n ≤ 0x177 then p.retsize.getD (n - 0x174) 0
  else if 0x178 ≤ n && n ≤ 0x17B then p.retways.getD (n - 0x178) 0
  else match n with
    | 0x180 => p.l2ways.zeroExtend 64
    | 0x1C0 => p.qage.zeroExtend 64
    | 0x1C1 => p.qrot.zeroExtend 64
    | 0x1C2 => p.linkTmo.zeroExtend 64
    | 0x1C3 => p.stopTmo.zeroExtend 64
    | _ => 0

/-- A system register as the crew in focus reads it (R68, R390). -/
def State.readSys (s : State) (n : Nat) : Dword :=
  let c := s.focus
  let regs := s.hub.regs
  let set := s.dieset c.task.launch
  match n with
  | 0x000 => BitVec.ofNat 64 (match c.place with | .slot _ j => j | _ => 0)
  | 0x001 => BitVec.ofNat 64 (regs.logical c.core).2
  | 0x002 => BitVec.ofNat 64 (regs.raftOf c.core)
  | 0x003 => BitVec.ofNat 64 (regs.logical c.core).1
  | 0x008 => BitVec.ofNat 64 (regs.coresIn set).length
  | 0x009 => BitVec.ofNat 64 ((List.range 8).filter set.getLsbD).length
  | 0x140 => s.ownCore.chklen.zeroExtend 64
  | 0x141 => s.ownCore.chkretry.zeroExtend 64
  | 0x1B0 => s.ownCore.trapvec.zeroExtend 64
  | _ =>
    if 0x190 ≤ n && n ≤ 0x19F then s.ownCore.pmc.getD (n - 0x190) 0
    else if n = 0x005 || n = 0x006 || isCrewReg n then c.r.readSys n
    else regs.read n

/-- A write of a crew-held register (R70, R167, R276, R277, R383, R391); reserved fields are ignored (R3). -/
def Regs.writeSys (r : Regs) (n : Nat) (x : Dword) : Regs :=
  let v := x.toNat
  match n with
  | 0x150 => { r with gang := BitVec.ofNat 4 v }
  | 0x151 => { r with pivst := ⟨r.pivst.nan && !bit v 63, r.pivst.sub &&& ~~~BitVec.ofNat 8 (v / 2 ^ 32),
      r.pivst.lane &&& ~~~BitVec.ofNat 32 v⟩ }
  | 0x152 => { r with rndmode := fin 8 (v % 8) }
  | 0x153 => { r with fpflags := BitVec.ofNat 6 v }
  | 0x154 => { r with repc := BitVec.ofNat 6 v }
  | 0x155 => { r with srctr := x }
  | 0x160 => { r with redtab := x }
  | 0x161 => { r with arenaBase := BitVec.ofNat 57 v }
  | 0x162 => { r with arenaLim := BitVec.ofNat 57 v }
  | 0x163 => { r with logBase := x }
  | 0x164 => { r with logSeq := BitVec.ofNat 32 v }
  | 0x168 => { r with spmBase := BitVec.ofNat 12 (v / 128) }
  | 0x169 => { r with spmSize := BitVec.ofNat 13 (v / 128) }
  | 0x1A0 => { r with flt := { r.flt with code := BitVec.ofNat 8 v, eng := bit v 8, post := bit v 9 } }
  | 0x1A1 => { r with flt := { r.flt with pcClause := BitVec.ofNat 57 v, pcWord := BitVec.ofNat 4 (v / 2 ^ 60) } }
  | 0x1A2 => { r with flt := { r.flt with addr := x } }
  | 0x1A3 => { r with flt := { r.flt with lanes := BitVec.ofNat 32 v } }
  | 0x1A4 => { r with flt := { r.flt with chkpc := BitVec.ofNat 57 v } }
  | 0x1B1 => { r with flt := { r.flt with retire := bit v 1, cancel := bit v 2 } }
  | 0x1B2 => { r with safecnt := v }
  | 0x1D0 => { r with keyslot := BitVec.ofNat 12 v }
  | _ => r

/-- Writing a retention slot leaves no line of it (R189). -/
def State.unmark (i : Nat) (s : State) : State :=
  { s with hub := { s.hub with l2 := s.hub.l2.map fun x => (x.1, x.2.map fun t =>
      if t.slot.map Fin.val = some i then { t with slot := none } else t) } }

/-- Change the package registers. -/
def State.mapPkg (f : PkgRegs → PkgRegs) (s : State) : State := { s with hub := { s.hub with regs := f s.hub.regs } }

/-- Bits [hi:lo] of a value, in place. -/
def keep (x : Dword) (lo n : Nat) : Dword := BitVec.ofNat 64 (bits x.toNat lo n * 2 ^ lo)

/-- A launch of the crew on these cores that is not suspended holds a crew, a deque entry, an engine command or a
barrier object there (R395). -/
def State.coreBusy (s : State) (k : Nat) : Bool :=
  let live := fun (c : Crew) => c.task.launch != 0 && !((s.launch? c.task.launch).map Launch.saved).getD false
  let core := s.coreAt k
  s.crews.any (fun c => live c && c.core == k) || !core.deque.isEmpty || !core.spill.isEmpty ||
    !core.barge.queue.isEmpty || !core.barge.jobs.isEmpty || !core.barge.waits.isEmpty || !core.ten.isEmpty ||
    core.bars.any Barrier.v

/-- A physical die holds a barrier object of its own or of its rafts, or an entry of its hint queue. -/
def State.dieBusy (s : State) (d : Nat) : Bool :=
  ((s.dies[d]?).map fun x => x.bars.any Barrier.v || !x.hints.isEmpty).getD false ||
    ((s.rafts.drop (9 * d)).take 9).any fun r => r.bars.any Barrier.v

/-- The logical die or core that a DIEMAP or LCT entry names is in use (R395). -/
def State.mapBusy (s : State) (n : Nat) : Bool :=
  if n < 0x020 then
    let d := n - 0x018
    (s.hub.regs.coresOf d).any s.coreBusy || s.dieBusy (s.hub.regs.diemap.getD d 0).val
  else match lctCore (s.hub.regs.lct.getD (n - 0x020) 0) with
    | some k => s.coreBusy k
    | none => false

/-- A write of a package register in step 6 (R188, R231, R391, R395, R398, R404). -/
def PkgRegs.write (p : PkgRegs) (n : Nat) (x : Dword) : PkgRegs :=
  let v := x.toNat
  if 0x018 ≤ n && n ≤ 0x01F then { p with diemap := p.diemap.set (n - 0x018) (fin 8 (v % 8)) }
  else if 0x020 ≤ n && n ≤ 0x13F then
    { p with lct := p.lct.set (n - 0x020) (BitVec.ofNat 64 (bits v 15 1 * 2 ^ 15 + bits v 8 3 * 2 ^ 8 + bits v 0 6)) }
  else if 0x170 ≤ n && n ≤ 0x173 then { p with retbase := p.retbase.set (n - 0x170) (keep x 7 50) }
  else if 0x174 ≤ n && n ≤ 0x177 then { p with retsize := p.retsize.set (n - 0x174) (keep x 7 33) }
  else if 0x178 ≤ n && n ≤ 0x17B then
    { p with retways := p.retways.set (n - 0x178) (BitVec.ofNat 64 (bits v 16 12 * 2 ^ 16 + bits v 0 5)) }
  else match n with
    | 0x180 => { p with l2ways := BitVec.ofNat 5 v }
    | 0x1C0 => { p with qage := BitVec.ofNat 16 v }
    | 0x1C1 => { p with qrot := BitVec.ofNat 16 v }
    | 0x1C2 => { p with linkTmo := BitVec.ofNat 32 v }
    | 0x1C3 => { p with stopTmo := BitVec.ofNat 32 v }
    | _ => p

/-- A write of a core-held register (R68, R69, R191, R383). -/
def Core.write (c : Core) (n : Nat) (x : Dword) : Core :=
  let v := x.toNat
  match n with
  | 0x140 => { c with chklen := BitVec.ofNat 13 v }
  | 0x141 => { c with chkretry := BitVec.ofNat 3 v }
  | 0x1B0 => { c with trapvec := BitVec.ofNat 57 (bits v 2 55 * 4) }
  | _ => if 0x190 ≤ n && n ≤ 0x19F then { c with pmc := c.pmc.set (n - 0x190) x } else c

/-- Registers held per core (R68). -/
def isCoreReg (n : Nat) : Bool := n = 0x140 || n = 0x141 || n = 0x1B0 || (0x190 ≤ n && n ≤ 0x19F)

/-- A fault to deliver to a crew before its next clause (R386), after those that wait already (log entry 113). -/
def State.postFault (uid : Nat) (code : FltCode) (addr : Dword) (org : Origin) (lanes : Lanes) (eng : Bool) (s : State) : State :=
  s.mapCrew uid fun c => { c with post := c.post ++ [⟨code.num, addr, org, lanes, eng⟩] }

/-- The first step-6 action is over; releases count the actions before them. -/
def Chunk.pop (ch : Chunk) : Chunk :=
  { ch with acts := ch.acts.drop 1, rels := ch.rels.map fun m => { m with acts := m.acts - 1 } }

/-- A crew's action is over. -/
def State.popAct (uid : Nat) (s : State) : State := s.mapCrew uid fun c => { c with chunk := c.chunk.pop }

/-- A held MTSR in step 6 (R391, R395). -/
def State.writeHeld (org : Origin) (n : Nat) (x : Dword) (s : State) : State :=
  if isCoreReg n then s.mapCore s.focus.core fun c => c.write n x
  else if 0x018 ≤ n && n ≤ 0x13F && s.mapBusy n then
    s.postFault s.focus.uid .prot (BitVec.ofNat 64 n) org org.lanes false
  else
    let s := s.mapPkg fun p => p.write n x
    let s := if (0x178 ≤ n && n ≤ 0x17B) || n = 0x180 then s.mapPkg PkgRegs.refit else s
    if 0x170 ≤ n && n ≤ 0x17B then s.unmark ((n - 0x170) % 4) else s

/-- The firmware writes a DIEMAP or LCT entry (R394), which R395 allows it where nothing is in use there (R444,
log entry 119). -/
def State.firmwareMap (n : Nat) (x : Dword) (s : State) : State :=
  if 0x018 ≤ n && n ≤ 0x13F && !s.mapBusy n then s.mapPkg fun p => p.write n x else s

/-- MFSR (R69, R390). -/
def execMfsr (d : Fin 64) (num : BitVec 12) (s : State) : Out :=
  .next (match sysAccess num.toNat with
    | none => s.raise (flt .illegal 0)
    | some a =>
      if !a.userRead && !s.focus.r.flt.sup then s.raise (flt .priv num.toNat)
      else
        let x := s.readSys num.toNat
        checked [⟨.s, d.val, s.lanes⟩] s fun s => s.mapR fun r => r.writeS d x)

/-- A value is outside a field's stated range (R69). -/
def sysRangeBad (n : Nat) (x : Dword) : Bool :=
  match n with
  | 0x140 => decide (x.toNat % 2 ^ 13 < 256) || decide (4096 < x.toNat % 2 ^ 13)
  | 0x152 => x.toNat % 8 == 0 || x.toNat % 8 == 7
  | 0x1C0 => decide (x.toNat % 2 ^ 16 < 10)
  | _ => false

/-- MTSR (R69, R391): a crew register at once, another in step 6. -/
def execMtsr (num : BitVec 12) (a : Fin 64) (s : State) : Out :=
  .next (match sysAccess num.toNat with
    | none => s.raise (flt .illegal 0)
    | some acc =>
      if !acc.supWrite then s.raise (flt .illegal 0)
      else if !acc.userWrite && !s.focus.r.flt.sup then s.raise (flt .priv num.toNat)
      else checked [⟨.s, a.val, s.lanes⟩] s fun s =>
        let x := s.focus.r.readS a
        if sysRangeBad num.toNat x then s.raise (flt .illegal 0)
        else if isCrewReg num.toNat then s.mapR fun r => r.writeSys num.toNat x
        else s.mapChunk (Chunk.act s.origin (.sysreg num.toNat x)))

/-- TRAP ends its chunk and is delivered after its commit (R389, R393). -/
def execTrap (code : BitVec 12) (s : State) : Out :=
  .next (s.mapChunk fun ch => { ch.act s.origin (.trap code.toNat) with ends := true })

/-- RFT acts in step 6 of its chunk and ends it (R388); in user mode it raises PRIV. -/
def execRft (s : State) : Out :=
  .next (if s.focus.r.flt.sup then s.mapChunk fun ch => { ch.act s.origin .rft with ends := true }
    else s.raise (flt .priv 0))

end Sys2Proof.Machine
end

