-- ==== Sys2Proof/Machine/Barriers.lean ====
section
/-! DEFINITION. Barrier objects (R318 to R325, R330 to R332), the pod barrier network, and the issue of BAR, BARA, BARW, BARI and
BARB (R326 to R330). -/
namespace Sys2Proof.Machine

/-! What leaves the package -/

/-- A flit that nothing waits for goes to a package, or to the host: at once where the link is up, when it is up again where it
retrains (R415); over a link that is down it is lost (log entry 122). -/
def State.sendTo (peer : Option Nat) (addr : Nat) (out : Output) (s : State) : State :=
  match s.link peer with
  | .up => { s with outbox := s.outbox ++ [out] }
  | .retraining => { s with posted := s.posted ++ [⟨0, peer, addr, some out, false, false⟩] }
  | .down => s

/-- A message of the pod barrier network goes to a package (R318). -/
def State.tellPod (peer : Nat) (m : PodMessage) (s : State) : State := s.sendTo (some peer) 0 (.pod (some peer) m)

/-- A message of the pod barrier network goes to every package; a link that retrains holds its own. -/
def State.tellPods (m : PodMessage) (s : State) : State :=
  let held := (s.hub.links.filter fun l => l.2 == .retraining).map fun l => (⟨0, some l.1, 0, some (.pod (some l.1) m), false, false⟩ : Posted)
  { s with outbox := s.outbox ++ [.pod none m], posted := s.posted ++ held }

/-! Objects -/

/-- An object of pod scope. -/
def podObject (n : Fin 2) : ObjId := ⟨5, 0, n.val⟩

/-- The last object number of a scope (R318); `none` for the scopes without objects. -/
def lastObject (scope : Nat) : Option Nat :=
  match scope with
  | 0 => some 0
  | 1 => some 15
  | 2 => some 7
  | 3 => some 3
  | 4 => some 3
  | 5 => some 1
  | _ => none

/-- The object of a scope and number at a physical core (R318). -/
def objectAt (core : Nat) (scope : Fin 8) (num : Nat) : ObjId :=
  match scope with
  | 1 => ⟨1, core, num⟩
  | 2 => ⟨2, core / 4, num⟩
  | 3 => ⟨3, core / 36, num⟩
  | sc => ⟨sc, 0, num⟩

/-- The objects of an instance. -/
def State.barList (s : State) (o : ObjId) : List Barrier :=
  match o.scope with
  | 1 => (s.coreAt o.inst).bars
  | 2 => ((s.rafts[o.inst]?).map Raft.bars).getD []
  | 3 => ((s.dies[o.inst]?).map Die.bars).getD []
  | 4 => s.hub.bars
  | _ => s.hub.pods

def State.barrier (s : State) (o : ObjId) : Barrier := (s.barList o).getD o.num Barrier.reset

/-- Change an object. -/
def State.mapBarrier (o : ObjId) (f : Barrier → Barrier) (s : State) : State :=
  match o.scope with
  | 1 => s.mapCore o.inst fun c => { c with bars := c.bars.modify o.num f }
  | 2 => { s with rafts := s.rafts.modify o.inst fun r => { r with bars := r.bars.modify o.num f } }
  | 3 => { s with dies := s.dies.modify o.inst fun d => { d with bars := d.bars.modify o.num f } }
  | 4 => { s with hub := { s.hub with bars := s.hub.bars.modify o.num f } }
  | _ => { s with hub := { s.hub with pods := s.hub.pods.modify o.num f } }

/-- The threads that wait on some object. -/
def Regs.waiting (r : Regs) : Lanes := r.waits.foldl (fun m w => m ||| w.lanes) 0

/-- Threads are unblocked but for those that another wait still holds. -/
def Regs.unblock (lanes : Lanes) (r : Regs) : Regs := { r with blocked := r.blocked &&& ~~~(lanes &&& ~~~r.waiting) }

/-- Threads that wait on an object for a phase are unblocked (R323), but for another wait that still holds them (R328). -/
def Regs.release (o : Option ObjId) (phase : BitVec 16) (r : Regs) : Regs :=
  let gone := r.waits.filter fun w => w.obj == o && w.phase == phase
  Regs.unblock (gone.foldl (fun m w => m ||| w.lanes) 0) { r with waits := r.waits.filter fun w => !(w.obj == o && w.phase == phase) }

/-- The blocked bits that a handler's return restores follow the waits that still stand (R388). -/
def Crew.trimTrap (c : Crew) : Crew :=
  { c with trap := c.trap.map fun t => { t with blocked := t.blocked &&& c.r.waiting } }

/-- Every crew's threads that wait on an object for a phase are unblocked, in its registers and its shadow: a phase that
has passed does not come back with a rollback. -/
def State.releaseAll (o : ObjId) (phase : BitVec 16) (s : State) : State :=
  s.mapCrews fun c => Crew.trimTrap { c with r := c.r.release (some o) phase, shadow := c.shadow.release (some o) phase }

/-- The object passes to its next phase (R323). -/
def State.nextPhase (o : ObjId) (phase : BitVec 16) (s : State) : State :=
  ((s.mapBarrier o fun b => { b with phase := phase + 1, arrived := 0 }).mapCrews fun c =>
    { c with enroll := c.enroll.map fun e => if e.obj = o then { e with mask := 0 } else e }).releaseAll o phase

/-- evaluate of R323. The hub of package 0 tells the pod of a completed phase (R318). -/
def State.evaluate (o : ObjId) (s : State) : State :=
  let b := s.barrier o
  if b.arrived = b.expect.toNat && b.pendb = 0 then
    let s := s.nextPhase o b.phase
    if o.scope = 5 then s.tellPods (.phase (fin 2 o.num) (b.phase + 1)) else s
  else s

/-- A pod object that another package holds: what happens to it is sent there (R318). -/
def State.podAway (s : State) (o : ObjId) : Bool := o.scope == 5 && s.hub.regs.pkg != 0

/-- The number of lanes of a set. -/
def laneCount (m : Lanes) : Nat := (laneList m).length

/-- A crew's arrival mask for an object (R320). -/
def State.arrMask (s : State) (o : ObjId) (uid : Nat) : Lanes :=
  match (s.crew? uid).bind fun c => c.enroll.find? fun e => e.obj == o with
  | some e => e.mask
  | none => 0

/-- arrive of R323: threads of a crew arrive at an object that it is enrolled in. A thread arrives once in a phase (R320, log entry
88). -/
def State.arrive (o : ObjId) (uid : Nat) (lanes : Lanes) (s : State) : State :=
  let n := laneCount (lanes &&& ~~~s.arrMask o uid)
  let s := s.mapCrew uid fun c =>
    { c with enroll := c.enroll.map fun e => if e.obj = o then { e with mask := e.mask ||| lanes } else e }
  if s.podAway o then s.tellPod 0 (.arrivals (fin 2 o.num) n)
  else (s.mapBarrier o fun b => { b with arrived := b.arrived + n }).evaluate o

/-- deduct of R323 for exited threads of a crew. -/
def State.deduct (o : ObjId) (uid : Nat) (lanes : Lanes) (s : State) : State :=
  let mask := s.arrMask o uid &&& lanes
  let s := s.mapCrew uid fun c =>
    { c with enroll := c.enroll.map fun e => if e.obj = o then { e with mask := e.mask &&& ~~~lanes } else e }
  if s.podAway o then s.tellPod 0 (.deduction (fin 2 o.num) (laneCount lanes) (laneCount mask))
  else (s.mapBarrier o fun b =>
    { b with expect := b.expect - BitVec.ofNat 20 (laneCount lanes), arrived := b.arrived - laneCount mask }).evaluate o

/-- addbytes of R323. -/
def State.addBytes (o : ObjId) (n : Dword) (s : State) : State :=
  if s.podAway o then s.tellPod 0 (.bytes (fin 2 o.num) n)
  else (s.mapBarrier o fun b => { b with pendb := b.pendb + n }).evaluate o

/-- OWNER and LAUNCH fields: slot in [31:26], launch number in [25:0] (R404). -/
def Launch.tag (l : Launch) : BitVec 32 := BitVec.ofNat 32 (l.slot.getD 0 * 2 ^ 26 + l.number % 2 ^ 26)

def State.ownerTag (s : State) (launch : Nat) : BitVec 32 :=
  match s.launch? launch with
  | some l => l.tag
  | none => 0

/-- The threads of a crew that have exited or were never launched. -/
def Crew.missing (c : Crew) : Nat := 32 - laneCount c.r.live

/-- A crew enrolls in an object (R321): the threads that it lacks are taken from EXPECT. -/
def Barrier.enroll (missing : Nat) (b : Barrier) : Barrier :=
  { b with enrolled := b.enrolled + 1, expect := b.expect - BitVec.ofNat 20 missing }

/-- The crew's side of an enrollment: an arrival mask (R320). -/
def State.joinObject (o : ObjId) (uid : Nat) (s : State) : State := s.mapCrew uid fun c => { c with enroll := c.enroll ++ [⟨o, 0⟩] }

/-- Both sides of an enrollment. -/
def State.enrollIn (o : ObjId) (uid : Nat) (s : State) : State :=
  match s.crew? uid with
  | none => s
  | some c => (s.mapBarrier o (Barrier.enroll c.missing)).joinObject o uid

/-- A free object is claimed (R321). -/
def State.claim (o : ObjId) (owner : BitVec 32) (expect : BitVec 20) (s : State) : State :=
  s.mapBarrier o fun b => { b with v := true, owner := owner, expect := expect, arrived := 0, pendb := 0 }

/-- A free object: it keeps only its phase (R321). -/
def Barrier.clear (b : Barrier) : Barrier := { Barrier.reset with phase := b.phase }

/-- A crew leaves an object (R321): at no crew left the object is free. -/
def Barrier.leave (b : Barrier) : Barrier := if b.enrolled ≤ 1 then b.clear else { b with enrolled := b.enrolled - 1 }

/-- An object that a launch owns is free (R332). -/
def Barrier.free (own : BitVec 32) (b : Barrier) : Barrier := if b.v && b.owner == own then b.clear else b

/-! The layout of an object (R319) -/

def wordAt (ws : List Dword) (o : Nat) : Nat := (ws.getD o 0).toNat

/-- The words of a barrier object's layout. -/
def Barrier.words (b : Barrier) : List Dword :=
  [b.pendb, b.expect.zeroExtend 64, BitVec.ofNat 64 (b.arrived % 2 ^ 20 + b.phase.toNat * 2 ^ 20 + b.enrolled * 2 ^ 36),
    BitVec.ofNat 64 (b.v.toNat + b.owner.toNat * 2 ^ 32)]

def barrierOf (ws : List Dword) (o : Nat) : Barrier :=
  ⟨BitVec.ofNat 32 (wordAt ws (o + 3) / 2 ^ 32), bit (wordAt ws (o + 3)) 0, bits (wordAt ws (o + 2)) 36 20,
    BitVec.ofNat 16 (wordAt ws (o + 2) / 2 ^ 20), bits (wordAt ws (o + 2)) 0 20, BitVec.ofNat 20 (wordAt ws (o + 1)), ws.getD o 0⟩

/-- A saved object returns (R332): `none` while another launch owns its number (log entry 114). -/
def Barrier.restored (own : BitVec 32) (ws : List Dword) (b : Barrier) : Option Barrier :=
  if b.v && b.owner != own then none else some { barrierOf ws 0 with owner := own }

/-- An enrolled crew's task ends (R321). -/
def State.leaveObjects (uid : Nat) (s : State) : State :=
  match s.crew? uid with
  | none => s
  | some c =>
    (c.enroll.foldl (fun s e => if s.podAway e.obj then s.tellPod 0 (.leave (fin 2 e.obj.num)) else s.mapBarrier e.obj Barrier.leave)
      s).mapCrew uid fun c => { c with enroll := [] }

/-! The crew object (R319, R325) -/

/-- evaluate for the crew object: EXPECT is the number of launched threads that have not exited. -/
def Regs.crewEvaluate (r : Regs) : Regs :=
  if laneCount r.barArrived = laneCount r.live then
    { r.release none r.barPhase with barPhase := r.barPhase + 1, barArrived := 0 }
  else r

/-- Threads arrive at the crew object. -/
def Regs.crewArrive (lanes : Lanes) (r : Regs) : Regs := { r with barArrived := r.barArrived ||| lanes }.crewEvaluate

/-- Threads block until a phase passes. -/
def Regs.block (o : Option ObjId) (phase : BitVec 16) (lanes : Lanes) (r : Regs) : Regs :=
  { r with blocked := r.blocked ||| lanes, waits := r.waits ++ [⟨o, phase, lanes⟩] }

/-- Exited threads leave the crew object (R91, R323). -/
def Regs.crewDeduct (lanes : Lanes) (r : Regs) : Regs := { r with barArrived := r.barArrived &&& ~~~lanes }.crewEvaluate

/-! Issue -/

/-- The crew may use objects of core scope and wider (R322). -/
def TaskKind.mayBar : TaskKind → Bool
  | .member | .resident => true
  | _ => false

/-- The object of a scope and number in which the crew in focus is enrolled. -/
def State.enrolledObj (s : State) (scope : Fin 8) (num : Nat) : Option Enroll :=
  s.focus.enroll.find? fun e => e.obj.scope == scope && e.obj.num == num

/-- The checks of R327 that do not name threads. `needs`: the crew must be enrolled; `crew`: crew scope is legal. -/
def State.barLegal (s : State) (scope : Fin 8) (num : Nat) (crew needs : Bool) : Bool :=
  match lastObject scope.val with
  | none => false
  | some n =>
    decide (num ≤ n) &&
      (if scope = 0 then crew else s.focus.task.kind.mayBar && (!needs || (s.enrolledObj scope num).isSome))

/-- The issuing threads whose arrival-mask bit is set (R327). -/
def State.arrivedAlready (s : State) (scope : Fin 8) (num : Nat) : Lanes :=
  let mask := if scope = 0 then s.focus.r.barArrived else match s.enrolledObj scope num with
    | some e => e.mask
    | none => 0
  mask &&& s.clause.lanes

/-- A barrier action of core scope or wider enters step 6 and ends the chunk (R194, R328); an arrival or byte count is a
release at its object's scope (R222, R331). -/
def State.barAct (rel : Option (Fin 8)) (k : ActKind) (s : State) : State :=
  s.mapChunk fun ch =>
    { ch.act s.origin k with ends := true, rels := ch.rels ++ rel.toList.map fun sc => ⟨ch.acts.length, sc.val, false⟩ }

/-- The object of a BARI in an action of the chunk. -/
def ActKind.enrolls : ActKind → Option ObjId
  | .bari o _ _ _ => some o
  | _ => none

/-- The objects in which the crew in focus is enrolled, or will be when its chunk commits (R320, log entry 88). -/
def State.enrolledSoon (s : State) : List ObjId := s.focus.enroll.map Enroll.obj ++ s.focus.chunk.acts.filterMap fun a => a.kind.enrolls

/-- Block the issuing threads from issue on (R328). -/
def State.blockIssuing (s : State) : State := s.mapR fun r => { r with blocked := r.blocked ||| s.clause.lanes }

/-- BAR and BARA. -/
def State.barIssue (scope : Fin 8) (num : Nat) (d : Option (Fin 64)) (s : State) : State :=
  if !s.barLegal scope num true true then s.raise (flt .illegal 0)
  else if s.arrivedAlready scope num ≠ 0 then s.raise ⟨.illegal, 0, some (s.arrivedAlready scope num), none⟩
  else checked (d.toList.map fun x => ⟨.s, x.val, s.lanes⟩) s fun s =>
    let g := s.clause.lanes
    match s.enrolledObj scope num with
    | some e => match d with
      | some d => s.barAct (some scope) (.bara e.obj g d)
      | none => s.blockIssuing.barAct (some scope) (.bar e.obj g)
    | none => s.mapR fun r => match d with
      | some d => (r.writeS d (r.barPhase.zeroExtend 64)).crewArrive g
      | none => (r.block none r.barPhase g).crewArrive g

/-- BAR (R328). -/
def execBar (scope : Fin 8) (b : Fin 16) (s : State) : Out := .next (s.barIssue scope b.val none)

/-- BARA (R328). -/
def execBara (d : Fin 64) (scope : Fin 8) (b : Fin 16) (s : State) : Out := .next (s.barIssue scope b.val (some d))

/-- BARW (R328). -/
def execBarw (a : Fin 64) (scope : Fin 8) (b : Fin 16) (s : State) : Out :=
  .next (if !s.barLegal scope b.val true true then s.raise (flt .illegal 0)
    else checked [⟨.s, a.val, s.lanes⟩] s fun s =>
      let token := (s.focus.r.readS a).truncate 16
      let g := s.clause.lanes
      match s.enrolledObj scope b.val with
      | some e => s.blockIssuing.barAct none (.barw e.obj g token)
      | none => s.mapR fun r => if r.barPhase = token then r.block none token g else r)

/-- BARI (R321, R327, R329). -/
def execBari (a : Fin 64) (scope : Fin 8) (b : Fin 16) (s : State) : Out :=
  let o := objectAt s.focus.core scope b.val
  .next (if !s.barLegal scope b.val false false || decide (4 ≤ s.enrolledSoon.length) || (s.enrolledObj scope b.val).isSome ||
        s.enrolledSoon.contains o then s.raise (flt .illegal 0)
    else checked [⟨.s, a.val, s.lanes⟩] s fun s => s.barAct none (.bari o (s.focus.r.readS a) (scope.val + 8 * b.val) false))

/-- BARB (R330). -/
def execBarb (a : Fin 64) (scope : Fin 8) (b : Fin 16) (s : State) : Out :=
  .next (if !s.barLegal scope b.val false true then s.raise (flt .illegal 0)
    else checked [⟨.s, a.val, s.lanes⟩] s fun s =>
      match s.enrolledObj scope b.val with
      | some e => s.barAct (some scope) (.barb e.obj (s.focus.r.readS a))
      | none => s)

/-- The step-6 part of BAR, BARA and BARW for the crew in focus (R328). -/
def State.barStep6 (k : ActKind) (s : State) : State :=
  match k with
  | .bar o g => (s.mapR fun r => r.block (some o) (s.barrier o).phase g).arrive o s.focus.uid g
  | .bara o g d => (s.mapR fun r => r.writeS d ((s.barrier o).phase.zeroExtend 64)).arrive o s.focus.uid g
  | .barw o g token =>
    s.mapR fun r => if (s.barrier o).phase = token then r.block (some o) token g
      else r.unblock g
  | .barb o n => s.addBytes o n
  | .exitLanes g => s.focus.enroll.foldl (fun s e => s.deduct e.obj s.focus.uid g) s
  | _ => s

/-- BARI at an object (R321): claimed where it is free, then enrolled in; `none` where another launch owns it. -/
def Barrier.bari (own : BitVec 32) (count : BitVec 20) (missing : Nat) (b : Barrier) : Option Barrier :=
  if !b.v then some (Barrier.enroll missing { b with v := true, owner := own, expect := count, arrived := 0, pendb := 0 })
  else if b.owner = own then some (b.enroll missing)
  else none

/-- The fault of a BARI whose object another launch owns (R329). -/
def State.bariFault (org : Origin) (num : Nat) (s : State) : State :=
  s.postFault s.focus.uid .prot (BitVec.ofNat 64 num) org org.lanes false

/-- The step-6 part of BARI for the crew in focus, whose action this is (R321, R329). An object that package 0 holds is asked
there, and the action waits for the answer. -/
def State.bariStep6 (org : Origin) (o : ObjId) (count : Dword) (num : Nat) (sent : Bool) (s : State) : State :=
  let own := s.ownerTag s.focus.task.launch
  if s.podAway o then
    if sent then s
    else (s.mapChunk fun ch => { ch with acts := ⟨org, .bari o count num true⟩ :: ch.acts.drop 1 }).tellPod 0
      (.claim (fin 2 o.num) s.hub.regs.pkg.toNat s.focus.uid own (count.truncate 20) s.focus.missing)
  else match (s.barrier o).bari own (count.truncate 20) s.focus.missing with
    | some b => ((s.mapBarrier o fun _ => b).joinObject o s.focus.uid).popAct s.focus.uid
    | none => (s.bariFault org num).popAct s.focus.uid

/-- The pod objects that package 0 holds for a crew: those in which it is enrolled, or has asked to be. -/
def Crew.podObjects (c : Crew) : List (Fin 2) :=
  (List.finRange 2).filter fun n => (c.enroll.map Enroll.obj ++ c.chunk.acts.filterMap fun a => a.kind.enrolls).contains (podObject n)

/-- The pod objects that package 0 holds for the crews of a launch. -/
def State.podsOf (s : State) (launch : Nat) : List (Fin 2) :=
  if s.hub.regs.pkg = 0 then []
  else (List.finRange 2).filter fun n => s.crews.any fun c => c.uid != 0 && c.task.launch == launch && c.podObjects.contains n

/-- The answer of package 0 to a BARI (R321, R329). -/
def State.bariAnswer (n : Fin 2) (granted : Bool) (s : State) : State :=
  match s.focus.phase, s.focus.chunk.acts with
  | .acting, ⟨org, .bari o _ num true⟩ :: _ =>
    if o = podObject n then
      (if granted then s.joinObject o s.focus.uid else s.bariFault org num).popAct s.focus.uid
    else s
  | _, _ => s

/-- The answer of package 0 to what a pre-emption or a resume asks about a pod object: the launch notes it, or asks again (R332). -/
def State.podAnswer (n : Fin 2) (launch : Nat) (answer : Option (List Dword)) (s : State) : State :=
  let note := fun (p : Fin 2 × Option (List Dword)) => if p.1 = n then answer.map fun ws => (n, some ws) else some p
  s.mapLaunch launch fun l => { l with pods := l.pods.filterMap note }

/-- A message of the pod barrier network at package 0, which holds the objects (R318, R321, R323, R332). -/
def State.podAsked (msg : PodMessage) (s : State) : State :=
  match msg with
  | .arrivals n k => (s.mapBarrier (podObject n) fun b => { b with arrived := b.arrived + k }).evaluate (podObject n)
  | .deduction n k a =>
    (s.mapBarrier (podObject n) fun b => { b with expect := b.expect - BitVec.ofNat 20 k, arrived := b.arrived - a }).evaluate (podObject n)
  | .bytes n k => (s.mapBarrier (podObject n) fun b => { b with pendb := b.pendb + k }).evaluate (podObject n)
  | .claim n pkg crew owner expect missing =>
    match (s.barrier (podObject n)).bari owner expect missing with
    | some b => (s.mapBarrier (podObject n) fun _ => b).tellPod pkg (.claimed n pkg crew true b.phase)
    | none => s.tellPod pkg (.claimed n pkg crew false 0)
  | .leave n => s.mapBarrier (podObject n) Barrier.leave
  | .free n owner => s.mapBarrier (podObject n) (Barrier.free owner)
  | .save n pkg launch owner =>
    let b := s.barrier (podObject n)
    (s.mapBarrier (podObject n) (Barrier.free owner)).tellPod pkg (.saved n pkg launch (if b.v && b.owner == owner then b.words else []))
  | .restore n pkg launch owner ws =>
    match (s.barrier (podObject n)).restored owner ws with
    | some b => (s.mapBarrier (podObject n) fun _ => b).tellPod pkg (.restored n pkg launch owner true)
    | none => s.tellPod pkg (.restored n pkg launch owner false)
  | .phase .. | .claimed .. | .saved .. | .restored .. => s

/-- The crews of a launch whose pod object package 0 has saved take no part in its phases (R332). -/
def State.keepSaved (s : State) (n : Fin 2) (old : State) : State :=
  let kept := fun (c : Crew) => (old.launch? c.task.launch).any fun l => l.pods.any fun p => p.1 == n && p.2.isSome
  { s with
    focus := if kept old.focus then old.focus else s.focus
    pool := (old.pool.zip s.pool).map fun x => if kept x.1 then x.1 else x.2 }

/-- A message of the pod barrier network at another package: what package 0 tells and answers. -/
def State.podTold (msg : PodMessage) (s : State) : State :=
  match msg with
  | .phase n v => ((s.nextPhase (podObject n) (v - 1)).keepSaved n s).mapBarrier (podObject n) fun b => { b with phase := v }
  | .claimed n pkg crew ok v =>
    if s.hub.regs.pkg.toNat = pkg then
      (if ok then s.mapBarrier (podObject n) fun b => { b with phase := v } else s).onCrew crew (State.bariAnswer n ok)
    else s
  | .saved n pkg launch ws => if s.hub.regs.pkg.toNat = pkg then s.podAnswer n launch (some ws) else s
  | .restored n pkg launch owner ok =>
    if s.hub.regs.pkg.toNat = pkg then s.podAnswer n launch (if ok then some [owner.zeroExtend 64] else none) else s
  | .arrivals .. | .deduction .. | .bytes .. | .claim .. | .leave .. | .free .. | .save .. | .restore .. => s

/-- A message of the pod barrier network reaches this package (R318, R323). -/
def execPodBarrierMessage (msg : PodMessage) (s : State) : Out := .next (if s.hub.regs.pkg = 0 then s.podAsked msg else s.podTold msg)

end Sys2Proof.Machine
end

