-- ==== Sys2Proof/Machine/Control.lean ====
section
/-! DEFINITION. Instruction fetch (R21) and the control-flow instructions (R82 to R96). -/
namespace Sys2Proof.Machine

/-! Instruction fetch -/

/-- What the fetch of one word, or of a clause, answers. -/
inductive Fetched (α : Type) where
  | ok (x : α)
  | fault (c : FltCode) (addr : Dword) (word : BitVec 4)
  deriving DecidableEq, Repr

/-- The bytes of a code line of a core (R21): the instruction cache's, or those of memory, which then enter the cache of
512 lines. -/
def State.codeLine (core line : Nat) (slot : BitVec 12) (s : State) : State × List Byte :=
  match (s.coreAt core).code.find? fun l => l.line == line with
  | some l => (s, l.data)
  | none =>
    let s := s.readLine line
    let data := (List.range 128).map fun i => s.byteUnder slot (line * 128 + i)
    (s.mapCore core fun c => { c with code := (⟨line, data⟩ :: c.code).take 512 }, data)

/-- Fetch the word of a crew at a virtual address; `idx` is its word index for a fault's record. -/
def State.fetchWord (c : Crew) (a : Nat) (idx : Nat) (s : State) : State × Fetched (BitVec 32) :=
  let bad := fun f => Fetched.fault f (BitVec.ofNat 64 a) (BitVec.ofNat 4 idx)
  if winOwn ≤ a then (s, bad .prot)
  else match s.translate (s.space c false) ⟨false, false, true⟩ a with
    | (s, .fault f) => (s, bad f)
    | (s, .ok leaf pa _) =>
      if s.badAt pa 4 then (s.takeBad pa 4, .fault .memerr (BitVec.ofNat 64 pa) (BitVec.ofNat 4 idx))
      else if isHbm pa then
        let (s, data) := s.codeLine c.core (lineOf pa) (BitVec.ofNat 12 (pteKey leaf))
        (s, .ok (BitVec.ofNat 32 (leNat ((data.drop (pa % 128)).take 4))))
      else ({ s with free := s.free + 1 },
        .ok (BitVec.ofNat 32 (leNat ((List.range 4).map fun i => Config.outsideByte s.free (pa + i)))))

/-- Fetch consecutive words, up to the first fault. -/
def State.fetchWords (c : Crew) (a idx : Nat) : Nat → State → State × Fetched (List (BitVec 32))
  | 0, s => (s, .ok [])
  | n + 1, s =>
    match s.fetchWord c (a % 2 ^ 57) idx with
    | (s, .fault f x w) => (s, .fault f x w)
    | (s, .ok w) => match s.fetchWords c (a + 4) (idx + 1) n with
      | (s, .ok ws) => (s, .ok (w :: ws))
      | r => r

/-- Fetch a whole clause (R21): its header and words. A header that R17 refuses raises CLAUSE at word 0, after the faults
of the fetch of its COUNT words (R42). -/
def State.fetchClause (c : Crew) (a : Addr) (s : State) : State × Fetched (Header × List (BitVec 32)) :=
  match s.fetchWord c a.toNat 0 with
  | (s, .fault f x w) => (s, .fault f x w)
  | (s, .ok hw) =>
    match s.fetchWords c (a.toNat + 4) 1 (bits hw.toNat 28 4) with
    | (s, .fault f x w) => (s, .fault f x w)
    | (s, .ok ws) => match decodeHeader hw.toNat with
      | none => (s, .fault .clause 0 0)
      | some h => (s, .ok (h, ws))

/-! Branches -/

/-- h + 4 × offset, modulo 2^57 (R28). -/
def State.offsetTarget (s : State) (off : Int) : Addr := s.clause.addr + BitVec.ofInt 57 (4 * off)

/-- A branch of the issuing threads for which `take` holds (R88). -/
def State.branch (off : Int) (take : Fin 32 → Bool) (s : State) : State :=
  s.transfer fun t => if take t then some (s.offsetTarget off) else none

def execNop (s : State) : Out := .next s

def execBra (off : BitVec 24) (s : State) : Out := .next (s.branch off.toInt fun _ => true)

/-- The register of BRZ and BRNZ as a use, and its value in a thread (R88). -/
def testUse (u : Bool) (a : Fin 64) (s : State) : List Use := [⟨if u then .s else .v, a.val, s.lanes⟩]
def testValue (u : Bool) (a : Fin 64) (r : Regs) (t : Fin 32) : Dword := if u then r.readS a else (r.readV a t).val

def execBrz (u : Bool) (a : Fin 64) (off : BitVec 12) (s : State) : Out :=
  .next (checked (testUse u a s) s fun s => s.branch off.toInt fun t => testValue u a s.focus.r t == 0)
def execBrnz (u : Bool) (a : Fin 64) (off : BitVec 12) (s : State) : Out :=
  .next (checked (testUse u a s) s fun s => s.branch off.toInt fun t => testValue u a s.focus.r t != 0)
def execBrq (q : Fin 8) (neg : Bool) (off : BitVec 20) (s : State) : Out :=
  .next (checked [⟨.q, q.val, s.lanes⟩] s fun s =>
    s.branch off.toInt fun t => (s.focus.r.readQ q t).getLsbD 0 != neg)

/-! Indirect targets (R82) -/

/-- The check of one target, whose translation the chunk then uses (R186); `lp`: the header must be a landing point. -/
def State.checkTarget (lp : Bool) (x : Dword) (s : State) : State × Option FltCode :=
  if x.toNat % 4 ≠ 0 then (s, some .misalign)
  else if winOwn ≤ x.toNat then (s, some .prot)
  else match s.fetchWord s.focus x.toNat 0 with
    | (s, .fault f _ _) => (s, some f)
    | (s, .ok w) => (s.noteUse x.toNat, if lp && !bit w.toNat 4 then some .prot else none)

/-- A lane's failure of a control transfer: its code and FLTADDR. -/
abbrev LaneFail := Fin 32 × FltCode × Dword

/-- Targets of the issuing lanes, checked in lane order. -/
def State.checkTargets (lp : Bool) : List (Fin 32 × Dword) → State → State × List LaneFail
  | [], s => (s, [])
  | (t, x) :: l, s =>
    let (s, f) := s.checkTarget lp x
    let (s, fs) := s.checkTargets lp l
    (s, match f with
      | some c => (t, c, x) :: fs
      | none => fs)

/-- The fault of a control transfer: that of the lowest failing lane, naming every failing lane (R82). -/
def laneFault (fs : List LaneFail) : Option Flt :=
  match fs with
  | [] => none
  | (_, c, x) :: _ => some ⟨c, x, some (laneSet (fs.map (·.1))), none⟩

/-- The lowest failure of each lane first. -/
def mergeFails (a b : List LaneFail) : List LaneFail :=
  (List.finRange 32).filterMap fun t => (a.find? fun x => x.1 == t).orElse fun _ => b.find? fun x => x.1 == t

/-- The target of each issuing lane, from v[A]. -/
def State.vTargets (a : Fin 64) (s : State) : List (Fin 32 × Dword) := s.lanes.map fun t => (t, (s.focus.r.readV a t).val)

/-- The transfer of the lanes to their targets. -/
def State.jump (ts : List (Fin 32 × Dword)) (s : State) : State :=
  s.transfer fun t => (ts.find? fun x => x.1 == t).map fun x => x.2.truncate 57

/-- JMPI (R82, R89). -/
def execJmpi (a : Fin 64) (s : State) : Out :=
  .next (checked [⟨.v, a.val, s.lanes⟩] s fun s =>
    let ts := s.vTargets a
    let (s, fs) := s.checkTargets true ts
    match laneFault fs with
    | some f => s.raise f
    | none => s.jump ts)

/-! The call stack (R74, R89, R90) -/

/-- The private-window address of an offset. -/
def privVa (o : Nat) : Dword := BitVec.ofNat 64 (winPriv + o)

/-- The stack pointer and depth of a thread after a push, and after a pop. -/
def Regs.push (r : Regs) (t : Fin 32) : Regs :=
  { r with csp := r.csp.set t (r.csp[t] - 8), cdepth := r.cdepth.set t (r.cdepth[t] + 1) }
def Regs.pop (r : Regs) (t : Fin 32) : Regs :=
  { r with csp := r.csp.set t (r.csp[t] + 8), cdepth := r.cdepth.set t (r.cdepth[t] - 1) }

/-- The failures of the pushes of the issuing lanes that need no translation (R89). -/
def pushFails (r : Regs) (lanes : List (Fin 32)) : List LaneFail :=
  lanes.filterMap fun t =>
    if r.csp[t].toNat < 8 then some (t, .prot, privVa 0)
    else if r.cdepth[t] = 65535 then some (t, .prot, privVa (r.csp[t].toNat - 8))
    else none

/-- The failures of translated accesses, by lane. -/
def probeFails (ps : List (Want × Probe)) : List LaneFail :=
  ps.filterMap fun x => match x.1.lane, x.2 with
    | some t, .fault c a => some (t, c, a)
    | _, _ => none

/-- CALL and CALLI: the target checks that `fails` answers, the pushes of every issuing lane, then the transfer. -/
def State.callTo (fails : List LaneFail) (target : List (Fin 32 × Dword)) (s : State) : State :=
  let r := s.focus.r
  let short := pushFails r s.lanes
  let wants : List Want := (s.lanes.filter fun t => !short.any fun x => x.1 == t).map fun t =>
    ⟨some t, privVa (r.csp[t].toNat - 8), 8, 0⟩
  let (s, ps) := s.probeAll ⟨false, true, false⟩ false wants
  match laneFault (mergeFails fails (mergeFails short (probeFails ps))) with
  | some f => s.raise f
  | none =>
    let ret : Dword := s.clause.next.zeroExtend 64
    let puts := (probeLocs ps).map fun x => (⟨x.1, x.2, lowBytes 8 ret⟩ : Put)
    (s.mapChunk (notePages ps)).storeAll 0 puts fun s =>
      (s.mapR fun r => s.lanes.foldl Regs.push r).jump target

/-- CALL (R89); ILLEGAL in the handler (R385). -/
def execCall (off : BitVec 24) (s : State) : Out :=
  .next (if s.focus.r.flt.sup then s.raise (flt .illegal 0)
    else s.callTo [] (s.lanes.map fun t => (t, (s.offsetTarget off.toInt).zeroExtend 64)))

/-- CALLI (R82, R89). -/
def execCalli (a : Fin 64) (s : State) : Out :=
  .next (if s.focus.r.flt.sup then s.raise (flt .illegal 0)
    else checked [⟨.v, a.val, s.lanes⟩] s fun s =>
      let ts := s.vTargets a
      let (s, fs) := s.checkTargets true ts
      s.callTo fs ts)

/-- RET (R82, R90). Its reads touch no cache line and no counter (log entry 83). -/
def execRet (s : State) : Out :=
  .next (if s.focus.r.flt.sup then s.raise (flt .illegal 0)
    else
      let r := s.focus.r
      let empty := s.lanes.filter fun t => r.cdepth[t] == 0
      if !empty.isEmpty then s.raise ⟨.illegal, 0, some (laneSet empty), none⟩
      else s.access ⟨true, false, false⟩ false noExtra (s.lanes.map fun t => ⟨some t, privVa r.csp[t].toNat, 8, 0⟩) fun ls s =>
        match s.mergeReads (ls.map (·.2)) with
        | (s, false) => s.hold
        | (s, true) =>
          let ts := (s.readAll ls).filterMap fun x => x.1.lane.map fun t => (t, BitVec.ofNat 64 x.2)
          let (s, fs) := s.checkTargets false ts
          match laneFault fs with
          | some f => s.raise f
          | none => ((s.noteReads false 0 ls).mapR fun r => s.lanes.foldl Regs.pop r).jump ts)

/-! Ending threads (R91) -/

/-- Threads exit: they leave the frontier and the crew object, and their call stacks are discarded. -/
def Regs.exitLanes (lanes : Lanes) (r : Regs) : Regs :=
  Regs.crewDeduct lanes
    { r with
      emask := r.emask ||| lanes
      blocked := r.blocked &&& ~~~lanes
      csp := tab 32 fun t => if hasLane lanes t then 0 else r.csp[t]
      cdepth := tab 32 fun t => if hasLane lanes t then 0 else r.cdepth[t]
      frontier := (r.frontier.map fun e => { e with threads := e.threads &&& ~~~lanes }).filter fun e => e.threads != 0 }

/-- EXIT (R91, R194). -/
def execExit (s : State) : Out :=
  .next (
    let g := s.clause.lanes
    let s := (s.mapR (Regs.exitLanes g)).mapCur fun c => { c with moved := true }
    let s := if s.focus.enroll.isEmpty then s else s.mapChunk (Chunk.act s.origin (.exitLanes g))
    if s.focus.r.live = 0 then s.mapChunk fun ch => { ch with ends := true } else s)

/-! Safe points, waits, repeats, breaks -/

/-- SAFEPT (R85, R92). -/
def execSafept (_off : BitVec 20) (s : State) : Out :=
  .next (if s.focus.r.flagsBusy (BitVec.allOnes 12) then s.hold else s.mapR fun r => { r with safecnt := 0 })

/-- WAITF (R25, R93). -/
def execWaitf (mask : BitVec 12) (s : State) : Out :=
  .next (if s.focus.r.flagsBusy mask then s.hold else s.mapR fun r => r.clearMarks mask s.clause.lanes)

/-- A register field in repeat `k`: one more per repeat where its STEP bit is set (R35); `none` above 63. -/
def stepField (on : Bool) (k : Nat) (f : Fin 64) : Option (Fin 64) :=
  if !on then some f else if f.val + k < 64 then some (fin 64 (f.val + k)) else none

/-- The word that repeat `k` issues (R35); `none` for a word that REP may not repeat, for a STEP bit on a field that
holds no register of the word, and for a register above 63. STEP bits, from bit 3 down: D, A, B, C. -/
def stepInstr (st : BitVec 4) (k : Nat) (i : Instr) : Option Instr :=
  let fd := stepField (st.getLsbD 3) k
  let fa := stepField (st.getLsbD 2) k
  let fb := stepField (st.getLsbD 1) k
  let fc := stepField (st.getLsbD 0) k
  let dab := fun (mk : Fin 64 → Fin 64 → Fin 64 → Instr) (d a b : Fin 64) =>
    if st.getLsbD 0 then none else (fd d).bind fun d => (fa a).bind fun a => (fb b).map (mk d a)
  let da := fun (mk : Fin 64 → Fin 64 → Instr) (d a : Fin 64) =>
    if st.getLsbD 0 || st.getLsbD 1 then none else (fd d).bind fun d => (fa a).map (mk d)
  let d1 := fun (mk : Fin 64 → Instr) (d : Fin 64) =>
    if st.getLsbD 0 || st.getLsbD 1 || st.getLsbD 2 then none else (fd d).map mk
  match i with
  | .sadd d a b => dab .sadd d a b
  | .ssub d a b => dab .ssub d a b
  | .smul d a b => dab .smul d a b
  | .smulh d a b => dab .smulh d a b
  | .smulhz d a b => dab .smulhz d a b
  | .sand d a b => dab .sand d a b
  | .sor d a b => dab .sor d a b
  | .sxor d a b => dab .sxor d a b
  | .sshl d a b => dab .sshl d a b
  | .sshr d a b => dab .sshr d a b
  | .ssar d a b => dab .ssar d a b
  | .smin d a b => dab .smin d a b
  | .smax d a b => dab .smax d a b
  | .sminz d a b => dab .sminz d a b
  | .smaxz d a b => dab .smaxz d a b
  | .scmp d a b cc => dab (fun d a b => .scmp d a b cc) d a b
  | .ssel d a b c => (fd d).bind fun d => (fa a).bind fun a => (fb b).bind fun b => (fc c).map (.ssel d a b)
  | .smov d a => da .smov d a
  | .spopc d a => da .spopc d a
  | .sclz d a => da .sclz d a
  | .saddi d a i => da (fun d a => .saddi d a i) d a
  | .sandi d a i => da (fun d a => .sandi d a i) d a
  | .sori d a i => da (fun d a => .sori d a i) d a
  | .sshli d a n => da (fun d a => .sshli d a n) d a
  | .sshri d a n => da (fun d a => .sshri d a n) d a
  | .smovk d sh i => d1 (fun d => .smovk d sh i) d
  | .smovz d sh i => d1 (fun d => .smovz d sh i) d
  | _ => none

/-- REP (R35): SAFEDIST is checked once, for the whole sequence (R85), and before the word that is to repeat (log
entry 84). -/
def execRep (n : Fin 64) (step : BitVec 4) (s : State) : Out :=
  .next (if !s.focus.r.flt.sup && decide (4096 ≤ s.focus.r.safecnt + n.val + 1) then s.raise (flt .safedist 0)
    else match s.clause.following.bind (stepInstr step n.val) with
      | none => s.raise (flt .illegal 0)
      | some _ => s.mapCur fun c => { c with rep := some ⟨0, n.val + 1, step⟩ })

/-- BRK (R95). -/
def execBrk (code : BitVec 12) (s : State) : Out := .next (s.raise (flt .trap (2 ^ 63 + code.toNat)))

end Sys2Proof.Machine
end

