-- ==== Sys2Proof/Machine/Lines.lean ====
section
/-! DEFINITION. Lines at their homes: grants (R202), the writes and invalidations of chunks, engines, atomics and released
lines (R203, R205, R212, R226, R241), reductions (R243 to R246), what is posted outside (R230, R240), and what of the STREAM
writes is visible (R217, R222). -/
namespace Sys2Proof.Machine

/-! What leaves the package -/

/-- Consecutive runs of bytes at rising keys. -/
def byteRuns : List (Nat × Byte) → List (Nat × List Byte)
  | [] => []
  | (k, b) :: l => match byteRuns l with
    | (k', bs) :: rs => if k' = k + 1 then (k, b :: bs) :: rs else (k, [b]) :: (k', bs) :: rs
    | [] => [(k, [b])]

/-- Bytes in increasing key, the last of a key winning. -/
def sortBytes (l : List (Nat × Byte)) : List (Nat × Byte) :=
  l.foldl (fun acc x => (acc.filter fun y => decide (y.1 < x.1)) ++ [x] ++ acc.filter fun y => decide (x.1 < y.1)) []

/-- What leaves is an atomic. -/
def Output.isAtomic : Output → Bool
  | .hostAtomic .. | .peerAtomic .. => true
  | _ => false

/-- A write or atomic is posted to the host or a peer (R230): sent where the link is up, held while it retrains, lost where it
is down (R415). A FENCE of the crew that waits meets a link that retrains. -/
def State.post (id key : Nat) (out : Output) (s : State) : State :=
  let peer := awayPeer key
  let link := s.link peer
  let met := fun (f : FenceWait) =>
    match peer, link with
    | some k, .retraining => if f.crew = id && !f.links.any fun l => l.1 == k then { f with links := f.links ++ [(k, s.now)] } else f
    | _, _ => f
  { s with
    fences := s.fences.map met
    outbox := if link = .up then s.outbox ++ [out] else s.outbox
    posted := s.posted ++ [⟨id, peer, key, if link = .retraining then some out else none, link == .down, out.isAtomic⟩] }

/-- The crew for which an access was made: its own, or that of a command that an engine holds. -/
def State.posterOf (s : State) (id : Nat) : Nat :=
  let held := fun (k : Core) => ((k.barge.queue ++ k.barge.jobs).map fun j => (j.id, j.actor.crew)) ++ k.ten.map fun j => (j.id, j.actor.crew)
  ((s.cores.flatMap held).find? fun x => x.1 == id).elim id (·.2)

/-- A machine check of a crew's accesses that names none of its words (R240, R247, R252); where the crew is gone, the event log alone
has an error. -/
def State.postCheck (id : Nat) (code : FltCode) (addr : Dword) (s : State) : State :=
  match s.crew? (s.posterOf id) with
  | none => if code = .memerr then s.event 3 (memUnit addr.toNat) .memerr 0xFFFFFFFF addr else s
  | some c => s.postFault c.uid code addr ⟨c.chunk.first, 0, 0⟩ 0 false

/-- Writes to host memory or a peer window. -/
def State.postOut (id : Nat) (cells : List (Nat × Byte)) (s : State) : State :=
  (byteRuns (sortBytes cells)).foldl (fun s x => s.post id x.1
    (if isHost x.1 then .hostWrite (x.1 - 2 ^ 51) x.2 else .peerWrite (peerOf x.1) ((x.1 - 2 ^ 50) % 2 ^ 40) x.2)) s

/-- An atomic to host memory or a peer window (R240). -/
def awayAtomic (key : Nat) (op : Fin 16) (w : Nat) (operand : Dword) (compare : Option Dword) : Output :=
  if isHost key then .hostAtomic (key - 2 ^ 51) op.val w operand compare
  else .peerAtomic (peerOf key) ((key - 2 ^ 50) % 2 ^ 40) op.val w operand compare

/-- A reduction is posted there; over a link that is down it completes with MEMERR (R240, R415), which names no word. -/
def State.sendAtomic (id key : Nat) (op : Fin 16) (w : Nat) (operand : Dword) (s : State) : State :=
  let t := s.post id key (awayAtomic key op w operand none)
  if s.link (awayPeer key) = .down then t.postCheck id .memerr (BitVec.ofNat 64 key) else t

/-! Writes of single lines -/

/-- Apply bytes of one line at its home (R203 steps 3 and 4, R213, R245): partials merge first, readers are invalidated,
the line is written under its key slot; one core's L1 keeps its copy (R212). -/
def State.writeLine (core except : Nat) (slot : BitVec 12) (hint : Fin 8) (va : Nat) (cells : List (Nat × Byte)) (s : State) : State :=
  match cells with
  | [] => s
  | (k, _) :: _ =>
    let line := lineOf k
    let s := s.mergeLine line
    let s := if isHbm k then s.keyLine line slot.toNat else s
    let s := ((s.putBytes cells).invalidateLine line except).clearBad cells
    if isHbm k then
      (s.dropCopies core line).touchL2 core line slot.toNat (s.hub.regs.retSlot slot.toNat va) (if hint = 4 then 1 else hint) true false true
    else s

/-- A write of a SYSTEM page in HBM, uncached at its memory controller (R218, R240). -/
def State.systemWrite (except : Nat) (l : Loc) (cells : List (Nat × Byte)) (s : State) : State :=
  let line := lineOf l.key
  (((((s.mergeLine line).keyLine line l.slot.toNat).putBytes cells).invalidateLine line except).dropCopies noCore line).clearBad cells

/-- A STREAM line is released: it becomes visible later (R217). -/
def State.release (id core : Nat) (b : BufLine) (s : State) : State :=
  let (s, n) := s.freshId
  { s with streams := s.streams ++ [⟨n, id, core, [], b⟩] }

/-- The write of an engine or of the scarab at a place that is already located, under the number of its command or crew
(R226, R342): by region. -/
def State.engineStore (id core : Nat) (l : Loc) (bytes : List Byte) (s : State) : State :=
  match l.region with
  | .spad => (s.putBytes (cellsAt l.key bytes)).markDirty l.key
  | .stream => s.release id core ⟨.stream, lineOf l.key, l.va &&& ~~~127, 0, l.slot, 0, false, .bytes (cellsAt (l.key % 128) bytes)⟩
  | .system => if l.away then s.postOut id (cellsAt l.key bytes) else s.systemWrite 0 l (cellsAt l.key bytes)
  | _ => s.writeLine core 0 l.slot 0 l.va.toNat (cellsAt l.key bytes)

/-- The grant that a located write needs (R202, R226): of its line, or for the partials that a SYSTEM access merges (R245). -/
def State.passStore (id : Nat) (l : Loc) (s : State) : State × Bool :=
  if l.region.signed then s.passLine id (lineOf l.key)
  else if l.region == .system && !l.away then s.mergeFor id (lineOf l.key)
  else (s, true)

/-- The grants that several writes of one step need, one after another; the first that waits leaves its request. -/
def State.passStores (id : Nat) : List Loc → State → State × Bool
  | [], s => (s, true)
  | l :: ls, s => match s.passStore id l with
    | (s, true) => s.passStores id ls
    | (s, false) => (s, false)

/-! Partial copies and reductions (R243 to R246) -/

/-- Records combine into the elements of a Part copy. -/
def partialAdd (op : Fin 16) (w : Nat) (elems : List (Nat × Dword)) (r : RedRec) : List (Nat × Dword) :=
  match elems.find? fun e => e.1 == r.off with
  | some e => elems.map fun x => if x.1 = r.off then (r.off, BitVec.ofNat 64 (reduceOp op w (e.2.toNat % 2 ^ w) (r.operand.toNat % 2 ^ w))) else x
  | none => elems ++ [(r.off, r.operand)]

/-- A partial of the line has another code or width (R245). -/
def State.otherPartial (line : Nat) (op : Fin 16) (w : Nat) (s : State) : Bool :=
  s.partials.any fun p => p.line == line && (p.op != op || p.w != w)

/-- A line's reductions are applied at the home, but for those whose bytes hold an error (R252): the first of these. -/
def State.reduceHome (line : Nat) (op : Fin 16) (w : Nat) (rs : List RedRec) (s : State) : State × Option Nat :=
  let bad := fun (s : State) (r : RedRec) => s.badAt (line * 128 + r.off) (w / 8)
  ((rs.filter fun r => !bad s r).foldl (fun s r => s.reduceAt op w (line * 128 + r.off) r.operand) s,
    (rs.find? (bad s)).map fun r => line * 128 + r.off)

/-- Reductions of one line commit from a core (R243 to R245): at the home, or into a Part copy of the core's die. Partials of
another code or width merge first. The answer names a byte whose error kept a reduction from being performed. -/
def State.commitReds (core except : Nat) (b : BufLine) (op : Fin 16) (w : Nat) (rs : List RedRec) (s : State) : State × Option Nat :=
  let die := core / 36
  let line := b.line
  let s := if s.otherPartial line op w then s.mergeLine line else s
  if isHbm (line * 128) && dieOfPa (line * 128) != die then
    match s.partials.find? fun p => p.line == line && p.die == die with
    | some _ =>
      ({ s with partials := s.partials.map fun p =>
          if p.line = line && p.die = die then { p with elems := rs.foldl (partialAdd op w) p.elems } else p }, none)
    | none =>
      let s := (s.invalidateLine line except).dropCopies noCore line
      (State.placePart die line b.slot.toNat { s with partials := s.partials ++ [⟨die, line, op, w, b.slot, rs.foldl (partialAdd op w) []⟩] }, none)
  else
    let s := if isHbm (line * 128) then s.keyLine line b.slot.toNat else s
    let (s, bad) := ((s.invalidateLine line except).dropCopies noCore line).reduceHome line op w rs
    (if isHbm (line * 128) then
        s.touchL2 core line b.slot.toNat (s.hub.regs.retSlot b.slot.toNat b.va.toNat) (if b.hint = 4 then 1 else b.hint) true false true
      else s, bad)

/-- The landing at which a line commits from a die: that of reductions of another die's line is its partial landing (R244). -/
def BufLine.landing (die : Nat) (b : BufLine) : Nat :=
  match b.data with
  | .reds _ _ _ => if isHbm (b.line * 128) && dieOfPa (b.line * 128) != die then partialLanding die b.line else landingOf b.line
  | .bytes _ => landingOf b.line

/-- A line reaches its home, or leaves the package. Reductions that an error stops raise MEMERR (R252), and a home whose die has
failed HOMELOST (R247): they name no word. -/
def State.applyLine (core id : Nat) (b : BufLine) (s : State) : State :=
  let k := b.line * 128
  let away := !isHbm k && decide (k < 2 ^ 52)
  if s.homeLost k then s.postCheck id .homelost (BitVec.ofNat 64 k)
  else match b.data with
  | .bytes l =>
    let cells := sortBytes (l.map fun x => (k + x.1, x.2))
    if away then s.postOut id cells else s.writeLine core id b.slot b.hint b.va.toNat cells
  | .reds op w rs =>
    if away then rs.foldl (fun s r => s.sendAtomic id (k + r.off) op w r.operand) s
    else match s.commitReds core id b op w rs with
      | (s, none) => s
      | (s, some a) => s.postCheck id .memerr (BitVec.ofNat 64 a)

/-! Visibility of STREAM writes (R217, R222 to R224) -/

/-- A core is enabled: its fuse is whole (R9, R394). -/
def PkgRegs.enabled (r : PkgRegs) (k : Nat) : Bool := !(r.harv.getD (k / 36) 0).getLsbD (k % 36)

/-- The enabled cores of the instance of a scope that contains a core, up to die scope (R5, R223). -/
def PkgRegs.scopeCores (r : PkgRegs) (core scope : Nat) : List Nat :=
  match scope with
  | 0 => []
  | 1 => [core]
  | 2 => ((List.range 4).map fun m => core / 4 * 4 + m).filter r.enabled
  | _ => ((List.range 36).map fun m => core / 36 * 36 + m).filter r.enabled

/-- Every write of a crew or command, and every write that its core has seen, is visible at a scope (R222): from pkg scope up at
its home, and from pod scope up what it posted is acknowledged. -/
def State.shown (id core scope : Nat) (s : State) : Bool :=
  (s.streams.all fun x => (x.crew != id && !x.seen.contains core) || (scope ≤ 3 && (s.hub.regs.scopeCores core scope).all x.seen.contains)) &&
    (scope < 5 || !s.posted.any fun p => p.crew == id)

/-- The cores that see a released line, or whose crew does: its crew's own, and those that it has reached ahead of its home. -/
def StreamOut.seers (x : StreamOut) : List Nat := x.core :: x.seen

/-- A line is behind another of the same line that its crew released, or that a core which sees it has seen, earlier (R216). -/
def StreamOut.behind (x : StreamOut) (earlier : List StreamOut) : Bool :=
  earlier.any fun y => y.line.line == x.line.line && (y.crew == x.crew || y.seers.any x.seers.contains)

end Sys2Proof.Machine
end

