-- ==== Sys2Proof/Machine/Tables.lean ====
section
/-! DEFINITION. What the hub reads and writes in memory: physical ranges (R226, R399, R423), queue descriptors (R411), and the
frames of a launch's spill region (R260, R298). -/
namespace Sys2Proof.Machine

/-! Physical accesses of the hub -/

/-- The lines of `n` bytes at a physical address. -/
def linesOf (pa n : Nat) : List Nat := if n = 0 then [] else (List.range (lineOf (pa + n - 1) - lineOf pa + 1)).map fun k => lineOf pa + k

/-- Bytes at a physical address as the hub finds them under a key slot, where one is given; what stands outside the package's HBM
is the outside's. -/
def State.physRead (slot : Option (BitVec 12)) (pa n : Nat) (s : State) : State × List Byte :=
  if isHbm pa then
    let s := (linesOf pa n).foldl (fun s line => s.readLine line) s
    (s, match slot with
      | some k => (List.range n).map fun i => s.byteUnder k (pa + i)
      | none => s.bytes pa n)
  else ({ s with free := s.free + 1 }, (List.range n).map fun i => Config.outsideByte s.free (pa + i))

/-- Write bytes of HBM line by line, each invalidating its readers (R226) and allocating its line at the home (R190), under a key
slot where one is given. -/
def State.physWrite (slot : Option Nat) (pa : Nat) (bytes : List Byte) (s : State) : State :=
  if isHost pa then { s with outbox := s.outbox ++ [.hostWrite (pa - 2 ^ 51) bytes] }
  else if isPeer pa then s.sendTo (some (peerOf pa)) pa (.peerWrite (peerOf pa) ((pa - 2 ^ 50) % 2 ^ 40) bytes)
  else
    let cells := cellsAt pa bytes
    (linesOf pa bytes.length).foldl (fun s line =>
      let mine := cells.filter fun x => lineOf x.1 == line
      let s := s.mergeLine line
      let s := match slot with
        | some k => s.keyLine line k
        | none => s
      ((((s.putBytes mine).invalidateLine line 0).dropCopies noCore line).clearBad mine).touchL2 noCore line (s.keyOf line) none 0
        true false true) s

/-- The grants for the writes of several lines in one step, one after another; the first that waits leaves its request. -/
def State.passLines (id : Nat) : List Nat → State → State × Bool
  | [], s => (s, true)
  | n :: ns, s => match s.passLine id n with
    | (s, true) => s.passLines id ns
    | (s, false) => (s, false)

/-- The grants that a write of a physical range needs (R202). -/
def State.passPhys (id pa n : Nat) (s : State) : State × Bool := if isHbm pa then s.passLines id (linesOf pa n) else (s, true)

/-! Queues (R404, R411 to R413) -/

def Desc.none : Desc := ⟨0, 0, 0, 0, 0, 0, 0, 0, 0, 0, 0, 0⟩

/-- A descriptor from its 128 bytes, and whether it is legal (R411). Of its addresses QBASE and ROOTPT have an alignment. -/
def parseDesc (b : List Byte) : Desc × Bool :=
  let d := fun o => BitVec.ofNat 64 (fieldOf b o 8)
  let x : Desc := ⟨d 0, fieldOf b 8 4, fieldOf b 12 4, fieldOf b 24 8, d 32, fieldOf b 40 8, fieldOf b 48 8, fieldOf b 56 8, d 64,
    fieldOf b 72 8, d 80, fieldOf b 88 8⟩
  let pow := (List.range 17).any fun k => x.qsize == 2 ^ k
  (x, pow && decide (x.state ≤ 1) && x.qbase.toNat % 128 == 0 && x.rootpt % 32 == 0 && fieldOf b 96 32 == 0)

/-- The descriptor of a queue in the table. -/
def State.readDesc (q : Nat) (s : State) : State × Desc × Bool :=
  let (s, b) := s.physRead none (s.sched.qtbase.toNat + 128 * q) 128
  (s, parseDesc b)

def State.queue? (s : State) (q : Nat) : Option Queue := s.sched.queues.find? fun x => x.num == q

def State.mapQueue (q : Nat) (f : Queue → Queue) (s : State) : State :=
  { s with sched := { s.sched with queues := s.sched.queues.map fun x => if x.num = q then f x else x } }

def Queue.fresh (q : Nat) : Queue := ⟨q, 0, 0, none, none, false, false, Desc.none, false, false, none⟩

/-- A queue that has rung a doorbell is known. -/
def State.knowQueue (q : Nat) (s : State) : State :=
  if (s.queue? q).isSome then s else { s with sched := { s.sched with queues := s.sched.queues ++ [Queue.fresh q] } }

/-- The queue is ready (R404, R413, R423). -/
def Queue.ready (q : Queue) : Bool := decide (q.head < q.tail) && !q.disabled && !q.copying

/-- A launch takes the sizes and the bases that its descriptor holds now: the supervisor has enlarged its pool (R268) or its
filter region (R315). -/
def State.refreshDesc (launch : Nat) (s : State) : State :=
  match s.launch? launch with
  | none => s
  | some l => match s.readDesc l.queue with
    | (s, d, true) => s.mapLaunch launch fun l => { l with desc := { l.desc with
        rfbase := d.rfbase, rfsize := d.rfsize, privbase := d.privbase, privsize := d.privsize } }
    | (_, _, false) => s

/-! The spill region of a launch (R260, R267, R298, R411) -/

/-- The lowest place for a frame of `n` bytes: behind the deque spill regions, at an address that is a multiple of 128, within
SPILLSIZE, clear of the other frames. -/
def Launch.freeFrame (l : Launch) (n : Nat) : Option Nat :=
  let first := 0x480000 + (128 - l.desc.spillbase.toNat % 128) % 128
  let fits := fun o => decide (o + n ≤ l.desc.spillsize) && l.frames.all fun f => decide (o + n ≤ f.off) || decide (f.off + f.size ≤ o)
  match (first :: l.frames.map fun f => f.off + f.size).filter fits with
  | [] => none
  | x :: xs => some (xs.foldl min x)

/-- Frames of a crew are free. -/
def State.freeFrames (launch crew : Nat) (p : FrameUse → Bool) (s : State) : State :=
  s.mapLaunch launch fun l => { l with frames := l.frames.filter fun f => !(f.crew == crew && p f.use) }

/-- Write a frame; whether there was room for it and all of it reached memory. -/
def State.writeFrame (launch crew : Nat) (use : FrameUse) (bytes : List Byte) (s : State) : State × Bool :=
  let s := s.freeFrames launch crew (· == use)
  match s.launch? launch with
  | none => (s, false)
  | some l =>
    let n := (bytes.length + 127) / 128 * 128
    match l.freeFrame n with
    | none => (s, false)
    | some o => match s.pokeVa l bytes.length (l.desc.spillbase.toNat + o) bytes with
      | (s, false) => (s, false)
      | (s, true) => (s.mapLaunch launch fun l => { l with frames := l.frames ++ [⟨crew, use, o, n⟩] }, true)

/-- The frame of a crew. -/
def Launch.frameOf (l : Launch) (crew : Nat) (use : FrameUse) : Option Frame := l.frames.find? fun f => f.crew == crew && f.use == use

end Sys2Proof.Machine
end

