-- ==== Sys2Proof/Machine/Views.lean ====
section
/-! DEFINITION. Reducers (R292 to R306): contributions, merges, reads and images of views, and VIEW, RDACC and RDGET. -/
namespace Sys2Proof.Machine

/-! The table (R292, R304) -/

/-- The declared entry of a reducer of the crew in focus; `none` where REDTAB is 0 or the entry is unused. -/
def State.redEntry (s : State) (i : Fin 16) : Option RedEntry :=
  if s.focus.r.redtab = 0 then none
  else match ((s.launch? s.focus.task.launch).bind Launch.reducers).bind fun l => l[i.val]? with
    | some e => if e.kind = 0 then none else some e
    | none => none

/-- FLTADDR of VIEW for a reducer (R304). -/
def Regs.redAddr (r : Regs) (i : Fin 16) : Dword := if r.redtab = 0 then 0 else r.redtab + BitVec.ofNat 64 (32 * i.val)

/-- Raise VIEW. -/
def State.raiseView (addr : Dword) (s : State) : State := s.raise ⟨.view, addr, none, none⟩

/-! Views (R295, R297) -/

/-- The touched view of a reducer. -/
def Views.get (v : Views) (i : Fin 16) : Option ViewVal := (v.find? fun x => x.1 == i).map (·.2)

/-- Replace the view of a reducer. -/
def Views.put (v : Views) (i : Fin 16) (x : ViewVal) : Views := (v.filter fun y => y.1 != i) ++ [(i, x)]

/-- Remove the view of a reducer. -/
def Views.del (v : Views) (i : Fin 16) : Views := v.filter fun y => y.1 != i

/-- The canonical f32 NaN (R300). -/
def nan32 : BitVec 32 := 0x7FC00000

/-- One element as a MINP or MAXP view (R305). -/
def pickOne (value index : BitVec 32) : ViewVal :=
  if (fdecode tF32 0 value.toNat).isNan then .pick nan32 index true else .pick value index false

/-- One f32 or f64 value as an exact-sum view (R295, R305): `big` for ESUM64. -/
def esumOne (big : Bool) (x : FVal) : ViewVal :=
  match x with
  | .nan _ => if big then .esum64 0 true false false else .esum32 0 true false false
  | .inf neg => if big then .esum64 0 false (!neg) neg else .esum32 0 false (!neg) neg
  | .num neg m e =>
    let n : Int := ((m * 2 ^ (e + (if big then 1074 else 149)).toNat : Nat) : Int)
    let v := if neg then -n else n
    if big then .esum64 (BitVec.ofInt 2176 v) false false false else .esum32 (BitVec.ofInt 320 v) false false false

/-- Merge of a left view with a right view (R297), but for USER, which the launch's routine merges (R301). -/
def mergeView (kind : Nat) (x y : ViewVal) : ViewVal :=
  match x, y with
  | .esum32 a n p q, .esum32 b n' p' q' => .esum32 (a + b) (n || n') (p || p') (q || q')
  | .esum64 a n p q, .esum64 b n' p' q' => .esum64 (a + b) (n || n') (p || p') (q || q')
  | .isum a, .isum b => .isum (a + b)
  | .pick a i m, .pick b j m' =>
    let va := fdecode tF32 0 a.toNat
    let vb := fdecode tF32 0 b.toNat
    let better := if kind = 5 then fless va vb else fless vb va
    if (m && !m') || (!m && !m' && better) then .pick b j m' else .pick a i m
  | .app h _ b c, .app _ t' b' c' => .app h t' (b + b') (c + c')
  | _, y => y

/-- Fold a contribution into a strand's views: a right view (R301, R305). -/
def Views.fold (kind : Nat) (i : Fin 16) (y : ViewVal) (v : Views) : Views :=
  match v.get i with
  | some x => v.put i (mergeView kind x y)
  | none => v.put i y

/-- The flags of an exact sum's read (R302) beside its bits. -/
def esumRead (tag : Fin 16) (v : Int) (low : Int) (nan pinf ninf : Bool) : Nat × FpFlags :=
  match fmtOf tag with
  | none => (0, 0)
  | some f =>
    if nan || (pinf && ninf) then (f.nanBits, fNV)
    else if pinf then (f.infBits, 0)
    else if ninf then (f.infBits + f.signBit, 0)
    else roundTo tag 0 rne (.num (decide (v < 0)) v.natAbs low)

/-- The dwords that a read of a view gives (R300, R302, R306), with the flags that RDGET sets; `none` is an untouched
view. -/
def readView (kind : Nat) (v : Option ViewVal) : List Dword × FpFlags :=
  match kind, v with
  | 1, some (.esum32 x n p q) => let (b, f) := esumRead tF32 x.toInt (-149) n p q; ([BitVec.ofNat 64 b], f)
  | 2, some (.esum64 x n p q) => let (b, f) := esumRead tF64 x.toInt (-1074) n p q; ([BitVec.ofNat 64 b], f)
  | 3, some (.isum x) => ([x.truncate 64], 0)
  | 4, some (.pick x i _) | 5, some (.pick x i _) => ([BitVec.ofNat 64 (x.toNat + i.toNat * 2 ^ 32)], 0)
  | 4, none | 5, none => ([BitVec.ofNat 64 (nan32.toNat + 0xFFFFFFFF * 2 ^ 32)], 0)
  | 6, some (.app h _ b c) => ([h, c.zeroExtend 64, b], 0)
  | 6, none => ([0, 0, 0], 0)
  | 7, some (.usr im) => ((List.range 8).map fun k => im.extractLsb' (64 * k) 64, 0)
  | 7, none => (List.replicate 8 0, 0)
  | _, _ => ([0], 0)

/-- The number of registers that RDGET writes (R306). -/
def viewRegs (kind : Nat) : Nat := if kind = 6 then 3 else if kind = 7 then 8 else 1

/-- The bytes of a result (R300): of an ESUM32 four. -/
def resultBytes (kind : Nat) (v : Option ViewVal) : List Byte :=
  let ds := ((readView kind v).1.map fun d => leBytes 8 d.toNat).flatten
  if kind = 1 then ds.take 4 else ds

/-- Alignment of RESULT (R300). -/
def resultAlign (kind : Nat) : Nat := if kind = 1 then 4 else if kind = 7 then 64 else 8

/-- Bits of a flags byte: NAN, PINF, NINF, TOUCHED, ONLYNAN. -/
def viewFlags (nan pinf ninf only : Bool) : Nat := nan.toNat + 2 * pinf.toNat + 4 * ninf.toNat + 8 + 16 * only.toNat

/-- The image of a touched view (R295). -/
def ViewVal.image : ViewVal → List Byte
  | .esum32 v n p q => leBytes 40 v.toNat ++ leBytes 8 (viewFlags n p q false)
  | .esum64 v n p q => leBytes 272 v.toNat ++ leBytes 16 (viewFlags n p q false)
  | .isum v => leBytes 16 v.toNat ++ leBytes 16 (viewFlags false false false false)
  | .pick v i o => leBytes 4 v.toNat ++ leBytes 4 i.toNat ++ leBytes 8 (viewFlags false false false o)
  | .app h t b c => leBytes 8 h.toNat ++ leBytes 8 t.toNat ++ leBytes 8 b.toNat ++ leBytes 4 c.toNat ++
      leBytes 4 (viewFlags false false false false)
  | .usr im => leBytes 64 im.toNat ++ leBytes 16 (viewFlags false false false false)

/-! The view store (R10, R298) -/

/-- The view of a crew. -/
def State.viewOf (s : State) (x : Nat × Fin 16) : Option ViewVal := (s.crew? x.1).bind fun c => c.r.views.get x.2

/-- A view of a running strand leaves the store for the spill region; whether that succeeds (R298, R307). -/
def State.spillView (x : Nat × Fin 16) (s : State) : State × Bool :=
  match s.crew? x.1, s.viewOf x with
  | some c, some v => s.writeFrame c.task.launch x.1 (.view x.2) v.image
  | _, _ => (s, true)

/-- The store's views leave it, the least recently used first, until its 64 KiB hold the others. -/
def State.evictViews (core : Nat) : Nat → State → State × Bool
  | 0, s => (s, true)
  | fuel + 1, s =>
    let l := (s.coreAt core).viewStore.filter fun x => (s.viewOf x).isSome
    let total := (l.map fun x => ((s.viewOf x).map fun v => v.image.length).getD 0).sum
    if total ≤ 2 ^ 16 then (s.mapCore core fun c => { c with viewStore := l }, true)
    else match l.getLast? with
      | none => (s, true)
      | some x => match s.spillView x with
        | (s, false) => (s, false)
        | (s, true) => (s.mapCore core fun c => { c with viewStore := l.dropLast }).evictViews core fuel

/-- A touched view of the crew in focus is used: it stands first in its core's store, and those that no longer fit leave it. -/
def State.useView (i : Fin 16) (s : State) : State × Bool :=
  let c := s.focus
  if (c.r.views.get i).isNone then (s, true)
  else
    let s := s.freeFrames c.task.launch c.uid (· == .view i)
    let s := s.mapCore c.core fun k => { k with viewStore := (c.uid, i) :: k.viewStore.filter fun x => x != (c.uid, i) }
    s.evictViews c.core ((s.coreAt c.core).viewStore.length + 1)

/-- An effect on a view of the crew in focus, which raises VIEW where the store cannot make room (R307). -/
def State.withView (i : Fin 16) (addr : Dword) (f : State → State) (s : State) : State :=
  match (f s).useView i with
  | (s, true) => s
  | (s, false) => s.raiseView addr

/-! VIEW (R304) -/

/-- Change the views of the crew in focus. -/
def State.foldView (kind : Nat) (i : Fin 16) (y : ViewVal) (s : State) : State :=
  s.mapR fun r => { r with views := r.views.fold kind i y }

/-- The contribution of `view.add` (R304). -/
def addView (kind : Nat) (a b : Dword) : ViewVal :=
  match kind with
  | 1 => esumOne false (fdecode tF32 0 (a.toNat % 2 ^ 32))
  | 2 => esumOne true (fdecode tF64 0 a.toNat)
  | 3 => .isum (a.signExtend 128)
  | _ => pickOne (a.truncate 32) (b.truncate 32)

/-- `view.app` (R304): the segment's descriptor is checked here and written in step 6. -/
def State.viewApp (i : Fin 16) (a b : Fin 64) (s : State) : State :=
  let r := s.focus.r
  let desc := r.readS a
  if desc.toNat % 32 ≠ 0 then s.raise ⟨.misalign, desc, none, none⟩
  else s.access ⟨false, true, false⟩ false noExtra [⟨none, desc, 32, 0⟩] fun _ s =>
    let data := r.readS b
    let len := r.readS (b + 1)
    let tail := match r.views.get i with
      | some (.app _ t _ _) => some t
      | _ => none
    s.withView i (r.redAddr i) fun s =>
      (s.mapChunk (Chunk.act s.origin (.viewApp desc data len tail))).foldView 6 i (.app desc desc len 1)

/-- The eight dwords from s[A] (R304 usr). -/
def Regs.userImage (r : Regs) (a : Fin 64) : BitVec 512 :=
  BitVec.ofNat 512 ((List.range 8).map fun k => (r.readS (a + fin 64 k)).toNat * 2 ^ (64 * k)).sum

/-- `view.usr` (R301, R304): into an untouched view at once; else the word waits for the routine (USER_MERGE_ROUTINE). -/
def State.viewUsr (i : Fin 16) (a : Fin 64) (s : State) : State :=
  match s.focus.r.views.get i with
  | none => s.withView i (s.focus.r.redAddr i) fun s => s.foldView 7 i (.usr (s.focus.r.userImage a))
  | some _ => s.hold

/-- The registers that VIEW reads (R304): s[B] of `add` for MINP and MAXP alone. -/
def viewUses (op : Fin 8) (kind : Nat) (a b : Fin 64) (lanes : List (Fin 32)) : List Use :=
  match op with
  | 0 => ⟨.s, a.val, lanes⟩ :: (if kind = 4 || kind = 5 then [⟨.s, b.val, lanes⟩] else [])
  | 1 => [⟨.s, a.val, lanes⟩, ⟨.s, b.val, lanes⟩, ⟨.s, (b + 1).val, lanes⟩]
  | _ => (List.range 8).map fun k => ⟨.s, (a.val + k) % 64, lanes⟩

/-- The op fits the kind (R304). -/
def viewFits (op : Fin 8) (kind : Nat) : Bool :=
  match op with
  | 0 => decide (1 ≤ kind) && decide (kind ≤ 5)
  | 1 => kind == 6
  | _ => kind == 7

def execView (i : Fin 16) (a b : Fin 64) (op : Fin 8) (s : State) : Out :=
  let kind := ((s.redEntry i).map RedEntry.kind).getD 0
  .next (checked (viewUses op kind a b s.lanes) s fun s =>
    if !viewFits op kind then s.raiseView (s.focus.r.redAddr i)
    else match op with
      | 0 => s.withView i (s.focus.r.redAddr i) fun s => s.foldView kind i (addView kind (s.focus.r.readS a) (s.focus.r.readS b))
      | 1 => s.viewApp i a b
      | _ => s.viewUsr i a)

/-! RDACC (R305) -/

/-- The tags that a kind accepts for v[A]. -/
def rdaccTag (kind : Nat) (t : Fin 16) : Bool :=
  match kind with
  | 1 => t == tF32 || t == tF16 || t == tBF16
  | 2 => tagBin t
  | 3 => tagInt t
  | _ => t == tF32

/-- One position's contribution. -/
def rdaccOne (kind : Nat) (tag : Fin 16) (x ix : Nat) : ViewVal :=
  match kind with
  | 1 => esumOne false (fdecode tag 0 x)
  | 2 => esumOne true (fdecode tag 0 x)
  | 3 => .isum (BitVec.ofInt 128 (elemInt tag x))
  | _ => pickOne (BitVec.ofNat 32 x) (BitVec.ofNat 32 ix)

/-- The threads with an active position, counted in the tag of v[A]. -/
def rdaccLanes (r : Regs) (g : Guard) (a : Fin 64) (lanes : List (Fin 32)) : List (Fin 32) :=
  lanes.filter fun t => !(activePos r g (tagCount (r.readV a t).tag) t).isEmpty

/-- The contributions in increasing thread and position. -/
def rdaccAll (r : Regs) (kind : Nat) (g : Guard) (a b : Fin 64) (act : List (Fin 32)) : List ViewVal :=
  act.flatMap fun t =>
    let va := r.readV a t
    let w := tagWidth va.tag
    (activePos r g (tagCount va.tag) t).map fun p => rdaccOne kind va.tag (elemOf w p va.val) (elemOf w p (r.readV b t).val)

def execRdacc (i : Fin 16) (a b : Fin 64) (q : Fin 8) (neg : Bool) (s : State) : Out :=
  let r := s.focus.r
  let g : Guard := ⟨neg, q⟩
  let act := rdaccLanes r g a s.lanes
  let kind := ((s.redEntry i).map RedEntry.kind).getD 0
  let pair := kind == 4 || kind == 5
  .next (checked (⟨.q, q.val, s.lanes⟩ :: ⟨.v, a.val, act⟩ :: if pair then [⟨.v, b.val, act⟩] else []) s fun s =>
    if kind == 0 || kind == 6 || kind == 7 then s.raiseView 0
    else if act.all fun t => rdaccTag kind (r.readV a t).tag && (!pair || (r.readV b t).tag == 7) then
      s.withView i 0 fun s =>
        s.mapR fun r => { r with views := (rdaccAll r kind g a b act).foldl (fun v y => v.fold kind i y) r.views }
    else s.raise (flt .format 0))

/-! RDGET (R306) -/

/-- The RANK and MARK of the last level are equal: every spawned child is joined. -/
def joinedAll (pg : List Level) : Bool :=
  match pg.getLast? with
  | some l => l.rank == l.mark
  | none => true

def execRdget (d : Fin 64) (i : Fin 16) (fs : Bool) (s : State) : Out :=
  let kind := ((s.redEntry i).map RedEntry.kind).getD 0
  let n := viewRegs kind
  let ds : List (Fin 64) := (List.range n).filterMap fun k => if h : d.val + k < 64 then some ⟨d.val + k, h⟩ else none
  .next (checked (ds.map fun x => ⟨.s, x.val, s.lanes⟩) s fun s =>
    if kind == 0 || decide (64 < d.val + n) || !joinedAll s.focus.r.pedigree then s.raiseView 0
    else
      let (vals, fp) := readView kind (s.focus.r.views.get i)
      let writes := (ds.zip vals).map fun x => RegWrite.s x.1 x.2
      s.withView i 0 fun s => s.holdResult (s.clause.flag fs) .plain (ds.map .s) s.lanes writes fp)

end Sys2Proof.Machine
end

