-- ==== Sys2Proof/Machine/Tasks.lean ====
section
/-! DEFINITION. The task instructions at issue: spawning and syncing (R254 to R271, R281 to R283), keys and random numbers
(R275, R284, R285), arenas and the log (R276 to R279, R287, R288), CHUNK and CHKST (R232, R233). What step 6 does with
a spawn, a sync or a log record stands in Placement and Commit. -/
namespace Sys2Proof.Machine

/-! Pedigrees (R256, R257) -/

/-- The last level. -/
def lastLevel (pg : List Level) : Level := pg.getLast?.getD ⟨0, 0⟩

/-- The pedigree with its last level replaced. -/
def withLast (pg : List Level) (l : Level) : List Level := pg.dropLast ++ [l]

/-- The pedigree of the strand that follows a spawn, and a sync. -/
def afterSpawn (pg : List Level) : List Level := withLast pg ⟨(lastLevel pg).rank + 1, (lastLevel pg).mark⟩
def afterSync (pg : List Level) : List Level := withLast pg ⟨(lastLevel pg).rank + 1, (lastLevel pg).rank + 1⟩

/-- A new strand's counters (R255). -/
def Regs.newStrand (pg : List Level) (r : Regs) : Regs := { r with pedigree := pg, srctr := 0, logSeq := 0 }

/-- How often ceil(n / 2) is taken before n is at most the grain (R269). -/
def halvings (grain : Nat) : Nat → Nat → Nat
  | 0, _ => 0
  | fuel + 1, n => if n ≤ grain then 0 else 1 + halvings grain fuel ((n + 1) / 2)

/-- The bounds of a split arena (R276): the parent's and the child's. -/
def splitArena (split : Bool) (base lim : Addr) : (Addr × Addr) × (Addr × Addr) :=
  if split then
    let mid := base + (((lim - base) >>> 1) &&& ~~~127)
    ((base, mid), (mid, lim))
  else ((base, lim), (lim, lim))

/-! The checks of a spawning word -/

/-- Word 1 of the clause, where it is SAFEPT: its OFF20. -/
def Clause.safeptOff (c : Clause) : Option Int :=
  match c.words with
  | w :: _ => if isSafeptWord w.toNat then some (signedOf 20 (bits w.toNat 0 20)) else none
  | [] => none

/-- A live-mask record from its four words (R84). -/
def liveMask (ws : List (BitVec 32)) : BitVec 128 := BitVec.ofNat 128 (leNat (ws.flatMap fun w => leBytes 4 w.toNat))

/-- The live-mask record of the clause's SAFEPT (R84, R282), whose translation the chunk has used (R186): `none` names no record. -/
def State.liveRecord (c : Crew) (h : Addr) (off : Int) (s : State) : State × Fetched (Option (BitVec 128)) :=
  if off = 0 then (s, .ok none)
  else match s.fetchWords c (h + BitVec.ofInt 57 (4 * off)).toNat 1 4 with
    | (s, .fault f x _) => (s, .fault f x 1)
    | (s, .ok ws) =>
      let m := liveMask ws
      let va := (h + BitVec.ofInt 57 (4 * off)).toNat
      if m.getLsbD 127 then (s, .fault .illegal 0 1) else ((s.noteUse va).noteUse (va + 12), .ok (some m))

/-- A spawning word (R281, R282): its place in the clause, the hazards of `uses`, the entry's check, the live-mask
record, R257 by `deep`, and then `act` with the live mask that a steal applies and the address of its record. -/
def State.spawnIssue (x : Fin 64) (uses : List (Fin 64)) (deep : Bool)
    (act : Option (BitVec 128) → Addr → State → State) (s : State) : State :=
  match s.clause.safeptOff with
  | none => s.raise (flt .illegal 0)
  | some off =>
    if !s.clause.isLast then s.raise (flt .illegal 0)
    else checked ((x :: uses).map fun u => ⟨.s, u.val, s.lanes⟩) s fun s =>
      match s.checkTarget true (s.focus.r.readS x) with
      | (s, some f) => s.raise ⟨f, s.focus.r.readS x, none, none⟩
      | (s, none) =>
        match s.liveRecord s.focus s.clause.addr off with
        | (s, .fault f a w) => s.raise ⟨f, a, none, some w⟩
        | (s, .ok m) =>
          if deep then s.raise (flt .pedovf 0)
          else (act (if s.focus.r.frontier.length = 1 then m else none) (s.clause.addr + BitVec.ofInt 57 (4 * off)) s).mapChunk fun ch => { ch with ends := true }

/-- Registers s[y] to s[y + n − 1]. -/
def regGroup (y : Fin 64) (n : Nat) : List (Fin 64) := (List.range n).map fun k => y + fin 64 k

/-- The request that a spawning word makes (R255, R276). -/
def Regs.spawnReq (r : Regs) (x : Fin 64) (args : List (Fin 64)) (threads : Lanes) (split atom : Bool)
    (pg : List Level) (range : Option (Nat × Nat × Nat × Bool)) (live : Option (BitVec 128)) (liveAt : Addr) : SpawnReq :=
  let a := splitArena split r.arenaBase r.arenaLim
  ⟨(r.readS x).truncate 57, args.map r.readS, threads, pg, r.rndmode, a.2.1, a.2.2, atom, range, live, liveAt⟩

/-- The parent's side of a spawn at issue: its next strand, and its part of the arena. -/
def Regs.spawned (split : Bool) (r : Regs) : Regs :=
  { r.newStrand (afterSpawn r.pedigree) with arenaLim := (splitArena split r.arenaBase r.arenaLim).1.2 }

/-- The pedigree takes no further spawn of a child `k` levels down (R257). -/
def spawnDeep (pg : List Level) (k : Nat) : Bool := (lastLevel pg).rank == 65535 || decide (32 < pg.length + k)

def execSpawn (x y : Fin 64) (n : Fin 8) (split atom : Bool) (die : Fin 8) (hint : Bool) (s : State) : Out :=
  let r := s.focus.r
  let args := regGroup y n.val
  .next (s.spawnIssue x args (spawnDeep r.pedigree 1) fun live at_ s =>
    (s.mapChunk (Chunk.act s.origin (.spawn
      (r.spawnReq x args s.clause.lanes split atom (r.pedigree ++ [⟨0, 0⟩]) none live at_)
      (if hint then some die.val else none)))).mapR (Regs.spawned split))

def execSpawnr (x y : Fin 64) (n : Fin 8) (split atom : Bool) (s : State) : Out :=
  let r := s.focus.r
  let lo := (r.readS y).toNat
  let hi := (r.readS (y + 1)).toNat
  let grain := max 1 (r.readS (y + 2)).toNat
  let args := regGroup (y + 3) n.val
  .next (s.spawnIssue x (y :: (y + 1) :: (y + 2) :: args) (spawnDeep r.pedigree (1 + halvings grain 65 (hi - lo))) fun live at_ s =>
    (s.mapChunk (Chunk.act s.origin (.spawn
      (r.spawnReq x args s.clause.lanes split atom (r.pedigree ++ [⟨0, 0⟩]) (some (lo, hi, grain, split)) live at_)
      none))).mapR (Regs.spawned split))

def execSpawng (x y : Fin 64) (n b : Fin 8) (m : Fin 16) (raft split : Bool) (s : State) : Out :=
  let r := s.focus.r
  let args := regGroup y n.val
  .next (s.spawnIssue x args (spawnDeep r.pedigree 2) fun live at_ s =>
    (s.mapChunk (Chunk.act s.origin (.gang
      (r.spawnReq x args s.clause.lanes split false r.pedigree none live at_) (m.val + 1) raft b))).mapR (Regs.spawned split))

/-- SYNC (R257, R264, R283). -/
def execSync (s : State) : Out :=
  .next (if !s.clause.isLast then s.raise (flt .illegal 0)
    else if (lastLevel s.focus.r.pedigree).rank = 65535 then s.raise (flt .pedovf 0)
    else (s.mapChunk fun ch => { ch.act s.origin .sync with ends := true }).mapR fun r => r.newStrand (afterSync r.pedigree))

/-! Pedigree reads, keys, random numbers -/

def execPgrd (d a : Fin 64) (dep : Bool) (s : State) : Out :=
  .next (checked ((if dep then [] else [⟨.s, a.val, s.lanes⟩]) ++ [⟨.s, d.val, s.lanes⟩]) s fun s =>
    s.mapR fun r => r.writeS d (
      if dep then BitVec.ofNat 64 r.pedigree.length
      else match r.pedigree[(r.readS a).toNat]? with
        | some l => l.word.zeroExtend 64
        | none => 0))

def execPgkey (d : Fin 64) (s : State) : Out :=
  .next (checked [⟨.s, d.val, s.lanes⟩] s fun s => s.mapR fun r => r.writeS d (pgkey r.pedigree))

/-- 24 bits as an f32 fraction (R285): exact. -/
def f32Frac (n : Nat) : Nat := (roundTo tF32 0 rne (.num false n (-24))).1

/-- The value of PRNG in a thread (R285). -/
def prngValue (f32 : Bool) (k c : Dword) (t : Fin 32) (j : Nat) : Dword :=
  let x := prng k c t j
  if f32 then BitVec.ofNat 64 (f32Frac (bits x.toNat 40 24) + f32Frac (bits x.toNat 8 24) * 2 ^ 32) else x

def execPrng (x y : Fin 64) (j : Fin 4) (f32 fs : Bool) (s : State) : Out :=
  let r := s.focus.r
  .next (checked [⟨.s, y.val, s.lanes⟩, ⟨.v, x.val, s.lanes⟩] s fun s =>
    logV (.v x) s fun s =>
      s.deliver (some (s.clause.flag fs, .plain)) (.v x) s.lanes (s.lanes.map fun t =>
        .v x t (BitVec.allOnes 64) (prngValue f32 (pgkey r.pedigree) (r.readS y) t j.val) (if f32 then tF32 else tZ64)) 0)

/-! Arena and log -/

/-- PALLOC (R287). -/
def execPalloc (d a : Fin 64) (k : Fin 16) (s : State) : Out :=
  .next (checked [⟨.s, a.val, s.lanes⟩, ⟨.s, d.val, s.lanes⟩] s fun s =>
    let r := s.focus.r
    let base := (r.arenaBase.toNat + 2 ^ k.val - 1) / 2 ^ k.val * 2 ^ k.val
    let top := base + (r.readS a).toNat
    if r.arenaLim.toNat < top || 2 ^ 57 ≤ top then s.raise (flt .arena base)
    else s.mapR fun r => { r.writeS d (BitVec.ofNat 64 base) with arenaBase := BitVec.ofNat 57 top })

/-- PLOG (R277 to R279): SEQ now, the record in step 6. -/
def execPlog (a : Fin 64) (s : State) : Out :=
  .next (checked ((regGroup a 4).map fun x => ⟨.s, x.val, s.lanes⟩) s fun s =>
    let r := s.focus.r
    (s.mapChunk (Chunk.act s.origin (.plog r.logSeq r.pedigree ((regGroup a 4).map r.readS)))).mapR fun r =>
      { r with logSeq := r.logSeq + 1 })

/-! Chunk instructions -/

def execChunk (s : State) : Out := .next (s.mapChunk fun ch => { ch with ends := true })

/-- The word of CHKST (R233). -/
def Crew.chkst (c : Crew) : Dword :=
  BitVec.ofNat 64 (c.chunk.issued % 2 ^ 13 + c.chunk.lines * 2 ^ 13 + c.chunk.logUnits * 2 ^ 19 + c.replay.soft % 8 * 2 ^ 28 +
    c.replay.replay.toNat * 2 ^ 31 + min 15 c.replay.conf * 2 ^ 32 + c.replay.excl.toNat * 2 ^ 36 +
    c.replay.ferried.toNat * 2 ^ 37)

def execChkst (d : Fin 64) (s : State) : Out :=
  .next (checked [⟨.s, d.val, s.lanes⟩] s fun s => s.mapR fun r => r.writeS d s.focus.chkst)

end Sys2Proof.Machine
end

