-- ==== Sys2Proof/Machine/Engines.lean ====
section
/-! DEFINITION. What the barge and the tensor engine share: the accesses of a command under its issuing strand (R226,
R312, R342, R355), iterator records (R338 to R340), completion, and suspension by a fault (R346, R358). -/
namespace Sys2Proof.Machine

/-- The crew that issued a command, with user rights; a crew of no launch where it is gone. -/
def State.actorCrew (s : State) (a : Actor) : Crew :=
  let c := (s.crew? a.crew).getD Crew.empty
  { c with r := { c.r with flt := { c.r.flt with sup := false }, pedigree := a.pedigree } }

/-- The command that the word in issue hands to an engine (R226): the strand that its chunk ends in. -/
def Crew.actor (c : Crew) : Actor := ⟨c.uid, c.task.launch, c.r.pedigree⟩

/-! Accesses -/

/-- What an engine access answers. -/
inductive Reply (α : Type) where
  | ok (x : α)
  | fault (c : FltCode) (addr : Dword)
  deriving DecidableEq, Repr

/-- The committed bytes of a location (R238, R342). -/
def State.committed (s : State) (l : Loc) (n : Nat) : List Byte := (List.range n).map fun i => s.outerByte l.slot (l.key + i)

/-- The bytes of a location as an engine of a core finds them (R342): it sees no chunk buffer, and of the STREAM lines on their
way home those that its core sees (R217). -/
def State.engineBytes (s : State) (core : Nat) (l : Loc) (n : Nat) : List Byte :=
  let line := lineOf l.key
  match (s.streams.filter fun x => l.region == .stream && x.line.line == line && x.seen.contains core).map fun x => x.line.data with
  | [] => s.committed l n
  | es =>
    let base := (List.range 128).map fun i => s.outerByte l.slot (line * 128 + i)
    ((es.foldl (fun b d => d.over b) base).drop (l.key % 128)).take n

/-- One read of `n` bytes at a generic address under a strand (R312, R342): checked, recorded, partials merged under a grant that
is taken and released within the step; where it has to wait, the step is not taken (R203, R246, R415). -/
def State.engineRead (a : Actor) (race : Bool) (va : Dword) (n : Nat) (s : State) : State × Reply (List Byte) :=
  let c := s.actorCrew a
  match s.locate c none ⟨true, false, false⟩ va n with
  | (s, .fault f) => (s, .fault f va)
  | (s, .ok l _) =>
    if s.badAt l.key n then (s.takeBad l.key n, .fault .memerr (BitVec.ofNat 64 l.key))
    else
      let s := if l.region == .spad then s else { s.readLine (lineOf l.key) with stall := s.stall || s.linkWaits l }
      let data := s.engineBytes c.core l n
      let s := if l.away then { s with free := s.free + 1 } else s
      if race && l.rt then
        match s.raceCheckAll true c a.pedigree false (granulesOf va l.key n) with
        | (s, .race) => (s, .fault .race va)
        | (s, .space) => (s, .fault .rfspace (s.rfEnd c))
        | (s, .ok) => match s.raceRecordAll c a.pedigree false (granulesOf va l.key n) with
          | some s => (s, .ok data)
          | none => (s, .fault .rfspace (s.rfEnd c))
      else (s, .ok data)

/-- Reads of consecutive pieces. -/
def State.engineReads (a : Actor) (race : Bool) (va : Dword) (n : Nat) : Nat → State → State × Reply (List Byte)
  | 0, s => (s, .ok [])
  | k + 1, s =>
    match s.engineRead a race va n with
    | (s, .fault f x) => (s, .fault f x)
    | (s, .ok b) => match s.engineReads a race (va + BitVec.ofNat 64 n) n k with
      | (s, .ok bs) => (s, .ok (b ++ bs))
      | r => r

/-- Where a write of `n` bytes goes (R342). -/
def State.enginePlace (a : Actor) (va : Dword) (n : Nat) (s : State) : State × Reply Loc :=
  match s.locate (s.actorCrew a) none ⟨false, true, false⟩ va n with
  | (s, .fault f) => (s, .fault f va)
  | (s, .ok l _) => (s, .ok l)

/-- The granules of located bytes of one line. -/
def cellGranules (va : Dword) (key : Nat) (cells : List (Nat × Byte)) : List (Nat × Nat) :=
  (cells.map fun x => ((va.toNat + (x.1 - key)) / 4 * 4, x.1 / 4 * 4)).eraseDups

/-- Commit gathered bytes of one line (R226, R312, R342): the race filter is asked and told at the grant; a STREAM line is
released. `id` is the command's number; `va` and `l` are of the first byte. -/
def State.engineCommit (id : Nat) (a : Actor) (race : Bool) (l : Loc) (base : Nat) (va : Dword) (cells : List (Nat × Byte)) (s : State) :
    State × Reply Unit :=
  let c := s.actorCrew a
  let gs := if race && l.rt then cellGranules va base cells else []
  match s.raceWrites c a.pedigree gs with
  | (s, some (f, x)) => (s, .fault f x)
  | (s, none) => match s.raceRecordAll c a.pedigree true gs with
    | none => (s, .fault .rfspace (s.rfEnd c))
    | some s =>
      if l.region == .stream then
        (s.release id c.core ⟨.stream, lineOf l.key, va &&& ~~~127, 0, l.slot, 0, false, .bytes (cells.map fun x => (x.1 % 128, x.2))⟩, .ok ())
      else (s.writeLine c.core 0 l.slot 0 va.toNat cells, .ok ())

/-! Iterator records (R338 to R340) -/

def parseIter (b : List Byte) : Iter :=
  ⟨fieldOf b 0 8, fieldOf b 8 1, fieldOf b 9 1, fieldOf b 10 1,
    (List.range (fieldOf b 8 1)).map fun d => ⟨fieldOf b (16 + 12 * d) 4, signedOf 64 (fieldOf b (20 + 12 * d) 8)⟩,
    fieldOf b 208 8⟩

/-- N: the number of elements (R339). -/
def Iter.count (r : Iter) : Nat := r.dims.foldl (fun n d => n * d.ext) 1

/-- The bytes that R338 leaves zero. -/
def iterZero (b : List Byte) : Bool :=
  let nd := fieldOf b 8 1
  fieldOf b 11 5 == 0 && fieldOf b 216 40 == 0 && fieldOf b (16 + 12 * nd) (192 - 12 * nd) == 0

/-- The checks of one record (R340): SHAPE, then MISALIGN. `tags` is the set of tag codes allowed. -/
def iterCheck (dst : Bool) (tags : Nat → Bool) (b : List Byte) : Option FltCode :=
  let r := parseIter b
  if r.ndim = 0 || 16 < r.ndim || 7 < r.esz then some .shape
  else if r.dims.any (fun d => d.ext == 0) || !iterZero b || !tags r.tag || decide (2 ^ 48 ≤ r.count) || decide (r.count < r.start) ||
      (dst && r.dims.any fun d => d.str == 0 && decide (1 < d.ext)) then some .shape
  else if r.base % 2 ^ r.esz ≠ 0 || r.dims.any (fun d => d.str % ((2 ^ r.esz : Nat) : Int) != 0) then some .misalign
  else none

/-- The offset that the counters of element `i` add (R339). -/
def dimsOffset : List Dim → Nat → Int
  | [], _ => 0
  | d :: ds, i => ((i % d.ext : Nat) : Int) * d.str + dimsOffset ds (i / d.ext)

/-- addr(i) of R339. -/
def Iter.addr (r : Iter) (i : Nat) : Dword := BitVec.ofInt 64 (r.base + dimsOffset r.dims i)

/-- Read and check a record at its address (R338). -/
def State.readIter (a : Actor) (dst : Bool) (tags : Nat → Bool) (va : Dword) (s : State) : State × Reply (List Byte) :=
  match s.engineReads a true va 16 16 with
  | (s, .fault f x) => (s, .fault f x)
  | (s, .ok b) => match iterCheck dst tags b with
    | some f => (s, .fault f va)
    | none => (s, .ok b)

/-! The walk of a command over destination elements (R342, R365, R372) -/

/-- What a walk has gathered: bytes of a line of HBM, of the package scratchpad or of a STREAM page, with the location of its
first byte. -/
structure Gather where
  loc : Loc
  va : Dword
  first : Nat
  cells : List (Nat × Byte)
  deriving DecidableEq, Repr

/-- Where a destination element goes: into a gathered line, to scratchpad keys or a SYSTEM location at once, or to a
fault. -/
inductive Placed where
  | line (l : Loc)
  | direct (keys : List Nat) (l : Option Loc)
  | fault (c : FltCode) (addr : Dword)
  deriving DecidableEq, Repr

/-- The place of an element of `n` bytes, without multicast. -/
def State.placeAt (a : Actor) (va : Dword) (n : Nat) (s : State) : State × Placed :=
  match s.enginePlace a va n with
  | (s, .fault c x) => (s, .fault c x)
  | (s, .ok l) =>
    if l.region == .spad then (s, .direct [l.key] none)
    else if l.region == .system then (s, .direct [] (some l))
    else (s, .line l)

/-- Why a walk stops: an element of another line or a single SYSTEM element, a fault, the end. -/
inductive Halt where
  | move
  | fault (c : FltCode) (addr : Dword)
  | done
  deriving DecidableEq, Repr

/-- A walk's result: the next element, the gathered line, the bytes written at once, the flags, why it stopped. -/
structure Pass where
  next : Nat
  gather : Option Gather
  wrote : Nat
  fp : FpFlags
  halt : Halt
  deriving DecidableEq, Repr

/-- The elements of the command with a number: each is placed, then its value is read or computed. -/
structure Elems where
  id : Nat
  actor : Actor
  va : Nat → Dword
  place : Nat → State → State × Placed
  value : Nat → State → State × Reply (List Byte × FpFlags)

/-- The walk from element `i` for at most `fuel` elements: bytes of one line gather; scratchpad and SYSTEM bytes are
written as they come, until the walk leaves their 128-byte span. -/
def Elems.walk (e : Elems) : Nat → Nat → Option Gather → Option (Nat × Nat) → FpFlags → State → State × Pass
  | 0, i, g, sp, fp, s => (s, ⟨i, g, (sp.map (·.2)).getD 0, fp, .done⟩)
  | fuel + 1, i, g, sp, fp, s =>
    let wrote := (sp.map (·.2)).getD 0
    match e.place i s with
    | (s, .fault c x) => (s, ⟨i, g, wrote, fp, .fault c x⟩)
    | (s, .line l) =>
      if sp.isSome || g.any fun g => lineOf g.loc.key != lineOf l.key then (s, ⟨i, g, wrote, fp, .move⟩)
      else match e.value i s with
        | (s, .fault c x) => (s, ⟨i, g, wrote, fp, .fault c x⟩)
        | (s, .ok (b, f)) =>
          let g := g.getD ⟨l, e.va i, i, []⟩
          let new := cellsAt l.key b
          e.walk fuel (i + 1) (some { g with cells := g.cells.filter (fun x => !new.any fun y => y.1 == x.1) ++ new }) sp (fp ||| f) s
    | (s, .direct ks l) =>
      let span := ks.headD 0 / 128
      if g.isSome || sp.any fun x => x.1 != span || l.isSome then (s, ⟨i, g, wrote, fp, .move⟩)
      else match e.value i s with
        | (s, .fault c x) => (s, ⟨i, g, wrote, fp, .fault c x⟩)
        | (s, .ok (b, f)) =>
          let s := ks.foldl (fun s k => (s.putBytes (cellsAt k b)).markDirty k) s
          match l with
          | some l => (s.engineStore e.id (s.actorCrew e.actor).core l b, ⟨i + 1, g, b.length, fp ||| f, .move⟩)
          | none => e.walk fuel (i + 1) g (some (span, wrote + b.length * ks.length)) (fp ||| f) s

/-! Completion and suspension -/

/-- A write of an instruction in flight stands when it completes (R63). -/
def Inflight.stands (x : Inflight) (w : RegWrite) : Bool :=
  match w with
  | .s d _ => !x.lost.contains d
  | _ => true

/-- An instruction completes: its writes are made, its flags set, its completion flag's count falls (R23). One from
before the chunk in progress also changes what a rollback restores (R26). An s register that a later issue has written keeps
that value (R63). -/
def Regs.complete (p : Inflight → Bool) (writes : List RegWrite) (r : Regs) : Regs :=
  match r.inflight.find? p with
  | none => r
  | some x =>
    { r.applyAll ((x.writes ++ writes).filter x.stands) with inflight := r.inflight.erase x, fpflags := r.fpflags ||| x.fp }

/-- An engine command completes for its crew (R26, R344, R355). -/
def State.finishCommand (uid id : Nat) (writes : List RegWrite) (s : State) : State :=
  let p := fun (x : Inflight) => x.kind == .engine id
  s.mapCrew uid fun c => { c with r := c.r.complete p writes, shadow := c.shadow.complete p writes }

/-- A fault of a suspended command is delivered to its crew (R346): with a rollback where a clause has issued since its
last commit, else before its next clause. -/
def State.engineFault (a : Actor) (org : Origin) (code : FltCode) (addr : Dword) (s : State) : State :=
  match s.crew? a.crew with
  | none => s
  | some c =>
    if c.uncommitted && (c.chunk.clauses != 0 || c.cur.isSome) then
      s.onCrew a.crew fun s =>
        s.rollback.deliverFault code.num addr false true org.pc org.word 0 c.chunk.first
    else s.postFault a.crew code addr org 0 true

end Sys2Proof.Machine
end

