-- ==== Sys2Proof/Machine/Copy.lean ====
section
/-! DEFINITION. The copy engine (R336 to R350): the BRG instructions at issue, and the barge's own steps. -/
namespace Sys2Proof.Machine

/-! Issue (R341, R347) -/

/-- A command enters the chunk's step-6 actions; its flag stays set until the engine completes (R26). `dsts` are the
registers it will write. -/
def State.holdCommand (fs : Bool) (dsts : List (Fin 64)) (act : Nat → ActKind) (s : State) : State :=
  let (s, id) := s.freshId
  (s.mapChunk fun ch => { ch.act s.origin (act id) with ends := true }).holdResult (s.clause.flag fs) (.engine id) (dsts.map .s) s.lanes [] 0

/-- The flags operand is legal (R341). -/
def copyFlagsOk (x : Dword) (fill : Bool) : Bool :=
  let n := x.toNat
  let sc := bits n 11 3
  let num := bits n 14 4
  decide (n < 2 ^ 18) && bits n 0 3 != 7 &&
    (if bit n 10 then decide (1 ≤ sc) && decide (sc ≤ 4) && (match lastObject sc with | some k => decide (num ≤ k) | none => false)
      else sc == 0 && num == 0) &&
    (bit n 5 == (bits n 6 4 != 0)) && !(fill && bit n 3)

/-- CPY and CPYF: HAZARD, then the flags (log entry 104). -/
def State.copyIssue (fill : Bool) (x y tag : Fin 64) (w : Fin 32) (fs : Bool) (s : State) : State :=
  let fl : Fin 64 := ⟨w.val, by omega⟩
  checked [⟨.s, x.val, s.lanes⟩, ⟨.s, y.val, s.lanes⟩, ⟨.s, fl.val, s.lanes⟩] s fun s =>
    let r := s.focus.r
    if copyFlagsOk (r.readS fl) fill then
      s.holdCommand fs [] fun id => .brg id (
        if fill then .cpyf (r.readS x) (r.readS y) tag (r.readS fl) else .cpy (r.readS x) (r.readS y) tag (r.readS fl))
    else s.raise (flt .illegal 0)

def execCpy (x y tag : Fin 64) (w : Fin 32) (fs : Bool) (s : State) : Out := .next (s.copyIssue false x y tag w fs)
def execCpyf (x y tag : Fin 64) (w : Fin 32) (fs : Bool) (s : State) : Out := .next (s.copyIssue true x y tag w fs)

/-- The tag commands; `any`: WTAGANY, for which an empty mask is ILLEGAL (R349). -/
def State.tagIssue (any : Bool) (x : Option (Fin 64)) (y : Fin 64) (fs : Bool) (op : Dword → BrgOp) (s : State) : State :=
  checked ((x.toList ++ [y]).map fun u => ⟨.s, u.val, s.lanes⟩) s fun s =>
    let m := s.focus.r.readS y
    if any && m = 0 then s.raise (flt .illegal 0) else s.holdCommand fs x.toList fun id => .brg id (op m)

def execWtagany (x y : Fin 64) (fs : Bool) (s : State) : Out := .next (s.tagIssue true (some x) y fs (.waitAny x))
def execWtagall (x y : Fin 64) (fs : Bool) (s : State) : Out := .next (s.tagIssue false (some x) y fs (.waitAll x))
def execTagff (x y : Fin 64) (fs : Bool) (s : State) : Out := .next (s.tagIssue false (some x) y fs (.tagFf x))
def execTagclr (y : Fin 64) (fs : Bool) (s : State) : Out := .next (s.tagIssue false none y fs .tagClr)

/-! The CT bitmap (R337) -/

/-- The hardware slot of a launch. -/
def State.slotOf (s : State) (launch : Nat) : Nat := ((s.launch? launch).bind Launch.slot).getD 0

def State.ctOf (s : State) (core launch : Nat) : Dword := (s.coreAt core).ct.getD (s.slotOf launch) 0

/-- A wait is satisfied (R349). -/
def BrgOp.waitDone (ct : Dword) : BrgOp → Bool
  | .waitAny _ m => ct &&& m != 0
  | .waitAll _ m => ct &&& m == m
  | _ => false

/-- A pending wait observes the bitmap (R336, R349). -/
def BrgCmd.observe (launch : Nat) (ct : Dword) (w : BrgCmd) : BrgCmd :=
  if w.actor.launch = launch && w.seen.isNone && w.op.waitDone ct then { w with seen := some ct } else w

/-- The bitmap of a launch at a core changes, and its pending waits observe the change (R336). -/
def State.mapCt (core launch : Nat) (f : Dword → Dword) (s : State) : State :=
  let slot := s.slotOf launch
  s.mapCore core fun c =>
    let ct := c.ct.modify slot f
    { c with ct := ct, barge := { c.barge with waits := c.barge.waits.map (BrgCmd.observe launch (ct.getD slot 0)) } }

/-- The result register of a tag command and its value (R349, R350). -/
def BrgOp.result (ct : Dword) : BrgOp → List RegWrite
  | .waitAny d m => [.s d (ct &&& m)]
  | .waitAll d m => [.s d (ct &&& m)]
  | .tagFf d m => [.s d (BitVec.ofNat 64 (((List.range 64).find? fun i => (ct &&& m).getLsbD i).getD 64))]
  | _ => []

def BrgOp.isCopy : BrgOp → Bool
  | .cpy .. | .cpyf .. => true
  | _ => false

def BrgOp.isWait : BrgOp → Bool
  | .waitAny .. | .waitAll .. => true
  | _ => false

/-! Entry (R336) -/

def State.mapBarge (core : Nat) (f : Barge → Barge) (s : State) : State := s.mapCore core fun c => { c with barge := f c.barge }

/-- A command of step 6 may enter the barge: the queue has room, and it is no ninth pending wait of its crew. -/
def State.bargeRoom (s : State) (core uid launch : Nat) (op : BrgOp) : Bool :=
  let b := (s.coreAt core).barge
  decide (b.queue.length < 32) &&
    !(op.isWait && !op.waitDone (s.ctOf core launch) && decide (8 ≤ (b.waits.filter fun w => w.actor.crew == uid).length))

/-! Copies (R339 to R346) -/

/-- The flags of a copy. -/
def BrgOp.flags : BrgOp → Nat
  | .cpy _ _ _ f => f.toNat
  | .cpyf _ _ _ f => f.toNat
  | _ => 0
def BrgOp.tag : BrgOp → Nat
  | .cpy _ _ t _ => t.val
  | .cpyf _ _ t _ => t.val
  | _ => 0
def BrgOp.dst : BrgOp → Dword
  | .cpy d _ _ _ => d
  | .cpyf d _ _ _ => d
  | _ => 0

/-- The object into which a copy counts its bytes (R345). -/
def BrgOp.object (core : Nat) (op : BrgOp) : Option ObjId :=
  if bit op.flags 10 then some (objectAt core (fin 8 (bits op.flags 11 3)) (bits op.flags 14 4)) else none

/-- Every tag code but 14 (R340). -/
def copyTag (t : Nat) : Bool := t != 14

/-- Read and check the records of a copy (R340): destination, source, the comparison. -/
def State.copyRecords (a : Actor) (op : BrgOp) (s : State) : State × Reply (Iter × Option Iter) :=
  match s.readIter a true copyTag op.dst with
  | (s, .fault f x) => (s, .fault f x)
  | (s, .ok d) => match op with
    | .cpy _ src _ _ => match s.readIter a false copyTag src with
      | (s, .fault f x) => (s, .fault f x)
      | (s, .ok b) =>
        let rd := parseIter d
        let rs := parseIter b
        if rd.esz ≠ rs.esz || rd.count ≠ rs.count then (s, .fault .shape op.dst) else (s, .ok (rd, some rs))
    | _ => (s, .ok (parseIter d, none))

/-- The object of a copy belongs to its launch (R345); else the FLTADDR of PROT (R346). -/
def State.copyOwner (core : Nat) (a : Actor) (op : BrgOp) (s : State) : Option Dword :=
  match op.object core with
  | some o => if (s.barrier o).v && (s.barrier o).owner == s.ownerTag a.launch then none
    else some (BitVec.ofNat 64 (bits op.flags 11 3 + 8 * bits op.flags 14 4))
  | none => none

/-- The checks of a copy as it enters, or when RFT has it read its records again (R338, R340, R346): its records, then the owner
of its object (R345, log entry 40). -/
def State.copyChecks (core : Nat) (a : Actor) (op : BrgOp) (s : State) : State × Reply (Iter × Option Iter) :=
  match s.copyRecords a op with
  | (s, .fault f x) => (s, .fault f x)
  | (s, .ok r) =>
    match s.copyOwner core a op with
    | none => (s, .ok r)
    | some x => (s, .fault .prot x)

/-- A copy that failed its checks, where it stands: MEMERR ends it as if cancelled, another fault suspends it (R346). -/
def BrgCmd.refuse (code : FltCode) (j : BrgCmd) : Option BrgCmd := if code = .memerr then none else some { j with st := .suspended 0, recs := none }

/-- The delivery of the fault of a copy that failed its checks; the flag of one that has ended clears (R346). -/
def State.copyFault (j : BrgCmd) (code : FltCode) (addr : Dword) (s : State) : State :=
  (if code = .memerr then s.finishCommand j.actor.crew j.id [] else s).engineFault j.actor j.org code addr

/-- A copy enters the queue with its records, or suspended. -/
def State.enterCopy (core : Nat) (j : BrgCmd) (s : State) : State :=
  match s.copyChecks core j.actor j.op with
  | (s, .ok r) => s.mapBarge core fun b => { b with queue := b.queue ++ [{ j with recs := some r }] }
  | (s, .fault f x) => (s.mapBarge core fun b => { b with queue := b.queue ++ (j.refuse f).toList }).copyFault j f x

/-- A command enters the barge of its crew's core (R336): copies queue; tag commands act at once, and a wait that does
not complete stands apart. -/
def State.enterBarge (org : Origin) (id : Nat) (op : BrgOp) (c : Crew) (s : State) : State :=
  let core := c.core
  let cmd : BrgCmd := ⟨id, c.actor, org, op, .queued, none, none⟩
  let ct := s.ctOf core c.task.launch
  if op.isCopy then s.enterCopy core cmd
  else if op.isWait && !op.waitDone ct then s.mapBarge core fun b => { b with waits := b.waits ++ [cmd] }
  else
    let s := match op with
      | .tagClr m => s.mapCt core c.task.launch fun x => x &&& ~~~m
      | _ => s
    s.finishCommand c.uid id (op.result ct)

/-- Replace a job of the barge. -/
def State.setJob (core k : Nat) (j : BrgCmd) (s : State) : State := s.mapBarge core fun b => { b with jobs := b.jobs.set k j }

/-- A job is suspended at element `i` with the records it holds; an uncorrectable error ends it as if cancelled (R346). -/
def State.suspendJob (core k i : Nat) (code : FltCode) (addr : Dword) (s : State) : State :=
  match (s.coreAt core).barge.jobs[k]? with
  | none => s
  | some j =>
    (if code = .memerr then s.mapBarge core fun b => { b with jobs := b.jobs.eraseIdx k }
      else s.setJob core k { j with st := .suspended i }).copyFault j code addr

/-- One element of a copy: the source bytes as read now (R342, R348). -/
def State.copySource (a : Actor) (op : BrgOp) (d : Iter) (src : Option Iter) (i : Nat) (s : State) : State × Reply (List Byte) :=
  let n := 2 ^ d.esz
  match op, src with
  | .cpyf _ x _ _, _ => (s, .ok (((List.range 16).flatMap fun _ => leBytes 8 x.toNat).take n))
  | _, some r => s.engineRead a true (r.addr i) n
  | _, none => (s, .ok [])

/-- The members of a multicast that an element reaches: their keys, each checked by R169 (R343). -/
def State.castTargets (a : Actor) (mask : Nat) (va : Dword) (n : Nat) (s : State) : Reply (List Nat) :=
  let c := s.actorCrew a
  if va.toNat < winOwn || winRaft ≤ va.toNat then .fault .prot va
  else
    let o := c.r.spmWindow.1 + va.toNat % 2 ^ 32
    let ms := (List.range 4).filter fun m => bit mask m
    let cores := ms.map fun m => (s.raftMembers (c.core / 4))[m]?
    if cores.any Option.isNone then .fault .prot va
    else
      let ks := cores.filterMap id
      if ks.all fun k => decide (o + n ≤ 2 ^ 19) && s.inSomeWindow a.launch k o n then .ok (ks.map fun k => keySpad k o)
      else .fault .spmbound va

/-- The elements of a copy (R339, R342, R343, R348). -/
def BrgCmd.elems (j : BrgCmd) (d : Iter) (src : Option Iter) : Elems where
  id := j.id
  actor := j.actor
  va := d.addr
  place := fun i s =>
    if bit j.op.flags 5 then
      match s.castTargets j.actor (bits j.op.flags 6 4) (d.addr i) (2 ^ d.esz) with
      | .ok ks => (s, .direct ks none)
      | .fault c x => (s, .fault c x)
    else s.placeAt j.actor (d.addr i) (2 ^ d.esz)
  value := fun i s => match s.copySource j.actor j.op d src i with
    | (s, .ok b) => (s, .ok (b, 0))
    | (s, .fault c x) => (s, .fault c x)

/-- Byte counts of a core's copies whose writes are visible at their objects' scopes enter the objects, in order (R331, R345). -/
def State.settleCore (core : Nat) (s : State) : State :=
  let due := fun (x : Owed) => s.shown x.id core x.obj.scope.val
  let owed := (s.coreAt core).barge.owed
  (owed.filter due).foldl (fun s x => s.addBytes x.obj (-(BitVec.ofNat 64 x.bytes)))
    (s.mapBarge core fun b => { b with owed := owed.filter fun x => !due x })

/-- The same at every core that holds some. -/
def State.settleOwed (s : State) : State :=
  (s.cores.zipIdx.filter fun k => !k.1.barge.owed.isEmpty).foldl (fun s k => s.settleCore k.2) s

/-- A copy counts bytes that it has written into its barrier object, a release at the object's scope: at once where its writes are
visible there (R331, R345). -/
def State.copyCount (core : Nat) (j : BrgCmd) (n : Nat) (s : State) : State :=
  match j.op.object core with
  | some o => if n = 0 then s else (s.mapBarge core fun b => { b with owed := b.owed ++ [⟨j.id, j.actor.launch, o, n⟩] }).settleCore core
  | none => s

/-- The state before an action whose request has to wait at a landing (R202). -/
def State.waitAs (s asked : State) : State := { s with landings := asked.landings }

/-- One line of a job (COPY_LINE_COMMIT): the walk, then the gathered line's commit under its grant (R226, R345). A line
whose landing cannot grant now leaves its request there, and nothing else. -/
def State.copyLine (core k : Nat) (s : State) : State :=
  match (s.coreAt core).barge.jobs[k]? with
  | none => s
  | some j => match j.st, j.recs with
    | .running i, some (d, src) =>
      if d.count ≤ i then s
      else
        let (s', p) := (j.elems d src).walk (d.count - i) i none none 0 s
        let finish := fun (n : Nat) (s : State) =>
          let s := s.copyCount core j n
          match p.halt with
          | .fault c x => s.suspendJob core k p.next c x
          | _ => s.setJob core k { j with st := .running p.next }
        match p.gather with
        | none => finish p.wrote s'
        | some g =>
          match s'.passStore j.id g.loc with
          | (s', false) => s.waitAs s'
          | (s', true) => match s'.engineCommit j.id j.actor true g.loc g.loc.key g.va g.cells with
            | (s, .fault c x) => s.suspendJob core k g.first c x
            | (s, .ok _) => finish g.cells.length s
    | _, _ => s

/-- Every write that REL waits for is visible at its scope (R222, R344). ACQ asks nothing more of a copy: its elements are read
as they stand at their homes and at its core, one after another. -/
def State.copyVisible (core : Nat) (j : BrgCmd) (s : State) : Bool := !bit j.op.flags 4 || s.shown j.id core (bits j.op.flags 0 3)

/-! The barge's steps -/

/-- An engine command of a crew may enter (R226): the releases ahead of it are met, and its core sees what its crew has
written. -/
def State.entersNow (w : Crew) (s : State) : Bool := (w.chunk.rels.all fun m => m.acts != 0) && s.shown w.uid w.core 1

/-- BARGE_COMMAND_ENTRY: the first step-6 action of crew `c` is a command that the barge has room for. The action leaves
the list; CHUNK_COMMIT performs the next ones. -/
def State.bargeEntry (c : Nat) (s : State) : State :=
  match s.crew? c with
  | none => s
  | some w => match w.phase, w.chunk.acts with
    | .acting, ⟨org, .brg id op⟩ :: _ =>
      if s.bargeRoom w.core c w.task.launch op && s.entersNow w then (s.enterBarge org id op w).popAct c else s
    | _, _ => s

def execBargeCommandEntry (c : Nat) (s : State) : Out := .next (s.bargeEntry c)

/-- A copy that waits in the queue for a copy slot takes it (R336, R339). -/
def BrgCmd.started (j : BrgCmd) : BrgCmd := { j with st := .running ((j.recs.map fun r => r.1.start).getD 0) }

/-- COPY_START (R336): the oldest queued copy that is not suspended takes one of four copy slots (log entry 45). -/
def execCopyStart (core : Nat) (s : State) : Out :=
  .next (
    let b := (s.coreAt core).barge
    match b.queue.find? fun j => j.st == .queued with
    | none => s
    | some j =>
      if b.jobs.length < 4 then
        s.mapBarge core fun b => { b with queue := b.queue.filter fun x => x.id != j.id, jobs := b.jobs ++ [j.started] }
      else s)

/-- COPY_LINE_COMMIT (R342, R345). -/
def execCopyLineCommit (core k : Nat) (s : State) : Out := .next (s.copyLine core k)

/-- COPY_COMPLETION (R344): the tag is set and the flag clears. -/
def execCopyCompletion (core k : Nat) (s : State) : Out :=
  .next (match (s.coreAt core).barge.jobs[k]? with
    | none => s
    | some j => match j.st, j.recs with
      | .running i, some (d, _) =>
        if d.count ≤ i && s.copyVisible core j then
          ((s.mapBarge core fun b => { b with jobs := b.jobs.eraseIdx k }).mapCt core j.actor.launch fun x =>
            x ||| BitVec.ofNat 64 (2 ^ j.op.tag)).finishCommand j.actor.crew j.id []
        else s
      | _, _ => s)

/-- TAG_WAIT_COMPLETION (R349): a pending wait that the bitmap has satisfied completes with the value that it observed. -/
def execTagWaitCompletion (core k : Nat) (s : State) : Out :=
  .next (match (s.coreAt core).barge.waits[k]? with
    | none => s
    | some w =>
      let ct := w.seen.getD (s.ctOf core w.actor.launch)
      if w.op.waitDone ct then
        (s.mapBarge core fun b => { b with waits := b.waits.eraseIdx k }).finishCommand w.actor.crew w.id (w.op.result ct)
      else s)

end Sys2Proof.Machine
end

