-- ==== Sys2Proof/Machine/Tensor.lean ====
section
/-! DEFINITION. The TEN instructions at issue (R359, R360, R366, R368, R372 to R378), tiles (R353), shape records (R361,
R362), and what each command computes (R363 to R378). -/
namespace Sys2Proof.Machine

/-! Span words (R360) -/

/-- The fields of a span word. -/
structure Span where
  rows : Nat
  cols : Nat
  f64 : Bool
  mode : Nat
  unit : Bool
  ldlt : Bool
  dcol : Nat
  deriving DecidableEq, Repr

def parseSpan (x : Dword) : Span :=
  let n := x.toNat
  ⟨bits n 0 9, bits n 16 9, bit n 32, bits n 34 2, bit n 36, bit n 37, bits n 40 8⟩

/-- The fields that every span word may use: ROWS, COLS, F64. -/
def spanBase : Dword := 0x0000000101FF01FF

/-- A legal span word whose further fields lie under `extra`. -/
def spanLegal (extra x : Dword) : Bool :=
  let p := parseSpan x
  x &&& ~~~(spanBase ||| extra) == 0 && decide (1 ≤ p.rows) && decide (p.rows ≤ 256) && decide (1 ≤ p.cols) &&
    decide (p.cols ≤ 256) && p.mode != 3

/-- The format of a span. -/
def Span.tag (p : Span) : Fin 16 := if p.f64 then tF64 else tF32

/-- A span of rows and columns at a tile stays within c7 and the row width (R353). -/
def spanFits (f64 : Bool) (x : Fin 8) (rows cols : Nat) : Bool :=
  decide (x.val + (rows + 31) / 32 ≤ 8) && decide (cols ≤ if f64 then 128 else 256)

/-- The largest factor (R376). -/
def factLimit (f64 : Bool) : Nat := if f64 then 64 else 128

/-- Two spans of the same number of rows at two tiles share a byte: they share a row, since both begin at column 0. -/
def spansOverlap (x y : Fin 8) (rows rows' : Nat) : Bool :=
  decide (32 * x.val < 32 * y.val + rows') && decide (32 * y.val < 32 * x.val + rows)

/-! Issue (R355) -/

/-- A TEN instruction: HAZARD on the s registers that it names, its checks (in this order by log entry 104), then the command; a
draw of code 6 advances SRCTR (R357). -/
def State.tenIssue (uses : List (Fin 64)) (fs : Bool) (code : Nat) (op : TenOp) (bad : Option FltCode) (s : State) : State :=
  checked (uses.map fun u => ⟨.s, u.val, s.lanes⟩) s fun s =>
    match bad with
    | some c => s.raise (flt c 0)
    | none =>
      let r := s.focus.r
      (s.holdCommand fs [] fun id => .ten id op code r.srctr (pgkey r.pedigree)).mapR (drawn code)

/-- The first of some checks that fails. -/
def firstBad (l : List (Bool × FltCode)) : Option FltCode := (l.find? fun x => x.1).map (·.2)

/-- GANG.MEMBERS as a command uses it: 0 where the core computes alone (R368). -/
def State.gangMembers (s : State) : BitVec 4 :=
  let m := s.focus.r.gang
  if m = BitVec.ofNat 4 (2 ^ s.memberOf s.focus.core) then 0 else m

/-- The conditions of R368 on MEMBERS fail. -/
def State.gangBad (s : State) : Bool :=
  let m := s.gangMembers
  m != 0 && (!m.getLsbD (s.memberOf s.focus.core) ||
    (List.range 4).any (fun i => m.getLsbD i && decide ((s.raftMembers (s.focus.core / 4)).length ≤ i)) ||
    !s.focus.task.kind.mayBar)

/-- The number of named members; one where the core computes alone. -/
def gangSize (m : BitVec 4) : Nat := max 1 ((List.range 4).filter m.getLsbD).length

def execTzero (x n : Fin 8) (fs : Bool) (s : State) : Out := .next (s.tenIssue [] fs 1 (.zero x (n.val + 1)) none)

def execTld (x : Fin 8) (y : Fin 64) (fs : Bool) (s : State) : Out :=
  .next (s.tenIssue [y] fs 1 (.ld x (s.focus.r.readS y)) none)

def execTst (x : Fin 8) (y : Fin 64) (rnd : Fin 8) (sat fs : Bool) (s : State) : Out :=
  let r := s.focus.r
  .next (s.tenIssue [y] fs (if rnd = 0 then r.rndmode.val else rnd.val) (.st x (r.readS y) sat) none)

def execTmma (x : Fin 8) (y z : Fin 64) (zero rows fs : Bool) (s : State) : Out :=
  let r := s.focus.r
  .next (s.tenIssue [y, z] fs 1 (.mma x (r.readS y) (r.readS z) zero rows s.gangMembers)
    (firstBad [(s.gangBad || (rows && gangSize s.gangMembers != 2), .gang)]))

def execTgang (fs : Bool) (s : State) : Out :=
  .next (s.tenIssue [] fs 1 (.gang s.gangMembers) (firstBad [(s.gangBad, .gang)]))

/-- The checks of the operation word of TSWEEP (R372); `b`: a B record is named. -/
def sweepLegal (b : Bool) (w : Dword) : Bool :=
  let n := w.toNat
  let op := bits n 0 4
  bits n 9 23 == 0 && decide (op ≤ 6) && decide (bits n 4 4 ≤ 6) && (op == 6 || bits n 32 32 == 0) &&
    !(b && op == 0) && (b || op == 0 || op == 6)

def execTsweep (x y z : Fin 64) (w : Fin 32) (fs : Bool) (s : State) : Out :=
  let r := s.focus.r
  let ww : Fin 64 := ⟨w.val, by omega⟩
  let word := r.readS ww
  let rnd := bits word.toNat 4 4
  let b := if z = 0 then none else some (r.readS z)
  .next (s.tenIssue [x, y, z, ww] fs (if rnd = 0 then r.rndmode.val else rnd) (.sweep (r.readS x) (r.readS y) b word)
    (firstBad [(!sweepLegal b.isSome word, .illegal)]))

def execTred (x y : Fin 8) (op : Fin 4) (w : Fin 32) (fs : Bool) (s : State) : Out :=
  let ww : Fin 64 := ⟨w.val, by omega⟩
  let sp := s.focus.r.readS ww
  let p := parseSpan sp
  .next (s.tenIssue [ww] fs 1 (.red x y op sp) (firstBad [(!spanLegal 0x0000FF0000000000 sp, .illegal),
    (!spanFits p.f64 y p.rows p.cols || !spanFits p.f64 x p.rows (p.dcol + 1), .shape)]))

def execTfact (x : Fin 8) (y : Fin 64) (fs : Bool) (s : State) : Out :=
  let r := s.focus.r
  let sp := r.readS y
  let p := parseSpan sp
  .next (s.tenIssue (regGroup y 4) fs 1 (.fact x sp (r.readS (y + 1)) (r.readS (y + 2)) (r.readS (y + 3)))
    (firstBad [(!spanLegal 0x0000002000000000 sp, .illegal),
      (!spanFits p.f64 x p.rows p.cols || p.rows != p.cols || decide (factLimit p.f64 < p.rows), .shape)]))

def execTtrs (x y : Fin 8) (z : Fin 64) (fs : Bool) (s : State) : Out :=
  let sp := s.focus.r.readS z
  let p := parseSpan sp
  .next (s.tenIssue [z] fs 1 (.trs x y sp)
    (firstBad [(!spanLegal 0x0000001C00000000 sp || (p.unit && p.mode == 2), .illegal),
      (!spanFits p.f64 x p.rows p.rows || !spanFits p.f64 y p.rows p.cols || spansOverlap x y p.rows p.rows ||
        decide (factLimit p.f64 < p.rows), .shape)]))

def execTmov (x y : Fin 8) (z : Fin 64) (t fs : Bool) (s : State) : Out :=
  let sp := s.focus.r.readS z
  let p := parseSpan sp
  .next (s.tenIssue [z] fs 1 (.mov x y sp t) (firstBad [(!spanLegal 0 sp, .illegal),
    (!spanFits p.f64 y p.rows p.cols || !(if t then spanFits p.f64 x p.cols p.rows else spanFits p.f64 x p.rows p.cols), .shape)]))

def execTscl (x : Fin 8) (y z : Fin 64) (col scalar fs : Bool) (s : State) : Out :=
  let r := s.focus.r
  let sp := r.readS z
  let p := parseSpan sp
  .next (s.tenIssue [y, z] fs 1 (.scl x (r.readS y) sp col scalar)
    (firstBad [(!spanLegal 0 sp, .illegal), (!spanFits p.f64 x p.rows p.cols, .shape)]))

/-! Tiles (R353) -/

/-- The bytes of an element of a span. -/
def eszOf (f64 : Bool) : Nat := if f64 then 8 else 4

/-- Element (i, j) of a span at a tile of a core. -/
def tileElem (core : Nat) (f64 : Bool) (x : Fin 8) (i j : Nat) : Nat :=
  keyTile core ((32 * x.val + i) * 1024 + j * eszOf f64)

def State.tileGet (core : Nat) (f64 : Bool) (x : Fin 8) (i j : Nat) (s : State) : Nat :=
  leNat (s.bytes (tileElem core f64 x i j) (eszOf f64))

def State.tilePut (core : Nat) (f64 : Bool) (x : Fin 8) (i j v : Nat) (s : State) : State :=
  s.putBytes (cellsAt (tileElem core f64 x i j) (leBytes (eszOf f64) v))

/-- Element (i, j) as a value. -/
def State.tileVal (core : Nat) (f64 : Bool) (x : Fin 8) (i j : Nat) (s : State) : FVal :=
  fdecode (if f64 then tF64 else tF32) 0 (s.tileGet core f64 x i j)

/-- A crew uses the tiles of some rows from a tile up (R67). -/
def State.useTiles (uid : Nat) (x : Fin 8) (rows : Nat) (s : State) : State :=
  s.mapCrew uid fun c => { c with tiles := c.tiles ||| BitVec.ofNat 8 ((2 ^ ((rows + 31) / 32) - 1) * 2 ^ x.val) }

/-- TZERO (R363): bytes of tiles that memory does not list are zero. -/
def State.zeroTiles (core : Nat) (x : Fin 8) (n : Nat) (s : State) : State :=
  let lo := keyTile core (32768 * x.val)
  { s with mem := s.mem.filter fun c => !(decide (lo ≤ c.1) && decide (c.1 < lo + 32768 * n)) }

/-! Shape records (R361, R362) -/

def parseShape (b : List Byte) : Shape :=
  ⟨BitVec.ofNat 64 (fieldOf b 0 8), fieldOf b 8 4, fieldOf b 12 4, fieldOf b 16 4, fin 16 (fieldOf b 20 1), bit (fieldOf b 21 1) 0,
    fieldOf b 22 1, BitVec.ofNat 64 (fieldOf b 24 8)⟩

/-- The checks of one record (R362); `tags`: the accepted set. -/
def shapeBad (tags : Fin 16 → Bool) (b : List Byte) : Bool :=
  let h := parseShape b
  h.rows == 0 || h.cols == 0 || decide (2 ^ 57 ≤ h.base.toNat) || decide (2 ≤ fieldOf b 21 1) || fieldOf b 23 1 != 0 ||
    fieldOf b 32 32 != 0 || decide (16 ≤ fieldOf b 20 1) || !tags h.tag ||
    (h.tag != tM8 && (h.basereg != 0 || h.scales != 0)) || decide (63 < h.basereg)

/-- The address of element (i, j) (R361). -/
def Shape.addr (h : Shape) (i j : Nat) : Dword :=
  let esz := tagWidth h.tag / 8
  h.base + BitVec.ofNat 64 (if h.major then j * h.stride + i * esz else i * h.stride + j * esz)

/-- Read a shape record: its address in the own-core window, aligned; then its fields. -/
def State.readShape (a : Actor) (tags : Fin 16 → Bool) (va : Dword) (s : State) : State × Reply (List Byte) :=
  if va.toNat < winOwn || winRaft ≤ va.toNat || va.toNat % 64 ≠ 0 then (s, .fault .misalign va)
  else match s.engineRead a false va 64 with
    | (s, .fault f x) => (s, .fault f x)
    | (s, .ok b) => if shapeBad tags b then (s, .fault .shape va) else (s, .ok b)

/-- TLD and TST accept the four binary formats. -/
def ldTag (t : Fin 16) : Bool := tagBin t
/-- TMMA accepts those and m8. -/
def mmaTag (t : Fin 16) : Bool := tagBin t || t == tM8

/-- The elements of a group, and the largest K (R366, R367). -/
def mmaGroup (t : Fin 16) : Nat := if t = tM8 then 32 else if t = tF32 then 4 else if t = tF64 then 1 else 16
def mmaMaxK (t : Fin 16) : Nat := if t = tM8 then 512 else if t = tF32 then 64 else if t = tF64 then 32 else 256

/-- An address in the own-core window or the raft window (R366). -/
def inSpad (x : Dword) : Bool := decide (winOwn ≤ x.toNat) && decide (x.toNat < winPkg)

/-- The bands of R368: rows and columns of bands, and the own band's place. -/
def bandOf (m : BitVec 4) (member : Nat) (rows : Bool) : (Nat × Nat) × (Nat × Nat) :=
  let p := ((List.range member).filter m.getLsbD).length
  match gangSize m with
  | 1 => ((1, 1), (0, 0))
  | 2 => if rows then ((2, 1), (p, 0)) else ((1, 2), (0, p))
  | 3 => ((1, 3), (0, p))
  | _ => ((2, 2), (p / 2, p % 2))

/-- A part of n: its first element and its length, of `k` parts the `p`-th. -/
def bandPart (n k p : Nat) : Nat × Nat :=
  let h := (n + k - 1) / k
  (min n (p * h), min n ((p + 1) * h) - min n (p * h))

/-- The limits of R366 and R368 on a product; the failing record's address is that of A, or of B where only B fails. -/
def mmaBad (x : Fin 8) (m : BitVec 4) (member : Nat) (rows : Bool) (a b : Shape) : Option Bool :=
  let f64 := a.tag == tF64
  let ((gr, gc), (pr, pc)) := bandOf m member rows
  let h := (bandPart a.rows gr pr).2
  let w := (bandPart b.cols gc pc).2
  if a.major || !inSpad a.base || (a.tag == tM8 && (!inSpad a.scales || a.cols % 32 != 0)) ||
      decide (mmaMaxK a.tag < a.cols) then some true
  else if b.tag ≠ a.tag || b.rows ≠ a.cols || !inSpad b.base || (b.tag == tM8 && !inSpad b.scales) then some false
  else if decide ((if f64 then 64 else 128) < (a.rows + gr - 1) / gr) || decide ((if f64 then 128 else 256) < (b.cols + gc - 1) / gc) ||
      !spanFits f64 x h w then some true
  else none

/-! What a command reads at entry (R355, R361, R372, R375, R377) -/

/-- TSWEEP's tag set (R372). -/
def sweepTag (t : Nat) : Bool := decide (9 ≤ t) && decide (t ≤ 12)

/-- A record as read, with its address. -/
abbrev RawRec := Dword × List Byte

/-- The iterator records of TSWEEP: D, A, B, each checked, then compared with D. -/
def State.sweepRecords (a : Actor) (d x : Dword) (y : Option Dword) (s : State) : State × Reply (List RawRec) :=
  match s.readIter a true sweepTag d with
  | (s, .fault f v) => (s, .fault f v)
  | (s, .ok rd) => match s.readIter a false sweepTag x with
    | (s, .fault f v) => (s, .fault f v)
    | (s, .ok ra) =>
      let same := fun b => (parseIter b).esz == (parseIter rd).esz && (parseIter b).count == (parseIter rd).count
      match y with
      | none => if same ra then (s, .ok [(d, rd), (x, ra)]) else (s, .fault .shape d)
      | some y => match s.readIter a false sweepTag y with
        | (s, .fault f v) => (s, .fault f v)
        | (s, .ok rb) => if same ra && same rb then (s, .ok [(d, rd), (x, ra), (y, rb)]) else (s, .fault .shape d)

/-- The records of a product at a core. -/
def State.mmaRecords (core : Nat) (a : Actor) (x : Fin 8) (va vb : Dword) (rows : Bool) (m : BitVec 4) (s : State) :
    State × Reply (List RawRec) :=
  match s.readShape a mmaTag va with
  | (s, .fault f v) => (s, .fault f v)
  | (s, .ok ra) => match s.readShape a mmaTag vb with
    | (s, .fault f v) => (s, .fault f v)
    | (s, .ok rb) => match mmaBad x m (s.memberOf core) rows (parseShape ra) (parseShape rb) with
      | some isA => (s, .fault .shape (if isA then va else vb))
      | none => (s, .ok [(va, ra), (vb, rb)])

/-- The record of TLD or TST with the limits of R364. -/
def State.tileRecord (a : Actor) (x : Fin 8) (va : Dword) (s : State) : State × Reply (List RawRec) :=
  match s.readShape a ldTag va with
  | (s, .fault f v) => (s, .fault f v)
  | (s, .ok b) =>
    let h := parseShape b
    if spanFits (h.tag == tF64) x h.rows h.cols then (s, .ok [(va, b)]) else (s, .fault .shape va)

/-- What an operation reads at entry, with its checks. TFACT's status address is only translated. -/
def State.tenRecords (core : Nat) (a : Actor) (op : TenOp) (s : State) : State × Reply (List RawRec) :=
  match op with
  | .ld x rec => s.tileRecord a x rec
  | .st x rec _ => s.tileRecord a x rec
  | .mma x va vb _ rows m => s.mmaRecords core a x va vb rows m
  | .sweep d x y _ => s.sweepRecords a d x y
  | .scl _ f sp col false =>
    let p := parseSpan sp
    match s.engineReads a true f (eszOf p.f64) (if col then p.cols else p.rows) with
    | (s, .fault c v) => (s, .fault c v)
    | (s, .ok b) => (s, .ok [(f, b)])
  | .fact _ _ _ _ status =>
    if status = 0 then (s, .ok [])
    else match s.enginePlace a status 8 with
      | (s, .fault c v) => (s, .fault c v)
      | (s, .ok _) => (s, .ok [(status, [])])
  | _ => (s, .ok [])

/-- The base exponent of a record: bits [15:0] of the s register that it names, as it stood at entry (R355, R361). -/
def TenCmd.baseOf (c : TenCmd) (h : Shape) : Int := signedOf 16 ((c.sregs.getD h.basereg 0).toNat % 2 ^ 16)

/-! Products (R366, R367) -/

/-- Read rows × cols elements of a shape from (i0, j0), in row-major order. -/
def State.readBlock (a : Actor) (h : Shape) (i0 j0 cols : Nat) : List Nat → State → State × Reply (List (List Nat))
  | [], s => (s, .ok [])
  | i :: is, s =>
    let row := (List.range cols).foldl (fun (acc : State × Reply (List Nat)) j =>
      match acc with
      | (s, .ok l) => match s.engineRead a true (h.addr (i0 + i) (j0 + j)) (tagWidth h.tag / 8) with
        | (s, .ok b) => (s, .ok (l ++ [leNat b]))
        | (s, .fault c v) => (s, .fault c v)
      | (s, .fault c v) => (s, .fault c v)) (s, .ok [])
    match row with
    | (s, .fault c v) => (s, .fault c v)
    | (s, .ok l) => match s.readBlock a h i0 j0 cols is with
      | (s, .ok ls) => (s, .ok (l :: ls))
      | r => r

/-- The deltas of one line of m8 operands: line `x` of the array, K/32 nibbles (R367). -/
def State.readDeltas (a : Actor) (h : Shape) (k : Nat) (x : Nat) (s : State) : State × Reply (List Int) :=
  if h.tag ≠ tM8 then (s, .ok [])
  else (List.range (k / 32)).foldl (fun (acc : State × Reply (List Int)) g =>
    match acc with
    | (s, .ok l) =>
      let ix := x * (k / 32) + g
      match s.engineRead a true (h.scales + BitVec.ofNat 64 (ix / 2)) 1 with
      | (s, .ok b) => (s, .ok (l ++ [signedOf 4 (bits (leNat b) (4 * (ix % 2)) 4)]))
      | (s, .fault c v) => (s, .fault c v)
    | (s, .fault c v) => (s, .fault c v)) (s, .ok [])

/-- The deltas of consecutive lines. -/
def State.readAllDeltas (a : Actor) (h : Shape) (k : Nat) : List Nat → State → State × Reply (List (List Int))
  | [], s => (s, .ok [])
  | x :: xs, s => match s.readDeltas a h k x with
    | (s, .fault c v) => (s, .fault c v)
    | (s, .ok l) => match s.readAllDeltas a h k xs with
      | (s, .ok ls) => (s, .ok (l :: ls))
      | r => r

/-- One element of C (R367): groups in increasing K, each rounded once with the running value. `xs` and `ys` are the
operands with their exponents. -/
def mmaElem (T : Fin 16) (tag : Fin 16) (base : Int) (base' : Int) (da db : List Int) : List (List (Nat × Nat × Nat)) → Rounded → Rounded
  | [], c => c
  | g :: gs, (c, fl) =>
    let cv := fdecode T 0 c
    let pairs := g.map fun x =>
      (fdecode tag (if tag = tM8 then base + da.getD (x.1 / 32) 0 else 0) x.2.1,
        fdecode tag (if tag = tM8 then base' + db.getD (x.1 / 32) 0 else 0) x.2.2)
    let nv := cv.isSnan || pairs.any fun p => p.1.isSnan || p.2.isSnan || mulInvalid p.1 p.2
    let (n, f) := fsum T rne nv (cv :: pairs.map fun p => FVal.mul p.1 p.2)
    mmaElem T tag base base' da db gs (n, fl ||| f)

/-- Groups of at most `g` elements. -/
def groupsOf (g : Nat) : Nat → List (Nat × Nat × Nat) → List (List (Nat × Nat × Nat))
  | 0, _ => []
  | fuel + 1, l => if l.isEmpty then [] else l.take g :: groupsOf g fuel (l.drop g)

/-- A product over the core's band: every operand is read, then C is formed and written (R358, R366 to R368). -/
def State.perform_mma (core : Nat) (c : TenCmd) (x : Fin 8) (fresh rows : Bool) (m : BitVec 4) (s : State) : State × Reply FpFlags :=
  match c.raw with
  | [(_, ra), (_, rb)] =>
    let A := parseShape ra
    let B := parseShape rb
    let f64 := A.tag == tF64
    let T := if f64 then tF64 else tF32
    let ((gr, gc), (pr, pc)) := bandOf m (s.memberOf core) rows
    let (r0, h) := bandPart A.rows gr pr
    let (c0, w) := bandPart B.cols gc pc
    if h = 0 || w = 0 then (s, .ok 0)
    else
      let K := A.cols
      match s.readBlock c.actor A r0 0 K (List.range h) with
      | (s, .fault f v) => (s, .fault f v)
      | (s, .ok as) => match s.readBlock c.actor B 0 c0 w (List.range K) with
        | (s, .fault f v) => (s, .fault f v)
        | (s, .ok bs) => match s.readAllDeltas c.actor A K ((List.range h).map (r0 + ·)) with
          | (s, .fault f v) => (s, .fault f v)
          | (s, .ok das) => match s.readAllDeltas c.actor B K ((List.range w).map (c0 + ·)) with
            | (s, .fault f v) => (s, .fault f v)
            | (s, .ok dbs) =>
              let out := (List.range h).flatMap fun i => (List.range w).map fun j =>
                let ops := (List.range K).map fun k => (k, (as.getD i []).getD k 0, (bs.getD k []).getD j 0)
                let c0 := if fresh then 0 else s.tileGet core f64 x i j
                (i, j, mmaElem T A.tag (c.baseOf A) (c.baseOf B) (das.getD i []) (dbs.getD j [])
                  (groupsOf (mmaGroup A.tag) K ops) (c0, 0))
              (out.foldl (fun s e => s.tilePut core f64 x e.1 e.2.1 e.2.2.1) s,
                .ok (out.foldl (fun f e => f ||| e.2.2.2) 0))
  | _ => (s, .ok 0)

/-! Reductions, moves, scalings (R373 to R375) -/

/-- One row reduced: sum, maximum, sum of squares. -/
def reduceRow (T : Fin 16) (op : Fin 4) (l : List FVal) : Rounded :=
  match op with
  | 0 => fsum T rne (snanIn l) l
  | 1 => match l with
    | [] => (0, 0)
    | x :: xs => (x :: xs).foldl (fun acc y =>
        let (n, f) := fminmax true false T [fdecode T 0 acc.1, y]
        (n, acc.2 ||| f)) (fminmax true false T [x, x])
  | _ => fsum T rne (snanIn l) (l.map fun x => FVal.mul x x)

def State.perform_red (core : Nat) (x y : Fin 8) (op : Fin 4) (sp : Dword) (s : State) : State × FpFlags :=
  let p := parseSpan sp
  (List.range p.rows).foldl (fun acc i =>
    let (n, f) := reduceRow p.tag op ((List.range p.cols).map fun j => acc.1.tileVal core p.f64 y i j)
    (acc.1.tilePut core p.f64 x i p.dcol n, acc.2 ||| f)) (s, 0)

def State.perform_mov (core : Nat) (x y : Fin 8) (sp : Dword) (t : Bool) (s : State) : State :=
  let p := parseSpan sp
  let all := (List.range p.rows).flatMap fun i => (List.range p.cols).map fun j => (i, j, s.tileGet core p.f64 y i j)
  all.foldl (fun s e => if t then s.tilePut core p.f64 x e.2.1 e.1 e.2.2 else s.tilePut core p.f64 x e.1 e.2.1 e.2.2) s

def State.perform_scl (core : Nat) (x : Fin 8) (factor sp : Dword) (col scalar : Bool) (arr : List Byte) (s : State) :
    State × FpFlags :=
  let p := parseSpan sp
  let esz := eszOf p.f64
  (List.range p.rows).foldl (fun acc i => (List.range p.cols).foldl (fun acc j =>
    let f := if scalar then factor.toNat % 2 ^ (8 * esz) else fieldOf arr (esz * (if col then j else i)) esz
    let (n, fl) := fmaOf p.tag rne false [acc.1.tileVal core p.f64 x i j, fdecode p.tag 0 f] none
    (acc.1.tilePut core p.f64 x i j n, acc.2 ||| fl)) acc) (s, 0)

/-! Factorization and solution (R376 to R378) -/

/-- What TFACT carries from column to column: the state, the flags, REPL, FIRST, NANP. -/
structure Fact where
  s : State
  fp : FpFlags
  repl : Nat
  first : Nat
  nanp : Bool
  deriving DecidableEq, Repr

/-- The element (i, k) less the product of two values, fused. -/
def State.tileFnma (core : Nat) (f64 : Bool) (x : Fin 8) (i k : Nat) (a b : FVal) (s : State) : State × FpFlags :=
  let T := if f64 then tF64 else tF32
  let (n, f) := fmaOf T rne true [a, b] (some (s.tileVal core f64 x i k))
  (s.tilePut core f64 x i k n, f)

/-- One column of TFACT. -/
def factColumn (core : Nat) (x : Fin 8) (n : Nat) (f64 ldlt : Bool) (tau delta : Nat) (j : Nat) (z : Fact) : Fact :=
  let T := if f64 then tF64 else tF32
  let ajj := z.s.tileVal core f64 x j j
  let good := pivKeeps ajj (fdecode T 0 tau)
  let d0 := if good then z.s.tileGet core f64 x j j else delta
  let z := { z with
    fp := z.fp ||| (if ajj.isSnan then fNV else 0)
    repl := if good then z.repl else z.repl + 1
    first := if good || z.first != 0 then z.first else j + 1
    nanp := z.nanp || (!good && ajj.isNan) }
  let (d, fd) := if ldlt then (d0, 0) else (fsqrtExact (fdecode T 0 d0)).finish T
  let z := { z with s := z.s.tilePut core f64 x j j d, fp := z.fp ||| fd }
  let below := (List.range n).filter fun i => decide (j < i)
  let w := below.map fun i => (i, z.s.tileVal core f64 x i j)
  let z := below.foldl (fun z i =>
    let (q, f) := sfuDiv T (z.s.tileVal core f64 x i j) (fdecode T 0 d)
    { z with s := z.s.tilePut core f64 x i j q, fp := z.fp ||| f }) z
  below.foldl (fun z k => (below.filter fun i => decide (k ≤ i)).foldl (fun z i =>
    let right := if ldlt then ((w.find? fun e => e.1 == k).map (·.2)).getD (.nan false) else z.s.tileVal core f64 x k j
    let (s, f) := z.s.tileFnma core f64 x i k (z.s.tileVal core f64 x i j) right
    { z with s := s, fp := z.fp ||| f }) z) z

def State.perform_fact (core : Nat) (x : Fin 8) (sp tau delta : Dword) (s : State) : Fact :=
  let p := parseSpan sp
  let m := 2 ^ (8 * eszOf p.f64)
  (List.range p.rows).foldl (fun z j => factColumn core x p.rows p.f64 p.ldlt (tau.toNat % m) (delta.toNat % m) j z) ⟨s, 0, 0, 0, false⟩

/-- The status dword of TFACT (R377). -/
def Fact.status (z : Fact) : Dword := BitVec.ofNat 64 (z.repl % 2 ^ 16 + z.first * 2 ^ 16 + z.nanp.toNat * 2 ^ 32)

/-- One right-hand-side row of TTRS: s less products over `ks`, then the division. -/
def trsRow (core : Nat) (x y : Fin 8) (p : Span) (trans : Bool) (c i : Nat) (ks : List Nat) (z : State × FpFlags) : State × FpFlags :=
  let z := ks.foldl (fun z k =>
    let l := if trans then z.1.tileVal core p.f64 x k i else z.1.tileVal core p.f64 x i k
    let (s, f) := z.1.tileFnma core p.f64 y i c l (z.1.tileVal core p.f64 y k c)
    (s, z.2 ||| f)) z
  if p.unit then z
  else
    let (q, f) := sfuDiv p.tag (z.1.tileVal core p.f64 y i c) (z.1.tileVal core p.f64 x i i)
    (z.1.tilePut core p.f64 y i c q, z.2 ||| f)

def State.perform_trs (core : Nat) (x y : Fin 8) (sp : Dword) (s : State) : State × FpFlags :=
  let p := parseSpan sp
  let rows := List.range p.rows
  (List.range p.cols).foldl (fun z c =>
    match p.mode with
    | 0 => rows.foldl (fun z i => trsRow core x y p false c i (List.range i) z) z
    | 1 => rows.reverse.foldl (fun z i => trsRow core x y p true c i (rows.filter fun k => decide (i < k)) z) z
    | _ => rows.foldl (fun z i => trsRow core x y { p with unit := false } false c i [] z) z) (s, 0)

/-! Walked commands (R364, R365, R372) -/

/-- The rounding of element q of a command (R357). -/
def TenCmd.rounding (c : TenCmd) (sat : Bool) (q : Nat) : Rounding :=
  ⟨c.code, sat, if c.code = 6 then (mix64 (prng c.key c.ctr (fin 32 (q % 32)) 3 ^^^ BitVec.ofNat 64 (q / 32))).toNat else 0, 64⟩

/-- An exact conversion to a wider or the same format, signalling NaNs with their payload included (R364). -/
def widenExact (S T : Fin 16) (n : Nat) : Nat :=
  if S = T then n
  else match fmtOf S, fmtOf T with
    | some f, some g =>
      if (f.decode n).isNan then
        zeroBits g (bit n (f.eb + f.fb)) + g.infBits + bits n 0 f.fb * 2 ^ (g.fb - f.fb)
      else (roundTo T 0 rne (f.decode n)).1
    | _, _ => n

/-- TLD's elements: from memory into the span. -/
def TenCmd.ldElems (c : TenCmd) (core : Nat) (x : Fin 8) (h : Shape) : Elems where
  id := c.id
  actor := c.actor
  va := fun q => h.addr (q / h.cols) (q % h.cols)
  place := fun q s => (s, .direct [tileElem core (h.tag == tF64) x (q / h.cols) (q % h.cols)] none)
  value := fun q s =>
    match s.engineRead c.actor true (h.addr (q / h.cols) (q % h.cols)) (tagWidth h.tag / 8) with
    | (s, .fault f v) => (s, .fault f v)
    | (s, .ok b) =>
      let T := if h.tag == tF64 then tF64 else tF32
      (s, .ok (leBytes (eszOf (h.tag == tF64)) (widenExact h.tag T (leNat b)), 0))

/-- TST's elements: from the span into memory. -/
def TenCmd.stElems (c : TenCmd) (core : Nat) (x : Fin 8) (sat : Bool) (h : Shape) : Elems where
  id := c.id
  actor := c.actor
  va := fun q => h.addr (q / h.cols) (q % h.cols)
  place := fun q s => s.placeAt c.actor (h.addr (q / h.cols) (q % h.cols)) (tagWidth h.tag / 8)
  value := fun q s =>
    let (n, f) := roundTo h.tag 0 (c.rounding sat q) (s.tileVal core (h.tag == tF64) x (q / h.cols) (q % h.cols))
    (s, .ok (leBytes (tagWidth h.tag / 8) n, f))

/-- The result of one element of TSWEEP: exact, rounded once to D's tag (R372). -/
def sweepValue (T : Fin 16) (r : Rounding) (op : Nat) (alpha : Nat) (a : FVal) (b : Option FVal) : Rounded :=
  let y := b.getD (.num false 0 0)
  match op with
  | 0 => roundTo T 0 r a
  | 1 => fsum T r (snanIn [a, y]) [a, y]
  | 2 => fsum T r (snanIn [a, y]) [a, y.negate]
  | 3 => fmaOf T r false [a, y] none
  | 4 | 5 =>
    if a.isNan || y.isNan then ((roundTo T 0 rne (.nan false)).1, if snanIn [a, y] then fNV else 0)
    else roundTo T 0 r (if fless a y == (op == 4) then y else a)
  | _ => fmaOf T r false [fdecode tF32 0 alpha, a] b

/-- TSWEEP's elements. -/
def TenCmd.sweepElems (c : TenCmd) (word : Dword) (d a : Iter) (b : Option Iter) : Elems where
  id := c.id
  actor := c.actor
  va := d.addr
  place := fun i s => s.placeAt c.actor (d.addr i) (tagWidth (fin 16 d.tag) / 8)
  value := fun i s =>
    let rd := fun (r : Iter) (s : State) => match s.engineRead c.actor true (r.addr i) (tagWidth (fin 16 r.tag) / 8) with
      | (s, .ok bs) => (s, Reply.ok (fdecode (fin 16 r.tag) 0 (leNat bs)))
      | (s, .fault f v) => (s, Reply.fault f v)
    match rd a s with
    | (s, .fault f v) => (s, .fault f v)
    | (s, .ok x) =>
      let second := match b with
        | none => (s, Reply.ok none)
        | some b => match rd b s with
          | (s, .ok y) => (s, Reply.ok (some y))
          | (s, .fault f v) => (s, Reply.fault f v)
      match second with
      | (s, .fault f v) => (s, .fault f v)
      | (s, .ok y) =>
        let w := word.toNat
        let (n, f) := sweepValue (fin 16 d.tag) (c.rounding (bit w 8) i) (bits w 0 4) (bits w 32 32) x y
        (s, .ok (leBytes (tagWidth (fin 16 d.tag) / 8) n, f))

/-- The elements of a walked command, with their number. -/
def TenCmd.elems (c : TenCmd) (core : Nat) : Option (Elems × Nat) :=
  match c.op, c.raw with
  | .ld x _, [(_, b)] => some (c.ldElems core x (parseShape b), (parseShape b).rows * (parseShape b).cols)
  | .st x _ sat, [(_, b)] => some (c.stElems core x sat (parseShape b), (parseShape b).rows * (parseShape b).cols)
  | .sweep _ _ _ w, [(_, d), (_, a)] => some (c.sweepElems w (parseIter d) (parseIter a) none, (parseIter d).count)
  | .sweep _ _ _ w, [(_, d), (_, a), (_, b)] => some (c.sweepElems w (parseIter d) (parseIter a) (some (parseIter b)), (parseIter d).count)
  | _, _ => none

/-- The first element that a walked command performs. -/
def TenCmd.start (c : TenCmd) : Nat :=
  match c.st, c.op, c.raw with
  | .resumed i, _, _ => i
  | _, .sweep _ _ _ _, (_, d) :: _ => (parseIter d).start
  | _, _, _ => 0

end Sys2Proof.Machine
end

