-- ==== Sys2Proof/Machine/TensorSteps.lean ====
section
/-! DEFINITION. The tensor engine's own steps (R355 to R358, R369, R371): entry, dispatch, the raft latch, completion. -/
namespace Sys2Proof.Machine

def State.mapTen (core : Nat) (f : List TenCmd → List TenCmd) (s : State) : State := s.mapCore core fun c => { c with ten := f c.ten }

def State.tenAt (s : State) (core : Nat) : List TenCmd := (s.coreAt core).ten

/-- Replace a command by its number. -/
def State.setTen (core : Nat) (c : TenCmd) (s : State) : State := s.mapTen core fun l => l.map fun x => if x.id = c.id then c else x

/-- A fault suspends a command at element `i` (R358); an uncorrectable error ends it as if cancelled (R346). A command that
reads its records again has none. -/
def State.tenFail (core : Nat) (c : TenCmd) (i : Nat) (keep : Bool) (code : FltCode) (addr : Dword) (s : State) : State :=
  if code = .memerr then
    ((s.mapTen core fun l => l.filter fun x => x.id != c.id).finishCommand c.actor.crew c.id []).engineFault c.actor c.org code addr
  else
    (s.setTen core { c with st := .suspended i, raw := if keep then c.raw else [], paired := c.paired && code != .gang }).engineFault
      c.actor c.org code addr

/-! Entry (R355) -/

/-- The rows of the span that an operation takes from its records: of a product, those of its core's band (R368); `unread` where no
record is read yet. -/
def State.tenRows (s : State) (core : Nat) (op : TenOp) (raw : List RawRec) (unread : Nat) : Nat :=
  match op, raw with
  | .mma _ _ _ _ rows m, (_, b) :: _ =>
    let ((n, _), (p, _)) := bandOf m (s.memberOf core) rows
    (bandPart (parseShape b).rows n p).2
  | _, (_, b) :: _ => (parseShape b).rows
  | _, [] => unread

/-- The tiles that an operation names, with the rows of each; `rows` are those that its records give (R67). -/
def TenOp.tiles (op : TenOp) (rows : Nat) : List (Fin 8 × Nat) :=
  match op with
  | .zero x n => [(x, 32 * n)]
  | .ld x _ => [(x, rows)]
  | .st x _ _ => [(x, rows)]
  | .mma x _ _ _ _ _ => [(x, rows)]
  | .gang _ => []
  | .sweep _ _ _ _ => []
  | .red x y _ sp => [(x, (parseSpan sp).rows), (y, (parseSpan sp).rows)]
  | .fact x sp _ _ _ => [(x, (parseSpan sp).rows)]
  | .trs x y sp => [(x, (parseSpan sp).rows), (y, (parseSpan sp).rows)]
  | .mov x y sp t => [(x, if t then (parseSpan sp).cols else (parseSpan sp).rows), (y, (parseSpan sp).rows)]
  | .scl x _ sp _ _ => [(x, (parseSpan sp).rows)]

/-- The tiles that a command may touch, as a mask: those from its tile up, while the records that give its rows are not read. -/
def State.tileMask (s : State) (core : Nat) (op : TenOp) (raw : List RawRec) : BitVec 8 :=
  (op.tiles (s.tenRows core op raw 256)).foldl (fun m t => m ||| BitVec.ofNat 8 ((2 ^ ((min t.2 256 + 31) / 32) - 1) * 2 ^ t.1.val)) 0

/-- A crew uses the tiles that its command names (R67). -/
def State.nameTiles (core : Nat) (c : TenCmd) (s : State) : State :=
  (c.op.tiles (max 1 (s.tenRows core c.op c.raw 1))).foldl (fun s t => s.useTiles c.actor.crew t.1 (min t.2 256)) s

/-- A command reads its records and its crew uses the tiles that it names (R67), or the fault suspends it; then what
follows. -/
def State.tenRead (core : Nat) (c : TenCmd) (s : State) (k : TenCmd → State → State) : State :=
  match s.tenRecords core c.actor c.op with
  | (s, .fault f v) => (s.nameTiles core { c with raw := [] }).tenFail core c 0 false f v
  | (s, .ok raw) => k { c with raw := raw } ((s.setTen core { c with raw := raw }).nameTiles core { c with raw := raw })

/-- A command enters the tensor engine of its crew's core, with its records and the s registers as they stand. -/
def State.enterTen (org : Origin) (id : Nat) (op : TenOp) (code : Nat) (ctr key : Dword) (c : Crew) (s : State) : State :=
  let cmd : TenCmd := ⟨id, c.actor, org, op, .queued, code, ctr, key, [], c.r.s.toList, 0, false⟩
  (s.mapTen c.core fun l => l ++ [cmd]).tenRead c.core cmd fun _ s => s

/-- A crew of the same core whose chunk committed earlier has yet to hand over a command on a tile of this one's (R67,
log entry 120). -/
def State.tenBehind (s : State) (w : Crew) (op : TenOp) : Bool :=
  s.crews.any fun v => v.uid != w.uid && v.core == w.core && (v.phase == .granted || v.phase == .acting) && decide (v.chunk.seq < w.chunk.seq) &&
    v.chunk.acts.any fun a => match a.kind with
      | .ten _ op' _ _ _ => s.tileMask w.core op' [] &&& s.tileMask w.core op [] != 0
      | _ => false

/-- The first step-6 action of crew `c` is a command that the tensor engine has room for, and none that comes before it on its tiles
is still to enter (R67); it enters. -/
def State.tenEntry (c : Nat) (s : State) : State :=
  match s.crew? c with
  | none => s
  | some w => match w.phase, w.chunk.acts with
    | .acting, ⟨org, .ten id op code ctr key⟩ :: _ =>
      if (s.tenAt w.core).length < 16 && s.entersNow w && !s.tenBehind w op then (s.enterTen org id op code ctr key w).popAct c else s
    | _, _ => s

def execTensorCommandEntry (c : Nat) (s : State) : Out := .next (s.tenEntry c)

/-! The latch (R369) -/

/-- The members of a gang command; 0 where its core computes alone, and for the other commands. -/
def TenOp.members : TenOp → BitVec 4
  | .mma _ _ _ _ _ m => m
  | .gang m => m
  | _ => 0

/-- What the latch compares: opcode, MEMBERS, W[1:0], both records. -/
def TenCmd.latchKey (c : TenCmd) : Nat × BitVec 4 × Bool × Bool × List (List Byte) :=
  match c.op with
  | .mma _ _ _ fresh rows m => (4, m, fresh, rows, c.raw.map (·.2))
  | op => (5, op.members, false, false, [])

/-- A gang command that waits unpaired at the latch. -/
def TenCmd.waits (c : TenCmd) : Bool := c.st == .latched && !c.paired

/-- The physical cores that MEMBERS names in a raft. -/
def State.gangCores (s : State) (raft : Nat) (m : BitVec 4) : List Nat :=
  ((s.raftMembers raft).zipIdx.filter fun x => m.getLsbD x.2).map (·.1)

/-- The unpaired commands of every member that a waiting command names, with their cores; empty where one is missing. -/
def State.gangSet (s : State) (raft : Nat) (c : TenCmd) : List (Nat × TenCmd) :=
  let found := (s.gangCores raft c.op.members).map fun k => ((s.tenAt k).find? TenCmd.waits).map fun d => (k, d)
  if found.any Option.isNone then [] else found.filterMap id

/-- The latch of a raft pairs the first complete set of waiting commands: on any difference GANG in every one. -/
def State.latchPair (raft : Nat) (s : State) : State :=
  let sets := ((s.raftMembers raft).filterMap fun k => (s.tenAt k).find? TenCmd.waits).map (s.gangSet raft)
  match sets.find? fun l => !l.isEmpty with
  | none => s
  | some l =>
    let same := l.all fun x => x.2.latchKey == (l.headD x).2.latchKey
    l.foldl (fun s x => if same then s.setTen x.1 { x.2 with paired := true } else s.tenFail x.1 x.2 0 false .gang 0) s

def execLatchPairing (raft : Nat) (s : State) : Out := .next (s.latchPair raft)

/-! Dispatch (R355, R358, R371) -/

/-- The paired TGANG of a member core. -/
def State.pairedGang (s : State) (m : BitVec 4) (core : Nat) : Option TenCmd :=
  (s.tenAt core).find? fun c => c.paired && c.op == .gang m

/-- TGANG's condition holds: at every member no earlier command is left; for a core alone, none of the crew's (R371). -/
def State.gangReady (s : State) (core : Nat) (c : TenCmd) : Bool :=
  let m := c.op.members
  if m = 0 then ((s.tenAt core).takeWhile fun x => x.id != c.id).all fun x => x.actor.crew != c.actor.crew
  else (s.gangCores (core / 4) m).all fun k => match s.pairedGang m k, s.tenAt k with
    | some d, e :: _ => d.id == e.id
    | _, _ => false

/-- The commands of a core that entered before this one and are not performed. -/
def State.tenAhead (s : State) (core : Nat) (c : TenCmd) : List TenCmd :=
  ((s.tenAt core).takeWhile fun x => x.id != c.id).filter fun x => x.st != .done

/-- The command is the first unperformed one of its crew (R355). -/
def State.isHead (s : State) (core : Nat) (c : TenCmd) : Bool := (s.tenAhead core c).all fun x => x.actor.crew != c.actor.crew

/-- No command of another crew that comes before this one is left on a tile of its own (R67). -/
def State.tilesFree (s : State) (core : Nat) (c : TenCmd) : Bool :=
  (s.tenAhead core c).all fun x => s.tileMask core x.op x.raw &&& s.tileMask core c.op c.raw == 0

/-- The command paired with this one that a member core still has to perform. -/
def State.partner (s : State) (c : TenCmd) (core : Nat) : Option TenCmd :=
  (s.tenAt core).find? fun d => d.paired && d.st == .latched && d.latchKey == c.latchKey

/-- A gang product's members can all perform it (R370): no engine is within another command. -/
def State.mmaReady (s : State) (core : Nat) (c : TenCmd) : Bool :=
  (s.gangCores (core / 4) c.op.members).all fun k => match s.partner c k with
    | some d => s.tilesFree k d && !(s.tenAt k).any fun x => match x.st with | .running _ => true | _ => false
    | none => true

/-- The command may be taken now (R67, R355, R369): it is the first unperformed one of its crew; a gang command moves to the latch,
and another one is performed once its tiles are free and its latch is satisfied. -/
def State.eligible (s : State) (core : Nat) (c : TenCmd) : Bool :=
  s.isHead core c &&
    (match c.st with
     | .resumed _ => s.tilesFree core c
     | .queued => c.op.members != 0 || (s.tilesFree core c && match c.op with | .gang _ => s.gangReady core c | _ => true)
     | .latched => c.paired && (match c.op with | .gang _ => s.gangReady core c | _ => s.mmaReady core c)
     | _ => false)

/-- The next line of a walked command (R364, R365, R372). -/
def State.tenWalk (core : Nat) (c : TenCmd) (i : Nat) (s : State) : State :=
  match c.elems core with
  | none => s.setTen core { c with st := .done }
  | some (e, n) =>
    if n ≤ i then s.setTen core { c with st := .done }
    else
      let (s', p) := e.walk (n - i) i none none 0 s
      let finish := fun (s : State) =>
        let c := { c with fp := c.fp ||| p.fp }
        match p.halt with
        | .fault f v => s.tenFail core c p.next true f v
        | _ => s.setTen core { c with st := if n ≤ p.next then .done else .running p.next }
      match p.gather with
      | none => finish s'
      | some g =>
        match s'.passStore c.id g.loc with
        | (s', false) => s.waitAs s'
        | (s', true) => match s'.engineCommit c.id c.actor true g.loc g.loc.key g.va g.cells with
          | (s, .fault f v) => s.tenFail core c g.first true f v
          | (s, .ok _) => finish s

/-- TFACT with its status dword (R377). -/
def State.tenFact (core : Nat) (c : TenCmd) (x : Fin 8) (sp tau delta status : Dword) (s : State) : State :=
  let done := fun (z : Fact) (s : State) => s.setTen core { c with st := .done, fp := c.fp ||| z.fp }
  if status = 0 then
    let z := s.perform_fact core x sp tau delta
    done z z.s
  else match s.enginePlace c.actor status 8 with
    | (s, .fault f v) => s.tenFail core c 0 true f v
    | (s', .ok l) => match s'.passStore c.id l with
      | (s', false) => s.waitAs s'
      | (s', true) =>
        let z := s'.perform_fact core x sp tau delta
        done z (z.s.engineStore c.id core l (leBytes 8 z.status.toNat))

/-- Perform a command whose records are read. -/
def State.tenPerform (core : Nat) (c : TenCmd) (s : State) : State :=
  let done := fun (x : State × FpFlags) => x.1.setTen core { c with st := .done, fp := c.fp ||| x.2 }
  match c.op with
  | .zero x n => done (s.zeroTiles core x n, 0)
  | .ld _ _ => s.tenWalk core c c.start
  | .st _ _ _ => s.tenWalk core c c.start
  | .sweep _ _ _ _ => s.tenWalk core c c.start
  | .mma x _ _ fresh rows m => match s.perform_mma core c x fresh rows m with
    | (s, .ok f) => done (s, f)
    | (s, .fault f v) => s.tenFail core c 0 true f v
  | .gang m =>
    if m = 0 then done (s, 0)
    else (s.gangCores (core / 4) m).foldl (fun s k => match s.pairedGang m k with
      | some d => s.setTen k { d with st := .done }
      | none => s) s
  | .red x y op sp => done (s.perform_red core x y op sp)
  | .fact x sp tau delta status => s.tenFact core c x sp tau delta status
  | .trs x y sp => done (s.perform_trs core x y sp)
  | .mov x y sp t => done (s.perform_mov core x y sp t, 0)
  | .scl x f sp col scalar => done (s.perform_scl core x f sp col scalar ((c.raw.headD (0, [])).2))

/-- A gang product is performed at every member together, so that all use the same bytes of a line (R370). -/
def State.mmaGang (core : Nat) (c : TenCmd) (s : State) : State :=
  (s.gangCores (core / 4) c.op.members).foldl (fun s k => match s.partner c k with
    | some d => s.tenPerform k d
    | none => s) s

/-- A command that has none of its records, after RFT, reads them again (R346, R358). -/
def State.tenPrepare (core : Nat) (c : TenCmd) (s : State) (k : TenCmd → State → State) : State :=
  if c.raw.isEmpty then s.tenRead core c k else k c s

/-- TENSOR_COMMAND_DISPATCH: the running command goes on; else the oldest eligible one is performed, or a gang command
takes its place at the latch, where a second unpaired one of the core raises GANG (R369). -/
def State.tenDispatch (core : Nat) (s : State) : State :=
  let l := s.tenAt core
  match l.findSome? fun c => match c.st with | .running i => some (c, i) | _ => none with
  | some (c, i) => s.tenWalk core c i
  | none => match l.find? (s.eligible core) with
    | none => s
    | some c => s.tenPrepare core c fun c s =>
      if c.op.members != 0 && c.st == .queued then
        if l.any TenCmd.waits then s.tenFail core c 0 false .gang 0 else s.setTen core { c with st := .latched }
      else match c.op with
        | .mma _ _ _ _ _ m => if m = 0 then s.tenPerform core c else s.mmaGang core c
        | _ => s.tenPerform core c

def execTensorCommandDispatch (core : Nat) (s : State) : Out := .next (s.tenDispatch core)

/-! Completion (R26, R355, R356) -/

/-- One performed command leaves its engine: its flag clears, its flag bits are kept for the crew. -/
def State.tenFinish (core : Nat) (c : TenCmd) (s : State) : State :=
  ((s.mapTen core fun l => l.filter fun x => x.id != c.id).finishCommand c.actor.crew c.id []).mapCrew c.actor.crew fun w =>
    { w with tenFp := w.tenFp ||| c.fp }

/-- TENSOR_COMMAND_COMPLETION: the oldest performed command whose released lines its core sees, so that a clause which waits on its
flag reads every byte it wrote (R355); a TGANG completes at every member together (R371). -/
def State.tenComplete (core : Nat) (s : State) : State :=
  match (s.tenAt core).find? fun c => c.st == .done && s.streams.all fun x => x.crew != c.id || x.seen.contains core with
  | none => s
  | some c => match c.op with
    | .gang m =>
      if m = 0 then s.tenFinish core c
      else (s.gangCores (core / 4) m).foldl (fun s k => match s.pairedGang m k with
        | some d => s.tenFinish k d
        | none => s) s
    | _ => s.tenFinish core c

def execTensorCommandCompletion (core : Nat) (s : State) : Out := .next (s.tenComplete core)

end Sys2Proof.Machine
end

