-- ==== Sys2Proof/Machine/Image.lean ====
section
/-! DEFINITION. The context image of a stopped launch (R399), its coder (R400), and the reading of both (R401). -/
namespace Sys2Proof.Machine

/-! The zero-and-repeat coder (R400) -/

/-- How many words at the head of a list equal `x`, up to `n`. -/
def runLength (x : Dword) : Nat → List Dword → Nat
  | 0, _ => 0
  | _, [] => 0
  | n + 1, y :: l => if y = x then 1 + runLength x n l else 0

/-- The literal run at the head of a list, `prev` being the word before it: it goes on, up to `n` words, while its next
word is not zero and differs from the word before. -/
def literals (prev : Dword) : Nat → List Dword → List Dword
  | 0, _ => []
  | _, [] => []
  | n + 1, y :: l => if y = 0 || y = prev then [] else y :: literals y n l

/-- The token bytes of a list of words; `prev` is the last decoded word. -/
def codeWords (prev : Dword) : Nat → List Dword → List Byte
  | 0, _ => [0xFF]
  | _, [] => [0xFF]
  | fuel + 1, x :: l =>
    if x = 0 then
      let n := 1 + runLength 0 63 l
      BitVec.ofNat 8 (0x40 + (n - 1)) :: codeWords 0 fuel ((x :: l).drop n)
    else if x = prev then
      let n := 1 + runLength x 63 l
      BitVec.ofNat 8 (0x80 + (n - 1)) :: codeWords x fuel ((x :: l).drop n)
    else
      let run := x :: literals x 63 l
      BitVec.ofNat 8 (run.length - 1) :: (run.flatMap fun y => leBytes 8 y.toNat) ++
        codeWords (run.getLastD 0) fuel ((x :: l).drop run.length)

/-- The stream of an image. -/
def encodeImage (ws : List Dword) : List Byte := codeWords 0 (ws.length + 1) ws

/-- `n` little-endian dwords at the head of a list of bytes. -/
def takeDwords : Nat → List Byte → Option (List Dword × List Byte)
  | 0, l => some ([], l)
  | n + 1, l => if l.length < 8 then none
    else (takeDwords n (l.drop 8)).map fun x => (BitVec.ofNat 64 (leNat (l.take 8)) :: x.1, x.2)

/-- The words of a stream; `none` for a reserved token or a stream that ends too soon. -/
def decodeImage (prev : Dword) : Nat → List Byte → Option (List Dword)
  | 0, _ => none
  | _, [] => none
  | fuel + 1, b :: l =>
    let t := b.toNat
    let n := t % 64 + 1
    if t = 0xFF then some []
    else if t < 0x40 then (takeDwords n l).bind fun x => (decodeImage (x.1.getLastD 0) fuel x.2).map (x.1 ++ ·)
    else if t < 0x80 then (decodeImage 0 fuel l).map (List.replicate n 0 ++ ·)
    else if t < 0xC0 then (decodeImage prev fuel l).map (List.replicate n prev ++ ·)
    else none

/-! Crew records (R399) -/

/-- Numbers of `w` bits each, packed from the lowest bit. -/
def packBits (w : Nat) : List Nat → Nat
  | [] => 0
  | x :: l => x % 2 ^ w + 2 ^ w * packBits w l

/-- Dwords of a number, the lowest first. -/
def dwordsOf (n x : Nat) : List Dword := (List.range n).map fun k => BitVec.ofNat 64 (bits x (64 * k) 64)

/-- The dwords of a list of bytes, padded with zeros. -/
def padDwords (b : List Byte) : List Dword := dwordsOf ((b.length + 7) / 8) (leNat b)

/-- The state code of a record. -/
def Crew.recordState (c : Crew) : Nat :=
  match c.phase with
  | .parked => 1
  | .suspended | .ending => 2
  | .unstarted => 4
  | .run => 3
  | _ => 0

/-- The live mask that is applied: the crew's, every register without one; none of an unstarted crew (R86, R399). -/
def Crew.imageMask (c : Crew) : BitVec 128 :=
  if c.phase == .unstarted then 0 else c.task.live.getD (BitVec.ofNat 128 (2 ^ 127 - 1))

/-- The leaf body's registers (R269). -/
def leafRegs (x : RangeRec) (args : List Dword) (r : Regs) : Regs :=
  { r with s := tab 64 fun i =>
      if i.val = 1 then BitVec.ofNat 64 x.lo else if i.val = 2 then BitVec.ofNat 64 x.hi
      else if i.val < 3 then 0 else args.getD (i.val - 3) 0 }

/-- The registers that a record holds: of an unstarted crew only its entry PC, arguments, pedigree and arena. Those of a range frame
are what its leaf would begin with (log entry 12). -/
def Crew.imageRegs (c : Crew) : Regs :=
  if c.phase == .unstarted then { Regs.reset with
    s := match c.task.range with
      | some x => (leafRegs x (c.task.args.take 5) Regs.reset).s
      | none => c.r.s
    frontier := c.r.frontier, pedigree := c.r.pedigree, arenaBase := c.r.arenaBase, arenaLim := c.r.arenaLim, rndmode := 0 }
  else c.r

/-- The live registers of each file, in increasing number. -/
def liveV (m : BitVec 128) : List (Fin 64) := (List.finRange 64).filter fun i => m.getLsbD i.val
def liveS (m : BitVec 128) : List (Fin 64) :=
  (List.finRange 64).filter fun i => i != 0 && (decide (i.val < 8) || m.getLsbD (56 + i.val))
def liveQ (m : BitVec 128) : List (Fin 8) := (List.finRange 8).filter fun i => i != 0 && m.getLsbD (119 + i.val)

/-- The rank of a stamp among those of a frontier. -/
def stampRank (l : List Entry) (x : Nat) : Nat := ((l.map Entry.stamp).eraseDups.filter fun y => decide (y < x)).length

/-- The two words of a thread. -/
def threadWords (r : Regs) (t : Fin 32) : List Dword :=
  let e := r.frontier.find? fun e => hasLane e.threads t
  [BitVec.ofNat 64 (((e.map fun e => e.pc.toNat).getD 0) + ((e.map fun e => stampRank r.frontier e.stamp).getD 0) * 2 ^ 57 +
      (hasLane r.blocked t).toNat * 2 ^ 62 + (hasLane r.emask t).toNat * 2 ^ 63),
    BitVec.ofNat 64 (r.csp[t].toNat + r.cdepth[t].toNat * 2 ^ 32)]

/-- The three words of a register's pending markers. -/
def markWords (r : Regs) (f : RegFile) (n : Nat) : List Dword :=
  let of := fun (t : Fin 32) => r.marks.find? fun m => m.file == f && m.num.val == n && m.lane == t
  let flags := packBits 4 ((List.finRange 32).map fun t => ((of t).map fun m => m.flag.val).getD 0)
  BitVec.ofNat 64 (packBits 1 ((List.finRange 32).map fun t => (of t).isSome.toNat)) :: dwordsOf 2 flags

/-- The words of a live v register. -/
def vWords (r : Regs) (i : Fin 64) : List Dword :=
  ((List.finRange 32).map fun t => (r.v[i][t]).val) ++
    dwordsOf 2 (packBits 4 ((List.finRange 32).map fun t => (r.v[i][t]).tag.val)) ++
    [BitVec.ofNat 64 (r.side[i].base.val * 2 ^ 32 + r.side[i].delta.toNat)]

/-- The views of a crew with their places: those of its sync block, and those of its strand. -/
def Crew.placedViews (c : Crew) : List (Nat × Bool × Fin 16 × ViewVal) :=
  (c.task.block.zipIdx.flatMap fun x => match x.1 with
    | .own v => v.map fun y => (x.2, false, y.1, y.2)
    | .joined v => v.map fun y => (x.2, true, y.1, y.2)
    | .kid _ => []) ++ c.r.views.map fun y => (c.task.block.length, false, y.1, y.2)

def viewWords (x : Nat × Bool × Fin 16 × ViewVal) : List Dword :=
  BitVec.ofNat 64 (x.2.2.1.val + x.2.1.toNat * 2 ^ 8 + x.1 * 2 ^ 16) :: padDwords x.2.2.2.image

/-- An enrollment's byte. -/
def enrollByte (valid : Bool) (o : ObjId) : Nat := o.scope.val + o.num * 2 ^ 3 + valid.toNat * 2 ^ 7

/-- The record of a crew that stands at a logical die and core: `strand` its strand number, `pos` its deque position,
`base` the address of its slices, `tiles` the words of the tiles it uses, `grains` its dirty granules. -/
def Crew.record (c : Crew) (die core strand pos : Nat) (base : Dword) (tiles : List Dword) (grains : List (Nat × List Byte)) :
    List Dword :=
  let m := c.imageMask
  let r := c.imageRegs
  let objs := (c.task.gangObj.map (enrollByte false)).toList ++ c.enroll.map fun e => enrollByte true e.obj
  let g := grains.mergeSort fun a b => decide (a.1 ≤ b.1)
  let body := [BitVec.ofNat 64 (strand * 2 ^ 32 + pos), BitVec.ofNat 64 (m.toNat % 2 ^ 64), BitVec.ofNat 64 (m.toNat / 2 ^ 64)] ++
    BitVec.ofNat 64 r.pedigree.length :: dwordsOf 16 (packBits 32 ((r.pedigree.take 32).map fun l => l.rank.toNat * 2 ^ 16 + l.mark.toNat)) ++
    [0x154, 0x155, 0x153, 0x151, 0x152, 0x150, 0x005, 0x006, 0x1B2, 0x161, 0x162, 0x164, 0x168, 0x169].map r.readSys ++
    [BitVec.ofNat 64 (packBits 8 objs), base] ++
    (List.finRange 32).flatMap (threadWords r) ++
    BitVec.ofNat 64 (r.barPhase.toNat * 2 ^ 32 + r.barArrived.toNat) ::
      (List.range 4).map (fun k => ((c.enroll[k]?).map fun e => e.mask.zeroExtend 64).getD 0) ++
    ((List.range 64).flatMap (markWords r .v) ++ (List.range 64).flatMap (markWords r .s) ++ (List.range 8).flatMap (markWords r .q)) ++
    (liveV m).flatMap (vWords r) ++ (liveS m).map r.readS ++
    (liveQ m).flatMap (fun i => dwordsOf 4 (packBits 8 ((List.finRange 32).map fun t => (r.q[i][t]).toNat))) ++
    BitVec.ofNat 64 c.placedViews.length :: c.placedViews.flatMap viewWords ++
    c.tiles.zeroExtend 64 :: tiles ++
    dwordsOf 2 (g.foldl (fun x k => x ||| 2 ^ k.1) 0) ++ g.flatMap fun k => dwordsOf 512 (leNat k.2)
  BitVec.ofNat 64 (2 ^ 56 + c.recordState * 2 ^ 52 + core * 2 ^ 40 + die * 2 ^ 32 + (body.length + 1)) :: body

/-! Reading a crew record -/

/-- Words [o, o + n) of a list; zeros past its end. -/
def wordsAt (ws : List Dword) (o n : Nat) : List Dword := (List.range n).map fun k => ws.getD (o + k) 0
/-- The number that words form, the lowest first. -/
def joinWords (l : List Dword) : Nat := packBits 64 (l.map BitVec.toNat)

/-- A view from its image, by the kind of its reducer (R295). -/
def viewOfImage (kind x : Nat) : ViewVal :=
  let fl := fun o k => bit x (8 * o + k)
  match kind with
  | 1 => .esum32 (BitVec.ofNat 320 x) (fl 40 0) (fl 40 1) (fl 40 2)
  | 2 => .esum64 (BitVec.ofNat 2176 x) (fl 272 0) (fl 272 1) (fl 272 2)
  | 3 => .isum (BitVec.ofNat 128 x)
  | 6 => .app (BitVec.ofNat 64 x) (BitVec.ofNat 64 (x / 2 ^ 64)) (BitVec.ofNat 64 (x / 2 ^ 128)) (BitVec.ofNat 32 (x / 2 ^ 192))
  | 7 => .usr (BitVec.ofNat 512 x)
  | _ => .pick (BitVec.ofNat 32 x) (BitVec.ofNat 32 (x / 2 ^ 32)) (fl 8 4)

/-- The words of a view's image. -/
def viewLength (kind : Nat) : Nat :=
  match kind with
  | 1 => 6 | 2 => 36 | 3 => 4 | 6 => 4 | 7 => 10 | _ => 2

/-- Read `n` views from word `o` on: each with its place, and the word after the last. -/
def readViews (kinds : Fin 16 → Nat) (ws : List Dword) : Nat → Nat → List (Nat × Bool × Fin 16 × ViewVal) × Nat
  | 0, o => ([], o)
  | n + 1, o =>
    let h := wordAt ws o
    let i := fin 16 (h % 16)
    let len := viewLength (kinds i)
    let (l, e) := readViews kinds ws n (o + 1 + len)
    ((bits h 16 32, bit h 8, i, viewOfImage (kinds i) (joinWords (wordsAt ws (o + 1) len))) :: l, e)

/-- A marker list from the words at `o` of `n` registers of a file. -/
def readMarks (ws : List Dword) (f : RegFile) (o n : Nat) : List Mark :=
  (List.range n).flatMap fun k =>
    let on := wordAt ws (o + 3 * k)
    let flags := joinWords (wordsAt ws (o + 3 * k + 1) 2)
    ((List.finRange 32).filter fun t => bit on t.val).map fun t => ⟨f, fin 64 k, t, fin 12 (bits flags (4 * t.val) 4)⟩

/-- The frontier that the thread words describe, with ranks for stamps (R78). -/
def readFrontier (ws : List Dword) (tmask : Lanes) (o : Nat) : List Entry :=
  (laneList tmask).foldl (fun l t =>
    let w := wordAt ws (o + 2 * t.val)
    if bit w 63 then l else joinEntry (BitVec.ofNat 57 w) t (bits w 57 5) false l) []

/-- The place of the `i`-th live register in its file's words. -/
def rankIn {α : Type} [BEq α] (l : List α) (x : α) : Nat := l.idxOf x

/-- A crew from its record (R401), with the bytes of the tiles that it uses: the registers that the record holds, every
other as at task start (R72). The frame (its task, its sync block's shape, its log region), and an unstarted crew, are
the saved ones (log entry 12). -/
def Crew.restore (kinds : Fin 16 → Nat) (redtab : Dword) (keyslot : BitVec 12) (ws : List Dword) (c : Crew) : Crew × List (Nat × List Byte) :=
  if c.phase = .unstarted then (c, [])
  else
  let m := BitVec.ofNat 128 (joinWords (wordsAt ws 2 2))
  let pg := (List.range (min 32 (wordAt ws 4))).map fun k =>
    let x := bits (wordAt ws (5 + k / 2)) (32 * (k % 2)) 32
    (⟨BitVec.ofNat 16 (x / 2 ^ 16), BitVec.ofNat 16 x⟩ : Level)
  let tmask := BitVec.ofNat 32 (wordAt ws 27)
  let vs := liveV m
  let ss := liveS m
  let qs := liveQ m
  let oS := 514 + 35 * vs.length
  let oQ := oS + ss.length
  let oW := oQ + 4 * qs.length
  let (views, oT) := readViews kinds ws (wordAt ws oW) (oW + 1)
  let tiles := (List.range 8).filter fun k => bit (wordAt ws oT) k
  let oG := oT + 1 + 4096 * tiles.length
  let gs := (List.range 128).filter fun k => bit (joinWords (wordsAt ws oG 2)) k
  let at_ := fun p => (views.filter fun x => x.1 == p).map fun x => (x.2.2.1, x.2.2.2)
  let r : Regs := { Regs.reset with
    v := tab 64 fun i => if vs.contains i then
        let o := 514 + 35 * rankIn vs i
        let tags := joinWords (wordsAt ws (o + 32) 2)
        tab 32 fun t => ⟨ws.getD (o + t.val) 0, fin 16 (bits tags (4 * t.val) 4)⟩
      else Vector.replicate 32 VReg.reset
    side := tab 64 fun i => if vs.contains i then
        let x := wordAt ws (514 + 35 * rankIn vs i + 34)
        ⟨fin 64 (bits x 32 6), BitVec.ofNat 32 x⟩
      else ⟨0, 0⟩
    s := tab 64 fun i => if ss.contains i then ws.getD (oS + rankIn ss i) 0 else 0
    q := tab 8 fun i => if qs.contains i then
        let x := joinWords (wordsAt ws (oQ + 4 * rankIn qs i) 4)
        tab 32 fun t => BitVec.ofNat 8 (x / 2 ^ (8 * t.val))
      else Vector.replicate 32 0
    marks := readMarks ws .v 106 64 ++ readMarks ws .s 298 64 ++ readMarks ws .q 490 8
    frontier := readFrontier ws tmask 37
    csp := tab 32 fun t => BitVec.ofNat 32 (wordAt ws (38 + 2 * t.val))
    cdepth := tab 32 fun t => BitVec.ofNat 16 (wordAt ws (38 + 2 * t.val) / 2 ^ 32)
    blocked := laneSet ((List.finRange 32).filter fun t => bit (wordAt ws (37 + 2 * t.val)) 62)
    tmask := tmask
    emask := BitVec.ofNat 32 (wordAt ws 28)
    barPhase := BitVec.ofNat 16 (wordAt ws 101 / 2 ^ 32)
    barArrived := BitVec.ofNat 32 (wordAt ws 101)
    waits := c.r.waits
    inflight := c.r.inflight
    views := at_ c.task.block.length
    repc := BitVec.ofNat 6 (wordAt ws 21)
    srctr := ws.getD 22 0
    fpflags := BitVec.ofNat 6 (wordAt ws 23)
    pivst := ⟨bit (wordAt ws 24) 63, BitVec.ofNat 8 (wordAt ws 24 / 2 ^ 32), BitVec.ofNat 32 (wordAt ws 24)⟩
    rndmode := fin 8 (wordAt ws 25 % 8)
    gang := BitVec.ofNat 4 (wordAt ws 26)
    safecnt := wordAt ws 29
    pedigree := pg
    arenaBase := BitVec.ofNat 57 (wordAt ws 30)
    arenaLim := BitVec.ofNat 57 (wordAt ws 31)
    logBase := c.r.logBase
    logSeq := BitVec.ofNat 32 (wordAt ws 32)
    redtab := redtab
    keyslot := keyslot }
  ({ c with
      r := r
      shadow := r
      tiles := BitVec.ofNat 8 (wordAt ws oT)
      dirty := gs
      saved := gs.map fun k => (k, (wordsAt ws (oG + 2 + 512 * rankIn gs k) 512).flatMap fun x => leBytes 8 x.toNat)
      enroll := c.enroll.zipIdx.map fun e => { e.1 with mask := BitVec.ofNat 32 (wordAt ws (102 + e.2)) }
      task := { c.task with block := c.task.block.zipIdx.map fun b => match b.1 with
        | .own _ => .own (at_ b.2)
        | .joined _ => .joined (at_ b.2)
        | x => x } },
    tiles.map fun k => (k, (wordsAt ws (oT + 1 + 4096 * rankIn tiles k) 4096).flatMap fun x => leBytes 8 x.toNat))

/-- The crew records of an image from word `o` on, by their lengths; `none` where they do not fill it. -/
def splitRecords (ws : List Dword) : Nat → Nat → Option (List (List Dword))
  | 0, o => if o = ws.length then some [] else none
  | n + 1, o =>
    let len := bits (wordAt ws o) 0 32
    if len = 0 || ws.length < o + len then none else (splitRecords ws n (o + len)).map ((ws.drop o).take len :: ·)

end Sys2Proof.Machine
end

