-- ==== Sys2Proof/Machine/Placement.lean ====
section
/-! DEFINITION. Where crews stand (R167, R168, R259 to R268): slots, scratchpad windows, spills to frames, ferrying, the
deques, private slices, and the events that place, steal and resume crews. -/
namespace Sys2Proof.Machine

/-! Crews in slots -/

/-- The slot of a crew on a core. -/
def Crew.slotOn (core : Nat) (c : Crew) : Option Nat :=
  match c.place with
  | .slot k j => if k = core && c.uid != 0 then some j else none
  | _ => none

/-- The crews in the slots of a core. -/
def State.onCore (s : State) (core : Nat) : List Crew := s.crews.filter fun c => (c.slotOn core).isSome

/-- The free slots of a core, lowest first (R260). -/
def State.freeSlots (s : State) (core : Nat) : List Nat :=
  (List.range 16).filter fun j => !(s.onCore core).any fun c => c.slotOn core == some j

/-- A crew that waits for others and may be spilled (R260): parked, or suspended at a SYNC or at its task end. -/
def Crew.idle (c : Crew) : Bool :=
  match c.phase with
  | .parked | .suspended | .ending => true
  | _ => false

/-- The older of two crews by the moment they parked; the lower slot on a tie (R260). -/
def olderOf (core : Nat) (x : Option Crew) (c : Crew) : Option Crew :=
  match x with
  | none => some c
  | some d =>
    if c.task.since < d.task.since || (c.task.since == d.task.since && decide ((c.slotOn core).getD 16 < (d.slotOn core).getD 16))
      then some c else some d

/-- The oldest parked or suspended crew of a core, other than one. -/
def State.oldestIdle (s : State) (core except : Nat) : Option Crew :=
  ((s.onCore core).filter fun c => c.idle && c.uid != except).foldl (olderOf core) none

/-- The moment at which a crew parks or is suspended (R260). -/
def State.stamp (uid : Nat) (s : State) : State :=
  let (s, t) := s.freshId
  s.mapCrew uid fun c => { c with task := { c.task with since := t } }

/-! What a crew carries (R84, R86, R263) -/

/-- Register files with the registers that a live mask does not mark set as at task start (R51, R84). Markers go with
their registers. -/
def Regs.carry (live : Option (BitVec 128)) (r : Regs) : Regs :=
  match live with
  | none => r
  | some m =>
    let vl := fun (i : Fin 64) => m.getLsbD i.val
    let sl := fun (i : Fin 64) => decide (i.val < 8) || m.getLsbD (56 + i.val)
    let ql := fun (i : Fin 8) => i == 0 || m.getLsbD (119 + i.val)
    { r with
      v := tab 64 fun i => if vl i then r.v[i] else Vector.replicate 32 VReg.reset
      side := tab 64 fun i => if vl i then r.side[i] else ⟨0, 0⟩
      s := tab 64 fun i => if sl i then r.s[i] else 0
      q := tab 8 fun i => if ql i then r.q[i] else Vector.replicate 32 0
      marks := r.marks.filter fun k => match k.file with
        | .v => vl k.num
        | .s => sl k.num
        | .q => ql ⟨k.num.val % 8, by omega⟩ }

/-- Registers and shadow both. -/
def Crew.mapBoth (f : Regs → Regs) (c : Crew) : Crew := { c with r := f c.r, shadow := f c.shadow }

/-! Windows (R167, R168) -/

/-- The scratchpad bytes that a launch asks for per crew. -/
def State.spmReq (s : State) (launch : Nat) : Nat :=
  match s.launch? launch with
  | some l => l.packet.spmreq
  | none => 0

/-- The lowest aligned offset of a core's scratchpad where `n` bytes are free. -/
def State.freeWindow (s : State) (core n : Nat) : Option Nat :=
  let used := (s.onCore core).filterMap Crew.window
  let fits := fun o => decide (o + n ≤ 2 ^ 19) && used.all fun w => decide (o + n ≤ w.1) || decide (w.1 + w.2 ≤ o)
  let starts := (0 :: used.map fun w => w.1 + w.2).filter fits
  match starts with
  | [] => none
  | x :: xs => some (xs.foldl min x)

/-- Clear bytes of memory whose unlisted value is zero. -/
def State.clearKeys (lo n : Nat) (s : State) : State :=
  { s with mem := s.mem.filter fun c => !(decide (lo ≤ c.1) && decide (c.1 < lo + n)) }

/-- The contents of a crew's dirty granules, for a frame, a ferry or an image (R168, R399). -/
def State.windowBytes (s : State) (c : Crew) : List (Nat × List Byte) :=
  match c.place, c.window with
  | .slot core _, some (base, size) => c.dirty.map fun g => (g, s.bytes (keySpad core (base + 4096 * g)) (min 4096 (size - 4096 * g)))
  | _, _ => c.saved

/-! Records and the spill region (R260, R267, R298, R399, R411) -/

/-- The entries of a deque, the oldest first. -/
def Core.entries (c : Core) : List Nat := c.spill ++ c.deque

/-- The logical place that a record names (R399): for a hinted child its die, and core 0. -/
def State.recordPlace (s : State) (c : Crew) : Nat × Nat :=
  match c.place with
  | .hinted d => (((List.range 8).find? fun i => ((s.hub.regs.coresOf i).head?.map fun k => k / 36) == some d).getD 0, 0)
  | _ => s.hub.regs.logical c.core

/-- A crew's record. -/
def State.crewRecord (s : State) (l : Launch) (c : Crew) : List Dword :=
  let (die, core) := s.recordPlace c
  let strand := ((l.strands.find? fun t => t.pedigree == c.r.pedigree).map Strand.num).getD 0
  let es := (s.coreAt c.core).entries
  let pos := if es.contains c.uid then es.idxOf c.uid + 1 else 0
  let base := (c.task.group.map fun g => BitVec.ofNat 64 (l.sliceVa g 0 0)).getD 0
  let tiles := ((List.range 8).filter fun k => c.tiles.getLsbD k).flatMap fun k =>
    dwordsOf 4096 (leNat (s.bytes (keyTile c.core (k * 2 ^ 15)) (2 ^ 15)))
  c.record die core strand pos base tiles (s.windowBytes c)

/-- A stream with its length before it (R400). -/
def frameBytes (ws : List Dword) : List Byte := let b := encodeImage ws; leBytes 8 b.length ++ b

/-- An entry of a deque spill region (R267). -/
def Launch.dequeEntry (l : Launch) (c : Crew) : List Byte :=
  let kind := if c.task.gang then 2 else if c.task.range.isSome then 1 else 0
  let place := match c.place with
    | .slot _ j => j
    | _ => ((l.frameOf c.uid .crew).map fun f => (l.desc.spillbase.toNat + f.off) % 2 ^ 57).getD 0 + 16
  leBytes 8 (place + 32 * kind) ++ leBytes 4 0 ++ leBytes 4 l.tag.toNat

/-- The deque spill region of a core holds, for each launch, its entries among those that overflowed, the oldest first. -/
def State.writeDeque (core : Nat) (s : State) : State :=
  let cs := (s.coreAt core).spill.filterMap s.crew?
  let (d, j) := s.hub.regs.logical core
  s.sched.launches.foldl (fun s l =>
    let bytes := (cs.filter fun c => c.task.launch == l.uid).flatMap l.dequeEntry
    (s.pokeVa l bytes.length (l.desc.spillbase.toNat + 2 ^ 14 * (36 * d + j)) bytes).1) s

/-- The views of a crew's sync block leave the view store for the spill region as its strand parks or is suspended (R298). -/
def State.storeBlock (uid : Nat) (s : State) : State :=
  match s.crew? uid with
  | none => s
  | some c =>
    let s := s.mapCore c.core fun k => { k with viewStore := k.viewStore.filter fun x => x.1 != uid }
    let s := s.freeFrames c.task.launch uid (· != .crew)
    match c.placedViews.flatMap fun x => x.2.2.2.image with
    | [] => s
    | b => (s.writeFrame c.task.launch uid .block b).1

/-- A crew leaves its slot and window for a place, keeping its window's contents (R168). -/
def State.vacate (uid : Nat) (p : Place) (s : State) : State :=
  match s.crew? uid with
  | none => s
  | some c =>
    let saved := s.windowBytes c
    s.mapCrew uid fun c => { c with place := p, window := none, saved := saved }

/-- What a core has seen of the STREAM lines on their way home, a crew that moves from it to another core still sees (R216, R217). -/
def State.ferrySeen (old new : Nat) (s : State) : State :=
  { s with streams := s.streams.map fun x =>
      if x.seen.contains old && !x.seen.contains new then { x with seen := x.seen ++ [new] } else x }

/-- The registers that a crew's continuation keeps as it is spilled or ferried (R260, R263): those of its spawn's live-mask record;
every one where the record cannot be fetched any more. -/
def State.carryLive (uid core : Nat) (s : State) : State :=
  match s.crew? uid with
  | none => s
  | some c => match c.task.live with
    | none => s
    | some _ => match s.fetchWords { c with place := .waiting core } c.task.liveAt.toNat 1 4 with
      | (s, .fault _ _ _) => s.mapCrew uid fun c => { c with task := { c.task with live := none } }
      | (s, .ok ws) => s.mapCrew uid fun c =>
        { c.mapBoth (Regs.carry (some (liveMask ws))) with task := { c.task with live := some (liveMask ws) } }

/-- The frame of a crew in its launch's spill region holds its record, as far as there is room (log entry 74). -/
def State.writeCrew (uid core : Nat) (s : State) : State :=
  match s.crew? uid with
  | none => s
  | some c => match s.launch? c.task.launch with
    | none => s
    | some l => ((s.writeFrame l.uid uid .crew (frameBytes (s.crewRecord l c))).1).writeDeque core

/-- A crew is spilled to a frame of its core (R260). -/
def State.spillCrew (uid core : Nat) (s : State) : State :=
  ((s.vacate uid (.frame core)).carryLive uid core).writeCrew uid core

/-- Bytes of a core scratchpad are zero from now on. -/
def State.fillKeys (lo n : Nat) (s : State) : State :=
  let s := s.clearKeys lo n
  { s with filled := if n = 0 then s.filled else (lo, n) :: s.filled.filter fun f => !(decide (lo ≤ f.1) && decide (f.1 + f.2 ≤ lo + n)) }

/-- A crew takes a slot and a window whose bytes are zero but for what it brings (R167, R168). -/
def State.occupy (uid core slot base size : Nat) (s : State) : State :=
  match s.crew? uid with
  | none => s
  | some c =>
    let s := s.fillKeys (keySpad core base) size
    let s := c.saved.foldl (fun s g => s.putBytes (cellsAt (keySpad core (base + 4096 * g.1)) (g.2.take (size - 4096 * g.1)))) s
    (s.freeFrames c.task.launch uid (· == .crew)).mapCrew uid fun c =>
      { c.mapBoth (fun r => { r with spmBase := BitVec.ofNat 12 (base / 128), spmSize := BitVec.ofNat 13 (size / 128) }) with
        place := .slot core slot
        window := if size = 0 then none else some (base, size)
        saved := [] }

/-- Place a crew in the lowest free slot of a core, where its window fits now. A merge routine has no window. -/
def State.placeNow (uid core : Nat) (s : State) : Option State :=
  match s.crew? uid, s.freeSlots core with
  | some c, j :: _ =>
    let n := if c.task.kind = .routine then 0 else s.spmReq c.task.launch
    (s.freeWindow core n).map fun base => s.occupy uid core j base n
  | _, _ => none

/-- Place a crew on a core (R168, R260): spilling parked and suspended crews, the oldest first and the parent last, until
a slot and a window are free; else it waits. -/
def State.tryPlace (uid core parent : Nat) : Nat → State → State
  | 0, s => s
  | fuel + 1, s =>
    match s.placeNow uid core with
    | some s => s
    | none => match s.oldestIdle core parent with
      | some c => (s.spillCrew c.uid core).tryPlace uid core parent fuel
      | none => match s.crew? parent with
        | some p => if p.idle && (p.slotOn core).isSome then (s.spillCrew parent core).tryPlace uid core parent fuel else s
        | none => s

/-- Enough rounds of spilling for a core of sixteen slots. -/
def placeFuel : Nat := 20

/-- A crew waits for a slot of a core, and takes one where it can (R260). -/
def State.placeOn (uid core parent : Nat) (s : State) : State :=
  (s.vacate uid (.waiting core)).tryPlace uid core parent placeFuel

/-- The crew stands in a slot. -/
def State.inSlot (s : State) (uid : Nat) : Bool :=
  match s.crew? uid with
  | some c => (match c.place with | .slot _ _ => true | _ => false)
  | none => false

/-- A parked or suspended crew goes on where it stands in a slot. -/
def State.resumeIn (uid : Nat) (s : State) : State :=
  if s.inSlot uid then s.mapCrew uid fun c => { c with phase := .run, task := { c.task with live := none, gang := false } } else s

/-- A continuation resumes on a core: in place, or reloaded into a slot there (R261, R264). -/
def State.resumeOn (uid core : Nat) (s : State) : State :=
  match s.crew? uid with
  | none => s
  | some c => (if (c.slotOn core).isSome then s else s.placeOn uid core 0).resumeIn uid

/-- A crew of a task that has ended leaves the machine. -/
def State.removeCrew (uid : Nat) (s : State) : State :=
  let s := match s.crew? uid with
    | some c => (s.freeFrames c.task.launch uid fun _ => true).mapCore c.core fun k =>
      { k with viewStore := k.viewStore.filter fun x => x.1 != uid }
    | none => s
  if s.focus.uid = uid then { s with focus := Crew.empty, pool := s.pool.filter fun c => c.uid != uid }
  else { s with pool := s.pool.filter fun c => c.uid != uid }

/-! Deques (R261, R267) -/

/-- Push a continuation at the bottom; a full deque first moves its 32 oldest entries to the spill region. -/
def State.pushDeque (uid core : Nat) (s : State) : State :=
  if (s.coreAt core).deque.length < 64 then s.mapCore core fun c => { c with deque := c.deque ++ [uid] }
  else (s.mapCore core fun c =>
    { c with spill := c.spill ++ c.deque.take 32, deque := c.deque.drop 32 ++ [uid] }).writeDeque core

def State.dropEntry (uid core : Nat) (s : State) : State :=
  (s.mapCore core fun c => { c with spill := c.spill.filter (· != uid), deque := c.deque.filter (· != uid) }).writeDeque core

/-- A parked continuation may go on: its launch runs, and its gang has ended (R271, R397). -/
def State.poppable (s : State) (uid : Nat) : Bool :=
  match s.crew? uid with
  | some c => c.phase == .parked && c.task.gangLeft == 0 && !s.stopping c
  | none => false

/-- The core pops its newest entry that may go on, and resumes it: a gang parent whose members have not all ended is passed over (R261,
log entry 105). -/
def State.popDeque (core : Nat) (s : State) : State :=
  match (s.coreAt core).entries.reverse.find? s.poppable with
  | some uid => (s.dropEntry uid core).resumeOn uid core
  | none => s

/-! New crews (R51, R255, R259) -/

/-- A task's first registers. -/
def SpawnReq.regs (q : SpawnReq) (priv : Nat) (redtab logBase : Dword) (keyslot : BitVec 12) : Regs :=
  { Regs.reset with
    s := tab 64 fun i => if i.val = 0 || q.range.isSome then 0 else q.args.getD (i.val - 1) 0
    frontier := [⟨q.entry, q.threads, 0, false⟩]
    csp := Vector.replicate 32 (BitVec.ofNat 32 priv)
    tmask := q.threads
    pedigree := q.pedigree
    rndmode := q.rndmode
    arenaBase := q.arenaBase
    arenaLim := q.arenaLim
    redtab := redtab
    logBase := logBase
    keyslot := keyslot }

/-- A new crew that waits on a core. -/
def SpawnReq.crew (q : SpawnReq) (uid launch core : Nat) (kind : TaskKind) (parent : Option Nat) (leaf : Option Nat) (r : Regs) : Crew :=
  { Crew.empty with
    uid := uid
    r := r
    shadow := r
    phase := .unstarted
    place := .waiting core
    task := { Task.none with
      launch := launch, kind := kind, parent := parent, entry := q.entry, args := q.args, atomic := q.atomic
      range := q.range.map fun x => ⟨x.1, x.2.1, x.2.2.1, x.2.2.2, leaf⟩ } }

/-- Private bytes per thread of a launch. -/
def State.privReq (s : State) (launch : Nat) : Nat := ((s.launch? launch).map fun l => l.packet.privreq).getD 0

/-- A child of a crew is created on a core: it joins the parent's sync block, whose strand so far closes (R259, R296). -/
def State.addChild (p : Crew) (q : SpawnReq) (kind : TaskKind) (core : Nat) (leaf : Option Nat) (s : State) : State × Nat :=
  let (s, uid) := s.freshId
  let r := q.regs (s.privReq p.task.launch) p.r.redtab p.r.logBase p.r.keyslot
  let child := q.crew uid p.task.launch core kind (some p.uid) leaf r
  let s := { s with pool := s.pool ++ [child] }
  (s.mapCrew p.uid fun p => { p with
    r := { p.r with views := [] }
    task := { p.task with kids := p.task.kids ++ [⟨uid, false, 0⟩], block := p.task.block ++ [.own p.r.views, .kid uid] } }, uid)

/-- The parent parks (R259). -/
def State.park (uid core : Nat) (live : Option (BitVec 128)) (liveAt : Addr) (s : State) : State :=
  (((s.mapCrew uid fun c => { c with phase := .parked, task := { c.task with live := live, liveAt := liveAt } }).stamp uid).storeBlock
    uid).pushDeque uid core

/-- The physical die that a hint names, where the hint counts (R266). -/
def State.hintDie (s : State) (p : Crew) (die : Option Nat) : Option Nat :=
  die.bind fun h =>
    if (s.hub.regs.logical p.core).1 = h || !(s.dieset p.task.launch).getLsbD h then none
    else (s.hub.regs.coresOf h).head?.bind fun k =>
      if ((s.dies[k / 36]?).map fun d => d.hints.length).getD 64 < 64 then some (k / 36) else none

/-- SPAWN and SPAWNR in step 6 (R259, R266). -/
def State.spawnStep6 (uid : Nat) (q : SpawnReq) (die : Option Nat) (s : State) : State :=
  match s.crew? uid with
  | none => s
  | some p =>
    let core := p.core
    let (s, kid) := s.addChild p q .child core none
    match s.hintDie p die with
    | some d =>
      { s with dies := s.dies.modify d fun x => { x with hints := x.hints ++ [kid] } }.mapCrew kid fun c => { c with place := .hinted d }
    | none => (s.park uid core q.live q.liveAt).placeOn kid core uid

/-! Private slices (R268) -/

/-- The lowest free group of a launch's pool; groups are free of need where no slice is asked for. -/
def Launch.freeGroup (l : Launch) : Option Nat :=
  let size := 32 * l.packet.privreq
  let g := ((List.range (l.groups.length + 1)).find? fun g => !l.groups.contains g).getD 0
  if (g + 1) * size ≤ l.desc.privsize then some g else none

/-- The pool of a launch has fewer free groups than `n` tasks take. -/
def State.poolShort (s : State) (launch n : Nat) : Bool :=
  match s.launch? launch with
  | some l => l.packet.privreq != 0 && decide (l.desc.privsize / (32 * l.packet.privreq) < l.groups.length + n)
  | none => false

/-- A start waits for slices (R268): the event log records it once. -/
def State.slicesWait (uid : Nat) (s : State) : State :=
  match s.crew? uid with
  | none => s
  | some c =>
    if c.task.waited then s
    else (s.event 5 0 .slicesWait (s.queueOf c.task.launch)
      (BitVec.ofNat 64 (((s.launch? c.task.launch).map Launch.number).getD 0))).mapCrew uid fun c =>
        { c with task := { c.task with waited := true } }

/-- A placed crew starts: it takes its slices; `none` where the pool is empty. -/
def State.startTask (uid : Nat) (s : State) : Option State :=
  match s.crew? uid with
  | none => none
  | some c => match s.launch? c.task.launch with
    | none => none
    | some l =>
      if l.packet.privreq = 0 then some (s.mapCrew uid fun c => { c with phase := .run })
      else l.freeGroup.map fun g =>
        (s.mapLaunch l.uid fun l => { l with groups := g :: l.groups }).mapCrew uid fun c =>
          { c with phase := .run, task := { c.task with group := some g } }

/-- The crew that R293 names as its launch's first root crew. -/
def Crew.firstRoot (c : Crew) : Bool :=
  match c.task.kind with
  | .root => true
  | .resident => c.r.pedigree.headD ⟨1, 0⟩ == ⟨0, 0⟩
  | _ => false

/-- TASK_START (R255, R268): an unstarted crew in a slot starts; one that finds no slices waits, and the wait is recorded
once. While the reducer table is unchecked only the first root starts (R293). -/
def State.taskStart (uid : Nat) (s : State) : State :=
  match s.crew? uid with
  | none => s
  | some c => match s.launch? c.task.launch with
    | none => s
    | some l =>
      if c.phase != .unstarted || !s.inSlot uid || (l.stopping && c.task.kind != .routine) || (l.holding && !c.firstRoot) then s
      else
        let s := if s.poolShort l.uid 1 then s.refreshDesc l.uid else s
        (s.startTask uid).getD (s.slicesWait uid)

def execTaskStart (c : Nat) (s : State) : Out := .next (s.taskStart c)

/-! Waiting crews (R168, R260, R402) -/

/-- An earlier child of a frame at its SYNC or end that waits or runs on the core keeps a withdrawn child waiting
(R266). -/
def State.elderRuns (s : State) (c : Crew) (core : Nat) : Bool :=
  match if c.task.kind == .routine then none else c.task.parent.bind s.crew? with
  | none => false
  | some p => (p.phase == .suspended || p.phase == .ending) &&
    ((p.task.kids.takeWhile fun k => k.crew != c.uid).filter fun k => !k.ended).any fun k =>
      match s.crew? k.crew with
      | some e => e.core == core
      | none => false

/-- A core that an LCT entry names (R394). -/
def State.coreOn (s : State) (core : Nat) : Bool := (s.hub.regs.entryOf core).isSome

/-- A crew of a launch that is being stopped does not start; a merge routine does, since it is never pre-empted (R301). -/
def State.stopsNow (s : State) (c : Crew) : Bool := s.stopping c && c.task.kind != .routine

/-- Place several crews at once, or none (R402): spilling parked and suspended crews (R168). -/
def State.placeAll (l : List (Nat × Nat)) (s : State) : State :=
  let s' := l.foldl (fun s x => s.tryPlace x.1 x.2 0 placeFuel) s
  if l.all fun x => s'.inSlot x.1 then s' else s

/-- The crews of a RESIDENT launch that wait, with their cores. -/
def State.residents (s : State) (launch : Nat) : List (Nat × Nat) :=
  (s.crews.filter fun c => c.task.launch == launch && c.task.kind == .resident && c.phase == .unstarted).filterMap fun c =>
    match c.place with
    | .waiting k => some (c.uid, k)
    | _ => none

/-- WINDOW_PLACEMENT: a waiting crew takes a slot and a window. The crews of a RESIDENT launch are placed together; a
continuation goes on where it was due. -/
def State.windowPlacement (uid : Nat) (s : State) : State :=
  match s.crew? uid with
  | none => s
  | some c => match c.place with
    | .waiting core =>
      if s.stopsNow c || c.task.gangObj.isSome || !s.coreOn core then s
      else if c.task.kind = .resident && c.phase == .unstarted then s.placeAll (s.residents c.task.launch)
      else if c.phase == .unstarted && s.elderRuns c core then s
      else
        let s' := s.tryPlace uid core (c.task.parent.getD 0) placeFuel
        if c.phase == .parked then s'.resumeIn uid else s'
    | _ => s

def execWindowPlacement (c : Nat) (s : State) : Out := .next (s.windowPlacement c)

/-! Range frames (R269, R270) -/

/-- leaves(n) of R269, over counts of the sizes m and m + 1. -/
def leavesGo (grain : Nat) : Nat → Nat → Nat → Nat → Nat
  | 0, _, c0, c1 => c0 + c1
  | fuel + 1, m, c0, c1 =>
    if m + 1 ≤ grain then c0 + c1
    else if m ≤ grain then c0 + 2 * c1
    else if m % 2 = 0 then leavesGo grain fuel (m / 2) (2 * c0 + c1) c1
    else leavesGo grain fuel (m / 2) c0 (c0 + 2 * c1)
def leaves (grain n : Nat) : Nat := leavesGo grain 66 n 1 0

/-- The core to which a RANGE launch deals a leaf (R270). -/
def dealCore : List (Nat × Nat) → Nat → Option Nat
  | [], _ => none
  | (k, n) :: l, leaf => if leaf < n then some k else dealCore l (leaf - n)

/-- The core to which a piece is dealt; a crew's own core where a leaf is none. -/
def State.leafCore (s : State) (c : Crew) (leaf : Option Nat) : Nat :=
  (leaf.bind fun n => ((s.launch? c.task.launch).map Launch.deal).bind fun d => dealCore d n).getD c.core

/-- The pieces that a range frame leads to: the first one and how many. -/
def Crew.pieces (c : Crew) : Option (Nat × Nat) :=
  c.task.range.bind fun x => x.leaf.map fun n => (n, leaves x.grain (x.hi - x.lo))

/-- The pieces that a launch deals to a core: the first one and how many. -/
def Launch.dealt (l : Launch) (core : Nat) : Nat × Nat :=
  let before := (l.deal.takeWhile fun d => d.1 != core).map (·.2)
  (before.sum, ((l.deal.find? fun d => d.1 == core).map (·.2)).getD 0)

/-- Some frame of a launch still leads to a piece that is dealt to a core, below a number. -/
def State.pieceLeft (s : State) (l : Launch) (core below : Nat) : Bool :=
  let (o, n) := l.dealt core
  s.crews.any fun c => c.task.launch == l.uid && match c.pieces with
    | some (a, k) => decide (max a o < min (a + k) (min (o + n) below))
    | none => false

/-- A core has pieces left to run (R270). -/
def State.piecesLeft (s : State) (core : Nat) : Bool := s.sched.launches.any fun l => s.pieceLeft l core (2 ^ 65)

/-- A frame whose first piece is not the next one of its core waits (R270). -/
def State.pieceWaits (s : State) (c : Crew) : Bool :=
  match c.pieces, s.launch? c.task.launch with
  | some (a, _), some l => s.pieceLeft l c.core a
  | _, _ => false

/-- A crew moves to another core at a split, and goes on there (R270). -/
def State.moveRange (uid core : Nat) (s : State) : State :=
  ((s.mapCrew uid fun c => { c with phase := .parked }).placeOn uid core 0).resumeIn uid

/-- The left half of a range frame becomes a child frame, and the frame keeps the right half (R269, R276). -/
def State.splitRange (c : Crew) (x : RangeRec) (s : State) : State :=
  let mid := x.lo + (x.hi - x.lo + 1) / 2
  let a := splitArena x.split c.r.arenaBase c.r.arenaLim
  let q : SpawnReq := ⟨c.task.entry, c.task.args, c.r.tmask, c.r.pedigree ++ [⟨0, 0⟩], c.r.rndmode, a.2.1, a.2.2, c.task.atomic,
    some (x.lo, mid, x.grain, x.split), none, 0⟩
  let next := x.leaf.map fun n => n + leaves x.grain (mid - x.lo)
  let core := c.core
  let kidCore := s.leafCore c x.leaf
  let ownCore := s.leafCore c next
  let (s, kid) := s.addChild c q .child kidCore x.leaf
  let s := s.mapCrew c.uid fun c => { c with
    r := { c.r.newStrand (afterSpawn c.r.pedigree) with arenaLim := a.1.2 }
    task := { c.task with range := some { x with lo := mid, leaf := next } } }
  if ownCore ≠ core then (s.moveRange c.uid ownCore).placeOn kid kidCore 0
  else if kidCore ≠ core then s.placeOn kid kidCore 0
  else (s.park c.uid core none 0).placeOn kid core c.uid

/-- One step of a range frame that runs (R269): it ends, splits, or begins its leaf, which waits for the earlier pieces of its core.
A split that the pedigree has no room for raises PEDOVF. -/
def State.rangeStep (c : Crew) (x : RangeRec) (s : State) : State :=
  if s.pieceWaits c && decide (x.hi - x.lo ≤ x.grain) then s
  else if x.hi ≤ x.lo then
    s.mapCrew c.uid fun c => { c with
      r := { c.r with emask := c.r.tmask, frontier := [] }, task := { c.task with range := none } }
  else if x.hi - x.lo ≤ x.grain then
    s.mapCrew c.uid fun c => { c with r := leafRegs x c.task.args c.r, task := { c.task with range := none } }
  else s.splitRange c x

/-! Gangs (R271, R286) -/

/-- The object of a SPAWNG (R286). -/
def gangObject (core : Nat) (raft : Bool) (b : Fin 8) : ObjId := objectAt core (if raft then 2 else 1) b.val

/-- The core of member `i` of a gang. -/
def State.gangCore (s : State) (core : Nat) (raft : Bool) (i : Nat) : Nat :=
  if raft then
    let ms := s.raftMembers (core / 4)
    ms.getD (i % ms.length) core
  else core

/-- Create member `i` of a gang and place it; it is not in a slot where none can be freed. -/
def State.addMember (p : Crew) (q : SpawnReq) (raft : Bool) (obj : ObjId) (i : Nat) (s : State) : State × Nat :=
  let core := s.gangCore p.core raft i
  let args := (List.range 7).map fun k => if k = 6 then BitVec.ofNat 64 i else q.args.getD k 0
  let q' := { q with args := args, pedigree := q.pedigree ++ [⟨BitVec.ofNat 16 i, 0⟩, ⟨0, 0⟩] }
  match s.crew? p.uid with
  | none => (s, 0)
  | some p' =>
    let (s, uid) := s.addChild p' q' .member core none
    ((s.mapCrew uid fun c => { c with task := { c.task with gangObj := some obj } }), uid)

/-- Create every member. -/
def addMembers (p : Crew) (q : SpawnReq) (raft : Bool) (obj : ObjId) : List Nat → State → State × List Nat
  | [], s => (s, [])
  | i :: is, s =>
    let (s, uid) := s.addMember p q raft obj i
    let (s, us) := addMembers p q raft obj is s
    (s, uid :: us)

/-- Start the members of a gang that are all resident: slices for each, and enrollment in the object, whose EXPECT is 32
for each member (R271, R286, R321). -/
def startGang (obj : ObjId) : List Nat → State → Option State
  | [], s => some s
  | uid :: us, s => (s.startTask uid).bind fun s =>
      startGang obj us ((s.enrollIn obj uid).mapCrew uid fun c => { c with task := { c.task with gangObj := none } })

/-- The chunk of a SPAWNG is committed: its crew is the parent of a gang of `m`, and the flags of completed TEN commands join
FPFLAGS (R271, R356). -/
def Crew.gangParent (m : Nat) (c : Crew) : Crew :=
  { c with
    chunk := Chunk.empty
    replay := Replay.none
    task := { c.task with gangLeft := m, gang := true, waited := false }
    r := { c.r with fpflags := c.r.fpflags ||| c.tenFp }
    tenFp := 0 }

/-- All the members take slots, spilling parked and suspended crews, the parent included; then they start together. -/
def State.startMembers (launch parent : Nat) (obj : ObjId) (uids : List Nat) (s : State) : Option State :=
  if (s.barrier obj).v then none
  else
    let s' := uids.foldl (fun s u => match s.crew? u with
      | some c => s.tryPlace u c.core parent placeFuel
      | none => s) s
    if uids.all s'.inSlot then
      startGang obj uids (s'.claim obj (s'.ownerTag launch) (BitVec.ofNat 20 (32 * uids.length)))
    else none

/-- GANG_START: the first step-6 action of crew `c` is a SPAWNG whose slots and object are free; the parent parks. A gang
whose members already wait, from a resumed context, starts likewise. -/
def State.gangStart (uid : Nat) (s : State) : State :=
  match s.crew? uid with
  | none => s
  | some p => match p.phase, p.chunk.acts with
    | .acting, [⟨_, .gang q m raft b⟩] =>
      let s := if s.poolShort p.task.launch m then s.refreshDesc p.task.launch else s
      let s := if s.poolShort p.task.launch m then s.slicesWait uid else s
      let obj := gangObject p.core raft b
      let (s', us) := addMembers p q raft obj (List.range m) s
      let s' := s'.mapCrew uid (Crew.gangParent m)
      ((s'.park uid p.core q.live q.liveAt).startMembers p.task.launch uid obj us).getD s
    | .parked, _ =>
      let us := (p.task.kids.filter fun k => !k.ended).map Kid.crew
      let waiting := us.filter fun u => ((s.crew? u).bind fun c => c.task.gangObj).isSome
      match (waiting.head?.bind s.crew?).bind fun c => c.task.gangObj with
      | some obj =>
        if s.stopping p then s
        else
          let s := if s.poolShort p.task.launch waiting.length then s.refreshDesc p.task.launch else s
          let s := if s.poolShort p.task.launch waiting.length then s.slicesWait uid else s
          (s.startMembers p.task.launch uid obj waiting).getD s
      | none => s
    | _, _ => s

def execGangStart (c : Nat) (s : State) : Out := .next (s.gangStart c)

/-! Sync blocks (R264, R296) -/

/-- The reducers that an item has touched. -/
def BlockItem.views : BlockItem → Views
  | .own v => v
  | .joined v => v
  | .kid _ => []

/-- A reducer that is touched in two entries of a block. -/
def twiceTouched (b : List BlockItem) : Bool :=
  (List.finRange 16).any fun i => decide (2 ≤ (b.filter fun x => (x.views.get i).isSome).length)

/-- The views of a sync block whose children have ended and whose merges are made. -/
def Task.frameDone (t : Task) : Option Views :=
  if t.kids.all Kid.ended && !twiceTouched t.block then some (t.block.flatMap BlockItem.views) else Option.none

/-- Close a frame's strand and withdraw its hinted children (R264, R266). -/
def State.closeBlock (uid : Nat) (phase : Phase) (s : State) : State :=
  match s.crew? uid with
  | none => s
  | some c =>
    let core := c.core
    let hinted := (c.task.kids.filter fun k => !k.ended).filterMap fun k => (s.crew? k.crew).bind fun d =>
      match d.place with
      | .hinted die => some (d.uid, die)
      | _ => none
    let s := hinted.foldl (fun s h =>
      { s with dies := s.dies.modify h.2 fun x => { x with hints := x.hints.filter (· != h.1) } }.mapCrew h.1 fun d =>
        { d with place := .waiting core }) s
    ((s.mapCrew uid fun c => { c with
      phase := phase
      r := { c.r with views := [] }
      task := { c.task with block := c.task.block ++ [.own c.r.views] } }).stamp uid).storeBlock uid

/-- The flags and views of a finished block join the frame (R264). -/
def Crew.joinBlock (v : Views) (c : Crew) : Crew :=
  { c with
    r := { c.r with views := v, fpflags := c.task.kids.foldl (fun f k => f ||| k.fp) c.r.fpflags }
    task := { c.task with kids := [], block := [] } }

/-- A posted fault breaks off the wait of a frame, which its handler's return takes up again. -/
def Crew.breakOff (c : Crew) : Crew := { c with task := { c.task with merge := c.task.merge.orElse fun _ => some (c.uid, 0) } }

/-- FRAME_READY (R264): a suspended frame whose children have ended and whose views are merged goes on, reloaded where it
was spilled; so does one to which a fault is to be delivered, after whose handler it waits again (R301, R386, R388). -/
def State.frameReady (uid : Nat) (s : State) : State :=
  match s.crew? uid with
  | none => s
  | some c =>
    if s.stopping c then s
    else match c.phase with
      | .suspended => match c.post, c.task.frameDone with
        | _ :: _, _ => (s.mapCrew uid Crew.breakOff).resumeOn uid c.core
        | [], some v =>
          let s' := s.resumeOn uid c.core
          if s'.inSlot uid then s'.mapCrew uid (Crew.joinBlock v) else s'
        | [], none => s
      | .ending => if !c.post.isEmpty then (s.mapCrew uid Crew.breakOff).resumeOn uid c.core else s
      | _ => s

def execFrameReady (c : Nat) (s : State) : Out := .next (s.frameReady c)

/-! Ends of tasks (R265) -/

/-- A ready frame waits on the core (R264). -/
def State.readyFrame (s : State) (core : Nat) : Bool :=
  s.crews.any fun c => c.uid != 0 && c.phase == .suspended && c.core == core && c.task.frameDone.isSome && !s.stopping c

/-- A child's end reaches its parent's sync block (R265, R271). -/
def Crew.childEnds (kid : Nat) (fp : BitVec 6) (v : Views) (member : Bool) (p : Crew) : Crew :=
  { p with task := { p.task with
      kids := p.task.kids.map fun k => if k.crew = kid then ⟨kid, true, fp⟩ else k
      block := p.task.block.map fun b => if b = .kid kid then .joined v else b
      gangLeft := if member then p.task.gangLeft - 1 else p.task.gangLeft } }

/-- The first root of a launch has ended with its reducer table unchecked: the launch ends, and its other crews never start (R293). -/
def State.dropHeld (c : Crew) (s : State) : State :=
  match s.launch? c.task.launch with
  | some l =>
    if l.holding && c.firstRoot then
      ((s.crews.filter fun x => x.uid != 0 && x.uid != c.uid && x.task.launch == l.uid).map Crew.uid).foldl (fun s u => s.removeCrew u) s
    else s
  | none => s

/-- The parent of a gang whose last member has ended is popped on its own core (R271). -/
def State.gangOver (s : State) (c : Crew) : Option Crew :=
  if c.task.kind = .member then (c.task.parent.bind s.crew?).filter fun p => p.phase == .parked && p.task.gangLeft == 0 && !s.stopping p
  else none

/-- The task of a crew is over: its slot, window, slices and enrollments are free; its flags and views go to its parent or
its launch; the core pops its deque unless a frame is ready (R261, R264, R265); the last member of a gang lets the parent go on, on
the core that spawned it (R271). -/
def State.finishTask (c : Crew) (v : Views) (s : State) : State :=
  let core := c.core
  let fp := c.task.kids.foldl (fun f k => f ||| k.fp) (c.r.fpflags ||| c.tenFp)
  let s := s.leaveObjects c.uid
  let s := match c.task.group with
    | some g => s.mapLaunch c.task.launch fun l => { l with groups := l.groups.filter (· != g) }
    | none => s
  let s := match c.task.parent with
    | some p => s.mapCrew p (Crew.childEnds c.uid fp v (c.task.kind == TaskKind.member))
    | none => s.mapLaunch c.task.launch fun l =>
      { l with fpflags := l.fpflags ||| fp, finals := l.finals ++ [(if c.task.kind = TaskKind.resident then (c.r.pedigree.headD ⟨0, 0⟩).rank.toNat else 0, v)] }
  let s := (s.dropHeld c).removeCrew c.uid
  match s.gangOver c with
  | some p =>
    let s := (s.dropEntry p.uid p.core).resumeOn p.uid p.core
    if p.core = core || s.readyFrame core then s else s.popDeque core
  | none => if s.readyFrame core then s else s.popDeque core

/-- The crew's last thread has exited, its chunk has committed, its flags are clear (R265). -/
def Crew.over (c : Crew) : Bool :=
  c.phase == .run && c.r.live == 0 && c.r.frontier.isEmpty && c.cur.isNone && c.chunk.clauses == 0 && c.r.inflight.isEmpty &&
    c.post.isEmpty

/-- TASK_END: the implicit SYNC, and the end where every child has ended and the views are merged. -/
def State.taskEnd (uid : Nat) (s : State) : State :=
  match s.crew? uid with
  | none => s
  | some c =>
    if c.task.kind = .routine then s
    else
      let s' := if c.over then s.closeBlock uid .ending else s
      match s'.crew? uid with
      | none => s'
      | some c => match c.phase, c.post, c.task.frameDone with
        | .ending, [], some v => s'.finishTask c v
        | _, _, _ => s'

def execTaskEnd (c : Nat) (s : State) : Out := .next (s.taskEnd c)

/-! Stealing and hints (R262, R263, R266) -/

/-- A running task stands on the core. -/
def State.coreRuns (s : State) (core : Nat) : Bool := (s.onCore core).any fun c => !c.idle && c.phase != .stopped && c.phase != .halted

/-- The core runs nothing, holds no ready frame, and has a free slot (R261, R262). -/
def State.coreFree (s : State) (core : Nat) : Bool :=
  s.coreOn core && !s.coreRuns core && !s.readyFrame core && !(s.freeSlots core).isEmpty

/-- The core is idle (R262): its deque is empty too, and no piece that is dealt to it is left (R270). -/
def State.coreIdle (s : State) (core : Nat) : Bool := s.coreFree core && (s.coreAt core).entries.isEmpty && !s.piecesLeft core

/-- The pieces that a frame leads to are all dealt to its core (R270). -/
def State.ownPieces (s : State) (c : Crew) : Bool :=
  match c.pieces, s.launch? c.task.launch with
  | some (a, k), some l => let (o, n) := l.dealt c.core; decide (o ≤ a) && decide (a + k ≤ o + n)
  | _, _ => true

/-- An entry that a core of a logical die may steal (R261, R262, R270, R322). -/
def State.stealable (s : State) (die : Nat) (uid : Nat) : Bool :=
  match s.crew? uid with
  | some c => s.ownPieces c && c.phase == .parked && c.r.inflight.isEmpty && c.enroll.isEmpty && !c.task.gang && !s.stopping c &&
      (s.dieset c.task.launch).getLsbD die
  | none => false

/-- The cores of a level in the order of a search: after the last victim, or after the thief (R262). -/
def searchFrom (l : List Nat) (self : Nat) (victim : Option Nat) : List Nat :=
  let from_ := match victim with
    | some v => if l.contains v then v else self
    | none => self
  let after := (l.dropWhile (· != from_)).drop 1
  (after ++ l.takeWhile (· != from_) ++ (if from_ = self then [] else [from_])).filter (· != self)

/-- The first victim with a stealable entry: in the thief's raft, in its die, then for each launch in its die set (R262; log entry
105). -/
def State.findVictim (s : State) (core : Nat) : Option (Nat × Nat) :=
  let regs := s.hub.regs
  let die := (regs.logical core).1
  let look := fun (l : List Nat) (ok : Nat → Bool) => (searchFrom l core (s.coreAt core).victim).findSome? fun v =>
    ((s.coreAt v).entries.find? fun u => s.stealable die u && ok u).map fun u => (v, u)
  ([s.raftMembers (core / 4), regs.coresOf die].findSome? fun l => look l fun _ => true).orElse fun _ =>
    s.sched.launches.findSome? fun l => look (regs.coresIn l.packet.dieset) fun u => ((s.crew? u).map fun c => c.task.launch) == some l.uid

/-- A stolen range continuation goes on as the thief's (R269, R270). -/
def Crew.stolen (c : Crew) : Crew := { c with task := { c.task with range := c.task.range.map fun x => { x with leaf := none } } }

/-- STEAL: a core with no running task pops its own deque, or takes and ferries the first stealable entry (R261 to
R263); the hint queue of its die comes first (R266). -/
def State.steal (core : Nat) (s : State) : State :=
  if !s.coreFree core then s
  else if (s.coreAt core).entries.any s.poppable then s.popDeque core
  else if !s.coreIdle core then s
  else if !(((s.dies[core / 36]?).map Die.hints).getD []).isEmpty then s
  else match s.findVictim core with
    | none => s
    | some (v, uid) =>
      match (((s.vacate uid (.waiting core)).carryLive uid core).mapCrew uid Crew.stolen).placeNow uid core with
      | none => s
      | some s' => (((s'.ferrySeen v core).dropEntry uid v).mapCore core fun c => { c with victim := some v }).resumeIn uid

def execSteal (core : Nat) (s : State) : Out := .next (s.steal core)

/-- HINT_QUEUE_TAKE: an idle core takes the oldest entry of its die's hint queue (R266). -/
def State.hintTake (core : Nat) (s : State) : State :=
  if !s.coreIdle core then s
  else
    let hints := ((s.dies[core / 36]?).map Die.hints).getD []
    match hints.find? fun u => match s.crew? u with | some c => !s.stopping c | none => false with
    | none => s
    | some uid =>
      { s with dies := s.dies.modify (core / 36) fun d => { d with hints := d.hints.filter (· != uid) } }.placeOn uid core 0

def execHintQueueTake (core : Nat) (s : State) : Out := .next (s.hintTake core)

end Sys2Proof.Machine
end

