-- ==== Sys2Proof/Machine/Commit.lean ====
section
/-! DEFINITION. The commit of a chunk (R200 to R206, R211, R239 to R246): landings and grants, the writes, and the chunk's
step-6 actions but for those of the engines, of SPAWNG and of FENCE, which have events of their own. -/
namespace Sys2Proof.Machine

/-! Requests and grants (R201, R202) -/

/-- The lines of a writing chunk. -/
def Chunk.written (ch : Chunk) : List BufLine := ch.buf.filter fun b => b.region.signed

/-- The landings at which a line of a core commits (R200, R244, R245): the home too for reductions that flush a partial of another
code or width. -/
def State.landingsOf (s : State) (core : Nat) (b : BufLine) : List Nat :=
  b.landing (core / 36) :: match b.data with
    | .reds op w _ => if s.otherPartial b.line op w then [landingOf b.line] else []
    | .bytes _ => []

/-- The landings that a chunk's request visits, in increasing index (R201); none for a read-only chunk. -/
def State.route (s : State) (c : Crew) : List Nat :=
  let w := c.chunk.written
  if w.isEmpty then []
  else (List.range 200).filter fun j => w.any (fun b => (s.landingsOf c.core b).contains j) || c.chunk.rmask.getLsbD j

/-- The request of a crew at a landing. -/
def State.request (s : State) (c : Crew) (j : Nat) : Grant :=
  let lines := (c.chunk.written.filter fun b => (s.landingsOf c.core b).contains j).map BufLine.line
  ⟨c.uid, false, !lines.isEmpty, lines, c.chunk.rsig, c.chunk.wsig⟩

/-- An exclusive request (R206). -/
def exclusive (uid : Nat) : Grant := ⟨uid, true, true, [], 0, 0⟩

/-! Faults outside an issue -/

/-- Roll a crew's chunk back and deliver a fault at its first clause (R208, R314). -/
def State.faultCrew (uid : Nat) (code : FltCode) (addr : Dword) (s : State) : State :=
  s.onCrew uid fun s =>
    let first := s.focus.chunk.first
    s.rollback.deliverFault code.num addr false false first 0 0 first

/-! The race filter at grants and commit points (R312, R314, R315) -/

/-- Check the chunk's tracked writes whose lines a landing homes, and at the last grant all of them (R313): the lowest conflicting
granule, or no room. A strand that has only stored so far is numbered here (R310, log entry 116). -/
def State.raceAtGrant (c : Crew) (lines : List Nat) (last : Bool) (s : State) : State × Option (FltCode × Dword) :=
  s.raceWrites c c.shadow.pedigree
    ((c.chunk.tracked.filter fun t => t.write && (last || lines.contains (lineOf t.pa))).map fun t => (t.va.toNat, t.pa))

/-- Record the chunk's tracked accesses at its commit point; `none` where the region is full. -/
def State.raceCommit (c : Crew) : List Tracked → State → Option State
  | [], s => some s
  | t :: ts, s => (s.raceRecord c c.shadow.pedigree t.pa t.write).bind (State.raceCommit c ts)

/-- The commit point of a chunk (R203): its accesses enter the filter, it takes its place in the global commit order, the crew goes
on to `phase`, and the invalidations of its written lines set out, so that no chunk that has read one commits ahead of them (R205,
R313, log entry 14). -/
def State.commitPoint (uid : Nat) (phase : Phase) (s : State) : State :=
  match s.crew? uid with
  | none => s
  | some c => match s.raceCommit c c.chunk.tracked with
    | none => s.faultCrew uid .rfspace (s.rfEnd c)
    | some s =>
      let (s, n) := s.freshId
      c.chunk.written.foldl (fun s b => s.invalidateLine b.line uid)
        (s.mapCrew uid fun c => { c with phase := phase, chunk := { c.chunk with seq := n } })

/-- The commit point of a chunk that asks no landing: what it writes in step 6 is checked here (R222, R312). -/
def State.commitPointFree (c : Crew) (s : State) : State :=
  match s.raceAtGrant c [] true with
  | (s, some (f, a)) => s.faultCrew c.uid f a
  | (s, none) => s.commitPoint c.uid .acting

/-- LANDING_REQUEST: the request of crew `c` at the next landing of its route (R202, R203). -/
def State.landingRequest (uid : Nat) (s : State) : State :=
  match s.crew? uid with
  | none => s
  | some c => match c.phase with
    | .asking (j :: rest) =>
      let g := s.request c j
      match s.askLanding g j with
      | (s, false) => s
      | (s', true) =>
        match s'.raceAtGrant c g.lines rest.isEmpty with
        | (s', some (f, a)) => s'.faultCrew uid f a
        | (s', none) =>
          if rest.isEmpty then s'.commitPoint uid .granted else s'.mapCrew uid fun c => { c with phase := .asking rest }
    | _ => s

def execLandingRequest (c : Nat) (s : State) : Out := .next (s.landingRequest c)

/-- EXCLUSIVE_MODE (R206): before the first clause of a chunk that invalidations have rolled back 16 times in a row, the
crew takes exclusive grants in increasing landing, up to the first that makes it wait. -/
def State.exclusiveMode (uid : Nat) (s : State) : State :=
  match s.crew? uid with
  | none => s
  | some c =>
    if c.phase == .run && c.cur.isNone && c.chunk.clauses == 0 && decide (16 ≤ c.replay.conf) && !c.replay.excl then
      let (s, ok) := (List.range 200).foldl (fun (acc : State × Bool) j =>
        if acc.2 then acc.1.askLanding (exclusive uid) j else acc) (s, true)
      if ok then s.mapCrew uid fun c => { c with replay := { c.replay with excl := true } } else s
    else s

def execExclusiveMode (c : Nat) (s : State) : Out := .next (s.exclusiveMode c)

/-- INVALIDATION: one that names a member of an uncommitted chunk's read signature reaches the crew (R205). -/
def State.invalidation (uid line : Nat) (s : State) : State :=
  match s.crew? uid with
  | some c => if c.uncommitted && sigHas c.chunk.rsig line then s.conflictRollback uid else s
  | none => s

def execInvalidation (c line : Nat) (s : State) : Out := .next (s.invalidation c line)

/-! Step 1 (R203, R211, R222) -/

/-- Release a STREAM line: the entries of its words up to a release write leave the chunk and become visible later (R217, R222). -/
def State.releaseStream (c : Crew) (line gen : Nat) (s : State) : State :=
  let mine := fun (b : BufLine) => b.region == .stream && b.line == line && b.gen == gen
  ((c.chunk.buf.filter mine).foldl (fun s b => s.release c.uid c.core b) s).mapCrew c.uid fun c =>
    { c with chunk := { c.chunk with buf := c.chunk.buf.filter fun b => !mine b } }

/-- A released STREAM line that a crew's own earlier writes, or those that its core has seen, hold back from its home: another write
or an atomic of the crew at that line waits for it (R216). -/
def State.streamAhead (s : State) (c : Crew) (line : Nat) : Bool := s.streams.any fun x => x.shows c.uid c.core && x.line.line == line

/-- A held SYSTEM store is performed (R218), or waits for STREAM writes of its line (R216), or for the landing where partials of
its line merge; a home whose die has failed raises HOMELOST (R247). -/
def State.systemStore (c : Crew) (org : Origin) (l : Loc) (data : List (Nat × Byte)) (s : State) : State × Bool :=
  let cells := data.map fun x => (l.key + x.1, x.2)
  if s.homeLost l.key then (s.postFault c.uid .homelost (BitVec.ofNat 64 (lineOf l.key * 128)) org org.lanes false, true)
  else if s.streamAhead c (lineOf l.key) then (s, false)
  else match s.passStore c.uid l with
    | (s, true) => (if l.away then s.postOut c.uid cells else s.systemWrite c.uid l cells, true)
    | r => r

/-- A SYSTEM RED is performed: in HBM, at the host as a FetchAdd, or at the peer (R240), after STREAM writes of its line (R216); an
error in its bytes raises MEMERR (R252), a home whose die has failed HOMELOST (R247). -/
def State.systemRed (c : Crew) (org : Origin) (l : Loc) (op : Fin 16) (w : Nat) (x : Dword) (s : State) : State × Bool :=
  let uid := c.uid
  if s.homeLost l.key then (s.postFault uid .homelost (BitVec.ofNat 64 (lineOf l.key * 128)) org org.lanes false, true)
  else if s.streamAhead c (lineOf l.key) then (s, false)
  else match s.passStore uid l with
    | (s, true) =>
      (if l.away then s.sendAtomic uid l.key op w x
        else if s.badAt l.key (w / 8) then s.postFault uid .memerr (BitVec.ofNat 64 l.key) org org.lanes false
        else s.systemWrite uid l (cellsAt l.key (leBytes (w / 8) (reduceOp op w (leNat (s.committed l (w / 8))) (x.toNat % 2 ^ w)))), true)
    | r => r

/-- Writes that a release performs before the commit point (R222). -/
def ActKind.early : ActKind → Bool
  | .streamLine _ _ | .sysStore _ _ | .sysRed _ _ _ _ => true
  | _ => false

/-- An acquire that is performed in step 6: no later access of the crew goes ahead of it (R222, R248). -/
def ActKind.acquires : ActKind → Bool
  | .atom j => j.acq
  | .load j => j.acq
  | _ => false

/-- Perform such a write, which may have to wait. -/
def State.writeAct (c : Crew) (a : Act) (s : State) : State × Bool :=
  match a.kind with
  | .streamLine line gen => (s.releaseStream c line gen, true)
  | .sysStore l d => s.systemStore c a.org l d
  | .sysRed l op w x => s.systemRed c a.org l op w x
  | _ => (s, true)

/-- An action leaves the list; releases count the actions before them. -/
def Chunk.cutAct (i : Nat) (ch : Chunk) : Chunk :=
  { ch with acts := ch.acts.eraseIdx i, rels := ch.rels.map fun m => if i < m.acts then { m with acts := m.acts - 1 } else m }

/-- The release work of step 1 from a release on (R222): the writes ahead of it are performed and visible at its scope, and it is
met, unless an action of another kind ahead of it keeps it for step 6; nothing behind an acquire of step 6 is performed. Then only the releases that lead to an access which
commits at the commit point are worked on. The answer tells whether all is done. -/
def State.releaseWork (uid : Nat) : Nat → Nat → State → State × Bool
  | 0, _, s => (s, false)
  | fuel + 1, k, s =>
    match s.crew? uid with
    | none => (s, true)
    | some c => match c.chunk.rels[k]? with
      | none => (s, true)
      | some m =>
        if k != 0 && !(c.chunk.rels.drop k).any RelMark.home then (s, true)
        else match ((c.chunk.acts.take m.acts).takeWhile fun a => !a.kind.acquires).zipIdx.find? fun a => a.1.kind.early with
          | some (a, i) => match s.writeAct c a with
            | (s, true) => (s.mapCrew uid fun c => { c with chunk := c.chunk.cutAct i }).releaseWork uid fuel k
            | r => r
          | none =>
            if !s.shown uid c.core m.scope then (s, false)
            else if m.acts = 0 then
              (s.mapCrew uid fun c => { c with chunk := { c.chunk with rels := c.chunk.rels.eraseIdx k } }).releaseWork uid fuel k
            else s.releaseWork uid fuel (k + 1)

/-- The soft-error check of a chunk that has ended (R211): no error; a replay; SOFT; or a ferry, which SOFT_ERROR_FERRY
makes. An error in the undo log or the shadow raises SOFT at once. -/
inductive SoftCheck where
  | clean | replay | raise | ferry
  deriving DecidableEq, Repr

def Crew.softCheck (c : Crew) : SoftCheck :=
  if !c.chunk.soft then .clean
  else if c.replay.soft < c.chunk.retry.toNat && !c.replay.ferried then .replay
  else if c.replay.ferried then .raise
  else .ferry

/-- A soft-error replay (R211) adds a record to the event log. -/
def State.softReplay (c : Crew) (s : State) : State :=
  (s.event 0 (s.unitOf c.core) .replay (s.queueOf c.task.launch) 0).rollbackCrew c.uid |>.mapCrew c.uid fun c =>
    { c with replay := { c.replay with soft := c.replay.soft + 1, replay := true } }

/-- Steps 1 and 2 of a chunk that has ended. Its writes come after the STREAM writes of their lines that the crew has released or
seen (R216). -/
def State.commitBegin (c : Crew) (s : State) : State :=
  match c.softCheck with
  | .raise => s.faultCrew c.uid .soft 0
  | .replay => s.softReplay c
  | .ferry => s
  | .clean =>
    match s.releaseWork c.uid (2 * c.chunk.rels.length + c.chunk.acts.length + 1) 0 with
    | (s, false) => s
    | (s, true) => if c.chunk.written.any fun b => s.streamAhead c b.line then s else match s.route c with
      | [] => (s.dropGrants c.uid).commitPointFree c
      | l => s.mapCrew c.uid fun c => { c with phase := .asking l }

/-- The enabled cores of a die set that R211 tries for a ferry: of the raft, the die, the die set, in logical order. -/
def State.ferryCores (s : State) (c : Crew) : List Nat :=
  let regs := s.hub.regs
  let all := regs.coresIn (s.dieset c.task.launch)
  let ok := fun k => k != c.core
  ((all.filter fun k => k / 4 == c.core / 4) ++ (all.filter fun k => k / 36 == c.core / 36) ++ all).filter ok

/-- SOFT_ERROR_FERRY (R211): the crew's restored state goes to a free slot of another core, where the chunk runs again; parked and
suspended crews are spilled for its window (R168). -/
def State.softFerry (uid : Nat) (s : State) : State :=
  match s.crew? uid with
  | none => s
  | some c =>
    if c.uncommitted && c.chunk.ends && c.cur.isNone && c.softCheck == .ferry then
      match (s.ferryCores c).find? fun k => !(s.freeSlots k).isEmpty with
      | none => s
      | some k =>
        let s' := (s.event 0 (s.unitOf c.core) .ferry (s.queueOf c.task.launch) 0).rollbackCrew uid
        let s' := ((s'.vacate uid (.waiting k)).tryPlace uid k 0 placeFuel).ferrySeen c.core k
        if s'.inSlot uid then s'.mapCrew uid fun c => { c with replay := { c.replay with soft := 0, ferried := true, replay := true } }
        else s
    else s

def execSoftErrorFerry (c : Nat) (s : State) : Out := .next (s.softFerry c)

/-! Steps 3 to 5 -/

/-- The writes of a granted chunk are applied, its readers invalidated, its grants released. -/
def State.commitWrites (c : Crew) (s : State) : State :=
  ((c.chunk.written.foldl (fun s b => s.applyLine c.core c.uid b) s).dropGrants c.uid).mapCrew c.uid fun c =>
    { c with phase := .acting, chunk := { c.chunk with buf := c.chunk.buf.filter fun b => !b.region.signed } }

/-! Step 6: returning atomics (R238, R241, R242) -/

/-- The width and the tag of a lane's operation. -/
def AtomJob.width (j : AtomJob) (t : Fin 32) : Nat :=
  if j.uniform then j.w
  else match j.done.find? fun x => match x with | .v _ l _ _ _ => l == t | _ => false with
    | some (.v _ _ _ _ tag) => tagWidth tag
    | _ => 64

/-- The result of a lane enters the held writes. -/
def AtomJob.note (j : AtomJob) (t : Fin 32) (old : Nat) : AtomJob :=
  if j.uniform then { j with done := [.s j.dst (BitVec.ofNat 64 old)] }
  else { j with done := j.done.map fun x => match x with
    | .v d l m y tag => if l = t then .v d l (BitVec.allOnes 64) (BitVec.ofNat 64 old) tag else .v d l m y tag
    | y => y }

/-- A lane's operation was not performed: nothing is held for it. -/
def AtomJob.skip (j : AtomJob) (t : Fin 32) : AtomJob :=
  if j.uniform then j
  else { j with done := j.done.filter fun x => match x with | .v _ l _ _ _ => l != t | _ => true }

/-- The value that a lane's atomic writes, over the old one (R238); a comparison that fails writes nothing. -/
def AtomJob.result (j : AtomJob) (q : AtomReq) (old : Nat) : Option Nat :=
  let w := j.width q.lane
  let b := q.operand.toNat % 2 ^ w
  match q.expect with
  | some e => if old = e.toNat % 2 ^ w then some b else none
  | none => some (reduceOp j.op w old b)

/-- One lane's atomic at its location: it is sent there (R240), raises MEMERR (R252) or HOMELOST (R247), or reads and writes the
home, which invalidates every copy even where a comparison fails (R241). The reply of a link that is up comes at once (R415). -/
def State.atomOne (c : Crew) (org : Origin) (q : AtomReq) (s : State) (j : AtomJob) : State × AtomJob :=
  let n := j.width q.lane / 8
  let old := leNat (s.committed q.loc n)
  let fail := fun (f : FltCode) (a : Nat) =>
    (s.postFault c.uid f (BitVec.ofNat 64 a) org (if j.uniform then org.lanes else laneSet [q.lane]) false, j.skip q.lane)
  if s.homeLost q.loc.key then fail .homelost (lineOf q.loc.key * 128)
  else if s.badAt q.loc.key n then let (t, j) := fail .memerr q.loc.key; (t.takeBad q.loc.key n, j)
  else if q.loc.away then
    ({ s with free := s.free + 1, outbox := s.outbox ++ [awayAtomic q.loc.key j.op (j.width q.lane) q.operand q.expect] },
      j.note q.lane old)
  else
    let s := match j.result q old with
      | none => if q.loc.region == .spad || q.loc.region == .system then s
        else (s.invalidateLine (lineOf q.loc.key) c.uid).dropCopies noCore (lineOf q.loc.key)
      | some new =>
        let cells := cellsAt q.loc.key (leBytes n new)
        match q.loc.region with
        | .spad => (s.putBytes cells).markDirty q.loc.key
        | .system => s.systemWrite c.uid q.loc cells
        | _ => s.writeLine noCore c.uid q.loc.slot j.hint q.loc.va.toNat cells
    (s, j.note q.lane old)

/-- The held result of an atomic is complete: it may complete as any long-latency instruction does. -/
def Regs.unhold (id : Nat) (writes : List RegWrite) (r : Regs) : Regs :=
  { r with inflight := r.inflight.map fun x => if x.kind = .held id then { x with kind := .plain, writes := writes } else x }

/-- The grant that an atomic takes at its location (R202, R241). -/
def State.passAtom (uid : Nat) (l : Loc) (s : State) : State × Bool :=
  if l.region == .stream && !l.away then s.passLine uid (lineOf l.key) else s.passStore uid l

/-- Perform together the lanes that reach the line of the first one left, in one request (R441); `false` where it waits for a
grant, for a link that retrains, or for STREAM writes of the line that its crew or core has seen. -/
def State.atomStep (c : Crew) (org : Origin) (j : AtomJob) (s : State) : (State × AtomJob) × Bool :=
  match j.todo with
  | [] => ((s, j), true)
  | q :: _ =>
    let line := lineOf q.loc.key
    if s.streamAhead c line || s.linkWaits q.loc then ((s, j), false)
    else match s.passAtom c.uid q.loc with
      | (s, false) => ((s, j), false)
      | (s, true) =>
        let s := if q.loc.away || q.loc.region == .spad then s else s.mergeLine line
        let s := if isHbm q.loc.key && q.loc.region != .system then
            s.touchAtom c.core q.loc.slot.toNat line q.loc.va.toNat j.hint
          else s
        let (s, j') := (j.todo.filter fun x => lineOf x.loc.key == line).foldl (fun x q => x.1.atomOne c org q x.2) (s, j)
        ((s, { j' with todo := j.todo.filter fun x => lineOf x.loc.key != line }), true)

/-! Step 6: loads that ORD held (R222, R248) -/

/-- A held load reads what its crew sees now, its own earlier writes over it, and may complete; `false` where the partials of a line
wait for a grant. An error in its bytes raises MEMERR (R181), a home whose die has failed HOMELOST (R247). -/
def State.loadStep (org : Origin) (j : LoadJob) (s : State) : State × Bool :=
  match s.mergeReads (j.reads.map HeldRead.loc) with
  | (s, false) => (s, false)
  | (s, true) =>
    let seen := s.mapChunk fun ch => { ch with acts := [], buf := ch.buf.filter fun b => decide (b.gen ≤ j.gen) }
    let fail := fun (f : FltCode) (a : Nat) =>
      ((s.postFault s.focus.uid f (BitVec.ofNat 64 a) org org.lanes false).mapR (Regs.unhold j.id []), true)
    match j.reads.find? fun x => s.homeLost x.loc.key, j.reads.find? fun x => seen.badRead x.loc x.size x.idle with
    | some x, _ => fail .homelost (lineOf x.loc.key * 128)
    | none, some x => let (t, ok) := fail .memerr x.loc.key; (t.takeBad x.loc.key x.size, ok)
    | none, none =>
      let vs := j.reads.zipIdx.map fun x => leNat (State.readLoc { seen with free := s.free + x.2 } x.1.loc x.1.size)
      let s := j.reads.foldl (fun s x => s.noteRead false ⟨none, x.loc.va, x.size, x.idle⟩ x.loc) s
      let s := (lineRequests (j.reads.map HeldRead.loc)).foldl
        (fun s l => s.touchRead s.focus.core l.slot.toNat (lineOf l.key) l.va.toNat (l.hint j.hint)) s
      (s.mapR (Regs.unhold j.id (j.dests.map (LoadDest.fill vs))), true)

/-! Step 6: writes that ORD keeps (R222, R248) -/

/-- A write to a line is performed at its home under the grants of its landings, or waits for them, or for STREAM writes of its line
(R216, log entry 118). -/
def State.lateStep (c : Crew) (b : BufLine) (s : State) : State × Bool :=
  if s.streamAhead c b.line then (s, false)
  else match (s.landingsOf c.core b).foldl (fun (acc : State × Bool) j => if acc.2 then acc.1.passAt c.uid j b.line else acc) (s, true) with
    | (s, true) => (s.applyLine c.core c.uid b, true)
    | r => r

/-! Step 6: cache actions (R186) -/

/-- CPIN's effect; of a size that RETSIZE cannot hold it keeps the low bits (log entry 111). -/
def State.cpinAct (c : Crew) (slot : Fin 4) (base size : Dword) (ways : Nat) (s : State) : State :=
  let p := s.hub.regs
  let cur := p.retways.getD slot.val 0
  let own := c.r.keyslot.toNat
  let others := (((List.range 4).filter fun i => i != slot.val && retValid (p.retways.getD i 0)).map fun i =>
    retWays (p.retways.getD i 0)).sum
  if (!retValid cur || retOwner cur == own) && decide (others + ways ≤ 12) && decide (others + ways < p.waysInUse) then
    (s.mapPkg fun p => { p with
      retbase := p.retbase.set slot.val (keep base 7 50)
      retsize := p.retsize.set slot.val (keep size 7 33)
      retways := p.retways.set slot.val (BitVec.ofNat 64 (own * 2 ^ 16 + 16 + ways)) }).mapPkg PkgRegs.refit |>.unmark slot.val
  else s

/-- CUNPIN's effect. -/
def State.cunpinAct (c : Crew) (org : Origin) (slot : Fin 4) (s : State) : State :=
  let cur := s.hub.regs.retways.getD slot.val 0
  if !retValid cur then s
  else if retOwner cur = c.r.keyslot.toNat then
    s.mapPkg fun p => { p with retways := p.retways.set slot.val (cur &&& ~~~0x10) }
  else s.postFault c.uid .prot (BitVec.ofNat 64 slot.val) org org.lanes false

/-- Remove translations of a hardware slot everywhere, with the non-leaf entries of the walkers: those of a page, by its number and
size in bits (R177, R186). -/
def State.dropTlb (slot : Nat) (p : Nat → Nat → Bool) (s : State) : State :=
  let f := fun (l : List TlbEntry) => l.filter fun e => !(e.slot == slot && p e.page e.shift)
  { s with
    cores := s.cores.map fun c => { c with tlb := f c.tlb }
    rafts := s.rafts.map fun r => { r with tlb := f r.tlb }
    dies := s.dies.map fun d => { d with walks := d.walks.filter fun e => !(e.slot == slot && p e.page e.shift) } }

/-- Chunks of a launch that used a removed translation roll back, which is neither conflict nor fault (R186). -/
def State.rollbackUsers (launch except : Nat) (p : Nat × Nat → Bool) (s : State) : State :=
  (s.crews.filter fun c => c.uid != except && c.uncommitted && c.task.launch == launch && c.chunk.used.any p).foldl
    (fun s c => (s.rollbackCrew c.uid).mapCrew c.uid fun c => { c with replay := { c.replay with replay := true } }) s

/-- CINV's effects. -/
def State.cinvAct (c : Crew) (k : ActKind) (s : State) : State :=
  let slot := (s.space c false).slot
  match k with
  | .cinvCode a =>
    if winOwn ≤ a.toNat then s
    else match (s.translate (s.space c true) ⟨false, false, false⟩ a.toNat).2 with
      | .ok _ pa _ => { s with cores := s.cores.map fun x => { x with code := x.code.filter fun l => l.line != lineOf pa } }
      | .fault _ => s
  | .cinvPage a =>
    (s.dropTlb slot fun page shift => page == a.toNat / 2 ^ shift).rollbackUsers c.task.launch c.uid fun p =>
      p.1 == a.toNat / 2 ^ p.2 * 2 ^ p.2
  | .cinvSpace => (s.dropTlb slot fun _ _ => true).rollbackUsers c.task.launch c.uid fun _ => true
  | _ => s

/-! Step 6: engine lines of the scarab and of PLOG (R279, R304) -/

/-- Locate the pieces of a record or result, of `size` bytes each, on CHUNKED or STREAM pages. -/
def State.locateLines (c : Crew) (n : Need) (size : Nat) : List Nat → State → State × Reply (List Loc)
  | [], s => (s, .ok [])
  | va :: vas, s => match s.locate c none n (BitVec.ofNat 64 va) size with
    | (s, .fault f) => (s, .fault f (BitVec.ofNat 64 va))
    | (s, .ok l _) =>
      if l.region == .chunked || l.region == .stream then
        match s.locateLines c n size vas with
        | (s, .ok ls) => (s, .ok (l :: ls))
        | r => r
      else (s, .fault .prot (BitVec.ofNat 64 va))

/-- The bytes of a PLOG record (R278). -/
def plogBytes (seq : BitVec 32) (pg : List Level) (payload : List Dword) : List Byte :=
  let d := pg.length
  let k := (d + 3) / 4
  leBytes 2 d ++ leBytes 2 (48 + 16 * k) ++ leBytes 4 seq.toNat ++ leBytes 8 0 ++
    ((List.range (4 * k)).flatMap fun i => leBytes 4 (match pg[i]? with | some l => l.word.toNat | none => 0)) ++
    payload.flatMap fun x => leBytes 8 x.toNat

/-- Dwords at consecutive located places, gathered by lines. -/
def byLine : List (Loc × List Byte) → List (Loc × List Byte)
  | [] => []
  | (l, b) :: rest => match byLine rest with
    | (l', b') :: out => if lineOf l.key = lineOf l'.key && l'.key = l.key + b.length then (l, b ++ b') :: out else (l, b) :: (l', b') :: out
    | [] => [(l, b)]

/-- Dwords at located places, a line at a time (R279, R304). -/
def State.storeDwords (c : Crew) (ls : List Loc) (bytes : List Byte) (s : State) : State :=
  (byLine (ls.zipIdx.map fun x => (x.1, (bytes.drop (8 * x.2)).take 8))).foldl (fun s x => s.engineStore c.uid c.core x.1 x.2) s

/-- The grants that atomics at several places need at their homes, one after another. -/
def State.passAtoms (uid : Nat) : List Loc → State → State × Bool
  | [], s => (s, true)
  | l :: ls, s => match s.passAtom uid l with
    | (s, true) => s.passAtoms uid ls
    | (s, false) => (s, false)

/-- PLOG's step-6 part (R279): the atomic add of the cursor at its home (R241), then the record. `false` where it waits for grants,
or for STREAM writes of the cursor's line that its crew or core has seen. -/
def State.plogAct (c : Crew) (org : Origin) (seq : BitVec 32) (pg : List Level) (payload : List Dword) (s : State) : State × Bool :=
  let base := c.r.logBase.toNat
  let post := fun (f : FltCode) (a : Dword) (s : State) => s.postFault c.uid f a org org.lanes false
  if base = 0 then (post .logfull 0 s, true)
  else match s.locateLines c ⟨true, true, false⟩ 8 [base, base + 8] with
    | (s, .fault f a) => (post f a s, true)
    | (s, .ok hd) =>
      if hd.any fun l => s.streamAhead c (lineOf l.key) then (s, false)
      else match s.passAtoms c.uid hd with
      | (s, false) => (s, false)
      | (s, true) =>
      let s := hd.foldl (fun s l => s.mergeLine (lineOf l.key)) s
      let rd := fun k => match hd[k]? with | some l => leNat (s.committed l 8) | none => 0
      let rec_ := plogBytes seq pg payload
      if rd 1 < rd 0 + rec_.length then (post .logfull c.r.logBase s, true)
      else match s.locateLines c ⟨false, true, false⟩ 8 ((List.range (rec_.length / 8)).map fun i => base + rd 0 + 8 * i) with
        | (s, .fault f a) => (post f a s, true)
        | (s, .ok ls) => match s.passStores c.uid ls with
          | (s, true) =>
            let s := (hd.take 1).foldl (fun s l =>
              s.writeLine noCore c.uid l.slot 0 l.va.toNat (cellsAt l.key (leBytes 8 (rd 0 + rec_.length)))) s
            (s.storeDwords c ls rec_, true)
          | r => r

/-- Where a segment's descriptor or its next field stands, in any place that its crew may write (R304). -/
def State.locateSegment (c : Crew) (va : Dword) (n : Nat) (s : State) : State × List Loc :=
  match s.locate c none ⟨false, true, false⟩ va n with
  | (s, .ok l _) => (s, [l])
  | (s, .fault _) => (s, [])

/-- `view.app` in step 6 (R304): the descriptor, then the next field of the old tail; `false` where it waits for grants. -/
def State.viewAppAct (c : Crew) (desc data len : Dword) (tail : Option Dword) (s : State) : State × Bool :=
  let (s, new) := s.locateSegment c desc 32
  let (s, old) := match tail with
    | some t => s.locateSegment c t 8
    | none => (s, [])
  match s.passStores c.uid (new ++ old) with
  | (s, true) =>
    let s := new.foldl (fun s l => s.engineStore c.uid c.core l (leBytes 8 0 ++ leBytes 8 data.toNat ++ leBytes 8 len.toNat ++ leBytes 8 0)) s
    (old.foldl (fun s l => s.engineStore c.uid c.core l (leBytes 8 desc.toNat)) s, true)
  | r => r

/-! Step 6: RFT (R388) -/

/-- Threads retire (R91): from the registers, and from the barrier objects. -/
def State.retire (uid : Nat) (lanes : Lanes) (s : State) : State :=
  match s.crew? uid with
  | none => s
  | some c =>
    let g := lanes &&& c.r.live
    let s := s.mapCrew uid fun c => { c with r := c.r.exitLanes g }
    c.enroll.foldl (fun s e => s.deduct e.obj uid g) s

def CmdState.isSuspended : CmdState → Bool
  | .suspended _ => true
  | _ => false

/-- The suspended copies of a crew, with the core whose barge holds each: that of the crew, or one that a ferry took it from
(R211, R346). -/
def State.heldCopies (s : State) (c : Crew) : List (Nat × BrgCmd) :=
  s.cores.zipIdx.flatMap fun k =>
    ((k.1.barge.queue ++ k.1.barge.jobs).filter fun j => j.actor.crew == c.uid && j.st.isSuspended).map fun j => (k.2, j)

/-- Its suspended TEN commands. -/
def State.heldTen (s : State) (c : Crew) : List (Nat × TenCmd) :=
  s.cores.zipIdx.flatMap fun k => (k.1.ten.filter fun j => j.actor.crew == c.uid && j.st.isSuspended).map fun j => (k.2, j)

/-- Cancel the suspended engine commands of a crew: their flags clear, nothing more is written (R346, R358). -/
def State.cancelSuspended (c : Crew) (s : State) : State :=
  let brg := s.heldCopies c
  let ten := s.heldTen c
  let s := (brg.map (·.2.id) ++ ten.map (·.2.id)).foldl (fun s id => (s.finishCommand c.uid id []).dropGrants id) s
  let s := brg.foldl (fun s j => s.mapBarge j.1 fun b =>
    { b with queue := b.queue.filter fun x => x.id != j.2.id, jobs := b.jobs.filter fun x => x.id != j.2.id }) s
  ten.foldl (fun s j => s.mapTen j.1 fun l => l.filter fun x => x.id != j.2.id) s

/-- A copy after RFT (R346): one that has its records goes on from its element if its object is still owned; another has them read
and checked again. A new fault leaves it suspended. -/
def State.resumeCopy (core : Nat) (j : BrgCmd) (s : State) : State :=
  let i := match j.st with | .suspended i => i | _ => 0
  let put := fun (f : BrgCmd → BrgCmd) (s : State) =>
    s.mapBarge core fun b => { b with
      queue := b.queue.map fun x => if x.id = j.id then { f x with st := .queued } else x
      jobs := b.jobs.map fun x => if x.id = j.id then { f x with st := .running i } else x }
  let drop := fun (s : State) => s.mapBarge core fun b => { b with
    queue := b.queue.map fun x => if x.id = j.id then { x with recs := none } else x
    jobs := b.jobs.map fun x => if x.id = j.id then { x with recs := none } else x }
  let end_ := fun (s : State) => s.mapBarge core fun b => { b with
    queue := b.queue.filter fun x => x.id != j.id, jobs := b.jobs.filter fun x => x.id != j.id }
  let fail := fun (f : FltCode) (x : Dword) (s : State) => (if f = .memerr then end_ s else drop s).copyFault j f x
  match j.recs with
  | some _ => match s.copyOwner core j.actor j.op with
    | none => put id s
    | some x => fail .prot x s
  | none => match s.copyChecks core j.actor j.op with
    | (s, .ok r) => put (fun x => { x with recs := some r }) s
    | (s, .fault f x) => fail f x s

/-- Resume the suspended engine commands of a crew (R346, R358): a walked one from its element with the records that it holds, the
others from their start. -/
def State.resumeSuspended (c : Crew) (s : State) : State :=
  let s := (s.heldCopies c).foldl (fun s j => s.resumeCopy j.1 j.2) s
  (s.heldTen c).foldl (fun s j => s.setTen j.1 { j.2 with st :=
    match j.2.st with
    | .suspended i => if (j.2.elems j.1).isSome then .resumed i else if j.2.paired then .latched else .queued
    | st => st }) s

/-- The user frontier after RFT (R388). A thread whose phase has passed while the handler ran stays unblocked (R323, R325). -/
def Regs.leaveHandler (t : TrapState) (r : Regs) : Regs :=
  let gone := fun (e : Entry) => { e with threads := e.threads &&& r.live }
  let same := r.flt.chkpc = t.chkpc
  { r with
    s := tab 64 fun i => if 60 ≤ i.val then t.saved.toList.getD (i.val - 60) 0 else r.s[i]
    safecnt := t.safecnt
    csp := tab 32 fun l => if hasLane r.emask l then 0 else t.csp[l]
    cdepth := tab 32 fun l => if hasLane r.emask l then 0 else t.cdepth[l]
    blocked := if same then t.blocked &&& r.waiting &&& ~~~r.emask else 0
    waits := if same then r.waits else []
    frontier := if same then (t.frontier.map gone).filter fun e => e.threads != 0
      else if r.live = 0 then [] else [⟨r.flt.chkpc, r.live, 0, false⟩]
    flt := { r.flt with sup := false } }

/-- RFT in step 6. After RFSPACE the filter region is as its descriptor says now (R315). With CHKPC unchanged the chunk there runs
under the replay record that it had (R206, R233); faults that waited come next (R386). -/
def State.rftAct (c : Crew) (s : State) : State :=
  let s := if c.r.flt.code = FltCode.rfspace.num then s.refreshDesc c.task.launch else s
  let s := if c.r.flt.retire then s.retire c.uid c.r.flt.lanes else s
  let s := if c.r.flt.cancel then s.cancelSuspended c else s
  let s := match c.trap with
    | some t => s.mapCrew c.uid fun c => { c with
        r := c.r.leaveHandler t, trap := none, post := t.posts ++ c.post
        chunk := if c.r.flt.chkpc = t.chkpc then { c.chunk with next := t.replay } else c.chunk }
    | none => s
  s.resumeSuspended c

/-- Pre-emption that waited for the handler stops the crew at its RFT (R397), where no further action of the chunk is
left; what waits for nothing but its latency completes first. -/
def Regs.settle (r : Regs) : Regs :=
  (r.inflight.filter fun x => match x.kind with | .plain | .sfu _ => true | _ => false).foldl (fun r x => r.complete (· == x) []) r

def State.rftStop (uid : Nat) (s : State) : State :=
  match s.crew? uid with
  | none => s
  | some c =>
    if s.stopping c && c.chunk.acts.isEmpty && c.r.live != 0 && c.post.isEmpty && c.task.merge.isNone then
      s.mapCrew uid fun c => { (c.mapBoth Regs.settle) with
        phase := .stopped, chunk := Chunk.empty, replay := c.chunk.next, task := { c.task with live := none }
        r := { c.r.settle with fpflags := c.r.settle.fpflags ||| c.tenFp }, tenFp := 0 }
    else s

/-! Step 6: the sequence -/

/-- A chunk is committed (R203 step 7): the crew's next chunk may begin. The flags of completed TEN commands join FPFLAGS
(R356). A frame whose SYNC a fault of a merge routine broke off waits again (R301). -/
def State.chunkDone (uid : Nat) (s : State) : State :=
  s.mapCrew uid fun c =>
    let back := c.task.kind != .routine && c.task.merge.isSome && !c.r.flt.sup && c.post.isEmpty
    { c with
      chunk := { Chunk.empty with stop := c.chunk.stop }
      replay := c.chunk.next
      phase := if back && c.r.live != 0 then .suspended else if back then .ending else .run
      task := if back then { c.task with merge := none } else c.task
      r := { c.r with fpflags := c.r.fpflags ||| c.tenFp }
      tenFp := 0 }

/-- The peers to which a crew's posted writes await acknowledgement while their links retrain, from now on (R230). -/
def State.fenceLinks (uid : Nat) (s : State) : List (Nat × Nat) :=
  (s.posted.filterMap fun p => if p.crew == uid then p.peer else none).eraseDups.filterMap fun k =>
    if s.link (some k) = .retraining then some (k, s.now) else none

/-- The peers at which a posted write of a crew was lost, in the order in which their links went down (R230, R415). -/
def State.fenceLost (uid : Nat) (s : State) : List Nat :=
  let lost := s.posted.filterMap fun p => if p.crew == uid && p.lost then p.peer else none
  ((s.hub.failed ++ lost).filter lost.contains).eraseDups

/-- Perform one step-6 action of a crew, or wait. A FENCE begins its wait. -/
def State.actStep (c : Crew) (a : Act) (s : State) : State :=
  let pop := fun (s : State) => s.popAct c.uid
  let try_ := fun (x : State × Bool) => if x.2 then pop x.1 else s.waitAs x.1
  let here := fun (f : State → State) => pop (s.onCrew c.uid f)
  match a.kind with
  | .streamLine _ _ | .sysStore _ _ | .sysRed _ _ _ _ => try_ (s.writeAct c a)
  | .late b => try_ (s.lateStep c b)
  | .lateSpad cells => pop (cells.foldl (fun s x => s.markDirty x.1) (s.putBytes cells))
  | .load j => try_ (let x := (s.focusOn c.uid).loadStep a.org j; (x.1.focusOn s.focus.uid, x.2))
  | .spadRed k op w x =>
    pop (if s.badAt k (w / 8) then s.postFault c.uid .memerr (BitVec.ofNat 64 k) a.org a.org.lanes false
      else (s.reduceAt op w k x).markDirty k)
  | .atom j => match s.atomStep c a.org j with
    | ((s', _), false) => s.waitAs s'
    | ((s', j'), true) =>
      if j'.todo.isEmpty then pop (s'.mapCrew c.uid fun c => { c with r := c.r.unhold j'.id j'.done })
      else s'.mapCrew c.uid fun c => { c with chunk := { c.chunk with acts := { a with kind := .atom j' } :: c.chunk.acts.drop 1 } }
  | .cpin slot base size ways => pop (s.cpinAct c slot base size ways)
  | .cunpin slot => pop (s.cunpinAct c a.org slot)
  | .cinvCode x => pop (s.cinvAct c (.cinvCode x))
  | .cinvPage x => pop (s.cinvAct c (.cinvPage x))
  | .cinvSpace => pop (s.cinvAct c .cinvSpace)
  | .brg _ _ => s
  | .ten _ _ _ _ _ => s
  | .sysreg n x => here fun s => s.writeHeld a.org n x
  | .spawn q die => ((pop s).chunkDone c.uid).spawnStep6 c.uid q die
  | .gang _ _ _ _ => s
  | .sync => ((pop s).chunkDone c.uid).closeBlock c.uid .suspended
  | .fence _ _ =>
    if s.fences.any fun f => f.crew == c.uid then s
    else { s with fences := s.fences ++ [⟨c.uid, s.now, s.fenceLinks c.uid, s.fenceLost c.uid⟩] }
  | .bari o n num sent => s.onCrew c.uid fun s => s.bariStep6 a.org o n num sent
  | .bar o g => here fun s => s.barStep6 (.bar o g)
  | .bara o g d => here fun s => s.barStep6 (.bara o g d)
  | .barw o g t => here fun s => s.barStep6 (.barw o g t)
  | .barb o n => here fun s => s.barStep6 (.barb o n)
  | .exitLanes g => here fun s => s.barStep6 (.exitLanes g)
  | .plog seq pg payload => try_ (s.plogAct c a.org seq pg payload)
  | .viewApp desc data len tail => try_ (s.viewAppAct c desc data len tail)
  | .trap code => pop (s.postFault c.uid .trap (BitVec.ofNat 64 code) a.org a.org.lanes false)
  | .rft => (pop (s.rftAct c)).rftStop c.uid

/-- The release that stands before the first action is met once what its crew has written and seen is visible at its scope (R222);
the answer tells whether the action may be performed. -/
def State.meetRelease (c : Crew) (s : State) : State × Bool :=
  match c.chunk.rels with
  | m :: _ =>
    if m.acts != 0 then (s, true)
    else if s.shown c.uid c.core m.scope then
      (s.mapCrew c.uid fun c => { c with chunk := { c.chunk with rels := c.chunk.rels.drop 1 } }, false)
    else (s, false)
  | [] => (s, true)

/-- CHUNK_COMMIT (R203): of a chunk that has ended, steps 1 and 2; of one whose grants are held, steps 3 to 5; then one
step-6 action at a time, and the end of the commit. -/
def State.chunkCommit (uid : Nat) (s : State) : State :=
  match s.crew? uid with
  | none => s
  | some c => match c.phase with
    | .run => if c.chunk.ends && c.cur.isNone then s.commitBegin c else s
    | .granted => s.commitWrites c
    | .acting => match c.chunk.acts with
      | [] => s.chunkDone uid
      | a :: _ => match s.meetRelease c with
        | (s, true) => s.actStep c a
        | (s, false) => s
    | _ => s

def execChunkCommit (c : Nat) (s : State) : Out := .next (s.chunkCommit c)

end Sys2Proof.Machine
end

