-- ==== Sys2Proof/Machine/Frontier.lean ====
section
/-! DEFINITION. Frontier selection (R76 to R81, R193 to R197), and the completions that it waits for: of redirects, of
long-latency instructions, of table walks, of fences. -/
namespace Sys2Proof.Machine

/-! What a clause asks for (R77, R195) -/

/-- The v registers that an instruction writes, its side field included. -/
def vDst : Instr → List (Fin 64)
  | .vmov d .. | .vadd d .. | .vsub d .. | .vadds d .. | .vsubs d .. | .vmul d .. | .vmulh d .. | .vmad d .. | .vmin d ..
  | .vmax d .. | .vabs d .. | .vneg d .. | .vabsd d .. | .vand d .. | .vor d .. | .vxor d .. | .vandn d .. | .vnot d ..
  | .vshl d .. | .vshr d .. | .vsar d .. | .vrol d .. | .vbfx d .. | .vbfi d .. | .vpopc d .. | .vclz d .. | .vbrev d ..
  | .vsel d .. | .vaddi d .. | .vandi d .. | .vori d .. | .vxori d .. | .vshli d .. | .vshri d .. | .vsari d ..
  | .vmovi d .. | .vlimm d .. | .viota d .. | .vwrl d .. | .vballot d .. | .vmatch d .. | .vfirst d .. | .vactive d .. => [d]
  | .vqmov d _ dir .. => if dir then [d] else []
  | .fadd d .. | .fsub d .. | .fmul d .. | .fma d .. | .fms d .. | .fnma d .. | .fmin d .. | .fmax d .. | .fminn d ..
  | .fmaxn d .. | .fabs d .. | .fneg d .. | .fcps d .. | .fclass d .. | .frnd d .. | .fdot2 d .. | .fdot4 d ..
  | .fscale d .. | .fgetx d .. | .fpivg d .. | .frcp d .. | .frsq d .. | .fsqrt d .. | .fdiv d .. | .fexp2 d ..
  | .flog2 d .. | .fsinp d .. | .fcosp d .. | .ftanh d .. | .cvt d .. | .cvts d .. | .fmaxx d .. | .vsettag d ..
  | .vgettag d .. | .sclget d .. | .sclset d .. | .flimm d .. => [d]
  | .ld d .. | .lde d .. | .ldx d .. | .atom d .. | .atomc d .. | .prng d .. => [d]
  | .ldp d .. => [d, d + 1]
  | _ => []

/-- The line bound and the log bound of a word (R195), for `n` threads and the destinations logged so far. -/
def wordBounds (n : Nat) (logged : List (Fin 64)) (i : Instr) : Nat × Nat :=
  let v := 10 * ((vDst i).filter fun d => !logged.contains d).length
  match i with
  | .st .. | .ste .. | .stp .. | .red .. => (n, 2 * n)
  | .stx _ _ ty .. => (tagCount ty * n, 2 * (tagCount ty * n))
  | .stu .. => (1, 2)
  | .call .. | .calli .. => (n, 0)
  | _ => (0, v)

/-- The instructions of a clause's words. -/
def clauseInstrs (cls : EngineClass) : Nat → Nat → List Nat → List Instr
  | 0, _, _ => []
  | _, _, [] => []
  | fuel + 1, idx, w :: rest =>
    let len := wordLen cls idx w (rest.headD 0)
    ((decodeAt cls idx w rest).map (·.1)).toList ++ clauseInstrs cls fuel (idx + len) (rest.drop (len - 1))

/-- The bounds of a clause. -/
def clauseBounds (n : Nat) (logged : List (Fin 64)) (is : List Instr) : Nat × Nat :=
  is.foldl (fun b i => (b.1 + (wordBounds n logged i).1, b.2 + (wordBounds n logged i).2)) (0, 0)

/-- The header word at an entry, as the frontier sees it: `none` where it cannot be fetched (R77). -/
def State.peekWord (s : State) (c : Crew) (pc : Addr) : Option Nat :=
  match (s.fetchWord c pc.toNat 0).2 with
  | .ok w => some w.toNat
  | .fault .. => none

/-- WAIT, CB and PRI of a header word, which count in one that R17 refuses too (log entry 64). -/
def headWait (w : Nat) : BitVec 12 := BitVec.ofNat 12 (bits w 13 12)
def headCb (w : Nat) : Bool := bit w 3
def headPri (w : Nat) : Nat := bits w 0 3

/-- OFF20 of the SAFEPT that is word 1 of the clause at an entry (R83). -/
def State.peekSafept (s : State) (c : Crew) (pc : Addr) : Option Int :=
  match s.peekWord c pc, (s.fetchWord c (pc + 4).toNat 1).2 with
  | some h, .ok w => if bits h 28 4 != 0 && isSafeptWord w.toNat then some (signedOf 20 (bits w.toNat 0 20)) else none
  | _, _ => none

/-- The threads of an entry that would issue. -/
def Entry.issuing (e : Entry) (r : Regs) : Lanes := e.threads &&& ~~~r.blocked

/-- An entry is eligible (R77). -/
def State.eligibleEntry (s : State) (c : Crew) (e : Entry) : Bool :=
  !e.redir && e.issuing c.r != 0 &&
    match s.peekWord c e.pc with
    | none => true
    | some h => !c.r.flagsBusy (headWait h) && ((s.peekSafept c e.pc).isNone || c.r.inflight.isEmpty)

/-- The keys of R78: lowest stamp, highest PRI, lowest PC. -/
def State.firstEntry (s : State) (c : Crew) (l : List Entry) : Option Entry :=
  let pri := fun (e : Entry) => ((s.peekWord c e.pc).map headPri).getD 0
  let before := fun (a b : Entry) => decide (a.stamp < b.stamp) ||
    (a.stamp == b.stamp && (decide (pri b < pri a) || (pri a == pri b && decide (a.pc < b.pc))))
  match l with
  | [] => none
  | e :: es => some (es.foldl (fun a b => if before b a then b else a) e)

/-- The entry that the frontier selects: after a rollback the one at the chunk's first clause (R208), else by R78. -/
def State.choose (s : State) (c : Crew) : Option Entry :=
  match c.r.frontier.find? fun e => c.replay.replay && c.chunk.clauses == 0 && e.pc == c.chunk.first with
  | some e => if s.eligibleEntry c e then some e else none
  | none => s.firstEntry c (c.r.frontier.filter fun e => s.eligibleEntry c e)

/-! The reducer table (R292, R293) -/

/-- The check of one entry, of 32 bytes at `va`; `none` where it fails. -/
def State.checkRedEntry (c : Crew) (b : List Byte) (s : State) : State × Option RedEntry :=
  let kind := fieldOf b 0 1
  let e : RedEntry := ⟨kind, BitVec.ofNat 64 (fieldOf b 8 8), BitVec.ofNat 64 (fieldOf b 16 8)⟩
  let n := (resultBytes kind none).length
  if 7 < kind || fieldOf b 1 7 ≠ 0 || fieldOf b 24 8 ≠ 0 || (kind ≠ 7 && e.routine ≠ 0) then (s, none)
  else if kind = 0 || e.result = 0 then
    if kind = 7 then
      match s.checkTarget true e.routine with
      | (s, none) => (s, some e)
      | (s, some _) => (s, none)
    else (s, some e)
  else if e.result.toNat % resultAlign kind ≠ 0 then (s, none)
  else match s.locateLines { c with r := { c.r with flt := { c.r.flt with sup := false } } } ⟨false, true, false⟩ (min n 8)
      ((List.range (n / min n 8)).map fun k => e.result.toNat + 8 * k) with
    | (s, .ok _) =>
      if kind = 7 then
        match s.checkTarget true e.routine with
        | (s, none) => (s, some e)
        | (s, some _) => (s, none)
      else (s, some e)
    | (s, .fault _ _) => (s, none)

/-- The entries of the table from the `i`-th on, each read and checked before the next (log entry 117), or the FLTADDR of VIEW. -/
def State.readRedTable (c : Crew) : Nat → Nat → State → State × Except Dword (List RedEntry)
  | 0, _, s => (s, .ok [])
  | n + 1, i, s =>
    let va := c.r.redtab + BitVec.ofNat 64 (32 * i)
    match s.engineReads c.actor false va 8 4 with
    | (s, .fault _ _) => (s, .error c.r.redtab)
    | (s, .ok b) => match s.checkRedEntry c b with
      | (s, none) => (s, .error va)
      | (s, some e) => match s.readRedTable c n (i + 1) with
        | (s, .ok es) => (s, .ok (e :: es))
        | r => r

/-- The crew is the first root of a launch whose reducer table is still to be checked. -/
def State.tableDue (s : State) (c : Crew) : Bool :=
  c.firstRoot && c.r.redtab != 0 && !c.r.flt.sup &&
    match s.launch? c.task.launch with
    | some l => l.reducers.isNone
    | none => false

/-- Deliver a fault of the crew in focus at an entry, before a chunk begins: every chunk before it has committed, and none
is there to roll back (R386). -/
def State.faultAt (e : Entry) (code : FltCode) (addr : Dword) (word : BitVec 4) (s : State) : State :=
  s.deliverFault code.num addr false false e.pc word (e.issuing s.focus.r) e.pc

/-- The check before the root's first clause. -/
def State.tableCheck (e : Entry) (s : State) : State :=
  match s.readRedTable s.focus 16 0 with
  | (s, .ok t) => s.mapLaunch s.focus.task.launch fun l => { l with reducers := some t, holding := false }
  | (s, .error a) => s.faultAt e .view a 0

/-! Selection -/

/-- The frontier of the crew in focus may select; while a word waits for the special-function unit it does not (R81,
R165). -/
def Crew.selects (c : Crew) : Bool :=
  c.phase == .run && c.cur.isNone && !c.r.sfuWaits && !c.chunk.ends && (match c.place with | .slot _ _ => true | _ => false)

/-- A crew on a member core that an unpaired latch entry of its launch names does not stop (R397). -/
def State.latchNames (s : State) (c : Crew) : Bool :=
  let raft := c.core / 4
  (List.range 4).any fun k => (s.tenAt (4 * raft + k)).any fun t =>
    t.waits && t.actor.launch == c.task.launch && (s.gangCores raft t.op.members).contains c.core

/-- The crew would stop at the entry's clause (R86, R397). -/
def State.stopsAt (s : State) (c : Crew) (e : Entry) : Bool :=
  s.stopping c && !c.r.flt.sup && c.task.kind != .routine && (s.peekSafept c e.pc).isSome && !s.latchNames c

/-- A chunk boundary before the clause of an entry (R193); an atomic task may not meet one (R282), but for its fault handler, whose
return ends a chunk by itself (R388). One that pre-emption makes is followed by the stop at this entry (R86). -/
def State.endChunk (e : Entry) (s : State) : State :=
  if s.focus.task.atomic && !s.focus.r.flt.sup then
    let first := s.focus.chunk.first
    let s := s.rollback
    s.deliverFault FltCode.illegal.num 0 false false e.pc 0 (e.issuing s.focus.r) first
  else
    let stop := if s.stopsAt s.focus e then some e.pc else none
    s.mapChunk fun ch => { ch with ends := true, stop := stop }

/-- A fault that waits for the end of a commit is delivered (R386): CHKPC is the entry that R78 puts first among those
with a thread that is not blocked (R77), or among all where every thread is (log entry 23). -/
def State.deliverPost (p : PostFault) (rest : List PostFault) (s : State) : State :=
  let c := s.focus
  let open_ := c.r.frontier.filter fun e => e.issuing c.r != 0
  let pc := ((s.firstEntry c (if open_.isEmpty then c.r.frontier else open_)).map Entry.pc).getD p.org.pc
  (s.mapFocus fun c => { c with post := rest }).deliverFault p.code p.addr true p.eng p.org.pc p.org.word p.lanes pc

/-- Why the handler's first clause is a double fault (R387). -/
def State.handlerFault (e : Entry) (s : State) : Option FltCode :=
  if s.focus.r.flt.sup && e.pc == s.ownCore.trapvec then
    match (s.fetchWord s.focus e.pc.toNat 0).2 with
    | .fault f _ _ => some f
    | .ok w => if bit w.toNat 4 then none else some .prot
  else none

/-- The boundary test of R193 before the clause of an entry. -/
def State.boundaryAt (s : State) (c : Crew) (e : Entry) : Bool :=
  let ch := c.chunk
  match (s.fetchClause c e.pc).2 with
  | .ok (h, ws) =>
    let b := clauseBounds (laneList (e.issuing c.r)).length ch.logV (clauseInstrs h.cls 16 1 (ws.map BitVec.toNat))
    decide (ch.len.toNat ≤ ch.issued) || decide (32 < ch.lines + b.1) || decide (256 < ch.logUnits + b.2) || h.cb || s.stopsAt c e
  | .fault .. => decide (ch.len.toNat ≤ ch.issued) || ((s.peekWord c e.pc).map headCb).getD false

/-- The crew stops at the clause of an entry (R86): its live-mask record is fetched, and decides what its image holds. -/
def State.stopAt (e : Entry) (s : State) : State :=
  match s.liveRecord s.focus e.pc ((s.peekSafept s.focus e.pc).getD 0) with
  | (s, .fault f a _) => s.faultAt e f a 1
  | (s, .ok m) => s.mapFocus fun c => { c with
      phase := .stopped, chunk := Chunk.empty, task := { c.task with live := if c.r.frontier.length = 1 then m else none } }

/-- A chunk begins (R193, R198, R209): the shadow is taken, and what is in flight outlives a rollback (R26). -/
def State.beginChunk (e : Entry) (s : State) : State :=
  let k := s.ownCore
  s.mapFocus fun c =>
    let r := { c.r with inflight := c.r.inflight.map fun x => { x with old := true } }
    let again := c.replay.replay && c.chunk.first == e.pc
    { c with
      r := r
      shadow := r
      chunk := { Chunk.empty with
        first := e.pc
        len := if again then c.chunk.len else k.chklen
        retry := if again then c.chunk.retry else k.chkretry } }

/-- The clause of an entry is fetched and begins to issue (R21, R25, R41, R42, R81). -/
def State.issueClause (e : Entry) (s : State) : State :=
  let c := s.focus
  let first := c.chunk.first
  let lanes := e.issuing c.r
  let bad := fun (f : FltCode) (a : Dword) (w : BitVec 4) (s : State) =>
    s.rollback.deliverFault f.num a false false e.pc w lanes first
  match s.fetchClause c e.pc with
  | (s, .fault f a w) => bad f a w s
  | (s, .ok (h, ws)) =>
    match clauseFault h 16 1 (ws.map BitVec.toNat) with
    | some i => bad .clause 0 (BitVec.ofNat 4 i) s
    | none => ((s.noteUse e.pc.toNat).noteUse (e.pc.toNat + 4 * ws.length)).mapFocus fun c => { c with
        r := c.r.clearMarks h.wait lanes
        chunk := { c.chunk with clauses := c.chunk.clauses + 1 }
        cur := some ⟨e.pc, h, ws, 1, lanes, none, none, false, false⟩ }

/-- The entry is selected (R193): the chunk ends before it, or the crew stops, or its clause issues. -/
def State.selectEntry (e : Entry) (s : State) : State :=
  let c := s.focus
  match s.handlerFault e with
  | some f => match c.trap with
    | some t => s.rollback.doubleFault f.num t.cause t.addr
    | none => s.rollback.doubleFault f.num 0 0
  | none =>
    if c.chunk.clauses ≠ 0 then
      if s.boundaryAt c e then s.endChunk e else s.issueClause e
    else if s.stopsAt c e then s.stopAt e
    else (s.beginChunk e).issueClause e

/-- The split of a range frame has no room in its pedigree (R257, R269). -/
def rangeDeep (x : RangeRec) (pg : List Level) : Bool :=
  decide (x.lo < x.hi) && decide (x.grain < x.hi - x.lo) && (decide (32 ≤ pg.length) || (lastLevel pg).rank == 65535)

/-- The entry at which the crew stops, now that the chunk that pre-emption ended before it has committed (R86). -/
def State.stopEntry (s : State) (c : Crew) : Option Entry :=
  if c.chunk.clauses = 0 then (c.chunk.stop.bind fun pc => c.r.frontier.find? fun e => e.pc = pc).filter (s.stopsAt c) else none

/-- What comes before a selection: a fault that waits, the reducer table, a range frame's step, exclusive mode. -/
def State.select (s : State) : State :=
  let c := s.focus
  if !c.selects then s
  else match c.post with
    | p :: ps => if c.chunk.clauses = 0 then s.deliverPost p ps else s.mapChunk fun ch => { ch with ends := true }
    | [] =>
      match s.firstEntry c c.r.frontier with
      | none => s
      | some e0 =>
        if s.tableDue c && c.chunk.clauses == 0 then s.tableCheck e0
        else match c.task.range, c.r.flt.sup with
          | some x, false => if s.stopping c then s else if rangeDeep x c.r.pedigree then s.faultAt e0 .pedovf 0 0 else s.rangeStep c x
          | _, _ =>
            if c.replay.replay && c.chunk.clauses == 0 && decide (16 ≤ c.replay.conf) && !c.replay.excl then s
            else match (s.stopEntry c).orElse fun _ => s.choose c with
              | some e => s.selectEntry e
              | none =>
                if s.stopping c && c.chunk.clauses != 0 && c.r.live &&& ~~~c.r.blocked == 0 then
                  s.mapChunk fun ch => { ch with ends := true }
                else s

def execFrontierSelection (c : Nat) (s : State) : Out := .next (s.onCrew c State.select)

/-! Redirects, walks, completions -/

/-- REDIRECT_COMPLETION (R97): the entry of crew `c` at `pc` may be selected again. -/
def execRedirectCompletion (c : Nat) (pc : BitVec 57) (s : State) : Out :=
  .next (s.mapCrew c fun x => { x with
    r := { x.r with frontier := x.r.frontier.map fun e => if e.pc = pc then { e with redir := false } else e } })

/-- TABLE_WALK (R173 to R177): the translation of an address for crew `c` enters its TLBs. -/
def execTableWalk (c : Nat) (va : BitVec 64) (s : State) : Out :=
  .next (match s.crew? c with
    | some x => if va.toNat < winOwn then (s.lookup (s.space x false) va.toNat).1 else s
    | none => s)

/-- The same instruction in flight, as the registers or the shadow hold it. -/
def Inflight.same (x y : Inflight) : Bool := { x with lost := [] } == { y with lost := [] }

/-- An instruction that waits for nothing but its latency. -/
def LongKind.due : LongKind → Bool
  | .plain | .sfu true => true
  | _ => false

/-- LONG_LATENCY_COMPLETION (R23): the `k`-th instruction in flight of crew `c` writes its results. -/
def execLongLatencyCompletion (c k : Nat) (s : State) : Out :=
  .next (match (s.crew? c).bind fun x => x.r.inflight[k]? with
    | some x => if x.kind.due then s.mapCrew c (Crew.mapBoth (Regs.complete x.same [])) else s
    | none => s)

/-- The special-function unit accepts the first waiting instruction. -/
def acceptFirst : List Inflight → List Inflight
  | [] => []
  | x :: l => if x.kind = .sfu false then { x with kind := .sfu true } :: l else x :: acceptFirst l

def Regs.acceptSfu (r : Regs) : Regs := { r with inflight := acceptFirst r.inflight }

/-- SFU_ACCEPTANCE (R165): the unit of a core takes the next waiting instruction, round robin over the slots. -/
def State.sfuAccept (core : Nat) (s : State) : State :=
  let waits := fun (j : Nat) => (s.onCore core).any fun c => c.slotOn core == some j && c.r.sfuWaits
  let from_ := (s.coreAt core).sfu
  match ((List.range 16).map fun i => (from_ + 1 + i) % 16).find? waits with
  | none => s
  | some j =>
    (s.mapCrews fun c => if c.slotOn core = some j then c.mapBoth Regs.acceptSfu else c).mapCore core fun k => { k with sfu := j }

def execSfuAcceptance (core : Nat) (s : State) : Out := .next (s.sfuAccept core)

/-! FENCE (R230) -/

/-- The FENCE at which a crew waits: its origin, scope and destination. -/
def Crew.fence (c : Crew) : Option (Origin × Nat × Fin 64) :=
  match c.phase, c.chunk.acts with
  | .acting, ⟨org, .fence scope d⟩ :: _ => some (org, scope, d)
  | _, _ => none

/-- A FENCE ends: s[D] takes its status, the action is over. Status 2 adds a record to the event log, and with D = 0 raises PEER with
the first peer that failed. -/
def State.fenceDone (c : Crew) (org : Origin) (d : Fin 64) (f : FenceWait) (s : State) : State :=
  let status := if !f.failed.isEmpty then 2 else if f.links.isEmpty then 0 else 1
  let s := { s with fences := s.fences.filter fun f => f.crew != c.uid }.mapCrew c.uid fun c =>
    { c with r := c.r.writeS d (BitVec.ofNat 64 status), chunk := c.chunk.pop }
  match f.failed with
  | [] => s
  | k :: _ =>
    let s := s.event 2 k .fence (s.queueOf c.task.launch) (BitVec.ofNat 64 k)
    if d = 0 then s.postFault c.uid .peer (BitVec.ofNat 64 k) org org.lanes false else s

/-- FENCE_WAIT_END: every STREAM write of the crew is visible at its scope and, at scopes pod and sys, every posted write is
acknowledged. At narrower scopes the status is 0. -/
def State.fenceWaitEnd (uid : Nat) (s : State) : State :=
  match s.crew? uid, s.fences.find? fun f => f.crew == uid with
  | some c, some f => match c.fence with
    | some (org, scope, d) =>
      if !s.shown uid c.core scope then s
      else if scope < 5 then s.fenceDone c org d { f with links := [], failed := [] }
      else s.fenceDone c org d f
    | none => s
  | _, _ => s

def execFenceWaitEnd (c : Nat) (s : State) : Out := .next (s.fenceWaitEnd c)

/-- When a FENCE has waited long enough for the peer of a posted write (R230, R231): its link went down, or has been retraining for
LINK_TMO while the FENCE waits. -/
def State.lostAt (s : State) (f : FenceWait) (p : Posted) : Option Nat :=
  match p.peer with
  | none => none
  | some k =>
    if p.lost || s.link (some k) == .down then some f.since
    else match s.link (some k), f.links.find? fun l => l.1 == k with
      | .retraining, some (_, t) => if t + s.hub.regs.linkTmo.toNat ≤ s.now then some (t + s.hub.regs.linkTmo.toNat) else none
      | _, _ => none

/-- The peers that have failed a FENCE by now: those already known, then the others by the time of their failure, links that were down
when the wait began in the order in which they went down. -/
def State.fenceFailed (s : State) (f : FenceWait) : List Nat :=
  let now := (s.posted.filter fun p => p.crew == f.crew).filterMap fun p => (s.lostAt f p).bind fun t => p.peer.map fun k => (t, k)
  let before := fun (a b : Nat × Nat) => decide (a.1 < b.1) || (a.1 == b.1 && decide (s.hub.failed.idxOf a.2 ≤ s.hub.failed.idxOf b.2))
  (f.failed ++ (now.mergeSort before).map (·.2)).eraseDups

/-- LINK_TIMEOUT: the peers that have failed the FENCE of crew `c` are known; where no write that it waits for can be confirmed any
more, it ends with status 2. -/
def State.linkTimeout (uid : Nat) (s : State) : State :=
  match s.crew? uid, s.fences.find? fun f => f.crew == uid with
  | some c, some f => match c.fence with
    | some (org, scope, d) =>
      let f' := { f with failed := s.fenceFailed f }
      let mine := s.posted.filter fun p => p.crew == uid
      if scope < 5 || f'.failed.isEmpty then s
      else if s.shown uid c.core 4 && mine.all fun p => (s.lostAt f p).isSome then
        State.fenceDone c org d f' { s with posted := s.posted.filter fun p => p.crew != uid }
      else { s with fences := s.fences.map fun x => if x.crew = uid then f' else x }
    | none => s
  | _, _ => s

def execLinkTimeout (c : Nat) (s : State) : Out := .next (s.linkTimeout c)

end Sys2Proof.Machine
end

