-- ==== Sys2Proof/Machine/Issue.lean ====
section
/-! DEFINITION. What surrounds the execution of a word (R22, R35, R36, R81, R85, R197): the checks before it, the counts
and the advance after it, and the end of its clause. -/
namespace Sys2Proof.Machine

/-- The words of the clause in issue from the next one on. -/
def Clause.rest (c : Clause) : List Nat := (c.words.drop (c.idx - 1)).map BitVec.toNat

/-- The number of words that the next instruction takes. -/
def Clause.len (c : Clause) : Nat :=
  match c.rest with
  | w :: l => wordLen c.header.cls c.idx w (l.headD 0)
  | [] => 1

/-- The next instruction of the clause in issue, as its word stands there. -/
def Clause.word (c : Clause) : Option Instr :=
  match c.rest with
  | w :: l => (decodeAt c.header.cls c.idx w l).map (·.1)
  | [] => none

/-- The instruction to issue: the word's, or the next repeat of a REP (R35). -/
def Clause.instr (c : Clause) : Option Instr :=
  match c.rep with
  | none => c.word
  | some p => c.word.bind (stepInstr p.step p.done)

/-- What a merge routine may use (R301): SEQ but for SAFEPT, VI, VF, and loads with their ORD. -/
def routineMay (i : Instr) : Bool :=
  match i with
  | .safept .. => false
  | .ld .. | .lde .. | .ldu .. | .ldx .. | .ldp .. | .ord .. => true
  | _ => i.cls == some .seq || i.cls == some .vi || i.cls == some .vf

/-- SAFEPT itself is counted neither by SAFECNT nor against its limit (R85). -/
def isSafept (i : Instr) : Bool :=
  match i with
  | .safept .. => true
  | _ => false

/-- Why the next instruction does not issue: no valid encoding (R41), one that a merge routine may not use (R301), or
SAFECNT at its limit (R85), which a repeat is not checked against. -/
def State.unissuable (s : State) : Option FltCode :=
  match s.clause.instr with
  | none => some .illegal
  | some i =>
    if s.focus.task.kind == .routine && !routineMay i then some .illegal
    else if !isSafept i && s.clause.rep.isNone && !s.focus.r.flt.sup && s.focus.r.safecnt == 4096 then some .safedist
    else none

/-- REPC before a repeat: the repeats that remain after it (R35). -/
def State.setRepc (s : State) : State :=
  match s.clause.rep with
  | none => s
  | some p => s.mapR fun r => { r with repc := BitVec.ofNat 6 (p.left - 1) }

/-- The counts of an instruction that has issued (R85, R197). -/
def State.countIssue (i : Instr) (s : State) : State :=
  s.mapFocus fun c => { c with
    chunk := { c.chunk with issued := c.chunk.issued + 1 }
    r := if isSafept i then c.r else { c.r with safecnt := c.r.safecnt + 1 } }

/-- The clause after an instruction: the next repeat, or the next word; ORD governs just the word after it (R36). -/
def Clause.advance (i : Instr) (c : Clause) : Clause :=
  match c.rep with
  | some p =>
    match i with
    | .rep .. => { c with idx := c.idx + c.len }
    | _ => if p.left ≤ 1 then { c with rep := none, idx := c.idx + c.len } else { c with rep := some { p with done := p.done + 1, left := p.left - 1 } }
  | none => match i with
    | .ord .. => { c with idx := c.idx + c.len }
    | _ => { c with idx := c.idx + c.len, order := none }

/-- After its last word, a clause is over: threads that no control transfer has moved fall through (R79). -/
def State.endClause (s : State) : State :=
  let c := s.clause
  if c.header.count.val < c.idx then
    let s := if c.moved then s else s.mapR fun r => { r with
      frontier := advanceFrontier c.addr (laneList c.lanes) (fun _ => (c.next, false)) false r.frontier }
    s.mapFocus fun c => { c with cur := none }
  else s

/-- An atomic task's chunk may end only with the exit of its last thread (R282); its fault handler runs in chunks of its own
(R388). -/
def State.atomicBreach (ended : Bool) (s : State) : Bool :=
  s.focus.task.atomic && !s.focus.r.flt.sup && s.focus.chunk.ends && !ended && s.focus.r.live != 0

/-- What follows an instruction that has issued: nothing where it faulted or waits; else its counts and the advance.
`ended`: the chunk was to end before it. -/
def State.afterWord (i : Instr) (ended : Bool) (s : State) : State :=
  match s.focus.cur with
  | none => s
  | some c =>
    if c.held then s
    else if s.atomicBreach ended then s.raise (flt .illegal 0)
    else ((s.countIssue i).mapCur (Clause.advance i)).endClause

/-- The state in which the next instruction executes. -/
def State.beforeWord (s : State) : State := (s.mapCur fun c => { c with held := false }).setRepc

end Sys2Proof.Machine
end

