-- ==== Sys2Proof/Machine/Merges.lean ====
section
/-! DEFINITION. The scarab's merges of views (R296, R297, R301, R304): of two adjacent entries of a sync block, or of the
final views of a RESIDENT launch's crews (R300), and USER merges by the launch's routine. -/
namespace Sys2Proof.Machine

/-! The entries of a list of views (R296, R300) -/

/-- The final views of a launch's crews in increasing g. -/
def Launch.ordered (l : Launch) : List (Nat × Views) := l.finals.mergeSort fun a b => decide (a.1 ≤ b.1)

/-- Every crew of a launch has ended, but for merge routines. -/
def State.crewsEnded (s : State) (launch : Nat) : Bool :=
  !s.crews.any fun c => c.uid != 0 && c.task.launch == launch && c.task.kind != .routine

/-- What a merge names: a crew's sync block, whose strand so far is its last entry while it runs; or the final views of
a launch whose crews have ended. -/
def State.mergeBlock (uid : Nat) (s : State) : List BlockItem :=
  match s.crew? uid with
  | some c => c.task.block
  | none => match s.launch? uid with
    | some l => if s.crewsEnded uid then l.ordered.map fun x => .joined x.2 else []
    | none => []

/-- Replace the views of entry `k`. -/
def setItem (k : Nat) (f : Views → Views) (b : List BlockItem) : List BlockItem :=
  b.zipIdx.map fun x => if x.2 = k then (match x.1 with | .own v => .own (f v) | .joined v => .joined (f v) | y => y) else x.1

def State.setMergeItem (uid k : Nat) (f : Views → Views) (s : State) : State :=
  match s.crew? uid with
  | some _ => s.mapCrew uid fun c => { c with task := { c.task with block := setItem k f c.task.block } }
  | none => s.mapLaunch uid fun l => { l with finals := l.ordered.zipIdx.map fun x => if x.2 = k then (x.1.1, f x.1.2) else x.1 }

/-- The first two entries touched in a reducer with no child still running between them. -/
def adjacent (i : Fin 16) : List (BlockItem × Nat) → Option (Nat × ViewVal) → Option ((Nat × ViewVal) × (Nat × ViewVal))
  | [], _ => none
  | (.kid _, _) :: l, _ => adjacent i l none
  | (b, k) :: l, left => match b.views.get i, left with
    | some v, some x => some (x, (k, v))
    | some v, none => adjacent i l (some (k, v))
    | none, x => adjacent i l x

/-- The crew or launch under which a merge acts: its launch, and the core whose scarab merges. -/
def State.mergeHost (s : State) (uid : Nat) : Option (Nat × Nat × List Level) :=
  match s.crew? uid with
  | some c => some (c.task.launch, c.core, c.r.pedigree)
  | none => (s.launch? uid).map fun l => (uid, ((s.hub.regs.coresIn l.packet.dieset).headD 0), [⟨0, 0⟩])

/-- The kind of a reducer of a launch. -/
def State.redOf (s : State) (launch : Nat) (i : Fin 16) : RedEntry :=
  ((((s.launch? launch).bind Launch.reducers).getD [])[i.val]?).getD ⟨0, 0, 0⟩

/-! VIEW_MERGE -/

/-- Under the number of the crew or launch whose views merge, the scarab writes the head of the right list into the next field of the left list's tail (R297, R304). -/
def State.linkTail (id launch core : Nat) (pg : List Level) (x y : ViewVal) (s : State) : State × Bool :=
  match x, y with
  | .app _ tail _ _, .app head _ _ _ =>
    let c := { Crew.empty with place := .slot core 0, task := { Task.none with launch := launch }, r := { Regs.reset with pedigree := pg } }
    let (s, ls) := s.locateSegment c tail 8
    match s.passStores id ls with
    | (s, true) => (ls.foldl (fun s l => s.engineStore id core l (leBytes 8 head.toNat)) s, true)
    | r => r
  | _, _ => (s, true)

/-- VIEW_MERGE: two adjacent entries of a list merge in a reducer of any kind but USER. -/
def State.viewMerge (uid : Nat) (i : Fin 16) (s : State) : State :=
  match s.mergeHost uid, adjacent i (s.mergeBlock uid).zipIdx none with
  | some (launch, core, pg), some ((j, x), (k, y)) =>
    let kind := (s.redOf launch i).kind
    if kind = 7 then s
    else match s.linkTail uid launch core pg x y with
      | (s', false) => s.waitAs s'
      | (s, true) => (s.setMergeItem uid j (·.put i (mergeView kind x y))).setMergeItem uid k (·.del i)
  | _, _ => s

def execViewMerge (c : Nat) (i : Fin 16) (s : State) : Out := .next (s.viewMerge c i)

/-! USER_MERGE_ROUTINE -/

/-- The eight dwords of a user image. -/
def imageDwords (v : ViewVal) : List Dword :=
  match v with
  | .usr x => (List.range 8).map fun k => BitVec.ofNat 64 (bits x.toNat (64 * k) 64)
  | _ => List.replicate 8 0

/-- The `view.usr` word at which a crew waits, with its images (R304). -/
def Crew.heldUsr (c : Crew) (i : Fin 16) : Option (ViewVal × ViewVal) :=
  c.cur.bind fun cl =>
    if cl.held then match cl.instr with
      | some (.view j a _ 2) => if i = j then (c.r.views.get i).map fun x => (x, .usr (c.r.userImage a)) else none
      | _ => none
    else none

/-- The sixteen dwords of two images. -/
def imagePair (v : ViewVal × ViewVal) : List Dword := imageDwords v.1 ++ imageDwords v.2

/-- What a USER merge has to do for a crew or launch: its images, and where they come from: two entries of a list, or
the images themselves for a held word. -/
def State.userTask (s : State) (uid : Nat) (i : Fin 16) : Option ((ViewVal × ViewVal) × List Dword) :=
  match (s.crew? uid).bind fun c => c.heldUsr i with
  | some v => some (v, imagePair v)
  | none => (adjacent i (s.mergeBlock uid).zipIdx none).map fun p =>
    ((p.1.2, p.2.2), [BitVec.ofNat 64 p.1.1, BitVec.ofNat 64 p.2.1])

/-- The routine starts in a slot of the core (R260, R301). -/
def State.startRoutine (uid : Nat) (i : Fin 16) (launch core : Nat) (pg : List Level) (v : ViewVal × ViewVal)
    (entries : List Dword) (s : State) : State :=
  let (s, id) := s.freshId
  let q : SpawnReq := ⟨(s.redOf launch i).routine.truncate 57, [], 1, pg, 1, 0, 0, false, none, none, 0⟩
  let key := ((s.launch? launch).map fun l => l.packet.keyslot).getD 0
  let args := imagePair v
  let r := { q.regs (s.privReq launch) 0 0 key with s := tab 64 fun k => if k.val = 0 then 0 else args.getD (k.val - 1) 0 }
  let c := q.crew id launch core .routine (some uid) none r
  let s := { s with pool := s.pool ++ [{ c with task := { c.task with merge := some (uid, i), args := entries } }] }
  s.placeOn id core uid

/-- The routine of a merge. -/
def State.routineOf (s : State) (uid : Nat) (i : Fin 16) : Option Crew :=
  s.crews.find? fun c => c.uid != 0 && c.task.kind == .routine && c.task.merge == some (uid, i)

/-- The slot and the slices of a routine are free. -/
def State.endRoutine (c : Crew) (s : State) : State :=
  let s := match c.task.group with
    | some g => s.mapLaunch c.task.launch fun l => { l with groups := l.groups.filter (· != g) }
    | none => s
  s.removeCrew c.uid

/-- The crew still waits at the word for which the routine ran: no rollback has come between (R208). -/
def State.stillHeld (s : State) (uid : Nat) (i : Fin 16) (args : List Dword) : Bool :=
  ((s.crew? uid).bind fun c => c.heldUsr i).map imagePair == some args

/-- The merged image reaches the held word's view, or the list. -/
def State.userMerged (uid : Nat) (i : Fin 16) (c : Crew) (s : State) : State :=
  let v := ViewVal.usr (c.r.userImage 1)
  match c.task.args with
  | [j, k] => (s.setMergeItem uid j.toNat (·.put i v)).setMergeItem uid k.toNat (·.del i)
  | args => if !s.stillHeld uid i args then s else s.onCrew uid fun s =>
    match s.clause.instr with
    | some w => ((s.mapR fun r => { r with views := r.views.put i v }).mapCur fun cl => { cl with held := false }).afterWord w
        s.focus.chunk.ends
    | none => s

/-- A fault in the routine is raised as VIEW where its merge was required: at the held word; in the frame, before its
next clause; or, where every crew has ended, in the launch (R300, R301). -/
def State.userFailed (uid : Nat) (i : Fin 16) (c : Crew) (s : State) : State :=
  let a := c.r.flt.pcWord64
  match c.task.args, s.crew? uid with
  | [_, _], some p =>
    (s.postFault uid .view a ⟨(p.r.frontier.map Entry.pc).headD 0, 0, 0⟩ 0 false).mapCrew uid fun p =>
      { p with task := { p.task with merge := some (uid, i) } }
  | [_, _], none => s.endLaunch uid 2 (FltCode.view.num.zeroExtend 64) a
  | args, _ => if s.stillHeld uid i args then s.onCrew uid fun s => s.raise ⟨.view, a, none, none⟩ else s

/-- USER_MERGE_ROUTINE: the routine of a merge starts; or, once it has ended, its result or its fault is taken. -/
def State.userMerge (uid : Nat) (i : Fin 16) (s : State) : State :=
  match s.routineOf uid i with
  | some c =>
    if c.phase == .halted then (s.endRoutine c).userFailed uid i c
    else if c.over then (s.endRoutine c).userMerged uid i c
    else s
  | none =>
    match s.mergeHost uid, s.userTask uid i with
    | some (launch, core, pg), some (v, entries) =>
      let broken := match s.crew? uid with
        | some c => !c.post.isEmpty || c.task.merge.isSome
        | none => ((s.launch? uid).bind Launch.ended).isSome
      if broken || (s.redOf launch i).kind ≠ 7 then s else s.startRoutine uid i launch core pg v entries
    | _, _ => s

def execUserMergeRoutine (c : Nat) (i : Fin 16) (s : State) : Out := .next (s.userMerge c i)

end Sys2Proof.Machine
end

