-- ==== Sys2Proof/Machine/Sched.lean ====
section
/-! DEFINITION. The scheduler on the hub (R402 to R405, R410 to R413): queues, slots, launch packets, the start and the end
of launches, rotation. -/
namespace Sys2Proof.Machine

/-! Queues in slots (R404, R405, R413) -/

/-- The launch of a queue; its launches run one at a time. -/
def State.launchOf (s : State) (q : Nat) : Option Launch := s.sched.launches.find? fun l => l.queue == q

/-- The launch that runs in a hardware slot. -/
def State.running (s : State) (slot : Nat) : Option Launch := s.sched.launches.find? fun l => l.slot == some slot && !l.saved

/-- The saved context of a launch. -/
def State.ctx? (s : State) (launch : Nat) : Option SavedCtx := s.sched.saved.find? fun x => x.launch == launch

/-- A hardware slot passes to the queue that waits for it, or is free; its translations go (R177, R405). -/
def State.passSlot (i : Nat) (s : State) : State :=
  { s with sched := { s.sched with slots := s.sched.slots.modify i fun x => ⟨x.next, none⟩ } }.dropTlb i fun _ _ => true

/-- A queue leaves a hardware slot: the one that it holds, or waits for (R405). -/
def State.leaveSlot (q i : Nat) (s : State) : State :=
  let holds := ((s.sched.slots[i]?).bind QSlot.queue) == some q
  let s := { s with sched := { s.sched with slots := s.sched.slots.modify i fun y => if y.next = some q then { y with next := none } else y } }
  if holds then s.passSlot i else s

/-- A queue has work: it is ready, or holds a saved launch that may resume (R401, R413, R423). -/
def State.wants (s : State) (x : Queue) : Bool :=
  x.ready || (!x.disabled && !x.copying && (s.launchOf x.num).any Launch.saved)

/-- A queue's standing after a change: the time at which it last became ready and unmapped, which it keeps while it is mapped, and
its slot, which it frees where it is no longer ready and runs nothing (R404, R405, R413). -/
def State.settleQueue (q : Nat) (s : State) : State :=
  match s.queue? q with
  | none => s
  | some x =>
    match x.slot with
    | none => s.mapQueue q fun x => { x with since := if s.wants x then (x.since.orElse fun _ => some s.now) else none }
    | some i =>
      if s.wants x || (s.running i).any fun l => l.queue == q then s
      else (s.mapQueue q fun x => { x with slot := none, since := none }).leaveSlot q i

/-- The scheduler reads a queue's STATE (R413); one that is neither 0 nor 1 refuses its packets (R411). -/
def State.readState (q : Nat) (s : State) : State :=
  let (s, d, _) := s.readDesc q
  let bad := decide (1 < d.state)
  let s := if bad && !((s.queue? q).map Queue.refused).getD false then s.event 5 0 .descriptor q 0 else s
  (s.mapQueue q fun x => { x with disabled := d.state == 0, refused := x.refused || bad }).settleQueue q

/-! DOORBELL (R412) -/

/-- An access to a queue that the table does not hold gets an Unsupported Request, and its address is logged. -/
def State.doorbell (q : Nat) (tail : Nat) (s : State) : State :=
  let off := 0x100000 + 8 * q
  if s.sched.qtcount ≤ q then
    let s := { s with outbox := s.outbox ++ [Output.unsupported off] }
    s.event 5 0 .doorbell 0xFFFFFFFF (BitVec.ofNat 64 off)
  else
    let s := (s.knowQueue q).readState q
    let (s, d, _) := s.readDesc q
    match s.queue? q with
    | none => s
    | some x =>
      if tail ≤ x.tail then s
      else if x.head + d.qsize < tail then s.event 5 0 .doorbell q (BitVec.ofNat 64 tail)
      else (s.mapQueue q fun x => { x with tail := tail }).settleQueue q

/-! Packets (R402, R403) -/

/-- A packet from its 128 bytes, and whether a reserved value or byte stands in it. -/
def parsePacket (b : List Byte) : Packet × Bool :=
  let d := fun o => BitVec.ofNat 64 (fieldOf b o 8)
  let p : Packet := ⟨d 0, d 8, fieldOf b 16 1, BitVec.ofNat 8 (fieldOf b 17 1), fieldOf b 18 1 % 8, fieldOf b 19 1, fieldOf b 20 4,
    fieldOf b 24 8, fieldOf b 32 8, fieldOf b 40 8, fieldOf b 48 4, fieldOf b 52 4, d 56, d 64, d 72,
    BitVec.ofNat 12 (fieldOf b 80 2), d 88⟩
  let range := p.mode == 1
  (p, decide (2 < p.mode) || decide (8 ≤ fieldOf b 18 1) || decide (2 ≤ p.flags) || decide (4096 ≤ fieldOf b 80 2) ||
    fieldOf b 82 6 != 0 || fieldOf b 96 32 != 0 || (!range && (p.lo != 0 || p.hi != 0 || p.grain != 0)))

/-- The 128 bytes at a virtual address of a queue, as the scheduler reads them: through no core's TLB. -/
def State.readPacket (slot root va : Nat) (s : State) : State × Option (List Byte) :=
  match s.translate ⟨slot, root, true, noCore⟩ ⟨true, false, false⟩ (va % 2 ^ 57) with
  | (s, .ok leaf pa _) =>
    if 2 ^ 56 ≤ va || s.badAt pa 128 then (s, none)
    else if isHbm pa then
      let s := s.readLine (lineOf pa)
      (s, some ((List.range 128).map fun i => s.byteUnder (BitVec.ofNat 12 (pteKey leaf)) (pa + i)))
    else (s, some ((List.range 128).map fun i => Config.outsideByte s.free (pa + i)))
  | (s, .fault _) => (s, none)

/-- The packet at the head of a queue's ring. -/
def State.headPacket (d : Desc) (slot head : Nat) (s : State) : State × Option (List Byte) :=
  s.readPacket slot d.rootpt (d.qbase.toNat + 128 * (head % d.qsize))

/-- A queue's base priority (R404): that of its launch, or of its oldest packet; 0 where that cannot be read. The scheduler reads it. -/
def State.readPri (x : Queue) (s : State) : State × Nat :=
  match s.launchOf x.num with
  | some l => (s, l.packet.pri)
  | none => match s.readDesc x.num with
    | (s, d, true) => match s.headPacket d 64 x.head with
      | (s, b) => (s, (b.map fun b => (parsePacket b).1.pri).getD 0)
    | (s, _, false) => (s, 0)

def State.basePri (s : State) (x : Queue) : Nat := (s.readPri x).2

/-- Two logical dies of the set name one physical die (R395). -/
def twiceMapped (p : PkgRegs) (set : BitVec 8) : Bool :=
  let ds := ((List.range 8).filter fun i => set.getLsbD i).map fun i => p.diemap.getD i 0
  ds.eraseDups.length != ds.length

/-- The packet is refused, its ENTRY aside (R403). -/
def State.badPacket (s : State) (p : Packet) (reserved : Bool) : Bool :=
  let n := if p.mode = 2 then p.crews else 1
  reserved || p.dieset == 0 || twiceMapped s.hub.regs p.dieset || (s.hub.regs.coresIn p.dieset).isEmpty ||
    (if p.mode = 2 then decide (p.crews = 0) || decide (16 < p.crews) else decide (p.crews ≠ 0)) ||
    decide (2 ^ 19 < n * p.spmreq) || !s.hub.holdsKey p.keyslot.toNat ||
    p.redtab.toNat % 64 != 0 || p.arenaBase.toNat % 128 != 0 || p.compl.toNat % 32 != 0 || p.spmreq % 128 != 0 || p.privreq % 128 != 0

/-! The deal (R270) -/

/-- apportion: N units over weights. -/
def apportion (n : Nat) (ws : List Nat) : List Nat :=
  let w := ws.sum
  if w = 0 then ws.map fun _ => 0
  else
    let qs := ws.map fun x => n * x / w
    let rems := ws.map fun x => n * x % w
    let extra := n - qs.sum
    let order := (rems.zipIdx.mergeSort fun a b => decide (b.1 ≤ a.1)).map (·.2)
    qs.zipIdx.map fun q => if (order.take extra).contains q.2 then q.1 + 1 else q.1

/-- deal: the pieces of each core of a die set, in logical order. -/
def PkgRegs.deal (p : PkgRegs) (set : BitVec 8) (n : Nat) : List (Nat × Nat) :=
  let dies := ((List.range 8).filter fun i => set.getLsbD i).map p.coresOf
  ((apportion n (dies.map List.length)).zip dies).flatMap fun x =>
    let rafts := ((x.2.map fun k => k / 4).eraseDups).map fun q => x.2.filter fun k => k / 4 == q
    ((apportion x.1 (rafts.map List.length)).zip rafts).flatMap fun y =>
      (y.2.zip (apportion y.1 (y.2.map fun _ => 1)))

/-! LAUNCH_START (R402, R403) -/

/-- The crew as which the scheduler acts for a launch, on no core (R191). -/
def Launch.agent (l : Launch) (sup : Bool) : Crew :=
  { Crew.empty with
    place := .slot noCore 0, task := { Task.none with launch := l.uid }, r := { Regs.reset with flt := { FltRegs.reset with sup := sup } } }

/-- A launch whose packet is at the head of a queue. -/
def Queue.launch (x : Queue) (uid slot : Nat) (p : Packet) (deal : List (Nat × Nat)) : Launch :=
  ⟨uid, (x.head + 1) % 2 ^ 32, x.num, some slot, p, x.desc, p.redtab != 0, none, deal, [], [], [], 384, none, false, none, [], 0, [], []⟩

/-- A root crew (R255, R402). -/
def Launch.root (l : Launch) (uid core : Nat) (kind : TaskKind) (pg : List Level) (args : List Dword) (range : Option (Nat × Nat × Nat × Bool)) :
    Crew :=
  let p := l.packet
  let q : SpawnReq := ⟨p.entry.truncate 57, args, BitVec.allOnes 32, pg, 1, p.arenaBase.truncate 57,
    (p.arenaBase + p.arenaSize).truncate 57, false, range, none, 0⟩
  q.crew uid l.uid core kind none (range.map fun _ => 0) (q.regs p.privreq p.redtab 0 p.keyslot)

/-- A new crew joins the machine. -/
def State.addRoot (l : Launch) (core : Nat) (kind : TaskKind) (pg : List Level) (args : List Dword)
    (range : Option (Nat × Nat × Nat × Bool)) (s : State) : State × Nat :=
  let (s, uid) := s.freshId
  ({ s with pool := s.pool ++ [l.root uid core kind pg args range] }, uid)

/-- The core of a die set with the most free slots, the first in logical order among equals. -/
def State.freest (s : State) (cores : List Nat) : Nat :=
  cores.foldl (fun b k => if (s.freeSlots b).length < (s.freeSlots k).length then k else b) (cores.headD 0)

/-- The roots of a launch (R258, R402). -/
def State.startRoots (l : Launch) (s : State) : State :=
  let p := l.packet
  let cores := s.hub.regs.coresIn p.dieset
  match p.mode with
  | 0 =>
    let core := s.freest cores
    let (s, uid) := s.addRoot l core .root [⟨0, 0⟩] [p.args] none
    s.placeOn uid core 0
  | 1 =>
    let core := cores.headD 0
    let (s, uid) := s.addRoot l core .root [⟨0, 0⟩] [p.args] (some (p.lo, p.hi, max 1 p.grain, false))
    s.placeOn uid core 0
  | _ =>
    cores.zipIdx.foldl (fun s c => (List.range p.crews).foldl (fun s j =>
      let g := p.crews * c.2 + j
      (s.addRoot l c.1 .resident [⟨BitVec.ofNat 16 g, 0⟩, ⟨0, 0⟩]
        [p.args, BitVec.ofNat 64 g, BitVec.ofNat 64 (p.crews * cores.length)] none).1) s) s

/-- Whether the ENTRY passes R82 with LP required; the step is not taken where the check has to wait (R203, R246). -/
def State.entryOk (s : State) (l : Launch) : State × Bool :=
  let r := ({ s with focus := l.agent false } : State).checkTarget true l.packet.entry
  ({ s with stall := r.1.stall }, r.2.isNone)

/-- A queue in a slot whose launch may start: enabled, with a packet, none of its launches in progress. -/
def State.startable (s : State) (slot : Nat) : Option Queue :=
  ((s.sched.slots[slot]?).bind QSlot.queue).bind s.queue? |>.filter fun x =>
    s.hub.powered && x.slot == some slot && x.ready && (s.launchOf x.num).isNone

/-- LAUNCH_START: the packet at the head of the queue in a slot is read and checked, and its roots are created, with the header of its filter region (R311); one that
is refused is a launch that has ended with status 1. -/
def State.launchStart (slot : Nat) (s : State) : State :=
  match s.startable slot with
  | none => s
  | some x =>
    let (s, b) := s.headPacket x.desc slot x.head
    let b := b.getD (List.replicate 128 0)
    let (s, uid) := s.freshId
    let (p, reserved) := parsePacket b
    let cores := s.hub.regs.coresIn p.dieset
    let pieces := leaves (max 1 p.grain) (p.hi - p.lo)
    let deal := if p.mode = 1 && decide (p.lo < p.hi) && !cores.isEmpty then s.hub.regs.deal p.dieset pieces else []
    let l := x.launch uid slot p deal
    let cleared := s.cores.map fun c => { c with ct := c.ct.set slot 0 }
    let s := { s with cores := cleared, sched := { s.sched with launches := s.sched.launches ++ [l] } }
    let (s, ok) := s.entryOk l
    if x.refused || s.badPacket p reserved || !ok then s.endLaunch uid 1 0 0
    else (if bit p.flags 0 then s.pokeRfHeader l else s).startRoots l

def execLaunchStart (slot : Nat) (s : State) : Out := .next (s.launchStart slot)

/-! The end of a launch (R300, R403) -/

/-- Barrier objects that a launch owns are free (R321, R332). -/
def State.freeObjects (l : Launch) (s : State) : State :=
  let f := fun (bs : List Barrier) => bs.map (Barrier.free l.tag)
  { s with
    cores := s.cores.map fun c => { c with bars := f c.bars }
    rafts := s.rafts.map fun r => { r with bars := f r.bars }
    dies := s.dies.map fun d => { d with bars := f d.bars }
    hub := { s.hub with bars := f s.hub.bars, pods := f s.hub.pods } }

/-- The objects that package 0 holds for a launch, or has given back to it, are to be free (R318, R332). -/
def State.freePods (l : Launch) (s : State) : State :=
  let s := (s.podsOf l.uid).foldl (fun s n => s.tellPod 0 (.free n l.tag)) s
  (l.pods.foldl (fun s p => s.tellPod 0 (.free p.1 (match p.2 with | some [w] => w.truncate 32 | _ => l.tag))) s).mapLaunch l.uid
    fun l => { l with pods := [] }

/-- The engine commands of a launch leave their engines (R398). -/
def State.dropCommands (launch : Nat) (s : State) : State :=
  { s with cores := s.cores.map fun c => { c with
      barge := ⟨c.barge.queue.filter fun j => j.actor.launch != launch, c.barge.jobs.filter fun j => j.actor.launch != launch,
        c.barge.waits.filter fun j => j.actor.launch != launch, c.barge.owed.filter fun j => j.launch != launch⟩
      ten := c.ten.filter fun j => j.actor.launch != launch } }

/-- The crews of a launch leave the machine, with their entries in deques and hint queues and their grants. -/
def State.dropCrews (launch : Nat) (s : State) : State :=
  let us := (s.crews.filter fun c => c.uid != 0 && c.task.launch == launch).map Crew.uid
  let s := us.foldl (fun s u => (s.dropGrants u).removeCrew u) s
  let keep := fun (l : List Nat) => l.filter fun u => !us.contains u
  { s with
    cores := s.cores.map fun c => { c with deque := keep c.deque, spill := keep c.spill }
    dies := s.dies.map fun d => { d with hints := keep d.hints }
    fences := s.fences.filter fun f => !us.contains f.crew }

/-- A write of step 6 is performed at once, with the merges that it needs. -/
def State.forceAct (c : Crew) (a : Act) (s : State) : State :=
  (State.writeAct c a (match a.kind with
    | .sysStore l _ => if l.away then s else s.mergeLine (lineOf l.key)
    | .sysRed l _ _ _ => if l.away then s else s.mergeLine (lineOf l.key)
    | _ => s)).1

/-- The writes among a crew's step-6 actions are performed. -/
def State.flushActs (uid : Nat) (s : State) : State :=
  match s.crew? uid with
  | none => s
  | some c => (c.chunk.acts.filter fun a => a.kind.early).foldl (fun s a => State.forceAct c a s) s

/-- What a crew of a launch that ends has committed and not yet written is written; its uncommitted chunk rolls back
(R203, R398). -/
def State.finishCommit (c : Crew) (s : State) : State :=
  match c.phase with
  | .granted => (s.commitWrites c).flushActs c.uid
  | .acting => s.flushActs c.uid
  | _ => s.rollbackCrew c.uid

/-- A crew counts as stopped (R86, R332, R397, R398); a range frame that has not begun its leaf stands at no clause. -/
def Crew.isStopped (c : Crew) : Bool :=
  match c.phase with
  | .stopped | .parked | .suspended | .ending | .unstarted | .halted => c.task.kind != .routine
  | .run => c.cur.isNone && c.chunk.clauses == 0 && c.r.live != 0 &&
      (c.r.live &&& ~~~c.r.blocked == 0 || (c.task.range.isSome && !c.r.flt.sup)) && c.post.isEmpty &&
      c.task.kind != .routine
  | .acting => match c.chunk.acts with
    | [⟨_, .gang _ _ _ _⟩] => true
    | _ => false
  | _ => false

/-- A launch is stopped (R397): its crews; its engine commands, completed with the byte counts they owe, or suspended, none at a
latch. -/
def State.launchStopped (s : State) (launch : Nat) : Bool :=
  (s.crews.all fun c => c.uid == 0 || c.task.launch != launch ||
    (c.isStopped && c.r.inflight.all fun x => match x.kind with | .engine _ => true | _ => false)) &&
  s.cores.all fun k =>
    k.barge.waits.all (fun j => j.actor.launch != launch) && k.barge.owed.all (fun j => j.launch != launch) &&
    (k.barge.queue ++ k.barge.jobs).all (fun j => j.actor.launch != launch || j.st.isSuspended) &&
    k.ten.all fun j => j.actor.launch != launch || j.st.isSuspended

/-- Every write of a launch is visible at sys scope: no released line, and no posted write that an up link still carries,
is of a crew that has ended or runs for it. Crew 0 posts what nothing waits for. -/
def State.writesSeen (s : State) (launch : Nat) : Bool :=
  let other := fun (uid : Nat) => match s.crew? uid with
    | some c => c.task.launch != launch
    | none => false
  s.streams.all (fun x => other x.crew) && s.posted.all fun p => p.crew == 0 || other p.crew || p.lost

/-- The places of a result, in pieces of at most a dword. -/
def State.resultPlaces (c : Crew) (va : Dword) (n : Nat) (s : State) : Reply (List (Loc × Nat × Nat)) :=
  let w := min n 8
  ((List.range (n / w)).foldl (fun (acc : Reply (List (Loc × Nat × Nat))) k => match acc with
    | .fault f a => .fault f a
    | .ok l => match (s.locate c none ⟨false, true, false⟩ (va + BitVec.ofNat 64 (w * k)) w).2 with
      | .ok x _ => .ok (l ++ [(x, w * k, w)])
      | .fault f => .fault f va) (.ok []))

/-- Write the reducer results from the `i`-th on (R300); a fault ends the launch. `false`: a landing does not grant yet. -/
def State.writeResults (l : Launch) (views : Views) : List (RedEntry × Nat) → State → State × Bool
  | [], s => (s, true)
  | (e, i) :: es, s =>
    if e.kind = 0 || e.result = 0 then s.writeResults l views es
    else
      let c := l.agent false
      let b := resultBytes e.kind (views.get (fin 16 i))
      match s.resultPlaces c e.result b.length with
      | .fault f _ => ((s.endLaunch l.uid 2 (f.num.zeroExtend 64) e.result).event 5 0 .resultFault l.queue (f.num.zeroExtend 64), true)
      | .ok ps => match s.passStores l.uid (ps.map (·.1)) with
        | (s, true) =>
          ((byLine (ps.map fun x => (x.1, (b.drop x.2.1).take x.2.2))).foldl (fun s x => s.engineStore l.uid c.core x.1 x.2) s).writeResults
            l views es
        | r => r

/-- The completion record, or its loss (R403). `false`: its landing does not grant yet. -/
def State.writeRecord (l : Launch) (s : State) : State × Bool :=
  let (status, cause, addr) := l.ended.getD (0, 0, 0)
  let c := l.agent true
  let lost := s.event 5 0 .recordDropped l.queue (BitVec.ofNat 64 (l.number * 2 ^ 32 + status))
  if winOwn ≤ l.packet.compl.toNat || l.packet.compl.toNat % 32 ≠ 0 then (lost, true)
  else match s.locate c none ⟨false, true, false⟩ l.packet.compl 32 with
    | (_, .fault _) => (lost, true)
    | (s, .ok x _) =>
      if s.badAt x.key 32 then (lost, true)
      else match s.passStore l.uid x with
        | (s, true) =>
          ((s.engineStore l.uid c.core x (leBytes 8 status ++ leBytes 8 cause.toNat ++ leBytes 8 addr.toNat ++ leBytes 8 0)).event 5 0
            .launchEnd l.queue (BitVec.ofNat 64 status), true)
        | r => r

/-- A mailbox command completes (R419). -/
def State.mailDone (status : Nat) (s : State) : State := { s with hub := { s.hub with mbx := BitVec.ofNat 64 (status * 2 ^ 8) } }

/-- A launch is over: HEAD advances past its packet, in the descriptor too, and its queue goes on (R403, R405, R412). -/
def State.retireLaunch (l : Launch) (s : State) : State :=
  let s := ((s.freeObjects l).dropGrants l.uid).mapQueue l.queue fun x =>
    { x with head := if l.number = (x.head + 1) % 2 ^ 32 then x.head + 1 else x.head }
  let head := ((s.queue? l.queue).map Queue.head).getD 0
  let s := s.physWrite none (s.sched.qtbase.toNat + 128 * l.queue + 16) (leBytes 8 head)
  let s := { s with sched := { s.sched with
    launches := s.sched.launches.filter fun x => x.uid != l.uid
    saved := s.sched.saved.filter fun x => x.launch != l.uid } }
  let s := match s.queue? l.queue with
    | some x =>
      if x.asked then (s.mapQueue l.queue fun x => { x with asked := false, ckpt := none }).mailDone (if x.ckpt.isSome then 3 else 0)
      else s
    | none => s
  let s := match l.slot with
    | some i => if ((s.sched.slots[i]?).bind QSlot.next).isSome then s.passSlot i else s
    | none => s
  s.settleQueue l.queue

/-- The views of a launch's crews are merged (R300). -/
def Launch.merged (l : Launch) : Bool := !twiceTouched (l.finals.map fun x => .joined x.2)

/-- The completion record of a launch is written or lost, and the launch is over; or it waits for a landing. -/
def State.closeLaunch (l : Launch) (s : State) : State :=
  match s.passPhys l.uid (s.sched.qtbase.toNat + 128 * l.queue + 16) 8 with
  | (s', false) => s.waitAs s'
  | (s', true) => match s'.writeRecord l with
    | (s', false) => s.waitAs s'
    | (s', true) => s'.retireLaunch l

/-- LAUNCH_COMPLETION: of a launch whose crews have ended, first its results, then, once they are visible, its record; or of one that
is ended, once it is stopped. -/
def State.launchCompletion (slot : Nat) (s : State) : State :=
  match s.running slot with
  | none => s
  | some l =>
    if l.ended.isSome then
      if s.launchStopped l.uid then
        let s' := s.crews.foldl (fun s c => if c.task.launch = l.uid && c.uid != 0 then s.finishCommit c else s) s
        let s' := ((s'.freePods l).dropCrews l.uid).dropCommands l.uid
        if s'.writesSeen l.uid then s'.closeLaunch l else s'
      else s
    else if !(s.crews.any fun c => c.uid != 0 && c.task.launch == l.uid) && l.merged && s.writesSeen l.uid then
      match l.reducers.getD [] with
      | [] => s.closeLaunch l
      | es => match s.writeResults l (l.finals.flatMap (·.2)) es.zipIdx with
        | (s', false) => s.waitAs s'
        | (s', true) => s'.mapLaunch l.uid fun l => { l with reducers := some [] }
    else s

def execLaunchCompletion (slot : Nat) (s : State) : Out := .next (s.launchCompletion slot)

/-! ROTATION_TICK (R404, R405) -/

/-- A queue that competes for slots: ready, or mapped with a launch that runs (R413). -/
def State.competes (s : State) (x : Queue) : Bool :=
  s.wants x || match x.slot with
    | some i => (s.running i).any fun l => l.queue == x.num
    | none => false

/-- Effective priority (R404). -/
def State.effective (s : State) (x : Queue) : Nat :=
  let base := s.basePri x
  match x.slot, x.since with
  | none, some t => min 7 (base + (s.now - t) / s.hub.regs.qage.toNat)
  | _, _ => base

/-- The keys of a rank: effective priority, unmapped before mapped, the earlier time of becoming ready and unmapped, the lower
number. -/
structure RankKey where
  pri : Nat
  mapped : Bool
  since : Nat
  num : Nat
  deriving DecidableEq, Repr

def State.rankKey (s : State) (x : Queue) : RankKey := ⟨s.effective x, x.slot.isSome, x.since.getD 0, x.num⟩

def RankKey.before (a b : RankKey) : Bool :=
  decide (b.pri < a.pri) || (a.pri == b.pri && ((!a.mapped && b.mapped) || (a.mapped == b.mapped &&
    (decide (a.since < b.since) || (a.since == b.since && decide (a.num ≤ b.num))))))

/-- A queue is mapped to a slot, or to follow the launch that holds it; its descriptor is read (R405, R411). -/
def State.mapTo (q slot : Nat) (s : State) : State :=
  let (s, d, ok) := s.readDesc q
  let s := s.mapQueue q fun x => { x with slot := some slot, desc := d, refused := !ok }
  let s := if ok then s else s.event 5 0 .descriptor q 0
  let s := { s with sched := { s.sched with
    saved := s.sched.saved.map fun x => if (s.launchOf q).any fun l => l.uid == x.launch then { x with refused := false } else x
    slots := s.sched.slots.modify slot fun y => if y.queue.isNone then ⟨some q, none⟩ else { y with next := some q } } }
  if (s.running slot).isNone && ((s.sched.slots[slot]?).bind QSlot.next).isSome then s.passSlot slot else s

/-- The ranking and the mapping at a tick. A slot whose queue has been displaced and that no queue waits for is one of the displaced
queues' slots (log entry 123). -/
def State.rotate (s : State) : State :=
  let keys := (s.sched.queues.filter s.competes).map fun x => (s.rankKey x, x)
  let ranked := (keys.mergeSort fun a b => a.1.before b.1).map (·.2)
  let top := ranked.take 64
  let fresh := top.filter fun x => x.slot.isNone
  let lost := (ranked.drop 64).filter fun x => x.slot.isSome
  let free := (List.range 64).filter fun i => match s.sched.slots[i]? with
    | some y => y.queue.isNone && y.next.isNone
    | none => false
  let left := (List.range 64).filter fun i => match s.sched.slots[i]? with
    | some y => y.next.isNone && y.queue.any fun q => ((s.queue? q).bind Queue.slot) != some i
    | none => false
  let places := free ++ (lost.filterMap Queue.slot ++ left).mergeSort fun a b => decide (a ≤ b)
  let s := lost.foldl (fun s x => s.mapQueue x.num fun x => { x with slot := none, since := some s.now }) s
  (fresh.zip places).foldl (fun s x => s.mapTo x.1.num x.2) s

/-- ROTATION_TICK: once its time has come. -/
def State.rotationTick (s : State) : State :=
  if s.now < s.sched.tick then s
  else
    let s := (s.sched.queues.filter fun x => s.wants x || x.slot.isSome).foldl (fun s x => s.readState x.num) s
    let s := (s.sched.queues.filter s.competes).foldl (fun s x => (s.readPri x).1) s
    let s := s.rotate
    { s with sched := { s.sched with tick := s.sched.tick + max 10 s.hub.regs.qrot.toNat } }

def execRotationTick (s : State) : Out := .next s.rotationTick

end Sys2Proof.Machine
end

