-- ==== Sys2Proof/Machine/Context.lean ====
section
/-! DEFINITION. Pre-emption of a launch, its image, its return and its forced end (R396 to R401, R405). -/
namespace Sys2Proof.Machine

/-! PREEMPTION_REQUEST (R397) -/

/-- Pre-emption is asked of the launch in a slot: another queue waits for the slot, or the mailbox has asked (R405,
R419). -/
def State.preemptAsked (s : State) (slot : Nat) (l : Launch) : Bool :=
  ((s.sched.slots[slot]?).bind QSlot.next).isSome || ((s.queue? l.queue).map Queue.asked).getD false

def State.preemptionRequest (slot : Nat) (s : State) : State :=
  match s.running slot with
  | some l =>
    if l.stopAt.isNone && s.preemptAsked slot l then s.mapLaunch l.uid fun l => { l with stopAt := some s.now } else s
  | none => s

def execPreemptionRequest (slot : Nat) (s : State) : Out := .next (s.preemptionRequest slot)

/-! STOP_TIMEOUT (R398) -/

/-- Every crew of a launch stops where it stands, its commands are cancelled, its objects and bitmaps are free. -/
def State.cutLaunch (l : Launch) (s : State) : State :=
  let s := s.crews.foldl (fun s c => if c.task.launch = l.uid && c.uid != 0 then s.finishCommit c else s) s
  let s := (((s.freePods l).dropCrews l.uid).dropCommands l.uid).freeObjects l
  match l.slot with
  | some i => { s with cores := s.cores.map fun c => { c with ct := c.ct.set i 0 } }
  | none => s

/-- The request's time is over and the launch has not stopped. -/
def State.timedOut (s : State) (l : Launch) : Bool :=
  match l.stopAt with
  | some t => s.hub.regs.stopTmo != 0 && decide (t + s.hub.regs.stopTmo.toNat ≤ s.now) && !s.launchStopped l.uid
  | none => false

def State.stopTimeout (slot : Nat) (s : State) : State :=
  match s.running slot with
  | some l =>
    if s.timedOut l then
      ((s.cutLaunch l).endLaunch l.uid 3 0 0).event 5 slot .stopTimeout l.queue (BitVec.ofNat 64 l.number)
    else s
  | none => s

def execStopTimeout (slot : Nat) (s : State) : Out := .next (s.stopTimeout slot)

/-! CONTEXT_SAVE (R399) -/

/-- A SPAWNG that waits for slots counts as done (R397): its members are unstarted, its parent parks. -/
def State.parkGang (p : Crew) (s : State) : State :=
  match p.phase, p.chunk.acts with
  | .acting, [⟨_, .gang q m raft b⟩] =>
    let (s, _) := addMembers p q raft (gangObject p.core raft b) (List.range m) s
    (s.mapCrew p.uid (Crew.gangParent m)).park p.uid p.core q.live q.liveAt
  | _, _ => s

/-- The logical place of an object's instance, as an image's words have it (R399). -/
def State.objectPlace (s : State) (o : ObjId) : Nat :=
  let regs := s.hub.regs
  match o.scope with
  | 1 => let (d, c) := regs.logical o.inst; d * 2 ^ 8 + c * 2 ^ 16
  | 2 =>
    let k := ((s.raftMembers o.inst).head?).getD (4 * o.inst)
    (regs.logical k).1 * 2 ^ 8 + regs.raftOf k * 2 ^ 16
  | 3 => ((List.range 8).find? fun i => (regs.diemap.getD i 0).val == o.inst).getD 0 * 2 ^ 8
  | _ => 0

/-- The words of the barrier objects that a launch owns (R332, R399), each with its place; of those that package 0 holds, as it has
answered. -/
def State.barrierWords (s : State) (l : Launch) : List (List Dword) :=
  let mk := fun (scope : Fin 8) (inst : Nat) (bs : List Barrier) => (bs.zipIdx.filter fun b => b.1.v && b.1.owner == l.tag).map fun b =>
    BitVec.ofNat 64 (scope.val + b.2 * 2 ^ 3 + s.objectPlace ⟨scope, inst, b.2⟩) :: b.1.words
  let far := l.pods.filterMap fun p => p.2.bind fun ws => if ws.isEmpty then none else some (BitVec.ofNat 64 (5 + p.1.val * 2 ^ 3) :: ws)
  s.cores.zipIdx.flatMap (fun k => mk 1 k.2 k.1.bars) ++ s.rafts.zipIdx.flatMap (fun r => mk 2 r.2 r.1.bars) ++
    s.dies.zipIdx.flatMap (fun d => mk 3 d.2 d.1.bars) ++ mk 4 0 s.hub.bars ++ mk 5 0 s.hub.pods ++ far

/-- The words of the CT bitmaps that are not zero. -/
def State.tagWords (s : State) (slot : Nat) : List (List Dword) :=
  (s.cores.zipIdx.filter fun k => k.1.ct.getD slot 0 != 0).map fun k =>
    let (d, c) := s.hub.regs.logical k.2
    [BitVec.ofNat 64 (d + c * 2 ^ 8), k.1.ct.getD slot 0]

/-- The crews of a launch in the order of their records. -/
def State.crewsOf (s : State) (launch : Nat) : List Crew :=
  (s.crews.filter fun c => c.uid != 0 && c.task.launch == launch).mergeSort fun a b => decide (a.uid ≤ b.uid)

/-- The words of a stopped launch's image (R399). No latch entry is ever part of one: a launch with a command at a latch
is not stopped (R397). -/
def State.imageWords (s : State) (l : Launch) (slot : Nat) : List Dword :=
  let cs := s.crewsOf l.uid
  let bars := s.barrierWords l
  let tags := s.tagWords slot
  [BitVec.ofNat 64 (2 ^ 32 + 0x5345494D), BitVec.ofNat 64 (l.packet.dieset.toNat * 2 ^ 40 + slot * 2 ^ 32 + l.number)] ++
    [BitVec.ofNat 64 cs.length, BitVec.ofNat 64 bars.length, BitVec.ofNat 64 tags.length, 0, 0, 0] ++
    bars.flatten ++ tags.flatten ++ cs.flatMap (s.crewRecord l)

/-- The save area's bytes: the length of the stream, and the stream, as far as the area holds it (R400). -/
def saveBytes (size : Nat) (ws : List Dword) : List Byte :=
  let stream := encodeImage ws
  (leBytes 8 stream.length ++ stream).take size

/-- The suspended commands of a launch with their logical places. -/
def State.suspendedOf (s : State) (launch : Nat) : List (Nat × Nat × Bool × BrgCmd) × List (Nat × Nat × TenCmd) :=
  let at_ := fun (k : Nat) => s.hub.regs.logical k
  (s.cores.zipIdx.flatMap fun k =>
      ((k.1.barge.queue.map fun j => (false, j)) ++ k.1.barge.jobs.map fun j => (true, j)).filterMap fun j =>
        if j.2.actor.launch = launch then some ((at_ k.2).1, (at_ k.2).2, j) else none,
    s.cores.zipIdx.flatMap fun k => (k.1.ten.filter fun j => j.actor.launch == launch).map fun j => ((at_ k.2).1, (at_ k.2).2, j))

/-- What a queue does once its launch is saved: unmapped where the mailbox asked for it, and a checkpoint's copy begins
(R397, R423). One that a later tick has mapped to its own slot again goes on there (R405). -/
def State.queueSaved (q slot : Nat) (s : State) : State :=
  match s.queue? q with
  | none => s
  | some x =>
    let copy := x.ckpt.isSome
    let again := !x.asked && ((s.sched.slots[slot]?).bind QSlot.next) == some q
    let leaves := x.slot == some slot && !again
    let s := s.mapQueue q fun x => { x with
      slot := if leaves then none else x.slot
      since := if leaves then some s.now else x.since
      asked := x.asked && copy
      copying := copy }
    let s := if x.asked && !copy then s.mailDone 0 else s
    if leaves then s.leaveSlot q slot else s.passSlot slot

/-- A crew's objects under other names. -/
def Crew.mapObjects (f : ObjId → ObjId) (c : Crew) : Crew :=
  { c with
    r := { c.r with waits := c.r.waits.map fun w => { w with obj := w.obj.map f } }
    enroll := c.enroll.map fun e => { e with obj := f e.obj }
    task := { c.task with gangObj := c.task.gangObj.map f } }

/-- An object under its logical place in the place of its instance (R332). -/
def State.logicalObject (s : State) (o : ObjId) : ObjId := { o with inst := s.objectPlace o }

/-- A launch asks package 0 about pod objects; over a link that is down it waits. -/
def State.askPods (launch : Nat) (ask : Fin 2 → PodMessage) (ns : List (Fin 2)) (s : State) : State :=
  if s.link (some 0) = .down then s
  else (ns.foldl (fun s n => s.tellPod 0 (ask n)) s).mapLaunch launch fun l => { l with pods := l.pods ++ ns.map fun n => (n, none) }

/-- CONTEXT_SAVE: the image of a launch that has stopped in time is written, and its slot passes on. -/
def State.contextSave (slot : Nat) (s : State) : State :=
  match s.running slot with
  | none => s
  | some l =>
    let need := s.podsOf l.uid
    let missing := need.filter fun n => !l.pods.any fun p => p.1 == n
    if !(l.stopAt.isSome && l.ended.isNone && s.launchStopped l.uid) then s
    else if !missing.isEmpty then s.askPods l.uid (fun n => .save n s.hub.regs.pkg.toNat l.uid l.tag) missing
    else if need.any fun n => l.pods.contains (n, none) then s
    else
      let s' := s.crews.foldl (fun s c => if c.task.launch = l.uid then s.parkGang c else s) s
      let bytes := saveBytes l.desc.savesize (s'.imageWords l slot)
      match s.passPhys l.uid l.desc.savebase bytes.length with
      | (asked, false) => s.waitAs asked
      | (_, true) =>
        let (brg, ten) := s'.suspendedOf l.uid
        let frames := (s'.crewsOf l.uid).map fun c => { c.mapObjects s'.logicalObject with saved := s'.windowBytes c, window := none }
        let s' := ((s'.dropCrews l.uid).dropCommands l.uid).freeObjects l
        let s' := (s'.dropGrants l.uid).physWrite (some 0) l.desc.savebase bytes
        let ctx : SavedCtx := ⟨l.uid, frames, brg, ten, false⟩
        let s' := { s' with sched := { s'.sched with saved := s'.sched.saved ++ [ctx] } }
        let s' := s'.mapLaunch l.uid fun l => { l with saved := true, slot := none, stopAt := none, pods := [] }
        (s'.queueSaved l.queue slot).settleQueue l.queue

def execContextSave (slot : Nat) (s : State) : Out := .next (s.contextSave slot)

/-! CONTEXT_RESUME (R396, R401) -/

/-- The words of the image in a save area; `none` where the stream is malformed (R400). -/
def State.readImage (d : Desc) (s : State) : State × Option (List Dword) :=
  let (s, h) := s.physRead (some 0) d.savebase 8
  let n := leNat h
  if d.savesize < n + 8 then (s, none)
  else
    let (s, b) := s.physRead (some 0) (d.savebase + 8) n
    (s, decodeImage 0 (n + 1) b)

/-- The parts of an image: barrier objects' words, CT bitmaps' words, crew records; `none` where the counts and lengths
do not fit. -/
def splitImage (ws : List Dword) : Option (List (List Dword) × List (List Dword) × List (List Dword)) :=
  let b := wordAt ws 3
  let c := wordAt ws 4
  let o := 8 + 5 * b + 2 * c + 18 * wordAt ws 5
  if wordAt ws 0 ≠ 2 ^ 32 + 0x5345494D || ws.length < o then none
  else (splitRecords ws (wordAt ws 2) o).map fun rs =>
    ((List.range b).map fun k => wordsAt ws (8 + 5 * k) 5, (List.range c).map fun k => wordsAt ws (8 + 5 * b + 2 * k) 2, rs)

/-- The physical core that a record names. -/
def State.recordCore (s : State) (rec : List Dword) : Option Nat :=
  s.hub.regs.physical (bits (wordAt rec 0) 32 3) (bits (wordAt rec 0) 40 8)

/-- The object that an image's words name, on the present map; `none` where no core stands there (R396). -/
def State.imageObject (s : State) (w : Nat) : Option ObjId :=
  let regs := s.hub.regs
  let scope := fin 8 (bits w 0 3)
  let die := bits w 8 3
  let core := match scope with
    | 1 => regs.physical die (bits w 16 6)
    | 2 => (regs.coresOf die).find? fun k => regs.raftOf k == bits w 16 4
    | _ => some (36 * (regs.diemap.getD die 0).val)
  core.map fun k => objectAt k scope (bits w 3 4)

/-- The core that a CT bitmap's words name. -/
def State.imageTags (s : State) (w : List Dword) : Option Nat := s.hub.regs.physical (bits (wordAt w 0) 0 3) (bits (wordAt w 0) 8 6)

/-- A saved object's instance on the present map. -/
def State.physicalObject (s : State) (o : ObjId) : ObjId := (s.imageObject (o.scope.val + o.num * 2 ^ 3 + o.inst)).getD o

/-- One crew returns (R401): a child that had not started as its spawn placed it; any other into the lowest free slot of
its core, a continuation or suspended frame where none is free into a frame. `none`: one that is to run finds no slot. -/
def State.returnCrew (l : Launch) (kinds : Fin 16 → Nat) (x : List Dword × Crew) (s : State) : Option State :=
  let core := (s.recordCore x.1).getD 0
  let (c, tiles) := x.2.restore kinds l.packet.redtab l.packet.keyslot x.1
  let c := c.mapObjects s.physicalObject
  let run := c.phase == .stopped || c.phase == .run
  let c := { c with
    shadow := c.r, place := .waiting core, window := none
    phase := if run then .run else c.phase
    task := if run then { c.task with live := none } else c.task }
  let s := tiles.foldl (fun s t => s.putBytes (cellsAt (keyTile core (t.1 * 2 ^ 15)) t.2)) (s.ferrySeen x.2.core core)
  let add := fun (c : Crew) (s : State) => { s with pool := s.pool ++ [c] }
  if c.phase = .unstarted then
    match x.2.place with
    | .hinted _ =>
      let s := add { c with place := .hinted (core / 36) } s
      some { s with dies := s.dies.modify (core / 36) fun d => { d with hints := d.hints ++ [c.uid] } }
    | _ => some (add c s)
  else if run then
    let s := (add c s).tryPlace c.uid core 0 placeFuel
    if s.inSlot c.uid then some s else none
  else
    let s := add c s
    some ((s.placeNow c.uid core).getD ((s.mapCrew c.uid fun c => { c with place := .frame core }).writeCrew c.uid core))

def State.returnAll (l : Launch) (kinds : Fin 16 → Nat) : List (List Dword × Crew) → State → Option State
  | [], s => some s
  | x :: xs, s => (s.returnCrew l kinds x).bind (State.returnAll l kinds xs)

/-- Deque entries in the order of their positions. -/
def State.returnDeques (xs : List (List Dword × Crew)) (s : State) : State :=
  let pos := fun (x : List Dword × Crew) => bits (wordAt x.1 1) 0 32
  ((xs.filter fun x => pos x != 0).mergeSort fun a b => decide (pos a ≤ pos b)).foldl
    (fun s x => s.pushDeque x.2.uid ((s.recordCore x.1).getD 0)) s

/-- Suspended commands return to their cores' engines and resume (R401). -/
def State.returnCommands (x : SavedCtx) (s : State) : State :=
  let at_ := fun (d c : Nat) => (s.hub.regs.physical d c).getD 0
  let s := x.brg.foldl (fun s j => s.mapBarge (at_ j.1 j.2.1) fun b =>
    if j.2.2.1 then { b with jobs := b.jobs ++ [j.2.2.2] } else { b with queue := b.queue ++ [j.2.2.2] }) s
  let s := x.ten.foldl (fun s j => s.mapTen (at_ j.1 j.2.1) fun t => t ++ [j.2.2]) s
  x.crews.foldl (fun s c => match s.crew? c.uid with | some c => s.resumeSuspended c | none => s) s

/-- A resume is refused (R396, R400): the context stays suspended, and the event log records it. -/
def State.refuseResume (l : Launch) (s : State) : State :=
  let f := fun (x : SavedCtx) => if x.launch = l.uid then { x with refused := true } else x
  let s := { s with sched := { s.sched with saved := s.sched.saved.map f } }
  s.event 5 0 .resumeRefused l.queue (BitVec.ofNat 64 l.number)

/-- The saved launch of the queue in a slot, where it may resume, with the queue's descriptor as it is now (R411). -/
def State.resumable (s : State) (slot : Nat) : Option (Launch × SavedCtx) :=
  match ((s.sched.slots[slot]?).bind QSlot.queue).bind s.queue? with
  | some x =>
    if s.hub.powered && x.slot == some slot && s.wants x then
      (s.launchOf x.num).bind fun l => if l.saved then (s.ctx? l.uid).bind fun c => if c.refused then none else some ({ l with desc := if x.refused then l.desc else x.desc }, c) else none
    else none
  | none => none

/-- The objects of an image that package 0 is to take back, with their words. -/
def State.farObjects (s : State) (bars : List (List Dword)) : List (Fin 2 × List Dword) :=
  bars.filterMap fun w => (s.imageObject (wordAt w 0)).bind fun o => if s.podAway o then some (fin 2 o.num, w.drop 1) else none

/-- A saved launch asks package 0 to take its pod objects back under its present owner field; what it has back under an older one is
freed. -/
def State.restorePods (l : Launch) (own : BitVec 32) (far : List (Fin 2 × List Dword)) (s : State) : State :=
  let asks := far.filter fun p => !l.pods.contains (p.1, none)
  let words := fun (n : Fin 2) => ((asks.find? fun p => p.1 == n).map (·.2)).getD []
  let old := l.pods.filter fun p => asks.any fun a => a.1 == p.1
  if asks.isEmpty || s.link (some 0) == .down then s
  else ((s.freePods { l with pods := old }).mapLaunch l.uid fun x =>
      { x with pods := l.pods.filter fun p => !asks.any fun a => a.1 == p.1 }).askPods l.uid
    (fun n => .restore n s.hub.regs.pkg.toNat l.uid own (words n)) (asks.map (·.1))

/-- An object of an image can return: no other launch owns its number (log entry 114). -/
def State.returnable (s : State) (own : BitVec 32) (w : List Dword) : Bool :=
  match s.imageObject (wordAt w 0) with
  | some o => s.podAway o || ((s.barrier o).restored own (w.drop 1)).isSome
  | none => true

/-- An object of an image returns (R332); of one that package 0 holds, its phase is known here. -/
def State.returnObject (own : BitVec 32) (s : State) (w : List Dword) : State :=
  match s.imageObject (wordAt w 0) with
  | some o =>
    if s.podAway o then s.mapBarrier o fun b => { b with phase := (barrierOf w 1).phase }
    else s.mapBarrier o fun b => (b.restored own (w.drop 1)).getD b
  | none => s

/-- CONTEXT_RESUME (R401). It waits while another launch owns an object's number, and for package 0's answers about pod objects (R332,
log entry 114). -/
def State.contextResume (slot : Nat) (s : State) : State :=
  match s.resumable slot with
  | none => s
  | some (l, x) =>
    match s.readImage l.desc with
    | (s, none) => s.refuseResume l
    | (s0, some ws) => match splitImage ws with
      | none => s.refuseResume l
      | some (bars, tags, recs) =>
        if recs.length ≠ x.crews.length || twiceMapped s.hub.regs l.packet.dieset || !recs.all (fun r => (s.recordCore r).isSome) ||
            !bars.all (fun w => (s.imageObject (wordAt w 0)).isSome) || !tags.all (fun w => (s.imageTags w).isSome) then
          s.refuseResume l
        else
          let own := Launch.tag { l with slot := some slot }
          let far := (s.farObjects bars).filter fun p => !l.pods.contains (p.1, some [own.zeroExtend 64])
          if !bars.all (s.returnable own) then s
          else if !far.isEmpty then s.restorePods l own far
          else
          let pairs := recs.zip x.crews
          let kinds := fun (i : Fin 16) => (s.redOf l.uid i).kind
          let deal := if l.deal.isEmpty then [] else s.hub.regs.deal l.packet.dieset (l.deal.map (·.2)).sum
          let s1 := s0.mapLaunch l.uid fun x => { x with slot := some slot, saved := false, deal := deal, desc := l.desc, frames := [], pods := [] }
          let cleared := s1.cores.map fun c => { c with ct := c.ct.set slot 0 }
          let others := s1.sched.saved.filter fun y => y.launch != l.uid
          let s1 := { s1 with cores := cleared, sched := { s1.sched with saved := others } }
          let s1 := bars.foldl (State.returnObject own) s1
          let s1 := tags.foldl (fun s w =>
            match s.imageTags w with
            | some k => s.mapCore k fun c => { c with ct := c.ct.set slot (w.getD 1 0) }
            | none => s) s1
          match s1.returnAll l kinds pairs with
          | some s1 => (s1.returnDeques pairs).returnCommands x
          | none => s

def execContextResume (slot : Nat) (s : State) : Out := .next (s.contextResume slot)

end Sys2Proof.Machine
end

