-- ==== Sys2Proof/Machine/Outside.lean ====
section
/-! DEFINITION. Accesses from outside the package (R409, R414 to R416), the fabric's links (R415), the failure of a die
(R247), power and cooling (R424). -/
namespace Sys2Proof.Machine

/-! Bytes of HBM for an agent outside (R414, R416) -/

/-- Such an access can be performed: HBM that is there, under a loaded key. -/
def State.hbmOpen (s : State) (slot pa n : Nat) : Bool :=
  isHbm pa && isHbm (pa + n - 1) && s.hub.keys.contains slot && !s.homeLost pa && !s.homeLost (pa + n - 1)

def State.reply (data : List Byte) (s : State) : State := { s with outbox := s.outbox ++ [Output.reply data] }

/-- The access is turned away, and its address logged. -/
def State.turnAway (kind unit : Nat) (ev : EvKind) (off : Nat) (s : State) : State :=
  let s := { s with outbox := s.outbox ++ [Output.abort off] }
  s.event kind unit ev 0xFFFFFFFF (BitVec.ofNat 64 off)

/-- Write bytes under a key slot, line by line: each line commits once its landing grants it (R414). The answer is how many bytes are
still to be written. -/
def State.hbmLines (id slot : Nat) : Nat → Nat → List Byte → State → State × Nat
  | 0, _, data, s => (s, data.length)
  | k + 1, pa, data, s =>
    if data.isEmpty then (s, 0)
    else
      let n := 128 - pa % 128
      match s.passLine id (lineOf pa) with
      | (s, true) => (s.physWrite (some slot) pa (data.take n)).hbmLines id slot k (pa + n) (data.drop n)
      | (s, false) => (s, data.length)

def State.hbmWrite (id slot pa : Nat) (data : List Byte) (s : State) : State × Nat :=
  s.hbmLines id slot (linesOf pa data.length).length pa data

/-- Read w bits, write what `f` gives under the same grant, and reply the old value; `false` where it waits. -/
def State.hbmAtomic (id slot pa w : Nat) (f : Nat → Nat) (reply : Bool) (s : State) : State × Bool :=
  match s.passPhys id pa (w / 8) with
  | (s, true) =>
    let (s, b) := (s.mergeLine (lineOf pa)).physRead (some (BitVec.ofNat 12 slot)) pa (w / 8)
    ((s.physWrite (some slot) pa (leBytes (w / 8) (f (leNat b)))).reply (if reply then b else []), true)
  | r => r

/-! BAR2 (R409, R414) -/

/-- The physical address of an offset through BAR2, and the key slot, as they stood when the request arrived. -/
def Inbound.bar2 (x : Inbound) (off : Nat) : Nat × Nat := (x.base.toNat + off, x.key.toNat)

/-- The offsets lie in BAR2 as the host has sized it (R410); elsewhere nothing claims the access. -/
def State.inBar2 (s : State) (off n : Nat) : Bool := decide (off + n ≤ 2 ^ (30 + s.hub.bar2size.val))

def State.unclaimed (off : Nat) (s : State) : State := { s with outbox := s.outbox ++ [Output.unsupported off] }

/-- A write through BAR2: one line commit for each line touched; what is left of it waits. -/
def State.bar2Write (x : Inbound) (off : Nat) (data : List Byte) (s : State) : State × Option Instr :=
  let (pa, slot) := x.bar2 off
  if data.isEmpty then (s, none)
  else if !s.inBar2 off data.length then (s.unclaimed off, none)
  else if !s.hbmOpen slot pa data.length then (s.turnAway 5 0 .hostAccess off, none)
  else match s.hbmWrite x.id slot pa data with
    | (s, 0) => (s, none)
    | (s, n) => (s, some (.bar2Write (off + (data.length - n)) (data.drop (data.length - n))))

/-- A read through BAR2: committed data. -/
def State.bar2Read (x : Inbound) (off len : Nat) (s : State) : State :=
  let (pa, slot) := x.bar2 off
  if len = 0 then s.reply []
  else if !s.inBar2 off len then s.unclaimed off
  else if !s.hbmOpen slot pa len then s.turnAway 5 0 .hostAccess off
  else if s.badAt pa len then (s.takeBad pa len).turnAway 5 0 .hostAccess off
  else
    let (s, b) := s.physRead (some (BitVec.ofNat 12 slot)) pa len
    s.reply b

/-- The new value of a PCI Express AtomicOp of w bits on an old one. -/
def pcieNew (op : PcieOp) (w operand compare old : Nat) : Nat :=
  match op with
  | .fetchAdd => (old + operand) % 2 ^ w
  | .swap => operand % 2 ^ w
  | .cas => if old = compare % 2 ^ w then operand % 2 ^ w else old

/-- A FetchAdd, Swap or CAS of 32 or 64 bits through BAR2; `false` where it waits. -/
def State.bar2Atomic (x : Inbound) (off : Nat) (w64 : Bool) (op : PcieOp) (operand compare : Dword) (s : State) : State × Bool :=
  let (pa, slot) := x.bar2 off
  let w := if w64 then 64 else 32
  if !s.inBar2 off (w / 8) then (s.unclaimed off, true)
  else if pa % (w / 8) ≠ 0 || !s.hbmOpen slot pa (w / 8) || s.badAt pa (w / 8) then (s.turnAway 5 0 .hostAccess off, true)
  else s.hbmAtomic x.id slot pa w (pcieNew op w operand.toNat compare.toNat) true

/-! PEER_INBOUND_ACCESS (R416) -/

def Window.base (x : Window) : Nat := bits x.lo.toNat 0 39
def Window.size (x : Window) : Nat := bits x.lo.toNat 39 25 * 2 ^ 16
def Window.key (x : Window) : Nat := bits x.hi.toNat 52 12

/-- The window permits an access of a package to `n` bytes at an offset. -/
def Window.permits (x : Window) (src off n : Nat) (write : Bool) : Bool :=
  decide (bits x.hi.toNat 32 10 ≤ src) && decide (src ≤ bits x.hi.toNat 42 10) && decide (x.base ≤ off) &&
    decide (off + n ≤ x.base + x.size) && bit x.hi.toNat (if write then 1 else 0)

def accessWidth : PeerAccess → Nat
  | .read len => len
  | .write data => data.length
  | .atomic _ w32 _ _ => if w32 then 4 else 8
  | .red _ w32 _ => if w32 then 4 else 8

def accessWrites : PeerAccess → Bool
  | .write _ => true
  | _ => false

def accessReads : PeerAccess → Bool
  | .read _ => true
  | _ => false

/-- The new value of a peer's atomic. -/
def peerNew (op : Fin 16) (w : Nat) (operand : Dword) (compare : Option Dword) (old : Nat) : Nat :=
  match compare with
  | some e => if old = e.toNat % 2 ^ w then operand.toNat % 2 ^ w else old
  | none => reduceOp op w old (operand.toNat % 2 ^ w)

/-- The first window that permits an access. -/
def State.windowFor (s : State) (src off : Nat) (a : PeerAccess) : Option Window :=
  s.hub.windows.find? fun x => x.permits src off (max 1 (accessWidth a)) (accessWrites a)

/-- An access of a peer package at an offset of the package's HBM; what is left of it waits. -/
def State.peerInbound (id src off : Nat) (a : PeerAccess) (s : State) : State × Option Instr :=
  let n := max 1 (accessWidth a)
  let wait := fun (r : State × Bool) => (r.1, if r.2 then none else some (Instr.peerInboundAccess src off a))
  match s.windowFor src off a with
  | none => (s.turnAway 2 src .window off, none)
  | some x =>
    if !s.hbmOpen x.key off n || (!accessWrites a && s.badAt off n) then (s.turnAway 2 src .window off, none)
    else match a with
      | .read len =>
        let (s, b) := s.physRead (some (BitVec.ofNat 12 x.key)) off len
        (s.reply b, none)
      | .write data => match s.hbmWrite id x.key off data with
        | (s, 0) => (s.reply [], none)
        | (s, k) => (s, some (.peerInboundAccess src (off + (data.length - k)) (.write (data.drop (data.length - k)))))
      | .atomic op w32 v e => wait (s.hbmAtomic id x.key off (if w32 then 32 else 64) (peerNew op (if w32 then 32 else 64) v e) true)
      | .red op w32 v => wait (s.hbmAtomic id x.key off (if w32 then 32 else 64) (peerNew op (if w32 then 32 else 64) v none) false)

/-! Accesses from outside, in the order of their arrival (R202, R414, R416) -/

/-- Whose request it is: the host's, or a peer package's. -/
def outsideAgent (i : Instr) : Option Nat :=
  match i with
  | .peerInboundAccess src _ _ => some src
  | _ => none

/-- The key slot under which a request accesses HBM. -/
def State.keyUnder (s : State) (x : Inbound) : Option Nat :=
  match x.req with
  | .bar2Write _ _ | .bar2Read _ _ | .bar2AtomicOp _ _ _ _ _ => some x.key.toNat
  | .peerInboundAccess src off a => (s.windowFor src off a).map Window.key
  | _ => none

/-- Perform a memory access; what is left of it where a landing makes it wait. -/
def State.accessTry (x : Inbound) (s : State) : State × Option Instr :=
  match x.req with
  | .bar2Write off data => s.bar2Write x off data
  | .bar2Read off len => (s.bar2Read x off len, none)
  | .bar2AtomicOp off w64 op v e => match s.bar2Atomic x off w64 op v e with
    | (s, true) => (s, none)
    | (s, false) => (s, some x.req)
  | .peerInboundAccess src off a => s.peerInbound x.id src off a
  | _ => (s, none)

/-- A request under a key slot that is being destroyed is turned away (R175, R418). -/
def State.refuseInbound (x : Inbound) (s : State) : State :=
  match x.req with
  | .bar2Write off _ | .bar2Read off _ | .bar2AtomicOp off _ _ _ _ => s.turnAway 5 0 .hostAccess off
  | .peerInboundAccess src off _ => s.turnAway 2 src .window off
  | _ => s

/-- Every access that waits completes; what else waits stays (R418). -/
def State.drainInbound (s : State) : State :=
  let accesses := s.inbound.filter fun x => (s.keyUnder x).isSome
  let s := { s with inbound := s.inbound.filter fun x => (s.keyUnder x).isNone }
  accesses.foldl (fun s x => (s.accessTry x).1) s

/-! LINK_STATE_CHANGE (R230, R415) -/

def linkCode : LinkState → Dword
  | .up => 0
  | .retraining => 1
  | .down => 2

/-- A FENCE that waits for a peer meets the new state of its link: it counts a retraining from now on, and knows a peer whose link
is down as failed. -/
def State.fenceMeets (s : State) (peer : Nat) (st : LinkState) (f : FenceWait) : FenceWait :=
  if s.posted.any fun p => p.crew == f.crew && p.peer == some peer then
    match st with
    | .up => f
    | .retraining => { f with links := f.links.filter (fun l => l.1 != peer) ++ [(peer, s.now)] }
    | .down => { f with failed := if f.failed.contains peer then f.failed else f.failed ++ [peer] }
  else f

/-- What was posted to a peer meets the new state of its link: up again, what it held is sent; down, it is unconfirmed. -/
def Posted.meets (peer : Nat) (st : LinkState) (p : Posted) : Posted :=
  if p.peer = some peer then
    match st with
    | .up => { p with held := none }
    | .retraining => p
    | .down => { p with held := none, lost := true }
  else p

/-- The posted accesses after a link's change: of what nothing waits for nothing is left once it is sent or lost. -/
def State.postedMeets (s : State) (peer : Nat) (st : LinkState) : List Posted :=
  (s.posted.filter fun p => !(p.crew == 0 && p.peer == some peer && st != .retraining)).map (Posted.meets peer st)

/-- The atomics posted to a peer whose link has gone down complete with MEMERR (R240, R415), and what a pre-emption asks package 0 for
is asked again (R332). -/
def State.linkLost (peer : Nat) (posted : List Posted) (s : State) : State :=
  let s := (posted.filter fun p => p.atomic && !p.lost && p.peer == some peer).foldl
    (fun s p => s.postCheck p.crew .memerr (BitVec.ofNat 64 p.addr)) s
  if peer = 0 then
    { s with sched := { s.sched with launches := s.sched.launches.map fun l => { l with pods := l.pods.filter fun p => p.2.isSome } } }
  else s

def State.linkChange (peer : Nat) (st : LinkState) (s : State) : State :=
  let others := s.hub.links.filter fun l => l.1 != peer
  let old := s.posted
  let s := { s with
    hub := { s.hub with
      links := if st = LinkState.up then others else others ++ [(peer, st)]
      failed := if st = LinkState.down then s.hub.failed.filter (· != peer) ++ [peer] else s.hub.failed }
    outbox := if st = LinkState.up then s.outbox ++ (s.posted.filter fun (p : Posted) => p.peer == some peer).filterMap Posted.held else s.outbox
    fences := s.fences.map (s.fenceMeets peer st)
    posted := s.postedMeets peer st }
  let s := if st = LinkState.down then s.linkLost peer old else s
  s.event 2 peer .link 0xFFFFFFFF (linkCode st)

def execLinkStateChange (peer : Nat) (state : LinkState) (s : State) : Out := .next (s.linkChange peer state)

/-! DIE_FAILURE (R214, R247) -/

/-- HOMELOST before a crew's next clause where its key slot owns a dropped line; the first one is named. -/
def Crew.homeLost (pc : Addr) (lines : List (Nat × BitVec 12)) (c : Crew) : Crew :=
  match lines.find? fun n => n.2 == c.r.keyslot with
  | some n =>
    { c with post := c.post ++ [⟨FltCode.homelost.num, BitVec.ofNat 64 (n.1 * 128), ⟨pc, 0, 0⟩, 0, false⟩] }
  | none => c

/-- HOMELOST in every context, saved ones with them (R247). -/
def State.homeLostIn (lines : List (Nat × BitVec 12)) (s : State) : State :=
  let pc := fun (c : Crew) => ((s.firstEntry c c.r.frontier).map Entry.pc).getD c.chunk.first
  let s := s.mapCrews fun c => if c.uid = 0 || c.task.launch = 0 then c else c.homeLost (pc c) lines
  { s with sched := { s.sched with saved := s.sched.saved.map fun x =>
      { x with crews := x.crews.map fun c => c.homeLost (((c.r.frontier.map Entry.pc).head?).getD 0) lines } } }

/-- DIE_FAILURE: partials of the die, and those of lines homed on it, are dropped (R247). -/
def State.dieFailure (die : Nat) (s : State) : State :=
  let gone := fun (p : Partial) => p.die == die || dieOfPa (p.line * 128) == die
  let lines := ((s.partials.filter gone).map fun p => (p.line, p.slot)).eraseDups
  let s := { s with
    dies := s.dies.modify die fun d => { d with failed := true, copies := [] }
    partials := s.partials.filter fun p => !gone p
    hub := { s.hub with l2 := s.hub.l2.map fun (x : Nat × List CacheTag) =>
      (x.1, x.2.filter fun t => !(t.isPart && s.partials.any fun p => gone p && p.die == x.1 / 24 && p.line == t.line)) } }
  let s := ((lines.map (·.1)).eraseDups).foldl (fun s n => s.event 3 die .homeLost 0xFFFFFFFF (BitVec.ofNat 64 (n * 128))) s
  s.homeLostIn lines

def execDieFailure (die : Nat) (s : State) : Out := .next (s.dieFailure die)

/-! Power and cooling (R424) -/

/-- POWER_CAP: the power averaged over 10 ms is above the cap, and the core clock loses one step of 47 MHz. -/
def State.powerCap (mw : Nat) (s : State) : State :=
  if s.hub.capMw < mw && 470 < s.hub.clock then
    let s := { s with hub := { s.hub with clock := max 470 (s.hub.clock - 47) } }
    s.event 4 0 .sensor 0xFFFFFFFF (BitVec.ofNat 64 s.hub.clock)
  else s

def execPowerCap (mw : Nat) (s : State) : Out := .next (s.powerCap mw)

/-- The writes that crews have released become visible. -/
def State.flushStreams (s : State) : State :=
  s.streams.foldl (fun s x => s.applyLine x.core x.crew x.line) { s with streams := [] }

/-- The completion record of a launch that has been cut is written or lost, and the launch is over. -/
def State.endRecord (launch : Nat) (s : State) : State :=
  match s.launch? launch with
  | none => s
  | some l => ((s.writeRecord l).1.retireLaunch l).dropTlb 64 fun _ _ => true

/-- Every launch ends at once with status 3. No crew is left, so that no landing holds a grant back. -/
def State.endAll (s : State) : State :=
  let us := s.sched.launches.map Launch.uid
  let s := s.sched.launches.foldl (fun s l => (s.cutLaunch l).endLaunch l.uid 3 0 0) s.flushStreams
  let s := { s.flushStreams with landings := s.landings.map fun _ => ⟨[], []⟩ }
  us.foldl (fun s u => s.endRecord u) s

/-- THERMAL_TRIP: a junction is above 105 °C. -/
def State.thermalTrip (die : Nat) (s : State) : State :=
  let s := s.event 4 die .sensor 0xFFFFFFFF (BitVec.ofNat 64 die)
  let s := s.endAll
  { s with hub := { s.hub with powered := false } }

def execThermalTrip (die : Nat) (s : State) : Out := .next (s.thermalTrip die)

end Sys2Proof.Machine
end

