-- ==== Sys2Proof/Machine/Management.lean ====
section
/-! DEFINITION. The management processor (R417 to R423): the mailbox with its commands, the other registers of BAR0
(R410), resets. -/
namespace Sys2Proof.Machine

/-! Commands (R419): each completes with a status, 0 done, 2 bad argument, 3 refused, 4 signature failure -/

/-- A command starts; while another is in progress it is ignored. -/
def State.command (f : State → State) (s : State) : State := if bit s.hub.mbx.toNat 0 then s else f s

/-- A command goes on: GO stays set. -/
def State.mailGo (s : State) : State := { s with hub := { s.hub with mbx := 1 } }

/-- KEYLOAD (R417). Slot 0 is the firmware's own. -/
def State.keyload (slot : Nat) (wrapped : BitVec 512) (s : State) : State :=
  if slot = 0 || 4096 ≤ slot then s.mailDone 2
  else
    let keys := slot :: s.hub.keys.filter fun k => k != slot
    let wraps := (slot, wrapped) :: s.hub.wraps.filter fun x => x.1 != slot
    { s with hub := { s.hub with keys := keys, wraps := wraps } }.mailDone 0

def execKeyload (slot : Nat) (wrapped : BitVec 512) (s : State) : Out := .next (s.command (State.keyload slot wrapped))

/-- The retention slots that a key slot owns are released (R188, R418). -/
def State.releaseRetention (slot : Nat) (s : State) : State :=
  (List.range 4).foldl (fun s i =>
    let w := s.hub.regs.retways.getD i 0
    if retValid w && retOwner w == slot then
      (s.mapPkg fun p => { p with retways := p.retways.set i (w &&& ~~~0x10) }).unmark i
    else s) s

/-- A line was last written under a key slot. -/
def State.writtenUnder (s : State) (slot line : Nat) : Bool := s.keyed.any fun x => x.line == line && x.slot == slot

/-- A cached line is one of a key slot: written under it, or clean and read under it. -/
def State.cachedUnder (s : State) (slot : Nat) (dirty : Bool) (line key : Nat) : Bool :=
  s.writtenUnder slot line || (!dirty && key == slot)

/-- The last steps of R418 on a key slot. Released lines of the slot are written first; the slot's cached lines are discarded
without write-back, so that what HBM holds of those that were dirty is not known; the others stay as ciphertext under its key. -/
def State.destroyKey (slot : Nat) (s : State) : State :=
  let out := s.streams.filter fun x => x.line.slot.toNat == slot
  let s := { s with streams := s.streams.filter fun x => x.line.slot.toNat != slot }
  let s := out.foldl (fun s x => s.applyLine x.core x.crew x.line) s
  let dirty := fun (line : Nat) => s.hub.l2.any fun x => x.2.any fun t => t.line == line && t.st == .dirty
  let keyed := s.keyed.map fun x => if x.slot = slot && dirty x.line then { x with key := 2 ^ 514 + s.free } else x
  let cores := s.cores.map fun c => { c with l1 := c.l1.filter fun t => !s.cachedUnder slot false t.line t.key }
  let gone := fun (t : CacheTag) => if t.isPart then s.partials.any fun p => p.line == t.line && p.slot.toNat == slot
    else s.cachedUnder slot (t.st == .dirty) t.line t.key
  let l2 := s.hub.l2.map fun (x : Nat × List CacheTag) => (x.1, x.2.filter fun t => !gone t)
  let away := fun (l : List (Nat × Nat)) => l.filter fun n => !s.cachedUnder slot false n.1 n.2
  let dies := s.dies.map fun d => { d with copies := away d.copies }
  { s with
    keyed := keyed, cores := cores, free := s.free + 1, dies := dies
    partials := s.partials.filter fun p => p.slot.toNat != slot
    hub := { s.hub with
      l2 := l2
      keys := s.hub.keys.filter fun k => k != slot
      wraps := s.hub.wraps.filter fun x => x.1 != slot
      dying := s.hub.dying.filter fun k => k != slot
      cache := away s.hub.cache } }.releaseRetention slot

/-- Accesses under a key slot wait to be performed. -/
def State.underWay (s : State) (slot : Nat) : Bool := s.inbound.any fun x => s.keyUnder x == some slot

/-- KEYDESTROY (R418): from now on no access begins under the slot; those that wait complete, then the key goes (log entry 7). -/
def State.keydestroy (slot : Nat) (s : State) : State :=
  if slot = 0 || 4096 ≤ slot then s.mailDone 2
  else if s.sched.launches.any fun l => l.packet.keyslot.toNat == slot then s.mailDone 3
  else if s.underWay slot then { s with hub := { s.hub with dying := slot :: s.hub.dying.filter (· != slot) } }.mailGo
  else (s.destroyKey slot).mailDone 0

/-- The keys that are being destroyed go once nothing waits under them. -/
def State.finishDying (s : State) : State :=
  (s.hub.dying.filter fun k => !s.underWay k).foldl (fun s k => (s.destroyKey k).mailDone 0) s

def execKeydestroy (slot : Nat) (s : State) : Out := .next (s.command (State.keydestroy slot))

/-- A queue without a launch that runs leaves its slot until a later tick (R419). -/
def State.unmap (q : Nat) (s : State) : State :=
  match (s.queue? q).bind Queue.slot with
  | none => s
  | some i =>
    ((s.mapQueue q fun x => { x with slot := none }).leaveSlot q i).settleQueue q

/-- The queue's launch runs. -/
def State.runs (s : State) (q : Nat) : Bool := (s.launchOf q).any fun l => !l.saved

/-- PREEMPT (R397, R419): the command completes when the launch is saved or has ended. -/
def State.preempt (q : Nat) (s : State) : State :=
  if s.sched.qtcount ≤ q then s.mailDone 2
  else if s.runs q then (s.mapQueue q fun x => { x with asked := true }).mailGo
  else (s.unmap q).mailDone 0

def execPreempt (queue : Nat) (s : State) : Out := .next (s.command (State.preempt queue))

/-- A place that a checkpoint may have (R408). -/
def placeLegal : CkptPlace → Bool
  | .host a => decide (a < 2 ^ 51)
  | .peer p a => decide (p < 1024) && decide (a < 8 * hbmStack)

/-- CHECKPOINT (R423): the queue's launch is pre-empted first; the command completes with the copy. -/
def State.checkpoint (q : Nat) (dest : CkptPlace) (s : State) : State :=
  if s.sched.qtcount ≤ q || !placeLegal dest then s.mailDone 2
  else match s.launchOf q with
    | none => s.mailDone 3
    | some l =>
      (s.mapQueue q fun x => { x with asked := true, ckpt := some dest, copying := l.saved }).mailGo

def execCheckpoint (queue : Nat) (dest : CkptPlace) (s : State) : Out := .next (s.command (State.checkpoint queue dest))

/-- The leaves of the tables under the one at `pa` whose entries map 2^shift bytes each (R173, R174), with page sizes. -/
def State.leavesUnder (s : State) : Nat → Nat → Nat → List (Dword × Nat)
  | 0, _, _ => []
  | levels + 1, pa, shift =>
    (List.range (if shift = 55 then 4 else 8192)).flatMap fun i =>
      let e := (s.readPte (pa + 8 * i)).2
      if !bit e.toNat 0 then []
      else if bit e.toNat 58 then [(e, shift)]
      else s.leavesUnder levels (pteFrame e) (if shift = 55 then 42 else shift - 13)

/-- The HBM frames mapped in a queue's page tables, and its save area: first byte, size. -/
def State.framesOf (s : State) (d : Desc) : List (Nat × Nat) × List Nat :=
  let ls := (s.leavesUnder 4 d.rootpt 55).filter fun x => isHbm (pteFrame x.1)
  ((ls.map fun x => (pteFrame x.1, 2 ^ x.2)) ++ [(d.savebase, d.savesize)], (0 :: ls.map fun x => pteKey x.1).eraseDups)

def inFrames (fs : List (Nat × Nat)) (k : Nat) : Bool := fs.any fun f => f.1 ≤ k && decide (k < f.1 + f.2)

/-- CHECKPOINT_COPY_DONE (R423): the image and the frames stand at the destination as stored, with their places and key
slots; the queue may be ready again. -/
def State.copyDone (q : Nat) (s : State) : State :=
  match s.queue? q, s.launchOf q with
  | some x, some l => match x.ckpt, s.ctx? l.uid, x.copying with
    | some place, some ctx, true =>
      let s := s.partials.foldl (fun s p => s.readLine p.line) s
      let (fs, ks) := s.framesOf l.desc
      let keys := (l.packet.keyslot.toNat :: ks).eraseDups.map fun k => (k, s.material k)
      let cells := s.mem.filter fun c => inFrames fs c.1
      let keyed := s.keyed.filter fun x => inFrames fs (128 * x.line)
      let ck : Checkpoint := ⟨place, q, l, ctx, fs, cells, keyed, keys⟩
      let others := s.sched.ckpts.filter fun c => !(c.place == place)
      let s := match place with
        | .host a => s.sendTo none a (.hostWrite a (Config.checkpointCopy s.free))
        | .peer p a => s.sendTo (some p) a (.peerWrite p a (Config.checkpointCopy s.free))
      let s := { s with free := s.free + 1, sched := { s.sched with ckpts := others ++ [ck] } }
      ((s.mapQueue q fun x => { x with asked := false, ckpt := none, copying := false }).mailDone 0).settleQueue q
    | _, _, _ => s
  | _, _ => s

def execCheckpointCopyDone (queue : Nat) (s : State) : Out := .next (s.copyDone queue)

/-- RESTORE (R423): the frames return to their places, and the launch waits, saved, for its queue's slot. -/
def State.restore (q : Nat) (source : CkptPlace) (s : State) : State :=
  if s.sched.qtcount ≤ q || !placeLegal source then s.mailDone 2
  else match s.sched.ckpts.find? fun c => c.place == source && c.queue == q with
    | none => s.mailDone 3
    | some c =>
      if (s.launchOf q).isSome || !c.keys.all fun k => s.hub.holdsKey k.1 && s.material k.1 == k.2 then s.mailDone 3
      else
        let lines := (s.keyed.map Keyed.line ++ c.keyed.map Keyed.line).eraseDups.filter fun n => inFrames c.frames (128 * n)
        let s := lines.foldl (fun s n => ((s.mergeLine n).invalidateLine n 0).dropCopies noCore n) s
        let s := { s with hub := { s.hub with
          l2 := s.hub.l2.map fun (x : Nat × List CacheTag) => (x.1, x.2.filter fun t => !lines.contains t.line)
          cache := s.hub.cache.filter fun n => !lines.contains n.1 } }
        let s := { s with mem := s.mem.filter fun x => !inFrames c.frames x.1 }.putBytes c.cells
        let other := s.keyed.filter fun x => !inFrames c.frames (128 * x.line)
        let s := { s with keyed := c.keyed ++ other }
        let s := s.knowQueue q
        let s := { s with sched := { s.sched with
          launches := s.sched.launches ++ [{ c.launch with pods := [] }]
          saved := s.sched.saved ++ [c.ctx] } }
        (s.settleQueue q).mailDone 0

def execRestore (queue : Nat) (source : CkptPlace) (s : State) : Out := .next (s.command (State.restore queue source))

/-! Firmware and resets (R421, R422) -/

/-- FWSTAGE (R421): the inactive image is written, and its signature decides whether it is valid. -/
def State.fwstage (host len : Nat) (s : State) : State :=
  if 2 ^ 51 < host + len then s.mailDone 2
  else
    let ok := Config.signatureOk ((List.range len).map fun i => Config.outsideByte s.free (2 ^ 51 + host + i))
    let s := { s with free := s.free + 1, hub := { s.hub with
      fwA := if s.hub.activeB then ok else s.hub.fwA
      fwB := if s.hub.activeB then s.hub.fwB else ok
      staged := ok } }
    s.mailDone (if ok then 0 else 4)

def execFwstage (host len : Nat) (s : State) : Out := .next (s.command (State.fwstage host len))

/-- Three boots in a row from the `n`-th on do not reach the ready state. -/
def bootsFail (n : Nat) : Bool := !Config.bootReady n && !Config.bootReady (n + 1) && !Config.bootReady (n + 2)

/-- The hub boots: the active image, or after three failures the other; where that fails too, the compute dies stay down. -/
def State.boot (s : State) : State :=
  let first := bootsFail s.free
  let second := bootsFail (s.free + 3)
  let s := { s with free := s.free + 6 }
  if first then
    let s := { s with hub := { s.hub with activeB := !s.hub.activeB, staged := false, powered := s.hub.powered && !second } }
    s.event 5 0 .firmware 0xFFFFFFFF (if s.hub.activeB then 1 else 0)
  else s

/-- A warm reset (R422): what it lists, and nothing else. -/
def State.warmReset (s : State) : State :=
  let s := s.endAll.drainInbound
  let s := (s.hub.keys.filter fun k => k != 0).foldl (fun s k => s.destroyKey k) s
  let s := (List.range 64).foldl (fun s i => s.dropTlb i fun _ _ => true) s
  let queues := s.sched.queues.map fun x => { x with
    slot := none, copying := false, asked := false, ckpt := none
    since := if decide (x.head < x.tail) && !x.disabled then some s.now else none }
  let s := { s with sched := { s.sched with queues := queues, slots := List.replicate 64 ⟨none, none⟩ } }
  let s := (List.range 4).foldl (fun s i =>
    (s.mapPkg fun p => { p with retways := p.retways.set i (p.retways.getD i 0 &&& ~~~0x10) }).unmark i) s
  s.boot

def execWarmReset (s : State) : Out := .next s.warmReset

/-- FWACTIVATE (R421): refused while a launch is not ended, or without a staged image. -/
def State.fwactivate (s : State) : State :=
  if !s.sched.launches.isEmpty || !s.hub.staged then s.mailDone 3
  else { s with hub := { s.hub with activeB := !s.hub.activeB, staged := false } }.warmReset.mailDone 0

def execFwactivate (s : State) : Out := .next (s.command State.fwactivate)

/-- A cold reset (R422): the fuses, the package's number, its firmware images, the size that the host gave BAR2 and its failed dies
stay; the boot firmware splits the hub's SRAM (R8); every byte of memory is undefined again; all else is as the reset values say. -/
def State.coldReset (s : State) : State :=
  let regs := { PkgRegs.reset with
    pkg := s.hub.regs.pkg
    harv := s.hub.regs.harv
    lct := (List.range 8).flatMap fun d => lctOfDie d (s.hub.regs.harv.getD d 0) }
  let dies := State.reset.dies.zipIdx.map fun d => { d.1 with failed := (s.dies[d.2]?).any Die.failed }
  { State.reset with
    hub := { Hub.reset with
      regs := regs, fwA := s.hub.fwA, fwB := s.hub.fwB, activeB := s.hub.activeB, staged := s.hub.staged, links := s.hub.links
      failed := s.hub.failed
      bar2size := s.hub.bar2size, spadUnits := s.hub.nextUnits, nextUnits := s.hub.nextUnits }
    dies := dies
    sched := { Sched.reset with ckpts := s.sched.ckpts }
    outbox := s.outbox
    uids := s.uids
    free := s.free
    epoch := s.epoch + 1
    agenda := s.agenda }.boot

def execColdReset (s : State) : Out := .next s.coldReset

/-! Sensors, windows, BAR2, the event log -/

/-- Bytes go to host memory. -/
def State.toHost (addr : Nat) (data : List Byte) (s : State) : State := { s with outbox := s.outbox ++ [Output.hostWrite addr data] }

/-- SENSORS (R424). -/
def State.sensors (host : Nat) (s : State) : State :=
  if 2 ^ 51 ≤ host then s.mailDone 2
  else { s.toHost host (Config.sensorBlock s.free) with free := s.free + 1 }.mailDone 0

def execSensors (host : Nat) (s : State) : Out := .next (s.command (State.sensors host))

/-- WINDOW (R416): reserved bits and BASE[15:0] stay zero. -/
def State.setWindow (i : Nat) (lo hi : Dword) (s : State) : State :=
  if 64 ≤ i then s.mailDone 2
  else
    let x : Window := ⟨lo &&& ~~~0xFFFF, hi &&& ~~~0xFFFFFFFC⟩
    { s with hub := { s.hub with windows := s.hub.windows.set i x } }.mailDone 0

def execWindow (i : Fin 64) (lo hi : BitVec 64) (s : State) : Out := .next (s.command (State.setWindow i.val lo hi))

/-- BAR2SET (R414). -/
def State.bar2set (base key : Dword) (s : State) : State :=
  if 4096 ≤ key.toNat then s.mailDone 2
  else { s with hub := { s.hub with bar2base := base, bar2key := key.truncate 12 } }.mailDone 0

def execBar2set (base key : BitVec 64) (s : State) : Out := .next (s.command (State.bar2set base key))

/-- An event record's 32 bytes (R420). -/
def Event.bytes (e : Event) : List Byte :=
  leBytes 8 e.seq ++ leBytes 8 e.cycles ++ leBytes 2 e.source ++ leBytes 2 (Config.eventCode e.code).toNat ++ leBytes 4 e.queue ++
    leBytes 8 e.datum.toNat

/-- EVREAD (R420): the records that still exist from a sequence number on. -/
def State.evread (host first count : Nat) (s : State) : State :=
  if 2 ^ 51 ≤ host then s.mailDone 2
  else (s.toHost host (((s.hub.events.filter fun e => decide (first ≤ e.seq)).take count).flatMap Event.bytes)).mailDone 0

def execEvread (host first count : Nat) (s : State) : Out := .next (s.command (State.evread host first count))

/-! BAR0 (R410, R412, R419) -/

/-- A dword of the mailbox; zero where nothing has been written. -/
def State.mail (s : State) (off : Nat) : Dword := ((s.hub.mailbox.find? fun x => x.1 == off).map (·.2)).getD 0

/-- A place by its physical address (R408). -/
def placeOf (pa : Nat) : CkptPlace := if isPeer pa then .peer (peerOf pa) ((pa - 2 ^ 50) % 2 ^ 40) else .host (pa - 2 ^ 51)

/-- The command block is carried out (R419). -/
def State.mailStart (s : State) : State :=
  let a := fun i => s.mail (0x1008 + 8 * i)
  let n := fun i => (a i).toNat
  let place := fun (i : Nat) (f : CkptPlace → State → State) => if isPeer (n i) || isHost (n i) then f (placeOf (n i)) s else s.mailDone 2
  match (s.mail 0x1000).toNat with
  | 0x01 => s.keyload (n 0) (BitVec.ofNat 512 (((List.range 8).map fun j => n (j + 1) * 2 ^ (64 * j)).sum))
  | 0x02 => s.keydestroy (n 0)
  | 0x03 => s.preempt (n 0)
  | 0x04 => place 1 (State.checkpoint (n 0))
  | 0x05 => place 1 (State.restore (n 0))
  | 0x06 => s.fwstage (n 0) (n 1)
  | 0x07 => s.fwactivate
  | 0x08 => s.sensors (n 0)
  | 0x09 => s.setWindow (n 0) (a 1) (a 2)
  | 0x0A => s.bar2set (a 0) (a 1)
  | 0x0B => s.evread (n 0) (n 1) (n 2)
  | _ => s.mailDone 1

/-- BAR0_REGISTER_WRITE: 64 bits at an offset. A write where R410 puts nothing, or a read-only view, has no effect. -/
def State.bar0Write (off : Nat) (x : Dword) (s : State) : State :=
  if off % 8 ≠ 0 then s
  else if off = 0 then { s with sched := { s.sched with qtbase := x &&& ~~~127 } }
  else if off = 8 then (if x.toNat ≤ 2 ^ 20 then { s with sched := { s.sched with qtcount := x.toNat } } else s)
  else if off = 0x1FF8 then (if bit x.toNat 0 then s.command State.mailStart else s)
  else if 0x1000 ≤ off && off < 0x1FF8 then
    { s with hub := { s.hub with mailbox := (off, x) :: s.hub.mailbox.filter fun y => y.1 != off } }
  else if 0x100000 ≤ off && off < 0x900000 then s.doorbell ((off - 0x100000) / 8) x.toNat
  else s

/-! Requests from outside (R202, R412, R414, R416) -/

/-- Perform a request, in the order of arrival of its agent's requests; what is left of it where it waits, for a landing or because a
read that it makes cannot be answered. -/
def State.outsideTry (x : Inbound) (s : State) : State × Option Instr :=
  let r := match x.req with
    | .doorbell q tail => (s.doorbell q tail.toNat, none)
    | .bar0RegisterWrite off v => (s.bar0Write off v, none)
    | _ => s.accessTry x
  if r.1.stall && !s.stall then (s, some x.req) else r

/-- A request as it arrives. -/
def State.arriving (s : State) (i : Instr) : Inbound := ⟨s.uids, s.hub.bar2base, s.hub.bar2key, i⟩

/-- A request waits at a place among those that wait. -/
def State.queueInbound (k : Nat) (x : Inbound) (s : State) : State := { s with inbound := s.inbound.take k ++ x :: s.inbound.drop k }

/-- A request arrives: it is performed, or waits for a landing or behind a waiting one of the same agent. -/
def State.outside (i : Instr) (s : State) : State :=
  let x := s.arriving i
  if (s.keyUnder x).any s.hub.dying.contains then s.refuseInbound x
  else if s.inbound.any fun y => outsideAgent y.req == outsideAgent i then s.freshId.1.queueInbound s.inbound.length x
  else match s.outsideTry x with
    | (t, none) => t
    | (t, some r) => t.freshId.1.queueInbound s.inbound.length { x with req := r }

/-- The `k`-th waiting request tries again, where it is the first of its agent. -/
def State.inboundAgain (k : Nat) (s : State) : State :=
  match s.inbound[k]? with
  | none => s
  | some x =>
    if (s.inbound.take k).any fun y => outsideAgent y.req == outsideAgent x.req then s
    else match { s with inbound := s.inbound.eraseIdx k }.outsideTry x with
      | (t, none) => t.finishDying
      | (t, some r) => t.queueInbound k { x with req := r }

/-- DOORBELL. -/
def execDoorbell (queue : Nat) (tail : BitVec 64) (s : State) : Out := .next (s.outside (.doorbell queue tail))

/-- BAR0_REGISTER_WRITE. -/
def execBar0RegisterWrite (off : Nat) (value : BitVec 64) (s : State) : Out := .next (s.outside (.bar0RegisterWrite off value))

/-- BAR2_WRITE. -/
def execBar2Write (off : Nat) (data : List (BitVec 8)) (s : State) : Out := .next (s.outside (.bar2Write off data))

/-- BAR2_READ. -/
def execBar2Read (off len : Nat) (s : State) : Out := .next (s.outside (.bar2Read off len))

/-- BAR2_ATOMICOP. -/
def execBar2AtomicOp (off : Nat) (w64 : Bool) (op : PcieOp) (operand compare : BitVec 64) (s : State) : Out :=
  .next (s.outside (.bar2AtomicOp off w64 op operand compare))

/-- PEER_INBOUND_ACCESS. -/
def execPeerInboundAccess (src off : Nat) (access : PeerAccess) (s : State) : Out :=
  .next (s.outside (.peerInboundAccess src off access))

/-- What a host read of 64 bits of BAR0 returns (R410, R412, R419). A slot shows the queue that is mapped to it from the tick on, which
may wait for the launch of the displaced one (R405). -/
def State.bar0Read (s : State) (off : Nat) : Dword :=
  let i := (off - 0x10000) / 64
  let q := ((s.sched.slots[i]?).bind fun y => y.next.orElse fun _ => y.queue).bind s.queue?
  if off = 0 then s.sched.qtbase
  else if off = 8 then BitVec.ofNat 64 s.sched.qtcount
  else if off = 0x1FF8 then s.hub.mbx
  else if 0x1000 ≤ off && off < 0x1FF8 then s.mail off
  else if 0x10000 ≤ off && off < 0x11000 then
    match q, off / 8 % 8 with
    | some x, 0 => BitVec.ofNat 64 (2 ^ 63 + x.num)
    | some x, 1 => BitVec.ofNat 64 x.head
    | some x, 2 => BitVec.ofNat 64 x.tail
    | some x, 3 => BitVec.ofNat 64 ((((s.running i).filter fun l => l.queue == x.num).map Launch.number).getD 0)
    | _, _ => 0
  else if 0x100000 ≤ off && off < 0x900000 then
    BitVec.ofNat 64 (((s.queue? ((off - 0x100000) / 8)).map Queue.tail).getD 0)
  else 0

end Sys2Proof.Machine
end

