-- ==== Sys2Proof/Machine/Dispatch.lean ====
section
/-! DEFINITION. One arm per constructor of Instr: a direct call of that instruction's meaning. -/
namespace Sys2Proof.Machine

def exec (i : Instr) (s : State) : Host.Outcome State Fault Refusal :=
  match i with
  | .nop => Sys2Proof.Machine.execNop s
  | .bra off => Sys2Proof.Machine.execBra off s
  | .brz u a off => Sys2Proof.Machine.execBrz u a off s
  | .brnz u a off => Sys2Proof.Machine.execBrnz u a off s
  | .brq q neg off => Sys2Proof.Machine.execBrq q neg off s
  | .jmpi a => Sys2Proof.Machine.execJmpi a s
  | .call off => Sys2Proof.Machine.execCall off s
  | .calli a => Sys2Proof.Machine.execCalli a s
  | .ret => Sys2Proof.Machine.execRet s
  | .exit => Sys2Proof.Machine.execExit s
  | .safept off => Sys2Proof.Machine.execSafept off s
  | .waitf mask => Sys2Proof.Machine.execWaitf mask s
  | .rep n step => Sys2Proof.Machine.execRep n step s
  | .brk code => Sys2Proof.Machine.execBrk code s
  | .sadd d a b => Sys2Proof.Machine.execSadd d a b s
  | .ssub d a b => Sys2Proof.Machine.execSsub d a b s
  | .smul d a b => Sys2Proof.Machine.execSmul d a b s
  | .smulh d a b => Sys2Proof.Machine.execSmulh d a b s
  | .smulhz d a b => Sys2Proof.Machine.execSmulhz d a b s
  | .sand d a b => Sys2Proof.Machine.execSand d a b s
  | .sor d a b => Sys2Proof.Machine.execSor d a b s
  | .sxor d a b => Sys2Proof.Machine.execSxor d a b s
  | .sshl d a b => Sys2Proof.Machine.execSshl d a b s
  | .sshr d a b => Sys2Proof.Machine.execSshr d a b s
  | .ssar d a b => Sys2Proof.Machine.execSsar d a b s
  | .smin d a b => Sys2Proof.Machine.execSmin d a b s
  | .smax d a b => Sys2Proof.Machine.execSmax d a b s
  | .sminz d a b => Sys2Proof.Machine.execSminz d a b s
  | .smaxz d a b => Sys2Proof.Machine.execSmaxz d a b s
  | .scmp d a b cc => Sys2Proof.Machine.execScmp d a b cc s
  | .ssel d a b c => Sys2Proof.Machine.execSsel d a b c s
  | .smov d a => Sys2Proof.Machine.execSmov d a s
  | .spopc d a => Sys2Proof.Machine.execSpopc d a s
  | .sclz d a => Sys2Proof.Machine.execSclz d a s
  | .saddi d a imm => Sys2Proof.Machine.execSaddi d a imm s
  | .sandi d a imm => Sys2Proof.Machine.execSandi d a imm s
  | .sori d a imm => Sys2Proof.Machine.execSori d a imm s
  | .sshli d a n => Sys2Proof.Machine.execSshli d a n s
  | .sshri d a n => Sys2Proof.Machine.execSshri d a n s
  | .smovk d sh imm => Sys2Proof.Machine.execSmovk d sh imm s
  | .smovz d sh imm => Sys2Proof.Machine.execSmovz d sh imm s
  | .slimm d lit => Sys2Proof.Machine.execSlimm d lit s
  | .srdl d a b n => Sys2Proof.Machine.execSrdl d a b n s
  | .mfsr d num => Sys2Proof.Machine.execMfsr d num s
  | .mtsr num a => Sys2Proof.Machine.execMtsr num a s
  | .vmov d a fs rx => Sys2Proof.Machine.execVmov d a fs rx s
  | .vadd d a b fs rx => Sys2Proof.Machine.execVadd d a b fs rx s
  | .vsub d a b fs rx => Sys2Proof.Machine.execVsub d a b fs rx s
  | .vadds d a b fs rx => Sys2Proof.Machine.execVadds d a b fs rx s
  | .vsubs d a b fs rx => Sys2Proof.Machine.execVsubs d a b fs rx s
  | .vmul d a b fs rx => Sys2Proof.Machine.execVmul d a b fs rx s
  | .vmulh d a b fs rx => Sys2Proof.Machine.execVmulh d a b fs rx s
  | .vmad d a b c fs rx => Sys2Proof.Machine.execVmad d a b c fs rx s
  | .vmin d a b fs rx => Sys2Proof.Machine.execVmin d a b fs rx s
  | .vmax d a b fs rx => Sys2Proof.Machine.execVmax d a b fs rx s
  | .vabs d a fs rx => Sys2Proof.Machine.execVabs d a fs rx s
  | .vneg d a fs rx => Sys2Proof.Machine.execVneg d a fs rx s
  | .vabsd d a b fs rx => Sys2Proof.Machine.execVabsd d a b fs rx s
  | .vand d a b fs rx => Sys2Proof.Machine.execVand d a b fs rx s
  | .vor d a b fs rx => Sys2Proof.Machine.execVor d a b fs rx s
  | .vxor d a b fs rx => Sys2Proof.Machine.execVxor d a b fs rx s
  | .vandn d a b fs rx => Sys2Proof.Machine.execVandn d a b fs rx s
  | .vnot d a fs rx => Sys2Proof.Machine.execVnot d a fs rx s
  | .vshl d a b fs rx => Sys2Proof.Machine.execVshl d a b fs rx s
  | .vshr d a b fs rx => Sys2Proof.Machine.execVshr d a b fs rx s
  | .vsar d a b fs rx => Sys2Proof.Machine.execVsar d a b fs rx s
  | .vrol d a b fs rx => Sys2Proof.Machine.execVrol d a b fs rx s
  | .vbfx d a b c fs rx => Sys2Proof.Machine.execVbfx d a b c fs rx s
  | .vbfi d a b c fs rx => Sys2Proof.Machine.execVbfi d a b c fs rx s
  | .vpopc d a fs rx => Sys2Proof.Machine.execVpopc d a fs rx s
  | .vclz d a fs rx => Sys2Proof.Machine.execVclz d a fs rx s
  | .vbrev d a fs rx => Sys2Proof.Machine.execVbrev d a fs rx s
  | .vcmp d a b cc fs rx => Sys2Proof.Machine.execVcmp d a b cc fs rx s
  | .vsel d a b q fs rx => Sys2Proof.Machine.execVsel d a b q fs rx s
  | .vqop d a b op rx => Sys2Proof.Machine.execVqop d a b op rx s
  | .vqmov d a dir fs rx => Sys2Proof.Machine.execVqmov d a dir fs rx s
  | .vaddi d a imm rx => Sys2Proof.Machine.execVaddi d a imm rx s
  | .vandi d a imm rx => Sys2Proof.Machine.execVandi d a imm rx s
  | .vori d a imm rx => Sys2Proof.Machine.execVori d a imm rx s
  | .vxori d a imm rx => Sys2Proof.Machine.execVxori d a imm rx s
  | .vshli d a n rx => Sys2Proof.Machine.execVshli d a n rx s
  | .vshri d a n rx => Sys2Proof.Machine.execVshri d a n rx s
  | .vsari d a n rx => Sys2Proof.Machine.execVsari d a n rx s
  | .vmovi d sh imm rx => Sys2Proof.Machine.execVmovi d sh imm rx s
  | .vlimm d lit => Sys2Proof.Machine.execVlimm d lit s
  | .viota d a tag rx => Sys2Proof.Machine.execViota d a tag rx s
  | .vwrl d a b c fs rx => Sys2Proof.Machine.execVwrl d a b c fs rx s
  | .vvote d a mode fs rx => Sys2Proof.Machine.execVvote d a mode fs rx s
  | .vballot d a fs rx => Sys2Proof.Machine.execVballot d a fs rx s
  | .vmatch d a fs rx => Sys2Proof.Machine.execVmatch d a fs rx s
  | .vfirst d a fs rx => Sys2Proof.Machine.execVfirst d a fs rx s
  | .vactive d rx => Sys2Proof.Machine.execVactive d rx s
  | .fadd d a b fs rx => Sys2Proof.Machine.execFadd d a b fs rx s
  | .fsub d a b fs rx => Sys2Proof.Machine.execFsub d a b fs rx s
  | .fmul d a b fs rx => Sys2Proof.Machine.execFmul d a b fs rx s
  | .fma d a b c fs rx => Sys2Proof.Machine.execFma d a b c fs rx s
  | .fms d a b c fs rx => Sys2Proof.Machine.execFms d a b c fs rx s
  | .fnma d a b c fs rx => Sys2Proof.Machine.execFnma d a b c fs rx s
  | .fmin d a b fs rx => Sys2Proof.Machine.execFmin d a b fs rx s
  | .fmax d a b fs rx => Sys2Proof.Machine.execFmax d a b fs rx s
  | .fminn d a b fs rx => Sys2Proof.Machine.execFminn d a b fs rx s
  | .fmaxn d a b fs rx => Sys2Proof.Machine.execFmaxn d a b fs rx s
  | .fabs d a fs rx => Sys2Proof.Machine.execFabs d a fs rx s
  | .fneg d a fs rx => Sys2Proof.Machine.execFneg d a fs rx s
  | .fcps d a b fs rx => Sys2Proof.Machine.execFcps d a b fs rx s
  | .fcmp d a b cc fs rx => Sys2Proof.Machine.execFcmp d a b cc fs rx s
  | .fclass d a fs rx => Sys2Proof.Machine.execFclass d a fs rx s
  | .frnd d a fs rx => Sys2Proof.Machine.execFrnd d a fs rx s
  | .fdot2 d a b c fs rx => Sys2Proof.Machine.execFdot2 d a b c fs rx s
  | .fdot4 d a b c fs rx => Sys2Proof.Machine.execFdot4 d a b c fs rx s
  | .fscale d a b fs rx => Sys2Proof.Machine.execFscale d a b fs rx s
  | .fgetx d a fs rx => Sys2Proof.Machine.execFgetx d a fs rx s
  | .fpivg d a b c fs rx => Sys2Proof.Machine.execFpivg d a b c fs rx s
  | .frcp d a fs rx => Sys2Proof.Machine.execFrcp d a fs rx s
  | .frsq d a fs rx => Sys2Proof.Machine.execFrsq d a fs rx s
  | .fsqrt d a fs rx => Sys2Proof.Machine.execFsqrt d a fs rx s
  | .fdiv d a b fs rx => Sys2Proof.Machine.execFdiv d a b fs rx s
  | .fexp2 d a fs rx => Sys2Proof.Machine.execFexp2 d a fs rx s
  | .flog2 d a fs rx => Sys2Proof.Machine.execFlog2 d a fs rx s
  | .fsinp d a fs rx => Sys2Proof.Machine.execFsinp d a fs rx s
  | .fcosp d a fs rx => Sys2Proof.Machine.execFcosp d a fs rx s
  | .ftanh d a fs rx => Sys2Proof.Machine.execFtanh d a fs rx s
  | .cvt d a p tag fs rx => Sys2Proof.Machine.execCvt d a p tag fs rx s
  | .cvts d a b p fs rx => Sys2Proof.Machine.execCvts d a b p fs rx s
  | .fmaxx d a b acc fs rx => Sys2Proof.Machine.execFmaxx d a b acc fs rx s
  | .vsettag d a tag fs rx => Sys2Proof.Machine.execVsettag d a tag fs rx s
  | .vgettag d a fs rx => Sys2Proof.Machine.execVgettag d a fs rx s
  | .sclget d a rx => Sys2Proof.Machine.execSclget d a rx s
  | .sclset d a rx => Sys2Proof.Machine.execSclset d a rx s
  | .flimm d lit => Sys2Proof.Machine.execFlimm d lit s
  | .ord order scope => Sys2Proof.Machine.execOrd order scope s
  | .ld d base ty off mx => Sys2Proof.Machine.execLd d base ty off mx s
  | .lde d base ty off mx => Sys2Proof.Machine.execLde d base ty off mx s
  | .st d base ty off mx => Sys2Proof.Machine.execSt d base ty off mx s
  | .ste d base ty off mx => Sys2Proof.Machine.execSte d base ty off mx s
  | .ldu d base ty off mx => Sys2Proof.Machine.execLdu d base ty off mx s
  | .stu d base ty off mx => Sys2Proof.Machine.execStu d base ty off mx s
  | .ldx d base ty off gx => Sys2Proof.Machine.execLdx d base ty off gx s
  | .stx d base ty off gx => Sys2Proof.Machine.execStx d base ty off gx s
  | .ldp d base ty off mx => Sys2Proof.Machine.execLdp d base ty off mx s
  | .stp d base ty off mx => Sys2Proof.Machine.execStp d base ty off mx s
  | .atom d a b op fs mx => Sys2Proof.Machine.execAtom d a b op fs mx s
  | .atomc x y z w fs mx => Sys2Proof.Machine.execAtomc x y z w fs mx s
  | .red a b op mx => Sys2Proof.Machine.execRed a b op mx s
  | .atomu d a b op w32 fs mx => Sys2Proof.Machine.execAtomu d a b op w32 fs mx s
  | .fence d scope => Sys2Proof.Machine.execFence d scope s
  | .cpin base ways slot => Sys2Proof.Machine.execCpin base ways slot s
  | .cunpin slot => Sys2Proof.Machine.execCunpin slot s
  | .cpref base off mx => Sys2Proof.Machine.execCpref base off mx s
  | .cinv kind base off => Sys2Proof.Machine.execCinv kind base off s
  | .tzero x n fs => Sys2Proof.Machine.execTzero x n fs s
  | .tld x y fs => Sys2Proof.Machine.execTld x y fs s
  | .tst x y rnd sat fs => Sys2Proof.Machine.execTst x y rnd sat fs s
  | .tmma x y z zero rows fs => Sys2Proof.Machine.execTmma x y z zero rows fs s
  | .tgang fs => Sys2Proof.Machine.execTgang fs s
  | .tsweep x y z w fs => Sys2Proof.Machine.execTsweep x y z w fs s
  | .tred x y op w fs => Sys2Proof.Machine.execTred x y op w fs s
  | .tfact x y fs => Sys2Proof.Machine.execTfact x y fs s
  | .ttrs x y z fs => Sys2Proof.Machine.execTtrs x y z fs s
  | .tmov x y z t fs => Sys2Proof.Machine.execTmov x y z t fs s
  | .tscl x y z col scalar fs => Sys2Proof.Machine.execTscl x y z col scalar fs s
  | .spawn x y n split atom die hint => Sys2Proof.Machine.execSpawn x y n split atom die hint s
  | .spawnr x y n split atom => Sys2Proof.Machine.execSpawnr x y n split atom s
  | .spawng x y n b m raft split => Sys2Proof.Machine.execSpawng x y n b m raft split s
  | .sync => Sys2Proof.Machine.execSync s
  | .pgrd d a dep => Sys2Proof.Machine.execPgrd d a dep s
  | .pgkey d => Sys2Proof.Machine.execPgkey d s
  | .prng x y j f32 fs => Sys2Proof.Machine.execPrng x y j f32 fs s
  | .palloc d a k => Sys2Proof.Machine.execPalloc d a k s
  | .plog a => Sys2Proof.Machine.execPlog a s
  | .view red a b op => Sys2Proof.Machine.execView red a b op s
  | .rdacc idx a b q neg => Sys2Proof.Machine.execRdacc idx a b q neg s
  | .rdget d idx fs => Sys2Proof.Machine.execRdget d idx fs s
  | .chunk => Sys2Proof.Machine.execChunk s
  | .chkst d => Sys2Proof.Machine.execChkst d s
  | .bar scope b => Sys2Proof.Machine.execBar scope b s
  | .bara d scope b => Sys2Proof.Machine.execBara d scope b s
  | .barw a scope b => Sys2Proof.Machine.execBarw a scope b s
  | .bari a scope b => Sys2Proof.Machine.execBari a scope b s
  | .barb a scope b => Sys2Proof.Machine.execBarb a scope b s
  | .trap code => Sys2Proof.Machine.execTrap code s
  | .rft => Sys2Proof.Machine.execRft s
  | .cpy x y tag w fs => Sys2Proof.Machine.execCpy x y tag w fs s
  | .cpyf x y tag w fs => Sys2Proof.Machine.execCpyf x y tag w fs s
  | .wtagany x y fs => Sys2Proof.Machine.execWtagany x y fs s
  | .wtagall x y fs => Sys2Proof.Machine.execWtagall x y fs s
  | .tagff x y fs => Sys2Proof.Machine.execTagff x y fs s
  | .tagclr y fs => Sys2Proof.Machine.execTagclr y fs s
  | .frontierSelection c => Sys2Proof.Machine.execFrontierSelection c s
  | .longLatencyCompletion c k => Sys2Proof.Machine.execLongLatencyCompletion c k s
  | .sfuAcceptance core => Sys2Proof.Machine.execSfuAcceptance core s
  | .chunkCommit c => Sys2Proof.Machine.execChunkCommit c s
  | .softErrorFerry c => Sys2Proof.Machine.execSoftErrorFerry c s
  | .landingRequest c => Sys2Proof.Machine.execLandingRequest c s
  | .invalidation c line => Sys2Proof.Machine.execInvalidation c line s
  | .exclusiveMode c => Sys2Proof.Machine.execExclusiveMode c s
  | .tableWalk c va => Sys2Proof.Machine.execTableWalk c va s
  | .taskStart c => Sys2Proof.Machine.execTaskStart c s
  | .windowPlacement c => Sys2Proof.Machine.execWindowPlacement c s
  | .taskEnd c => Sys2Proof.Machine.execTaskEnd c s
  | .steal core => Sys2Proof.Machine.execSteal core s
  | .frameReady c => Sys2Proof.Machine.execFrameReady c s
  | .viewMerge c red => Sys2Proof.Machine.execViewMerge c red s
  | .userMergeRoutine c idx => Sys2Proof.Machine.execUserMergeRoutine c idx s
  | .hintQueueTake core => Sys2Proof.Machine.execHintQueueTake core s
  | .gangStart c => Sys2Proof.Machine.execGangStart c s
  | .bargeCommandEntry c => Sys2Proof.Machine.execBargeCommandEntry c s
  | .copyStart core => Sys2Proof.Machine.execCopyStart core s
  | .copyLineCommit core k => Sys2Proof.Machine.execCopyLineCommit core k s
  | .copyCompletion core k => Sys2Proof.Machine.execCopyCompletion core k s
  | .tagWaitCompletion core k => Sys2Proof.Machine.execTagWaitCompletion core k s
  | .tensorCommandEntry c => Sys2Proof.Machine.execTensorCommandEntry c s
  | .tensorCommandDispatch core => Sys2Proof.Machine.execTensorCommandDispatch core s
  | .tensorCommandCompletion core => Sys2Proof.Machine.execTensorCommandCompletion core s
  | .latchPairing raft => Sys2Proof.Machine.execLatchPairing raft s
  | .launchStart slot => Sys2Proof.Machine.execLaunchStart slot s
  | .launchCompletion slot => Sys2Proof.Machine.execLaunchCompletion slot s
  | .preemptionRequest slot => Sys2Proof.Machine.execPreemptionRequest slot s
  | .contextSave slot => Sys2Proof.Machine.execContextSave slot s
  | .stopTimeout slot => Sys2Proof.Machine.execStopTimeout slot s
  | .contextResume slot => Sys2Proof.Machine.execContextResume slot s
  | .rotationTick => Sys2Proof.Machine.execRotationTick s
  | .doorbell queue tail => Sys2Proof.Machine.execDoorbell queue tail s
  | .bar0RegisterWrite off value => Sys2Proof.Machine.execBar0RegisterWrite off value s
  | .bar2Write off data => Sys2Proof.Machine.execBar2Write off data s
  | .bar2Read off len => Sys2Proof.Machine.execBar2Read off len s
  | .bar2AtomicOp off w64 op operand compare => Sys2Proof.Machine.execBar2AtomicOp off w64 op operand compare s
  | .keyload slot wrapped => Sys2Proof.Machine.execKeyload slot wrapped s
  | .keydestroy slot => Sys2Proof.Machine.execKeydestroy slot s
  | .preempt queue => Sys2Proof.Machine.execPreempt queue s
  | .checkpoint queue dest => Sys2Proof.Machine.execCheckpoint queue dest s
  | .checkpointCopyDone queue => Sys2Proof.Machine.execCheckpointCopyDone queue s
  | .restore queue source => Sys2Proof.Machine.execRestore queue source s
  | .fwstage host len => Sys2Proof.Machine.execFwstage host len s
  | .fwactivate => Sys2Proof.Machine.execFwactivate s
  | .sensors host => Sys2Proof.Machine.execSensors host s
  | .window idx lo hi => Sys2Proof.Machine.execWindow idx lo hi s
  | .bar2set base key => Sys2Proof.Machine.execBar2set base key s
  | .evread host first count => Sys2Proof.Machine.execEvread host first count s
  | .peerInboundAccess src off access => Sys2Proof.Machine.execPeerInboundAccess src off access s
  | .linkStateChange peer state => Sys2Proof.Machine.execLinkStateChange peer state s
  | .linkTimeout c => Sys2Proof.Machine.execLinkTimeout c s
  | .fenceWaitEnd c => Sys2Proof.Machine.execFenceWaitEnd c s
  | .dieFailure die => Sys2Proof.Machine.execDieFailure die s
  | .powerCap mw => Sys2Proof.Machine.execPowerCap mw s
  | .thermalTrip die => Sys2Proof.Machine.execThermalTrip die s
  | .coldReset => Sys2Proof.Machine.execColdReset s
  | .warmReset => Sys2Proof.Machine.execWarmReset s
  | .redirectCompletion c pc => Sys2Proof.Machine.execRedirectCompletion c pc s
  | .podBarrierMessage msg => Sys2Proof.Machine.execPodBarrierMessage msg s

end Sys2Proof.Machine
end

