-- ==== Sys2Proof/Machine/Run.lean ====
section
/-! DEFINITION. The moves of the machine: the issue of a word, the moves that the opcode table has no row for, and the
order of moves that stands in where the agenda says none (log entry 1). -/
namespace Sys2Proof.Machine

/-! The issue of a word (R22, R42, R81, R85) -/

/-- Issue the next word of the clause of the crew in focus: the checks before it, its meaning, the advance after it. -/
def State.issueWord (s : State) : Out :=
  match s.unissuable with
  | some f => .next (s.raise (flt f 0))
  | none => match s.clause.instr with
    | none => .next s
    | some i => match exec i s.beforeWord with
      | .next t => .next (t.afterWord i s.focus.chunk.ends)
      | .fault r => .fault r
      | .refused r => .refused r

/-- A crew has a clause in issue. -/
def Crew.inClause (c : Crew) : Bool := c.cur.isSome

/-- A crew has its turn: it comes into focus, and the one that was there stands first in the pool. -/
def State.turnTo (uid : Nat) (s : State) : State :=
  if s.focus.uid = uid then s
  else match s.pool.find? fun c => c.uid == uid with
    | some c =>
      let others := s.pool.filter fun x => x.uid != uid
      { s with focus := c, pool := if s.focus.uid = 0 then others else s.focus :: others }
    | none => s

/-- Bring a crew into focus and issue its next word, once the special-function unit has taken the word before it (R81,
R165). -/
def State.issueOf (uid : Nat) (s : State) : Out :=
  let t := s.turnTo uid
  if t.focus.uid = uid && t.focus.inClause && !t.focus.r.sfuWaits then t.issueWord else .next s

/-- The classes under which the words of a table row decode, the first of them (log entry 2). -/
def tableClass (w : Nat) (rest : List Nat) : EngineClass := (allClasses.find? fun c => (decode c w rest).isSome).getD .seq

/-- The crew in focus, a crew of 32 threads that no launch owns where there is none, has the instruction of a table word as
its clause, from its first word on; a prefix is followed by a zero word (R35, R36). -/
def State.withClauseWord (w : Nat) (s : State) : State :=
  let ws := [w % 2 ^ 32, w / 2 ^ 32 % 2 ^ 32, w / 2 ^ 64 % 2 ^ 32]
  let cls := tableClass (w % 2 ^ 32) (ws.drop 1)
  let pre := (decodeTableWord 96 w).any Instr.isPrefix
  let n := wordLen cls 1 (w % 2 ^ 32) (w / 2 ^ 32 % 2 ^ 32) + pre.toNat
  let all : Lanes := BitVec.allOnes 32
  let cl : Clause := ⟨0, ⟨fin 16 n, cls, 0, 0, 0, false, false, 0⟩, (ws.take n).map (BitVec.ofNat 32), 1, all, none, none, false, false⟩
  let r := { s.focus.r with tmask := all, emask := 0, inflight := [], frontier := [⟨0, all, 0, false⟩] }
  let fresh := s.focus.uid = 0
  let c := { s.focus with
    uid := if fresh then s.uids else s.focus.uid, r := r, shadow := r, cur := some cl, phase := .run, chunk := { Chunk.empty with clauses := 1 } }
  { s with focus := c, uids := if fresh then s.uids + 1 else s.uids, agenda := [] }

/-! What the physical world does (log entry 1) -/

/-- Ask the landings that a released line commits at, one after another, and for the partials that it merges (R202, R244,
R245); `false` where one makes it wait. -/
def State.passReleased (x : StreamOut) (s : State) : State × Bool :=
  let k := x.line.line * 128
  if !isHbm k && decide (k < 2 ^ 52) then (s, true)
  else match x.line.data with
    | .bytes _ => s.mergeFor x.id x.line.line
    | .reds _ _ _ => (s.landingsOf x.core x.line).foldl
        (fun (acc : State × Bool) j => if acc.2 then acc.1.passAt x.id j x.line.line else acc) (s, true)

/-- The `k`-th released STREAM line reaches its home, unless an earlier one of the line has to come first (R216, R217). -/
def State.streamVisible (k : Nat) (s : State) : State :=
  match s.streams[k]? with
  | none => s
  | some x =>
    if x.behind (s.streams.take k) then s
    else match s.passReleased x with
      | (s', true) => { s' with streams := s'.streams.eraseIdx k }.applyLine x.core x.crew x.line
      | (s', false) => s.waitAs s'

/-- The `k`-th released STREAM line is visible at a core ahead of its home (R217, R227): bytes that no sequentially consistent
access wrote, after every earlier one of the line that has to come first (R216, R224). -/
def State.streamSeen (k core : Nat) (s : State) : State :=
  match s.streams[k]? with
  | none => s
  | some x =>
    let plain := match x.line.data with
      | .bytes _ => isHbm (x.line.line * 128) && !x.line.sc
      | .reds _ _ _ => false
    let order := (s.streams.take k).all fun y => !x.behind [y] || y.seers.contains core
    if plain && order && decide (core < 288) && !x.seen.contains core then
      { s with streams := s.streams.set k { x with seen := x.seen ++ [core] } }
    else s

/-- The `k`-th posted access is acknowledged (R230): over a link that is up, and was since it was posted (R415). -/
def State.acknowledge (k : Nat) (s : State) : State :=
  match s.posted[k]? with
  | none => s
  | some p => if s.link p.peer = .up && !p.lost then { s with posted := s.posted.eraseIdx k } else s

/-- The `k`-th posted access is answered with an error (R240, R416): MEMERR for its crew, whose word is no longer known; where the
crew is gone, the event log alone has it. -/
def State.postError (k : Nat) (s : State) : State :=
  match s.posted[k]? with
  | none => s
  | some p =>
    if s.link p.peer != .up || p.lost then s
    else { s with posted := s.posted.eraseIdx k }.postCheck p.crew .memerr (BitVec.ofNat 64 p.addr)

/-- An uncorrectable error arises in what a crew's chunk produced or read, or in its undo log or shadow, which raises SOFT at
once (R211). -/
def State.softError (uid : Nat) (log : Bool) (s : State) : State :=
  match s.crew? uid with
  | none => s
  | some c =>
    if !c.uncommitted then s
    else if log then (if c.chunk.clauses = 0 then s else s.faultCrew uid .soft 0)
    else s.mapCrew uid fun c => { c with chunk := { c.chunk with soft := true } }

/-- A byte of committed data has an uncorrectable error (R181, R211). -/
def State.memError (a : Nat) (s : State) : State := if s.bad.contains a then s else { s with bad := a :: s.bad }

/-- What a move does, if nothing that it reads makes it wait. -/
def State.act (m : Move) (s : State) : Out :=
  match m with
  | .step i => exec i s
  | .issue c => s.issueOf c
  | .streamVisible k => .next (s.streamVisible k).settleOwed
  | .streamSeen k core => .next (s.streamSeen k core).settleOwed
  | .acknowledge k => .next (s.acknowledge k).settleOwed
  | .postError k => .next (s.postError k)
  | .inbound k => .next (s.inboundAgain k)
  | .softError c log => .next (s.softError c log)
  | .corrected core => .next (s.mapCore core fun k => { k with corrected := k.corrected + 1 })
  | .memError a => .next (s.memError a)
  | .firmwareMap n x => .next (s.firmwareMap n x)
  | .bootSplit n => .next { s with hub := { s.hub with nextUnits := n } }
  | .resizeBar2 n => .next { s with hub := { s.hub with bar2size := n } }

/-- A move whose read has to wait is not taken: a word in issue stands held (R92, R203, R246; log entry 44). -/
def State.notTaken (m : Move) (s : State) : State :=
  match m with
  | .issue c => s.onCrew c State.hold
  | _ => s

/-- Perform a move. -/
def State.perform (m : Move) (s : State) : Out :=
  match s.act m with
  | .next t => if t.stall then .next (s.notTaken m) else .next t
  | r => r

/-! The order of moves without an agenda -/

/-- Steps of the scheduler and the hub. -/
def State.hubMoves (s : State) : List Move :=
  let slots := (s.sched.slots.zipIdx.filter fun x => x.1.queue.isSome).map (·.2)
  let ofSlot := fun (i : Nat) => [Instr.launchStart i, .launchCompletion i, .preemptionRequest i, .contextSave i, .stopTimeout i, .contextResume i]
  let all := [slots.flatMap ofSlot,
    (s.sched.queues.filter Queue.copying).map fun x => .checkpointCopyDone x.num,
    if s.sched.tick ≤ s.now then [.rotationTick] else []]
  all.flatten.map Move.step

/-- The merges that a list of views may need (R298, R301). -/
def State.mergeMoves (s : State) (uid : Nat) : List Instr :=
  (List.finRange 16).flatMap fun i =>
    if (adjacent i (s.mergeBlock uid).zipIdx none).isSome || (s.routineOf uid i).isSome then
      [Instr.viewMerge uid i, .userMergeRoutine uid i]
    else []

/-- The steps of one crew. -/
def State.crewMoves (s : State) (c : Crew) : List Move :=
  let u := c.uid
  let before := [
    (c.r.frontier.filter Entry.redir).map fun e => Instr.redirectCompletion u e.pc,
    [.chunkCommit u, .landingRequest u, .softErrorFerry u, .exclusiveMode u, .bargeCommandEntry u, .tensorCommandEntry u, .gangStart u,
      .fenceWaitEnd u, .linkTimeout u, .sfuAcceptance c.core],
    (List.range c.r.inflight.length).map fun k => .longLatencyCompletion u k,
    match c.cur.bind Clause.word with
      | some (.view i ..) => [.userMergeRoutine u i]
      | _ => []]
  let after := [[Instr.frontierSelection u, .windowPlacement u, .taskStart u, .frameReady u], s.mergeMoves u, [.taskEnd u]]
  if u = 0 then []
  else [before.flatten.map Move.step, if c.inClause then [Move.issue u] else [], after.flatten.map Move.step].flatten

/-- The steps of a core's engines. -/
def State.engineMoves (s : State) : List Move :=
  let busy := s.cores.zipIdx.filter fun k =>
    !k.1.barge.queue.isEmpty || !k.1.barge.jobs.isEmpty || !k.1.barge.waits.isEmpty || !k.1.ten.isEmpty
  let ofCore := fun (k : Core × Nat) => List.flatten [
    [Instr.copyStart k.2],
    (List.range k.1.barge.jobs.length).flatMap fun j => [.copyLineCommit k.2 j, .copyCompletion k.2 j],
    (List.range k.1.barge.waits.length).map fun j => .tagWaitCompletion k.2 j,
    [.tensorCommandDispatch k.2, .tensorCommandCompletion k.2, .latchPairing (k.2 / 4)]]
  (busy.flatMap ofCore).map Move.step

/-- Tasks that wait to be taken: from a core's own deque, from hint queues, from another core. -/
def State.taskMoves (s : State) : List Move :=
  let own := (s.cores.zipIdx.filter fun k => !k.1.entries.isEmpty).map (·.2)
  let hinted := (s.dies.zipIdx.filter fun d => !d.1.hints.isEmpty).map (·.2)
  let dies := (List.range 8).filter fun d => own.any fun k => (s.coreAt k).entries.any (s.stealable d)
  let thieves := if dies.isEmpty then []
    else (List.range 288).filter fun k => s.coreIdle k && dies.contains (s.hub.regs.logical k).1
  let all := [own.map Instr.steal, hinted.flatMap fun d => (List.range 36).map fun j => .hintQueueTake (36 * d + j), thieves.map .steal]
  all.flatten.map Move.step

/-- Every move to try, in order: the hub, what waits to become visible or for the world outside, the engines, idle cores,
and the crews from the one longest out of focus: a crew that waits in a loop holds up nothing it waits for. -/
def State.moves (s : State) : List Move :=
  let outside : List Move := [(List.range s.streams.length).map Move.streamVisible, (List.range s.posted.length).map Move.acknowledge,
    (List.range s.inbound.length).map Move.inbound].flatten
  List.flatten [s.hubMoves, outside, s.engineMoves, s.taskMoves, (s.pool.reverse ++ [s.focus]).flatMap s.crewMoves,
    (s.sched.launches.flatMap fun l => s.mergeMoves l.uid).map Move.step]

/-- A move changes the machine, or stops it. -/
def State.changes (s : State) (m : Move) : Bool :=
  match s.perform m with
  | .next t => decide (t ≠ s)
  | _ => true

/-- A crew in a clause whose next word does not wait. -/
def Crew.ready (c : Crew) : Bool := !c.r.sfuWaits && c.cur.any fun k => !k.held

/-- The move that follows where the agenda says none: the acceptance of a special-function word of the crew in focus
(R165); its next word; that of another crew; or the first that changes something. -/
def State.plan (s : State) : Option Move :=
  if s.focus.r.sfuWaits && (s.focus.slotOn s.focus.core).isSome then some (.step (.sfuAcceptance s.focus.core))
  else if s.focus.ready then some (.issue s.focus.uid)
  else match s.pool.find? Crew.ready with
    | some c => some (.issue c.uid)
    | none => s.moves.find? s.changes

/-- The times at which something falls due: the next tick, the end of a wait for a crew or for a link. -/
def State.deadlines (s : State) : List Nat :=
  (s.sched.tick :: (s.sched.launches.filterMap fun l => l.stopAt.map fun t => t + s.hub.regs.stopTmo.toNat) ++
    s.fences.flatMap fun f => f.links.map fun l => l.2 + s.hub.regs.linkTmo.toNat).filter fun t => decide (s.now < t)

/-- Nothing can happen before the next deadline. -/
def State.idle (s : State) : State :=
  match s.deadlines with
  | [] => s
  | t :: ts => { s with now := ts.foldl min t }

/-- A step without an agenda. -/
def State.auto (s : State) : Out :=
  match s.plan with
  | some m => s.perform m
  | none => .next s.idle

end Sys2Proof.Machine
end

