-- ==== Sys2Proof/Machine/Step.lean ====
section
/-! DEFINITION. One step of the machine: the move at the head of the agenda after the time that passes before it, or the
move that the order of Run gives. -/
namespace Sys2Proof.Machine

def step (s : State) : Host.Outcome State Fault Refusal :=
  match s.agenda with
  | (d, m) :: rest => State.perform m { s with now := s.now + d, agenda := rest }
  | [] => s.auto

/-- `s` with the instruction of a table word as the clause in issue of the crew in focus (log entry 3): the next step
issues it. A prefix is followed by a zero word (R35, R36). -/
def State.withFetchWord (s : State) (_nbits w : Nat) : State := s.withClauseWord w

end Sys2Proof.Machine
end

