-- ==== Sys2Proof/Safety.lean ====
section
/-! DEFINITION. What a safe run is, and the terms in which claims about the machine are said. -/
namespace Sys2Proof.Machine

/-- The numbers of crews and launches, of saved contexts and of checkpoints, are below the next one. -/
structure State.Numbered (s : State) : Prop where
  crews : ∀ c ∈ s.crews, c.uid < s.uids
  launches : ∀ l ∈ s.sched.launches, l.uid < s.uids
  saved : ∀ x ∈ s.sched.saved, ∀ c ∈ x.crews, c.uid < s.uids
  ckpts : ∀ k ∈ s.sched.ckpts, k.launch.uid < s.uids ∧ ∀ c ∈ k.ctx.crews, c.uid < s.uids

/-- What holds of every state that the machine reaches: memory is in its canonical form, and numbers are below the next
one. -/
def State.Inv (s : State) : Prop := Memory.wf s.mem ∧ s.Numbered

/-- `n` steps from `s` lead to `t` without a fault or a refusal. -/
def Reaches : Nat → State → State → Prop
  | 0, s, t => s = t
  | n + 1, s, t => ∃ u, step s = .next u ∧ Reaches n u t

/-- A safe run: the next `n` steps neither fault nor are refused. -/
def SafeRun (n : Nat) (s : State) : Prop := ∃ t, Reaches n s t

end Sys2Proof.Machine

namespace Sys2Proof.Claims
open Sys2Proof.Machine

/-- The instruction answers the next state `t`. -/
abbrev Runs (i : Instr) (s t : State) : Prop := exec i s = .next t

/-- No pending marker stands on a register in the issuing lanes (R25). -/
def NoMark (s : State) (f : RegFile) (n : Nat) : Prop := ∀ t ∈ s.lanes, s.focus.r.marked f n t = false

/-- The machine with other registers and another chunk in the crew in focus, and nothing else changed. -/
def withCrew (s : State) (r : Regs) (ch : Chunk) : State := { s with focus := { s.focus with r := r, chunk := ch } }

/-! ### Vector instructions -/

/-- The undo log holds v[d] already, or has the ten units that it takes (R209). -/
def Room (s : State) (d : Fin 64) : Prop := d ∈ s.focus.chunk.logV ∨ s.focus.chunk.logUnits + 10 ≤ 256

/-- The chunk once the undo log holds v[d] (R209). -/
def logged (d : Fin 64) (ch : Chunk) : Chunk :=
  if d ∈ ch.logV then ch else { ch with logV := d :: ch.logV, logUnits := ch.logUnits + 10 }

/-- An issuing thread is active: the guard, counted in `n t` positions, selects one of them (R60, R61). -/
def Active (s : State) (g : Guard) (n : Fin 32 → Nat) (t : Fin 32) : Prop :=
  t ∈ s.lanes ∧ ∃ e < n t, posActive s.focus.r g (n t) t e = true

/-- Thread `t` may read a routed operand (R25, R99, R100, R65): no marker on the index register there, on the register
in a launched lane that feeds it (but that of an exited lane that the clause's WAIT selects) or in itself where it reads
its own element, nor, for m8, on the register that holds the block scales' base. -/
def Readable (s : State) (o : Operand) (t : Fin 32) : Prop :=
  let r := s.focus.r
  (∀ v b, o.route = .idx v b → r.marked .v v.val t = false) ∧
  (∀ e < tagCount (o.tag r t), match routeFeed o.route (o.index r t) t e with
    | .lane l => hasLane r.tmask l = true → r.markedRead s.clause.header.wait o.reg.val l = false
    | .own => r.marked .v o.reg.val t = false
    | .zero => True) ∧
  (o.tag r t = tM8 → ∀ u ∈ s.lanes, r.marked .s r.side[o.reg].base.val u = false)

/-- A vector instruction meets neither a marker on its guard or operands, nor feeding lanes of different tags (R25, R58,
R102). -/
structure Ready (s : State) (g : Guard) (n : Fin 32 → Nat) (ops : List Operand) : Prop where
  guard : NoMark s .q g.q.val
  reads : ∀ o ∈ ops, ∀ t, Active s g n t → Readable s o t
  routes : ∀ o ∈ ops, ∀ t t', Active s g n t → Active s g n t' → ∀ l l', Feed.lane l ∈ o.feeds s.focus.r t →
    Feed.lane l' ∈ o.feeds s.focus.r t' → o.feedTag s.focus.r t (.lane l) = o.feedTag s.focus.r t' (.lane l')

/-- Its v destination bears no marker in an active thread, and the undo log has room for it (R25, R196). -/
def DstFree (s : State) (g : Guard) (n : Fin 32 → Nat) (d : Fin 64) : Prop :=
  (∀ t, Active s g n t → s.focus.r.marked .v d.val t = false) ∧ Room s d

/-- `w` differs from `r` in v[d] alone, and there as a vector instruction writes it (R60 to R62): in the threads of
`lanes`, position e of n takes `f t e` where the guard makes it active and `f` gives it a value, and keeps its bits
otherwise; a thread with an active position gets its tag; every other thread and register keeps value and tag. -/
structure VWrites (r w : Regs) (d : Fin 64) (lanes : List (Fin 32)) (g : Guard) (n : Fin 32 → Nat) (T : Fin 32 → Fin 16)
    (f : Fin 32 → Nat → Option Nat) : Prop where
  active : ∀ t ∈ lanes, ∀ e < n t, posActive r g (n t) t e = true → ∀ x, f t e = some x →
    elemOf (64 / n t) e (w.readV d t).val = x % 2 ^ (64 / n t)
  kept : ∀ t ∈ lanes, ∀ e < n t, posActive r g (n t) t e = false ∨ f t e = none →
    elemOf (64 / n t) e (w.readV d t).val = elemOf (64 / n t) e (r.readV d t).val
  tag : ∀ t ∈ lanes, (∃ e < n t, posActive r g (n t) t e = true) → (w.readV d t).tag = T t
  idle : ∀ t, t ∉ lanes ∨ (∀ e < n t, posActive r g (n t) t e = false) → w.readV d t = r.readV d t
  others : ∀ d', d' ≠ d → ∀ t, w.readV d' t = r.readV d' t
  rest : { w with v := r.v } = r

/-- `w` differs from `r` in q[d] alone (R50, R60): in the threads of `lanes`, the bits of an active position become
`f t e`, all others stay; a write to q0 is discarded. -/
structure QWrites (r w : Regs) (d : Fin 8) (lanes : List (Fin 32)) (g : Guard) (n : Fin 32 → Nat) (f : Fin 32 → Nat → Bool) :
    Prop where
  active : d ≠ 0 → ∀ t ∈ lanes, ∀ k < 8, posActive r g (n t) t (k / (8 / n t)) = true →
    (w.readQ d t).getLsbD k = f t (k / (8 / n t))
  kept : ∀ t, ∀ k < 8, t ∉ lanes ∨ posActive r g (n t) t (k / (8 / n t)) = false →
    (w.readQ d t).getLsbD k = (r.readQ d t).getLsbD k
  others : ∀ d', d' ≠ d → ∀ t, w.readQ d' t = r.readQ d' t
  rest : { w with q := r.q } = r

/-- The sticky flags that the active positions raise: a bit is set where one of them sets it (R70, R125). -/
def RaisedBy (r : Regs) (lanes : List (Fin 32)) (g : Guard) (n : Fin 32 → Nat) (F : Fin 32 → Nat → FpFlags) (fp : FpFlags) : Prop :=
  ∀ k < 6, fp.getLsbD k = true ↔ ∃ t ∈ lanes, ∃ e < n t, posActive r g (n t) t e = true ∧ (F t e).getLsbD k = true

/-- Registers after an instruction with the writes `ws` and flags `fp`: made at once, or, where it is long-latency (R24),
held under its flag with the destination marked in every issuing thread (R23, R25). -/
def settled (r : Regs) (lanes : List (Fin 32)) (dst : Dst) (long : Option (Fin 12 × LongKind)) (ws : List RegWrite) (fp : FpFlags) :
    Regs :=
  match long with
  | none => { r.applyAll ws with fpflags := r.fpflags ||| fp }
  | some (flag, kind) => { r.markDst lanes flag dst with inflight := r.inflight ++ [⟨flag, kind, ws, fp, false, []⟩] }

/-- A vector instruction to v[d] runs, with the given values and flags, and changes nothing else but what `post` says. -/
def VRuns (i : Instr) (s : State) (d : Fin 64) (g : Guard) (n : Fin 32 → Nat) (T : Fin 32 → Fin 16)
    (long : Option (Fin 12 × LongKind)) (post : Regs → Regs) (f : Fin 32 → Nat → Option Nat) (F : Fin 32 → Nat → FpFlags) : Prop :=
  ∃ ws fp, VWrites s.focus.r (s.focus.r.applyAll ws) d s.lanes g n T f ∧ RaisedBy s.focus.r s.lanes g n F fp ∧
    Runs i s (withCrew s (post (settled s.focus.r s.lanes (.v d) long ws fp)) (logged d s.focus.chunk))

/-- A vector instruction to q[d] runs, with the given truth values and flags, and changes nothing else. -/
def QRuns (i : Instr) (s : State) (d : Fin 8) (g : Guard) (n : Fin 32 → Nat) (long : Option (Fin 12 × LongKind))
    (f : Fin 32 → Nat → Bool) (F : Fin 32 → Nat → FpFlags) : Prop :=
  ∃ ws fp, QWrites s.focus.r (s.focus.r.applyAll ws) d s.lanes g n f ∧ RaisedBy s.focus.r s.lanes g n F fp ∧
    Runs i s (withCrew s (settled s.focus.r s.lanes (.q d) long ws fp) s.focus.chunk)

/-- No flag. -/
def noFlags : Fin 32 → Nat → FpFlags := fun _ _ => 0

/-- An IDX route makes the word long-latency under the flag that it selects (R24). -/
def longOf (s : State) (rx : Option Rx) (fs : Bool) : Option (Fin 12 × LongKind) :=
  if hasIdx rx then some (s.clause.flag fs, .plain) else none

/-- The position counts of tags by thread. -/
def counts (T : Fin 32 → Fin 16) : Fin 32 → Nat := fun t => tagCount (T t)

/-- Operands of one tag that `ok` accepts: `T t` is the tag of the first in every issuing thread, by which the guard is
counted, and of them all in the active threads (R55, R61). -/
def OneTag (s : State) (g : Guard) (ok : Fin 16 → Bool) (ops : List Operand) (T : Fin 32 → Fin 16) : Prop :=
  (∀ t ∈ s.lanes, ∀ o ∈ ops.head?, o.tag s.focus.r t = T t) ∧
  ∀ t, Active s g (counts T) t → ok (T t) = true ∧ ∀ o ∈ ops, o.tag s.focus.r t = T t

/-- An element as the integer that its tag makes it (R114). -/
def intOf (T : Fin 16) (x : Nat) : Int := if tagSigned T then (BitVec.ofNat (tagWidth T) x).toInt else x

/-- An integer in the range of a tag (R114). -/
def clamp (T : Fin 16) (x : Int) : Int :=
  if tagSigned T then max (-2 ^ (tagWidth T - 1)) (min (2 ^ (tagWidth T - 1) - 1) x) else max 0 (min (2 ^ tagWidth T - 1) x)

/-- The elements that the operands give to position e of thread t. -/
def elems (s : State) (ops : List Operand) (t : Fin 32) (e : Nat) : List Nat := ops.map fun o => o.elem s.focus.r t e

end Sys2Proof.Claims
end

