-- ==== Sys2Proof/Certificates/Slice0/Obligations.lean ====
section
/-! DEFINITION. The statements for the provers, and the tables that several of them range over. -/
namespace Sys2Proof.Claims
open Sys2Proof.Machine

/-! ### Class SEQ: tables -/

/-- The uniform instructions of two sources with the 64-bit function of R117. -/
def uniform2 : List ((Fin 64 → Fin 64 → Fin 64 → Instr) × (Dword → Dword → Dword)) :=
  [(.sadd, fun a b => a + b), (.ssub, fun a b => a - b), (.smul, fun a b => a * b),
   (.smulh, fun a b => BitVec.ofInt 64 (a.toInt * b.toInt / 2 ^ 64)),
   (.smulhz, fun a b => BitVec.ofNat 64 (a.toNat * b.toNat / 2 ^ 64)),
   (.sand, fun a b => a &&& b), (.sor, fun a b => a ||| b), (.sxor, fun a b => a ^^^ b),
   (.sshl, fun a b => if b.toNat < 64 then BitVec.ofNat 64 (a.toNat * 2 ^ b.toNat) else 0),
   (.sshr, fun a b => if b.toNat < 64 then BitVec.ofNat 64 (a.toNat / 2 ^ b.toNat) else 0),
   (.ssar, fun a b => if b.toNat < 64 then BitVec.ofInt 64 (a.toInt / 2 ^ b.toNat) else if a.toInt < 0 then BitVec.ofInt 64 (-1) else 0),
   (.smin, fun a b => BitVec.ofInt 64 (min a.toInt b.toInt)), (.smax, fun a b => BitVec.ofInt 64 (max a.toInt b.toInt)),
   (.sminz, fun a b => BitVec.ofNat 64 (min a.toNat b.toNat)), (.smaxz, fun a b => BitVec.ofNat 64 (max a.toNat b.toNat))]

/-- The truth of a condition code on two numbers as their tag reads them, and on the two patterns (R115). -/
def codeHolds (cc : Nat) (x y : Int) (a b : Nat) : Prop :=
  match cc with
  | 0 => a = b | 1 => a ≠ b | 2 => x < y | 3 => x ≤ y | 4 => x > y | 5 => x ≥ y
  | 6 => a < b | 7 => a ≤ b | 8 => a > b | 9 => a ≥ b | _ => False

/-- The number of 1 bits among the low w, and of leading 0 bits of w. -/
def ones (w a : Nat) : Nat := ((List.range w).filter a.testBit).length
def leading (w a : Nat) : Nat := ((List.range w).takeWhile fun i => !a.testBit (w - 1 - i)).length

/-- Registers after an instruction has written s[d]: a write to s0 is discarded (R50); what is still in flight writes that register
no more, since the later issue's value stands (R63). -/
def wrote (r : Regs) (d : Fin 64) (x : Dword) : Regs :=
  if d = 0 then r else { r with s := r.s.set d x, inflight := r.inflight.map (Inflight.lose d) }

/-- A uniform instruction writes s[d] and does nothing else. -/
def Writes (i : Instr) (s : State) (d : Fin 64) (x : Dword) : Prop :=
  Runs i s (withCrew s (wrote s.focus.r d x) s.focus.chunk)

/-! ### Class VI: tables -/

/-- Vector instructions of one, two and three v operands. -/
abbrev Ctor1 := Fin 64 → Fin 64 → Bool → Option Rx → Instr
abbrev Ctor2 := Fin 64 → Fin 64 → Fin 64 → Bool → Option Rx → Instr
abbrev Ctor3 := Fin 64 → Fin 64 → Fin 64 → Fin 64 → Bool → Option Rx → Instr

/-- Routed operands. -/
def oA (a : Fin 64) (rx : Option Rx) : Operand := ⟨a, rxA rx⟩
def oB (b : Fin 64) (rx : Option Rx) : Operand := ⟨b, rxB rx⟩
def oC (c : Fin 64) (rx : Option Rx) : Operand := ⟨c, rxC rx⟩

/-- An arithmetic instruction (R121, R122): on operands of one tag that `ok` accepts, `f` on the elements as integers,
clamped into the tag's range where it saturates, modulo 2^w; SAT where clamping changed the number. -/
def IntRuns (i : Instr) (s : State) (d : Fin 64) (ops : List Operand) (rx : Option Rx) (fs : Bool) (ok : Fin 16 → Bool) (sat : Bool)
    (f : Nat → List Int → Int) : Prop :=
  ∀ T, OneTag s (rxGuard rx) ok ops T → Ready s (rxGuard rx) (counts T) ops → DstFree s (rxGuard rx) (counts T) d →
    let x := fun t e => f (tagWidth (T t)) ((elems s ops t e).map (intOf (T t)))
    VRuns i s d (rxGuard rx) (counts T) T (longOf s rx fs) id
      (fun t e => some ((if sat then clamp (T t) (x t e) else x t e) % 2 ^ tagWidth (T t)).toNat)
      (fun t e => if sat = true ∧ clamp (T t) (x t e) ≠ x t e then fSAT else 0)

/-- The integer instructions of two operands, what they compute, and whether they saturate. -/
def int2Table : List (Ctor2 × (Nat → Int → Int → Int) × (Option Rx → Bool)) :=
  [(.vadd, fun _ x y => x + y, fun _ => false), (.vsub, fun _ x y => x - y, fun _ => false),
   (.vadds, fun _ x y => x + y, fun _ => true), (.vsubs, fun _ x y => x - y, fun _ => true),
   (.vmul, fun _ x y => x * y, rxSat), (.vmulh, fun w x y => x * y / 2 ^ w, fun _ => false),
   (.vmin, fun _ x y => min x y, fun _ => false), (.vmax, fun _ x y => max x y, fun _ => false),
   (.vabsd, fun _ x y => |x - y|, rxSat)]

/-- The result tag of a logic instruction (R56): the common tag of the sources, RAW where they differ or are handles. -/
def logicT (ts : List (Fin 16)) : Fin 16 :=
  if (∀ t ∈ ts, t = ts.headD 0) ∧ ts.headD 0 ≠ tHND then ts.headD 0 else tRAW

/-- The 64-bit result of a logic instruction: `f` on the positions of width w of the operands (R123). -/
def logicWord (w : Nat) (f : List Nat → Nat) (xs : List Dword) : Dword :=
  BitVec.ofNat 64 (((List.range (64 / w)).map fun i => f (xs.map (elemOf w i)) % 2 ^ w * 2 ^ (w * i)).sum)

/-- A logic, shift, bit-field or bit-count instruction (R56, R123): `f` takes the width of A's elements and whether A is
signed. -/
def LogicRuns (i : Instr) (s : State) (d : Fin 64) (a : Operand) (ops : List Operand) (rx : Option Rx) (fs : Bool)
    (f : Nat → Bool → List Nat → Nat) : Prop :=
  ∀ T : Fin 32 → Fin 16, (∀ t ∈ s.lanes, T t = logicT ((a :: ops).map fun o => o.tag s.focus.r t)) →
    Ready s (rxGuard rx) (counts T) (a :: ops) → DstFree s (rxGuard rx) (counts T) d →
    VRuns i s d (rxGuard rx) (counts T) T (longOf s rx fs) id
      (fun t e => let A := a.tag s.focus.r t
        some (elemOf (tagWidth (T t)) e (logicWord (tagWidth A) (f (tagWidth A) (tagSigned A))
          ((a :: ops).map fun o => o.whole s.focus.r t))))
      noFlags

/-- The logic instructions of two operands, and of one. -/
def logic2Table : List (Ctor2 × (Nat → Nat → Nat → Nat)) :=
  [(.vand, fun _ x y => x &&& y), (.vor, fun _ x y => x ||| y), (.vxor, fun _ x y => x ^^^ y),
   (.vandn, fun w x y => x &&& (2 ^ w - 1 - y)),
   (.vshl, fun w x k => if k < w then x * 2 ^ k % 2 ^ w else 0), (.vshr, fun w x k => if k < w then x / 2 ^ k else 0),
   (.vsar, fun w x k => ((BitVec.ofNat w x).toInt / 2 ^ min k w % 2 ^ w).toNat),
   (.vrol, fun w x k => ((BitVec.ofNat w x).rotateLeft k).toNat)]
def logic1Table : List (Ctor1 × (Nat → Nat → Nat)) :=
  [(.vnot, fun w x => 2 ^ w - 1 - x), (.vpopc, ones), (.vclz, leading), (.vbrev, fun w x => (BitVec.ofNat w x).reverse.toNat)]

/-- The n bits from bit p of a w-bit element, extended by its signedness; the field ends with the element (R123). -/
def fieldOf (w : Nat) (signed : Bool) (a p n : Nat) : Nat :=
  if w ≤ p ∨ n = 0 then 0
  else if signed then ((BitVec.ofNat (min n (w - p)) (a / 2 ^ p)).toInt % 2 ^ w).toNat else a / 2 ^ p % 2 ^ min n (w - p)

/-- A w-bit element with n bits from bit p on replaced by the low bits of `x`; the field ends with the element (R123). -/
def fieldInto (w x p n old : Nat) : Nat :=
  ((List.range w).map fun k => (if p ≤ k ∧ k < p + n then x.testBit (k - p) else old.testBit k).toNat * 2 ^ k).sum

/-- An immediate of w bits (R123). -/
def immOf (w : Nat) (imm : BitVec 12) : Nat := (imm.toInt % 2 ^ w).toNat

end Sys2Proof.Claims

open Sys2Proof Sys2Proof.Machine Sys2Proof.Claims

/-! ### Class SEQ -/

/-- R117: the uniform instructions of two sources. -/
def Sys2Proof.Claims.UniformTwoSources : Prop :=
  ∀ p ∈ uniform2, ∀ d a b s, NoMark s .s a.val → NoMark s .s b.val → NoMark s .s d.val →
    Writes (p.1 d a b) s d (p.2 (s.focus.r.readS a) (s.focus.r.readS b))

/-- R117: the uniform compare, select, move, count and immediate instructions. -/
def Sys2Proof.Claims.UniformOthers : Prop :=
  ∀ d a b c s, NoMark s .s a.val → NoMark s .s b.val → NoMark s .s c.val → NoMark s .s d.val →
    let x := s.focus.r.readS a
    let y := s.focus.r.readS b
    (∀ cc, (codeHolds cc.val x.toInt y.toInt x.toNat y.toNat → Writes (.scmp d a b cc) s d 1) ∧
      (¬ codeHolds cc.val x.toInt y.toInt x.toNat y.toNat → Writes (.scmp d a b cc) s d 0)) ∧
    Writes (.ssel d a b c) s d (if s.focus.r.readS c ≠ 0 then x else y) ∧
    Writes (.smov d a) s d x ∧
    Writes (.spopc d a) s d (BitVec.ofNat 64 (ones 64 x.toNat)) ∧
    Writes (.sclz d a) s d (BitVec.ofNat 64 (leading 64 x.toNat)) ∧
    (∀ imm, Writes (.saddi d a imm) s d (BitVec.ofInt 64 (x.toInt + imm.toInt)) ∧
      Writes (.sandi d a imm) s d (x &&& BitVec.ofInt 64 imm.toInt) ∧
      Writes (.sori d a imm) s d (x ||| BitVec.ofInt 64 imm.toInt)) ∧
    (∀ n, Writes (.sshli d a n) s d (BitVec.ofNat 64 (x.toNat * 2 ^ n.val)) ∧
      Writes (.sshri d a n) s d (BitVec.ofNat 64 (x.toNat / 2 ^ n.val))) ∧
    (∀ (sh : Fin 4) (imm : BitVec 16), Writes (.smovz d sh imm) s d (BitVec.ofNat 64 (imm.toNat * 2 ^ (16 * sh.val))) ∧
      ∃ z : Dword, Writes (.smovk d sh imm) s d z ∧ ∀ k < 64,
        z.getLsbD k = if k / 16 = sh.val then imm.getLsbD (k % 16) else (s.focus.r.readS d).getLsbD k) ∧
    (∀ lit, Writes (.slimm d lit) s d lit)

/-- R112: SRDL reads the whole of v[A] in lane (s[B] + C) mod 32, zero where that lane was never launched. -/
def Sys2Proof.Claims.UniformLaneRead : Prop :=
  ∀ (d a b : Fin 64) (n : Fin 32) (s : State), NoMark s .s b.val → NoMark s .s d.val →
    ∀ l : Fin 32, l.val = ((s.focus.r.readS b).toNat % 32 + n.val) % 32 →
      (hasLane s.focus.r.tmask l = false → Writes (.srdl d a b n) s d 0) ∧
      (hasLane s.focus.r.tmask l = true → s.focus.r.marked .v a.val l = false →
        Writes (.srdl d a b n) s d (s.focus.r.readV a l).val)

/-! ### Class VI -/

/-- R121, R122, R125: the vector integer arithmetic.
Rests on readings and choices of the model (log entries 16, 61, 86 and 107). -/
def Obligations.VectorIntegerArithmetic : Prop :=
  ∀ (d a b c : Fin 64) (fs : Bool) (rx : Option Rx) (s : State),
    (∀ p ∈ int2Table, IntRuns (p.1 d a b fs rx) s d [oA a rx, oB b rx] rx fs tagInt (p.2.2 rx)
      fun w l => p.2.1 w (l.getD 0 0) (l.getD 1 0)) ∧
    IntRuns (.vmad d a b c fs rx) s d [oA a rx, oB b rx, oC c rx] rx fs tagInt (rxSat rx)
      (fun _ l => l.getD 0 0 * l.getD 1 0 + l.getD 2 0) ∧
    IntRuns (.vabs d a fs rx) s d [oA a rx] rx fs tagSigned (rxSat rx) (fun _ l => |l.getD 0 0|) ∧
    IntRuns (.vneg d a fs rx) s d [oA a rx] rx fs tagSigned (rxSat rx) (fun _ l => -l.getD 0 0) ∧
    ∀ imm, IntRuns (.vaddi d a imm rx) s d [oA a rx] rx false tagInt false fun _ l => l.getD 0 0 + imm.toInt

/-- R56, R123: the vector logic, shift, bit-field and bit-count instructions, on any tags.
Rests on readings and choices of the model (log entries 16, 61 and 107). -/
def Obligations.VectorLogic : Prop :=
  ∀ (d a b c : Fin 64) (fs : Bool) (rx : Option Rx) (s : State),
    (∀ p ∈ logic2Table, LogicRuns (p.1 d a b fs rx) s d (oA a rx) [oB b rx] rx fs
      fun w _ l => p.2 w (l.getD 0 0) (l.getD 1 0)) ∧
    (∀ p ∈ logic1Table, LogicRuns (p.1 d a fs rx) s d (oA a rx) [] rx fs fun w _ l => p.2 w (l.getD 0 0)) ∧
    LogicRuns (.vbfx d a b c fs rx) s d (oA a rx) [oB b rx, oC c rx] rx fs
      (fun w sg l => fieldOf w sg (l.getD 0 0) (l.getD 1 0) (l.getD 2 0)) ∧
    LogicRuns (.vbfi d a b c fs rx) s d (oA a rx) [oB b rx, oC c rx, ⟨d, .none⟩] rx fs
      (fun w _ l => fieldInto w (l.getD 0 0) (l.getD 1 0) (l.getD 2 0) (l.getD 3 0)) ∧
    (∀ imm, LogicRuns (.vandi d a imm rx) s d (oA a rx) [] rx false (fun w _ l => l.getD 0 0 &&& immOf w imm) ∧
      LogicRuns (.vori d a imm rx) s d (oA a rx) [] rx false (fun w _ l => l.getD 0 0 ||| immOf w imm) ∧
      LogicRuns (.vxori d a imm rx) s d (oA a rx) [] rx false (fun w _ l => l.getD 0 0 ^^^ immOf w imm)) ∧
    ∀ n : Fin 64, LogicRuns (.vshli d a n rx) s d (oA a rx) [] rx false
        (fun w _ l => if n.val < w then l.getD 0 0 * 2 ^ n.val else 0) ∧
      LogicRuns (.vshri d a n rx) s d (oA a rx) [] rx false (fun w _ l => if n.val < w then l.getD 0 0 / 2 ^ n.val else 0) ∧
      LogicRuns (.vsari d a n rx) s d (oA a rx) [] rx false
        (fun w _ l => ((BitVec.ofNat w (l.getD 0 0)).toInt / 2 ^ min n.val w % 2 ^ w).toNat)

/-- R112, R117: the uniform instructions: arithmetic, logic and compares; moves, counts and immediates; the read of a lane.
Rests on readings and choices of the model (log entry 16). -/
def Obligations.UniformInstructions : Prop := UniformTwoSources ∧ UniformOthers ∧ UniformLaneRead

namespace Sys2Proof.Claims
open Sys2Proof.Machine

/-- Some issuing thread is active, and s[a] bears no marker in the issuing threads. -/
def UsesS (s : State) (g : Guard) (n : Fin 32 → Nat) (a : Fin 64) : Prop := (∃ t, Active s g n t) → NoMark s .s a.val

/-- q[a] bears no marker in the active threads. -/
def UsesQ (s : State) (g : Guard) (n : Fin 32 → Nat) (a : Fin 8) : Prop := ∀ t, Active s g n t → s.focus.r.marked .q a.val t = false

/-- A vector instruction writes v[d] with one tag for every thread, raising no flag. -/
def MoveRuns (i : Instr) (s : State) (d : Fin 64) (rx : Option Rx) (fs : Bool) (ops : List Operand) (T : Fin 32 → Fin 16)
    (f : Fin 32 → Nat → Nat) : Prop :=
  Ready s (rxGuard rx) (counts T) ops → DstFree s (rxGuard rx) (counts T) d →
    VRuns i s d (rxGuard rx) (counts T) T (longOf s rx fs) id (fun t e => some (f t e)) noFlags

/-- Any tag. -/
def anyTag : Fin 16 → Bool := fun _ => true

/-- The VQOP operations on two bits (R119). -/
def qop (op : Nat) (x y : Bool) : Bool :=
  match op with
  | 0 => x && y | 1 => x || y | 2 => xor x y | 3 => x && !y | 4 => !x | _ => x

/-- One position in every thread. -/
def one : Fin 32 → Nat := fun _ => 1

/-- The participating threads of a crew-wide instruction, lowest first (R106). -/
def participants (s : State) (g : Guard) : List (Fin 32) := s.lanes.filter fun t => posActive s.focus.r g 1 t 0

/-- A crew-wide instruction writes the whole of v[d] in its participating threads (R106). -/
def WideRuns (i : Instr) (s : State) (d : Fin 64) (rx : Option Rx) (fs : Bool) (ops : List Operand) (T : Fin 16) (f : Fin 32 → Nat) :
    Prop :=
  Ready s (rxGuard rx) one ops → DstFree s (rxGuard rx) one d →
    VRuns i s d (rxGuard rx) one (fun _ => T) (longOf s rx fs) id (fun t _ => some (f t)) noFlags

end Sys2Proof.Claims

/-- R121, R124, R111: the vector moves: VMOV, VSEL, VWRL, VIOTA, VMOVI and VLIMM. -/
def Sys2Proof.Claims.VectorMoves : Prop :=
  ∀ (d a b c : Fin 64) (fs : Bool) (rx : Option Rx) (s : State),
    let g := rxGuard rx
    let r := s.focus.r
    (∀ T, OneTag s g anyTag [oA a rx] T →
      MoveRuns (.vmov d a fs rx) s d rx fs [oA a rx] T fun t e => (oA a rx).elem r t e) ∧
    (∀ T q, OneTag s g anyTag [oA a rx, oB b rx] T → UsesQ s g (counts T) q →
      MoveRuns (.vsel d a b q fs rx) s d rx fs [oA a rx, oB b rx] T fun t e =>
        if (r.readQ q t).getLsbD (tagWidth (T t) * e / 8) then (oA a rx).elem r t e else (oB b rx).elem r t e) ∧
    (∀ T, OneTag s g (· != tHND) [oA a rx] T → UsesS s g (counts T) b → UsesS s g (counts T) c →
      MoveRuns (.vwrl d a b c fs rx) s d rx fs [oA a rx] T fun t e =>
        if t.val = (r.readS c).toNat % 32 ∧ e = (r.readS c).toNat / 32 % 8 % tagCount (T t) then (r.readS b).toNat
        else (oA a rx).elem r t e) ∧
    (∀ T, UsesS s g (counts fun _ => T) a →
      MoveRuns (.viota d a T rx) s d rx false [] (fun _ => T) fun t e => (r.readS a).toNat + tagCount T * t.val + e) ∧
    (∀ (sh : Fin 4) (imm : BitVec 16),
      MoveRuns (.vmovi d sh imm rx) s d rx false [] (fun _ => tZ64) fun _ _ => imm.toNat * 2 ^ (16 * sh.val)) ∧
    ∀ lit : BitVec 64, MoveRuns (.vlimm d lit) s d none false [] (fun _ => tZ64) fun _ _ => lit.toNat

/-- R124: VCMP, VQOP and VQMOV. -/
def Sys2Proof.Claims.VectorPredicates : Prop :=
  ∀ (a b : Fin 64) (fs : Bool) (rx : Option Rx) (s : State),
    let g := rxGuard rx
    let r := s.focus.r
    (∀ (d : Fin 8) (cc : Fin 16) T, OneTag s g tagInt [oA a rx, oB b rx] T → Ready s g (counts T) [oA a rx, oB b rx] →
      UsesQ s g (counts T) d → ∃ f, (∀ t e, f t e = true ↔ codeHolds cc.val (intOf (T t) ((oA a rx).elem r t e))
          (intOf (T t) ((oB b rx).elem r t e)) ((oA a rx).elem r t e) ((oB b rx).elem r t e)) ∧
        QRuns (.vcmp d a b cc fs rx) s d g (counts T) (longOf s rx fs) f noFlags) ∧
    (∀ d p q op : Fin 8, NoMark s .q g.q.val → UsesQ s g (fun _ => 8) p → (op.val < 4 → UsesQ s g (fun _ => 8) q) →
      UsesQ s g (fun _ => 8) d → QRuns (.vqop d p q op rx) s d g (fun _ => 8) (longOf s rx false)
        (fun t e => qop op.val ((r.readQ p t).getLsbD e) ((r.readQ q t).getLsbD e)) noFlags) ∧
    (∀ (d : Fin 8) (d' : Fin 64), d'.val = d.val → Ready s g (fun _ => 8) [oA a rx] → UsesQ s g (fun _ => 8) d →
      QRuns (.vqmov d' a false fs rx) s d g (fun _ => 8) (longOf s rx fs)
        (fun t e => elemOf 8 e ((oA a rx).whole r t) != 0) noFlags) ∧
    ∀ (q : Fin 8) (q' : Fin 64), q'.val = q.val → UsesQ s g (fun _ => 8) q →
      MoveRuns (.vqmov a q' true fs rx) s a rx fs [] (fun _ => tZ8) fun t e => if (r.readQ q t).getLsbD e then 255 else 0

/-- R106 to R110: the crew-wide instructions. -/
def Sys2Proof.Claims.CrewWideInstructions : Prop :=
  ∀ (d a : Fin 64) (fs : Bool) (rx : Option Rx) (s : State),
    let g := rxGuard rx
    let r := s.focus.r
    let P := participants s g
    let val := fun t => (oA a rx).whole r t
    let tag := fun t => (oA a rx).tag r t
    (∀ (q : Fin 8) (mode : Fin 4), mode.val < 3 → Ready s g one [oA a rx] → UsesQ s g one q → ∃ f,
      (f = true ↔ match mode.val with
        | 0 => ∀ t ∈ P, val t ≠ 0
        | 1 => ∃ t ∈ P, val t ≠ 0
        | _ => ∀ t ∈ P, ∀ u ∈ P, val t = val u ∧ tag t = tag u) ∧
      QRuns (.vvote q a mode fs rx) s q g one (longOf s rx fs) (fun _ _ => f) noFlags) ∧
    (∃ m : Nat, (∀ k, m.testBit k = true ↔ ∃ t ∈ P, t.val = k ∧ val t ≠ 0) ∧
      WideRuns (.vballot d a fs rx) s d rx fs [oA a rx] tZ64 fun _ => m) ∧
    (∃ m : Fin 32 → Nat, (∀ t k, (m t).testBit k = true ↔ ∃ u ∈ P, u.val = k ∧ val u = val t ∧ tag u = tag t) ∧
      WideRuns (.vmatch d a fs rx) s d rx fs [oA a rx] tZ64 m) ∧
    (∀ t ∈ P, (∀ u ∈ P, t.val ≤ u.val) → WideRuns (.vfirst d a fs rx) s d rx fs [oA a rx] (tag t) fun _ => (val t).toNat) ∧
    (P = [] → WideRuns (.vfirst d a fs rx) s d rx fs [oA a rx] 0 fun _ => 0) ∧
    ∃ m : Nat, (∀ k < 32, m.testBit k = true ↔ ∃ t ∈ P, t.val = k) ∧ m / 2 ^ 32 = P.length ∧
      WideRuns (.vactive d rx) s d rx false [] tZ64 fun _ => m

/-- R99 to R101: where a routed read of position e in thread t takes its element, and the tag that reaches the reader: from
the lane and position that the route names, zero and the reader's own tag for a lane never launched, or the fill. -/
def Sys2Proof.Claims.RoutedReads : Prop :=
  ∀ (r : Regs) (a : Fin 64) (t u : Fin 32) (e : Nat),
    let own := fun o : Operand => o.tag r t = (r.readV a t).tag ∧ o.elem r t e = elemOf (tagWidth (r.readV a t).tag) e (r.readV a t).val
    let tag := fun o : Operand => o.tag r t = if hasLane r.tmask u then (r.readV a u).tag else (r.readV a t).tag
    let elem := fun (o : Operand) (p : Nat → Nat) => e < tagCount (o.tag r t) → o.elem r t e =
      if hasLane r.tmask u then elemOf (tagWidth (o.tag r t)) (p (tagCount (o.tag r t))) (r.readV a u).val else 0
    let both := fun (o : Operand) (p : Nat → Nat) => tag o ∧ elem o p
    own ⟨a, .none⟩ ∧
    (∀ l k, u.val = (t.val + 32 - l.val) % 32 → both ⟨a, .rot l k⟩ fun n => (e + 8 * n - k.val) % n) ∧
    (∀ k, both ⟨a, .bcst u k⟩ fun n => k.val % n) ∧
    (∀ l k, u.val = t.val ^^^ l.val → both ⟨a, .xor l k⟩ fun n => (e ^^^ k.val) % n) ∧
    (∀ v b, let byte := fun e => (r.readV v t).val.toNat / 2 ^ (8 * ((b.val + e) % 8)) % 256
      (u.val = byte 0 % 32 → tag ⟨a, .idx v b⟩) ∧ (u.val = byte e % 32 → elem ⟨a, .idx v b⟩ fun n => byte e / 32 % n)) ∧
    (∀ d, (u.val + d.val = t.val → ∀ z, both ⟨a, .shup d z⟩ fun _ => e) ∧ (t.val < d.val → own ⟨a, .shup d false⟩)) ∧
    (∀ d, (u.val = t.val + d.val → ∀ z, both ⟨a, .shdn d z⟩ fun _ => e) ∧ (32 ≤ t.val + d.val → own ⟨a, .shdn d false⟩)) ∧
    (∀ d : Fin 32, (t.val < d.val → (⟨a, .shup d true⟩ : Operand).elem r t e = 0 ∧
        (⟨a, .shup d true⟩ : Operand).tag r t = (r.readV a t).tag) ∧
      (32 ≤ t.val + d.val → (⟨a, .shdn d true⟩ : Operand).elem r t e = 0 ∧ (⟨a, .shdn d true⟩ : Operand).tag r t = (r.readV a t).tag)) ∧
    ∀ g p, u.val = t.val / 2 ^ g.val * 2 ^ g.val + p.val → both ⟨a, .segb g p⟩ fun _ => e

/-- R31, R56, R58, R62, R115, R116, R123, R124: the vector moves and selects; compares and predicate operations.
Rests on readings and choices of the model (log entries 16, 61 and 107). -/
def Obligations.VectorMovesAndPredicates : Prop := VectorMoves ∧ VectorPredicates

/-- R99 to R111: the crew-wide instructions, and what routed operands read.
Rests on readings and choices of the model (log entries 16, 61, 106 and 107). -/
def Obligations.CrossLaneInstructions : Prop := CrewWideInstructions ∧ RoutedReads

namespace Sys2Proof.Claims
open Sys2Proof.Machine

/-- The element that an operand gives position e of thread t as a float value, with its block scale for m8 (R65). -/
def fArg (s : State) (o : Operand) (t : Fin 32) (e : Nat) : FVal :=
  let T := o.tag s.focus.r t
  fdecode T (if T = tM8 then o.scale s.focus.r t e else 0) (o.elem s.focus.r t e)

/-- The binary format of a tag; binary32 for the others. -/
def fmt (T : Fin 16) : Fmt := (fmtOf T).getD ⟨8, 23⟩

/-- The rounding of position e of a result of tag T in thread t (R132, R134). -/
def rounding (s : State) (rx : Option Rx) (sat : Bool) (T : Fin 16) (t : Fin 32) (e : Nat) : Rounding :=
  s.focus.r.rounding (s.focus.r.code rx) sat t e (tagCount T)

/-- A float instruction on operands of one binary tag that `ok` accepts (R149): `f` takes the format, the rounding and the
operands' values; a stochastic rounding takes its draw from SRCTR, which then advances (R134). -/
def FltRuns (i : Instr) (s : State) (d : Fin 64) (ops : List Operand) (rx : Option Rx) (fs : Bool) (code : Nat) (sat : Bool)
    (f : Fmt → Rounding → List FVal → Rounded) : Prop :=
  ∀ T, OneTag s (rxGuard rx) tagBin ops T → Ready s (rxGuard rx) (counts T) ops → DstFree s (rxGuard rx) (counts T) d →
    let x := fun t e => f (fmt (T t)) (rounding s rx sat (T t) t e) (ops.map fun o => fArg s o t e)
    VRuns i s d (rxGuard rx) (counts T) T (longOf s rx fs) (drawn code) (fun t e => some (x t e).1) (fun t e => (x t e).2)

/-- A sum that is rounded once (R150); `prods` the factors of its products, whose 0 × ∞ is invalid (R152). -/
def sumOf (f : Fmt) (r : Rounding) (args : List FVal) (prods : List (FVal × FVal)) (terms : List FVal) : Rounded :=
  sumResult f r (args.any FVal.isSnan || prods.any fun p => mulInvalid p.1 p.2) terms

/-- Operands by number. -/
def arg (l : List FVal) (k : Nat) : FVal := l.getD k (.num false 0 0)

/-- The sums and products of R154. -/
def sum2Table : List (Ctor2 × (Fmt → Rounding → List FVal → Rounded)) :=
  [(.fadd, fun f r l => sumOf f r l [] [arg l 0, arg l 1]), (.fsub, fun f r l => sumOf f r l [] [arg l 0, (arg l 1).negate]),
   (.fmul, fun f r l => sumOf f r l [(arg l 0, arg l 1)] [(arg l 0).mul (arg l 1)])]
def sum3Table : List (Ctor3 × (Fmt → Rounding → List FVal → Rounded)) :=
  [(.fma, fun f r l => sumOf f r l [(arg l 0, arg l 1)] [(arg l 0).mul (arg l 1), arg l 2]),
   (.fms, fun f r l => sumOf f r l [(arg l 0, arg l 1)] [(arg l 0).mul (arg l 1), (arg l 2).negate]),
   (.fnma, fun f r l => sumOf f r l [(arg l 0, arg l 1)] [((arg l 0).mul (arg l 1)).negate, arg l 2])]

/-- The value of a finite float. -/
def rat : FVal → ℚ
  | .num n m e => (if n then -1 else 1) * m * 2 ^ e
  | _ => 0

/-- a < b for two values that are no NaN, −0 below +0 where `zeros` (R155, R157). -/
def below (zeros : Bool) (a b : FVal) : Prop :=
  match a, b with
  | .nan _, _ => False | _, .nan _ => False
  | .inf n, .inf k => n = true ∧ k = false
  | .inf n, .num .. => n = true | .num .., .inf k => k = false
  | .num n _ _, .num k _ _ => rat a < rat b ∨ (zeros = true ∧ rat a = 0 ∧ rat b = 0 ∧ n = true ∧ k = false)

/-- Neither a number nor an infinity. -/
def nan (a : FVal) : Prop := ∃ sn, a = .nan sn

/-- What a minimum or maximum answers (R155): the canonical NaN, or the bits of one of the operands. -/
def MinMax (max number : Bool) (f : Fmt) (x y : FVal) (bx b_y z : Nat) : Prop :=
  (nan x ∧ nan y → z = f.nanBits) ∧
  (nan x ∧ ¬ nan y → z = if number then b_y else f.nanBits) ∧
  (¬ nan x ∧ nan y → z = if number then bx else f.nanBits) ∧
  (¬ nan x ∧ ¬ nan y → (below true x y → z = if max then b_y else bx) ∧ (¬ below true x y → z = if max then bx else b_y))

def minMaxTable : List (Ctor2 × Bool × Bool) :=
  [(.fmin, false, false), (.fmax, true, false), (.fminn, false, true), (.fmaxn, true, true)]

/-- The conditions of FCMP (R157). -/
def floatHolds (cc : Nat) (a b : FVal) : Prop :=
  let eq := ¬ nan a ∧ ¬ nan b ∧ ¬ below false a b ∧ ¬ below false b a
  match cc with
  | 0 => eq | 1 => ¬ eq | 2 => below false a b | 3 => below false a b ∨ eq | 4 => below false b a
  | 5 => below false b a ∨ eq | 6 => nan a ∨ nan b | _ => ¬ nan a ∧ ¬ nan b

/-- The class of a pattern, by its sign, exponent and fraction fields (R158). -/
def classOf (f : Fmt) (n : Nat) : Nat :=
  let neg := n / 2 ^ (f.eb + f.fb) % 2 = 1
  let ex := n / 2 ^ f.fb % 2 ^ f.eb
  let fr := n % 2 ^ f.fb
  if ex = 2 ^ f.eb - 1 then (if fr = 0 then (if neg then 0 else 7) else if fr < 2 ^ (f.fb - 1) then 8 else 9)
  else if ex = 0 then (if fr = 0 then (if neg then 3 else 4) else if neg then 2 else 5)
  else if neg then 1 else 6

/-- The integer tags of a binary tag's width (R149). -/
def intTag (signed : Bool) (T : Fin 16) : Fin 16 :=
  if T.val = 11 then (if signed then 3 else 7) else if T.val = 12 then (if signed then 4 else 8) else if signed then 2 else 6

/-- An instruction from one binary operand to another tag of its width. -/
def ToIntRuns (i : Instr) (s : State) (d : Fin 64) (a : Operand) (rx : Option Rx) (fs signed : Bool)
    (P : Fmt → Nat → Nat → Prop) : Prop :=
  ∀ T, OneTag s (rxGuard rx) tagBin [a] T → Ready s (rxGuard rx) (counts T) [a] → DstFree s (rxGuard rx) (counts T) d →
    ∃ f : Fin 32 → Nat → Nat, (∀ t e, P (fmt (T t)) (a.elem s.focus.r t e) (f t e)) ∧
      VRuns i s d (rxGuard rx) (counts T) (fun t => intTag signed (T t)) (longOf s rx fs) id (fun t e => some (f t e))
        (fun t e => if (fArg s a t e).isSnan then fNV else 0)

/-- A special-function instruction: held until the unit has taken it and its latency has passed (R24, R165). -/
def SfuRuns (i : Instr) (s : State) (d : Fin 64) (ops : List Operand) (rx : Option Rx) (fs : Bool) (ok : Fin 16 → Bool)
    (f : Fin 16 → List FVal → Rounded) : Prop :=
  ∀ T, OneTag s (rxGuard rx) ok ops T → Ready s (rxGuard rx) (counts T) ops → DstFree s (rxGuard rx) (counts T) d →
    let x := fun t e => f (T t) (ops.map fun o => fArg s o t e)
    VRuns i s d (rxGuard rx) (counts T) T (some (s.clause.flag fs, .sfu false)) id (fun t e => some (x t e).1) (fun t e => (x t e).2)

/-- The special functions of one operand, and whether they take f64 (R162). -/
def sfuTable : List (Ctor1 × SfuOp × Bool) :=
  [(.frcp, .rcp, true), (.frsq, .rsq, true), (.fsqrt, .sqrt, true), (.fexp2, .exp2, false), (.flog2, .log2, false),
   (.fsinp, .sinp, false), (.fcosp, .cosp, false), (.ftanh, .tanh, false)]

/-- The four binary formats (R127). -/
def formats : List Fmt := [⟨5, 10⟩, ⟨8, 7⟩, ⟨8, 23⟩, ⟨11, 52⟩]

/-- Rounding by a code without SAT. -/
def byCode (code : Nat) : Rounding := ⟨code, false, 0, 0⟩

end Sys2Proof.Claims

/-! ### Class VF -/

/-- R150, R154, R161: the sums and products, and the dot products, each rounded once from its exact terms.
Rests on readings and choices of the model (log entries 16, 26, 27, 61, 86 and 107). -/
def Obligations.FloatSums : Prop :=
  ∀ (d a b c : Fin 64) (fs : Bool) (rx : Option Rx) (s : State),
    let g := rxGuard rx
    let r := s.focus.r
    let code := r.code rx
    (∀ p ∈ sum2Table, FltRuns (p.1 d a b fs rx) s d [oA a rx, oB b rx] rx fs code (rxSat rx) p.2) ∧
    (∀ p ∈ sum3Table, FltRuns (p.1 d a b c fs rx) s d [oA a rx, oB b rx, oC c rx] rx fs code (rxSat rx) p.2) ∧
    ∀ (i : Instr) (k : Nat) (ok : Fin 16 → Bool),
      (i = .fdot2 d a b c fs rx ∧ k = 2 ∧ ok = (fun T => T == tF16 || T == tBF16)) ∨ (i = .fdot4 d a b c fs rx ∧ k = 4 ∧ ok = (· == tM8)) →
      Ready s g (counts fun _ => tF32) [oA a rx, oB b rx, oC c rx] → DstFree s g (counts fun _ => tF32) d →
      (∀ t, Active s g (counts fun _ => tF32) t → ok ((oA a rx).tag r t) = true ∧ (oB b rx).tag r t = (oA a rx).tag r t ∧
        (oC c rx).tag r t = tF32) →
      let x := fun t p =>
        let prods := (List.range k).map fun j => (fArg s (oA a rx) t (k * p + j), fArg s (oB b rx) t (k * p + j))
        sumOf ⟨8, 23⟩ (rounding s rx (rxSat rx) tF32 t p) (fArg s (oC c rx) t p :: prods.flatMap fun q => [q.1, q.2]) prods
          (fArg s (oC c rx) t p :: prods.map fun q => q.1.mul q.2)
      VRuns i s d g (counts fun _ => tF32) (fun _ => tF32) (longOf s rx fs) (drawn code) (fun t p => some (x t p).1)
        (fun t p => (x t p).2)

/-- R155, R156, R160: minimum and maximum, the sign instructions, and the pivot guard with what it adds to PIVST.
Rests on readings and choices of the model (log entries 16, 61, 86 and 107). -/
def Obligations.FloatSelection : Prop :=
  ∀ (d a b c : Fin 64) (fs : Bool) (rx : Option Rx) (s : State) (T : Fin 32 → Fin 16),
    let g := rxGuard rx
    let r := s.focus.r
    let w := fun t => tagWidth (T t)
    let eA := fun t e => (oA a rx).elem r t e
    let eB := fun t e => (oB b rx).elem r t e
    DstFree s g (counts T) d →
    (OneTag s g tagBin [oA a rx, oB b rx] T → Ready s g (counts T) [oA a rx, oB b rx] →
      (∀ p ∈ minMaxTable, ∃ f : Fin 32 → Nat → Nat, (∀ t e, tagBin (T t) = true → MinMax p.2.1 p.2.2 (fmt (T t)) (fdecode (T t) 0 (eA t e))
          (fdecode (T t) 0 (eB t e)) (eA t e) (eB t e) (f t e)) ∧
        VRuns (p.1 d a b fs rx) s d g (counts T) T (longOf s rx fs) id (fun t e => some (f t e))
          (fun t e => if (fArg s (oA a rx) t e).isSnan || (fArg s (oB b rx) t e).isSnan then fNV else 0)) ∧
      VRuns (.fcps d a b fs rx) s d g (counts T) T (longOf s rx fs) id
        (fun t e => some (eA t e % 2 ^ (w t - 1) + eB t e / 2 ^ (w t - 1) * 2 ^ (w t - 1))) noFlags) ∧
    (OneTag s g tagBin [oA a rx] T → Ready s g (counts T) [oA a rx] →
      VRuns (.fabs d a fs rx) s d g (counts T) T (longOf s rx fs) id (fun t e => some (eA t e % 2 ^ (w t - 1))) noFlags ∧
      VRuns (.fneg d a fs rx) s d g (counts T) T (longOf s rx fs) id (fun t e => some (eA t e ^^^ 2 ^ (w t - 1))) noFlags) ∧
    (OneTag s g tagBin [oA a rx, oB b rx, oC c rx] T → Ready s g (counts T) [oA a rx, oB b rx, oC c rx] →
      let keeps := fun t e => below false (fArg s (oB b rx) t e) (fArg s (oA a rx) t e)
      let takes := fun t e => t ∈ s.lanes ∧ e < counts T t ∧ posActive r g (counts T t) t e = true ∧ ¬ keeps t e
      ∃ (f : Fin 32 → Nat → Nat) (pv : Pivst), (∀ t e, (keeps t e → f t e = eA t e) ∧ (¬ keeps t e → f t e = (oC c rx).elem r t e)) ∧
        (pv.nan = true ↔ r.pivst.nan = true ∨ ∃ t e, takes t e ∧ nan (fArg s (oA a rx) t e)) ∧
        (∀ k < 8, pv.sub.getLsbD k = true ↔ r.pivst.sub.getLsbD k = true ∨ ∃ t, takes t k) ∧
        (∀ t : Fin 32, pv.lane.getLsbD t.val = true ↔ r.pivst.lane.getLsbD t.val = true ∨ ∃ e, takes t e) ∧
        VRuns (.fpivg d a b c fs rx) s d g (counts T) T (longOf s rx fs) (fun q => { q with pivst := pv }) (fun t e => some (f t e))
          (fun t e => if (fArg s (oA a rx) t e).isSnan then fNV else 0))

/-- R157, R158, R159: comparison, classification and exponents. -/
def Sys2Proof.Claims.FloatInspection : Prop :=
  ∀ (d a b : Fin 64) (fs : Bool) (rx : Option Rx) (s : State),
    let g := rxGuard rx
    (∀ (q : Fin 8) (cc : Fin 16) T, cc.val < 8 → OneTag s g tagBin [oA a rx, oB b rx] T →
      Ready s g (counts T) [oA a rx, oB b rx] → UsesQ s g (counts T) q →
      let x := fun t e => fArg s (oA a rx) t e
      let y := fun t e => fArg s (oB b rx) t e
      ∃ f F, (∀ t e, f t e = true ↔ floatHolds cc.val (x t e) (y t e)) ∧
        (∀ t e, F t e = if (x t e).isSnan ∨ (y t e).isSnan ∨ (2 ≤ cc.val ∧ cc.val ≤ 5 ∧ ((x t e).isNan ∨ (y t e).isNan)) then fNV else 0) ∧
        QRuns (.fcmp q a b cc fs rx) s q g (counts T) (longOf s rx fs) f F) ∧
    ToIntRuns (.fclass d a fs rx) s d (oA a rx) rx fs false (fun f n z => z = 2 ^ classOf f n) ∧
    ToIntRuns (.fgetx d a fs rx) s d (oA a rx) rx fs true fun f n z =>
      let w := 1 + f.eb + f.fb
      match f.decode n with
      | .num _ m e => (m = 0 → z = 2 ^ (w - 1)) ∧
        (m ≠ 0 → (2 : ℚ) ^ (BitVec.ofNat w z).toInt ≤ m * 2 ^ e ∧ (m * 2 ^ e : ℚ) < 2 ^ ((BitVec.ofNat w z).toInt + 1))
      | _ => z = 2 ^ (w - 1) - 1

/-- R154: FRND rounds to an integer by the code and keeps a zero's sign; FSCALE multiplies by a power of two. -/
def Sys2Proof.Claims.FloatRoundAndScale : Prop :=
  ∀ (d a b : Fin 64) (fs : Bool) (rx : Option Rx) (s : State),
    let g := rxGuard rx
    let r := s.focus.r
    let code := r.code rx
    FltRuns (.frnd d a fs rx) s d [oA a rx] rx fs code (rxSat rx) (fun f rd l => match arg l 0 with
      | .nan sn => (f.nanBits, if sn then fNV else 0)
      | .inf neg => (withSign f neg f.infBits, 0)
      | .num neg m e =>
        let k := roundToNat rd neg m e
        (if m = 0 ∨ k.1 = 0 then withSign f neg 0 else (roundBin f rne neg k.1 0 false).1, if k.2 then fNX else 0)) ∧
    ∀ T, (∀ t ∈ s.lanes, (oA a rx).tag r t = T t) →
      (∀ t, Active s g (counts T) t → tagBin (T t) = true ∧ (oB b rx).tag r t = intTag true (T t)) →
      Ready s g (counts T) [oA a rx, oB b rx] → DstFree s g (counts T) d →
      ∃ x : Fin 32 → Nat → Rounded, (∀ t e, tagBin (T t) = true →
        let by2 := (BitVec.ofNat (tagWidth (T t)) ((oB b rx).elem r t e)).toInt
        x t e = match fArg s (oA a rx) t e with
          | .num neg m ex => roundTo (T t) 0 (rounding s rx (rxSat rx) (T t) t e) (.num neg m (ex + max (-5000) (min 5000 by2)))
          | v => roundTo (T t) 0 (rounding s rx (rxSat rx) (T t) t e) v) ∧
        VRuns (.fscale d a b fs rx) s d g (counts T) T (longOf s rx fs) (drawn code) (fun t e => some (x t e).1) (fun t e => (x t e).2)

/-- R162, R24: the special functions issue as long-latency instructions that hold their results. -/
def Sys2Proof.Claims.SpecialFunctionIssue : Prop :=
  ∀ (d a b : Fin 64) (fs : Bool) (rx : Option Rx) (s : State),
    (∀ p ∈ sfuTable, SfuRuns (p.1 d a fs rx) s d [oA a rx] rx fs (fun T => tagBin T && (p.2.2 || T != tF64))
      fun T l => sfuOne p.2.1 T (arg l 0)) ∧
    SfuRuns (.fdiv d a b fs rx) s d [oA a rx, oB b rx] rx fs tagBin fun T l => sfuDiv T (arg l 0) (arg l 1)

/-- R163: the special values of the functions, in every format that takes them. -/
def Sys2Proof.Claims.SpecialFunctionValues : Prop :=
  ∀ T : Fin 16, tagBin T = true → let f := fmt T
    let zero := fun n => FVal.num n 0 0
    let inf := fun n => (withSign f n f.infBits, (0 : FpFlags))
    let invalid := (f.nanBits, fNV)
    (∀ n e, sfuOne .rcp T (.num n 0 e) = (withSign f n f.infBits, fDZ) ∧ sfuOne .rcp T (.inf n) = (withSign f n 0, 0) ∧
      sfuOne .rsq T (.num n 0 e) = (withSign f n f.infBits, fDZ) ∧ sfuOne .sqrt T (.num n 0 e) = (withSign f n 0, 0)) ∧
    (∀ m e, 0 < m → sfuOne .rsq T (.num true m e) = invalid ∧ sfuOne .sqrt T (.num true m e) = invalid) ∧
    sfuOne .rsq T (.inf false) = (0, 0) ∧ sfuOne .sqrt T (.inf false) = inf false ∧ sfuOne .rsq T (.inf true) = invalid ∧
    (∀ n k m e, 0 < m → sfuDiv T (.num n m e) (zero k) = (withSign f (n != k) f.infBits, fDZ) ∧
      sfuDiv T (zero n) (zero k) = invalid ∧ sfuDiv T (.inf n) (.inf k) = invalid ∧ sfuDiv T (.inf n) (.num k m e) = inf (n != k) ∧
      sfuDiv T (.num n m e) (.inf k) = (withSign f (n != k) 0, 0)) ∧
    (T ≠ tF64 → ∀ n m e, 0 < m →
      sfuOne .exp2 T (.inf true) = (0, 0) ∧ sfuOne .exp2 T (.inf false) = inf false ∧
      sfuOne .log2 T (zero n) = (withSign f true f.infBits, fDZ) ∧ sfuOne .log2 T (.inf false) = inf false ∧
      sfuOne .log2 T (.num true m e) = invalid ∧ sfuOne .log2 T (.num false 1 0) = (0, 0) ∧
      sfuOne .sinp T (zero n) = (withSign f n 0, 0) ∧ sfuOne .sinp T (.num n m 0) = (withSign f n 0, 0) ∧
      sfuOne .sinp T (.inf n) = invalid ∧ sfuOne .cosp T (.inf n) = invalid ∧
      sfuOne .cosp T (.num n (2 * m + 1) (-1)) = (0, 0) ∧
      sfuOne .cosp T (.num n (2 * m) 0) = roundTo T 0 rne (.num false 1 0) ∧
      sfuOne .cosp T (.num n (2 * m + 1) 0) = roundTo T 0 rne (.num true 1 0) ∧
      sfuOne .tanh T (zero n) = (withSign f n 0, 0) ∧ sfuOne .tanh T (.inf n) = roundTo T 0 rne (.num n 1 0)) ∧
    ∀ sn op, sfuOne op T (.nan sn) = (f.nanBits, if sn then fNV else 0)

/-- R132: the directed codes give the greatest representable magnitude not above the exact one, or the least not below
it, infinity where there is none; NX exactly where the result differs. -/
def Sys2Proof.Claims.DirectedRounding : Prop :=
  ∀ f ∈ formats, ∀ (code : Nat) (neg : Bool) (m : Nat) (e : Int), 0 < m → 2 ≤ code → code ≤ 4 →
    let x : ℚ := m * 2 ^ e
    let y := roundBin f (byCode code) neg m e false
    let z := if neg then y.1 - f.signBit else y.1
    let away := (code = 3 ∧ neg = false) ∨ (code = 4 ∧ neg = true)
    (neg = true → f.signBit ≤ y.1) ∧ z ≤ f.infBits ∧
    (¬ away → z < f.infBits ∧ rat (f.decode z) ≤ x ∧ ∀ p < f.infBits, rat (f.decode p) ≤ x → rat (f.decode p) ≤ rat (f.decode z)) ∧
    (away → (z = f.infBits → ∀ p < f.infBits, rat (f.decode p) < x) ∧
      (z < f.infBits → x ≤ rat (f.decode z) ∧ ∀ p < f.infBits, x ≤ rat (f.decode p) → rat (f.decode z) ≤ rat (f.decode p))) ∧
    (y.2.getLsbD 4 = false ↔ z < f.infBits ∧ rat (f.decode z) = x)

/-- R132: the two codes that round to nearest give a representable magnitude that none is nearer to the exact one than, of two the
even one by RNE and the larger by RNA, and infinity from the midpoint beyond the largest finite on. -/
def Sys2Proof.Claims.NearestRounding : Prop :=
  ∀ f ∈ formats, ∀ (code : Nat) (neg : Bool) (m : Nat) (e : Int), 0 < m → code = 1 ∨ code = 5 →
    let x : ℚ := m * 2 ^ e
    let y := roundBin f (byCode code) neg m e false
    let z := if neg then y.1 - f.signBit else y.1
    (neg = true → f.signBit ≤ y.1) ∧ z ≤ f.infBits ∧
    (z = f.infBits ↔ (2 - 2 ^ (-(f.fb : Int) - 1)) * 2 ^ (f.bias : Int) ≤ x) ∧
    (z < f.infBits → ∀ p < f.infBits, |rat (f.decode z) - x| ≤ |rat (f.decode p) - x| ∧
      (|rat (f.decode z) - x| = |rat (f.decode p) - x| → p = z ∨ if code = 1 then z % 2 = 0 else x < rat (f.decode z)))

/-- R133: stochastic rounding picks the upper of the two magnitudes around an inexact one where the draw u, of `k` bits, lies below
its share of the gap; 2^(emax + 1) stands for infinity, and from there on the result is infinite (log entry 27). -/
def Sys2Proof.Claims.StochasticRounding : Prop :=
  ∀ f ∈ formats, ∀ (u k : Nat) (neg : Bool) (m : Nat) (e : Int), 0 < m → u < 2 ^ k →
    let x : ℚ := m * 2 ^ e
    let y := roundBin f ⟨6, false, u, k⟩ neg m e false
    let z := if neg then y.1 - f.signBit else y.1
    let mag : Nat → ℚ := fun p => if p = f.infBits then 2 ^ ((f.bias : Int) + 1) else rat (f.decode p)
    (neg = true → f.signBit ≤ y.1) ∧ (mag f.infBits ≤ x → z = f.infBits) ∧
    ∀ p < f.infBits, mag p ≤ x → x < mag (p + 1) →
      z = if (u : ℚ) < (x - mag p) / (mag (p + 1) - mag p) * 2 ^ k then p + 1 else p

/-- R132, R135: the flags of a rounding to a binary format, and what SAT changes: OF where the rounded magnitude passes the largest
finite one, UF where an inexact one lay below the smallest normal, NX where the result differs; an infinite result becomes the
largest finite with SAT. -/
def Sys2Proof.Claims.RoundingFlags : Prop :=
  ∀ f ∈ formats, ∀ (code u k : Nat) (neg : Bool) (m : Nat) (e : Int), 0 < m → 1 ≤ code → code ≤ 6 → u < 2 ^ k →
    let x : ℚ := m * 2 ^ e
    let y := roundBin f ⟨code, false, u, k⟩ neg m e false
    let z := if neg then y.1 - f.signBit else y.1
    let big := z = f.infBits ∨ 2 ^ ((f.bias : Int) + 1) ≤ x
    (y.2.getLsbD 2 = true ↔ big) ∧
    (y.2.getLsbD 3 = true ↔ x < 2 ^ f.emin ∧ rat (f.decode z) ≠ x) ∧
    (y.2.getLsbD 4 = true ↔ big ∨ rat (f.decode z) ≠ x) ∧
    y.2.getLsbD 0 = false ∧ y.2.getLsbD 1 = false ∧ y.2.getLsbD 5 = false ∧
    roundBin f ⟨code, true, u, k⟩ neg m e false =
      if z = f.infBits then (withSign f neg f.maxBits, fOF ||| fNX ||| fSAT) else y

/-- R129, R131, R133: rounding into m8: beyond 2,048 that magnitude; else the magnitude that the code picks of those around the
exact one, with its flags; NaN gives NaR; the block scale divides first. -/
def Sys2Proof.Claims.ScaledRounding : Prop :=
  let mag : Nat → ℚ := fun b => rat (m8Decode b 0)
  (∀ (code u k : Nat) (sat neg : Bool) (m : Nat) (e : Int), 0 < m → 1 ≤ code → code ≤ 6 → u < 2 ^ k →
    let x : ℚ := m * 2 ^ e
    let y := roundM8 ⟨code, sat, u, k⟩ neg m e
    let away := (code = 3 ∧ neg = false) ∨ (code = 4 ∧ neg = true)
    (2048 < x → y = (if neg then 0x87 else 0x07, fOF ||| fNX ||| fSAT)) ∧
    (x ≤ 2048 → ∃ b < 128, y.1 = (if b ≠ 0 ∧ neg = true then b + 128 else b) ∧
      y.2 = (if mag b = x then 0 else if x < 2 ^ (-11 : Int) then fNX ||| fUF else fNX) ∧
      (code = 1 ∨ code = 5 → ∀ p < 128, |mag b - x| ≤ |mag p - x| ∧
        (|mag b - x| = |mag p - x| → p = b ∨ if code = 1 then b % 2 = 0 else x < mag b)) ∧
      (2 ≤ code → code ≤ 4 → ¬ away → mag b ≤ x ∧ ∀ p < 128, mag p ≤ x → mag p ≤ mag b) ∧
      (away → x ≤ mag b ∧ ∀ p < 128, x ≤ mag p → mag b ≤ mag p) ∧
      (code = 6 → ∀ p < 128, ∀ q < 128, mag p ≤ x → x < mag q → (∀ j < 128, mag j ≤ mag p ∨ mag q ≤ mag j) →
        b = if (u : ℚ) < (x - mag p) / (mag q - mag p) * 2 ^ k then q else p) ∧
      (∀ p < 128, mag p = x → b = p))) ∧
  ∀ (scale : Int) (r : Rounding),
    (∀ sn, roundTo tM8 scale r (.nan sn) = (0x80, if sn then fNV else 0)) ∧
    (∀ neg, roundTo tM8 scale r (.inf neg) = (if neg then 0x87 else 0x07, fOF ||| fNX ||| fSAT)) ∧
    ∀ neg m e, roundTo tM8 scale r (.num neg m e) = if m = 0 then (0, 0) else roundM8 r neg m (e - scale)

/-- R150 to R152: what a sum of terms is: the canonical NaN for a NaN term or opposite infinities, which are invalid beside a NaN
too; an infinity, or with SAT the largest finite value; or the exact sum rounded once, with the signs of exact zeros. -/
def Sys2Proof.Claims.SumsAreExact : Prop :=
  ∀ (f : Fmt) (r : Rounding) (nv : Bool) (terms : List FVal), terms ≠ [] →
    let v : FpFlags := if nv then fNV else 0
    let finite := ∀ t ∈ terms, ∃ n m e, t = .num n m e
    let x : ℚ := (terms.map rat).sum
    ((∃ t ∈ terms, nan t) → ¬ (.inf true ∈ terms ∧ .inf false ∈ terms) → sumResult f r nv terms = (f.nanBits, v)) ∧
    (.inf true ∈ terms → .inf false ∈ terms → sumResult f r nv terms = (f.nanBits, v ||| fNV)) ∧
    (∀ n, .inf n ∈ terms → .inf (!n) ∉ terms → (∀ t ∈ terms, ¬ nan t) →
      sumResult f r nv terms = if r.sat then (withSign f n f.maxBits, fSAT ||| fNX ||| v) else (withSign f n f.infBits, v)) ∧
    (finite → x ≠ 0 → ∃ n m e, 0 < m ∧ rat (.num n m e) = x ∧
      sumResult f r nv terms = ((roundBin f r n m e false).1, (roundBin f r n m e false).2 ||| v)) ∧
    (finite → x = 0 → ∀ n, (∀ t ∈ terms, rat t = 0 ∧ t.sign = n) → sumResult f r nv terms = (withSign f n 0, v)) ∧
    (finite → x = 0 → ¬ (∃ n, ∀ t ∈ terms, rat t = 0 ∧ t.sign = n) → sumResult f r nv terms = (withSign f (r.code == 4) 0, v))

namespace Sys2Proof.Claims
open Sys2Proof.Machine

/-- How many parts a conversion between ns and nd positions has (R138). -/
def ratio (ns nd : Nat) : Nat := if ns < nd then nd / ns else if nd < ns then ns / nd else 1

/-- The source position of destination position e, of nd, in part p, where the part covers it (R138). -/
def convSrc (ns nd p e : Nat) : Option Nat :=
  if ns < nd then (if p * ns ≤ e ∧ e < p * ns + ns then some (e - p * ns) else none)
  else if nd < ns then some (p * nd + e) else some e

/-- One element converted (R138), with its flags (R135). -/
def conv (S T : Fin 16) (srcScale dstScale : Int) (r : Rounding) (n : Nat) : Rounded :=
  if tagInt S then
    if tagInt T then
      let x := intOf S n
      (((if r.sat then clamp T x else x) % 2 ^ tagWidth T).toNat,
        if clamp T x = x then 0 else if r.sat then fNV ||| fSAT ||| fNX else fNV ||| fNX)
    else roundTo T dstScale r (.num (decide (intOf S n < 0)) (intOf S n).natAbs 0)
  else if tagInt T then floatToInt T r (fdecode S srcScale n) else roundTo T dstScale r (fdecode S srcScale n)

/-- Position e of the result of a conversion in thread t. -/
def convAt (s : State) (a : Operand) (T : Fin 16) (p : Nat) (dstScale : Fin 32 → Int) (r : Fin 32 → Nat → Rounding) (t : Fin 32)
    (e : Nat) : Option Rounded :=
  let S := a.tag s.focus.r t
  (convSrc (tagCount S) (tagCount T) p e).map fun j =>
    conv S T (if S = tM8 then a.scale s.focus.r t j else 0) (if T = tM8 then dstScale t else 0) (r t e) (a.elem s.focus.r t j)

/-- A vector instruction runs with the values and flags of `x`. -/
def RoundedRuns (i : Instr) (s : State) (d : Fin 64) (rx : Option Rx) (fs : Bool) (T : Fin 16) (post : Regs → Regs)
    (x : Fin 32 → Nat → Option Rounded) : Prop :=
  VRuns i s d (rxGuard rx) (counts fun _ => T) (fun _ => T) (longOf s rx fs) post (fun t e => (x t e).map (·.1))
    (fun t e => ((x t e).map (·.2)).getD 0)

end Sys2Proof.Claims

/-- R138, R135: CVT. -/
def Sys2Proof.Claims.Conversion : Prop :=
  ∀ (d a : Fin 64) (p : Fin 8) (T : Fin 16) (fs : Bool) (rx : Option Rx) (s : State),
    let g := rxGuard rx
    let r := s.focus.r
    (∀ t, Active s g (counts fun _ => T) t → (oA a rx).tag r t ≠ tRAW ∧ (oA a rx).tag r t ≠ tHND ∧
      p.val < ratio (tagCount ((oA a rx).tag r t)) (tagCount T)) →
    Ready s g (counts fun _ => T) [oA a rx] → DstFree s g (counts fun _ => T) d →
    (T = tM8 → UsesS s g (counts fun _ => T) r.side[d].base) →
    RoundedRuns (.cvt d a p T fs rx) s d rx fs T (drawn (r.code rx))
      (convAt s (oA a rx) T p.val (r.scale d) (rounding s rx (rxSat rx) T))

/-- R139: CVTS sets the deltas of the blocks that have an active thread, then converts into m8 under them. -/
def Sys2Proof.Claims.ScaledConversion : Prop :=
  ∀ (d a b : Fin 64) (p : Fin 8) (fs : Bool) (rx : Option Rx) (s : State),
    let g := rxGuard rx
    let r := s.focus.r
    let n := counts fun _ => tM8
    let m := fun t => (BitVec.ofNat 32 ((oB b rx).elem r t 0)).toInt
    let base := (BitVec.ofNat 16 (r.readS r.side[d].base).toNat).toInt
    let delta := fun (x : Side) (k : Nat) => (BitVec.ofNat 4 (x.delta.toNat / 2 ^ (4 * k))).toInt
    (∀ t, Active s g n t → tagBin ((oA a rx).tag r t) = true ∧ (oB b rx).tag r t = tS32 ∧
      p.val < ratio (tagCount ((oA a rx).tag r t)) 8) →
    Ready s g n [oA a rx, oB b rx] → DstFree s g n d → UsesS s g n r.side[d].base →
    ∃ sd : Side, sd.base = r.side[d].base ∧
      (∀ k < 8, ((∀ t, Active s g n t → t.val / 4 ≠ k) → delta sd k = delta r.side[d] k) ∧
        ∀ t, Active s g n t → t.val / 4 = k → (∀ u, Active s g n u → u.val / 4 = k → m u ≤ m t) →
          delta sd k = max (-8) (min 7 (m t - base - 3))) ∧
      RoundedRuns (.cvts d a b p fs rx) s d rx fs tM8 (fun q => drawn (r.code rx) { q with side := q.side.set d sd })
        (convAt s (oA a rx) tM8 p.val ({ r with side := r.side.set d sd }.scale d) (rounding s rx (rxSat rx) tM8))

/-- R140: FMAXX writes the largest exponent of each block of four lanes, with ACC that of operand B too. -/
def Sys2Proof.Claims.BlockExponents : Prop :=
  ∀ (d a b : Fin 64) (acc fs : Bool) (rx : Option Rx) (s : State),
    let g := rxGuard rx
    let r := s.focus.r
    let P := participants s g
    let ops := if acc then [oA a rx, oB b rx] else [oA a rx]
    let exps := fun (t : Fin 32) (x : Int) =>
      (∃ u ∈ P, u.val / 4 = t.val / 4 ∧ ∃ e < tagCount ((oA a rx).tag r u), x = xexp (fArg s (oA a rx) u e)) ∨
      (acc = true ∧ x = (BitVec.ofNat 32 ((oB b rx).elem r t 0)).toInt)
    (∀ t ∈ P, (tagBin ((oA a rx).tag r t) = true ∨ (oA a rx).tag r t = tM8) ∧ (acc = true → (oB b rx).tag r t = tS32)) →
    Ready s g one ops → DstFree s g one d →
    ∃ x : Fin 32 → Int, (∀ t ∈ P, exps t (x t) ∧ ∀ y, exps t y → y ≤ x t) ∧
      VRuns (.fmaxx d a b acc fs rx) s d g one (fun _ => tS32) (longOf s rx fs) (drawn 1)
        (fun t _ => some ((x t % 2 ^ 32).toNat * (2 ^ 32 + 1))) noFlags

/-- R141 to R143: the tag and scale instructions and FLIMM.
Rests on readings and choices of the model (log entries 16, 60, 61 and 107). -/
def Obligations.TagInstructions : Prop :=
  ∀ (d a : Fin 64) (fs : Bool) (rx : Option Rx) (s : State),
    let g := rxGuard rx
    let r := s.focus.r
    (∀ T : Fin 16, (∀ t, Active s g (counts fun _ => T) t → (oA a rx).tag r t ≠ tHND) →
      MoveRuns (.vsettag d a T fs rx) s d rx fs [oA a rx] (fun _ => T) fun t e => elemOf (tagWidth T) e ((oA a rx).whole r t)) ∧
    WideRuns (.vgettag d a fs rx) s d rx fs [oA a rx] tZ64 (fun t => ((oA a rx).tag r t).val) ∧
    WideRuns (.sclget d a rx) s d rx false [] tZ64 (fun _ => r.side[a].base.val * 2 ^ 32 + r.side[a].delta.toNat) ∧
    (NoMark s .s a.val → Room s d → Runs (.sclset d a rx) s (withCrew s
      { r with side := r.side.set d ⟨⟨(r.readS a).toNat / 2 ^ 32 % 64, by omega⟩, (r.readS a).truncate 32⟩ } (logged d s.focus.chunk))) ∧
    ∀ lit : BitVec 64, MoveRuns (.flimm d lit) s d none false [] (fun _ => tF64) fun _ _ => lit.toNat

/-- R132, R138, R135: rounding to an integer by each code, and a float that becomes an integer element. -/
def Sys2Proof.Claims.IntegerRounding : Prop :=
  (∀ (neg : Bool) (m : Nat) (e : Int), let x : ℚ := m * 2 ^ e
    let k := fun code => ((roundToNat (byCode code) neg m e).1 : ℚ)
    let up := fun code => (code = 3 ∧ neg = false) ∨ (code = 4 ∧ neg = true)
    (∀ code, 1 ≤ code → code ≤ 5 → ((roundToNat (byCode code) neg m e).2 = false ↔ ∃ z : Nat, x = z) ∧
      ((∃ z : Nat, x = z) → k code = x)) ∧
    (∀ code, 2 ≤ code → code ≤ 4 → ¬ up code → k code ≤ x ∧ x < k code + 1) ∧
    (∀ code, up code → x ≤ k code ∧ k code < x + 1) ∧
    (∀ code, code = 1 ∨ code = 5 → |k code - x| ≤ 1 / 2) ∧
    (|k 1 - x| = 1 / 2 → (roundToNat (byCode 1) neg m e).1 % 2 = 0) ∧ (|k 5 - x| = 1 / 2 → x < k 5) ∧
    ∀ (sat : Bool) (u n p : Nat), (p : ℚ) ≤ x → x < p + 1 →
      roundToNat ⟨6, sat, u, n⟩ neg m e = (if (u : ℚ) < (x - p) * 2 ^ n then p + 1 else p, decide (x ≠ p))) ∧
  ∀ (T : Fin 16) (r : Rounding), tagInt T = true →
    (∀ sn, floatToInt T r (.nan sn) = (0, fNV)) ∧
    (∀ neg, ∃ n, intOf T n = (if neg then clamp T (-2 ^ 64) else clamp T (2 ^ 64)) ∧ n < 2 ^ tagWidth T ∧
      floatToInt T r (.inf neg) = (n, fNV ||| fSAT ||| fNX)) ∧
    ∀ neg m e, let q := roundToNat r neg m e
      let x : Int := if neg then -q.1 else q.1
      ∃ n, n < 2 ^ tagWidth T ∧ intOf T n = clamp T x ∧
        floatToInt T r (.num neg m e) = (n, if clamp T x ≠ x then fNV ||| fSAT ||| fNX else if q.2 then fNX else 0)

/-- R154, R157 to R159: the float instructions that inspect, round and scale.
Rests on readings and choices of the model (log entries 16, 26, 61, 86 and 107). -/
def Obligations.FloatInspectionAndScaling : Prop := FloatInspection ∧ FloatRoundAndScale

/-- R24, R162 to R165: the special functions: their issue, and their values.
Rests on readings and choices of the model (log entries 16, 61 and 107). -/
def Obligations.SpecialFunctions : Prop := SpecialFunctionIssue ∧ SpecialFunctionValues

/-- R127, R129, R131 to R133, R135, R138, R150 to R152: what rounding gives: the directed codes, the nearest codes, the stochastic
code, the flags and saturation, m8, exact sums, integers.
Rests on readings and choices of the model (log entries 26, 27 and 108). -/
def Obligations.Rounding : Prop :=
  DirectedRounding ∧ NearestRounding ∧ StochasticRounding ∧ RoundingFlags ∧ ScaledRounding ∧ SumsAreExact ∧ IntegerRounding

/-- R127 to R134, R137 to R140: the conversions, scaled conversions and block exponents, with the rounding into m8.
Rests on readings and choices of the model (log entries 16, 25, 26, 27, 61, 86, 107 and 108). -/
def Obligations.Conversions : Prop := Conversion ∧ ScaledConversion ∧ BlockExponents ∧ ScaledRounding

namespace Sys2Proof.Claims
open Sys2Proof.Machine

/-- The checks of an access of a load, a store, and an atomic that reads or only writes (R180, R181, R240, R252); `note` that no
access of the issue has failed before it (R314). -/
abbrev forLoad (note : Bool) (w : Want) (s : State) : State × Probe := s.probe ⟨true, false, false⟩ true note w
abbrev forStore (note : Bool) (w : Want) (s : State) : State × Probe := s.probe ⟨false, true, false⟩ false note w
abbrev forAtomic (rd : Bool) (_note : Bool) (w : Want) (s : State) : State × Probe := s.probeAtom ⟨rd, true, false⟩ w

/-- The checks `p` of the accesses `ws` all pass (R184): they lead from `s` to `s1` (page-table bits, TLBs), with locations
`ls`. -/
def Probed (p : Bool → Want → State → State × Probe) (s s1 : State) (ws : List Want) (ls : List Loc) : Prop :=
  ls.length = ws.length ∧ ∃ pages : List (Option (Nat × Nat)), pages.length = ws.length ∧
    probeEach p true ws s = (s1, (ws.zip (ls.zip pages)).map fun x => (x.1, .ok x.2.1 x.2.2))

/-- A byte as the crew in focus sees it: its own writes of the chunk over what memory holds (R181, R215). -/
def view (s : State) (slot : BitVec 12) (k : Nat) : Byte :=
  (s.readLoc ⟨if 2 ^ 53 ≤ k then .spad else .chunked, k, 0, false, slot⟩ 1).headD 0

/-- The issuing threads with an active position of n, in lane order (R61). -/
def actives (s : State) (g : Guard) (n : Nat) : List (Fin 32) := s.lanes.filter fun t => (List.range n).any (posActive s.focus.r g n t)

/-- No marker on a register in the given threads. -/
def FreeIn (s : State) (f : RegFile) (n : Nat) (l : List (Fin 32)) : Prop := ∀ t ∈ l, s.focus.r.marked f n t = false

/-- v[base] + off × scale of a thread (R180). -/
def addr (s : State) (base : Fin 64) (off : Fin 256) (scale : Nat) (t : Fin 32) : Dword :=
  (s.focus.r.readV base t).val + BitVec.ofNat 64 (off.val * scale)

/-- The guard and hint of an access. -/
def mGuard (mx : Option Mx) : Guard := (mx.map (·.guard)).getD ⟨false, 0⟩
def mHint (mx : Option Mx) : Fin 8 := (mx.map (·.hint)).getD 0

/-- What an issue of accesses leaves alone in a chunk: all but the accesses' own traces. -/
def ChunkFrame (c d : Chunk) : Prop :=
  d.first = c.first ∧ d.clauses = c.clauses ∧ d.issued = c.issued ∧ d.len = c.len ∧ d.retry = c.retry ∧ d.soft = c.soft ∧
    d.stop = c.stop ∧ d.next = c.next ∧ d.seq = c.seq

/-- What ORD asks of an access (R194, R222, R224, R248), from chunk `c` to chunk `d`; `ended` is that the access ends the chunk
by itself. -/
structure OrderedBy (s : State) (k : Ordered) (ended : Bool) (c d : Chunk) : Prop where
  rels : d.rels = c.rels ++ (s.clause.order.map fun o => relMarks k o.1 o.2.val c.acts.length d.acts.length).getD []
  ends : d.ends = (c.ends || ended || s.clause.order.any fun o => o.1 != 0)
  holdAll : d.holdAll = (c.holdAll || (k.late && s.clause.order.any fun o => o.1 == 1 || o.1 == 3 || o.1 == 4))
  holdSc : d.holdSc = (c.holdSc || (s.clause.order.any fun o => o.1 == 4) && match k with | .load _ => false | _ => true)

/-- A byte of memory with what the partial copies of its line add to it (R243, R246). -/
def settledByte (s : State) (k : Nat) : Byte := (s.mergeLine (lineOf k)).byte k

/-- A core but for its data caches and the counters 0 to 5 that count them (R191). -/
def quietCore (c : Core) : Core := { c with l1 := [], pmc := c.pmc.drop 6 }

/-- What a load that reads at its issue leaves alone (R181, R199): every byte of memory with its partial copies, every register
of every core but those that count cache accesses, and everything else but the crew's registers, the read traces of its chunk, the
caches, and where partial copies of its lines have merged. -/
structure LoadFrame (s s1 t : State) (ls : List Loc) : Prop where
  rest : t = { s1 with
    focus := { s1.focus with r := t.focus.r, chunk := t.focus.chunk }, cores := t.cores, dies := t.dies, landings := t.landings
    hub := { s1.hub with l2 := t.hub.l2, cache := t.hub.cache }, free := t.free
    mem := t.mem, filled := t.filled, keyed := t.keyed, partials := t.partials }
  cores : t.cores.map quietCore = s1.cores.map quietCore
  dies : (t.dies.map fun d => { d with copies := [] }) = s1.dies.map fun d => { d with copies := [] }
  grants : t.landings.map Landing.held = s1.landings.map Landing.held
  memory : ∀ k, settledByte t k = settledByte s1 k
  chunk : ChunkFrame s1.focus.chunk t.focus.chunk
  order : OrderedBy s (.load false) (ls.any fun l => l.region == .system) s1.focus.chunk t.focus.chunk
  writes : t.focus.chunk.buf = s1.focus.chunk.buf ∧ t.focus.chunk.acts = s1.focus.chunk.acts ∧ t.focus.chunk.wsig = s1.focus.chunk.wsig
  reads : ∀ l ∈ ls, l.region = .chunked ∨ l.region = .pkg ∨ l.region = .priv → isHbm l.key = true ∨ l.region = .pkg →
    sigHas t.focus.chunk.rsig (lineOf l.key) = true ∧ t.focus.chunk.rmask.getLsbD (landingOf (lineOf l.key)) = true

/-- A write there commits at the commit point (R203, R222): a CHUNKED page, the package scratchpad, a private slice. -/
def atCommit (l : Loc) : Bool := l.region == .chunked || l.region == .pkg || l.region == .priv

/-- How many v registers of a list the undo log does not hold yet (R209). -/
def fresh (s : State) (dsts : List Dst) : Nat :=
  (dsts.filter fun d => match d with
    | .v d => !s.focus.chunk.logV.contains d
    | _ => false).length

/-- The registers of a long-latency issue (R23, R25, R63): its destinations marked under the flag `flag`, its writes held. -/
def held (s : State) (flag : Fin 12) (kind : LongKind) (dsts : List Dst) (writes : List RegWrite) : Regs :=
  let m := dsts.foldl (fun r d => r.markDst s.lanes flag d) s.focus.r
  { m with inflight := m.inflight ++ [⟨flag, kind, writes, 0, false, []⟩] }

/-- A load runs (R181, R182, R222, R245): where every check of its accesses passes and the undo log has room, it reads once the
partial copies of its lines have merged; its results are held under the flag that SETA names, as `res` gives them from the values
read, and its destinations are marked. Where the merge must wait for a landing the word waits; where ORD holds it, an action of
step 6 reads. -/
def LoadRuns (i : Instr) (s : State) (hint : Fin 8) (dsts : List Dst) (ws : List Want) (res : List Nat → Regs → Prop) : Prop :=
  ∀ s1 ls, Probed forLoad s s1 ws ls → s.focus.chunk.logUnits + 10 * fresh s dsts ≤ 256 →
    (s.holdsLoad = false → ∀ s2, s1.mergeReads ls = (s2, true) → ∃ writes t, Runs i s t ∧
      res ((ls.zip ws).zipIdx.map fun x => leNat (State.readLoc { s2 with free := s2.free + x.2 } x.1.1 x.1.2.size))
        (s.focus.r.applyAll writes) ∧
      t.focus.r = held s (s.clause.flag false) .plain dsts writes ∧ LoadFrame s s1 t ls) ∧
    (s.holdsLoad = false → ∀ s2, s1.mergeReads ls = (s2, false) → ∃ ch, Runs i s ({ s2 with focus := { s2.focus with chunk := ch } }.hold) ∧
      ChunkFrame s1.focus.chunk ch ∧ ch.buf = s1.focus.chunk.buf ∧ ch.acts = s1.focus.chunk.acts) ∧
    (s.holdsLoad = true → ∃ dests t, Runs i s t ∧
      (∀ vs, vs.length = ls.length → (∀ x ∈ vs.zip ws, x.1 < 256 ^ x.2.size) →
        res vs (s.focus.r.applyAll (dests.map (LoadDest.fill vs)))) ∧
      t = { s1 with focus := { s1.focus with r := t.focus.r, chunk := t.focus.chunk }, uids := s1.uids + 1 } ∧
      t.focus.r = held s (s.clause.flag false) (.held s1.uids) dsts [] ∧
      t.focus.chunk.acts = s1.focus.chunk.acts ++ [⟨s.origin,
        .load ⟨s1.uids, hint, s.clause.acquires, s1.focus.chunk.gen, (ls.zip ws).map fun x => ⟨x.1, x.2.size, x.2.idle⟩, dests⟩⟩] ∧
      t.focus.chunk.buf = s1.focus.chunk.buf ∧ t.focus.chunk.wsig = s1.focus.chunk.wsig ∧
      (∀ l ∈ ls, atCommit l = true → sigHas t.focus.chunk.rsig (lineOf l.key) = true) ∧
      ChunkFrame s1.focus.chunk t.focus.chunk ∧ OrderedBy s (.load true) true s1.focus.chunk t.focus.chunk)

/-- The value that thread t has from an issue of one access each for `l`. -/
def ofLane (l : List (Fin 32)) (vs : List Nat) (t : Fin 32) : Nat := vs.getD (l.idxOf t) 0

/-- The index term of position e of a gather or scatter (R182). -/
def indexTerm (s : State) (gx : Gx) (t : Fin 32) (e : Nat) : Int :=
  let b := 8 * 2 ^ gx.iw.val
  let x := (s.focus.r.readV (gx.index + ⟨b * e / 64 % 64, by omega⟩) t).val.toNat / 2 ^ (b * e % 64) % 2 ^ b
  (if gx.signed then (BitVec.ofNat b x).toInt else x) * 2 ^ gx.scale.val

/-- Its active (thread, position) pairs, in order, and the index registers. -/
def pairs (s : State) (gx : Gx) (n : Nat) : List (Fin 32 × Nat) :=
  (actives s gx.guard n).flatMap fun t => ((List.range n).filter (posActive s.focus.r gx.guard n t)).map fun e => (t, e)
def IndexFree (s : State) (gx : Gx) (ty : Fin 16) : Prop :=
  ∀ j < (tagCount ty * (8 * 2 ^ gx.iw.val) + 63) / 64, FreeIn s .v ((gx.index.val + j) % 64) (actives s gx.guard (tagCount ty))

/-- The bytes of the active positions of a register value, from offset `o` (R183). -/
def posBytes (s : State) (g : Guard) (ty : Fin 16) (t : Fin 32) (o : Nat) (x : Dword) : List (Nat × Byte) :=
  ((List.range 8).filter fun j => posActive s.focus.r g (tagCount ty) t (j / (tagWidth ty / 8))).map fun j =>
    (o + j, BitVec.ofNat 8 (x.toNat / 2 ^ (8 * j)))
/-- The low k bytes of a value. -/
def low (k : Nat) (x : Nat) : List (Nat × Byte) := (List.range k).map fun j => (j, BitVec.ofNat 8 (x / 2 ^ (8 * j)))

/-- ORD keeps a write behind the step-6 accesses before it (R222, R248): every write after an acquire that is performed there, a
release after any access that is. -/
def Kept (s : State) : Bool := s.keepsWrite

/-- There is room for `n` more entries in the chunk buffer (R196), whatever frames of memory are mapped both STREAM and otherwise: as
many lines, where no line of the accesses is written through both kinds of page; else as many entries. -/
def BufferRoom (s : State) (ls : List Loc) (n : Nat) : Prop :=
  (s.focus.chunk.lines + n ≤ 32 ∧
    ∀ l ∈ ls, (∀ b ∈ s.focus.chunk.buf, b.line = lineOf l.key → b.region.signed = l.region.signed) ∧
      ∀ l' ∈ ls, lineOf l'.key = lineOf l.key → l'.region.signed = l.region.signed) ∨
  s.focus.chunk.buf.length + s.focus.chunk.acts.length + n ≤ 32

/-- Crews alike but for the dirty granules of their windows (R399). -/
def clean (c : Crew) : Crew := { c with dirty := [] }

/-- A store runs (R183, R172, R195, R213): where every check passes and the chunk buffer and the undo log have room, the
crew sees the stored bytes, the later of two on one byte, and every other byte as before; no byte of memory outside the
scratchpads changes before the commit, and no register at all. On SYSTEM pages the stores are held, each by itself. -/
def StoreRuns (i : Instr) (s : State) (puts : List (Want × List (Nat × Byte))) : Prop :=
  ∀ s1 ls, Probed forStore s s1 (puts.map (·.1)) ls →
    BufferRoom s ls puts.length → s.focus.chunk.logUnits + 2 * puts.length ≤ 256 → Memory.wf s.mem →
    ∃ t, Runs i s t ∧
      t = { s1 with focus := { s1.focus with chunk := t.focus.chunk, dirty := t.focus.dirty }, pool := t.pool, mem := t.mem, filled := t.filled } ∧
      t.focus.r = s.focus.r ∧ t.pool.map clean = s1.pool.map clean ∧ ChunkFrame s1.focus.chunk t.focus.chunk ∧
      OrderedBy s (.write (!Kept s && ls.any atCommit)) (ls.any fun l => l.region == .system) s1.focus.chunk t.focus.chunk ∧
      (∀ k < 2 ^ 53, t.byte k = s1.byte k) ∧
      t.focus.chunk.rsig = s1.focus.chunk.rsig ∧ t.focus.chunk.rmask = s1.focus.chunk.rmask ∧
      ((∀ l ∈ ls, l.region ≠ .system) → ∀ slot k, view t slot k =
        overlay ((ls.zip puts).flatMap fun x => x.2.2.map fun b => (x.1.key + b.1, b.2)) (view s1 slot) k) ∧
      ((∀ l ∈ ls, l.region = .system) → (∀ slot k, view t slot k = view s1 slot k) ∧
        t.focus.chunk.acts = s1.focus.chunk.acts ++ ((ls.zip puts).filter fun x => !x.2.2.isEmpty).map fun x =>
          ⟨s.origin, .sysStore x.1 x.2.2⟩) ∧
      ∀ x ∈ ls.zip puts, x.2.2 ≠ [] → x.1.region = .chunked ∨ x.1.region = .pkg ∨ x.1.region = .priv →
        sigHas t.focus.chunk.wsig (lineOf x.1.key) = true

/-- The widths of an atomic operation's operand tags (R237). -/
def AtomTag (op : Fin 16) (T : Fin 16) : Prop :=
  let ints := T.val ∈ [3, 4, 7, 8]
  match op.val with
  | 0 | 5 | 6 | 7 | 8 => ints
  | 2 | 3 | 4 => ints ∨ T = tRAW
  | 9 => ints ∨ T = tRAW ∨ T = tF32 ∨ T = tF64
  | 11 | 12 => T = tF32 ∨ T = tF64
  | 13 => T = tF32
  | _ => False

/-- An atomic or reduction may go there (R240): at the host only what PCI Express offers. -/
def AtomPlace (pcie : Bool) (l : Loc) : Prop := isHost l.key = true → pcie = true

/-- A returning atomic enters its chunk (R23, R25, R194, R241): its action in step 6, its markers, the boundary; nothing of
memory changes before. -/
def AtomRuns (i : Instr) (s : State) (fs : Bool) (dst : Dst) (ws : List Want) (pcie : Bool) (job : Nat → List Loc → AtomJob) : Prop :=
  ∀ s1 ls, Probed (forAtomic true) s s1 ws ls → (∀ l ∈ ls, AtomPlace pcie l) → s.focus.chunk.logUnits + 10 * fresh s [dst] ≤ 256 →
    ∃ t, Runs i s t ∧
      t = { s1 with focus := { s1.focus with r := t.focus.r, chunk := t.focus.chunk }, uids := s1.uids + 1 } ∧
      t.focus.r = held s (s.clause.flag fs) (.held s1.uids) [dst] [] ∧
      t.focus.chunk.acts = s1.focus.chunk.acts ++ [⟨s.origin, .atom (job s1.uids ls)⟩] ∧
      t.focus.chunk.buf = s1.focus.chunk.buf ∧ ChunkFrame s1.focus.chunk t.focus.chunk ∧
      OrderedBy s .atom true s1.focus.chunk t.focus.chunk

/-- The bytes after a reduction of the w bits at a key (R239). -/
def reduced (op : Fin 16) (w key : Nat) (x : Dword) (base : Nat → Byte) (k : Nat) : Byte :=
  if key ≤ k ∧ k < key + w / 8 then
    BitVec.ofNat 8 (reduceOp op w (leNat ((List.range (w / 8)).map fun j => base (key + j))) (x.toNat % 2 ^ w) / 2 ^ (8 * (k - key)))
  else base k

/-- What a prefetch leaves alone (R176, R187, R441): every register of its crew and of the cores but the counters of the TLBs;
the data of memory, in which a walk may set the accessed flag of a table entry, for which other crews may roll back; and all but
caches, TLBs, partial copies that have merged, the chunk's record of the translations that it used, and whether a walk has to wait. -/
structure Prefetched (s t : State) : Prop where
  rest : t = { s with
    focus := { s.focus with chunk := t.focus.chunk }, pool := t.pool, cores := t.cores, rafts := t.rafts, dies := t.dies
    hub := { s.hub with l2 := t.hub.l2, cache := t.hub.cache }, landings := t.landings
    mem := t.mem, filled := t.filled, keyed := t.keyed, partials := t.partials, stall := t.stall }
  chunk : t.focus.chunk = { s.focus.chunk with used := t.focus.chunk.used, ends := t.focus.chunk.ends, rels := t.focus.chunk.rels }
  order : OrderedBy s (.load false) false s.focus.chunk t.focus.chunk
  cores : t.cores.map (fun c => { c with tlb := [], l1 := [], pmc := c.pmc.take 6 ++ c.pmc.drop 8 }) =
    s.cores.map fun c => { c with tlb := [], l1 := [], pmc := c.pmc.take 6 ++ c.pmc.drop 8 }
  rafts : t.rafts.map Raft.bars = s.rafts.map Raft.bars
  dies : t.dies.map (fun d => { d with walks := [], copies := [] }) = s.dies.map fun d => { d with walks := [], copies := [] }
  memory : t.pool = s.pool → ∀ k, settledByte t k = settledByte s k ∨ settledByte t k = settledByte s k ||| 1

/-- A chunk's action joins it; nothing else changes but whether the chunk ends. -/
def ActRuns (i : Instr) (s : State) (kind : ActKind) (ends : Bool) : Prop :=
  Runs i s (withCrew s s.focus.r { s.focus.chunk with
    acts := s.focus.chunk.acts ++ [⟨s.origin, kind⟩], ends := s.focus.chunk.ends || ends })

end Sys2Proof.Claims

/-! ### Class MEM -/

/-- R181, R182: the loads. -/
def Sys2Proof.Claims.Loads : Prop :=
  ∀ (d base : Fin 64) (ty : Fin 16) (off : Fin 256) (mx : Option Mx) (gx : Gx) (s : State),
    let g := mGuard mx
    let n := fun (_ : Fin 32) => tagCount ty
    let L := actives s g (tagCount ty)
    let b := tagWidth ty / 8
    let word := fun (t : Fin 32) (sz : Nat) => (⟨some t, addr s base off sz t, sz, idleBytes s.focus.r g ty t⟩ : Want)
    let part := fun (t : Fin 32) => (⟨some t, addr s base off b t, b, 0⟩ : Want)
    (ty = tHND → s.focus.r.flt.sup = true) →
    (NoMark s .q g.q.val → FreeIn s .v base.val L → FreeIn s .v d.val L →
      LoadRuns (.ld d base ty off mx) s (mHint mx) [.v d] (L.map fun t => word t 8) (fun vs w =>
        VWrites s.focus.r w d s.lanes g n (fun _ => ty) fun t e => some (ofLane L vs t / 2 ^ (tagWidth ty * e))) ∧
      LoadRuns (.lde d base ty off mx) s (mHint mx) [.v d] (L.map part) (fun vs w =>
        VWrites s.focus.r w d s.lanes g n (fun _ => ty) fun t _ => some (ofLane L vs t)) ∧
      (FreeIn s .v (d + 1).val L →
        LoadRuns (.ldp d base ty off mx) s (mHint mx) [.v d, .v (d + 1)] (L.map fun t => word t 16) fun vs w => ∃ m,
          VWrites s.focus.r m d s.lanes g n (fun _ => ty) (fun t e => some (ofLane L vs t % 2 ^ 64 / 2 ^ (tagWidth ty * e))) ∧
          VWrites m w (d + 1) s.lanes g n (fun _ => ty) fun t e => some (ofLane L vs t / 2 ^ 64 / 2 ^ (tagWidth ty * e)))) ∧
    (NoMark s .q gx.guard.q.val → FreeIn s .v base.val (actives s gx.guard (tagCount ty)) → IndexFree s gx ty →
      FreeIn s .v d.val (actives s gx.guard (tagCount ty)) →
      LoadRuns (.ldx d base ty off gx) s gx.hint [.v d]
        ((pairs s gx (tagCount ty)).map fun p => ⟨some p.1, addr s base off b p.1 + BitVec.ofInt 64 (indexTerm s gx p.1 p.2), b, 0⟩)
        fun vs w => VWrites s.focus.r w d s.lanes gx.guard n (fun _ => ty) fun t e =>
          some (vs.getD ((pairs s gx (tagCount ty)).idxOf (t, e)) 0))

/-- R181: the uniform load, sign-extended for the signed tags. -/
def Sys2Proof.Claims.UniformLoad : Prop :=
  ∀ (d base : Fin 64) (ty : Fin 16) (off : Fin 256) (mx : Option Mx) (s : State),
    let b := tagWidth ty / 8
    NoMark s .s base.val → NoMark s .s d.val →
    LoadRuns (.ldu d base ty off mx) s (mHint mx) [.s d] [⟨none, s.focus.r.readS base + BitVec.ofNat 64 (off.val * b), b, 0⟩] fun vs w =>
      w = s.focus.r.writeS d (BitVec.ofInt 64 (intOf ty (vs.headD 0)))

/-- R183: the stores.
Rests on readings and choices of the model (log entries 16, 36, 80, 110 and 118). -/
def Obligations.Stores : Prop :=
  ∀ (d base : Fin 64) (ty : Fin 16) (off : Fin 256) (mx : Option Mx) (gx : Gx) (s : State),
    let g := mGuard mx
    let r := s.focus.r
    let n := tagCount ty
    let b := tagWidth ty / 8
    let L := actives s g n
    let P := pairs s gx n
    let G := actives s gx.guard n
    (NoMark s .q g.q.val → FreeIn s .v base.val L → FreeIn s .v d.val L → (ty = tRAW ∨ ∀ t ∈ L, (r.readV d t).tag = ty) →
      StoreRuns (.st d base ty off mx) s (L.map fun t => (⟨some t, addr s base off 8 t, 8, 0⟩, posBytes s g ty t 0 (r.readV d t).val)) ∧
      StoreRuns (.ste d base ty off mx) s (L.map fun t => (⟨some t, addr s base off b t, b, 0⟩,
        if posActive r g n t 0 then low b (r.readV d t).val.toNat else [])) ∧
      (FreeIn s .v (d + 1).val L → (ty = tRAW ∨ ∀ t ∈ L, (r.readV (d + 1) t).tag = ty) →
        StoreRuns (.stp d base ty off mx) s (L.map fun t => (⟨some t, addr s base off 16 t, 16, 0⟩,
          posBytes s g ty t 0 (r.readV d t).val ++ posBytes s g ty t 8 (r.readV (d + 1) t).val)))) ∧
    (NoMark s .q gx.guard.q.val → FreeIn s .v base.val G → IndexFree s gx ty → FreeIn s .v d.val G →
      (ty = tRAW ∨ ∀ t ∈ G, (r.readV d t).tag = ty) →
      StoreRuns (.stx d base ty off gx) s (P.map fun p =>
        (⟨some p.1, addr s base off b p.1 + BitVec.ofInt 64 (indexTerm s gx p.1 p.2), b, 0⟩,
          low b (elemOf (tagWidth ty) p.2 (r.readV d p.1).val)))) ∧
    (NoMark s .s base.val → NoMark s .s d.val → StoreRuns (.stu d base ty off mx) s
      [(⟨none, r.readS base + BitVec.ofNat 64 (off.val * b), b, 0⟩, low b (r.readS d).toNat)])

/-- R184: where a check of a load or store fails, none of its accesses is performed: the instruction takes the fault of
the first failing access, which names every lane with one. -/
def Sys2Proof.Claims.FailedAccess : Prop :=
  ∀ (d base : Fin 64) (ty : Fin 16) (off : Fin 256) (mx : Option Mx) (s s1 : State) (ps : List (Want × Probe)) (f : Flt),
    let g := mGuard mx
    let L := actives s g (tagCount ty)
    NoMark s .q g.q.val → FreeIn s .v base.val L → FreeIn s .v d.val L → probeFault ps = some f →
    (s.probeAll ⟨true, false, false⟩ true (L.map fun t => ⟨some t, addr s base off 8 t, 8, idleBytes s.focus.r g ty t⟩) = (s1, ps) →
      (ty = tHND → s.focus.r.flt.sup = true) → Runs (.ld d base ty off mx) s (s1.raise f)) ∧
    (s.probeAll ⟨false, true, false⟩ false (L.map fun t => ⟨some t, addr s base off 8 t, 8, 0⟩) = (s1, ps) →
      (ty = tRAW ∨ ∀ t ∈ L, (s.focus.r.readV d t).tag = ty) → Runs (.st d base ty off mx) s (s1.raise f))

/-- R166, R167, R180: an access below the size of its own window is checked by these rules and no others. -/
def Sys2Proof.Claims.OwnWindowAccess : Prop :=
  ∀ (s : State) (n : Need) (race note : Bool) (w : Want), 2 ^ 56 ≤ w.addr.toNat → w.addr.toNat < 2 ^ 56 + 2 ^ 32 → 0 < w.size →
    let o := w.addr.toNat - 2 ^ 56
    let base := s.focus.r.spmBase.toNat * 128
    let size := s.focus.r.spmSize.toNat * 128
    (w.addr.toNat % w.size ≠ 0 → s.probe n race note w = (s, .fault .misalign w.addr)) ∧
    (w.addr.toNat % w.size = 0 → 2 ^ 19 < base + o + w.size → s.probe n race note w = (s, .fault .prot w.addr)) ∧
    (w.addr.toNat % w.size = 0 → base + o + w.size ≤ 2 ^ 19 → size < o + w.size → s.probe n race note w = (s, .fault .spmbound w.addr)) ∧
    (w.addr.toNat % w.size = 0 → base + o + w.size ≤ 2 ^ 19 → o + w.size ≤ size →
      (n.rd = true → s.badAt (keySpad s.focus.core (base + o)) w.size = false) →
      s.probe n race note w = (s, .ok ⟨.spad, keySpad s.focus.core (base + o), w.addr, false, 0⟩ none))

/-- R235 to R238, R241: the returning atomics are held for step 6 of their chunk, which they end. -/
def Sys2Proof.Claims.ReturningAtomics : Prop :=
  ∀ (d a b : Fin 64) (op : Fin 16) (fs w32 : Bool) (c : Fin 32) (mx : Option Mx) (s : State),
    let g := mGuard mx
    let r := s.focus.r
    let L := actives s g 1
    let w := fun t => tagWidth (r.readV b t).tag
    let v := fun (x : Fin 64) (t : Fin 32) => (r.readV x t).val
    let c' : Fin 64 := ⟨c.val, by omega⟩
    let wants := L.map fun t => (⟨some t, v a t, w t / 8, 0⟩ : Want)
    (NoMark s .q g.q.val → FreeIn s .v a.val L → FreeIn s .v b.val L → FreeIn s .v d.val L →
      ((∀ t ∈ L, AtomTag op (r.readV b t).tag) → AtomRuns (.atom d a b op fs mx) s fs (.v d) wants (op == 0 || op == 9) fun id ls =>
        ⟨id, op, 0, 0, d, false, s.clause.acquires, mHint mx, (L.zip ls).map fun x => ⟨x.1, x.2, v b x.1, none⟩,
          L.map fun t => .v d t 0 0 (r.readV b t).tag⟩) ∧
      ((∀ t ∈ L, AtomTag 9 (r.readV b t).tag ∧ (r.readV c' t).tag = (r.readV b t).tag) → FreeIn s .v c.val L →
        AtomRuns (.atomc d a b c fs mx) s fs (.v d) wants true fun id ls =>
          ⟨id, 9, 0, 0, d, false, s.clause.acquires, mHint mx, (L.zip ls).map fun x => ⟨x.1, x.2, v c' x.1, some (v b x.1)⟩,
            L.map fun t => .v d t 0 0 (r.readV b t).tag⟩)) ∧
    (NoMark s .s a.val → NoMark s .s b.val → NoMark s .s d.val →
      AtomRuns (.atomu d a b op w32 fs mx) s fs (.s d) [⟨none, r.readS a, (if w32 then 32 else 64) / 8, 0⟩] (op == 0 || op == 9)
        fun id ls => ⟨id, op, if w32 then 32 else 64, 0, d, true, s.clause.acquires, mHint mx, ls.map fun l => ⟨0, l, r.readS b, none⟩, []⟩)

/-- R239, R243: the crew sees its REDs applied in lane order; on scratchpads and SYSTEM pages they wait for step 6. -/
def Sys2Proof.Claims.Reductions : Prop :=
  ∀ (a b : Fin 64) (op : Fin 16) (mx : Option Mx) (s s1 : State) (ls : List Loc),
    let g := mGuard mx
    let r := s.focus.r
    let L := actives s g 1
    let w := fun t => tagWidth (r.readV b t).tag
    let reqs := L.zip ls
    NoMark s .q g.q.val → FreeIn s .v a.val L → FreeIn s .v b.val L → (∀ t ∈ L, AtomTag op (r.readV b t).tag) →
    Probed (forAtomic false) s s1 (L.map fun t => ⟨some t, (r.readV a t).val, w t / 8, 0⟩) ls →
    (∀ l ∈ ls, AtomPlace (op == 0) l) → BufferRoom s ls L.length →
    ∃ t, Runs (.red a b op mx) s t ∧ t = { s1 with focus := { s1.focus with chunk := t.focus.chunk } } ∧ t.focus.r = r ∧
      ChunkFrame s1.focus.chunk t.focus.chunk ∧
      OrderedBy s (.write (!Kept s && ls.any atCommit)) (ls.any fun l => l.region == .system) s1.focus.chunk t.focus.chunk ∧
      ((∀ l ∈ ls, l.region ≠ .spad ∧ l.region ≠ .system) → ∀ slot k, view t slot k =
        reqs.foldl (fun base x => reduced op (w x.1) x.2.key (r.readV b x.1).val base) (view s1 slot) k) ∧
      ((∀ l ∈ ls, l.region = .spad) → t.focus.chunk.buf = s1.focus.chunk.buf ∧ t.focus.chunk.acts = s1.focus.chunk.acts ++
        reqs.map fun x => ⟨s.origin, .spadRed x.2.key op (w x.1) (r.readV b x.1).val⟩) ∧
      ((∀ l ∈ ls, l.region = .system) → t.focus.chunk.buf = s1.focus.chunk.buf ∧ t.focus.chunk.acts = s1.focus.chunk.acts ++
        reqs.map fun x => ⟨s.origin, .sysRed x.2 op (w x.1) (r.readV b x.1).val⟩)

/-- R36, R185 to R187, R230: ORD, FENCE, CPIN, CUNPIN, CINV and CPREF complete: ORD governs the next word; FENCE, CPIN, CUNPIN and
CINV put their action into step 6; CPREF prefetches and changes no register and no data.
Rests on readings and choices of the model (log entries 16, 30 and 36). -/
def Obligations.OrderAndCacheInstructions : Prop :=
  ∀ (d base : Fin 64) (order scope : Fin 8) (off : Fin 256) (ways : Fin 16) (slot kind : Fin 4) (mx : Option Mx) (s : State),
    let r := s.focus.r
    let x := r.readS base
    let y := r.readS (base + 1)
    let line := x + BitVec.ofNat 64 (off.val * 128)
    let withAct := fun (k : ActKind) (ends : Bool) => { s with focus := { s.focus with chunk := { s.focus.chunk with
      acts := s.focus.chunk.acts ++ [⟨s.origin, k⟩], ends := s.focus.chunk.ends || ends } } }
    (ordPair order s.clause.following = true → exec (.ord order scope) s = .next { s with
      focus := { s.focus with cur := s.focus.cur.map fun c => { c with order := some (order, scope) } } }) ∧
    (s.clause.idx = s.clause.header.count.val → NoMark s .s d.val →
      exec (.fence d scope) s = .next (withAct (.fence scope.val d) true)) ∧
    (NoMark s .s base.val → NoMark s .s (base + 1).val → x.toNat % 128 = 0 → y.toNat % 128 = 0 → y ≠ 0 →
      x.toNat + y.toNat ≤ 2 ^ 56 → exec (.cpin base ways slot) s = .next (withAct (.cpin slot x y ways.val) false)) ∧
    exec (.cunpin slot) s = .next (withAct (.cunpin slot) false) ∧
    (NoMark s .s base.val → (kind = 0 ∨ r.flt.sup = true) → exec (.cinv kind base off) s = .next (withAct
      (match kind.val with | 0 => .cinvCode line | 1 => .cinvPage line | _ => .cinvSpace) false)) ∧
    (NoMark s .q (mGuard mx).q.val → FreeIn s .v base.val (actives s (mGuard mx) 1) →
      ∃ t, exec (.cpref base off mx) s = .next t ∧ Prefetched s t)

/-- R23, R25, R180 to R182, R199: the loads by thread and the uniform load.
Rests on readings and choices of the model (log entries 16, 90 and 106). -/
def Obligations.LoadInstructions : Prop := Loads ∧ UniformLoad

/-- R42, R166, R167, R180, R184: an access that fails its checks, and accesses to a crew's own window.
Rests on readings and choices of the model (log entries 16, 23, 100 and 115). -/
def Obligations.AccessChecks : Prop := FailedAccess ∧ OwnWindowAccess

/-- R235 to R243: the returning atomics, and the reductions at memory.
Rests on readings and choices of the model (log entries 16, 36, 115 and 118). -/
def Obligations.AtomicsAndReductions : Prop := ReturningAtomics ∧ Reductions

namespace Sys2Proof.Claims
open Sys2Proof.Machine

/-- Where a lane goes after a clause: its target, or the address that follows the clause, h + 4 × (COUNT + 1) (R79). -/
def goes (s : State) (target : Fin 32 → Option Addr) (t : Fin 32) : Addr × Bool :=
  match target t with
  | some a => (a, true)
  | none => (s.clause.addr + BitVec.ofNat 57 (4 * (s.clause.header.count.val + 1)), false)

/-- The crew's registers once the issuing lanes have transferred (FrontierUpdate says what the frontier then is), and the
clause in issue that knows it. -/
def moved (s : State) (target : Fin 32 → Option Addr) (r : Regs) : Regs :=
  { r with frontier := advanceFrontier s.clause.addr s.lanes (goes s target) true r.frontier }
def turned (c : Option Clause) : Option Clause := c.map fun c => { c with moved := true }

/-- A control transfer runs from `s1`, which its target checks leave of `s`: PCs move, and nothing else. -/
def TransferRuns (i : Instr) (s s1 : State) (target : Fin 32 → Option Addr) : Prop :=
  Runs i s { s1 with focus := { s1.focus with r := moved s target s1.focus.r, cur := turned s1.focus.cur } }

/-- h + 4 × offset (R88). -/
def offTo (s : State) (off : Int) : Addr := s.clause.addr + BitVec.ofInt 57 (4 * off)

/-- The lanes' 57-bit targets out of 64-bit values. -/
def laneTo (l : List (Fin 32 × Dword)) (t : Fin 32) : Option Addr := (l.lookup t).map fun x => x.truncate 57

/-- What an instruction-issue fault with FLTADDR and FLTLANES leaves (R35, R42, R206, R208, R209, R233, R382, R385): the crew as it
stood at its chunk's first clause, REPC at 0, lane 0 alone at TRAPVEC in supervisor mode; the trap state holds the chunk's replay record
and the faults that wait (R386); a data error is logged (R181). -/
structure Taken (s t : State) (code : Nat) (addr : Dword) (lanes : Lanes) : Prop where
  regs : t.focus.r = { s.focus.shadow with
    repc := 0
    flt := ⟨BitVec.ofNat 8 code, false, false, BitVec.ofNat 4 s.clause.idx, s.clause.addr, addr, lanes, s.focus.chunk.first, true, false, false,
      s.focus.r.repc⟩
    frontier := [⟨(s.coreAt s.focus.core).trapvec, 1, 0, false⟩]
    csp := s.focus.shadow.csp.set 0 0, cdepth := s.focus.shadow.cdepth.set 0 0
    blocked := s.focus.shadow.blocked &&& ~~~1 }
  trap : ∃ v, t.focus.trap = some v ∧ v.frontier = s.focus.shadow.frontier ∧ v.csp = s.focus.shadow.csp ∧
    v.cdepth = s.focus.shadow.cdepth ∧ v.blocked = s.focus.shadow.blocked ∧ v.safecnt = s.focus.shadow.safecnt ∧
    (∀ i : Fin 4, v.saved[i] = s.focus.shadow.s[60 + i.val]) ∧ v.chkpc = s.focus.chunk.first ∧ v.cause.toNat = code ∧ v.addr = addr ∧
    v.replay = { s.focus.replay with excl := false, replay := true } ∧ v.posts = s.focus.post
  chunk : t.focus.cur = none ∧ t.focus.chunk = { Chunk.empty with
    first := s.focus.chunk.first, len := s.focus.chunk.len, retry := s.focus.chunk.retry }
  memory : ∀ k, t.byte k = overlay (s.focus.chunk.logS.flatMap fun g => (List.range g.old.length).map fun j => (g.key + j, g.old.getD j 0))
    s.byte k
  rest : t = { s with
    focus := { s.focus with
      r := t.focus.r, trap := t.focus.trap, cur := none, chunk := t.focus.chunk, phase := t.focus.phase
      replay := Replay.none, post := [] }
    hub := t.hub, landings := s.landings.map (Landing.drop s.focus.uid), mem := t.mem, filled := t.filled }
  event : t.hub = if code = 0x22 then { s.hub with
      events := keepLast 65536 (s.hub.events ++ [⟨s.hub.nextEvent, s.now * 1880, 3 * 4096 + memUnit addr.toNat % 4096,
        EvKind.num .memerr, s.queueOf s.focus.task.launch, addr⟩])
      nextEvent := s.hub.nextEvent + 1 } else s.hub

/-- A thread does not wait for that phase of the crew object, or waits for something else too (R328). -/
def KeepsBlock (r : Regs) (phase : BitVec 16) (u : Fin 32) : Prop :=
  (∀ x ∈ r.waits, x.obj = none → x.phase = phase → hasLane x.lanes u = false) ∨
    ∃ x ∈ r.waits, ¬ (x.obj = none ∧ x.phase = phase) ∧ hasLane x.lanes u = true

/-- A crew of a launch's task whose handler does not run; memory in its canonical form. -/
def Faultable (s : State) : Prop :=
  s.focus.task.kind ≠ .routine ∧ s.focus.shadow.flt.sup = false ∧ Memory.wf s.mem

/-- Who may use a system register (R68). -/
inductive Rights where
  | ro | sup | user | hidden
  deriving DecidableEq, Repr

/-- The registers of the crew (R68, R70, R383): number, rights and value. -/
def crewRows (s : State) : List (Nat × Rights × Nat) :=
  let r := s.focus.r
  let p := s.hub.regs
  let k := s.focus.core
  let set := s.dieset s.focus.task.launch
  let slot := match s.focus.place with | .slot _ j => j | _ => 0
  [(0x000, .ro, slot), (0x001, .ro, (p.logical k).2), (0x002, .ro, p.raftOf k), (0x003, .ro, (p.logical k).1),
   (0x005, .ro, r.tmask.toNat), (0x006, .ro, r.emask.toNat), (0x008, .ro, (p.coresIn set).length),
   (0x009, .ro, ((List.range 8).filter set.getLsbD).length), (0x150, .user, r.gang.toNat),
   (0x151, .user, r.pivst.nan.toNat * 2 ^ 63 + r.pivst.sub.toNat * 2 ^ 32 + r.pivst.lane.toNat),
   (0x152, .user, r.rndmode.val), (0x153, .user, r.fpflags.toNat), (0x154, .sup, r.repc.toNat), (0x155, .sup, r.srctr.toNat),
   (0x160, .sup, r.redtab.toNat), (0x161, .sup, r.arenaBase.toNat), (0x162, .sup, r.arenaLim.toNat), (0x163, .sup, r.logBase.toNat),
   (0x164, .sup, r.logSeq.toNat), (0x168, .sup, r.spmBase.toNat * 128), (0x169, .sup, r.spmSize.toNat * 128)]
def faultRows (r : Regs) : List (Nat × Rights × Nat) :=
  [(0x1A0, .hidden, r.flt.code.toNat + r.flt.eng.toNat * 2 ^ 8 + r.flt.post.toNat * 2 ^ 9),
   (0x1A1, .hidden, r.flt.pcWord.toNat * 2 ^ 60 + r.flt.pcClause.toNat), (0x1A2, .hidden, r.flt.addr.toNat),
   (0x1A3, .hidden, r.flt.lanes.toNat), (0x1A4, .hidden, r.flt.chkpc.toNat),
   (0x1B1, .hidden, r.flt.sup.toNat + r.flt.retire.toNat * 2 + r.flt.cancel.toNat * 4), (0x1B2, .sup, r.safecnt),
   (0x1D0, .hidden, r.keyslot.toNat)]
/-- The registers of a core, and of the package. -/
def coreRows (c : Core) : List (Nat × Rights × Nat) :=
  [(0x140, .sup, c.chklen.toNat), (0x141, .sup, c.chkretry.toNat), (0x1B0, .hidden, c.trapvec.toNat)] ++
    (List.range 16).map fun i => (0x190 + i, .sup, (c.pmc.getD i 0).toNat)
def pkgRows (p : PkgRegs) : List (Nat × Rights × Nat) :=
  [(0x004, .ro, p.pkg.toNat), (0x180, .hidden, p.l2ways.toNat), (0x1C0, .hidden, p.qage.toNat), (0x1C1, .hidden, p.qrot.toNat),
   (0x1C2, .hidden, p.linkTmo.toNat), (0x1C3, .hidden, p.stopTmo.toNat)]
def pkgArrays (p : PkgRegs) : List (Nat × Rights × Nat) :=
  ((List.range 8).flatMap fun i => [(0x010 + i, Rights.ro, (p.harv.getD i 0).toNat), (0x018 + i, Rights.sup, (p.diemap.getD i 0).val)]) ++
  (((List.range 288).map fun i => (0x020 + i, Rights.sup, (p.lct.getD i 0).toNat)) ++
  ((List.range 4).flatMap fun i => [(0x170 + i, Rights.sup, (p.retbase.getD i 0).toNat), (0x174 + i, Rights.sup, (p.retsize.getD i 0).toNat),
    (0x178 + i, Rights.sup, (p.retways.getD i 0).toNat)]))
def sysTable (s : State) : List (Nat × Rights × Nat) :=
  crewRows s ++ (faultRows s.focus.r ++ (coreRows (s.coreAt s.focus.core) ++ (pkgRows s.hub.regs ++ pkgArrays s.hub.regs)))

/-- What a write of a crew-held register does at issue (R70, R383): reserved fields are dropped, ones clear PIVST. -/
def crewWrites (r : Regs) (x : Dword) : List (Nat × Regs) :=
  let f := r.flt
  [(0x150, { r with gang := x.extractLsb' 0 4 }),
   (0x151, { r with pivst := ⟨r.pivst.nan && !x.getLsbD 63, r.pivst.sub &&& ~~~x.extractLsb' 32 8, r.pivst.lane &&& ~~~x.extractLsb' 0 32⟩ }),
   (0x152, { r with rndmode := ⟨x.toNat % 8, Nat.mod_lt _ (by decide)⟩ }), (0x153, { r with fpflags := x.extractLsb' 0 6 }),
   (0x154, { r with repc := x.extractLsb' 0 6 }), (0x155, { r with srctr := x }), (0x160, { r with redtab := x }),
   (0x161, { r with arenaBase := x.extractLsb' 0 57 }), (0x162, { r with arenaLim := x.extractLsb' 0 57 }),
   (0x163, { r with logBase := x }), (0x164, { r with logSeq := x.extractLsb' 0 32 }), (0x168, { r with spmBase := x.extractLsb' 7 12 }),
   (0x169, { r with spmSize := x.extractLsb' 7 13 }),
   (0x1A0, { r with flt := { f with code := x.extractLsb' 0 8, eng := x.getLsbD 8, post := x.getLsbD 9 } }),
   (0x1A1, { r with flt := { f with pcClause := x.extractLsb' 0 57, pcWord := x.extractLsb' 60 4 } }),
   (0x1A2, { r with flt := { f with addr := x } }), (0x1A3, { r with flt := { f with lanes := x.extractLsb' 0 32 } }),
   (0x1A4, { r with flt := { f with chkpc := x.extractLsb' 0 57 } }),
   (0x1B1, { r with flt := { f with retire := x.getLsbD 1, cancel := x.getLsbD 2 } }), (0x1B2, { r with safecnt := x.toNat }),
   (0x1D0, { r with keyslot := x.extractLsb' 0 12 })]

/-- A value outside a field's stated range (R69). -/
def OutOfRange (n : Nat) (x : Dword) : Prop :=
  (n = 0x140 ∧ (x.toNat % 2 ^ 13 < 256 ∨ 4096 < x.toNat % 2 ^ 13)) ∨ (n = 0x152 ∧ (x.toNat % 8 = 0 ∨ x.toNat % 8 = 7)) ∨
    (n = 0x1C0 ∧ x.toNat % 2 ^ 16 < 10)

end Sys2Proof.Claims

/-! ### Class SEQ: system registers, control flow, faults -/

/-- R68 to R70, R390: MFSR. -/
def Sys2Proof.Claims.SystemRegisterReads : Prop :=
  ∀ (d : Fin 64) (num : BitVec 12) (s : State),
    (∀ x ∈ sysTable s, x.1 = num.toNat →
      (NoMark s .s d.val → (x.2.1 ≠ .hidden ∨ s.focus.r.flt.sup = true) → Writes (.mfsr d num) s d (BitVec.ofNat 64 x.2.2)) ∧
      (x.2.1 = .hidden → s.focus.r.flt.sup = false → Runs (.mfsr d num) s (s.raise (flt .priv num.toNat)))) ∧
    ((∀ x ∈ sysTable s, x.1 ≠ num.toNat) → Runs (.mfsr d num) s (s.raise (flt .illegal 0)))

/-- R69, R70, R391: MTSR writes a crew register at once and holds a core or package register for step 6; its traps. -/
def Sys2Proof.Claims.SystemRegisterWrites : Prop :=
  ∀ (num : BitVec 12) (a : Fin 64) (s : State),
    let x := s.focus.r.readS a
    (∀ e ∈ sysTable s, e.1 = num.toNat →
      (e.2.1 = .ro → Runs (.mtsr num a) s (s.raise (flt .illegal 0))) ∧
      ((e.2.1 = .sup ∨ e.2.1 = .hidden) → s.focus.r.flt.sup = false → Runs (.mtsr num a) s (s.raise (flt .priv num.toNat))) ∧
      ((e.2.1 = .user ∨ (e.2.1 ≠ .ro ∧ s.focus.r.flt.sup = true)) → NoMark s .s a.val →
        (OutOfRange num.toNat x → Runs (.mtsr num a) s (s.raise (flt .illegal 0))) ∧
        (¬ OutOfRange num.toNat x →
          (∀ w ∈ crewWrites s.focus.r x, w.1 = num.toNat → Runs (.mtsr num a) s (withCrew s w.2 s.focus.chunk)) ∧
          ((∀ w ∈ crewWrites s.focus.r x, w.1 ≠ num.toNat) → ActRuns (.mtsr num a) s (.sysreg num.toNat x) false)))) ∧
    ((∀ e ∈ sysTable s, e.1 ≠ num.toNat) → Runs (.mtsr num a) s (s.raise (flt .illegal 0)))

/-- R79: the frontier after a clause at h has issued for some of the threads of its entry. -/
def Obligations.FrontierUpdate : Prop :=
  ∀ (h : Addr) (lanes : List (Fin 32)) (next : Fin 32 → Addr × Bool) (redir : Bool) (l : List Entry) (E : Entry),
    lanes.Nodup → (l.map Entry.pc).Nodup → E ∈ l → E.pc = h →
    (∀ t ∈ lanes, hasLane E.threads t = true ∧ ∀ e ∈ l, hasLane e.threads t = true → e.pc = h) →
    let l' := advanceFrontier h lanes next redir l
    let back := fun (pc : Addr) => ∃ t ∈ lanes, next t = (pc, true) ∧ pc ≤ h
    (l'.map Entry.pc).Nodup ∧ (∀ e ∈ l', e.threads ≠ 0) ∧
    (∀ t ∈ lanes, ∃ e ∈ l', e.pc = (next t).1 ∧ hasLane e.threads t = true) ∧
    (∀ e ∈ l, ∀ t, t ∉ lanes → hasLane e.threads t = true → ∃ e' ∈ l', e'.pc = e.pc ∧ hasLane e'.threads t = true) ∧
    ∀ e ∈ l',
      (∀ t, hasLane e.threads t = true → (t ∈ lanes ∧ (next t).1 = e.pc) ∨ (t ∉ lanes ∧ ∃ o ∈ l, o.pc = e.pc ∧ hasLane o.threads t = true)) ∧
      (back e.pc → (∀ o ∈ l, o.stamp < e.stamp) ∧ ∀ o ∈ l', o.stamp ≤ e.stamp) ∧
      (¬ back e.pc → (∀ o ∈ l, o.pc = e.pc → (∀ t ∈ lanes, (next t).1 ≠ e.pc) → e.stamp = o.stamp) ∧
        ((∃ t ∈ lanes, (next t).1 = e.pc) → (∀ o ∈ l, o.pc = e.pc → e.stamp = max o.stamp E.stamp) ∧
          ((∀ o ∈ l, o.pc ≠ e.pc) → e.stamp = E.stamp)))

/-- R88: BRA, BRZ, BRNZ and BRQ. -/
def Obligations.Branches : Prop :=
  ∀ (s : State) (off24 : BitVec 24) (off12 : BitVec 12) (off20 : BitVec 20) (a : Fin 64) (q : Fin 8) (neg : Bool),
    let r := s.focus.r
    let take := fun (off : Int) (p : Bool) => if p then some (offTo s off) else none
    TransferRuns (.bra off24) s s (fun _ => some (offTo s off24.toInt)) ∧
    (NoMark s .s a.val → TransferRuns (.brz true a off12) s s (fun _ => take off12.toInt (r.readS a == 0)) ∧
      TransferRuns (.brnz true a off12) s s (fun _ => take off12.toInt (r.readS a != 0))) ∧
    (NoMark s .v a.val → TransferRuns (.brz false a off12) s s (fun t => take off12.toInt ((r.readV a t).val == 0)) ∧
      TransferRuns (.brnz false a off12) s s (fun t => take off12.toInt ((r.readV a t).val != 0))) ∧
    (NoMark s .q q.val → TransferRuns (.brq q neg off20) s s
      (fun t => take off20.toInt (xor ((r.readQ q t).getLsbD 0) neg)))

/-- R82, R89: JMPI checks every issuing thread's target and transfers, or takes the fault of the lowest failing lane. -/
def Sys2Proof.Claims.IndirectJump : Prop :=
  ∀ (s s1 : State) (a : Fin 64) (fs : List LaneFail),
    let ts := s.lanes.map fun t => (t, (s.focus.r.readV a t).val)
    NoMark s .v a.val → s.checkTargets true ts = (s1, fs) →
    (fs = [] → TransferRuns (.jmpi a) s s1 (laneTo ts)) ∧
    ∀ t c x, fs.head? = some (t, c, x) → Runs (.jmpi a) s (s1.raise ⟨c, x, some (laneSet (fs.map (·.1))), none⟩)

/-- R82: the checks of an indirect target, in the order of the table. -/
def Sys2Proof.Claims.TargetChecks : Prop :=
  ∀ (s s1 : State) (lp : Bool) (x : Dword),
    (x.toNat % 4 ≠ 0 → s.checkTarget lp x = (s, some .misalign)) ∧
    (x.toNat % 4 = 0 → 2 ^ 56 ≤ x.toNat → s.checkTarget lp x = (s, some .prot)) ∧
    (x.toNat % 4 = 0 → x.toNat < 2 ^ 56 →
      (∀ c, s.translate (s.space s.focus false) ⟨false, false, true⟩ x.toNat = (s1, .fault c) → s.checkTarget lp x = (s1, some c)) ∧
      ∀ w, s.fetchWord s.focus x.toNat 0 = (s1, .ok w) →
        s.checkTarget lp x = (s1.noteUse x.toNat, if lp = true ∧ w.getLsbD 4 = false then some .prot else none))

/-- R74, R89: CALL and CALLI push the return address in the thread's private slice and transfer. -/
def Sys2Proof.Claims.Calls : Prop :=
  ∀ (s : State) (off : BitVec 24) (a : Fin 64),
    let ret := s.clause.addr + BitVec.ofNat 57 (4 * (s.clause.header.count.val + 1))
    let pushed := fun (i : Instr) (s0 : State) (target : Fin 32 → Option Addr) => ∀ s1 ls,
      Probed forStore s0 s1
        (s.lanes.map fun t => ⟨some t, BitVec.ofNat 64 (2 ^ 56 + 3 * 2 ^ 32 + (s.focus.r.csp[t].toNat - 8)), 8, 0⟩) ls →
      BufferRoom s ls s.lanes.length →
      ∃ t, Runs i s t ∧
        t = { s1 with focus := { s1.focus with r := t.focus.r, chunk := t.focus.chunk, cur := turned s1.focus.cur } } ∧
        t.focus.r = { moved s target s.focus.r with
          csp := tab 32 fun u => if u ∈ s.lanes then s.focus.r.csp[u] - 8 else s.focus.r.csp[u]
          cdepth := tab 32 fun u => if u ∈ s.lanes then s.focus.r.cdepth[u] + 1 else s.focus.r.cdepth[u] } ∧
        ChunkFrame s1.focus.chunk t.focus.chunk ∧
        (Kept s = false → (∀ l ∈ ls, s.focus.chunk.keepsLine (lineOf l.key) = false) → t.focus.chunk.acts = s1.focus.chunk.acts) ∧
        (∀ l ∈ ls, sigHas t.focus.chunk.wsig (lineOf l.key) = true) ∧
        ∀ slot k, view t slot k = overlay (ls.flatMap fun l => (low 8 ret.toNat).map fun b => (l.key + b.1, b.2)) (view s1 slot) k
    s.focus.r.flt.sup = false → (∀ t ∈ s.lanes, 8 ≤ s.focus.r.csp[t].toNat ∧ s.focus.r.cdepth[t].toNat < 65535) →
    pushed (.call off) s (fun _ => some (offTo s off.toInt)) ∧
    (NoMark s .v a.val → ∀ s0, let ts := s.lanes.map fun t => (t, (s.focus.r.readV a t).val)
      s.checkTargets true ts = (s0, []) → pushed (.calli a) s0 (laneTo ts))

/-- R74, R90, R245: RET reads the return addresses once the partial copies of their lines have merged, checks them without the LP
check, and transfers to them. -/
def Sys2Proof.Claims.Returns : Prop :=
  ∀ (s s1 s2 s3 : State) (ps : List (Want × Probe)),
    let ls := (probeLocs ps).map (·.2)
    let ts := (s.lanes.zip ls).zipIdx.map fun x =>
      (x.1.1, BitVec.ofNat 64 (leNat (State.readLoc { s2 with free := s2.free + x.2 } x.1.2 8)))
    s.focus.r.flt.sup = false → (∀ t ∈ s.lanes, s.focus.r.cdepth[t] ≠ 0) →
    s.probeAll ⟨true, false, false⟩ false (s.lanes.map fun t => ⟨some t, privVa s.focus.r.csp[t].toNat, 8, 0⟩) = (s1, ps) →
    probeFault ps = none →
    ((s1.mapChunk (notePages ps)).mergeReads ls = (s2, false) → Runs .ret s s2.hold) ∧
    ((s1.mapChunk (notePages ps)).mergeReads ls = (s2, true) → s2.checkTargets false ts = (s3, []) → ∃ t, Runs .ret s t ∧
      t = { s3 with
        focus := { s3.focus with r := t.focus.r, chunk := t.focus.chunk, cur := turned s3.focus.cur }, free := t.free } ∧
      ChunkFrame s3.focus.chunk t.focus.chunk ∧ t.focus.chunk.buf = s3.focus.chunk.buf ∧ t.focus.chunk.acts = s3.focus.chunk.acts ∧
      (∀ l ∈ ls, l.region = .priv → isHbm l.key = true → sigHas t.focus.chunk.rsig (lineOf l.key) = true) ∧
      t.focus.r = { moved s (laneTo ts) s.focus.r with
        csp := tab 32 fun u => if u ∈ s.lanes then s.focus.r.csp[u] + 8 else s.focus.r.csp[u]
        cdepth := tab 32 fun u => if u ∈ s.lanes then s.focus.r.cdepth[u] - 1 else s.focus.r.cdepth[u] })

/-- R91, R325: EXIT. The wider objects' deductions wait for step 6.
Rests on readings and choices of the model (log entries 37 and 73). -/
def Obligations.ThreadExit : Prop :=
  ∀ s : State,
    let r := s.focus.r
    let g := s.clause.lanes
    let left := r.tmask &&& ~~~(r.emask ||| g)
    let arrived := r.barArrived &&& ~~~g
    ∃ t, Runs .exit s t ∧ t = { s with focus := { s.focus with r := t.focus.r, chunk := t.focus.chunk, cur := turned s.focus.cur } } ∧
      t.focus.chunk = { s.focus.chunk with
        acts := s.focus.chunk.acts ++ (if s.focus.enroll = [] then [] else [⟨s.origin, .exitLanes g⟩])
        ends := s.focus.chunk.ends || decide (left = 0) } ∧
      t.focus.r = { r with
        emask := r.emask ||| g
        csp := tab 32 fun u => if hasLane g u then 0 else r.csp[u]
        cdepth := tab 32 fun u => if hasLane g u then 0 else r.cdepth[u]
        frontier := (r.frontier.map fun e => { e with threads := e.threads &&& ~~~g }).filter fun e => e.threads != 0
        barArrived := t.focus.r.barArrived, barPhase := t.focus.r.barPhase, blocked := t.focus.r.blocked, waits := t.focus.r.waits } ∧
      (laneCount arrived ≠ laneCount left → t.focus.r.barArrived = arrived ∧ t.focus.r.barPhase = r.barPhase ∧
        t.focus.r.waits = r.waits ∧ t.focus.r.blocked = r.blocked &&& ~~~g) ∧
      (laneCount arrived = laneCount left → t.focus.r.barArrived = 0 ∧ t.focus.r.barPhase = r.barPhase + 1 ∧
        t.focus.r.waits = r.waits.filter (fun w => !(w.obj == none && w.phase == r.barPhase)) ∧
        ∀ u, hasLane t.focus.r.blocked u = true ↔ hasLane r.blocked u = true ∧ hasLane g u = false ∧
          KeepsBlock r r.barPhase u)

/-- R92, R93, R96, R35: SAFEPT, WAITF, NOP and REP.
Rests on readings and choices of the model (log entries 15, 84 and 99). -/
def Obligations.SafePointsWaitsRepeats : Prop :=
  ∀ (s : State) (off : BitVec 20) (mask : BitVec 12) (n : Fin 64) (step : BitVec 4) (i j : Instr),
    let r := s.focus.r
    let holds := { s with focus := { s.focus with cur := s.focus.cur.map fun c => { c with held := true } } }
    Runs .nop s s ∧
    (r.inflight = [] → Runs (.safept off) s (withCrew s { r with safecnt := 0 } s.focus.chunk)) ∧
    (r.inflight ≠ [] → Runs (.safept off) s holds) ∧
    ((∀ x ∈ r.inflight, mask.getLsbD x.flag.val = false) → Runs (.waitf mask) s (withCrew s
      { r with marks := r.marks.filter fun m => !(mask.getLsbD m.flag.val && hasLane s.clause.lanes m.lane) } s.focus.chunk)) ∧
    ((∃ x ∈ r.inflight, mask.getLsbD x.flag.val = true) → Runs (.waitf mask) s holds) ∧
    (s.clause.following = some i → stepInstr step n.val i = some j → (r.flt.sup = true ∨ r.safecnt + n.val + 1 < 4096) →
      Runs (.rep n step) s { s with focus := { s.focus with cur := s.focus.cur.map fun c => { c with rep := some ⟨0, n.val + 1, step⟩ } } }) ∧
    (s.clause.following.bind (stepInstr step n.val) = none → (r.flt.sup = true ∨ r.safecnt + n.val + 1 < 4096) →
      Runs (.rep n step) s (s.raise (flt .illegal 0))) ∧
    (r.flt.sup = false → 4096 ≤ r.safecnt + n.val + 1 → Runs (.rep n step) s (s.raise (flt .safedist 0)))

/-- R95, R385: BRK takes TRAP; every fault at issue rolls the chunk back and starts lane 0 alone at TRAPVEC. -/
def Sys2Proof.Claims.FaultTaken : Prop :=
  ∀ s : State, Faultable s →
    (∀ code : BitVec 12, ∃ t, Runs (.brk code) s t ∧ Taken s t 0x12 (BitVec.ofNat 64 (2 ^ 63 + code.toNat)) s.clause.lanes) ∧
    ∀ f : Flt, f.word = none → Taken s (s.raise f) f.code.num.toNat f.addr (f.lanes.getD s.clause.lanes)

/-- R387: a fault while the handler runs stops the crew, is logged with both codes, and ends the launch with status 2 and
the fault that the device delivered first. -/
def Sys2Proof.Claims.DoubleFault : Prop :=
  ∀ (s : State) (f : Flt) (v : TrapState), s.focus.task.kind ≠ .routine → s.focus.shadow.flt.sup = true →
    s.focus.trap = some v →
    let t := s.raise f
    t.focus.phase = .halted ∧ t.focus.cur = none ∧ t.focus.r = { s.focus.shadow with repc := 0 } ∧
    (∃ e ∈ t.hub.events, e.code = EvKind.num .doubleFault ∧
      e.datum = BitVec.ofNat 64 (v.cause.toNat % 256 * 256 + f.code.num.toNat)) ∧
    ∀ l ∈ s.sched.launches, l.uid = s.focus.task.launch → l.ended = none →
      ∃ l' ∈ t.sched.launches, l'.uid = l.uid ∧ l'.ended = some (2, v.cause.zeroExtend 64, v.addr)

/-- R25, R55, R388: HAZARD for a marked register of a uniform instruction, FORMAT for vector operands of different tags,
PRIV for RFT in user mode. -/
def Sys2Proof.Claims.IssueFaults : Prop :=
  ∀ (s : State) (d a b : Fin 64) (fs : Bool) (rx : Option Rx),
    (∀ p ∈ uniform2, ∀ x : Fin 64,
      ((x = a ∧ ¬ NoMark s .s a.val) ∨ (x = b ∧ NoMark s .s a.val ∧ ¬ NoMark s .s b.val) ∨
        (x = d ∧ NoMark s .s a.val ∧ NoMark s .s b.val ∧ ¬ NoMark s .s d.val)) →
      Runs (p.1 d a b) s (s.raise (flt .hazard (64 + x.val)))) ∧
    (∀ p ∈ int2Table, ∀ T t, (∀ u ∈ s.lanes, (oA a rx).tag s.focus.r u = T u) →
      Active s (rxGuard rx) (counts T) t → ((oB b rx).tag s.focus.r t ≠ T t ∨ tagInt (T t) = false) →
      Ready s (rxGuard rx) (counts T) [oA a rx, oB b rx] → DstFree s (rxGuard rx) (counts T) d →
      Runs (p.1 d a b fs rx) s (s.raise (flt .format 0))) ∧
    (s.focus.r.flt.sup = false → Runs .rft s (s.raise (flt .priv 0)))

/-- R68 to R70, R389 to R391, R395: the reads and the writes of system registers.
Rests on readings and choices of the model (log entries 22, 92 and 104). -/
def Obligations.SystemRegisters : Prop := SystemRegisterReads ∧ SystemRegisterWrites

/-- R82, R89: the indirect jump, and the checks of targets. -/
def Obligations.IndirectTransfers : Prop := IndirectJump ∧ TargetChecks

/-- R74, R89, R90: calls push and returns pop each thread's stack.
Rests on readings and choices of the model (log entries 38 and 83). -/
def Obligations.CallsAndReturns : Prop := Calls ∧ Returns

/-- R42, R208, R382 to R388: taking a fault, a double fault, and the faults of the instructions that always raise one.
Rests on readings and choices of the model (log entries 15, 16, 79 and 113). -/
def Obligations.FaultsTaken : Prop := FaultTaken ∧ DoubleFault ∧ IssueFaults

namespace Sys2Proof.Claims
open Sys2Proof.Machine

/-- Register group s[y] to s[y + n − 1]. -/
def group (y : Fin 64) (n : Nat) : List (Fin 64) := (List.range n).map fun k => y + ⟨k % 64, Nat.mod_lt _ (by decide)⟩

/-- A spawning word passes its checks (R257, R281, R282), which lead from `s` to `s2`: SAFEPT as word 1, last in its clause,
no marker on its registers, an entry that is a landing point, the live-mask record at offset `off`, and a pedigree with room for
`deep` levels. -/
structure SpawnOk (s s2 : State) (x : Fin 64) (uses : List (Fin 64)) (deep : Nat) (off : Int) (m : Option (BitVec 128)) : Prop where
  place : ∃ s1, s.clause.safeptOff = some off ∧ s.checkTarget true (s.focus.r.readS x) = (s1, none) ∧
    s1.liveRecord s.focus s.clause.addr off = (s2, .ok m)
  last : s.clause.idx = s.clause.header.count.val
  free : ∀ u ∈ x :: uses, NoMark s .s u.val
  rank : (lastLevel s.focus.r.pedigree).rank ≠ 65535
  depth : s.focus.r.pedigree.length + deep ≤ 32

/-- The parent's limit and the child's arena of a spawn (R276). -/
def arenas (split : Bool) (r : Regs) : Addr × Addr × Addr :=
  let mid := r.arenaBase + ((r.arenaLim - r.arenaBase) >>> 1 &&& ~~~127)
  if split then (mid, mid, r.arenaLim) else (r.arenaLim, r.arenaLim, r.arenaLim)

/-- The pedigree after a spawn, with the last level's rank advanced (R257). -/
def nextRank (pg : List Level) : List Level := pg.dropLast ++ [⟨(lastLevel pg).rank + 1, (lastLevel pg).mark⟩]

/-- A spawning word runs: its action in step 6, the parent's next strand and arena, the end of the chunk (R254 to R257). -/
def SpawnRuns (i : Instr) (s s2 : State) (split : Bool) (kind : ActKind) : Prop :=
  Runs i s { s2 with focus := { s2.focus with
    r := { s.focus.r with pedigree := nextRank s.focus.r.pedigree, srctr := 0, logSeq := 0, arenaLim := (arenas split s.focus.r).1 }
    chunk := { s2.focus.chunk with acts := s2.focus.chunk.acts ++ [⟨s.origin, kind⟩], ends := true } } }

/-- What a spawning word asks for, with its live mask and the place of that record (R263). -/
def request (s : State) (off : Int) (x : Fin 64) (args : List (Fin 64)) (split atom : Bool) (pg : List Level)
    (range : Option (Nat × Nat × Nat × Bool)) (m : Option (BitVec 128)) : SpawnReq :=
  let r := s.focus.r
  ⟨(r.readS x).truncate 57, args.map r.readS, s.clause.lanes, pg, r.rndmode, (arenas split r).2.1, (arenas split r).2.2, atom, range,
    if r.frontier.length = 1 then m else none, s.clause.addr + BitVec.ofInt 57 (4 * off)⟩

/-- The crew's views changed, and nothing else. -/
def withViews (s : State) (v : Views) : State := withCrew s { s.focus.r with views := v } s.focus.chunk

/-- A word that leads to `t` and uses view i there: the core's view store makes room (ViewStore says how), or the word raises VIEW
(R307). -/
def ViewRuns (w : Instr) (s t : State) (i : Fin 16) (addr : Dword) : Prop :=
  (∀ u, t.useView i = (u, true) → Runs w s u) ∧ ∀ u, t.useView i = (u, false) → Runs w s (u.raise ⟨.view, addr, none, none⟩)

/-- Issuing threads that block, and a barrier action of the chunk that ends it; an arrival or a byte count is a release at the
object's scope, which takes in every action before it (R222, R331). -/
def BarRuns (i : Instr) (s : State) (blocks : Bool) (rel : Option (Fin 8)) (kind : ActKind) : Prop :=
  Runs i s (withCrew s { s.focus.r with blocked := if blocks then s.focus.r.blocked ||| s.clause.lanes else s.focus.r.blocked }
    { s.focus.chunk with
      acts := s.focus.chunk.acts ++ [⟨s.origin, kind⟩], ends := true
      rels := s.focus.chunk.rels ++ rel.toList.map fun scope => ⟨s.focus.chunk.acts.length, scope.val, false⟩ })

/-- Arrival of the issuing threads at the crew object, of which `r` are the registers (R323, R325): the arrival mask grows; as
it holds every live thread, the phase passes and the threads that wait for it unblock, but for those that another wait holds. -/
def CrewArrival (s : State) (r w : Regs) : Prop :=
  let arrived := r.barArrived ||| s.clause.lanes
  (laneCount arrived ≠ laneCount (r.tmask &&& ~~~r.emask) → w = { r with barArrived := arrived }) ∧
  (laneCount arrived = laneCount (r.tmask &&& ~~~r.emask) →
    w = { r with barArrived := 0, barPhase := r.barPhase + 1, blocked := w.blocked
                 waits := r.waits.filter fun x => !(x.obj == none && x.phase == r.barPhase) } ∧
    ∀ u, hasLane w.blocked u = true ↔ hasLane r.blocked u = true ∧ KeepsBlock r r.barPhase u)

/-- A command for an engine runs: its action in step 6, its flag until the engine completes it, its destination marked (R23,
R25, R26). -/
def CommandRuns (i : Instr) (s : State) (fs : Bool) (dsts : List (Fin 64)) (post : Regs → Regs) (kind : Nat → ActKind) : Prop :=
  let flag := s.clause.flag fs
  Runs i s { s with
    uids := s.uids + 1
    focus := { s.focus with
      chunk := { s.focus.chunk with acts := s.focus.chunk.acts ++ [⟨s.origin, kind s.uids⟩], ends := true }
      r := post (held s flag (.engine s.uids) (dsts.map Dst.s) []) } }

/-- The flags operand of a copy is legal (R341). -/
def FlagsLegal (x : Nat) (fill : Bool) : Prop :=
  let scope := x / 2 ^ 11 % 8
  let obj := x / 2 ^ 14 % 16
  x < 2 ^ 18 ∧ x % 8 ≠ 7 ∧
    (x.testBit 10 = true → (scope = 1 ∨ (scope = 2 ∧ obj ≤ 7) ∨ ((scope = 3 ∨ scope = 4) ∧ obj ≤ 3))) ∧
    (x.testBit 10 = false → scope = 0 ∧ obj = 0) ∧ (x.testBit 5 = true ↔ x / 2 ^ 6 % 16 ≠ 0) ∧ ¬ (fill = true ∧ x.testBit 3 = true)

/-- A command for the tensor engine, with the rounding code, the counter and the key that it keeps; a draw of code 6
advances SRCTR (R355, R357). -/
def TenRuns (i : Instr) (s : State) (fs : Bool) (code : Nat) (op : TenOp) : Prop :=
  CommandRuns i s fs [] (fun r => if code = 6 then { r with srctr := r.srctr + 1 } else r)
    fun id => .ten id op code s.focus.r.srctr (pgkey s.focus.r.pedigree)

/-- The effective rounding code (R132). -/
def codeOf (s : State) (rnd : Nat) : Nat := if rnd = 0 then s.focus.r.rndmode.val else rnd

/-- The fields of a span word, and its legality with the further fields under `extra` (R360). -/
def rows (x : Dword) : Nat := x.toNat % 2 ^ 9
def cols (x : Dword) : Nat := x.toNat / 2 ^ 16 % 2 ^ 9
def SpanOk (extra x : Dword) : Prop :=
  x &&& ~~~(0x0000000101FF01FF ||| extra) = 0 ∧ 1 ≤ rows x ∧ rows x ≤ 256 ∧ 1 ≤ cols x ∧ cols x ≤ 256 ∧ x.toNat / 2 ^ 34 % 4 ≠ 3
/-- A span of r rows and c columns lies within the tiles and the row width (R353). -/
def Fits (f64 : Bool) (x : Fin 8) (r c : Nat) : Prop := x.val + (r + 31) / 32 ≤ 8 ∧ c ≤ if f64 then 128 else 256

/-- A span instruction: ILLEGAL, SHAPE, or its command (R360). -/
def SpanRuns (i : Instr) (s : State) (fs : Bool) (legal fits : Prop) (op : TenOp) : Prop :=
  (¬ legal → Runs i s (s.raise (flt .illegal 0))) ∧ (legal → ¬ fits → Runs i s (s.raise (flt .shape 0))) ∧
    (legal → fits → TenRuns i s fs 1 op)

/-- The registers of a list bear no marker. -/
def AllFree (s : State) (l : List (Fin 64)) : Prop := ∀ u ∈ l, NoMark s .s u.val

end Sys2Proof.Claims

/-! ### Class TSK -/

/-- R254 to R257, R269, R276, R281, R282: SPAWN, SPAWNR and SPAWNG; the PEDOVF of each: for SPAWNG of a member's depth, for SPAWNR of
the whole split tree. -/
def Obligations.Spawns : Prop :=
  ∀ (s s2 : State) (x y : Fin 64) (n die b : Fin 8) (gm : Fin 16) (split atom hint raft : Bool) (off : Int)
      (m : Option (BitVec 128)),
    let pg := s.focus.r.pedigree
    let lo := (s.focus.r.readS y).toNat
    let hi := (s.focus.r.readS (y + 1)).toNat
    let grain := max 1 (s.focus.r.readS (y + 2)).toNat
    (SpawnOk s s2 x (group y n.val) 1 off m → SpawnRuns (.spawn x y n split atom die hint) s s2 split
      (.spawn (request s off x (group y n.val) split atom (pg ++ [⟨0, 0⟩]) none m) (if hint then some die.val else none))) ∧
    (∀ k, hi - lo ≤ grain * 2 ^ k → SpawnOk s s2 x (y :: (y + 1) :: (y + 2) :: group (y + 3) n.val) (1 + k) off m →
      SpawnRuns (.spawnr x y n split atom) s s2 split
        (.spawn (request s off x (group (y + 3) n.val) split atom (pg ++ [⟨0, 0⟩]) (some (lo, hi, grain, split)) m) none)) ∧
    (SpawnOk s s2 x (group y n.val) 2 off m → SpawnRuns (.spawng x y n b gm raft split) s s2 split
      (.gang (request s off x (group y n.val) split false pg none m) (gm.val + 1) raft b)) ∧
    let overflows := fun (i : Instr) (uses : List (Fin 64)) (deep : Prop) =>
      ∀ s1, s.clause.safeptOff = some off → s.clause.idx = s.clause.header.count.val → AllFree s (x :: uses) →
        s.checkTarget true (s.focus.r.readS x) = (s1, none) → s1.liveRecord s.focus s.clause.addr off = (s2, .ok m) →
        ((lastLevel pg).rank = 65535 ∨ deep) → Runs i s (s2.raise (flt .pedovf 0))
    overflows (.spawn x y n split atom die hint) (group y n.val) (32 ≤ pg.length) ∧
    (∀ k, overflows (.spawnr x y n split atom) (y :: (y + 1) :: (y + 2) :: group (y + 3) n.val)
      (32 ≤ pg.length ∨ (grain * 2 ^ k < hi - lo ∧ 31 ≤ pg.length + k))) ∧
    overflows (.spawng x y n b gm raft split) (group y n.val) (31 ≤ pg.length)

/-- R257, R264, R275, R284, R285: SYNC, PGRD, PGKEY and PRNG. -/
def Obligations.SyncPedigreeRandom : Prop :=
  ∀ (s : State) (d a : Fin 64) (j : Fin 4) (f32 fs : Bool),
    let r := s.focus.r
    let last := lastLevel r.pedigree
    let mix := fun (x : Dword) =>
      let x := (x ^^^ x >>> 31) * 0x9E6F1C3B57A42D8D
      let x := (x ^^^ x >>> 29) * 0xC2B74E19A63F0B27
      x ^^^ x >>> 32
    let key := r.pedigree.zipIdx.foldl (fun k l => mix (k ^^^ BitVec.ofNat 64 ((l.1.rank.toNat * 2 ^ 16 + l.1.mark.toNat) * 2 ^ 32 + (l.2 + 1))))
      0x5A17C3D20B9E6F41
    let draw := fun (t : Fin 32) => mix (key ^^^ (r.readS a <<< 7 ||| BitVec.ofNat 64 (4 * t.val + j.val)))
    r.pedigree.length ≤ 32 →
    (s.clause.idx = s.clause.header.count.val → last.rank ≠ 65535 → Runs .sync s (withCrew s
      { r with pedigree := r.pedigree.dropLast ++ [⟨last.rank + 1, last.rank + 1⟩], srctr := 0, logSeq := 0 }
      { s.focus.chunk with acts := s.focus.chunk.acts ++ [⟨s.origin, .sync⟩], ends := true })) ∧
    (NoMark s .s d.val →
      Writes (.pgrd d a true) s d (BitVec.ofNat 64 r.pedigree.length) ∧ Writes (.pgkey d) s d key ∧
      (NoMark s .s a.val → Writes (.pgrd d a false) s d (match r.pedigree[(r.readS a).toNat]? with
        | some l => BitVec.ofNat 64 (l.rank.toNat * 2 ^ 16 + l.mark.toNat)
        | none => 0))) ∧
    (NoMark s .s a.val → NoMark s .v d.val → Room s d → ∃ f : Fin 32 → Nat → Nat,
      (f32 = false → ∀ t e, f t e = (draw t).toNat) ∧
      (f32 = true → ∀ t, ∀ e < 2, rat (fdecode tF32 0 (f t e)) = (((draw t).toNat / 2 ^ (40 - 32 * e) % 2 ^ 24 : Nat) : ℚ) / 2 ^ 24) ∧
      VRuns (.prng d a j f32 fs) s d ⟨false, 0⟩ (fun _ => if f32 then 2 else 1) (fun _ => if f32 then tF32 else tZ64)
        (some (s.clause.flag fs, .plain)) id (fun t e => some (f t e)) noFlags)

/-- R232, R233, R276 to R279, R287, R393, R388: PALLOC, PLOG, CHUNK, CHKST, TRAP and RFT. -/
def Obligations.ArenaLogChunkTrap : Prop :=
  ∀ (s : State) (d a : Fin 64) (k : Fin 16) (code : BitVec 12),
    let r := s.focus.r
    let ch := s.focus.chunk
    (∀ base : Nat, r.arenaBase.toNat ≤ base → 2 ^ k.val ∣ base → base < r.arenaBase.toNat + 2 ^ k.val → NoMark s .s a.val → NoMark s .s d.val →
      let top := base + (r.readS a).toNat
      (top ≤ r.arenaLim.toNat → top < 2 ^ 57 → Runs (.palloc d a k) s (withCrew s
        { wrote r d (BitVec.ofNat 64 base) with arenaBase := BitVec.ofNat 57 top } ch)) ∧
      ((r.arenaLim.toNat < top ∨ 2 ^ 57 ≤ top) → Runs (.palloc d a k) s (s.raise (flt .arena base)))) ∧
    (AllFree s (group a 4) → Runs (.plog a) s (withCrew s { r with logSeq := r.logSeq + 1 }
      { ch with acts := ch.acts ++ [⟨s.origin, .plog r.logSeq r.pedigree ((group a 4).map r.readS)⟩] })) ∧
    Runs .chunk s (withCrew s r { ch with ends := true }) ∧
    (NoMark s .s d.val → ch.issued < 2 ^ 13 → ch.lines < 2 ^ 6 → ch.logUnits < 2 ^ 9 → s.focus.replay.soft < 8 →
      Writes (.chkst d) s d (BitVec.ofNat 64 (ch.issued + ch.lines * 2 ^ 13 + ch.logUnits * 2 ^ 19 + s.focus.replay.soft * 2 ^ 28 +
        s.focus.replay.replay.toNat * 2 ^ 31 + min 15 s.focus.replay.conf * 2 ^ 32 + s.focus.replay.excl.toNat * 2 ^ 36 +
        s.focus.replay.ferried.toNat * 2 ^ 37))) ∧
    ActRuns (.trap code) s (.trap code.toNat) true ∧
    (r.flt.sup = true → ActRuns .rft s .rft true)

/-- R295, R297, R304, R305: a contribution is merged into the touched view of its reducer and leaves the other views alone;
sums are exact. -/
def Sys2Proof.Claims.ReducerFolds : Prop :=
  ∀ (kind : Nat) (i j : Fin 16) (v : Views) (x y : ViewVal),
    (j ≠ i → (v.fold kind i y).get j = v.get j) ∧
    (v.get i = none → (v.fold kind i y).get i = some y) ∧
    (v.get i = some x → (v.fold kind i y).get i = some (mergeView kind x y)) ∧
    (∀ a b n p q n' p' q', mergeView kind (.esum32 a n p q) (.esum32 b n' p' q') = .esum32 (a + b) (n || n') (p || p') (q || q')) ∧
    (∀ a b n p q n' p' q', mergeView kind (.esum64 a n p q) (.esum64 b n' p' q') = .esum64 (a + b) (n || n') (p || p') (q || q')) ∧
    (∀ a b, mergeView kind (.isum a) (.isum b) = .isum (a + b)) ∧
    (∀ a b ia ib m n, let X := ViewVal.pick a ia m; let Y := ViewVal.pick b ib n
      let less := fun (p q : BitVec 32) => below true (fdecode tF32 0 p.toNat) (fdecode tF32 0 q.toNat)
      let wins := (m = true ∧ n = false) ∨ (m = false ∧ n = false ∧ if kind = 5 then less a b else less b a)
      (m = false → n = false → ¬ nan (fdecode tF32 0 a.toNat) ∧ ¬ nan (fdecode tF32 0 b.toNat)) →
      (wins → mergeView kind X Y = Y) ∧ (¬ wins → mergeView kind X Y = X)) ∧
    ∀ n : Nat, (∀ T ∈ [tF32, tF16, tBF16, tF64], let z := fdecode T 0 n
      let big := T == tF64
      (nan z → esumOne big z = if big then .esum64 0 true false false else .esum32 0 true false false) ∧
      (∀ neg, z = .inf neg → esumOne big z = if big then .esum64 0 false (!neg) neg else .esum32 0 false (!neg) neg) ∧
      (∀ neg m e, z = .num neg m e → ∃ k : ℤ, (k : ℚ) = rat z * 2 ^ (if big then 1074 else 149) ∧
        esumOne big z = if big then .esum64 (BitVec.ofInt 2176 k) false false false else .esum32 (BitVec.ofInt 320 k) false false false)) ∧
      ∀ ix : BitVec 32, (nan (fdecode tF32 0 (n % 2 ^ 32)) → pickOne (BitVec.ofNat 32 n) ix = .pick 0x7FC00000 ix true) ∧
        (¬ nan (fdecode tF32 0 (n % 2 ^ 32)) → pickOne (BitVec.ofNat 32 n) ix = .pick (BitVec.ofNat 32 n) ix false)

/-- R10, R298: a view that is used stands first in its core's view store of 64 KiB and in no frame; while the store holds what it
has to, nothing else happens, and where it makes room it does so until the rest fits. -/
def Sys2Proof.Claims.ViewStore : Prop :=
  ∀ (s t : State) (i : Fin 16),
    let c := s.focus
    let size := fun (s : State) (x : Nat × Fin 16) => ((s.viewOf x).map fun v => v.image.length).getD 0
    let l := ((c.uid, i) :: (s.coreAt c.core).viewStore.filter (· ≠ (c.uid, i))).filter fun x => (s.viewOf x).isSome
    (c.r.views.get i = none → s.useView i = (s, true)) ∧
    (c.r.views.get i ≠ none →
      ((l.map (size s)).sum ≤ 2 ^ 16 → s.useView i = ({ s with
        cores := s.cores.modify c.core fun k => { k with viewStore := l }
        sched := { s.sched with launches := s.sched.launches.map fun x => if x.uid = c.task.launch then
          { x with frames := x.frames.filter fun f => !(f.crew == c.uid && f.use == .view i) } else x } }, true)) ∧
      (s.useView i = (t, true) → ((t.coreAt c.core).viewStore.map (size t)).sum ≤ 2 ^ 16))

/-- R304 to R306: VIEW, RDACC and RDGET on a declared reducer, and the VIEW fault of a kind that the word does not fit. -/
def Sys2Proof.Claims.ReducerInstructions : Prop :=
  ∀ (s : State) (i : Fin 16) (a b d : Fin 64) (op q : Fin 8) (neg fs : Bool) (e : RedEntry),
    s.redEntry i = some e → 1 ≤ e.kind → e.kind ≤ 7 →
    let r := s.focus.r
    let k := e.kind
    let pair := k = 4 ∨ k = 5
    let addr := r.redtab + BitVec.ofNat 64 (32 * i.val)
    let g : Guard := ⟨neg, q⟩
    let n := fun (t : Fin 32) => tagCount (r.readV a t).tag
    let L := s.lanes.filter fun t => (List.range (n t)).any (posActive r g (n t) t)
    let one := fun (t : Fin 32) (p : Nat) =>
      let x := elemOf (tagWidth (r.readV a t).tag) p (r.readV a t).val
      if k = 3 then ViewVal.isum (BitVec.ofInt 128 (intOf (r.readV a t).tag x))
      else if k = 4 ∨ k = 5 then pickOne (BitVec.ofNat 32 x) (BitVec.ofNat 32 (elemOf 32 p (r.readV b t).val))
      else esumOne (k == 2) (fdecode (r.readV a t).tag 0 x)
    let tagOk := fun (T : Fin 16) => match k with
      | 1 => T = tF32 ∨ T = tF16 ∨ T = tBF16 | 2 => T = tF64 ∨ T = tF32 ∨ T = tF16 ∨ T = tBF16 | 3 => tagInt T = true | _ => T = tF32
    (k ≤ 5 → NoMark s .s a.val → (pair → NoMark s .s b.val) → ViewRuns (.view i a b 0) s (withViews s (r.views.fold k i
      (if k = 3 then .isum ((r.readS a).signExtend 128)
        else if k = 4 ∨ k = 5 then pickOne ((r.readS a).truncate 32) ((r.readS b).truncate 32)
        else if k = 2 then esumOne true (fdecode tF64 0 (r.readS a).toNat) else esumOne false (fdecode tF32 0 ((r.readS a).toNat % 2 ^ 32)))))
      i addr) ∧
    (k = 6 → AllFree s [a, b, b + 1] → ∀ s1 ls, (r.readS a).toNat % 32 = 0 →
      Probed forStore s s1 [⟨none, r.readS a, 32, 0⟩] ls → ∃ ch,
        ViewRuns (.view i a b 1) s { s1 with focus := { s1.focus with
          r := { r with views := r.views.fold 6 i (.app (r.readS a) (r.readS a) (r.readS (b + 1)) 1) }, chunk := ch } } i addr ∧
        ChunkFrame s.focus.chunk ch ∧ ch.acts = s.focus.chunk.acts ++ [⟨s.origin, .viewApp (r.readS a) (r.readS b)
          (r.readS (b + 1)) (match r.views.get i with | some (.app _ tl _ _) => some tl | _ => none)⟩]) ∧
    (k = 7 → AllFree s (group a 8) →
      (r.views.get i = none → ∃ im : BitVec 512, (∀ j < 8, im.extractLsb' (64 * j) 64 = r.readS (a + ⟨j % 64, Nat.mod_lt _ (by decide)⟩)) ∧
        ViewRuns (.view i a b 2) s (withViews s (r.views.fold 7 i (.usr im))) i addr) ∧
      (r.views.get i ≠ none → Runs (.view i a b 2) s { s with focus := { s.focus with cur := s.focus.cur.map fun c => { c with held := true } } })) ∧
    (NoMark s .q q.val → FreeIn s .v a.val L → (pair → FreeIn s .v b.val L) → k ≤ 5 →
      (∀ t ∈ L, tagOk (r.readV a t).tag ∧ (pair → (r.readV b t).tag = 7)) →
      ViewRuns (.rdacc i a b q neg) s (withViews s ((L.flatMap fun t => ((List.range (n t)).filter (posActive r g (n t) t)).map (one t)).foldl
        (fun v y => v.fold k i y) r.views)) i 0) ∧
    (let m := if k = 6 then 3 else if k = 7 then 8 else 1
      let x := readView k (r.views.get i)
      AllFree s (group d m) → d.val + m ≤ 64 → (lastLevel r.pedigree).rank = (lastLevel r.pedigree).mark →
      let w := (group d m).foldl (fun r x => r.markDst s.lanes (s.clause.flag fs) (.s x)) r
      ViewRuns (.rdget d i fs) s (withCrew s { w with
        inflight := w.inflight ++ [⟨s.clause.flag fs, .plain, ((group d m).zip x.1).map fun w => RegWrite.s w.1 w.2, x.2, false, []⟩] }
        s.focus.chunk) i 0) ∧
    (NoMark s .s a.val → NoMark s .s b.val → k = 6 ∨ k = 7 → Runs (.view i a b 0) s (s.raise ⟨.view, addr, none, none⟩))

/-- R319 to R331: BAR, BARA, BARW, BARI and BARB: the crew object at issue, wider objects in step 6.
Rests on readings and choices of the model (log entries 36 and 88). -/
def Obligations.BarrierInstructions : Prop :=
  ∀ (s : State) (d a : Fin 64) (scope : Fin 8) (b : Fin 16) (e : Enroll),
    let r := s.focus.r
    let g := s.clause.lanes
    (∀ o ∈ s.focus.enroll, o.obj.scope ≠ 0) →
    (r.barArrived &&& g = 0 →
      (∃ w, CrewArrival s { r with blocked := r.blocked ||| g, waits := r.waits ++ [⟨none, r.barPhase, g⟩] } w ∧
        Runs (.bar 0 0) s (withCrew s w s.focus.chunk)) ∧
      (NoMark s .s d.val → ∃ w, CrewArrival s (r.writeS d (r.barPhase.zeroExtend 64)) w ∧ Runs (.bara d 0 0) s (withCrew s w s.focus.chunk))) ∧
    (NoMark s .s a.val → Runs (.barw a 0 0) s (withCrew s
      (if r.barPhase = (r.readS a).truncate 16 then { r with blocked := r.blocked ||| g, waits := r.waits ++ [⟨none, r.barPhase, g⟩] } else r)
      s.focus.chunk)) ∧
    (s.focus.task.kind = .member ∨ s.focus.task.kind = .resident → s.enrolledObj scope b.val = some e →
      (scope = 1 ∨ (scope = 2 ∧ b.val ≤ 7) ∨ ((scope = 3 ∨ scope = 4) ∧ b.val ≤ 3) ∨ (scope = 5 ∧ b.val ≤ 1)) →
      (e.mask &&& g = 0 →
        BarRuns (.bar scope b) s true (some scope) (.bar e.obj g) ∧
        (NoMark s .s d.val → BarRuns (.bara d scope b) s false (some scope) (.bara e.obj g d))) ∧
      (NoMark s .s a.val → BarRuns (.barw a scope b) s true none (.barw e.obj g ((r.readS a).truncate 16)) ∧
        BarRuns (.barb a scope b) s false (some scope) (.barb e.obj (r.readS a)))) ∧
    (s.focus.task.kind = .member ∨ s.focus.task.kind = .resident → s.enrolledObj scope b.val = none →
      s.enrolledSoon.length < 4 → objectAt s.focus.core scope b.val ∉ s.enrolledSoon →
      (scope = 1 ∨ (scope = 2 ∧ b.val ≤ 7) ∨ ((scope = 3 ∨ scope = 4) ∧ b.val ≤ 3) ∨ (scope = 5 ∧ b.val ≤ 1)) → NoMark s .s a.val →
      BarRuns (.bari a scope b) s false none
        (.bari ⟨scope, if scope = 1 then s.focus.core else if scope = 2 then s.focus.core / 4 else if scope = 3 then s.focus.core / 36 else 0,
          b.val⟩ (r.readS a) (scope.val + 8 * b.val) false))

/-! ### Classes BRG and TEN -/

/-- R341, R347 to R350: the copy and tag commands.
Rests on readings and choices of the model (log entry 104). -/
def Obligations.CopyCommands : Prop :=
  ∀ (s : State) (x y tag : Fin 64) (w : Fin 32) (fs : Bool),
    let r := s.focus.r
    let f := r.readS ⟨w.val, by omega⟩
    (AllFree s [x, y, ⟨w.val, by omega⟩] →
      (FlagsLegal f.toNat false → CommandRuns (.cpy x y tag w fs) s fs [] id fun n => .brg n (.cpy (r.readS x) (r.readS y) tag f)) ∧
      (FlagsLegal f.toNat true → CommandRuns (.cpyf x y tag w fs) s fs [] id fun n => .brg n (.cpyf (r.readS x) (r.readS y) tag f)) ∧
      (¬ FlagsLegal f.toNat false → Runs (.cpy x y tag w fs) s (s.raise (flt .illegal 0))) ∧
      (¬ FlagsLegal f.toNat true → Runs (.cpyf x y tag w fs) s (s.raise (flt .illegal 0)))) ∧
    (AllFree s [x, y] →
      (r.readS y ≠ 0 → CommandRuns (.wtagany x y fs) s fs [x] id fun n => .brg n (.waitAny x (r.readS y))) ∧
      (r.readS y = 0 → Runs (.wtagany x y fs) s (s.raise (flt .illegal 0))) ∧
      CommandRuns (.wtagall x y fs) s fs [x] id (fun n => .brg n (.waitAll x (r.readS y))) ∧
      CommandRuns (.tagff x y fs) s fs [x] id fun n => .brg n (.tagFf x (r.readS y))) ∧
    (NoMark s .s y.val → CommandRuns (.tagclr y fs) s fs [] id fun n => .brg n (.tagClr (r.readS y)))

/-- R355, R359, R360, R366, R368, R372 to R378: the tensor commands.
Rests on readings and choices of the model (log entry 104). -/
def Obligations.TensorCommands : Prop :=
  ∀ (s : State) (x y n : Fin 8) (u v z : Fin 64) (w : Fin 32) (rnd : Fin 8) (op : Fin 4) (p1 p2 fs : Bool),
    let r := s.focus.r
    let ww : Fin 64 := ⟨w.val, by omega⟩
    let member := s.memberOf s.focus.core
    let alone := r.gang = 0 ∨ r.gang = BitVec.ofNat 4 (2 ^ member)
    let ganged := r.gang.getLsbD member = true ∧ (∀ k < 4, r.gang.getLsbD k = true → k < (s.raftMembers (s.focus.core / 4)).length) ∧
      (s.focus.task.kind = .member ∨ s.focus.task.kind = .resident)
    let count := ((List.range 4).filter r.gang.getLsbD).length
    TenRuns (.tzero x n fs) s fs 1 (.zero x (n.val + 1)) ∧
    (NoMark s .s u.val → TenRuns (.tld x u fs) s fs 1 (.ld x (r.readS u)) ∧
      TenRuns (.tst x u rnd p1 fs) s fs (codeOf s rnd.val) (.st x (r.readS u) p1)) ∧
    (AllFree s [u, v] →
      (alone → p2 = false → TenRuns (.tmma x u v p1 p2 fs) s fs 1 (.mma x (r.readS u) (r.readS v) p1 p2 0)) ∧
      (¬ alone → ganged → (p2 = true → count = 2) → TenRuns (.tmma x u v p1 p2 fs) s fs 1 (.mma x (r.readS u) (r.readS v) p1 p2 r.gang)) ∧
      (¬ alone → ¬ ganged → Runs (.tmma x u v p1 p2 fs) s (s.raise (flt .gang 0)))) ∧
    (alone → TenRuns (.tgang fs) s fs 1 (.gang 0)) ∧ (¬ alone → ganged → TenRuns (.tgang fs) s fs 1 (.gang r.gang)) ∧
    (AllFree s [u, v, z, ww] → ∀ W : Nat, W = (r.readS ww).toNat →
      W / 2 ^ 9 % 2 ^ 23 = 0 → W % 16 ≤ 6 → W / 16 % 16 ≤ 6 → (W % 16 = 6 ∨ W / 2 ^ 32 = 0) → (z ≠ 0 → W % 16 ≠ 0) →
      (z = 0 → W % 16 = 0 ∨ W % 16 = 6) →
      TenRuns (.tsweep u v z w fs) s fs (codeOf s (W / 16 % 16)) (.sweep (r.readS u) (r.readS v) (if z = 0 then none else some (r.readS z)) (r.readS ww))) ∧
    (NoMark s .s ww.val → let sp := r.readS ww
      SpanRuns (.tred x y op w fs) s fs (SpanOk 0x0000FF0000000000 sp)
        (Fits (sp.getLsbD 32) y (rows sp) (cols sp) ∧ Fits (sp.getLsbD 32) x (rows sp) (sp.toNat / 2 ^ 40 % 2 ^ 8 + 1)) (.red x y op sp)) ∧
    (AllFree s (group u 4) → let sp := r.readS u
      SpanRuns (.tfact x u fs) s fs (SpanOk 0x0000002000000000 sp)
        (Fits (sp.getLsbD 32) x (rows sp) (cols sp) ∧ rows sp = cols sp ∧ rows sp ≤ if sp.getLsbD 32 then 64 else 128)
        (.fact x sp (r.readS (u + 1)) (r.readS (u + 2)) (r.readS (u + 3)))) ∧
    (NoMark s .s z.val → let sp := r.readS z
      SpanRuns (.ttrs x y z fs) s fs (SpanOk 0x0000001C00000000 sp ∧ ¬ (sp.getLsbD 36 = true ∧ sp.toNat / 2 ^ 34 % 4 = 2))
        (Fits (sp.getLsbD 32) x (rows sp) (rows sp) ∧ Fits (sp.getLsbD 32) y (rows sp) (cols sp) ∧
          (32 * x.val + rows sp ≤ 32 * y.val ∨ 32 * y.val + rows sp ≤ 32 * x.val) ∧ rows sp ≤ if sp.getLsbD 32 then 64 else 128)
        (.trs x y sp) ∧
      SpanRuns (.tmov x y z p1 fs) s fs (SpanOk 0 sp) (Fits (sp.getLsbD 32) y (rows sp) (cols sp) ∧
        if p1 then Fits (sp.getLsbD 32) x (cols sp) (rows sp) else Fits (sp.getLsbD 32) x (rows sp) (cols sp)) (.mov x y sp p1) ∧
      (NoMark s .s u.val → SpanRuns (.tscl x u z p1 p2 fs) s fs (SpanOk 0 sp) (Fits (sp.getLsbD 32) x (rows sp) (cols sp))
        (.scl x (r.readS u) sp p1 p2)))

/-- R10, R287 to R298, R302 to R307: what a view folds, the view store, and the reducer instructions.
Rests on readings and choices of the model (log entries 16, 18, 47 and 93). -/
def Obligations.Reducers : Prop := ReducerFolds ∧ ViewStore ∧ ReducerInstructions

namespace Sys2Proof.Claims
open Sys2Proof.Machine

/-- An event of crew `c` changes the machine, with that crew brought into focus, into `t`; the focus then returns. -/
def Turns (i : Instr) (c : Nat) (s t : State) : Prop := (s.crew? c).isSome → Runs i s (t.focusOn s.focus.uid)

/-! ### Frontier selection -/

/-- A step-6 action is over: it leaves the list, and the releases count one action less before them. -/
def popped (ch : Chunk) : Chunk := { ch with acts := ch.acts.drop 1, rels := ch.rels.map fun m => { m with acts := m.acts - 1 } }

/-- The frontier may select for the crew in focus: it issues no clause, no word of it waits for the special-function unit (R165),
its chunk has not ended, it stands in a slot. -/
structure Selecting (b : State) : Prop where
  phase : b.focus.phase = .run
  between : b.focus.cur = none ∧ b.focus.chunk.ends = false ∧ ∀ y ∈ b.focus.r.inflight, y.kind ≠ .sfu false
  slot : ∃ k j, b.focus.place = .slot k j
  pcs : (b.focus.r.frontier.map Entry.pc).Nodup

/-- The crew has nothing to do before its next clause: no fault that waits, no reducer table to check, no range, and not
so many rollbacks that it asks for exclusive mode (R206, R269, R293, R386). -/
structure Unhindered (b : State) : Prop extends Selecting b where
  post : b.focus.post = []
  table : b.focus.r.redtab = 0 ∨ b.focus.r.flt.sup = true ∨ b.focus.chunk.clauses ≠ 0
  range : b.focus.task.range = none ∨ b.focus.r.flt.sup = true
  conf : b.focus.replay.conf < 16 ∨ b.focus.replay.excl = true ∨ b.focus.replay.replay = false ∨ b.focus.chunk.clauses ≠ 0

/-- The threads of an entry that would issue. -/
def ready (b : State) (e : Entry) : Lanes := e.threads &&& ~~~b.focus.r.blocked

/-- An entry is eligible (R77): no redirect is outstanding, a thread would issue, and where the header's word `h` can be fetched,
every completion flag that its WAIT (bits 24:13, R17) names is clear, and before a SAFEPT nothing is in flight. -/
def Eligible (b : State) (e : Entry) : Prop :=
  e.redir = false ∧ ready b e ≠ 0 ∧ ∀ h, b.peekWord b.focus e.pc = some h →
    (∀ x ∈ b.focus.r.inflight, h.testBit (13 + x.flag.val) = false) ∧
      (b.peekSafept b.focus e.pc ≠ none → b.focus.r.inflight = [])

/-- R78: the lower stamp, then the higher PRI (bits 2:0 of the header, R17), then the lower PC. -/
def Earlier (b : State) (x y : Entry) : Prop :=
  let pri := fun (e : Entry) => match b.peekWord b.focus e.pc with
    | some h => h % 8
    | none => 0
  x.stamp < y.stamp ∨ (x.stamp = y.stamp ∧ (pri y < pri x ∨ (pri x = pri y ∧ x.pc < y.pc)))

/-- The crew stops at the entry: its chunk ended before the SAFEPT there for pre-emption, and has committed (R86). -/
def StopsHere (b : State) (e : Entry) : Prop :=
  b.focus.chunk.clauses = 0 ∧ b.focus.chunk.stop = some e.pc ∧ b.stopsAt b.focus e = true

/-- The frontier takes the entry: the one at which the crew stops (R86), after a rollback the one at the chunk's first clause
(R208), else the eligible one that R78 puts first. -/
def Picks (b : State) (e : Entry) : Prop :=
  e ∈ b.focus.r.frontier ∧ (StopsHere b e ∨ (∀ x ∈ b.focus.r.frontier, ¬ StopsHere b x) ∧ Eligible b e ∧
    ((b.focus.replay.replay = true ∧ b.focus.chunk.clauses = 0 ∧ e.pc = b.focus.chunk.first) ∨
      ((b.focus.replay.replay = true → b.focus.chunk.clauses = 0 → ∀ x ∈ b.focus.r.frontier, x.pc ≠ b.focus.chunk.first) ∧
        ∀ x ∈ b.focus.r.frontier, x ≠ e → Eligible b x → Earlier b e x)))

/-- The handler's first clause can be entered (R387). -/
def HandlerOk (b : State) (e : Entry) : Prop :=
  b.focus.r.flt.sup = true → e.pc = (b.coreAt b.focus.core).trapvec → ∃ b' w, b.fetchWord b.focus e.pc.toNat 0 = (b', .ok w) ∧ w.getLsbD 4 = true

/-- The crew in focus as its next chunk begins at an entry (R69, R193, R198, R209): the shadow is taken, the chunk is
empty with the core's CHKLEN and CHKRETRY, and what is in flight outlives a rollback (R26). -/
def begun (b : State) (e : Entry) : State :=
  let r := { b.focus.r with inflight := b.focus.r.inflight.map fun x => { x with old := true } }
  let core := b.coreAt b.focus.core
  let again := b.focus.replay.replay = true ∧ b.focus.chunk.first = e.pc
  { b with focus := { b.focus with
      r := r, shadow := r
      chunk := { Chunk.empty with
        first := e.pc
        len := if again then b.focus.chunk.len else core.chklen
        retry := if again then b.focus.chunk.retry else core.chkretry } } }

/-- The clause of an entry, fetched in `b` with `b1` left, comes into issue (R22, R25, R81): its header's WAIT clears the
markers of the issuing threads that record its flags; the chunk has used the pages of its first and last word (R186). -/
def issued (b b1 : State) (e : Entry) (h : Header) (ws : List (BitVec 32)) : State :=
  let b2 := (b1.noteUse e.pc.toNat).noteUse (e.pc.toNat + 4 * ws.length)
  { b2 with focus := { b2.focus with
      r := { b2.focus.r with marks := b2.focus.r.marks.filter fun m => !(h.wait.getLsbD m.flag.val && hasLane (ready b e) m.lane) }
      chunk := { b2.focus.chunk with clauses := b2.focus.chunk.clauses + 1 }
      cur := some ⟨e.pc, h, ws, 1, ready b e, none, none, false, false⟩ } }

/-- The boundary test of R193, with the bounds of R195 on the lines and the undo log that the clause may take. -/
def Boundary (b : State) (e : Entry) (h : Header) (ws : List (BitVec 32)) : Prop :=
  let ch := b.focus.chunk
  let x := clauseBounds (laneList (ready b e)).length ch.logV (clauseInstrs h.cls 16 1 (ws.map BitVec.toNat))
  ch.len.toNat ≤ ch.issued ∨ 32 < ch.lines + x.1 ∨ 256 < ch.logUnits + x.2 ∨ h.cb = true ∨ b.stopsAt b.focus e = true

/-! ### Completions -/

/-- The instruction in flight `y` completes (R23): its writes are made, its flags set, its count falls. An s register that a later
issue has written keeps that value (R63); the shadow may know of fewer such issues. -/
def finish (y : Inflight) (r : Regs) : Regs :=
  match r.inflight.find? fun x => decide ({ x with lost := y.lost } = y) with
  | none => r
  | some x =>
    { r.applyAll (x.writes.filter fun w => match w with | .s d _ => !x.lost.contains d | _ => true) with
      inflight := r.inflight.erase x, fpflags := r.fpflags ||| x.fp }

/-- A crew in slot `j` of a core has an instruction that waits for the special-function unit. -/
def SfuWaits (s : State) (core j : Nat) : Prop :=
  ∃ x ∈ s.crews, x.uid ≠ 0 ∧ x.place = .slot core j ∧ ∃ y ∈ x.r.inflight, y.kind = .sfu false

/-- The walk of the tables (R173, R174) over a memory of dwords, from the table at `pa`, through levels each given by the size in
bits of what an entry maps and by its number of entries. Of a table outside HBM it answers PROT (log entry 87). -/
def tableWalk (read : Nat → Nat) (va : Nat) : List (Nat × Nat) → Nat → Walk
  | [], _ => .fault .page
  | (shift, n) :: levels, pa =>
    let place := pa + 8 * (va / 2 ^ shift % n)
    let e := read place
    let frame := e / 2 ^ 22 % 2 ^ 36 * 2 ^ 16
    if 8 * 0xC00000000 ≤ place then .fault .prot
    else if e % 2 = 0 ∨ e / 2 ^ 59 ≠ 0 then .fault .page
    else if e / 2 ^ 58 % 2 = 1 then
      if shift = 55 ∨ frame % 2 ^ shift ≠ 0 then .fault .page else .leaf (BitVec.ofNat 64 e) shift place
    else if e / 2 % 2 ^ 21 ≠ 0 ∨ levels = [] then .fault .page
    else tableWalk read va levels frame

/-- A machine in which a walk meets nothing but plain memory: no Part copies, no failed die, undo logs of scratchpad granules
alone. -/
structure PlainTables (s : State) : Prop where
  wf : Memory.wf s.mem
  parts : s.partials = []
  alive : ∀ d ∈ s.dies, d.failed = false
  logs : ∀ y ∈ s.crews, ∀ g ∈ y.chunk.logS, 2 ^ 53 ≤ g.key

/-- No TLB and no walk cache that a core uses translates an address (R177). -/
structure Misses (s : State) (x : Space) (va : Nat) : Prop where
  tlb : ∀ e ∈ (s.coreAt x.core).tlb, e.slot = x.slot → e.page ≠ va / 2 ^ e.shift
  raft : ∀ r, s.rafts[x.core / 4]? = some r → ∀ e ∈ r.tlb, e.slot = x.slot → e.page ≠ va / 2 ^ e.shift
  cache : ∀ d, s.dies[x.core / 36]? = some d → ∀ e ∈ d.walks, e.slot = x.slot → e.page ≠ va / 2 ^ e.shift

/-- The FENCE of crew `c` ends with a status (R230, R231). -/
def fenceEnded (s : State) (c : Nat) (d : Fin 64) (status : Nat) : State :=
  { s with fences := s.fences.filter fun f => f.crew != c }.mapCrew c fun x => { x with
    r := wrote x.r d (BitVec.ofNat 64 status), chunk := popped x.chunk }

/-- Such an end with status 2 (R230): a record names the first peer that failed, and with D = 0 PEER waits for the commit's end. -/
def fencePeer (s : State) (c : Nat) (x : Crew) (org : Origin) (d : Fin 64) (k : Nat) : State :=
  let t := fenceEnded s c d 2
  let u := t.event 2 k .fence (t.queueOf x.task.launch) (BitVec.ofNat 64 k)
  if d = 0 then u.postFault c .peer (BitVec.ofNat 64 k) org org.lanes false else u

/-- When a FENCE `f` has waited long enough for a posted write (R230, R231): its peer's link is or was down, or has been retraining
for LINK_TMO since the FENCE met it. -/
def Failed (s : State) (f : FenceWait) (p : Posted) (k t : Nat) : Prop :=
  p.peer = some k ∧ (((p.lost = true ∨ (k, LinkState.down) ∈ s.hub.links) ∧ t = f.since) ∨
    (p.lost = false ∧ (k, LinkState.retraining) ∈ s.hub.links ∧ ∃ t0, (k, t0) ∈ f.links ∧ t = t0 + s.hub.regs.linkTmo.toNat ∧ t ≤ s.now))

/-- A crew waits at a FENCE, its first step-6 action. -/
structure AtFence (s : State) (c : Nat) (x : Crew) (f : FenceWait) (org : Origin) (scope : Nat) (d : Fin 64) : Prop where
  crew : s.crew? c = some x
  wait : s.fences.find? (fun f => f.crew == c) = some f
  act : x.phase = .acting ∧ x.chunk.acts.head? = some ⟨org, .fence scope d⟩
  links : (s.hub.links.map (·.1)).Nodup ∧ (f.links.map (·.1)).Nodup

end Sys2Proof.Claims

/-! ### Translation -/

/-- R173, R174, R176, R177: a miss is answered by a walk of the tables in memory from the root of the context; a leaf comes with
AF set, in memory too. -/
def Sys2Proof.Claims.TableWalks : Prop :=
  ∀ (s : State) (x : Space) (va : Nat), va < 2 ^ 56 → PlainTables s → Misses s x va →
    let t := s.lookup x va
    match tableWalk (fun k => (s.dword k).toNat) va [(55, 4), (42, 8192), (29, 8192), (16, 8192)] x.root with
    | .leaf e shift pte => t.2 = .leaf (e ||| 0x100) shift pte ∧ t.1.dword pte = e ||| 0x100
    | .fault f => t.2 = .fault f

/-- R175, R176, R408: the checks of a leaf, the first that fails giving the fault, and the physical address: the frame joined to the
address within the page. A write leaves DF set in memory. -/
def Sys2Proof.Claims.LeafChecks : Prop :=
  ∀ (s u : State) (x : Space) (n : Need) (va shift pte : Nat) (leaf : Dword), s.lookup x va = (u, .leaf leaf shift pte) →
    let pa := leaf.toNat / 2 ^ 22 % 2 ^ 36 * 2 ^ 16 + va % 2 ^ shift
    let pk := leaf.toNat / 2 ^ 5 % 4
    let kind := pk ≠ 3
    let user := x.sup = true ∨ leaf.getLsbD 4 = true
    let rights := (n.rd = true → leaf.getLsbD 1 = true) ∧ (n.wr = true → leaf.getLsbD 2 = true) ∧ (n.ex = true → leaf.getLsbD 3 = true)
    let key := leaf.toNat / 2 ^ 10 % 2 ^ 12 ∈ u.hub.keys ∧ leaf.toNat / 2 ^ 10 % 2 ^ 12 ∉ u.hub.dying
    let hbm := pa < 8 * 0xC00000000
    let peer := 2 ^ 50 ≤ pa ∧ pa < 2 ^ 51 ∧ (pa - 2 ^ 50) % 2 ^ 40 < 8 * 0xC00000000
    let host := 2 ^ 51 ≤ pa ∧ pa < 2 ^ 52
    let claimed := hbm ∨ (peer ∧ pk ≠ 0) ∨ (host ∧ pk = 2)
    let t := s.translate x n va
    (¬ (kind ∧ user ∧ rights) → t = (u, .fault .prot)) ∧
    (kind → user → rights → ¬ key → t = (u, .fault .key)) ∧
    (kind → user → rights → key → ¬ claimed → t = (u, .fault .prot)) ∧
    (kind → user → rights → key → claimed → (∀ d ∈ u.dies, d.failed = false) →
      t.2 = .ok leaf pa (va / 2 ^ shift * 2 ^ shift, shift) ∧
      (n.wr = false ∨ leaf.getLsbD 9 = true → t.1 = u) ∧
      (n.wr = true → leaf.getLsbD 9 = false → PlainTables u → pte + 8 ≤ 2 ^ 53 → t.1.dword pte = u.dword pte ||| 0x200))

/-! ### Events of a crew -/

/-- R25, R76 to R81, R86, R193 to R197, R208, R209: the frontier selects an entry: its clause begins to issue, as the first of
a chunk or a later one; or the chunk ends before it; or the crew stops there. R97: a redirect completes. -/
def Sys2Proof.Claims.FrontierSelection : Prop :=
  ∀ (s : State) (c : Nat) (e : Entry) (h : Header) (ws : List (BitVec 32)) (b1 : State) (m : Option (BitVec 128)) (pc : Addr),
    let b := s.focusOn c
    let i := Instr.frontierSelection c
    (Unhindered b → Picks b e → HandlerOk b e →
      (b.focus.chunk.clauses = 0 → b.stopsAt b.focus e = false → (begun b e).fetchClause (begun b e).focus e.pc = (b1, .ok (h, ws)) →
        clauseFault h 16 1 (ws.map BitVec.toNat) = none → Turns i c s (issued b b1 e h ws)) ∧
      (b.focus.chunk.clauses = 0 → b.stopsAt b.focus e = true →
        b.liveRecord b.focus e.pc ((b.peekSafept b.focus e.pc).getD 0) = (b1, .ok m) →
        Turns i c s { b1 with focus := { b1.focus with
          phase := .stopped, chunk := Chunk.empty, task := { b1.focus.task with live := if b1.focus.r.frontier.length = 1 then m else none } } }) ∧
      (b.focus.chunk.clauses ≠ 0 → b.fetchClause b.focus e.pc = (b1, .ok (h, ws)) →
        (¬ Boundary b e h ws → clauseFault h 16 1 (ws.map BitVec.toNat) = none → Turns i c s (issued b b1 e h ws)) ∧
        (Boundary b e h ws → (b.focus.task.atomic = false ∨ b.focus.r.flt.sup = true) →
          Turns i c s { b with focus := { b.focus with chunk := { b.focus.chunk with
            ends := true, stop := if b.stopsAt b.focus e then some e.pc else none } } }))) ∧
    Runs (.redirectCompletion c pc) s (s.mapCrew c fun x => { x with r := { x.r with
      frontier := x.r.frontier.map fun e => { e with redir := if e.pc = pc then false else e.redir } } })

/-- R269, R257: a range frame that is selected ends where its range is empty, begins its leaf where the range is at most the
grain, and raises PEDOVF where a split has no room in its pedigree; it waits while its launch is being stopped. R386: the first fault
that waits is delivered: its CHKPC is the entry that R78 puts first among those with a thread that is not blocked, if there is one. -/
def Sys2Proof.Claims.RangesAndPostedFaults : Prop :=
  ∀ (s : State) (c : Nat) (x : RangeRec) (p : PostFault) (ps : List PostFault),
    let b := s.focusOn c
    let i := Instr.frontierSelection c
    (Selecting b → b.focus.post = [] → (b.focus.r.redtab = 0 ∨ b.focus.chunk.clauses ≠ 0) → b.focus.task.range = some x →
      b.focus.r.flt.sup = false → b.focus.r.frontier ≠ [] → (∀ y ∈ b.pool, y.uid ≠ b.focus.uid) →
      (b.stopping b.focus = true → Turns i c s b) ∧ (b.stopping b.focus = false →
      (x.hi ≤ x.lo → b.pieceWaits b.focus = false → Turns i c s (b.mapCrew b.focus.uid fun y => { y with
        r := { y.r with emask := y.r.tmask, frontier := [] }, task := { y.task with range := none } })) ∧
      (x.lo < x.hi → x.hi - x.lo ≤ x.grain → b.pieceWaits b.focus = false → ∃ v : Vector Dword 64,
        v[0] = 0 ∧ v[1] = BitVec.ofNat 64 x.lo ∧ v[2] = BitVec.ofNat 64 x.hi ∧
        (∀ k : Fin 61, v[3 + k.val] = b.focus.task.args.getD k.val 0) ∧
        Turns i c s (b.mapCrew b.focus.uid fun y => { y with r := { y.r with s := v }, task := { y.task with range := none } })) ∧
      (x.lo < x.hi → x.grain < x.hi - x.lo → ((lastLevel b.focus.r.pedigree).rank = 65535 ∨ 32 ≤ b.focus.r.pedigree.length) →
        ∀ e ∈ b.focus.r.frontier, (∀ y ∈ b.focus.r.frontier, y ≠ e → Earlier b e y) →
        Turns i c s (b.deliverFault 0x0D 0 false false e.pc 0 (ready b e) e.pc)))) ∧
    (Selecting b → b.focus.post = p :: ps →
      (b.focus.chunk.clauses ≠ 0 → Turns i c s { b with focus := { b.focus with chunk := { b.focus.chunk with ends := true } } }) ∧
      (b.focus.chunk.clauses = 0 → ∀ e ∈ b.focus.r.frontier,
        (ready b e ≠ 0 ∨ ∀ y ∈ b.focus.r.frontier, ready b y = 0) →
        (∀ y ∈ b.focus.r.frontier, y ≠ e → (ready b e ≠ 0 → ready b y ≠ 0) → Earlier b e y) →
        Turns i c s (State.deliverFault p.code p.addr true p.eng p.org.pc p.org.word p.lanes e.pc
          { b with focus := { b.focus with post := ps } })))

/-- R23, R165, R173 to R177, R230, R231, R408: the completions of long-latency instructions, the acceptance by the special-function
unit, what a table walk answers and what a leaf is checked for, and the ends of a FENCE's wait.
Rests on readings and choices of the model (log entries 10, 13, 44, 56, 58, 79, 87 and 122). -/
def Obligations.CompletionEvents : Prop := TableWalks ∧ LeafChecks ∧
  ∀ (s : State) (c k core j n : Nat) (x : Crew) (y : Inflight) (va : BitVec 64),
    (s.crew? c = some x → x.r.inflight[k]? = some y → (y.kind = .plain ∨ y.kind = .sfu true) →
      Runs (.longLatencyCompletion c k) s (s.mapCrew c fun x => { x with r := finish y x.r, shadow := finish y x.shadow })) ∧
    (j < 16 → n < 16 → j = ((s.coreAt core).sfu + 1 + n) % 16 → SfuWaits s core j →
      (∀ i < n, ¬ SfuWaits s core (((s.coreAt core).sfu + 1 + i) % 16)) →
      let acc := fun (x : Crew) => if x.uid ≠ 0 ∧ x.place = .slot core j then
        { x with r := { x.r with inflight := acceptFirst x.r.inflight }, shadow := { x.shadow with inflight := acceptFirst x.shadow.inflight } } else x
      Runs (.sfuAcceptance core) s { s with
        focus := acc s.focus, pool := s.pool.map acc, cores := s.cores.modify core fun k => { k with sfu := j } }) ∧
    (∀ l pre post, (∀ z ∈ pre, z.kind ≠ .sfu false) → (y.kind = .sfu false → l = pre ++ y :: post →
      acceptFirst l = pre ++ { y with kind := .sfu true } :: post)) ∧
    (s.crew? c = some x → va.toNat < 2 ^ 56 → x.core < s.cores.length → ∀ leaf shift pte t,
      (t = s.lookup (s.space x false) va.toNat → t.2 = .leaf leaf shift pte →
      Runs (.tableWalk c va) s t.1 ∧ ∃ e ∈ (t.1.coreAt x.core).tlb, e.slot = (s.space x false).slot ∧
        e.page = va.toNat / 2 ^ e.shift ∧ e.shift = shift ∧ e.leaf = leaf)) ∧
    (∀ f org scope d, AtFence s c x f org scope d →
      (s.shown c x.core scope = true →
        (scope < 5 → Runs (.fenceWaitEnd c) s (fenceEnded s c d 0)) ∧
        (5 ≤ scope → f.failed = [] → Runs (.fenceWaitEnd c) s (fenceEnded s c d (if f.links = [] then 0 else 1))) ∧
        (5 ≤ scope → ∀ k ks, f.failed = k :: ks → Runs (.fenceWaitEnd c) s (fencePeer s c x org d k))) ∧
      (5 ≤ scope → f.failed = [] → ∀ p ∈ s.posted, p.crew = c → ∀ k t, Failed s f p k t →
        (∀ q ∈ s.posted, q.crew = c → q.peer = some k ∨ ∀ k' t', Failed s f q k' t' → t < t') →
        (s.shown c x.core 4 = true → (∀ q ∈ s.posted, q.crew = c → ∃ k t, Failed s f q k t) →
          Runs (.linkTimeout c) s (fencePeer { s with posted := s.posted.filter fun p => p.crew != c } c x org d k)) ∧
        ((∃ q ∈ s.posted, q.crew = c ∧ ∀ k t, ¬ Failed s f q k t) → ∃ ks, Runs (.linkTimeout c) s { s with
          fences := s.fences.map fun y => if y.crew = c then { f with failed := k :: ks } else y })))

/-- R76 to R81, R193 to R197, R257, R269, R386: what the frontier's selection does.
Rests on readings and choices of the model (log entries 23, 57, 64 and 113). -/
def Obligations.FrontierEvents : Prop := FrontierSelection ∧ RangesAndPostedFaults

namespace Sys2Proof.Claims
open Sys2Proof.Machine

/-! ### Commits -/

/-- A crew whose chunk rolls back (R35, R71, R75, R208, R209): registers, control state, views and pedigree return to the shadow, REPC to zero; the
chunk is empty and begins at the same clause with the same limits. -/
def rolled (x : Crew) : Crew :=
  { x with
    r := { x.shadow with repc := 0 }, cur := none
    chunk := { Chunk.empty with first := x.chunk.first, len := x.chunk.len, retry := x.chunk.retry }
    replay := { x.replay with excl := false, replay := true } }

/-- A chunk that has ended without an uncorrectable error, with no release to perform first (R203, R211, R222). -/
structure EndedClean (x : Crew) : Prop where
  ended : x.phase = .run ∧ x.cur = none ∧ x.chunk.ends = true
  clean : x.chunk.soft = false
  plain : x.chunk.rels = []

/-- The lines that a chunk writes under grants (R199, R201). -/
def writtenLines (x : Crew) : List BufLine := x.chunk.buf.filter fun b => b.region.signed

/-- The landing that grants a buffer line (R200, R244): its home, or for reductions of a line that another die homes the
partial landing of the crew's die. -/
def grantsLine (die : Nat) (b : BufLine) : Nat :=
  match b.data with
  | .bytes _ => landingOf b.line
  | .reds _ _ _ => if isHbm (b.line * 128) = true ∧ dieOfPa (b.line * 128) ≠ die then 24 * die + b.line % 24 else landingOf b.line

/-- A buffer line asks the landing that grants it, and its home too where its reductions flush a partial of another code or width
(R245). -/
def asksAt (s : State) (die : Nat) (b : BufLine) (j : Nat) : Bool :=
  j == grantsLine die b || match b.data with
    | .bytes _ => false
    | .reds op w _ => j == landingOf b.line && s.partials.any fun p => p.line == b.line && (p.op != op || p.w != w)

/-- The landings that a request visits, in increasing index (R201). -/
def IsRoute (s : State) (x : Crew) (l : List Nat) : Prop :=
  l.Pairwise (· < ·) ∧
    ∀ j, j ∈ l ↔ j < 200 ∧ (x.chunk.rmask.getLsbD j = true ∨ ∃ b ∈ writtenLines x, asksAt s (x.core / 36) b j = true)

/-- No buffer line of a chunk is a reduction, every line lies in HBM under the key that it was last written under or in the
package scratchpad, no line is Part, no die has failed, and every undo log holds scratchpad granules alone. -/
structure PlainCommit (s : State) (x : Crew) : Prop where
  wf : Memory.wf s.mem
  bytes : ∀ b ∈ writtenLines x, ∃ l, b.data = .bytes l ∧ ∀ y ∈ l, y.1 < 128
  place : ∀ b ∈ writtenLines x, isHbm (b.line * 128) = true ∨ (2 ^ 45 ≤ b.line ∧ b.line < 2 ^ 46)
  key : ∀ b ∈ writtenLines x, ∀ z, s.keyed.find? (fun z => z.line == b.line) = some z → z.key = s.material b.slot.toNat
  slots : ∀ b ∈ writtenLines x, ∀ b' ∈ writtenLines x, b'.line = b.line → b'.slot = b.slot
  parts : s.partials = []
  alive : ∀ d ∈ s.dies, d.failed = false
  logs : ∀ y ∈ s.crews, ∀ g ∈ y.chunk.logS, 2 ^ 53 ≤ g.key

/-- No STREAM line that the crew released, or that its core has seen, is still to come ahead of a line that it writes (R216). -/
def Foremost (s : State) (x : Crew) : Prop :=
  ∀ b ∈ writtenLines x, ∀ y ∈ s.streams, y.line.line = b.line → y.crew ≠ x.uid ∧ x.core ∉ y.seen

/-- A crew at its commit point (R203): it takes its place in the global commit order. -/
def placed (s : State) (p : Phase) (x : Crew) : Crew := { x with phase := p, chunk := { x.chunk with seq := s.uids } }

/-- A crew that a conflict rolls back (R205, R206). -/
def conflicted (x : Crew) : Crew := { rolled x with phase := .run, replay := { x.replay with excl := false, conf := x.replay.conf + 1, replay := true } }

/-- What a crew's grants leave of a landing. -/
def without (c : Nat) (L : Landing) : Landing := ⟨L.held.filter fun g => g.crew != c, L.waiting.filter fun g => g.crew != c⟩

/-- Two requests at a landing conflict (R202, R206). -/
def Conflict (lines : List Nat) (rsig : BitVec 1024) (h : Grant) : Prop :=
  h.excl = true ∨ (∃ n ∈ lines, sigHas h.wsig n = true ∨ sigHas h.rsig n = true) ∨ (h.write = true ∧ sigOverlap rsig h.wsig = true)

end Sys2Proof.Claims

/-! ### Commits -/

/-- R201 to R206, R211, R213, R217, R230, R239, R386: the stages of CHUNK_COMMIT: the request's route; the replay of a chunk with
an uncorrectable error; the writes of a granted chunk; step-6 actions; and the next chunk.
Rests on readings and choices of the model (log entries 8, 14, 36, 49, 75, 79, 90, 110 and 118). -/
def Obligations.ChunkCommit : Prop :=
  ∀ (s : State) (c : Nat) (x : Crew), s.crew? c = some x →
    let i := Instr.chunkCommit c
    (EndedClean x →
      (writtenLines x = [] → x.chunk.tracked = [] →
        Runs i s (State.mapCrew c (placed s .acting) { s with landings := s.landings.map (without c), uids := s.uids + 1 })) ∧
      (¬ Foremost s x → Runs i s s) ∧
      (writtenLines x ≠ [] → Foremost s x → (∀ b ∈ writtenLines x, grantsLine (x.core / 36) b < 200) →
        ∃ l, IsRoute s x l ∧ Runs i s (s.mapCrew c fun x => { x with phase := .asking l }))) ∧
    (x.phase = .run → x.cur = none → x.chunk.ends = true → x.chunk.soft = true →
      x.replay.soft < x.chunk.retry.toNat → x.replay.ferried = false → ∃ t, Runs i s t ∧
        t.crew? c = some { rolled x with replay := { x.replay with excl := false, soft := x.replay.soft + 1, replay := true } } ∧
        t.hub.events = (s.event 0 (s.unitOf x.core) .replay (s.queueOf x.task.launch) 0).hub.events ∧
        t.landings = s.landings.map (without c)) ∧
    (x.phase = .granted → PlainCommit s x → ∃ t, Runs i s t ∧
      t.crew? c = some { x with phase := .acting, chunk := { x.chunk with buf := x.chunk.buf.filter fun b => !b.region.signed } } ∧
      t.landings.length = s.landings.length ∧ (∀ L ∈ t.landings, ∀ g ∈ L.held ++ L.waiting, g.crew ≠ c) ∧
      ∀ k < 2 ^ 53, t.byte k = overlay ((writtenLines x).flatMap fun b => match b.data with
        | .bytes l => l.map fun y => (b.line * 128 + y.1, y.2)
        | .reds _ _ _ => []) s.byte k) ∧
    (x.phase = .acting →
      let done := fun (s : State) => s.mapCrew c fun x => { x with chunk := popped x.chunk }
      (x.chunk.acts = [] → x.task.merge = none → Runs i s (s.mapCrew c fun x => { x with
        chunk := { Chunk.empty with stop := x.chunk.stop }, replay := x.chunk.next, phase := .run, r := { x.r with fpflags := x.r.fpflags ||| x.tenFp }, tenFp := 0 })) ∧
      (x.chunk.acts ≠ [] → ∀ m, x.chunk.rels.head? = some m → m.acts = 0 →
        (s.shown c x.core m.scope = true →
          Runs i s (s.mapCrew c fun x => { x with chunk := { x.chunk with rels := x.chunk.rels.drop 1 } })) ∧
        (s.shown c x.core m.scope = false → Runs i s s)) ∧
      ∀ org kind, x.chunk.acts.head? = some ⟨org, kind⟩ → (∀ m, x.chunk.rels.head? = some m → m.acts ≠ 0) →
        (∀ code, kind = .trap code → Runs i s (done (s.mapCrew c fun x => { x with
          post := x.post ++ [⟨0x12, BitVec.ofNat 64 code, org, org.lanes, false⟩] }))) ∧
        (∀ scope d, kind = .fence scope d → (∀ f ∈ s.fences, f.crew ≠ c) → (s.hub.links.map (·.1)).Nodup → ∃ ls ks,
          (∀ k t, (k, t) ∈ ls ↔ t = s.now ∧ (k, LinkState.retraining) ∈ s.hub.links ∧ ∃ p ∈ s.posted, p.crew = c ∧ p.peer = some k) ∧
          (∀ k, k ∈ ks ↔ ∃ p ∈ s.posted, p.crew = c ∧ p.peer = some k ∧ p.lost = true) ∧
          Runs i s { s with fences := s.fences ++ [⟨c, s.now, ls, ks⟩] }) ∧
        (∀ line gen, kind = .streamLine line gen → ∃ t, Runs i s t ∧
          let mine := fun (b : BufLine) => b.region == .stream && b.line == line && b.gen == gen
          t.streams = s.streams ++ ((x.chunk.buf.filter mine).zipIdx.map fun y => ⟨s.uids + y.2, c, x.core, [], y.1⟩) ∧
          t.crew? c = some { x with chunk := popped { x.chunk with buf := x.chunk.buf.filter fun b => !mine b } }) ∧
        (∀ j s1, kind = .load j → (s.focusOn c).mergeReads (j.reads.map HeldRead.loc) = (s1, true) →
          let seen := { s1 with focus := { s1.focus with chunk := { s1.focus.chunk with
            acts := [], buf := s1.focus.chunk.buf.filter fun b => decide (b.gen ≤ j.gen) } } }
          (∀ y ∈ j.reads, s1.homeLost y.loc.key = false ∧
            ∀ i < y.size, y.idle.getLsbD i = false → seen.ownByte y.loc (y.loc.key + i) = true ∨ s1.badAt (y.loc.key + i) 1 = false) →
          let vs := j.reads.zipIdx.map fun y => leNat (State.readLoc { seen with free := s1.free + y.2 } y.1.loc y.1.size)
          ∃ t y, Runs i s t ∧ t.crew? c = some y ∧ y.r = { s1.focus.r with
            inflight := s1.focus.r.inflight.map fun z =>
              if z.kind = .held j.id then { z with kind := .plain, writes := j.dests.map (LoadDest.fill vs) } else z }) ∧
        (∀ key op w v, kind = .spadRed key op w v → Memory.wf s.mem → s.badAt key (w / 8) = false → ∃ t, Runs i s t ∧ ∀ k, t.byte k = reduced op w key v s.byte k))

namespace Sys2Proof.Claims
open Sys2Proof.Machine

/-- A launch's race filter knows the strand of pedigree `pg` as number `me` (R310). -/
def KnowsStrand (l : Launch) (pg : List Level) (me : Nat) : Prop :=
  me ≠ 0 ∧ ∃ t, l.strands.find? (fun t => t.pedigree == pg) = some t ∧ t.num = me

/-- A slot of a granule names a strand in parallel with that of pedigree `pg`, whose number is `me` (R290, R312). -/
def ParallelTo (l : Launch) (pg : List Level) (me n : Nat) : Prop := n ≠ 0 ∧ n ≠ me ∧ isPar (l.pedigreeOf n) pg = true

/-- Writer and reader slots of a granule once strand `me` has accessed it (R312). -/
def recorded (l : Launch) (pg : List Level) (me : Nat) (write : Bool) (g : Nat × Nat × Nat) : Nat × Nat × Nat :=
  if write then (me, 0, 0)
  else (g.1, if g.2.1 = 0 ∨ english pg (l.pedigreeOf g.2.1) = true then me else g.2.1,
    if g.2.2 = 0 ∨ hebrew (l.pedigreeOf g.2.2) pg = true then me else g.2.2)

end Sys2Proof.Claims

/-- R202, R203, R205, R206, R211: the request at a landing, granted or made to wait in its turn; the race filter's check of the last
grant and its records of the commit point (R312 to R314); an invalidation; exclusive mode; the ferry of a crew with uncorrectable errors, which then counts the replays of its new core alone (R233).
Rests on readings and choices of the model (log entries 13, 14, 21, 44, 49, 102, 110 and 116). -/
def Obligations.LandingsAndReplays : Prop :=
  ∀ (s : State) (c line j : Nat) (rest : List Nat) (x : Crew) (L : Landing), s.crew? c = some x →
    let lines := ((writtenLines x).filter fun b => asksAt s (x.core / 36) b j).map BufLine.line
    let g : Grant := ⟨c, false, !lines.isEmpty, lines, x.chunk.rsig, x.chunk.wsig⟩
    (x.phase = .asking (j :: rest) → s.landings[j]? = some L → (∀ h ∈ L.held, h.crew ≠ c) →
      (L.held.length < 16 → L.waiting = [] → (∀ h ∈ L.held, ¬ Conflict lines x.chunk.rsig h) → x.chunk.tracked = [] →
        let held := s.landings.set j ⟨L.held ++ [g], []⟩
        let reads := fun (y : Crew) => y.uid ≠ c ∧ y.uncommitted = true ∧ ∃ b ∈ writtenLines x, sigHas y.chunk.rsig b.line = true
        (rest ≠ [] → Runs (.landingRequest c) s (State.mapCrew c (fun x => { x with phase := .asking rest }) { s with landings := held })) ∧
        (rest = [] → (∀ y ∈ s.crews, ¬ reads y) →
          Runs (.landingRequest c) s (State.mapCrew c (placed s .granted) { s with landings := held, uids := s.uids + 1 })) ∧
        (rest = [] → (s.crews.map Crew.uid).Nodup → ∃ t, Runs (.landingRequest c) s t ∧ t.crew? c = some (placed s .granted x) ∧
          ∀ z y, s.crew? z = some y → reads y → t.crew? z = some (conflicted y))) ∧
      (∀ (a : Tracked) (l : Launch) (me : Nat), rest = [] → L.held.length < 16 → L.waiting = [] →
        (∀ h ∈ L.held, ¬ Conflict lines x.chunk.rsig h) → x.chunk.tracked = [a] → s.launch? x.task.launch = some l →
        KnowsStrand l x.shadow.pedigree me →
        let hit := ∃ n, (n = (l.granule a.pa).1 ∨ n = (l.granule a.pa).2.1 ∨ n = (l.granule a.pa).2.2) ∧ ParallelTo l x.shadow.pedigree me n
        (a.write = true → hit → x.task.kind ≠ .routine → x.shadow.flt.sup = false → ∃ t y, Runs (.landingRequest c) s t ∧
          t.crew? c = some y ∧ y.phase = .run ∧
          y.r.flt = ⟨0x0C, false, false, 0, x.chunk.first, a.va, 0, x.chunk.first, true, false, false, 0⟩ ∧
          ∀ M ∈ t.landings, ∀ h ∈ M.held ++ M.waiting, h.crew ≠ c) ∧
        (¬ (a.write = true ∧ hit) → l.rfNext + 32 ≤ l.desc.rfsize → ∃ t y l', Runs (.landingRequest c) s t ∧
          t.crew? c = some y ∧ y.phase = .granted ∧ t.launch? x.task.launch = some l' ∧
          l'.granule a.pa = recorded l x.shadow.pedigree me a.write (l.granule a.pa) ∧
          ∀ pa, lineOf pa ≠ lineOf a.pa ∨ pa / 4 % 32 ≠ a.pa / 4 % 32 → l'.granule pa = l.granule pa)) ∧
      ((16 ≤ L.held.length ∨ L.waiting ≠ [] ∨ ∃ h ∈ L.held, Conflict lines x.chunk.rsig h) → (∀ h ∈ L.waiting, h.crew ≠ c) →
        Runs (.landingRequest c) s { s with landings := s.landings.set j ⟨L.held, L.waiting ++ [g]⟩ })) ∧
    ((x.phase = .run ∨ ∃ l, x.phase = .asking l) →
      (sigHas x.chunk.rsig line = false → Runs (.invalidation c line) s s) ∧
      (sigHas x.chunk.rsig line = true → Memory.wf s.mem → ∃ t, Runs (.invalidation c line) s t ∧
        t.crew? c = some (conflicted x) ∧
        t.landings = s.landings.map (without c) ∧
        ∀ k, t.byte k = overlay (x.chunk.logS.flatMap fun g => (List.range g.old.length).map fun j => (g.key + j, g.old.getD j 0)) s.byte k)) ∧
    (x.phase = .run → x.cur = none → x.chunk.clauses = 0 → 16 ≤ x.replay.conf → x.replay.excl = false → s.landings.length = 200 →
      (∀ L ∈ s.landings, L = ⟨[], []⟩) →
      Runs (.exclusiveMode c) s (State.mapCrew c (fun x => { x with replay := { x.replay with excl := true } })
        { s with landings := List.replicate 200 ⟨[⟨c, true, true, [], 0, 0⟩], []⟩ })) ∧
    ((x.phase = .run ∨ ∃ l, x.phase = .asking l) → c ≠ 0 → x.chunk.ends = true → x.cur = none → x.chunk.soft = true →
      x.replay.ferried = false → x.chunk.retry.toNat ≤ x.replay.soft →
      let set := s.hub.regs.coresIn (s.dieset x.task.launch)
      let free := fun k => k ∈ set ∧ k ≠ x.core ∧ s.freeSlots k ≠ []
      (∃ k, free k) → (∀ k, (s.freeWindow k (s.spmReq x.task.launch)).isSome = true) →
      ∃ t y k n, Runs (.softErrorFerry c) s t ∧ t.crew? c = some y ∧ free k ∧ y.place = .slot k n ∧ n ∈ s.freeSlots k ∧
        y.replay.ferried = true ∧ y.replay.soft = 0 ∧ y.replay.replay = true ∧ y.cur = none ∧ y.chunk.clauses = 0 ∧ y.chunk.first = x.chunk.first ∧
        y.r = { x.shadow with spmBase := y.r.spmBase, spmSize := y.r.spmSize } ∧
        ((∃ k', free k' ∧ k' / 4 = x.core / 4) → k / 4 = x.core / 4) ∧ ((∃ k', free k' ∧ k' / 36 = x.core / 36) → k / 36 = x.core / 36))

namespace Sys2Proof.Claims
open Sys2Proof.Machine

/-! ### Tasks -/

/-- No crew has the next number yet. -/
def Fresh (s : State) : Prop := ∀ y ∈ s.crews, y.uid < s.uids

/-- A launch runs undisturbed (R86, R293): nothing stops it, and its crews do not wait for a check. -/
structure LaunchRuns (s : State) (n : Nat) (l : Launch) : Prop where
  launch : s.launch? n = some l
  going : l.stopAt = none ∧ l.ended = none ∧ l.holding = false

/-- The crew stands in a slot of a core. -/
def InSlot (x : Crew) (k : Nat) : Prop := ∃ j, x.place = .slot k j

/-- A core may take up work (R261, R394): an LCT entry names it, no crew in its slots runs, no ready frame waits there, a slot is
free. -/
structure FreeCore (s : State) (k : Nat) : Prop where
  enabled : s.coreOn k = true
  quiet : ∀ x ∈ s.crews, x.uid ≠ 0 → InSlot x k → x.phase = .parked ∨ x.phase = .suspended ∨ x.phase = .ending ∨ x.phase = .stopped ∨ x.phase = .halted
  frames : ∀ x ∈ s.crews, x.uid ≠ 0 → x.phase = .suspended → x.core = k → ∃ y ∈ x.task.kids, y.ended = false
  room : s.freeSlots k ≠ []

/-- The entries of a core's deque, the oldest first (R261). -/
def entriesOf (s : State) (k : Nat) : List Nat := (s.coreAt k).spill ++ (s.coreAt k).deque

/-- A core is idle (R262, R270): its deque is empty too, and no piece that is dealt to it is left. -/
structure IdleCore (s : State) (k : Nat) : Prop extends FreeCore s k where
  empty : entriesOf s k = []
  pieces : s.piecesLeft k = false

/-- A parked continuation that a core of logical die `d` may take (R261 to R263, R271, R322): no gang parent, not the pieces dealt to the core that holds
it (R270). -/
def MayTake (s : State) (d u : Nat) : Prop :=
  ∃ x, s.crew? u = some x ∧ x.phase = .parked ∧ x.r.inflight = [] ∧ x.enroll = [] ∧ x.task.gang = false ∧
    (∀ l, s.launch? x.task.launch = some l → l.stopAt = none ∧ l.ended = none) ∧ (s.dieset x.task.launch).getLsbD d = true ∧
    s.ownPieces x = true

/-- A task's first registers (R51, R255): arguments from s1 on, the entry, the pedigree; all else as at reset. -/
structure FirstRegs (q : SpawnReq) (r : Regs) : Prop where
  s : ∀ i : Fin 64, r.s[i] = if i = 0 ∨ q.range.isSome = true then 0 else q.args.getD (i.val - 1) 0
  v : r.v = Regs.reset.v ∧ r.side = Regs.reset.side ∧ r.q = Regs.reset.q
  frontier : r.frontier = [⟨q.entry, q.threads, 0, false⟩] ∧ r.tmask = q.threads ∧ r.emask = 0
  task : r.pedigree = q.pedigree ∧ r.rndmode = q.rndmode ∧ r.arenaBase = q.arenaBase ∧ r.arenaLim = q.arenaLim
  clear : r.marks = [] ∧ r.inflight = [] ∧ r.fpflags = 0 ∧ r.pivst = ⟨false, 0, 0⟩ ∧ r.gang = 0 ∧ r.safecnt = 0 ∧ r.srctr = 0 ∧ r.logSeq = 0

end Sys2Proof.Claims

/-! ### Tasks -/

/-- R167, R168, R255, R260, R268, R271, R286: placement, the start of a task with its slices, the start of a gang.
Rests on readings and choices of the model (log entries 75 and 79). -/
def Obligations.TaskStarts : Prop :=
  ∀ (s : State) (c : Nat) (x : Crew) (l : Launch), s.crew? c = some x → LaunchRuns s x.task.launch l →
    (x.phase = .unstarted → (∃ k, InSlot x k) →
      (l.packet.privreq = 0 → Runs (.taskStart c) s (s.mapCrew c fun x => { x with phase := .run })) ∧
      (l.packet.privreq ≠ 0 → ∀ g, g ∉ l.groups → (∀ h < g, h ∈ l.groups) →
        ((g + 1) * (32 * l.packet.privreq) ≤ l.desc.privsize → l.groups.length < l.desc.privsize / (32 * l.packet.privreq) →
          Runs (.taskStart c) s ((s.mapLaunch l.uid fun l => { l with groups := g :: l.groups }).mapCrew c fun x =>
            { x with phase := .run, task := { x.task with group := some g } })) ∧
        (l.desc.privsize < (g + 1) * (32 * l.packet.privreq) → x.task.waited = false →
          ∀ s1 l', s1 = s.refreshDesc x.task.launch → s1.crew? c = some x → LaunchRuns s1 x.task.launch l' →
            l'.desc.privsize < (g + 1) * (32 * l.packet.privreq) → l' = { l with desc := l'.desc } →
            Runs (.taskStart c) s ((s1.event 5 0 .slicesWait l.queue (BitVec.ofNat 64 l.number)).mapCrew c fun x =>
              { x with task := { x.task with waited := true } })))) ∧
    (∀ k j base, c ≠ 0 → x.place = .waiting k → s.coreOn k = true → x.phase = .unstarted → x.task.kind = .child → x.task.gangObj = none → x.saved = [] →
      (∀ p, x.task.parent = some p → ∀ y, s.crew? p = some y → y.phase ≠ .suspended ∧ y.phase ≠ .ending) →
      (s.freeSlots k).head? = some j → s.freeWindow k l.packet.spmreq = some base → base + l.packet.spmreq ≤ 2 ^ 19 →
      ∃ t y, Runs (.windowPlacement c) s t ∧ t.crew? c = some y ∧ y.place = .slot k j ∧ y.phase = .unstarted ∧
        y.window = (if l.packet.spmreq = 0 then none else some (base, l.packet.spmreq)) ∧
        y.r = { x.r with spmBase := BitVec.ofNat 12 (base / 128), spmSize := BitVec.ofNat 13 (l.packet.spmreq / 128) } ∧
        (Memory.wf s.mem → ∀ o < l.packet.spmreq, t.byte (2 ^ 53 + k * 2 ^ 19 + base + o) = 0) ∧
        ∀ a, (a < 2 ^ 53 + k * 2 ^ 19 + base ∨ 2 ^ 53 + k * 2 ^ 19 + base + l.packet.spmreq ≤ a) → Memory.wf s.mem → t.byte a = s.byte a) ∧
    (∀ org q m b, c ≠ 0 → x.phase = .acting → x.chunk.acts = [⟨org, .gang q m false b⟩] → q.range = none → Fresh s → l.packet.spmreq = 0 → l.packet.privreq = 0 →
      (s.barrier ⟨1, x.core, b.val⟩).v = false → x.core < s.cores.length → b.val < (s.coreAt x.core).bars.length → 1 ≤ m →
      m ≤ (s.freeSlots x.core).length →
      ∃ (t : State) (p : Crew) (us : List Nat), Runs (.gangStart c) s t ∧ t.crew? c = some p ∧ p.phase = .parked ∧ p.task.gangLeft = m ∧ p.chunk = Chunk.empty ∧
        us.length = m ∧ us.Nodup ∧ c ∈ (t.coreAt x.core).deque ∧
        (t.barrier ⟨1, x.core, b.val⟩).v = true ∧ (t.barrier ⟨1, x.core, b.val⟩).enrolled = (s.barrier ⟨1, x.core, b.val⟩).enrolled + m ∧
        (t.barrier ⟨1, x.core, b.val⟩).expect = BitVec.ofNat 20 (m * laneCount q.threads) ∧
        ∀ i u, us[i]? = some u → ∃ y, t.crew? u = some y ∧ y.phase = .run ∧ InSlot y x.core ∧ y.task.parent = some c ∧ y.task.kind = .member ∧
          y.r.pedigree = q.pedigree ++ [⟨BitVec.ofNat 16 i, 0⟩, ⟨0, 0⟩] ∧ y.r.s[7] = BitVec.ofNat 64 i ∧
          (∀ n : Fin 6, y.r.s[1 + n.val] = q.args.getD n.val 0) ∧ y.enroll = [⟨⟨1, x.core, b.val⟩, 0⟩])

/-- R254 to R266: a spawn and a sync in step 6; a frame goes on; a task ends; an idle core pops its deque, steals, or takes a
hinted child.
Rests on readings and choices of the model (log entries 52, 53, 55, 94 and 105). -/
def Obligations.TaskFlow : Prop :=
  ∀ (s : State) (c : Nat) (x : Crew), s.crew? c = some x → c ≠ 0 → Fresh s →
    (∀ org q rest, x.phase = .acting → x.chunk.acts = ⟨org, .spawn q none⟩ :: rest → x.chunk.rels = [] → x.task.merge = none →
      (s.coreAt x.core).deque.length < 64 → x.core < s.cores.length → ∃ t p y, Runs (.chunkCommit c) s t ∧
        t.crew? s.uids = some y ∧ FirstRegs q y.r ∧ y.task.parent = some c ∧ y.task.launch = x.task.launch ∧
        y.phase = .unstarted ∧ (y.place = .waiting x.core ∨ InSlot y x.core) ∧
        t.crew? c = some p ∧ p.phase = .parked ∧ p.task.kids = x.task.kids ++ [⟨s.uids, false, 0⟩] ∧
        p.task.block = x.task.block ++ [.own x.r.views, .kid s.uids] ∧ (t.coreAt x.core).deque = (s.coreAt x.core).deque ++ [c]) ∧
    (∀ org rest, x.phase = .acting → x.chunk.acts = ⟨org, .sync⟩ :: rest → x.chunk.rels = [] → x.task.merge = none → ∃ t p, Runs (.chunkCommit c) s t ∧
      t.crew? c = some p ∧ p.phase = .suspended ∧ p.r = { x.r with views := [], fpflags := x.r.fpflags ||| x.tenFp } ∧
      p.task.block = x.task.block ++ [.own x.r.views] ∧ p.chunk = { Chunk.empty with stop := x.chunk.stop }) ∧
    (∀ k, x.phase = .suspended → InSlot x k → x.post = [] → (∀ l, s.launch? x.task.launch = some l → l.stopAt = none ∧ l.ended = none) →
      (∀ y ∈ x.task.kids, y.ended = true) → (∀ i : Fin 16, (x.task.block.filter fun b => (b.views.get i).isSome).length ≤ 1) →
      Runs (.frameReady c) s (s.mapCrew c fun x => { x with
        phase := .run
        r := { x.r with views := x.task.block.flatMap BlockItem.views, fpflags := x.task.kids.foldl (fun f k => f ||| k.fp) x.r.fpflags }
        task := { x.task with kids := [], block := [], live := none, gang := false } })) ∧
    (x.phase = .run → x.task.kind ≠ .routine → x.r.live = 0 → x.r.frontier = [] → x.cur = none → x.chunk.clauses = 0 → x.r.inflight = [] →
      x.post = [] → x.task.range = none → x.task.kids = [] → x.task.block = [] →
      (∀ l, s.launch? x.task.launch = some l → l.holding = false) → ∃ t, Runs (.taskEnd c) s t ∧ t.crew? c = none ∧
        (∀ p y, x.task.parent = some p → p ≠ c → p ≠ 0 → s.crew? p = some y → ∃ z, t.crew? p = some z ∧
          z.task.kids = y.task.kids.map (fun k => if k.crew = c then ⟨c, true, x.r.fpflags ||| x.tenFp⟩ else k) ∧
          z.task.block = y.task.block.map (fun b => if b = .kid c then .joined x.r.views else b) ∧
          z.task.gangLeft = if x.task.kind = .member then y.task.gangLeft - 1 else y.task.gangLeft) ∧
        (x.task.parent = none → ∀ l, s.launch? x.task.launch = some l → ∃ l', t.launch? x.task.launch = some l' ∧
          l'.fpflags = l.fpflags ||| (x.r.fpflags ||| x.tenFp) ∧ l'.finals = l.finals ++ [(if x.task.kind = .resident then (x.r.pedigree.headD ⟨0, 0⟩).rank.toNat else 0, x.r.views)])) ∧
    (∀ k, FreeCore s k → (s.coreAt k).spill = [] → (entriesOf s k).getLast? = some c → x.phase = .parked → InSlot x k → x.task.gangLeft = 0 →
      (∀ l, s.launch? x.task.launch = some l → l.stopAt = none ∧ l.ended = none) →
      Runs (.steal k) s (State.mapCrew c (fun x => { x with phase := .run, task := { x.task with live := none, gang := false } })
        { s with cores := s.cores.modify k fun y => { y with deque := y.deque.filter (· != c) } })) ∧
    (∀ k d : Nat, IdleCore s k → d = (s.hub.regs.logical k).1 → (∀ y, s.dies[k / 36]? = some y → y.hints = []) →
      (∃ v ≠ k, ∃ u ∈ entriesOf s v, MayTake s d u ∧ ∃ y l, s.crew? u = some y ∧ s.launch? y.task.launch = some l ∧
        v ∈ s.hub.regs.coresIn l.packet.dieset) → k < s.cores.length →
      (∀ u y, s.crew? u = some y → (s.freeWindow k (s.spmReq y.task.launch)).isSome = true) →
      (∀ v ≠ k, ∀ u ∈ entriesOf s v, ∀ y, s.crew? u = some y → ¬ InSlot y k) →
      ∃ t u v y z, Runs (.steal k) s t ∧ v ≠ k ∧ u ∈ entriesOf s v ∧ MayTake s d u ∧ s.crew? u = some y ∧ t.crew? u = some z ∧
        z.phase = .run ∧ InSlot z k ∧ u ∉ entriesOf t v ∧ (t.coreAt k).victim = some v ∧
        (y.task.live = none → z.r = { y.r with spmBase := z.r.spmBase, spmSize := z.r.spmSize }) ∧
        (y.task.live ≠ none → ∀ y0 s1 out, (s.vacate u (.waiting k)).crew? u = some y0 →
          (s.vacate u (.waiting k)).fetchWords { y0 with place := .waiting k } y.task.liveAt.toNat 1 4 = (s1, out) →
          (∀ f a w, out = .fault f a w → z.r = { y.r with spmBase := z.r.spmBase, spmSize := z.r.spmSize }) ∧
          ∀ ws m, out = .ok ws → m = liveMask ws → ∀ i : Fin 64, (z.r.v[i] = if m.getLsbD i.val then y.r.v[i] else Regs.reset.v[i]) ∧
            z.r.s[i] = if i.val < 8 ∨ m.getLsbD (56 + i.val) = true then y.r.s[i] else 0)) ∧
    (∀ k die, IdleCore s k → s.dies[k / 36]? = some die → die.hints.head? = some c →
      (∀ l, s.launch? x.task.launch = some l → l.stopAt = none ∧ l.ended = none) → x.task.kind = .child →
      ¬ InSlot x k → (s.freeWindow k (s.spmReq x.task.launch)).isSome = true →
      ∃ t y, Runs (.hintQueueTake k) s t ∧ t.crew? c = some y ∧ InSlot y k ∧ y.phase = x.phase ∧
        t.dies[k / 36]? = some { die with hints := die.hints.filter (· != c) })

namespace Sys2Proof.Claims
open Sys2Proof.Machine

/-! ### Merges of views -/

/-- The view of a reducer in an entry of a list of views. -/
def viewAt (b : List BlockItem) (i : Fin 16) (k : Nat) : Option ViewVal := b[k]?.bind fun e => e.views.get i

/-- Entry `m` of a list is a child that still runs. -/
def RunsAt (b : List BlockItem) (m : Nat) : Prop := ∃ u, b[m]? = some (.kid u)

/-- Entries j and k are the first adjacent pair of a list that is touched in reducer i (R296): no touched entry and no child that
still runs stands between them, and a child that still runs between any two touched entries before. -/
structure FirstPair (b : List BlockItem) (i : Fin 16) (j k : Nat) (x y : ViewVal) : Prop where
  order : j < k
  views : viewAt b i j = some x ∧ viewAt b i k = some y
  between : ∀ m, j < m → m < k → viewAt b i m = none ∧ ¬ RunsAt b m
  first : ∀ p q, p < q → q < k → viewAt b i p ≠ none → viewAt b i q ≠ none → ∃ m, p < m ∧ m < q ∧ RunsAt b m

/-- The list after a merge in reducer i (R297): entry j has the result, entry k has no view of i, all else is as before. -/
structure Merged (b b' : List BlockItem) (i : Fin 16) (j k : Nat) (z : ViewVal) : Prop where
  length : b'.length = b.length
  kids : ∀ m u : Nat, b'[m]? = some (BlockItem.kid u) ↔ b[m]? = some (BlockItem.kid u)
  own : ∀ m, viewAt b' i m = if m = j then some z else if m = k then none else viewAt b i m
  others : ∀ m n, n ≠ i → viewAt b' n m = viewAt b n m

/-! ### Engines -/

/-- The command of an engine is over for its crew (R23, R26, R344, R355): its writes are made in the registers and in what a rollback
restores, but for an s register that a later issue has written (R63); its completion flag's count falls. -/
def concluded (id : Nat) (writes : List RegWrite) (r : Regs) : Regs :=
  match r.inflight.find? fun x => x.kind == .engine id with
  | some x => { r.applyAll ((x.writes ++ writes).filter fun w => match w with | .s d _ => !x.lost.contains d | _ => true) with inflight := r.inflight.erase x, fpflags := r.fpflags ||| x.fp }
  | none => r
def commandOver (c id : Nat) (writes : List RegWrite) (s : State) : State :=
  s.mapCrew c fun x => { x with r := concluded id writes x.r, shadow := concluded id writes x.shadow }

/-- Change the barge or the tensor engine of a core. -/
def withBarge (k : Nat) (f : Barge → Barge) (s : State) : State := { s with cores := s.cores.modify k fun c => { c with barge := f c.barge } }
def withTen (k : Nat) (f : List TenCmd → List TenCmd) (s : State) : State := { s with cores := s.cores.modify k fun c => { c with ten := f c.ten } }

/-- A tag wait is satisfied by a bitmap (R349). -/
def satisfied (ct : Dword) : BrgOp → Bool
  | .waitAny _ m => ct &&& m != 0
  | .waitAll _ m => ct &&& m == m
  | _ => false

/-- The CT bitmap of a launch's slot on a core (R337). A pending wait of the launch observes each change: the first bitmap that
satisfies it is its result (R336, R349). -/
def bitmap (s : State) (k launch : Nat) : Dword := (s.coreAt k).ct.getD (((s.launch? launch).bind Launch.slot).getD 0) 0
def withBitmap (k launch : Nat) (f : Dword → Dword) (s : State) : State :=
  let j := ((s.launch? launch).bind Launch.slot).getD 0
  { s with cores := s.cores.modify k fun c =>
      let ct := c.ct.modify j f
      { c with ct := ct, barge := { c.barge with waits := c.barge.waits.map fun w =>
          if w.actor.launch = launch && w.seen.isNone && satisfied (ct.getD j 0) w.op then { w with seen := some (ct.getD j 0) } else w } } }

/-- The first step-6 action of a crew leaves its list. -/
def actDone (c : Nat) (s : State) : State := s.mapCrew c fun x => { x with chunk := popped x.chunk }

/-- A command may enter its engine (R226): the releases ahead of it are met, and its core sees what its crew has written. -/
def MayEnter (s : State) (x : Crew) : Prop := (∀ m ∈ x.chunk.rels, m.acts ≠ 0) ∧ s.shown x.uid x.core 1 = true

/-! ### Walks over elements -/

/-- What the counters of element i add to an iterator's base (R339): in each dimension the product of the extents before it divides
i, and what is left of that modulo its own extent counts its stride; how many elements there are, and where one lies. -/
def counted (dims : List Dim) (i : Nat) : Int :=
  ((List.range dims.length).map fun d =>
    ((i / ((dims.take d).map Dim.ext).prod % ((dims[d]?).map Dim.ext).getD 1 : Nat) : Int) * ((dims[d]?).map Dim.str).getD 0).sum
def iterCount (r : Iter) : Nat := (r.dims.map Dim.ext).prod
def iterAddr (r : Iter) (i : Nat) : Dword := BitVec.ofInt 64 (r.base + counted r.dims i)

/-- Elements i to n − 1 of a walk, one after another, each placed at keys, then read or computed, then written there (R342). `fp`:
the flags that they raise; `bytes`: how many bytes they write. -/
def DirectRun (e : Elems) (i n : Nat) (s t : State) (keys : Nat → List Nat) (fp : FpFlags) (bytes : Nat) : Prop :=
  ∃ (st : Nat → State) (fl : Nat → FpFlags) (cnt : Nat → Nat), st i = s ∧ st n = t ∧ fl i = 0 ∧ fl n = fp ∧ cnt i = 0 ∧ cnt n = bytes ∧
    ∀ q, i ≤ q → q < n → ∃ s1 s2 b f, e.place q (st q) = (s1, .direct (keys q) none) ∧ e.value q s1 = (s2, .ok (b, f)) ∧
      st (q + 1) = (keys q).foldl (fun s k => (s.putBytes (cellsAt k b)).markDirty k) s2 ∧ fl (q + 1) = fl q ||| f ∧
      cnt (q + 1) = cnt q + b.length * (keys q).length

/-- Elements i to n − 1 of a walk into one line, gathered there: a later byte replaces an earlier one (R342). -/
def GatherRun (e : Elems) (i n : Nat) (s t : State) (loc : Nat → Loc) (fp : FpFlags) (cells : List (Nat × Byte)) : Prop :=
  ∃ (st : Nat → State) (fl : Nat → FpFlags) (out : Nat → List (Nat × Byte)), st i = s ∧ st n = t ∧ fl i = 0 ∧ fl n = fp ∧ out i = [] ∧
    out n = cells ∧ ∀ q, i ≤ q → q < n → lineOf (loc q).key = lineOf (loc i).key ∧ ∃ s1 b f,
      e.place q (st q) = (s1, .line (loc q)) ∧ e.value q s1 = (st (q + 1), .ok (b, f)) ∧ fl (q + 1) = fl q ||| f ∧
      out (q + 1) = (out q).filter (fun x => !(cellsAt (loc q).key b).any fun y => y.1 == x.1) ++ cellsAt (loc q).key b

/-- A walk over N elements stops before element n, in `t` (R342): it was the last one, or the next goes elsewhere: outside a span of 128
bytes, outside a line, or to a SYSTEM location. -/
def StopsAt (e : Elems) (N n : Nat) (span line : Option Nat) (s t : State) : Prop :=
  (n = N ∧ t = s) ∨ (n < N ∧ ((∃ ks l, e.place n s = (t, .direct ks l) ∧ (line.isSome = true ∨ l.isSome = true ∨ span ≠ some (ks.headD 0 / 128))) ∨
    ∃ l, e.place n s = (t, .line l) ∧ (span.isSome = true ∨ line ≠ some (lineOf l.key))))

/-- One move of a walked command from element i on: what it leaves is `t`, with the next element n and the flags raised; `done` says what
is counted in of the bytes written. -/
inductive WalkMove (id : Nat) (a : Actor) (e : Elems) (N i : Nat) (s : State) : (n : Nat) → FpFlags → (bytes : Nat) → State → Prop
  | direct (n : Nat) (t u : State) (keys : Nat → List Nat) (fp : FpFlags) (bytes : Nat) : i < n → n ≤ N → DirectRun e i n s t keys fp bytes →
      (∀ q, i ≤ q → q < n → (keys q).headD 0 / 128 = (keys i).headD 0 / 128) → StopsAt e N n (some ((keys i).headD 0 / 128)) none t u →
      WalkMove id a e N i s n fp bytes u
  | line (n : Nat) (t u v w : State) (loc : Nat → Loc) (fp : FpFlags) (cells : List (Nat × Byte)) : i < n → n ≤ N →
      GatherRun e i n s t loc fp cells → StopsAt e N n none (some (lineOf (loc i).key)) t u → u.passStore id (loc i) = (v, true) →
      v.engineCommit id a true (loc i) (loc i).key (e.va i) cells = (w, .ok ()) → WalkMove id a e N i s n fp cells.length w
  | system (s1 s2 : State) (l : Loc) (b : List Byte) (fp : FpFlags) : e.place i s = (s1, .direct [] (some l)) → e.value i s1 = (s2, .ok (b, fp)) →
      i < N → e.id = id → e.actor = a → WalkMove id a e N i s (i + 1) fp b.length (s2.engineStore id (s2.actorCrew a).core l b)

/-! ### Tensor arithmetic -/

/-- The key of byte o of the span element (i, j) at a tile of a core (R353). -/
def tileKey (k : Nat) (f64 : Bool) (x : Fin 8) (i j : Nat) : Nat :=
  2 ^ 54 + k * 2 ^ 18 + (32 * x.val + i) * 1024 + j * (if f64 then 8 else 4)

/-- The size, tag and format of the elements of a span. -/
def spanSize (f64 : Bool) : Nat := if f64 then 8 else 4
def spanTag (f64 : Bool) : Fin 16 := if f64 then tF64 else tF32
def spanFmt (f64 : Bool) : Fmt := if f64 then ⟨11, 52⟩ else ⟨8, 23⟩

/-- Memory by key, and flags. -/
abbrev Acc := (Nat → Byte) × FpFlags

/-- The bits of element (i, j) of a span, and their value. -/
def spanBits (k : Nat) (f64 : Bool) (x : Fin 8) (m : Nat → Byte) (i j : Nat) : Nat :=
  leNat ((List.range (spanSize f64)).map fun o => m (tileKey k f64 x i j + o))
def spanVal (k : Nat) (f64 : Bool) (x : Fin 8) (m : Nat → Byte) (i j : Nat) : FVal := (spanFmt f64).decode (spanBits k f64 x m i j)

/-- An element takes a result, whose flags are collected. -/
def putElem (k : Nat) (f64 : Bool) (x : Fin 8) (i j : Nat) (r : Rounded) (z : Acc) : Acc :=
  (fun a => let p := tileKey k f64 x i j
    if p ≤ a ∧ a < p + spanSize f64 then BitVec.ofNat 8 (r.1 / 2 ^ (8 * (a - p))) else z.1 a, z.2 ||| r.2)

/-- Every element of a span takes its result, nothing else changes, and the flags are collected. -/
structure Filled (k : Nat) (f64 : Bool) (x : Fin 8) (rows cols : Nat) (r : Nat → Nat → Rounded) (m : Nat → Byte) (fp : FpFlags) (z : Acc) :
    Prop where
  elems : ∀ i < rows, ∀ j < cols, ∀ o < spanSize f64, z.1 (tileKey k f64 x i j + o) = BitVec.ofNat 8 ((r i j).1 / 2 ^ (8 * o))
  rest : ∀ a, (∀ i < rows, ∀ j < cols, a < tileKey k f64 x i j ∨ tileKey k f64 x i j + spanSize f64 ≤ a) → z.1 a = m a
  flags : ∀ b < 6, z.2.getLsbD b = true ↔ fp.getLsbD b = true ∨ ∃ i < rows, ∃ j < cols, (r i j).2.getLsbD b = true

/-- A product and its sum with a third value, fused and rounded once to nearest (R376, R378). -/
def lessProduct (f : Fmt) (a b c : FVal) : Rounded := sumOf f rne [a, b, c] [(a, b)] [(a.mul b).negate, c]

/-- The reduction of a row, given by its bits and values (R373). -/
def RowResult (f : Fmt) (op : Fin 4) (l : List (Nat × FVal)) (r : Rounded) : Prop :=
  let vs := l.map (·.2)
  (op = 0 → r = sumOf f rne vs [] vs) ∧
  (op = 1 → r.2 = (if vs.any FVal.isSnan then fNV else 0) ∧ ((∃ v ∈ vs, nan v) → r.1 = f.nanBits) ∧
    ((∀ v ∈ vs, ¬ nan v) → ∃ y ∈ l, r.1 = y.1 ∧ ∀ v ∈ vs, ¬ below true y.2 v)) ∧
  (op = 2 → r = sumOf f rne vs [] (vs.map fun v => v.mul v))

/-- The values that TFACT carries from column to column (R376, R377). -/
structure Factored where
  acc : Acc
  repl : Nat
  first : Nat
  nanp : Bool

/-- Column j of TFACT, as the pseudocode of R376 gives it. -/
def factored (k : Nat) (f64 ldlt : Bool) (x : Fin 8) (n tau delta : Nat) (z : Factored) (j : Nat) : Factored :=
  let f := spanFmt f64
  let T := spanTag f64
  let a := fun (z : Acc) i j => spanVal k f64 x z.1 i j
  let rows := List.range' (j + 1) (n - 1 - j)
  let ajj := a z.acc j j
  let keeps := pivKeeps ajj (f.decode tau)
  let d0 := if keeps then spanBits k f64 x z.acc.1 j j else delta
  let d : Rounded := if ldlt then (d0, 0) else sfuOne .sqrt T (f.decode d0)
  let z1 := putElem k f64 x j j d (z.acc.1, z.acc.2 ||| if ajj.isSnan then fNV else 0)
  let z2 := rows.foldl (fun z i => putElem k f64 x i j (sfuDiv T (a z i j) (f.decode d.1)) z) z1
  let z3 := rows.foldl (fun z m => (List.range' m (n - m)).foldl (fun z i =>
    putElem k f64 x i m (lessProduct f (a z i j) (if ldlt then a z1 m j else a z m j) (a z i m)) z) z) z2
  ⟨z3, if keeps then z.repl else z.repl + 1, if keeps ∨ z.first ≠ 0 then z.first else j + 1, z.nanp || (!keeps && ajj.isNan)⟩

/-- Row i of one right-hand-side column of TTRS: s less the products over `ks`, then the division (R378). -/
def solved (k : Nat) (f64 unit trans : Bool) (x y : Fin 8) (c i : Nat) (ks : List Nat) (z : Acc) : Acc :=
  let f := spanFmt f64
  let l := fun (z : Acc) i j => spanVal k f64 x z.1 i j
  let b := fun (z : Acc) i => spanVal k f64 y z.1 i c
  let z := ks.foldl (fun z m => putElem k f64 y i c (lessProduct f (if trans then l z m i else l z i m) (b z m) (b z i)) z) z
  if unit then z else putElem k f64 y i c (sfuDiv (spanTag f64) (b z i) (l z i i)) z

/-- TTRS over all columns, by MODE (R378). -/
def solution (k : Nat) (f64 unit : Bool) (mode : Nat) (x y : Fin 8) (n m : Nat) (z : Acc) : Acc :=
  (List.range m).foldl (fun z c => match mode with
    | 0 => (List.range n).foldl (fun z i => solved k f64 unit false x y c i (List.range i) z) z
    | 1 => (List.range n).reverse.foldl (fun z i => solved k f64 unit true x y c i (List.range' (i + 1) (n - 1 - i)) z) z
    | _ => (List.range n).foldl (fun z i => solved k f64 false false x y c i [] z) z) z

/-- The address of element (i, j) of a shape record (R361). -/
def shapeAddr (h : Shape) (i j : Nat) : Dword :=
  let esz := tagWidth h.tag / 8
  h.base + BitVec.ofNat 64 (if h.major = true then j * h.stride + i * esz else i * h.stride + j * esz)

/-- A command reads `n` bytes from the scratchpads of its raft as a number: no error is in them (R169, R366). -/
def SpadRead (s : State) (a : Actor) (va : Dword) (n v : Nat) : Prop :=
  ∃ l, s.locate (s.actorCrew a) none ⟨true, false, false⟩ va n = (s, .ok l none) ∧ l.region = .spad ∧ l.rt = false ∧ 2 ^ 53 ≤ l.key ∧
    l.key + n ≤ 2 ^ 54 ∧ s.badAt l.key n = false ∧ v = leNat (s.bytes l.key n)

/-- The band of a product that member `p0` of the raft forms (R368): its first row and how many, its first column and how many. -/
def bandAt (m : BitVec 4) (p0 : Nat) (rows : Bool) (M N : Nat) : Nat × Nat × Nat × Nat :=
  let g := max 1 ((List.range 4).filter m.getLsbD).length
  let p := ((List.range p0).filter m.getLsbD).length
  let (gr, gc, pr, pc) := if g = 1 then (1, 1, 0, 0) else if g = 2 ∧ rows = true then (2, 1, p, 0) else if g = 2 then (1, 2, 0, p)
    else if g = 3 then (1, 3, 0, p) else (2, 2, p / 2, p % 2)
  let hr := (M + gr - 1) / gr
  let wc := (N + gc - 1) / gc
  (pr * hr, min M ((pr + 1) * hr) - pr * hr, pc * wc, min N ((pc + 1) * wc) - pc * wc)

/-- The operands of a band as the scratchpads hold them: elements by their bits, and for m8 the nibbles of the scale arrays (R366,
R367). -/
structure Operands (s : State) (a : Actor) (A B : Shape) (r0 h c0 w : Nat) (av bv : Nat → Nat → Nat) (da db : Nat → Nat → Int) : Prop where
  left : ∀ i < h, ∀ k < A.cols, SpadRead s a (shapeAddr A (r0 + i) k) (tagWidth A.tag / 8) (av i k)
  right : ∀ k < A.cols, ∀ j < w, SpadRead s a (shapeAddr B k (c0 + j)) (tagWidth B.tag / 8) (bv k j)
  leftScale : A.tag = tM8 → ∀ i < h, ∀ g < A.cols / 32, let x := (r0 + i) * (A.cols / 32) + g
    ∃ v, SpadRead s a (A.scales + BitVec.ofNat 64 (x / 2)) 1 v ∧ da i g = (BitVec.ofNat 4 (v / 2 ^ (4 * (x % 2)))).toInt
  rightScale : B.tag = tM8 → ∀ j < w, ∀ g < A.cols / 32, let x := (c0 + j) * (A.cols / 32) + g
    ∃ v, SpadRead s a (B.scales + BitVec.ofNat 64 (x / 2)) 1 v ∧ db j g = (BitVec.ofNat 4 (v / 2 ^ (4 * (x % 2)))).toInt

/-- An element of C after `g` groups of G terms in increasing K, each group rounded once with the running value (R367). -/
def chain (f : Fmt) (G K : Nat) (av bv : Nat → FVal) (c : Nat) : Nat → Rounded
  | 0 => (c, 0)
  | g + 1 =>
    let (n, fl) := chain f G K av bv c g
    let ps := (((List.range G).map (g * G + ·)).filter (· < K)).map fun k => (av k, bv k)
    let v := f.decode n
    let r := sumOf f rne (v :: ps.flatMap fun p => [p.1, p.2]) ps (v :: ps.map fun p => p.1.mul p.2)
    (r.1, fl ||| r.2)

/-- The terms of a group by the tag of the operands (R367). -/
def groupTerms (T : Fin 16) : Nat := if T = tM8 then 32 else if T = tF32 then 4 else if T = tF64 then 1 else 16

/-- A value of an operand; m8 has the base exponent of its record and the delta of its group of 32 (R367). -/
def operandVal (T : Fin 16) (base : Int) (d : Nat → Int) (k n : Nat) : FVal := fdecode T (if T = tM8 then base + d (k / 32) else 0) n

/-- The results of a product over a band, from the bytes `m` (R366, R367). -/
def products (cmd : TenCmd) (core : Nat) (x : Fin 8) (fresh : Bool) (A B : Shape) (av bv : Nat → Nat → Nat) (da db : Nat → Nat → Int)
    (m : Nat → Byte) (i j : Nat) : Rounded :=
  let f64 := A.tag == tF64
  let base := fun (h : Shape) => ((cmd.sregs.getD h.basereg 0).truncate 16).toInt
  let G := groupTerms A.tag
  chain (spanFmt f64) G A.cols (fun k => operandVal A.tag (base A) (da i) k (av i k)) (fun k => operandVal A.tag (base B) (db j) k (bv k j))
    (if fresh then 0 else spanBits core f64 x m i j) ((A.cols + G - 1) / G)

/-- The rounding of element q of a command (R357). -/
def drawOf (cmd : TenCmd) (sat : Bool) (q : Nat) : Rounding :=
  ⟨cmd.code, sat, if cmd.code = 6 then (mix64 (prng cmd.key cmd.ctr ⟨q % 32, Nat.mod_lt _ (by decide)⟩ 3 ^^^ BitVec.ofNat 64 (q / 32))).toNat else 0, 64⟩

/-- A pattern of one binary format in a wider or the same one: the same number, the same infinity, or the same NaN with its payload
(R364). -/
def Widened (f g : Fmt) (n v : Nat) : Prop :=
  (f = g → v = n) ∧ (f ≠ g → match f.decode n with
    | .nan _ => v = withSign g (n.testBit (f.eb + f.fb)) (g.infBits + n % 2 ^ f.fb * 2 ^ (g.fb - f.fb))
    | .inf neg => v = withSign g neg g.infBits
    | .num neg m e => ∃ m' e', g.decode v = .num neg m' e' ∧ (m' * 2 ^ e' : ℚ) = m * 2 ^ e)

/-- The result of an element of TSWEEP (R372). -/
def SweepResult (f : Fmt) (T : Fin 16) (r : Rounding) (op : Nat) (alpha a : FVal) (b : Option FVal) (z : Rounded) : Prop :=
  (op = 0 → z = roundTo T 0 r a) ∧
  (∀ y, b = some y →
    (op = 1 → z = sumOf f r [a, y] [] [a, y]) ∧ (op = 2 → z = sumOf f r [a, y] [] [a, y.negate]) ∧
    (op = 3 → z = sumOf f r [a, y] [(a, y)] [a.mul y]) ∧
    (op = 4 ∨ op = 5 → (nan a ∨ nan y → z = (f.nanBits, if a.isSnan || y.isSnan then fNV else 0)) ∧ (¬ nan a → ¬ nan y →
      (below true a y → z = roundTo T 0 r (if op = 4 then y else a)) ∧ (¬ below true a y → z = roundTo T 0 r (if op = 4 then a else y)))) ∧
    (op = 6 → z = sumOf f r [alpha, a, y] [(alpha, a)] [alpha.mul a, y])) ∧
  (op = 6 → b = none → z = sumOf f r [alpha, a] [(alpha, a)] [alpha.mul a])

/-- TENSOR_COMMAND_DISPATCH performs the oldest command of a core whole: it is done with flags, and its core's memory is as P says. -/
def Performs (k : Nat) (cmd : TenCmd) (cmds : List TenCmd) (s : State) (P : Acc → Prop) : Prop :=
  ∃ u fp, Runs (.tensorCommandDispatch k) s u ∧ (u.coreAt k).ten = { cmd with st := .done, fp := fp } :: cmds ∧ P (u.byte, fp)

/-- A command stands first in the queue of a core's tensor engine, and no other is within its elements. -/
structure First (s : State) (k : Nat) (cmd : TenCmd) (cmds : List TenCmd) : Prop where
  queue : (s.coreAt k).ten = cmd :: cmds
  core : k < s.cores.length
  others : ∀ y ∈ cmds, y.id ≠ cmd.id ∧ ∀ i, y.st ≠ .running i

end Sys2Proof.Claims

/-! ### Merges and engines -/

/-- R296, R297, R300, R301: two adjacent views merge; the routine of a USER merge starts and its result is taken.
Rests on readings and choices of the model (log entries 18 and 50). -/
def Obligations.Merges : Prop :=
  ∀ (s : State) (c : Nat) (x : Crew) (i : Fin 16) (j k : Nat) (v w : ViewVal), s.crew? c = some x → FirstPair x.task.block i j k v w → x.cur = none →
    let e := s.redOf x.task.launch i
    (∀ h t n m h' t' n' m', mergeView 6 (.app h t n m) (.app h' t' n' m') = .app h t' (n + n') (m + m')) ∧
    (e.kind ≠ 6 → e.kind ≠ 7 → (∀ h t n m, v ≠ .app h t n m) → ∃ b', Merged x.task.block b' i j k (mergeView e.kind v w) ∧
      Runs (.viewMerge c i) s (s.mapCrew c fun x => { x with task := { x.task with block := b' } })) ∧
    (e.kind = 7 → (∀ y ∈ s.crews, y.uid ≠ 0 → y.task.kind = .routine → y.task.merge ≠ some (c, i)) → x.post = [] → x.task.merge = none →
      c ≠ 0 → Fresh s → ∀ a b, v = .usr a → w = .usr b → ∃ t y, Runs (.userMergeRoutine c i) s t ∧ t.crew? s.uids = some y ∧
        y.task.kind = .routine ∧ y.task.merge = some (c, i) ∧ y.phase = .unstarted ∧ (y.place = .waiting x.core ∨ InSlot y x.core) ∧
        y.r.frontier = [⟨e.routine.truncate 57, 1, 0, false⟩] ∧ y.r.tmask = 1 ∧ y.r.pedigree = x.r.pedigree ∧
        ∀ n : Fin 8, y.r.s[1 + n.val] = a.extractLsb' (64 * n.val) 64 ∧ y.r.s[9 + n.val] = b.extractLsb' (64 * n.val) 64) ∧
    (∀ y, y ∈ s.crews → y.uid ≠ 0 → y.uid ≠ c → c ≠ 0 → y.task.kind = .routine → y.task.merge = some (c, i) → y.task.group = none →
      (∀ z ∈ s.crews, z.task.kind = .routine → z.task.merge = some (c, i) → z = y) →
      y.task.args = [BitVec.ofNat 64 j, BitVec.ofNat 64 k] → k < 2 ^ 64 →
      y.phase = .run → y.r.live = 0 → y.r.frontier = [] → y.cur = none → y.chunk.clauses = 0 → y.r.inflight = [] → y.post = [] → y.task.range = none →
      ∃ (t : State) (b' : List BlockItem) (im : BitVec 512), Runs (.userMergeRoutine c i) s t ∧ t.crew? c = some { x with task := { x.task with block := b' } } ∧
        Merged x.task.block b' i j k (.usr im) ∧ (∀ n : Fin 8, im.extractLsb' (64 * n.val) 64 = y.r.s[1 + n.val]) ∧ t.crew? y.uid = none)

/-- R339, R341 to R343, R345, R348: where the elements of a copy lie, what each reads and where it is written; how its bytes are counted
into a barrier object: at once where its writes are visible at the object's scope (R331), else later. -/
def Sys2Proof.Claims.CopyElements : Prop :=
  ∀ (j : BrgCmd) (d : Iter) (src : Option Iter) (s : State) (i k n : Nat),
    let e := j.elems d src
    let va := iterAddr d i
    let size := 2 ^ d.esz
    let flags := j.op.flags
    let c := s.actorCrew j.actor
    e.va i = va ∧ d.count = iterCount d ∧
    (flags / 2 ^ 5 % 2 = 0 → ∀ s1 l p,
      (s.locate c none ⟨false, true, false⟩ va size = (s1, .ok l p) →
        e.place i s = (s1, if l.region = .spad then .direct [l.key] none else if l.region = .system then .direct [] (some l) else .line l)) ∧
      ∀ f, s.locate c none ⟨false, true, false⟩ va size = (s1, .fault f) → e.place i s = (s1, .fault f va)) ∧
    (flags / 2 ^ 5 % 2 = 1 →
      let o := c.r.spmBase.toNat * 128 + va.toNat % 2 ^ 32
      let ms := (List.range 4).filter fun m => (flags / 2 ^ 6).testBit m
      let inWindow := 2 ^ 56 ≤ va.toNat ∧ va.toNat < 2 ^ 56 + 2 ^ 32
      (¬ inWindow → e.place i s = (s, .fault .prot va)) ∧
      (inWindow → (∃ m ∈ ms, (s.raftMembers (c.core / 4)).length ≤ m) → e.place i s = (s, .fault .prot va)) ∧
      ∀ cores : List Nat, inWindow → ms.map (fun m => (s.raftMembers (c.core / 4))[m]?) = cores.map some →
        let fits := ∀ x ∈ cores, o + size ≤ 2 ^ 19 ∧ s.inSomeWindow j.actor.launch x o size = true
        (fits → e.place i s = (s, .direct (cores.map fun x => 2 ^ 53 + x * 2 ^ 19 + o) none)) ∧
        (¬ fits → e.place i s = (s, .fault .spmbound va))) ∧
    (∀ x fill tag f, j.op = .cpyf x fill tag f → size ≤ 128 →
      e.value i s = (s, .ok ((List.range size).map fun o => BitVec.ofNat 8 (fill.toNat / 2 ^ (8 * (o % 8))), 0))) ∧
    (∀ x y tag f r, j.op = .cpy x y tag f → src = some r → ∀ s1,
      (∀ bs, s.engineRead j.actor true (iterAddr r i) size = (s1, .ok bs) → e.value i s = (s1, .ok (bs, 0))) ∧
      ∀ f v, s.engineRead j.actor true (iterAddr r i) size = (s1, .fault f v) → e.value i s = (s1, .fault f v)) ∧
    (flags / 2 ^ 10 % 2 = 0 ∨ n = 0 → s.copyCount k j n = s) ∧
    (flags / 2 ^ 10 % 2 = 1 → n ≠ 0 → k < s.cores.length →
      let o := objectAt k ⟨flags / 2 ^ 11 % 8, Nat.mod_lt _ (by decide)⟩ (flags / 2 ^ 14 % 16)
      ((s.coreAt k).barge.owed = [] → s.shown j.id k o.scope.val = true → s.copyCount k j n = s.addBytes o (-(BitVec.ofNat 64 n))) ∧
      ((∀ x ∈ (s.coreAt k).barge.owed, s.shown x.id k x.obj.scope.val = false) → s.shown j.id k o.scope.val = false →
        s.copyCount k j n = withBarge k (fun b => { b with owed := b.owed ++ [⟨j.id, j.actor.launch, o, n⟩] }) s))

/-- R203, R226, R342, R364: an engine's read of a scratchpad and its commit of a line: the bytes as they stand there; and the bytes of a
line that is no STREAM line stand at its home at once, where a released STREAM line waits (R217). -/
def Sys2Proof.Claims.EngineAccesses : Prop :=
  ∀ (s : State) (a : Actor) (va : Dword) (n v id : Nat) (race : Bool) (l : Loc) (cells : List (Nat × Byte)),
    (SpadRead s a va n v → ∃ b, s.engineRead a race va n = (s, .ok b) ∧ leNat b = v) ∧
    (PlainTables s → l.rt = false → cells ≠ [] → (∀ x ∈ cells, lineOf x.1 = lineOf l.key) → l.key < 2 ^ 53 →
      (∀ z, s.keyed.find? (fun z => z.line == lineOf l.key) = some z → z.key = s.material l.slot.toNat) →
      (l.region ≠ .stream → ∃ t, s.engineCommit id a race l l.key va cells = (t, .ok ()) ∧ ∀ k < 2 ^ 53, t.byte k = overlay cells s.byte k) ∧
      (l.region = .stream → ∃ t x, s.engineCommit id a race l l.key va cells = (t, .ok ()) ∧ t.streams = s.streams ++ [x] ∧ t.byte = s.byte ∧
        x.crew = id ∧ x.seen = [] ∧ x.line.line = lineOf l.key ∧ x.line.data = .bytes (cells.map fun y => (y.1 % 128, y.2))))

/-- R226, R336, R337, R339, R340, R342, R344, R346, R348 to R350: the barge: entry of copies, checked there, and of tag commands; the
start of a copy, its elements and lines, its completion, and the end of a wait for tags.
Rests on readings and choices of the model (log entries 40, 44, 45, 46, 56 and 75). -/
def Obligations.BargeSteps : Prop := CopyElements ∧ EngineAccesses ∧
  ∀ (s : State) (c k n : Nat) (x : Crew) (org : Origin) (id : Nat) (op : BrgOp) (rest : List Act) (j : BrgCmd),
    let cmd : BrgCmd := ⟨id, ⟨c, x.task.launch, x.r.pedigree⟩, org, op, .queued, none, none⟩
    let ct := bitmap s x.core x.task.launch
    let b := (s.coreAt k).barge
    (s.crew? c = some x → x.phase = .acting → x.chunk.acts = ⟨org, .brg id op⟩ :: rest → MayEnter s x → (s.coreAt x.core).barge.queue.length < 32 →
      let i := Instr.bargeCommandEntry c
      (∀ d src tag f, op = .cpy d src tag f ∨ op = .cpyf d src tag f → ∀ s1 out, s.copyChecks x.core cmd.actor op = (s1, out) →
        let queued := fun (j : BrgCmd) => withBarge x.core (fun b => { b with queue := b.queue ++ [j] }) s1
        (∀ recs, out = .ok recs → Runs i s (actDone c (queued { cmd with recs := some recs }))) ∧
        (∀ e a, out = .fault e a → e ≠ .memerr →
          Runs i s (actDone c ((queued { cmd with st := .suspended 0 }).engineFault cmd.actor org e a))) ∧
        ∀ a, out = .fault .memerr a → Runs i s (actDone c ((commandOver c id [] s1).engineFault cmd.actor org .memerr a))) ∧
      (∀ d m, (op = .waitAny d m → ct &&& m ≠ 0 → Runs i s (actDone c (commandOver c id [.s d (ct &&& m)] s))) ∧
        (op = .waitAll d m → ct &&& m = m → Runs i s (actDone c (commandOver c id [.s d (ct &&& m)] s))) ∧
        ((op = .waitAny d m ∧ ct &&& m = 0) ∨ (op = .waitAll d m ∧ ct &&& m ≠ m) →
          ((s.coreAt x.core).barge.waits.filter fun w => w.actor.crew == c).length < 8 →
          Runs i s (actDone c (withBarge x.core (fun b => { b with waits := b.waits ++ [cmd] }) s))) ∧
        (op = .tagFf d m → ∃ y : Nat, y ≤ 64 ∧ (∀ p < y, (ct &&& m).getLsbD p = false) ∧ (y < 64 → (ct &&& m).getLsbD y = true) ∧
          Runs i s (actDone c (commandOver c id [.s d (BitVec.ofNat 64 y)] s)))) ∧
      (∀ m, op = .tagClr m → Runs i s (actDone c (commandOver c id [] (withBitmap x.core x.task.launch (fun y => y &&& ~~~m) s))))) ∧
    (∀ pre q d src, b.queue = pre ++ j :: q → (∀ y ∈ pre, y.st ≠ .queued) → j.st = .queued → (∀ y ∈ pre ++ q, y.id ≠ j.id) →
      b.jobs.length < 4 → j.recs = some (d, src) →
      Runs (.copyStart k) s (withBarge k (fun b => { b with queue := pre ++ q, jobs := b.jobs ++ [{ j with st := .running d.start }] }) s)) ∧
    (∀ i d src u fp bytes m, b.jobs[n]? = some j → j.st = .running i → j.recs = some (d, src) →
      let e := j.elems d src
      let stands := fun (st : CmdState) => withBarge k fun b => { b with jobs := b.jobs.set n { j with st := st } }
      (WalkMove j.id j.actor e (iterCount d) i s m fp bytes u → Runs (.copyLineCommit k n) s (stands (.running m) (u.copyCount k j bytes))) ∧
      ∀ keys v f x, i ≤ m → m < iterCount d → DirectRun e i m s u keys fp bytes →
        (∀ q, i ≤ q → q < m → (keys q).headD 0 / 128 = (keys i).headD 0 / 128) → e.place m u = (v, .fault f x) → f ≠ .memerr →
        Runs (.copyLineCommit k n) s ((stands (.suspended m) (v.copyCount k j bytes)).engineFault j.actor j.org f x)) ∧
    (∀ i d src, b.jobs[n]? = some j → j.op.isCopy = true → j.st = .running i → j.recs = some (d, src) → d.count ≤ i →
      (j.op.flags / 2 ^ 4 % 2 = 1 → s.shown j.id k (j.op.flags % 8) = true) →
      Runs (.copyCompletion k n) s (commandOver j.actor.crew j.id [] (withBitmap k j.actor.launch (fun y => y ||| BitVec.ofNat 64 (2 ^ j.op.tag))
        (withBarge k (fun b => { b with jobs := b.jobs.eraseIdx n }) s)))) ∧
    (b.waits[n]? = some j → ∀ d m, let ct := j.seen.getD (bitmap s k j.actor.launch)
      ((j.op = .waitAny d m ∧ ct &&& m ≠ 0) ∨ (j.op = .waitAll d m ∧ ct &&& m = m)) →
      Runs (.tagWaitCompletion k n) s (commandOver j.actor.crew j.id [.s d (ct &&& m)]
        (withBarge k (fun b => { b with waits := b.waits.eraseIdx n }) s)))

/-- R361, R362, R364: the records of a tensor command: their fields; how one is read, in the own-core window and aligned; and the limits
of TLD and TST. -/
def Sys2Proof.Claims.ShapeRecords : Prop :=
  ∀ (s s1 : State) (a : Actor) (k : Nat) (x : Fin 8) (va : Dword) (b : List Byte) (op : TenOp), (op = .ld x va ∨ ∃ sat, op = .st x va sat) →
    let field := fun (o n : Nat) => leNat ((b.drop o).take n)
    let h := parseShape b
    let wide := h.tag = tF64
    let bad := h.rows = 0 ∨ h.cols = 0 ∨ 2 ^ 57 ≤ field 0 8 ∨ 2 ≤ field 21 1 ∨ field 23 1 ≠ 0 ∨ field 32 32 ≠ 0 ∨ field 20 1 < 9 ∨ 12 < field 20 1 ∨
      field 22 1 ≠ 0 ∨ field 24 8 ≠ 0 ∨ 32 * (8 - x.val) < h.rows ∨ (if wide then 128 else 256) < h.cols
    (h.base = BitVec.ofNat 64 (field 0 8) ∧ h.rows = field 8 4 ∧ h.cols = field 12 4 ∧ h.stride = field 16 4 ∧ h.tag.val = field 20 1 % 16 ∧
      (h.major = true ↔ field 21 1 % 2 = 1) ∧ h.basereg = field 22 1 ∧ h.scales = BitVec.ofNat 64 (field 24 8)) ∧
    (va.toNat < 2 ^ 56 ∨ 2 ^ 56 + 2 ^ 32 ≤ va.toNat ∨ va.toNat % 64 ≠ 0 → s.tenRecords k a op = (s, .fault .misalign va)) ∧
    (2 ^ 56 ≤ va.toNat → va.toNat < 2 ^ 56 + 2 ^ 32 → va.toNat % 64 = 0 → s.engineRead a false va 64 = (s1, .ok b) →
      (bad → s.tenRecords k a op = (s1, .fault .shape va)) ∧ (¬ bad → s.tenRecords k a op = (s1, .ok [(va, b)])))

/-- R67, R226, R355, R358: a command enters the tensor engine with its records, behind those on its tiles whose chunks committed earlier, or
the fault of its records suspends it; its crew uses the tiles that it names. -/
def Sys2Proof.Claims.TensorEntry : Prop :=
  ∀ (s s1 : State) (c id code : Nat) (ctr key : Dword) (org : Origin) (x : Crew) (rest : List Act) (op : TenOp), s.crew? c = some x →
    x.phase = .acting → x.chunk.acts = ⟨org, .ten id op code ctr key⟩ :: rest → MayEnter s x →
    (s.coreAt x.core).ten.length < 16 → (∀ y ∈ (s.coreAt x.core).ten, y.id ≠ id) →
    let i := Instr.tensorCommandEntry c
    let ahead := ∃ y ∈ s.crews, y.uid ≠ c ∧ y.core = x.core ∧ (y.phase = .granted ∨ y.phase = .acting) ∧ y.chunk.seq < x.chunk.seq ∧
      ∃ a ∈ y.chunk.acts, ∃ id' op' code' ctr' key', a.kind = .ten id' op' code' ctr' key' ∧ s.tileMask x.core op' [] &&& s.tileMask x.core op [] ≠ 0
    let cmd := fun st raw => (⟨id, ⟨c, x.task.launch, x.r.pedigree⟩, org, op, st, code, ctr, key, raw, x.r.s.toList, 0, false⟩ : TenCmd)
    let queued := withTen x.core (fun l => l ++ [cmd .queued []]) s
    let becomes := fun (y : TenCmd) => withTen x.core (List.map fun z => if z.id = id then y else z)
    (ahead → Runs i s s) ∧
    (¬ ahead → (∀ raw, queued.tenRecords x.core (cmd .queued []).actor op = (s1, .ok raw) →
        Runs i s (actDone c ((becomes (cmd .queued raw) s1).nameTiles x.core (cmd .queued raw)))) ∧
      (∀ f v, queued.tenRecords x.core (cmd .queued []).actor op = (s1, .fault f v) → f ≠ .memerr →
        Runs i s (actDone c ((becomes (cmd (.suspended 0) []) (s1.nameTiles x.core (cmd .queued []))).engineFault (cmd .queued []).actor org f v))) ∧
      ∀ t m, op = .zero t m → 1 ≤ m → m ≤ 8 - t.val → Runs i s (State.mapCrew c (fun x => { x with
          chunk := popped x.chunk, tiles := x.tiles ||| BitVec.ofNat 8 ((2 ^ m - 1) * 2 ^ t.val) }) queued))

/-- R353, R363, R373 to R378: the commands on tiles: TZERO, TMOV, TRED, TSCL, TFACT and TTRS, performed whole. -/
def Sys2Proof.Claims.TileCommands : Prop :=
  (∀ d tau, pivKeeps d tau = true ↔ below false tau d) ∧
  ∀ (s : State) (k : Nat) (cmd : TenCmd) (cmds : List TenCmd) (x y : Fin 8) (sp : Dword), First s k cmd cmds → Memory.wf s.mem → cmd.st = .queued →
    let f64 := sp.getLsbD 32
    let f := spanFmt f64
    let n := rows sp
    let m := cols sp
    let fit := n ≤ 256 ∧ m ≤ 1024 / spanSize f64
    (∀ c, cmd.op = .zero x c → Performs k cmd cmds s fun z => z.2 = cmd.fp ∧
      ∀ a, z.1 a = if 2 ^ 54 + k * 2 ^ 18 + x.val * 2 ^ 15 ≤ a ∧ a < 2 ^ 54 + k * 2 ^ 18 + (x.val + c) * 2 ^ 15 then 0 else s.byte a) ∧
    (∀ tr, cmd.op = .mov x y sp tr → fit → (tr = true → n ≤ 1024 / spanSize f64) → Performs k cmd cmds s
      (if tr = true then Filled k f64 x m n (fun i j => (spanBits k f64 y s.byte j i, 0)) s.byte cmd.fp
        else Filled k f64 x n m (fun i j => (spanBits k f64 y s.byte i j, 0)) s.byte cmd.fp)) ∧
    (∀ op : Fin 4, cmd.op = .red x y op sp → op ≠ 3 → 1 ≤ m → Performs k cmd cmds s fun z => ∃ st : Nat → Acc, st 0 = (s.byte, 0) ∧
      (z.1, z.2) = ((st n).1, cmd.fp ||| (st n).2) ∧ ∀ i < n, ∃ r,
        RowResult f op ((List.range m).map fun j => (spanBits k f64 y (st i).1 i j, spanVal k f64 y (st i).1 i j)) r ∧
        st (i + 1) = putElem k f64 x i (sp.toNat / 2 ^ 40 % 2 ^ 8) r (st i)) ∧
    (∀ (factor : Dword) (col scalar : Bool) (va : Dword) (arr : List Byte), cmd.op = .scl x factor sp col scalar →
      cmd.raw = (if scalar then [] else [(va, arr)]) → fit →
      let size := spanSize f64
      let by_ := fun i j => f.decode (if scalar = true then factor.toNat % 2 ^ (8 * size)
        else leNat ((arr.drop (size * if col = true then j else i)).take size))
      Performs k cmd cmds s (Filled k f64 x n m (fun i j => let v := spanVal k f64 x s.byte i j
        sumOf f rne [v, by_ i j] [(v, by_ i j)] [v.mul (by_ i j)]) s.byte cmd.fp)) ∧
    (∀ tau delta status, cmd.op = .fact x sp tau delta status →
      let w := 2 ^ (8 * spanSize f64)
      let z := (List.range n).foldl (factored k f64 (sp.getLsbD 37) x n (tau.toNat % w) (delta.toNat % w)) ⟨(s.byte, 0), 0, 0, false⟩
      let word := BitVec.ofNat 64 (z.repl % 2 ^ 16 + z.first * 2 ^ 16 + z.nanp.toNat * 2 ^ 32)
      (status = 0 → Performs k cmd cmds s fun u => u = (z.acc.1, cmd.fp ||| z.acc.2)) ∧
      (∀ (l : Loc) (s1 s2 : State), status ≠ 0 → cmd.raw ≠ [] → s.enginePlace cmd.actor status 8 = (s1, .ok l) → s1.passStore cmd.id l = (s2, true) →
        s2.byte = s.byte → Memory.wf s2.mem → ∃ v : State, v.byte = z.acc.1 ∧ { v with mem := s2.mem } = s2 ∧
          Runs (.tensorCommandDispatch k) s (withTen k (List.map fun y => if y.id = cmd.id then { cmd with st := .done, fp := cmd.fp ||| z.acc.2 } else y)
            (v.engineStore cmd.id k l (leBytes 8 word.toNat))))) ∧
    (cmd.op = .trs x y sp → sp.toNat / 2 ^ 34 % 4 ≤ 2 →
      let z := solution k f64 (sp.getLsbD 36) (sp.toNat / 2 ^ 34 % 4) x y n m (s.byte, 0)
      Performs k cmd cmds s fun u => u = (z.1, cmd.fp ||| z.2))

/-- R366 to R371: the products: TMMA on one core, and by the members of a gang together, each over its band, with operands in the
scratchpads of the raft. -/
def Sys2Proof.Claims.TensorProducts : Prop :=
  ∀ (s : State) (k : Nat) (cmd : TenCmd) (cmds : List TenCmd) (x : Fin 8) (va vb : Dword) (fresh rw : Bool) (m : BitVec 4) (ra rb : List Byte),
    cmd.op = .mma x va vb fresh rw m → cmd.raw = [(va, ra), (vb, rb)] → Memory.wf s.mem →
    let A := parseShape ra
    let B := parseShape rb
    let f64 := A.tag == tF64
    let result := fun (c : Nat) (d : TenCmd) (t : Fin 8) (z : Acc) =>
      ∀ r0 h c0 w, bandAt m (s.memberOf c) rw A.rows B.cols = (r0, h, c0, w) →
      ∀ av bv da db, Operands s d.actor A B r0 h c0 w av bv da db → w ≤ 1024 / spanSize f64 →
        Filled c f64 t h w (products d c t fresh A B av bv da db s.byte) s.byte d.fp z
    (m = 0 → First s k cmd cmds → cmd.st = .queued → (∃ av bv da db, Operands s cmd.actor A B 0 A.rows 0 B.cols av bv da db) →
      Performs k cmd cmds s (result k cmd x)) ∧
    (∀ (cs : Nat → TenCmd) (ds : Nat → List TenCmd) (ts : Nat → Fin 8) (xa xb : Nat → Dword), 2 ≤ ((List.range 4).filter m.getLsbD).length →
      k ∈ s.gangCores (k / 4) m → cs k = cmd →
      (∀ c ∈ s.gangCores (k / 4) m, First s c (cs c) (ds c) ∧ (cs c).st = .latched ∧ (cs c).paired = true ∧ (cs c).latchKey = cmd.latchKey ∧
        (cs c).op = .mma (ts c) (xa c) (xb c) fresh rw m ∧ (cs c).raw = [(xa c, ra), (xb c, rb)] ∧
        (∀ r0 h c0 w, bandAt m (s.memberOf c) rw A.rows B.cols = (r0, h, c0, w) →
          w ≤ 1024 / spanSize f64 ∧ 32 * (ts c).val + h ≤ 256 ∧ ∃ av bv da db, Operands s (cs c).actor A B r0 h c0 w av bv da db)) →
      ∃ u, Runs (.tensorCommandDispatch k) s u ∧
        (∀ a, (∀ c ∈ s.gangCores (k / 4) m, ∀ r0 h c0 w, bandAt m (s.memberOf c) rw A.rows B.cols = (r0, h, c0, w) →
          ∀ i < h, ∀ j < w, a < tileKey c f64 (ts c) i j ∨ tileKey c f64 (ts c) i j + spanSize f64 ≤ a) → u.byte a = s.byte a) ∧
        ∀ c ∈ s.gangCores (k / 4) m, ∃ fp, (u.coreAt c).ten = { cs c with st := .done, fp := fp } :: ds c ∧
        ∀ r0 h c0 w, bandAt m (s.memberOf c) rw A.rows B.cols = (r0, h, c0, w) →
        ∀ av bv da db, Operands s (cs c).actor A B r0 h c0 w av bv da db → ∀ i < h, ∀ j < w, ∀ o < spanSize f64,
          u.byte (tileKey c f64 (ts c) i j + o) = BitVec.ofNat 8 ((products (cs c) c (ts c) fresh A B av bv da db s.byte i j).1 / 2 ^ (8 * o)))

/-- R357, R358, R364, R365, R372: the elements of TLD, TST and TSWEEP: where each lies, what it reads and what it becomes; and a move over
them. -/
def Sys2Proof.Claims.WalkedCommands : Prop :=
  ∀ (s : State) (k q : Nat) (cmd : TenCmd) (x : Fin 8) (va : Dword) (b : List Byte),
    let h := parseShape b
    let f64 := h.tag == tF64
    let esz := tagWidth h.tag / 8
    let i := q / h.cols
    let j := q % h.cols
    let c := s.actorCrew cmd.actor
    let goes := fun (e : Elems) (at_ : Dword) (n : Nat) => ∀ s1 l p, s.locate c none ⟨false, true, false⟩ at_ n = (s1, .ok l p) →
      e.place q s = (s1, if l.region = .spad then .direct [l.key] none else if l.region = .system then .direct [] (some l) else .line l)
    (cmd.op = .ld x va → cmd.raw = [(va, b)] → tagBin h.tag = true → ∃ e, cmd.elems k = some (e, h.rows * h.cols) ∧
      e.place q s = (s, .direct [tileKey k f64 x i j] none) ∧ ∀ s1 bs, bs.length = esz →
      s.engineRead cmd.actor true (shapeAddr h i j) esz = (s1, .ok bs) →
      ∃ v, Widened (fmt h.tag) (spanFmt f64) (leNat bs) v ∧ e.value q s = (s1, .ok (leBytes (spanSize f64) v, 0))) ∧
    (∀ sat, cmd.op = .st x va sat → cmd.raw = [(va, b)] → tagBin h.tag = true → ∃ e, cmd.elems k = some (e, h.rows * h.cols) ∧
      e.va q = shapeAddr h i j ∧ goes e (shapeAddr h i j) esz ∧
      let r := roundTo h.tag 0 (drawOf cmd sat q) (spanVal k f64 x s.byte i j)
      e.value q s = (s, .ok (leBytes esz r.1, r.2))) ∧
    (∀ d a y W rd rx ry, cmd.op = .sweep d a y W → cmd.raw = (d, rd) :: (a, rx) :: (y.map fun y => (y, ry)).toList →
      let D := parseIter rd
      let X := parseIter rx
      let Y := parseIter ry
      let tagOk := fun (t : Nat) => 9 ≤ t ∧ t ≤ 12
      tagOk D.tag → tagOk X.tag → tagOk Y.tag → ∃ e, cmd.elems k = some (e, iterCount D) ∧ e.va q = iterAddr D q ∧
        ∀ T TX TY : Fin 16, T.val = D.tag → TX.val = X.tag → TY.val = Y.tag → goes e (iterAddr D q) (tagWidth T / 8) ∧
          ∀ s1 s2 bx by_, s.engineRead cmd.actor true (iterAddr X q) (tagWidth TX / 8) = (s1, .ok bx) →
            (y ≠ none → s1.engineRead cmd.actor true (iterAddr Y q) (tagWidth TY / 8) = (s2, .ok by_)) → (y = none → s2 = s1) →
            W.toNat % 2 ^ 4 ≤ 6 → (y = none → W.toNat % 2 ^ 4 = 0 ∨ W.toNat % 2 ^ 4 = 6) → (y ≠ none → W.toNat % 2 ^ 4 ≠ 0) →
            ∃ z, SweepResult (fmt T) T (drawOf cmd (W.toNat.testBit 8) q) (W.toNat % 2 ^ 4) ((⟨8, 23⟩ : Fmt).decode (W.toNat / 2 ^ 32))
                ((fmt TX).decode (leNat bx)) (if y = none then none else some ((fmt TY).decode (leNat by_))) z ∧
              e.value q s = (s2, .ok (leBytes (tagWidth T / 8) z.1, z.2))) ∧
    (∀ cmds e N i n u fp bytes, First s k cmd cmds → cmd.raw ≠ [] → cmd.elems k = some (e, N) →
      (cmd.st = .running i ∨ ((cmd.st = .queued ∨ cmd.st = .resumed i) ∧ i = cmd.start ∧ cmd.op.members = 0)) →
      (WalkMove cmd.id cmd.actor e N i s n fp bytes u → Runs (.tensorCommandDispatch k) s (withTen k (List.map fun y => if y.id = cmd.id then
        { cmd with st := if n = N then .done else .running n, fp := cmd.fp ||| fp } else y) u)) ∧
      ∀ keys v f va, i ≤ n → n < N → DirectRun e i n s u keys fp bytes →
        (∀ q, i ≤ q → q < n → (keys q).headD 0 / 128 = (keys i).headD 0 / 128) → e.place n u = (v, .fault f va) → f ≠ .memerr → cmd.paired = false →
        Runs (.tensorCommandDispatch k) s ((withTen k (List.map fun y => if y.id = cmd.id then { cmd with st := .suspended n, fp := cmd.fp ||| fp } else y) v).engineFault
          cmd.actor cmd.org f va))

/-- R67, R353, R355 to R379: the tensor engine: entry with the records, what the commands compute and write, the walked ones element by
element, the products of a gang, completion, and pairing at the raft latch.
Rests on readings and choices of the model (log entries 44, 75 and 120). -/
def Obligations.TensorSteps : Prop := ShapeRecords ∧ TensorEntry ∧ TileCommands ∧ TensorProducts ∧ WalkedCommands ∧
  ∀ (s : State) (k : Nat) (cmd : TenCmd) (cmds : List TenCmd),
    ((s.coreAt k).ten = cmd :: cmds → cmd.st = .done → cmd.op.members = 0 → (∀ y ∈ cmds, y.id ≠ cmd.id) →
      (∀ z ∈ s.streams, z.crew = cmd.id → k ∈ z.seen) →
      Runs (.tensorCommandCompletion k) s (State.mapCrew cmd.actor.crew (fun w => { w with tenFp := w.tenFp ||| cmd.fp })
        (commandOver cmd.actor.crew cmd.id [] (withTen k (fun _ => cmds) s)))) ∧
    ((∀ y ∈ (s.coreAt k).ten, y.st = .done → ∃ z ∈ s.streams, z.crew = y.id ∧ k ∉ z.seen) → Runs (.tensorCommandCompletion k) s s) ∧
    (∀ (raft a b : Nat) (y z : TenCmd) (mm : BitVec 4) (fresh rw : Bool) (xa ya xb yb : Dword) (ts ts' : Fin 8),
      s.raftMembers raft = [4 * raft, 4 * raft + 1, 4 * raft + 2, 4 * raft + 3] → mm = 3 → a = 4 * raft → b = 4 * raft + 1 → b < s.cores.length →
      y.op = .mma ts xa ya fresh rw mm → z.op = .mma ts' xb yb fresh rw mm → y.raw.map (·.2) = z.raw.map (·.2) →
      y.st = .latched → y.paired = false → z.st = .latched → z.paired = false → (s.coreAt a).ten = [y] → (s.coreAt b).ten = [z] →
      Runs (.latchPairing raft) s (withTen b (fun _ => [{ z with paired := true }]) (withTen a (fun _ => [{ y with paired := true }]) s)))

namespace Sys2Proof.Claims
open Sys2Proof.Machine

/-! ### The scheduler -/

/-- No read from outside waits (R203, R246): no partial waits to merge, no crew writes what it has committed. -/
structure Quiet (s : State) : Prop where
  partials : s.partials = []
  writers : ∀ c ∈ s.crews, c.phase ≠ .granted

/-- No request of an agent outside waits: of the host (`none`), or of a package (R202). -/
def Unqueued (s : State) (agent : Option Nat) : Prop :=
  ∀ y ∈ s.inbound, match y.req with
    | .peerInboundAccess src _ _ => agent ≠ some src
    | _ => agent ≠ none

/-- A request joins those that wait, with what it needs of BAR2 as it stands now (R202, R414). -/
def queued (s : State) (i : Instr) : State :=
  { s with uids := s.uids + 1, inbound := s.inbound ++ [⟨s.uids, s.hub.bar2base, s.hub.bar2key, i⟩] }

/-- No write rolls a chunk back, no landing is busy, no read waits. -/
structure Calm (s : State) : Prop where
  chunks : ∀ c ∈ s.crews, c.uncommitted = true → c.chunk.rsig = 0
  landings : ∀ y ∈ s.landings, y.held = [] ∧ y.waiting = []
  quiet : Quiet s

/-- The descriptor table stands in HBM, and its entry of a queue reads as `d` (R411). -/
structure DescAt (s : State) (q : Nat) (d : Desc) : Prop where
  hbm : isHbm (s.sched.qtbase.toNat + 128 * q) = true
  read : ∃ ok, parseDesc (s.bytes (s.sched.qtbase.toNat + 128 * q) 128) = (d, ok)

/-- A queue's standing once its STATE has been read and its tail is `tail` (R404, R411 to R413, R423): a saved launch keeps it
ready, a STATE other than 0 and 1 refuses its packets. -/
def stands (s : State) (d : Desc) (tail : Nat) (x : Queue) : Queue :=
  let on := d.state ≠ 0 ∧ x.copying = false
  let saved := (s.launchOf x.num).any Launch.saved = true
  { x with
    tail := tail, disabled := d.state == 0, refused := x.refused || decide (1 < d.state)
    since := if on ∧ (x.head < tail ∨ saved) then some (if x.head < x.tail ∨ saved then x.since.getD s.now else s.now) else none }

/-- The record of a STATE other than 0 and 1 that the scheduler reads (R411). -/
def stateLogged (s : State) (d : Desc) (x : Queue) : State :=
  if 1 < d.state ∧ x.refused = false then s.event 5 0 .descriptor x.num 0 else s

/-- A packet that R402 and R403 accept, its reserved bytes and its ENTRY aside. -/
structure PacketOk (s : State) (p : Packet) : Prop where
  dies : p.dieset ≠ 0
  once : ∀ i j : Fin 8, i ≠ j → p.dieset.getLsbD i.val = true → p.dieset.getLsbD j.val = true →
    s.hub.regs.diemap.getD i.val 0 ≠ s.hub.regs.diemap.getD j.val 0
  cores : s.hub.regs.coresIn p.dieset ≠ []
  crews : if p.mode = 2 then 1 ≤ p.crews ∧ p.crews ≤ 16 else p.crews = 0
  windows : (if p.mode = 2 then p.crews else 1) * p.spmreq ≤ 2 ^ 19
  key : p.keyslot.toNat ∈ s.hub.keys ∧ p.keyslot.toNat ∉ s.hub.dying
  aligned : p.redtab.toNat % 64 = 0 ∧ p.arenaBase.toNat % 128 = 0 ∧ p.compl.toNat % 32 = 0 ∧ p.spmreq % 128 = 0 ∧ p.privreq % 128 = 0

/-- The machine once a launch is recorded (R337, R402): the slot's tag bitmaps are clear. -/
def withLaunch (s : State) (slot : Nat) (l : Launch) : State :=
  { s with
    uids := s.uids + 1
    cores := s.cores.map fun c => { c with ct := c.ct.set slot 0 }
    sched := { s.sched with launches := s.sched.launches ++ [l] } }

/-- A queue that a tick leaves as it stands, but for its slot: its STATE reads 1, it has work, and its packet can be read with no change. -/
structure Steady (s : State) (x : Queue) : Prop where
  desc : ∃ d, DescAt s x.num d ∧ d.state = 1
  works : x.disabled = false ∧ x.copying = false ∧ (x.head < x.tail ∨ ∃ l, s.launchOf x.num = some l ∧ l.saved = true)
  since : x.slot = none → x.since ≠ none
  reads : (s.readPri x).1 = s

/-- A queue without work (R404). -/
def Workless (s : State) (x : Queue) : Prop := x.slot = none ∧ x.tail ≤ x.head ∧ s.launchOf x.num = none

/-- The effective priority of a queue (R404), and whether it ranks above another (R405). -/
def priOf (s : State) (x : Queue) : Nat :=
  match x.slot, x.since with
  | none, some t => min 7 (s.basePri x + (s.now - t) / s.hub.regs.qage.toNat)
  | _, _ => s.basePri x
def above (s : State) (x y : Queue) : Bool :=
  decide (priOf s y < priOf s x ∨ (priOf s x = priOf s y ∧ ((x.slot = none ∧ y.slot ≠ none) ∨ ((x.slot = none ↔ y.slot = none) ∧
    (x.since.getD 0 < y.since.getD 0 ∨ (x.since.getD 0 = y.since.getD 0 ∧ x.num < y.num))))))

/-- How many of the queues with work rank above one; of those without a slot alone. -/
def rankOf (s : State) (x : Queue) : Nat :=
  (s.sched.queues.filter fun y => !(y.slot.isNone && decide (y.tail ≤ y.head) && (s.launchOf y.num).isNone) && above s y x).length
def rankFresh (s : State) (x : Queue) : Nat :=
  (s.sched.queues.filter fun y => y.slot.isNone && !(decide (y.tail ≤ y.head) && (s.launchOf y.num).isNone) && above s y x).length

/-- The slots for newly mapped queues, in their order (R405): the free ones, then those of the queues that lose theirs. -/
def places (s : State) : List Nat :=
  ((List.range 64).filter fun i => ((s.sched.slots[i]?).bind QSlot.queue).isNone) ++
    (List.range 64).filter fun i => s.sched.queues.any fun y => y.slot == some i && decide (64 ≤ rankOf s y)

/-- The slots and the queues name one another, and no slot waits to pass on. -/
structure SlotsOk (s : State) : Prop where
  slots : s.sched.slots.length = 64 ∧ ∀ y ∈ s.sched.slots, y.next = none
  nums : s.sched.queues.Pairwise fun x y => x.num ≠ y.num
  queues : ∀ x ∈ s.sched.queues, ∀ i : Nat, x.slot = some i ↔ ∃ y : QSlot, s.sched.slots[i]? = some y ∧ y.queue = some x.num
  named : ∀ (i : Nat) (y : QSlot) (q : Nat), s.sched.slots[i]? = some y → y.queue = some q → s.queue? q ≠ none

/-- A root crew of a launch (R255, R258, R402). -/
structure RootOf (l : Launch) (kind : TaskKind) (pg : List Level) (args : List Dword) (range : Option (Nat × Nat × Nat × Bool)) (c : Crew) :
    Prop where
  task : c.task.launch = l.uid ∧ c.task.kind = kind ∧ c.task.parent = none ∧ c.phase = .unstarted
  ranges : c.task.range = range.map fun x => ⟨x.1, x.2.1, x.2.2.1, x.2.2.2, some 0⟩
  regs : FirstRegs ⟨l.packet.entry.truncate 57, args, BitVec.allOnes 32, pg, 1, l.packet.arenaBase.truncate 57,
    (l.packet.arenaBase + l.packet.arenaSize).truncate 57, false, range, none, 0⟩ c.r
  held : c.r.redtab = l.packet.redtab ∧ c.r.keyslot = l.packet.keyslot ∧ ∀ t : Fin 32, c.r.csp[t] = BitVec.ofNat 32 l.packet.privreq

/-- R399, R401: a crew's record: its first words, and that reading it gives the registers back: those of the live mask, every other as
at task start, and the control state. -/
def CrewRecords : Prop :=
  ∀ (c : Crew) (kinds : Fin 16 → Nat) (redtab : Dword) (keyslot : BitVec 12) (die core strand pos : Nat) (base : Dword) (tiles : List Dword)
    (grains : List (Nat × List Byte)), c.phase ≠ .unstarted → c.r.pedigree.length ≤ 32 → c.r.frontier.length ≤ 32 →
    let ws := c.record die core strand pos base tiles grains
    let m := c.imageMask
    let x := c.restore kinds redtab keyslot ws
    let r := x.1.r
    let word := fun k => (ws.getD k 0).toNat
    (m = match c.task.live with | some l => l | none => BitVec.ofNat 128 (2 ^ 127 - 1)) ∧
    (die < 8 → core < 64 → pos < 2 ^ 32 → strand < 2 ^ 32 → ws.length < 2 ^ 32 →
      word 0 = 2 ^ 56 + 2 ^ 52 * (match c.phase with | .parked => 1 | .suspended | .ending => 2 | .run => 3 | _ => 0) + 2 ^ 40 * core + 2 ^ 32 * die +
        ws.length ∧ word 1 = 2 ^ 32 * strand + pos ∧ word 2 = m.toNat % 2 ^ 64 ∧ word 3 = m.toNat / 2 ^ 64) ∧
    (∀ t : Fin 32, word (37 + 2 * t.val) / 2 ^ 62 % 2 = (hasLane c.r.blocked t).toNat ∧ word (37 + 2 * t.val) / 2 ^ 63 = (hasLane c.r.emask t).toNat ∧
      word (38 + 2 * t.val) = c.r.csp[t].toNat + 2 ^ 32 * c.r.cdepth[t].toNat ∧
      ∀ e, c.r.frontier.find? (fun e => hasLane e.threads t) = some e → word (37 + 2 * t.val) % 2 ^ 57 = e.pc.toNat ∧
        (hasLane c.r.tmask t = true → hasLane c.r.emask t = false → ∃ e' ∈ r.frontier, e'.pc = e.pc ∧ hasLane e'.threads t = true)) ∧
    (∀ i : Fin 64, (m.getLsbD i.val = true → r.v[i] = c.r.v[i] ∧ r.side[i] = c.r.side[i]) ∧
      (m.getLsbD i.val = false → ∀ t : Fin 32, r.readV i t = ⟨0, 0⟩)) ∧
    (∀ i : Fin 64, (i.val < 8 ∨ m.getLsbD (56 + i.val) = true → r.readS i = c.r.readS i) ∧
      (8 ≤ i.val → m.getLsbD (56 + i.val) = false → r.readS i = 0)) ∧
    (∀ i : Fin 8, i ≠ 0 → (m.getLsbD (119 + i.val) = true → r.q[i] = c.r.q[i]) ∧
      (m.getLsbD (119 + i.val) = false → ∀ t : Fin 32, r.q[i][t] = 0)) ∧
    (∀ (n : Nat) (t : Fin 32), (n < 64 → r.marked .v n t = c.r.marked .v n t ∧ r.marked .s n t = c.r.marked .s n t) ∧
      (n < 8 → r.marked .q n t = c.r.marked .q n t)) ∧
    (r.csp = c.r.csp ∧ r.cdepth = c.r.cdepth ∧ r.blocked = c.r.blocked ∧ r.tmask = c.r.tmask ∧ r.emask = c.r.emask) ∧
    (r.pedigree = c.r.pedigree ∧ r.repc = c.r.repc ∧ r.srctr = c.r.srctr ∧ r.fpflags = c.r.fpflags ∧ r.pivst = c.r.pivst ∧
      r.rndmode = c.r.rndmode ∧ r.gang = c.r.gang ∧ r.safecnt = c.r.safecnt % 2 ^ 64) ∧
    (r.arenaBase = c.r.arenaBase ∧ r.arenaLim = c.r.arenaLim ∧ r.logSeq = c.r.logSeq ∧ r.barPhase = c.r.barPhase ∧ r.barArrived = c.r.barArrived ∧
      r.redtab = redtab ∧ r.keyslot = keyslot ∧ x.1.shadow = r ∧
      ∀ k < 4, (x.1.enroll[k]?).map Enroll.mask = (c.enroll[k]?).map Enroll.mask)

end Sys2Proof.Claims

/-! ### The scheduler -/

/-- R404, R405, R410 to R413: a doorbell; a tick of the rotation.
Rests on readings and choices of the model (log entries 65, 68, 79, 95, 96 and 123). -/
def Obligations.QueueScheduling : Prop :=
  ∀ (s : State) (q : Nat) (d : Desc),
    (∀ tail : BitVec 64, ¬ Unqueued s none → Runs (.doorbell q tail) s (queued s (.doorbell q tail))) ∧
    (∀ tail : BitVec 64, Unqueued s none → s.sched.qtcount ≤ q → Runs (.doorbell q tail) s
      (State.event 5 0 .doorbell 0xFFFFFFFF (BitVec.ofNat 64 (0x100000 + 8 * q)) { s with outbox := s.outbox ++ [.unsupported (0x100000 + 8 * q)] })) ∧
    (∀ (tail : BitVec 64) (x : Queue), Unqueued s none → q < s.sched.qtcount → DescAt s q d → Quiet s → s.queue? q = some x → x.slot = none →
      let s' := stateLogged s d x
      (tail.toNat ≤ x.tail → Runs (.doorbell q tail) s (s'.mapQueue q fun y => stands s d y.tail y)) ∧
      (x.tail < tail.toNat → tail.toNat ≤ x.head + d.qsize → Runs (.doorbell q tail) s (s'.mapQueue q (stands s d tail.toNat))) ∧
      (x.tail < tail.toNat → x.head + d.qsize < tail.toNat → Runs (.doorbell q tail) s
        ((s'.mapQueue q fun y => stands s d y.tail y).event 5 0 .doorbell q tail))) ∧
    (∀ tail : BitVec 64, Unqueued s none → q < s.sched.qtcount → DescAt s q d → Quiet s → s.queue? q = none → 0 < tail.toNat → tail.toNat ≤ d.qsize →
      let s' := stateLogged s d (Queue.fresh q)
      Runs (.doorbell q tail) s { s' with sched := { s'.sched with queues := s.sched.queues ++ [stands s d tail.toNat (Queue.fresh q)] } }) ∧
    (s.now < s.sched.tick → Runs .rotationTick s s) ∧
    (∀ (tail : BitVec 64) (x : Queue) (i : Nat), Unqueued s none → q < s.sched.qtcount → DescAt s q d → Quiet s → s.queue? q = some x → x.slot = some i →
      s.sched.slots[i]? = some ⟨some q, none⟩ → x.refused = false → tail.toNat ≤ x.head + d.qsize →
      (d.state = 1 → x.head < x.tail → x.copying = false →
        Runs (.doorbell q tail) s (s.mapQueue q fun y => { y with disabled := false, tail := if x.tail < tail.toNat then tail.toNat else y.tail })) ∧
      (d.state = 0 → (∃ l, s.running i = some l ∧ l.queue = q) →
        Runs (.doorbell q tail) s (s.mapQueue q fun y => { y with disabled := true, tail := if x.tail < tail.toNat then tail.toNat else y.tail })) ∧
      (d.state = 0 → s.running i = none → ∃ t, Runs (.doorbell q tail) s t ∧
        t.sched = { s.sched with
          slots := s.sched.slots.set i ⟨none, none⟩
          queues := s.sched.queues.map fun y => if y.num = q then
            { y with disabled := true, slot := none, since := none, tail := if x.tail < tail.toNat then tail.toNat else y.tail } else y } ∧ t.mem = s.mem ∧ t.crews = s.crews)) ∧
    (∀ i y x, s.sched.slots[i]? = some y → y.queue = some q → s.queue? q = some x → x.disabled = true → Runs (.launchStart i) s s) ∧
    (s.sched.tick ≤ s.now → Quiet s → SlotsOk s → (∀ x ∈ s.sched.queues, Steady s x ∨ Workless s x) →
      ∃ t, Runs .rotationTick s t ∧ t.sched.tick = s.sched.tick + max 10 s.hub.regs.qrot.toNat ∧ t.mem = s.mem ∧ t.crews = s.crews ∧
        t.sched.launches = s.sched.launches ∧ ∀ x ∈ s.sched.queues,
        (Workless s x → t.queue? x.num = some x) ∧
        (x.slot ≠ none → rankOf s x < 64 → t.queue? x.num = some x ∧ ∀ i, x.slot = some i → t.sched.slots[i]? = s.sched.slots[i]?) ∧
        (x.slot ≠ none → 64 ≤ rankOf s x → t.queue? x.num = some { x with slot := none, since := some s.now }) ∧
        (Steady s x → x.slot = none → 64 ≤ rankOf s x → t.queue? x.num = some x) ∧
        (Steady s x → x.slot = none → rankOf s x < 64 → ∃ i d ok, (places s)[rankFresh s x]? = some i ∧
          parseDesc (s.bytes (s.sched.qtbase.toNat + 128 * x.num) 128) = (d, ok) ∧
          t.queue? x.num = some { x with slot := some i, desc := d, refused := !ok } ∧
          ((s.running i = none ∨ (s.sched.slots[i]?).bind QSlot.queue = none) → t.sched.slots[i]? = some ⟨some x.num, none⟩) ∧
          ∀ y, (s.sched.slots[i]?).bind QSlot.queue = some y → s.running i ≠ none → t.sched.slots[i]? = some ⟨some y, some x.num⟩))

/-- R258, R402, R403: a launch starts with its root crews, or is refused and has ended with status 1.
Rests on readings and choices of the model (log entries 66, 76 and 95). -/
def Obligations.LaunchStarts : Prop :=
  ∀ (s0 s : State) (slot : Nat) (x : Queue) (y : QSlot) (p : Packet) (res : Bool) (b : List Byte) (deal : List (Nat × Nat)),
    s0.hub.powered = true → s0.sched.slots[slot]? = some y → y.queue = some x.num → s0.queue? x.num = some x → x.slot = some slot →
    x.head < x.tail → x.disabled = false → x.copying = false → (∀ l ∈ s0.sched.launches, l.queue ≠ x.num) →
    s0.headPacket x.desc slot x.head = (s, some b) → (∀ l ∈ s.sched.launches, l.uid ≠ s.uids) → Fresh s → parsePacket b = (p, res) →
    (p.mode ≠ 1 → deal = []) → (p.mode = 1 → deal = if p.lo < p.hi ∧ s.hub.regs.coresIn p.dieset ≠ [] then
      s.hub.regs.deal p.dieset (leaves (max 1 p.grain) (p.hi - p.lo)) else []) →
    let l : Launch := ⟨s.uids, (x.head + 1) % 2 ^ 32, x.num, some slot, p, x.desc, p.redtab != 0, none, deal, [], [], [], 384, none, false,
      none, [], 0, [], []⟩
    let check := State.checkTarget true p.entry { withLaunch s slot l with focus := l.agent false }
    let entry := check.2
    let cores := s.hub.regs.coresIn p.dieset
    check.1.stall = s.stall →
    (x.refused = true ∨ res = true ∨ ¬ PacketOk s p ∨ entry ≠ none →
      Runs (.launchStart slot) s0 ((withLaunch s slot l).mapLaunch s.uids fun l => { l with ended := some (1, 0, 0), stopAt := some s.now })) ∧
    (x.refused = false → res = false → PacketOk s p → entry = none → ∃ t, Runs (.launchStart slot) s0 t ∧ t.launch? s.uids = some l ∧
      (p.mode = 0 → ∃ c, t.crew? (s.uids + 1) = some c ∧ RootOf l .root [⟨0, 0⟩] [p.args] none c ∧ c.core ∈ cores ∧
        ∀ k ∈ cores, (s.freeSlots k).length ≤ (s.freeSlots c.core).length) ∧
      (p.mode = 1 → ∃ c, t.crew? (s.uids + 1) = some c ∧ RootOf l .root [⟨0, 0⟩] [p.args] (some (p.lo, p.hi, max 1 p.grain, false)) c ∧
        cores.head? = some c.core) ∧
      (p.mode = 2 → ∀ n k, cores[n]? = some k → ∀ j < p.crews, ∃ c, t.crew? (s.uids + 1 + (p.crews * n + j)) = some c ∧ c.core = k ∧
        RootOf l .resident [⟨BitVec.ofNat 16 (p.crews * n + j), 0⟩, ⟨0, 0⟩]
          [p.args, BitVec.ofNat 64 (p.crews * n + j), BitVec.ofNat 64 (p.crews * cores.length)] none c))

/-- R300, R398, R403, R405, R412: a launch whose crews are gone writes its reducer results, and then ends with its completion record;
one that does not stop in time is cut down.
Rests on readings and choices of the model (log entries 67, 69, 75 and 79). -/
def Obligations.LaunchEnds : Prop :=
  ∀ (s : State) (slot : Nat) (l : Launch), s.running slot = some l → s.launch? l.uid = some l → l.uid ≠ 0 →
    (∀ x s1 loc page, (∀ c ∈ s.crews, c.uid ≠ 0 → c.task.launch ≠ l.uid) → (∀ k ∈ s.cores, k.barge = ⟨[], [], [], []⟩ ∧ k.ten = []) →
      (l.reducers = none ∨ l.reducers = some []) → l.number = (x.head + 1) % 2 ^ 32 → (∀ y ∈ l.finals, y.2 = []) → s.streams = [] → s.posted = [] → s.queue? l.queue = some x →
      isHbm (s.sched.qtbase.toNat + 128 * l.queue + 16) = true → Calm s → Memory.wf s.mem → s.bad = [] →
      l.packet.compl.toNat < 2 ^ 56 → l.packet.compl.toNat % 32 = 0 →
      s.locate (l.agent true) none ⟨false, true, false⟩ l.packet.compl 32 = (s1, .ok loc page) → loc.region = .chunked → isHbm loc.key = true →
      lineOf loc.key ≠ lineOf (s.sched.qtbase.toNat + 128 * l.queue + 16) → loc.key % 32 = 0 → s.sched.qtbase.toNat % 128 = 0 →
      let done := l.ended.getD (0, 0, 0)
      ∃ t y, Runs (.launchCompletion slot) s t ∧
        t.bytes loc.key 32 = leBytes 8 done.1 ++ leBytes 8 done.2.1.toNat ++ leBytes 8 done.2.2.toNat ++ leBytes 8 0 ∧
        t.bytes (s.sched.qtbase.toNat + 128 * l.queue + 16) 8 = leBytes 8 (x.head + 1) ∧
        t.queue? l.queue = some y ∧ y.head = x.head + 1 ∧ y.tail = x.tail ∧ t.launch? l.uid = none ∧
        (∀ k ∈ t.cores, ∀ o ∈ k.bars, ¬ (o.v = true ∧ o.owner = l.tag)) ∧
        t.hub.events.getLast? = some ⟨s.hub.nextEvent, s.now * 1880, 5 * 4096, EvKind.launchEnd.num, l.queue, BitVec.ofNat 64 done.1⟩) ∧
    (∀ e es s1, (∀ c ∈ s.crews, c.uid ≠ 0 → c.task.launch ≠ l.uid) → l.ended = none → l.reducers = some (e :: es) → l.merged = true →
      s.writesSeen l.uid = true →
      (s.writeResults l (l.finals.flatMap (·.2)) (e :: es).zipIdx = (s1, true) →
        Runs (.launchCompletion slot) s (s1.mapLaunch l.uid fun l => { l with reducers := some [] })) ∧
      (s.writeResults l (l.finals.flatMap (·.2)) (e :: es).zipIdx = (s1, false) →
        Runs (.launchCompletion slot) s { s with landings := s1.landings })) ∧
    (∀ t0 c, l.stopAt = some t0 → s.hub.regs.stopTmo ≠ 0 → t0 + s.hub.regs.stopTmo.toNat ≤ s.now →
      c ∈ s.crews → c.uid ≠ 0 → c.task.launch = l.uid → c.phase = .run → c.cur ≠ none →
      (∀ y ∈ s.crews, y.task.launch = l.uid → y.phase ≠ .granted ∧ y.phase ≠ .acting) →
      ∃ t l', Runs (.stopTimeout slot) s t ∧ (∀ y ∈ t.crews, y.uid = 0 ∨ y.task.launch ≠ l.uid) ∧
        t.launch? l.uid = some l' ∧ l'.ended = some (l.ended.getD (3, 0, 0)) ∧
        (∀ k ∈ t.cores, k.ct.getD slot 0 = 0 ∧ ∀ j ∈ k.barge.queue ++ k.barge.jobs ++ k.barge.waits, j.actor.launch ≠ l.uid) ∧
        (∀ k ∈ t.cores, ∀ j ∈ k.ten, j.actor.launch ≠ l.uid) ∧
        t.hub.events.getLast? = some ⟨s.hub.nextEvent, s.now * 1880, 5 * 4096 + slot % 4096, EvKind.stopTimeout.num, l.queue,
          BitVec.ofNat 64 l.number⟩)

/-- R396, R397, R399 to R401: pre-emption is asked for; a stopped launch is saved; a saved one resumes, or is refused.
Rests on readings and choices of the model (log entries 12, 70, 71, 101 and 114). -/
def Obligations.Contexts : Prop := CrewRecords ∧
  ∀ (s : State) (slot : Nat) (l : Launch),
    (s.running slot = some l → l.stopAt = none →
      ((∃ y, s.sched.slots[slot]? = some y ∧ y.next ≠ none) ∨ ∃ x, s.queue? l.queue = some x ∧ x.asked = true) →
      Runs (.preemptionRequest slot) s (s.mapLaunch l.uid fun l => { l with stopAt := some s.now })) ∧
    (s.running slot = some l → s.launch? l.uid = some l → l.uid ≠ 0 → l.stopAt ≠ none → l.ended = none → s.launchStopped l.uid = true →
      (∀ c ∈ s.crews, c.task.launch = l.uid → c.phase ≠ .acting) → s.podsOf l.uid = [] → s.ctx? l.uid = none → Calm s → Memory.wf s.mem →
      isHbm l.desc.savebase = true →
      ∃ t x fr, Runs (.contextSave slot) s t ∧
        t.launch? l.uid = some { l with saved := true, slot := none, stopAt := none, frames := fr, pods := [] } ∧
        (∀ y ∈ t.crews, y.uid = 0 ∨ y.task.launch ≠ l.uid) ∧ t.ctx? l.uid = some x ∧
        (∀ c ∈ s.crews, c.uid ≠ 0 → c.task.launch = l.uid → { c.mapObjects s.logicalObject with saved := s.windowBytes c, window := none } ∈ x.crews) ∧
        x.crews.length = (s.crews.filter fun c => c.uid != 0 && c.task.launch == l.uid).length ∧
        let image := encodeImage (s.imageWords l slot)
        t.bytes l.desc.savebase (min l.desc.savesize (8 + image.length)) = (leBytes 8 image.length ++ image).take l.desc.savesize ∧
        (8 + image.length ≤ l.desc.savesize → image.length < 2 ^ 64 → ∃ s0, t.readImage l.desc = (s0, some (s.imageWords l slot)))) ∧
    (∀ x y, s.running slot = some l → s.launch? l.uid = some l → l.stopAt ≠ none → l.ended = none → s.launchStopped l.uid = true → s.hub.regs.pkg ≠ 0 →
      s.podsOf l.uid = x :: y → l.pods = [] → s.link (some 0) = .up →
      let ns := x :: y
      Runs (.contextSave slot) s ({ s with
        outbox := s.outbox ++ ns.map fun n => Output.pod (some 0) (.save n s.hub.regs.pkg.toNat l.uid l.tag) }.mapLaunch l.uid fun z =>
          { z with pods := z.pods ++ ns.map fun n => (n, none) })) ∧
    (∀ x q y, s.sched.slots[slot]? = some y → y.queue = some l.queue → s.queue? l.queue = some q → q.slot = some slot → s.hub.powered = true →
      q.disabled = false → q.copying = false → s.launchOf l.queue = some l → s.launch? l.uid = some l → l.saved = true →
      s.ctx? l.uid = some x → x.refused = false →
      let d := if q.refused then l.desc else q.desc
      (∀ s0, s.readImage d = (s0, none) → ∃ t, Runs (.contextResume slot) s t ∧ t.ctx? l.uid = some { x with refused := true } ∧
        t.launch? l.uid = some l ∧ t.crews = s0.crews) ∧
      (∀ s0 ws rec c k j, s.readImage d = (s0, some ws) → splitImage ws = some ([], [], [rec]) → x.crews = [c] → x.brg = [] → x.ten = [] →
        twiceMapped s.hub.regs l.packet.dieset = false → s.recordCore rec = some k → bits (wordAt rec 1) 0 32 = 0 → c.phase = .stopped →
        l.packet.spmreq = 0 → (s.freeSlots k).head? = some j → Quiet s → c.uid ≠ 0 →
        (∀ z ∈ s.crews, z.uid ≠ c.uid) → c.task.launch = l.uid →
        ∃ t z l', Runs (.contextResume slot) s t ∧ t.crew? c.uid = some z ∧ z.phase = .run ∧ z.place = .slot k j ∧
          z.r.v = (c.restore (fun i => (s.redOf l.uid i).kind) l.packet.redtab l.packet.keyslot rec).1.r.v ∧
          z.r.s = (c.restore (fun i => (s.redOf l.uid i).kind) l.packet.redtab l.packet.keyslot rec).1.r.s ∧
          z.r.frontier = (c.restore (fun i => (s.redOf l.uid i).kind) l.packet.redtab l.packet.keyslot rec).1.r.frontier ∧
          t.launch? l.uid = some l' ∧ l'.slot = some slot ∧ l'.saved = false ∧ l'.packet = l.packet ∧ t.ctx? l.uid = none ∧
          ∀ m ∈ t.cores, m.ct.getD slot 0 = 0))

/-- R400: the coder's stream gives back every list of words; a reserved token gives back none. -/
def Obligations.ImageCoder : Prop :=
  (∀ (ws : List Dword) (tail : List Byte), decodeImage 0 ((encodeImage ws).length + 1) (encodeImage ws ++ tail) = some ws) ∧
    ∀ (prev : Dword) (fuel : Nat) (b : Byte) (l : List Byte), 0xC0 ≤ b.toNat → b.toNat < 0xFF → decodeImage prev fuel (b :: l) = none

namespace Sys2Proof.Claims
open Sys2Proof.Machine

/-! ### The host -/

/-- n bytes of HBM from pa on may be accessed under a key slot from outside (R408, R414, R417): they are there, the slot holds a key,
and what stands there was written under it. -/
structure HbmReady (s : State) (slot pa n : Nat) : Prop where
  there : 0 < n ∧ pa + n ≤ 8 * 0xC00000000
  key : slot < 4096 ∧ slot ∈ s.hub.keys ∧ slot ∉ s.hub.dying
  dies : ∀ d ∈ s.dies, d.failed = false
  good : ∀ b ∈ s.bad, b < pa ∨ pa + n ≤ b
  keyed : ∀ z ∈ s.keyed, pa / 128 ≤ z.line → z.line ≤ (pa + n - 1) / 128 → z.key = s.material slot

/-- A write of bytes at a physical address, and nothing else of memory; no crew is disturbed. -/
structure Wrote (s t : State) (pa : Nat) (data : List Byte) : Prop where
  bytes : ∀ i < data.length, t.byte (pa + i) = data.getD i 0
  frame : ∀ a, a < pa ∨ pa + data.length ≤ a → t.byte a = s.byte a
  crews : t.crews = s.crews
  sched : t.sched = s.sched

/-- A mailbox command completes with a status (R419). -/
def status (n : Nat) (s : State) : State := { s with hub := { s.hub with mbx := BitVec.ofNat 64 (n * 256) } }

/-- A reply to the host or to a peer. -/
def replied (data : List Byte) (s : State) : State := { s with outbox := s.outbox ++ [.reply data] }

/-- Bytes go to host memory. -/
def posted (addr : Nat) (data : List Byte) (s : State) : State := { s with outbox := s.outbox ++ [.hostWrite addr data] }

/-- The value that an AtomicOp of PCI Express leaves (R409). -/
def pcieValue (op : PcieOp) (w operand compare old : Nat) : Nat :=
  match op with
  | .fetchAdd => (old + operand) % 2 ^ w
  | .swap => operand % 2 ^ w
  | .cas => if old = compare % 2 ^ w then operand % 2 ^ w else old

/-- The mailbox is free, and its register set aside. -/
def MailFree (s : State) : Prop := s.hub.mbx.getLsbD 0 = false

end Sys2Proof.Claims

/-! ### The host -/

/-- R202, R409, R410, R412, R414, R418, R419: the host's writes of BAR0, and its writes, reads and AtomicOps through BAR2, each behind
those that wait; a write that waits goes on line by line, at the address and under the key of its arrival.
Rests on readings and choices of the model (log entries 7, 10, 79, 82 and 96). -/
def Obligations.HostAccesses : Prop :=
  ∀ (s : State) (off : Nat) (x : Dword) (data : List Byte) (w64 : Bool) (op : PcieOp) (operand compare : Dword),
    let pa := s.hub.bar2base.toNat + off
    let slot := s.hub.bar2key.toNat
    let n := if w64 = true then 8 else 4
    let within := fun n => off + n ≤ 2 ^ (30 + s.hub.bar2size.val)
    (Unqueued s none → Runs (.bar0RegisterWrite 0 x) s { s with sched := { s.sched with qtbase := BitVec.ofNat 64 (x.toNat / 128 * 128) } }) ∧
    (Unqueued s none → x.toNat ≤ 2 ^ 20 → Runs (.bar0RegisterWrite 8 x) s { s with sched := { s.sched with qtcount := x.toNat } }) ∧
    (Unqueued s none → 0x1000 ≤ off → off < 0x1FF8 → off % 8 = 0 → ∃ m, Runs (.bar0RegisterWrite off x) s { s with hub := { s.hub with mailbox := m } } ∧
      ∀ o, State.mail { s with hub := { s.hub with mailbox := m } } o = if o = off then x else s.mail o) ∧
    (Unqueued s none → Quiet s → ∀ q < 2 ^ 20, exec (.bar0RegisterWrite (0x100000 + 8 * q) x) s = exec (.doorbell q x) s) ∧
    (Unqueued s none → 0x10000 ≤ off → off < 0x100000 → Runs (.bar0RegisterWrite off x) s s) ∧
    (¬ Unqueued s none → slot ∉ s.hub.dying → ∀ i ∈ [Instr.bar2Write off data, .bar2Read off data.length,
      .bar2AtomicOp off w64 op operand compare, .bar0RegisterWrite off x], Runs i s (queued s i)) ∧
    (Unqueued s none → slot ∉ s.hub.dying → ∀ i ∈ [Instr.bar2Write off data, .bar2Read off data.length], data ≠ [] → ¬ within data.length →
      Runs i s { s with outbox := s.outbox ++ [.unsupported off] }) ∧
    (Unqueued s none → within data.length → HbmReady s slot pa data.length → Calm s → Memory.wf s.mem → ∃ t, Runs (.bar2Write off data) s t ∧ Wrote s t pa data ∧ t.outbox = s.outbox) ∧
    (Unqueued s none → within data.length → HbmReady s slot pa data.length → Quiet s → Runs (.bar2Read off data.length) s (replied (s.bytes pa data.length) s)) ∧
    (Unqueued s none → within n → HbmReady s slot pa n → Calm s → Memory.wf s.mem → pa % n = 0 → ∃ t, Runs (.bar2AtomicOp off w64 op operand compare) s t ∧
      Wrote s t pa (leBytes n (pcieValue op (8 * n) operand.toNat compare.toNat (leNat (s.bytes pa n)))) ∧
      t.outbox = s.outbox ++ [.reply (s.bytes pa n)]) ∧
    (∀ m, data ≠ [] → data.length = 128 - pa % 128 + m → 0 < m → Unqueued s none → within data.length → HbmReady s slot pa data.length → Quiet s →
      Memory.wf s.mem → (∀ c ∈ s.crews, c.uncommitted = true → c.chunk.rsig = 0) → (∀ y, s.landings[landingOf (pa / 128)]? = some y → y.held = [] ∧ y.waiting = []) →
      (∃ y, s.landings[landingOf (pa / 128 + 1)]? = some y ∧ y.held.length = 16) → landingOf (pa / 128) ≠ landingOf (pa / 128 + 1) →
      ∃ t, Runs (.bar2Write off data) s t ∧ (∀ i < 128 - pa % 128, t.byte (pa + i) = data.getD i 0) ∧
        (∀ a, a < pa ∨ pa + (128 - pa % 128) ≤ a → t.byte a = s.byte a) ∧
        t.inbound = s.inbound ++ [⟨s.uids, s.hub.bar2base, s.hub.bar2key, .bar2Write (off + (128 - pa % 128)) (data.drop (128 - pa % 128))⟩]) ∧
    (Unqueued s none → within data.length → data ≠ [] → slot ∉ s.hub.keys ∨ 8 * 0xC00000000 < pa + data.length →
      let t := State.event 5 0 .hostAccess 0xFFFFFFFF (BitVec.ofNat 64 off) { s with outbox := s.outbox ++ [.abort off] }
      Runs (.bar2Write off data) s t ∧ Runs (.bar2Read off data.length) s t)

/-- R188, R409, R414, R416 to R421, R424: the commands of the mailbox, but for those on launches.
Rests on readings and choices of the model (log entries 7, 19, 20, 24 and 96). -/
def Obligations.MailboxCommands : Prop :=
  ∀ (s : State) (slot : Nat) (wrapped : BitVec 512) (i : Fin 64) (lo hi base key : Dword) (host len first count : Nat),
    (s.hub.mbx.getLsbD 0 = true → Runs (.keyload slot wrapped) s s ∧ Runs (.keydestroy slot) s s ∧ Runs (.preempt slot) s s ∧
      Runs (.fwstage host len) s s ∧ Runs .fwactivate s s ∧ Runs (.sensors host) s s ∧ Runs (.window i lo hi) s s ∧ Runs (.bar2set base key) s s ∧
      Runs (.evread host first count) s s ∧ (∀ p, Runs (.checkpoint slot p) s s ∧ Runs (.restore slot p) s s) ∧
      (Unqueued s none → ∀ x : Dword, Runs (.bar0RegisterWrite 0x1FF8 x) s s)) ∧
    (MailFree s →
      (slot = 0 ∨ 4096 ≤ slot → Runs (.keyload slot wrapped) s (status 2 s) ∧ Runs (.keydestroy slot) s (status 2 s)) ∧
      (0 < slot → slot < 4096 → (∃ t, Runs (.keyload slot wrapped) s (status 0 t) ∧ t.material slot = wrapped.toNat + 1 ∧
          (∀ k, k ∈ t.hub.keys ↔ k = slot ∨ k ∈ s.hub.keys) ∧ (∀ k ≠ slot, t.material k = s.material k) ∧
          t = { s with hub := { s.hub with keys := t.hub.keys, wraps := t.hub.wraps } }) ∧
        ((∃ l ∈ s.sched.launches, l.packet.keyslot.toNat = slot) → Runs (.keydestroy slot) s (status 3 s)) ∧
        ((∀ l ∈ s.sched.launches, l.packet.keyslot.toNat ≠ slot) → (∀ y ∈ s.streams, y.line.slot.toNat ≠ slot) →
          (∀ y ∈ s.inbound, s.keyUnder y ≠ some slot) → ∃ t, Runs (.keydestroy slot) s t ∧ t.hub.mbx = 0 ∧ (∀ k, k ∈ t.hub.keys ↔ k ≠ slot ∧ k ∈ s.hub.keys) ∧
            (∀ k ≠ slot, t.material k = s.material k) ∧ t.partials = (s.partials.filter fun p => p.slot.toNat != slot) ∧
            (∃ key, (∀ k < 4096, t.material k ≠ key) ∧ t.keyed = s.keyed.map fun z =>
              if z.slot = slot && s.hub.l2.any (fun x => x.2.any fun y => y.line == z.line && y.st == .dirty) then { z with key := key } else z) ∧
            (∀ z ∈ s.keyed, z.slot = slot → (∀ k ∈ t.cores, ∀ y ∈ k.l1, y.line ≠ z.line) ∧ (∀ y ∈ t.hub.cache, y.1 ≠ z.line) ∧
              (∀ d ∈ t.dies, ∀ y ∈ d.copies, y.1 ≠ z.line) ∧ ∀ y ∈ t.hub.l2, ∀ w ∈ y.2, w.st = .part ∨ w.line ≠ z.line) ∧
            (∀ k ∈ t.cores, ∀ y ∈ k.l1, y.key ≠ slot) ∧ (∀ y ∈ t.hub.l2, ∀ w ∈ y.2, w.st = .clean → w.key ≠ slot) ∧ t.mem = s.mem ∧ t.crews = s.crews ∧
            ∀ j < 4, let r := t.hub.regs.retways.getD j 0
              ¬ (r.toNat / 2 ^ 16 % 2 ^ 12 = slot ∧ r.getLsbD 4 = true)) ∧
        ((∀ l ∈ s.sched.launches, l.packet.keyslot.toNat ≠ slot) → (∃ y ∈ s.inbound, s.keyUnder y = some slot) →
          Runs (.keydestroy slot) s { s with hub := { s.hub with dying := slot :: s.hub.dying.filter (· != slot), mbx := 1 } })) ∧
      (let x : Window := ⟨BitVec.ofNat 64 (lo.toNat / 2 ^ 16 * 2 ^ 16), BitVec.ofNat 64 (hi.toNat / 2 ^ 32 * 2 ^ 32 + hi.toNat % 4)⟩
       Runs (.window i lo hi) s (status 0 { s with hub := { s.hub with windows := s.hub.windows.set i.val x } })) ∧
      (key.toNat < 4096 → Runs (.bar2set base key) s (status 0 { s with hub := { s.hub with bar2base := base, bar2key := BitVec.ofNat 12 key.toNat } })) ∧
      (4096 ≤ key.toNat → Runs (.bar2set base key) s (status 2 s)) ∧
      (host < 2 ^ 51 → Runs (.sensors host) s (status 0 (posted host (Config.sensorBlock s.free) { s with free := s.free + 1 })) ∧
        Runs (.evread host first count) s (status 0 (posted host
          (((s.hub.events.filter fun e => decide (first ≤ e.seq)).take count).flatMap fun e => leBytes 8 e.seq ++ leBytes 8 e.cycles ++
            leBytes 2 e.source ++ leBytes 2 (Config.eventCode e.code).toNat ++ leBytes 4 e.queue ++ leBytes 8 e.datum.toNat) s))) ∧
      (host + len ≤ 2 ^ 51 → ∀ ok, Config.signatureOk ((List.range len).map fun j => Config.outsideByte s.free (2 ^ 51 + host + j)) = ok →
        Runs (.fwstage host len) s (status (if ok = true then 0 else 4) { s with
          free := s.free + 1
          hub := { s.hub with
            fwA := if s.hub.activeB = true then ok else s.hub.fwA, fwB := if s.hub.activeB = true then s.hub.fwB else ok, staged := ok } })) ∧
      (s.sched.launches ≠ [] ∨ s.hub.staged = false → Runs .fwactivate s (status 3 s)) ∧
      (s.sched.launches = [] → s.hub.staged = true → ∃ t,
        Runs .warmReset { s with hub := { s.hub with activeB := !s.hub.activeB, staged := false } } t ∧ Runs .fwactivate s (status 0 t)) ∧
      (let a := fun k => s.mail (0x1008 + 8 * k)
       let go := Instr.bar0RegisterWrite 0x1FF8 1
       let starts := fun i => ∀ t, Runs i s t → t.stall = s.stall → Runs go s t
       Unqueued s none →
       (s.mail 0x1000 = 2 → starts (.keydestroy (a 0).toNat)) ∧ (s.mail 0x1000 = 3 → starts (.preempt (a 0).toNat)) ∧
       (s.mail 0x1000 = 6 → starts (.fwstage (a 0).toNat (a 1).toNat)) ∧ (s.mail 0x1000 = 7 → starts .fwactivate) ∧
       (s.mail 0x1000 = 8 → starts (.sensors (a 0).toNat)) ∧ (s.mail 0x1000 = 10 → starts (.bar2set (a 0) (a 1))) ∧
       (s.mail 0x1000 = 11 → starts (.evread (a 0).toNat (a 1).toNat (a 2).toNat)) ∧
       (s.mail 0x1000 = 9 → a 0 = BitVec.ofNat 64 i.val → starts (.window i (a 1) (a 2))) ∧
       (11 < (s.mail 0x1000).toNat ∨ s.mail 0x1000 = 0 → Runs go s (status 1 s))))

/-- R397, R419, R423: the commands of the mailbox on launches: pre-emption, the copy of a launch, its return.
Rests on readings and choices of the model (log entries 7, 72, 77 and 122). -/
def Obligations.CheckpointCommands : Prop :=
  ∀ (s : State) (q : Nat) (x : Queue) (p : CkptPlace) (l : Launch),
    (MailFree s →
      (s.sched.qtcount ≤ q → Runs (.preempt q) s (status 2 s) ∧ Runs (.checkpoint q p) s (status 2 s) ∧ Runs (.restore q p) s (status 2 s)) ∧
      (q < s.sched.qtcount → s.launchOf q = some l → l.saved = false →
        Runs (.preempt q) s { s.mapQueue q fun x => { x with asked := true } with hub := { s.hub with mbx := 1 } }) ∧
      (q < s.sched.qtcount → s.launchOf q = none → s.queue? q = some x → x.slot = none → Runs (.preempt q) s (status 0 s)) ∧
      (∀ a < 2 ^ 51, q < s.sched.qtcount → s.launchOf q = none → Runs (.checkpoint q (.host a)) s (status 3 s)) ∧
      (∀ a < 2 ^ 51, q < s.sched.qtcount → s.launchOf q = some l →
        Runs (.checkpoint q (.host a)) s
          { s.mapQueue q fun x => { x with asked := true, ckpt := some (.host a), copying := l.saved } with hub := { s.hub with mbx := 1 } })) ∧
    (∀ ctx, s.queue? q = some x → s.launchOf q = some l → s.ctx? l.uid = some ctx → x.ckpt = some p → x.copying = true → x.slot = none →
      Quiet s → s.link (match p with | .host _ => none | .peer k _ => some k) = .up → ∃ t ck y, Runs (.checkpointCopyDone q) s t ∧ ck ∈ t.sched.ckpts ∧ ck.place = p ∧ ck.queue = q ∧ ck.launch = l ∧ ck.ctx = ctx ∧
        (l.desc.savebase, l.desc.savesize) ∈ ck.frames ∧
        (∀ c ∈ s.mem, l.desc.savebase ≤ c.1 → c.1 < l.desc.savebase + l.desc.savesize → c ∈ ck.cells) ∧
        t.queue? q = some y ∧ y.ckpt = none ∧ y.copying = false ∧ y.asked = false ∧ t.hub.mbx = 0 ∧ t.mem = s.mem ∧ t.crews = s.crews ∧
        t.outbox = s.outbox ++ [match p with
          | .host a => .hostWrite a (Config.checkpointCopy s.free)
          | .peer k a => .peerWrite k a (Config.checkpointCopy s.free)]) ∧
    (∀ a ck, MailFree s → p = .host a → a < 2 ^ 51 → q < s.sched.qtcount → ck ∈ s.sched.ckpts → ck.place = p → ck.queue = q →
      (∀ c ∈ s.sched.ckpts, c.place = p → c.queue = q → c = ck) → s.launchOf q = none → s.launch? ck.launch.uid = none → s.ctx? ck.launch.uid = none →
      ck.ctx.launch = ck.launch.uid → (∀ k ∈ ck.keys, k.1 ∈ s.hub.keys ∧ s.material k.1 = k.2) → Calm s → Memory.wf s.mem → Memory.wf ck.cells →
      ∃ t, Runs (.restore q p) s t ∧ t.hub.mbx = 0 ∧ t.launch? ck.launch.uid = some { ck.launch with pods := [] } ∧ t.ctx? ck.launch.uid = some ck.ctx ∧
        (∀ c ∈ ck.cells, t.byte c.1 = c.2) ∧ (∀ k, (∀ f ∈ ck.frames, k < f.1 ∨ f.1 + f.2 ≤ k) → (∀ c ∈ ck.cells, c.1 ≠ k) → t.byte k = s.byte k) ∧
        t.crews = s.crews)

namespace Sys2Proof.Claims
open Sys2Proof.Machine

/-! ### The outside -/

/-- A window lets a package reach n bytes at an offset (R416): BASE [38:0] and SIZE [63:39] of the first dword, in bytes and in 64 KiB;
RD [0], WR [1], the source range [41:32] to [51:42] and the key slot [63:52] of the second. -/
def LetsIn (x : Window) (src off n : Nat) (write : Bool) : Prop :=
  let base := x.lo.toNat % 2 ^ 39
  x.hi.toNat / 2 ^ 32 % 2 ^ 10 ≤ src ∧ src ≤ x.hi.toNat / 2 ^ 42 % 2 ^ 10 ∧ base ≤ off ∧ off + n ≤ base + x.lo.toNat / 2 ^ 39 * 2 ^ 16 ∧
    x.hi.getLsbD (if write = true then 1 else 0) = true

/-- The first window of the package that lets an access in, and its key slot. -/
def Enters (s : State) (x : Window) (src off n : Nat) (write : Bool) : Prop :=
  ∃ k : Nat, s.hub.windows[k]? = some x ∧ LetsIn x src off n write ∧ ∀ j : Nat, j < k → ∀ y, s.hub.windows[j]? = some y → ¬ LetsIn y src off n write
def keyOf (x : Window) : Nat := x.hi.toNat / 2 ^ 52

/-- An access from outside is turned away (R416, R420). -/
def turnedAway (src off : Nat) (s : State) : State :=
  State.event 2 src .window 0xFFFFFFFF (BitVec.ofNat 64 off) { s with outbox := s.outbox ++ [.abort off] }

/-- The threads that wait for a phase of an object are unblocked (R323), but for those that another wait still holds (R328). -/
structure Released (o : ObjId) (phase : BitVec 16) (r w : Regs) : Prop where
  waits : ∀ x, x ∈ w.waits ↔ x ∈ r.waits ∧ ¬ (x.obj = some o ∧ x.phase = phase)
  blocked : ∀ t : Fin 32, w.blocked.getLsbD t.val = true ↔
    r.blocked.getLsbD t.val = true ∧ ((∀ x ∈ r.waits, x.obj = some o → x.phase = phase → x.lanes.getLsbD t.val = false) ∨
      ∃ x ∈ w.waits, x.lanes.getLsbD t.val = true)
  rest : { w with waits := r.waits, blocked := r.blocked } = r

/-- The object n of the pod passes from a phase (R318, R323): crews enrolled in it have arrived nowhere; its waiters go on, in their
registers, in what a rollback restores, and in what a handler's return restores (R388). -/
structure PodPassed (s t : State) (n : Fin 2) (phase next : BitVec 16) : Prop where
  object : t.hub.pods = s.hub.pods.modify n.val fun b => { b with phase := next, arrived := 0 }
  crews : t.crews.length = s.crews.length
  released : ∀ x y : Crew, ∀ k : Nat, s.crews[k]? = some x → t.crews[k]? = some y → Released ⟨5, 0, n.val⟩ phase x.r y.r ∧
    Released ⟨5, 0, n.val⟩ phase x.shadow y.shadow ∧ (y.trap.isSome = x.trap.isSome) ∧
    (∀ u v, x.trap = some u → y.trap = some v → v = { u with blocked := v.blocked } ∧ ∀ l : Fin 32, v.blocked.getLsbD l.val = true ↔
      u.blocked.getLsbD l.val = true ∧ ∃ w ∈ y.r.waits, w.lanes.getLsbD l.val = true) ∧
    y.enroll = x.enroll.map fun e => if e.obj = ⟨5, 0, n.val⟩ then { e with mask := 0 } else e
  mem : t.mem = s.mem

end Sys2Proof.Claims

/-! ### The outside -/

/-- R202, R408, R416: the accesses of peer packages through the inbound windows, each behind those of its package that wait.
Rests on readings and choices of the model (log entries 7, 79 and 96). -/
def Obligations.PeerAccesses : Prop :=
  ∀ (s : State) (src off : Nat) (x : Window) (data : List Byte) (op : Fin 16) (w32 : Bool) (operand : Dword) (compare : Option Dword),
    let n := if w32 = true then 4 else 8
    let w := 8 * n
    (∀ a, ¬ Unqueued s (some src) → (∀ y ∈ s.hub.windows, keyOf y ∉ s.hub.dying) → Runs (.peerInboundAccess src off a) s (queued s (.peerInboundAccess src off a))) ∧ (Unqueued s (some src) →
    ((∀ y ∈ s.hub.windows, ¬ LetsIn y src off (max 1 data.length) false) → Runs (.peerInboundAccess src off (.read data.length)) s (turnedAway src off s)) ∧
    ((∀ y ∈ s.hub.windows, ¬ LetsIn y src off (max 1 data.length) true) → Runs (.peerInboundAccess src off (.write data)) s (turnedAway src off s)) ∧
    (Enters s x src off data.length false → HbmReady s (keyOf x) off data.length → Quiet s →
      Runs (.peerInboundAccess src off (.read data.length)) s (replied (s.bytes off data.length) s)) ∧
    (Enters s x src off data.length true → HbmReady s (keyOf x) off data.length → Calm s → Memory.wf s.mem →
      ∃ t, Runs (.peerInboundAccess src off (.write data)) s t ∧ Wrote s t off data ∧ t.outbox = s.outbox ++ [.reply []]) ∧
    (Enters s x src off n false → HbmReady s (keyOf x) off n → Calm s → Memory.wf s.mem →
      let old := leNat (s.bytes off n)
      (∃ t, Runs (.peerInboundAccess src off (.red op w32 operand)) s t ∧
        Wrote s t off (leBytes n (reduceOp op w old (operand.toNat % 2 ^ w))) ∧ t.outbox = s.outbox ++ [.reply []]) ∧
      ∃ t, Runs (.peerInboundAccess src off (.atomic op w32 operand compare)) s t ∧ t.outbox = s.outbox ++ [.reply (s.bytes off n)] ∧
        Wrote s t off (leBytes n (match compare with
          | none => reduceOp op w old (operand.toNat % 2 ^ w)
          | some e => if old = e.toNat % 2 ^ w then operand.toNat % 2 ^ w else old))))

/-- R230, R247, R415, R424: links change state, a die fails, the power cap and the thermal trip act. -/
def Sys2Proof.Claims.LinksDiesPower : Prop :=
  ∀ (s : State) (peer die mw : Nat) (st : LinkState),
    ((st = .down → peer ≠ 0 ∧ ∀ p ∈ s.posted, p.atomic = true → p.lost = false → p.peer ≠ some peer) →
     let fence := fun (f : FenceWait) => if s.posted.any fun p => p.crew == f.crew && p.peer == some peer then match st with
        | .up => f
        | .retraining => { f with links := f.links.filter (fun l => l.1 != peer) ++ [(peer, s.now)] }
        | .down => { f with failed := if f.failed.contains peer then f.failed else f.failed ++ [peer] } else f
     let post := fun (p : Posted) => if p.peer = some peer then match st with
        | .up => { p with held := none }
        | .retraining => p
        | .down => { p with held := none, lost := true } else p
     Runs (.linkStateChange peer st) s (State.event 2 peer .link 0xFFFFFFFF (match st with | .up => 0 | .retraining => 1 | .down => 2)
        { s with
          hub := { s.hub with
            links := (s.hub.links.filter fun l => l.1 != peer) ++ if st = .up then [] else [(peer, st)]
            failed := if st = .down then s.hub.failed.filter (· != peer) ++ [peer] else s.hub.failed }
          outbox := s.outbox ++ if st = .up then (s.posted.filter fun p => p.peer == some peer).filterMap Posted.held else []
          fences := s.fences.map fence
          posted := (s.posted.filter fun p => !(p.crew == 0 && p.peer == some peer && st != .retraining)).map post })) ∧
    (∀ p c x, st = .down → p ∈ s.posted → p.atomic = true → p.lost = false → p.peer = some peer → p.crew = c → c ≠ 0 → s.crew? c = some x →
      (∀ k ∈ s.cores, k.barge.queue = [] ∧ k.barge.jobs = [] ∧ k.ten = []) →
      (∀ p' ∈ s.posted, p'.atomic = true → p'.lost = false → p'.peer = some peer → p'.crew = c → p' = p) → (s.posted.filter (· = p)).length = 1 →
      ∃ t y q, Runs (.linkStateChange peer .down) s t ∧ t.crew? c = some y ∧ y.r = x.r ∧ y.post = x.post ++ [q] ∧ q.code = 0x22 ∧
        q.addr = BitVec.ofNat 64 p.addr) ∧
    (st = .down → peer = 0 → ∃ t, Runs (.linkStateChange 0 .down) s t ∧ ∀ l ∈ t.sched.launches, ∀ x ∈ l.pods, x.2 ≠ none) ∧
    ((∀ p ∈ s.partials, p.die ≠ die ∧ p.line * 128 / 0xC00000000 ≠ die) → Runs (.dieFailure die) s
      { s with dies := s.dies.modify die fun d => { d with failed := true, copies := [] } }) ∧
    (∀ p, s.partials = [p] → p.die = die ∨ p.line * 128 / 0xC00000000 = die → ∃ t, Runs (.dieFailure die) s t ∧ t.partials = [] ∧
      t.dies = (s.dies.modify die fun d => { d with failed := true, copies := [] }) ∧
      t.hub.events.getLast? = some ⟨s.hub.nextEvent, s.now * 1880, 3 * 4096 + die % 4096, EvKind.homeLost.num, 0xFFFFFFFF,
        BitVec.ofNat 64 (p.line * 128)⟩ ∧
      let lost := fun (x y : Crew) (on : Prop) => y.r = x.r ∧ (¬ on → y = x) ∧
        (on → ∃ q : PostFault, y.post = x.post ++ [q] ∧ q.code = 0x21 ∧ q.addr = BitVec.ofNat 64 (p.line * 128))
      (∀ c x, c ≠ 0 → s.crew? c = some x → ∃ y, t.crew? c = some y ∧ lost x y (x.task.launch ≠ 0 ∧ p.slot = x.r.keyslot)) ∧
      (∀ (k j : Nat) (y : SavedCtx) (x : Crew), s.sched.saved[k]? = some y → y.crews[j]? = some x →
        ∃ (y' : SavedCtx) (x' : Crew), t.sched.saved[k]? = some y' ∧ y'.crews[j]? = some x' ∧ lost x x' (p.slot = x.r.keyslot))) ∧
    (mw ≤ s.hub.capMw ∨ s.hub.clock ≤ 470 → Runs (.powerCap mw) s s) ∧
    (s.hub.capMw < mw → 470 < s.hub.clock → Runs (.powerCap mw) s (State.event 4 0 .sensor 0xFFFFFFFF
      (BitVec.ofNat 64 (max 470 (s.hub.clock - 47))) { s with hub := { s.hub with clock := max 470 (s.hub.clock - 47) } })) ∧
    (s.sched.launches = [] → s.streams = [] → (∀ y ∈ s.landings, y = ⟨[], []⟩) → ∃ t, Runs (.thermalTrip die) s { t with hub := { t.hub with powered := false } } ∧
      t = State.event 4 die .sensor 0xFFFFFFFF (BitVec.ofNat 64 die) s) ∧
    ∃ t, Runs (.thermalTrip die) s t ∧ t.hub.powered = false ∧ t.sched.launches = []

/-- R318, R319, R321, R323, R329, R332: messages of the pod barrier network. -/
def Sys2Proof.Claims.PodMessages : Prop :=
  ∀ (s : State) (n : Fin 2) (k a : Nat) (bytes : BitVec 64) (v : BitVec 16) (b : Barrier) (j u : Nat) (own : BitVec 32) (e : BitVec 20) (ws : List Dword),
    s.hub.pods[n.val]? = some b →
    let told := fun m => Runs (.podBarrierMessage m) s s
    (s.hub.regs.pkg ≠ 0 →
      ((∀ l ∈ s.sched.launches, ∀ p ∈ l.pods, p.1 = n → p.2 = none) →
        ∃ t, Runs (.podBarrierMessage (.phase n v)) s t ∧ PodPassed s t n (v - 1) v ∧ t.outbox = s.outbox) ∧
      (∃ t, Runs (.podBarrierMessage (.phase n v)) s t ∧ ∀ (i : Nat) (x : Crew) (l : Launch), s.crews[i]? = some x → s.launch? x.task.launch = some l →
        (n, some ws) ∈ l.pods → t.crews[i]? = some x) ∧
      (told (.arrivals n k) ∧ told (.deduction n k a) ∧ told (.bytes n bytes) ∧ told (.leave n) ∧ told (.free n own) ∧
        told (.claim n j u own e k) ∧ told (.save n j u own) ∧ told (.restore n j u own ws)) ∧
      (j ≠ s.hub.regs.pkg.toNat → told (.saved n j u ws) ∧ ∀ ok, told (.restored n j u own ok) ∧ told (.claimed n j u ok v)) ∧
      Runs (.podBarrierMessage (.saved n s.hub.regs.pkg.toNat u ws)) s
        (s.mapLaunch u fun l => { l with pods := l.pods.map fun p => if p.1 = n then (n, some ws) else p }) ∧
      ∀ (c : Nat) (x : Crew) (org : Origin) (cnt : Dword) (num : Nat) (sent : Bool) (rest : List Act), s.crew? c = some x → x.phase = .acting →
        x.chunk.acts = ⟨org, .bari ⟨5, 0, n.val⟩ cnt num sent⟩ :: rest → (∀ m, x.chunk.rels.head? = some m → m.acts ≠ 0) →
        let at_ := fun (s : State) (f : Crew → Crew) => ((s.focusOn c).mapCrew c f).focusOn s.focus.uid
        (sent = false → s.link (some 0) = .up → ∀ l, s.launch? x.task.launch = some l → ∃ t, Runs (.chunkCommit c) s t ∧
          t.outbox = s.outbox ++ [.pod (some 0) (.claim n s.hub.regs.pkg.toNat c l.tag (BitVec.ofNat 20 cnt.toNat)
            (32 - laneCount (x.r.tmask &&& ~~~x.r.emask)))] ∧
          t.crew? c = some { x with chunk := { x.chunk with acts := ⟨org, .bari ⟨5, 0, n.val⟩ cnt num true⟩ :: rest } }) ∧
        (sent = true → Runs (.chunkCommit c) s s ∧
          Runs (.podBarrierMessage (.claimed n s.hub.regs.pkg.toNat c true v)) s
            (at_ { s with hub := { s.hub with pods := s.hub.pods.modify n.val fun b => { b with phase := v } } } fun x =>
              { x with enroll := x.enroll ++ [⟨⟨5, 0, n.val⟩, 0⟩], chunk := popped x.chunk }) ∧
          Runs (.podBarrierMessage (.claimed n s.hub.regs.pkg.toNat c false v)) s
            (at_ s fun x => { x with
              post := x.post ++ [⟨0x08, BitVec.ofNat 64 num, org, org.lanes, false⟩], chunk := popped x.chunk }))) ∧
    (s.hub.regs.pkg = 0 → s.link (some j) = .up →
      (told (.phase n v) ∧ told (.saved n j u ws) ∧ ∀ ok, told (.restored n j u own ok) ∧ told (.claimed n j u ok v)) ∧
      (let put := fun (z : Barrier) (out : List PodMessage) =>
        { s with hub := { s.hub with pods := s.hub.pods.set n.val z }, outbox := s.outbox ++ out.map fun m => .pod (some j) m }
       let clear := { Barrier.reset with phase := b.phase }
       let mine := b.v = true ∧ b.owner = own
       let i := Instr.podBarrierMessage (.claim n j u own e k)
       (b.v = false → Runs i s (put ⟨own, true, b.enrolled + 1, b.phase, 0, e - BitVec.ofNat 20 k, 0⟩ [.claimed n j u true b.phase])) ∧
       (mine → Runs i s (put { b with enrolled := b.enrolled + 1, expect := b.expect - BitVec.ofNat 20 k } [.claimed n j u true b.phase])) ∧
       (b.v = true → b.owner ≠ own → Runs i s (put b [.claimed n j u false 0])) ∧
       (∀ z, z = (if b.enrolled ≤ 1 then clear else { b with enrolled := b.enrolled - 1 }) → Runs (.podBarrierMessage (.leave n)) s (put z [])) ∧
       (mine → Runs (.podBarrierMessage (.free n own)) s (put clear []) ∧ Runs (.podBarrierMessage (.save n j u own)) s (put clear
        [.saved n j u [b.pendb, b.expect.zeroExtend 64, BitVec.ofNat 64 (b.arrived % 2 ^ 20 + 2 ^ 20 * b.phase.toNat + 2 ^ 36 * b.enrolled),
          BitVec.ofNat 64 (1 + 2 ^ 32 * own.toNat)]])) ∧
       (¬ mine → Runs (.podBarrierMessage (.free n own)) s s ∧ Runs (.podBarrierMessage (.save n j u own)) s (put b [.saved n j u []])) ∧
       (∀ z : Barrier, z.v = true → z.arrived < 2 ^ 20 → z.enrolled < 2 ^ 20 →
        ws = [z.pendb, z.expect.zeroExtend 64, BitVec.ofNat 64 (z.arrived + 2 ^ 20 * z.phase.toNat + 2 ^ 36 * z.enrolled),
          BitVec.ofNat 64 (1 + 2 ^ 32 * z.owner.toNat)] →
        let i := Instr.podBarrierMessage (.restore n j u own ws)
        (b.v = false ∨ b.owner = own → Runs i s (put { z with owner := own } [.restored n j u own true])) ∧
        (b.v = true → b.owner ≠ own → Runs i s (put b [.restored n j u own false])))) ∧
      ∀ i c, (i, c) ∈ [(Instr.podBarrierMessage (.arrivals n k), { b with arrived := b.arrived + k }),
          (.podBarrierMessage (.deduction n k a), { b with expect := b.expect - BitVec.ofNat 20 k, arrived := b.arrived - a }),
          (.podBarrierMessage (.bytes n bytes), { b with pendb := b.pendb + bytes })] →
        (¬ (c.arrived = c.expect.toNat ∧ c.pendb = 0) → Runs i s { s with hub := { s.hub with pods := s.hub.pods.set n.val c } }) ∧
        (c.arrived = c.expect.toNat → c.pendb = 0 → ∃ t, Runs i s t ∧
          PodPassed { s with hub := { s.hub with pods := s.hub.pods.set n.val c } } t n b.phase (b.phase + 1) ∧
          t.outbox = s.outbox ++ [.pod none (.phase n (b.phase + 1))]))

/-- R422: a cold reset, and a warm reset, where the boot of the hub reaches the ready state at its first try: that it does is assumed
of Config.bootReady, a free value (log entry 20), which the manual does not settle.
Rests on readings and choices of the model (log entries 4, 5, 6, 7, 20, 82, 89 and 97). -/
def Obligations.Resets : Prop :=
  ∀ s : State, Config.bootReady s.free = true →
    (∃ t, Runs .coldReset s t ∧ t.mem = [] ∧ t.keyed = [] ∧ t.bad = [] ∧ t.crews = [Crew.empty] ∧ t.cores = State.reset.cores ∧
      t.rafts = State.reset.rafts ∧ t.landings = State.reset.landings ∧ t.streams = [] ∧ t.partials = [] ∧ t.sched.launches = [] ∧
      t.sched.queues = [] ∧ t.sched.saved = [] ∧ t.sched.qtcount = 0 ∧ t.hub.keys = [0] ∧ t.hub.wraps = [] ∧ t.hub.events = [] ∧
      t.hub.powered = true ∧ t.hub.regs.harv = s.hub.regs.harv ∧ t.hub.regs.pkg = s.hub.regs.pkg ∧ t.hub.activeB = s.hub.activeB ∧
      t.hub.regs.diemap = [0, 1, 2, 3, 4, 5, 6, 7] ∧ t.hub.regs.qage = 500 ∧ t.hub.regs.qrot = 200 ∧ t.hub.regs.linkTmo = 2000 ∧
      t.hub.regs.stopTmo = 20000 ∧ (∀ (k : Nat) (y z : Die), t.dies[k]? = some y → s.dies[k]? = some z → y.failed = z.failed ∧ y.hints = []) ∧ Memory.wf t.mem ∧
      t.filled = [] ∧ t.hub.bar2size = s.hub.bar2size ∧ t.hub.spadUnits = s.hub.nextUnits ∧ t.hub.cache = [] ∧ t.hub.l2 = [] ∧ t.inbound = []) ∧
    (s.sched.launches = [] → s.streams = [] → s.inbound = [] → s.hub.keys = [0] → ∃ t, Runs .warmReset s t ∧ t.mem = s.mem ∧ t.crews = s.crews ∧
      t.sched.slots = List.replicate 64 ⟨none, none⟩ ∧ (∀ x ∈ t.sched.queues, x.slot = none ∧ x.asked = false ∧ x.ckpt = none) ∧
      t.sched.queues.map (fun x => (x.num, x.head, x.tail)) = s.sched.queues.map (fun x => (x.num, x.head, x.tail)) ∧
      (∀ j < 4, (t.hub.regs.retways.getD j 0).getLsbD 4 = false) ∧ t.hub.powered = s.hub.powered ∧ t.hub.activeB = s.hub.activeB ∧
      t.hub.events = s.hub.events ∧ t.hub.windows = s.hub.windows) ∧
    ∃ t, Runs .warmReset s t ∧ (∀ k ∈ t.hub.keys, k = 0) ∧ t.sched.launches = []

/-- R230, R247, R318, R323, R415, R424: links, dies, power and the pod network.
Rests on readings and choices of the model (log entries 7, 33, 35, 58, 79, 97, 113, 114 and 122). -/
def Obligations.OutsideEvents : Prop := LinksDiesPower ∧ PodMessages

namespace Sys2Proof.Claims
open Sys2Proof.Machine

/-! ### Steps -/

/-- The next step is the issue of the next word of the crew in focus: the agenda says so after d µs, or there is no agenda and
nothing stands before that word (log entry 1). A word waits until the special-function unit has taken the one before it (R165). -/
def NextIssues (s : State) (c : Clause) (d : Nat) (rest : List (Nat × Move)) : Prop :=
  s.focus.cur = some c ∧ (∀ x ∈ s.focus.r.inflight, x.kind ≠ .sfu false) ∧ (s.agenda = (d, .issue s.focus.uid) :: rest ∨
    (s.agenda = [] ∧ d = 0 ∧ rest = [] ∧ c.held = false))

/-- The machine once that time has passed. -/
def later (s : State) (d : Nat) (rest : List (Nat × Move)) : State := { s with now := s.now + d, agenda := rest }

/-- The words of a clause from its next one on are w, then ws. -/
def NextWords (c : Clause) (w : Nat) (ws : List Nat) : Prop := (c.words.drop (c.idx - 1)).map BitVec.toNat = w :: ws

/-- The clause after instruction i (R22, R35, R36): past the words of i, or at the next repeat; an ORD governs the one word after it. -/
def stepped (i : Instr) (k : Clause) : Clause :=
  match k.rep, i with
  | some _, .rep _ _ => { k with idx := k.idx + k.len }
  | some p, _ => if p.left ≤ 1 then { k with rep := none, idx := k.idx + k.len } else { k with rep := some ⟨p.done + 1, p.left - 1, p.step⟩ }
  | none, .ord _ _ => { k with idx := k.idx + k.len }
  | none, _ => { k with idx := k.idx + k.len, order := none }

/-- The machine after instruction i has left it at `t` with clause `k` in issue (R79, R81, R85, R197): one more instruction has
issued, SAFECNT counts it but for SAFEPT, and after the last word the clause is over, its threads at the clause that follows
unless a control transfer has moved them. -/
def wordDone (i : Instr) (k : Clause) (t : State) : State :=
  let safe := match i with
    | .safept _ => t.focus.r.safecnt
    | _ => t.focus.r.safecnt + 1
  let r := { t.focus.r with safecnt := safe }
  let past := k.header.count.val < (stepped i k).idx
  let through := fun (_ : Fin 32) => (k.addr + BitVec.ofNat 57 (4 * (k.header.count.val + 1)), false)
  let fallen := { r with frontier := advanceFrontier k.addr (laneList k.lanes) through false r.frontier }
  { t with focus := { t.focus with
      chunk := { t.focus.chunk with issued := t.focus.chunk.issued + 1 }
      cur := if past then none else some (stepped i k)
      r := if past ∧ k.moved = false then fallen else r } }

/-- Words written out from their encodings, and the instructions that they stand for: forms J, I, A, K, Q of SEQ; RX and literal
words of VI and VF; an MX word; forms A, I and T of MEM, TEN, TSK and BRG. -/
def wordsA : List (EngineClass × List Nat × Instr) :=
  [(.seq, [0x01FFFFFC], .bra (-4)), (.seq, [0x02003005], .brz false 3 5), (.seq, [0x047FFFFE], .brq 3 true (-2)),
   (.seq, [0x0C1F0000], .rep 7 0b1100), (.seq, [0x13241080], .smulh 9 1 2), (.seq, [0x28145FFF], .saddi 5 5 (-1)),
   (.seq, [0x2D161234], .smovk 5 2 0x1234), (.seq, [0x39005140], .mtsr 0x140 5), (.vi, [0x2F1BFFFF], .vmovi 6 3 0xFFFF none),
   (.vi, [0x85101080, 0x00000004], .vmul 4 1 2 false (some ⟨.none, .none, ⟨false, 0⟩, 0, true, none⟩)),
   (.vi, [0x82142080, 0xE77C0C00], .vsub 5 2 2 false (some ⟨.segb 3 7, .segb 3 0, ⟨false, 0⟩, 0, false, none⟩))]
def wordsB : List (EngineClass × List Nat × Instr) :=
  [(.vf, [0x82101080, 0x00040C08], .fmul 4 1 2 false (some ⟨.none, .rot 3 0, ⟨false, 0⟩, 1, false, none⟩)),
   (.vf, [0x1930B020], .frsq 12 11 true none), (.vf, [0x282020CD], .cvt 8 2 3 13 false none),
   (.vf, [0x2F1C0000, 0x00000000, 0x3FF80000], .flimm 7 0x3FF8000000000000), (.mem, [0x002C0000], .ord 1 3),
   (.mem, [0x01142B03], .ld 5 2 11 3 none), (.mem, [0x871C3900, 0x26900000], .ldx 7 3 9 0 ⟨9, 2, true, 1, ⟨false, 0⟩, 0⟩),
   (.mem, [0x11102166], .atomc 4 2 5 6 true none), (.mem, [0x18140006], .fence 5 6)]
def wordsC : List (EngineClass × List Nat × Instr) :=
  [(.ten, [0x03095040], .tst 2 21 1 false false), (.ten, [0x04014541], .tmma 0 20 21 true false false), (.ten, [0x0628B30D], .tsweep 10 11 12 13 false),
   (.tsk, [0x0228B653], .spawng 10 11 1 3 3 true false), (.tsk, [0x0A1061CA], .rdacc 4 6 7 2 true), (.tsk, [0x0F140011], .bara 5 1 2),
   (.tsk, [0x13000005], .trap 5), (.brg, [0x0128E1AC], .cpyf 10 14 6 12 true), (.brg, [0x031CD000], .wtagall 7 13 false)]

end Sys2Proof.Claims

/-! ### Encoding -/

/-- R17, R19, R28 to R36, R39: words of the entries' own examples decode to the instructions that they stand for, and bits that no
encoding assigns to none. -/
def Obligations.WordsDecode : Prop :=
  (∀ p ∈ wordsA ++ wordsB ++ wordsC, decode p.1 (p.2.1.headD 0) (p.2.1.drop 1) = some (p.2.2, [])) ∧
    decode .seq 0x10000001 [] = none ∧ decode .vi 0x80000000 [5 * 2 ^ 29 + 2 ^ 26] = none ∧ decode .tsk 0x15000000 [] = none ∧
    decodeHeader 0x340083E1 = some ⟨3, .vf, 4, 1, 15, false, false, 1⟩ ∧ decodeHeader 0x30001FE0 = some ⟨3, .seq, 0, 15, 15, false, false, 0⟩ ∧
    decodeHeader 0x3E001FE0 = none

/-- R16, R17, R27 to R36, R39: every well-formed instruction is what its own words decode to, with the words after it left; and a
clause header is what its word decodes to. -/
def Obligations.DecodeOfEncode : Prop :=
  (∀ (i : Instr) (c : EngineClass) (rest : List Nat), i.wf = true → i.cls = some c →
    decode c ((encode i).headD 0) ((encode i).drop 1 ++ rest) = some (i, rest)) ∧
    ∀ h : Header, h.count ≠ 0 → setOk h.seta = true → setOk h.setb = true → decodeHeader (encodeHeader h) = some h

/-- R27, R28, R40, R41: no bit of a word that decodes is lost: its instruction is well formed and encodes to the same words. -/
def Obligations.EncodeOfDecode : Prop :=
  ∀ (c : EngineClass) (w : Nat) (rest more : List Nat) (i : Instr), w < 2 ^ 32 → (∀ x ∈ rest, x < 2 ^ 32) → decode c w rest = some (i, more) →
    i.wf = true ∧ i.cls = some c ∧ encode i ++ more = w :: rest

/-! ### Steps -/

/-- R20 to R22, R25, R35, R36, R41, R79, R81, R85, R197, R282: the step that issues a word runs its instruction; a move of the agenda
is performed, unless a read that it makes has to wait (R203, R246); a clause's words are the bytes of memory at its address.
Rests on readings and choices of the model (log entries 1, 15 and 44). -/
def Obligations.StepRunsInstruction : Prop :=
  ∀ (s : State) (d : Nat) (rest : List (Nat × Move)),
    (∀ i t, s.agenda = (d, .step i) :: rest → Runs i (later s d rest) t →
      (t.stall = false → step s = .next t) ∧ (t.stall = true → step s = .next (later s d rest))) ∧
    (∀ (c : Clause) (w : Nat) (ws : List Nat), s.stall = false → NextIssues s c d rest → NextWords c w ws →
      let u := later s d rest
      let b := { u with focus := { u.focus with cur := some { c with held := false } } }
      (decodeAt c.header.cls c.idx w ws = none → step s = .next (u.raise (flt .illegal 0))) ∧
      ∀ word more, decodeAt c.header.cls c.idx w ws = some (word, more) →
        (∀ p, c.rep = some p → stepInstr p.step p.done word = none → step s = .next (u.raise (flt .illegal 0))) ∧
        ∀ i, (c.rep = none ∧ i = word) ∨ (∃ p, c.rep = some p ∧ stepInstr p.step p.done word = some i) →
          (s.focus.task.kind = .routine → routineMay i = false → step s = .next (u.raise (flt .illegal 0))) ∧
          (s.focus.task.kind ≠ .routine → c.rep = none → s.focus.r.flt.sup = false → s.focus.r.safecnt = 4096 → (∀ m, i ≠ .safept m) →
            step s = .next (u.raise (flt .safedist 0))) ∧
          ((s.focus.task.kind = .routine → routineMay i = true) →
            (c.rep ≠ none ∨ s.focus.r.flt.sup = true ∨ s.focus.r.safecnt ≠ 4096 ∨ ∃ m, i = .safept m) →
            ∀ t, exec i (match c.rep with
                | some p => { b with focus := { b.focus with r := { b.focus.r with repc := BitVec.ofNat 6 (p.left - 1) } } }
                | none => b) = .next t →
              (t.stall = true → step s = .next { u with focus := { u.focus with cur := some { c with held := true } } }) ∧ (t.stall = false →
              (t.focus.cur = none → step s = .next t) ∧
              ∀ k, t.focus.cur = some k →
                (k.held = true → step s = .next t) ∧
                (k.held = false → t.focus.task.atomic = true → t.focus.r.flt.sup = false → t.focus.chunk.ends = true → s.focus.chunk.ends = false →
                  t.focus.r.tmask &&& ~~~t.focus.r.emask ≠ 0 → step s = .next (t.raise (flt .illegal 0))) ∧
                (k.held = false → (t.focus.task.atomic = false ∨ t.focus.r.flt.sup = true ∨ t.focus.chunk.ends = false ∨ s.focus.chunk.ends = true ∨
                  t.focus.r.tmask &&& ~~~t.focus.r.emask = 0) → step s = .next (wordDone i k t))))) ∧
    ∀ (c : Crew) (a idx : Nat) (s1 : State) (leaf : Dword) (pa : Nat) (page : Nat × Nat), a < 2 ^ 56 →
      s.translate (s.space c false) ⟨false, false, true⟩ a = (s1, .ok leaf pa page) → isHbm pa = true → s1.badAt pa 4 = false → pa % 4 = 0 →
      s1.partials = [] →
      (∀ x, (s1.coreAt c.core).code.find? (fun x => x.line == pa / 128) = some x →
        ∃ s2, s.fetchWord c a idx = (s2, .ok (BitVec.ofNat 32 (leNat ((x.data.drop (pa % 128)).take 4))))) ∧
      ((∀ x ∈ (s1.coreAt c.core).code, x.line ≠ pa / 128) → (∀ z ∈ s1.keyed, z.line = pa / 128 → z.key = s1.material (pteKey leaf)) →
        ∃ s2, s.fetchWord c a idx = (s2, .ok (BitVec.ofNat 32 (leNat (s1.bytes pa 4)))))

/-! ### Reset and invariants -/

/-- R51, R68 to R70, R188, R394, R404, R422: the state after reset: no crew, launch or queue, nothing written, registers at their
reset values; and it satisfies the invariant.
Rests on readings and choices of the model (log entries 4, 5, 6, 82 and 89). -/
def Obligations.ResetState : Prop :=
  let s := State.reset
  s.crews = [Crew.empty] ∧ s.mem = [] ∧ s.sched.launches = [] ∧ s.sched.queues = [] ∧ s.hub.keys = [0] ∧ s.cores.length = 288 ∧
    (∀ k ∈ s.cores, k.chklen = 2048 ∧ k.chkretry = 3 ∧ k.trapvec = 0 ∧ k.tlb = [] ∧ k.l1 = [] ∧ k.ct = List.replicate 64 0) ∧
    (∀ i : Fin 64, s.focus.r.s[i] = 0 ∧ ∀ t : Fin 32, s.focus.r.v[i][t] = ⟨0, 0⟩) ∧
    s.focus.r.rndmode = 1 ∧ s.focus.r.fpflags = 0 ∧ s.focus.r.pedigree = [⟨0, 0⟩] ∧ s.focus.r.flt.sup = false ∧
    s.hub.regs.diemap = [0, 1, 2, 3, 4, 5, 6, 7] ∧ (∀ d < 8, ∀ j < 36, s.hub.regs.lct.getD (36 * d + j) 0 = BitVec.ofNat 64 (2 ^ 15 + 2 ^ 8 * d + j)) ∧
    s.hub.regs.qage = 500 ∧ s.hub.regs.qrot = 200 ∧ s.hub.regs.linkTmo = 2000 ∧ s.hub.regs.stopTmo = 20000 ∧
    s.Inv

/-- R4: every step answers a next state: no move stops the machine; memory keeps its canonical form; and no step ends with a read that
waits.
Rests on readings and choices of the model (log entry 44). -/
def Obligations.EveryStepGoesOn : Prop :=
  ∀ s : State, Memory.wf s.mem → ∃ t, step s = .next t ∧ Memory.wf t.mem ∧ (s.stall = false → t.stall = false)

/-- Every step keeps the numbers of crews and launches, saved and checkpointed ones with them, below the next one.
Rests on readings and choices of the model (log entry 1). -/
def Obligations.NumbersStayBelow : Prop := ∀ s t : State, s.Numbered → step s = .next t → t.Numbered

namespace Sys2Proof.Claims
open Sys2Proof.Machine

/-! ### Phases of barrier objects -/

/-- The object of core, raft, die or package scope is there and holds `b`. -/
structure ObjectIs (s : State) (o : ObjId) (b : Barrier) : Prop where
  scope : o.scope = 1 ∨ o.scope = 2 ∨ o.scope = 3 ∨ o.scope = 4
  core : o.scope = 1 → o.inst < s.cores.length
  here : (s.barList o)[o.num]? = some b

/-- evaluate of R323 in `t`, where an act has made the object `b` and the crew in focus `x`: the phase passes where as many have
arrived as are expected and no bytes are pending; else nothing more happens. Other objects stay. -/
structure Evaluated (s t : State) (o : ObjId) (b : Barrier) (x : Crew) : Prop where
  stays : ¬ (b.arrived = b.expect.toNat ∧ b.pendb = 0) → t.barrier o = b ∧ t.focus = x ∧ t.pool = s.pool
  passes : b.arrived = b.expect.toNat → b.pendb = 0 → t.barrier o = { b with phase := b.phase + 1, arrived := 0 } ∧
    t.pool.length = s.pool.length ∧ t.focus.chunk = x.chunk ∧
    ∀ y z : Crew, (y = x ∧ z = t.focus) ∨ (∃ k : Nat, s.pool[k]? = some y ∧ t.pool[k]? = some z) →
      Released o b.phase y.r z.r ∧ z.enroll = y.enroll.map fun e => if e.obj = o then { e with mask := 0 } else e
  others : ∀ n : ObjId, n ≠ o → (n.scope = 1 ∨ n.scope = 2 ∨ n.scope = 3 ∨ n.scope = 4 ∨ n.scope = 5) → t.barrier n = s.barrier n

/-- The crew as threads `g` of it have arrived at an object, its act done. -/
def arrived (x : Crew) (o : ObjId) (g : Lanes) (r : Regs) : Crew :=
  { x with
    r := r, enroll := x.enroll.map fun e => if e.obj = o then { e with mask := e.mask ||| g } else e
    chunk := popped x.chunk }

end Sys2Proof.Claims

/-- R321, R323, R328 to R330: the step-6 parts of the barrier instructions, on an object of core, raft, die or package scope.
Rests on readings and choices of the model (log entries 75, 88 and 122). -/
def Obligations.BarrierPhases : Prop :=
  ∀ (s : State) (c : Nat) (org : Origin) (kind : ActKind) (rest : List Act) (o : ObjId) (b : Barrier) (g : Lanes) (d : Fin 64) (n : Dword)
      (token : BitVec 16) (num : Nat),
    s.focus.uid = c → s.focus.phase = .acting → s.focus.chunk.acts = ⟨org, kind⟩ :: rest →
    (∀ m, s.focus.chunk.rels.head? = some m → m.acts ≠ 0) → ObjectIs s o b →
    let x := s.focus
    let i := Instr.chunkCommit c
    let mask := ((x.enroll.find? fun e => e.obj == o).map Enroll.mask).getD 0
    let more := { b with arrived := b.arrived + laneCount (g &&& ~~~mask) }
    let missing := BitVec.ofNat 20 (32 - laneCount (x.r.tmask &&& ~~~x.r.emask))
    let done := { x with chunk := popped x.chunk }
    (kind = .bar o g → ∃ t, Runs i s t ∧ Evaluated s t o more
      (arrived x o g { x.r with blocked := x.r.blocked ||| g, waits := x.r.waits ++ [⟨some o, b.phase, g⟩] })) ∧
    (kind = .bara o g d → ∃ t, Runs i s t ∧ Evaluated s t o more
      (arrived x o g (wrote x.r d (b.phase.zeroExtend 64)))) ∧
    (kind = .barb o n → ∃ t, Runs i s t ∧ Evaluated s t o { b with pendb := b.pendb + n } done) ∧
    (kind = .barw o g token → Runs i s { s with focus := { done with
      r := if b.phase = token then { x.r with blocked := x.r.blocked ||| g, waits := x.r.waits ++ [⟨some o, token, g⟩] }
        else { x.r with blocked := x.r.blocked &&& ~~~(g &&& ~~~(x.r.waits.foldl (fun m w => m ||| w.lanes) 0)) } } }) ∧
    (∀ sent, kind = .bari o n num sent → ∀ l, s.launch? x.task.launch = some l →
      (b.v = true → b.owner ≠ l.tag → Runs i s { s with focus := { done with
        post := x.post ++ [⟨0x08, BitVec.ofNat 64 num, org, org.lanes, false⟩] } }) ∧
      ((b.v = false ∨ b.owner = l.tag) → ∃ t, Runs i s t ∧ t.focus = { done with enroll := x.enroll ++ [⟨o, 0⟩] } ∧ t.pool = s.pool ∧
        t.barrier o = (if b.v = false then
            ⟨l.tag, true, b.enrolled + 1, b.phase, 0, BitVec.ofNat 20 n.toNat - missing, 0⟩
          else { b with enrolled := b.enrolled + 1, expect := b.expect - missing })))
end

