-- ==== Sys2Proof/Laws/Memory.lean ====
section
/-! SUPPORT. Laws of the one memory: reads after writes, and that every operation on it keeps its canonical form. -/
namespace Sys2Proof.Machine

/-- A key below every listed one reads as unlisted. -/
theorem readCell_below {k : Nat} : ∀ {m : List Host.Cell}, (∀ x ∈ m, k < x.1) → readCell m k = unlisted k
  | [], _ => rfl
  | (a, b) :: m, h => by
    have ha : k < a := h (a, b) (by simp)
    simp [readCell, Nat.ne_of_gt ha, ha]

/-- A byte reads back where it was written. -/
theorem readCell_writeCell_same (k : Nat) (b : Byte) : ∀ {m : List Host.Cell}, Memory.wf m →
    readCell (writeCell k b m) k = some b
  | [], _ => by
    unfold writeCell
    split
    · simp [readCell, *]
    · simp [readCell]
  | (a, x) :: m, h => by
    obtain ⟨hp, hv⟩ := h
    rw [List.pairwise_cons] at hp
    have hm : Memory.wf m := ⟨hp.2, fun y hy => hv y (List.mem_cons_of_mem _ hy)⟩
    unfold writeCell
    by_cases hak : a = k
    · subst hak
      by_cases hu : unlisted a = some b
      · simp [hu, readCell_below hp.1]
      · simp [hu, readCell]
    · by_cases hka : k < a
      · by_cases hu : unlisted k = some b
        · simp [hak, hka, hu, readCell]
        · simp [hak, hka, hu, readCell]
      · simp [hak, hka, readCell, readCell_writeCell_same k b hm]

/-- A write leaves every other key alone. -/
theorem readCell_writeCell_other {j k : Nat} (b : Byte) (hjk : j ≠ k) : ∀ {m : List Host.Cell}, Memory.wf m →
    readCell (writeCell k b m) j = readCell m j
  | [], _ => by
    unfold writeCell
    split
    · rfl
    · simp [readCell, Ne.symm hjk]
  | (a, x) :: m, h => by
    obtain ⟨hp, hv⟩ := h
    rw [List.pairwise_cons] at hp
    have hm : Memory.wf m := ⟨hp.2, fun y hy => hv y (List.mem_cons_of_mem _ hy)⟩
    unfold writeCell
    by_cases hak : a = k
    · subst hak
      have haj : a ≠ j := Ne.symm hjk
      by_cases hu : unlisted a = some b
      · simp only [if_true, hu]
        by_cases hja : j < a
        · rw [readCell_below (fun y hy => Nat.lt_trans hja (hp.1 y hy))]
          simp [readCell, haj, hja]
        · simp [readCell, haj, hja]
      · simp [hu, readCell, haj]
    · by_cases hka : k < a
      · by_cases hu : unlisted k = some b
        · simp [hak, hka, hu]
        · simp only [if_neg hak, if_pos hka, if_neg hu]
          by_cases hjk' : j < k
          · have : j < a := Nat.lt_trans hjk' hka
            simp [readCell, Ne.symm hjk, hjk', Nat.ne_of_gt this, this]
          · simp [readCell, Ne.symm hjk, hjk']
      · simp only [if_neg hak, if_neg hka]
        by_cases haj : a = j
        · simp [readCell, haj]
        · by_cases hja : j < a
          · simp [readCell, haj, hja]
          · simp [readCell, haj, hja, readCell_writeCell_other b hjk hm]

/-- Keys of a memory after a write are old keys or the key written. -/
theorem mem_writeCell {k : Nat} {b : Byte} {y : Host.Cell} : ∀ {m : List Host.Cell},
    y ∈ writeCell k b m → y ∈ m ∨ (y = (k, b) ∧ unlisted k ≠ some b)
  | [], h => by
    unfold writeCell at h
    split at h
    · simp at h
    · rename_i hu
      exact .inr ⟨by simpa using h, hu⟩
  | (a, x) :: m, h => by
    unfold writeCell at h
    split at h
    · split at h
      · exact .inl (List.mem_cons_of_mem _ h)
      · rename_i hu
        rcases List.mem_cons.mp h with h | h
        · exact .inr ⟨h, hu⟩
        · exact .inl (List.mem_cons_of_mem _ h)
    · split at h
      · split at h
        · exact .inl h
        · rename_i hu
          rcases List.mem_cons.mp h with h | h
          · exact .inr ⟨h, hu⟩
          · exact .inl h
      · rcases List.mem_cons.mp h with h | h
        · exact .inl (by simp [h])
        · rcases mem_writeCell h with h | h
          · exact .inl (List.mem_cons_of_mem _ h)
          · exact .inr h

/-- A write keeps the canonical form. -/
theorem writeCell_wf (k : Nat) (b : Byte) : ∀ {m : List Host.Cell}, Memory.wf m → Memory.wf (writeCell k b m)
  | [], _ => by
    unfold writeCell
    split
    · exact ⟨List.Pairwise.nil, by simp⟩
    · rename_i hu
      exact ⟨List.pairwise_singleton _ _, by simpa using hu⟩
  | (a, x) :: m, h => by
    obtain ⟨hp, hv⟩ := h
    have hp' := List.pairwise_cons.mp hp
    have hm : Memory.wf m := ⟨hp'.2, fun y hy => hv y (List.mem_cons_of_mem _ hy)⟩
    have ih := writeCell_wf k b hm
    unfold writeCell
    split
    · rename_i hak
      subst hak
      split
      · exact hm
      · rename_i hu
        refine ⟨List.pairwise_cons.mpr ⟨hp'.1, hp'.2⟩, ?_⟩
        intro y hy
        rcases List.mem_cons.mp hy with hy | hy
        · simpa [hy] using hu
        · exact hm.2 y hy
    · rename_i hak
      split
      · rename_i hka
        split
        · exact ⟨hp, hv⟩
        · rename_i hu
          refine ⟨List.pairwise_cons.mpr ⟨?_, hp⟩, ?_⟩
          · intro y hy
            rcases List.mem_cons.mp hy with hy | hy
            · simpa [hy] using hka
            · exact Nat.lt_trans hka (hp'.1 y hy)
          · intro y hy
            rcases List.mem_cons.mp hy with hy | hy
            · simpa [hy] using hu
            · exact hv y hy
      · rename_i hka
        refine ⟨List.pairwise_cons.mpr ⟨?_, ih.1⟩, ?_⟩
        · intro y hy
          rcases mem_writeCell hy with hy | ⟨hy, -⟩
          · exact hp'.1 y hy
          · have : a < k := by omega
            simpa [hy] using this
        · intro y hy
          rcases List.mem_cons.mp hy with hy | hy
          · exact hv y (by simp [hy])
          · exact ih.2 y hy

/-- The canonical form of the machine's memory. -/
theorem State.putByte_wf {s : State} (k : Nat) (b : Byte) (h : Memory.wf s.mem) : Memory.wf (s.putByte k b).mem :=
  writeCell_wf k b h

theorem State.putBytes_wf {s : State} (l : List (Nat × Byte)) (h : Memory.wf s.mem) : Memory.wf (s.putBytes l).mem := by
  induction l generalizing s with
  | nil => exact h
  | cons x l ih => exact ih (State.putByte_wf x.1 x.2 h)

theorem State.keyLine_wf {s : State} (line slot : Nat) (h : Memory.wf s.mem) : Memory.wf (s.keyLine line slot).mem := by
  unfold State.keyLine
  cases s.keyed.find? fun x => x.line == line with
  | none => exact h
  | some x =>
    dsimp only
    split
    · exact h
    · exact State.putBytes_wf _ h

/-- The machine's memory at reset is in canonical form. -/
theorem State.reset_wf : Memory.wf State.reset.mem := by
  change Memory.wf []
  exact ⟨List.Pairwise.nil, by simp⟩

/-- A byte that is put is given. -/
theorem State.given_putByte_same {s : State} {k : Nat} (b : Byte) (h : isSpad k = true) : (s.putByte k b).given k = true := by
  by_cases hg : s.given k = true
  · have hf : (s.putByte k b).filled = s.filled := by simp [State.putByte, hg]
    unfold State.given at hg ⊢
    rw [hf]
    exact hg
  · have hf : (s.putByte k b).filled = (k, 1) :: s.filled := by simp [State.putByte, hg, h]
    unfold State.given
    rw [hf]
    simp

/-- Another byte stays given, or not. -/
theorem State.given_putByte_other {s : State} {j k : Nat} (b : Byte) (hjk : j ≠ k) : (s.putByte k b).given j = s.given j := by
  have hne : ¬ (k ≤ j ∧ j < k + 1) := by omega
  unfold State.given State.putByte
  dsimp only
  split
  · simp only [List.any_cons, Bool.or_eq_right_iff_imp, Bool.and_eq_true, decide_eq_true_eq]
    exact fun h => absurd h hne
  · rfl

/-- A byte that was put reads back. -/
theorem State.byte_putByte_same {s : State} (k : Nat) (b : Byte) (h : Memory.wf s.mem) : (s.putByte k b).byte k = b := by
  have hb : (readCell (s.putByte k b).mem k).getD (Config.arbitraryByte (s.putByte k b).epoch k) = b := by
    simp [State.putByte, readCell_writeCell_same k b h]
  by_cases hk : isSpad k = true
  · simpa [State.byte, State.given_putByte_same b hk] using hb
  · simpa [State.byte, hk] using hb

theorem State.byte_putByte_other {s : State} {j k : Nat} (b : Byte) (hjk : j ≠ k) (h : Memory.wf s.mem) :
    (s.putByte k b).byte j = s.byte j := by
  have hb : readCell (s.putByte k b).mem j = readCell s.mem j := readCell_writeCell_other b hjk h
  have he : (s.putByte k b).epoch = s.epoch := rfl
  simp only [State.byte, State.given_putByte_other b hjk, hb, he]

/-- Bytes put elsewhere leave a byte alone. -/
theorem State.byte_putBytes_other {s : State} {j : Nat} {l : List (Nat × Byte)} (hl : ∀ x ∈ l, x.1 ≠ j) (h : Memory.wf s.mem) :
    (s.putBytes l).byte j = s.byte j := by
  induction l generalizing s with
  | nil => rfl
  | cons x l ih =>
    have h1 := ih (s := s.putByte x.1 x.2) (fun y hy => hl y (List.mem_cons_of_mem _ hy)) (State.putByte_wf _ _ h)
    have h2 := State.byte_putByte_other (s := s) x.2 (Ne.symm (hl x (by simp))) h
    exact h1.trans h2

end Sys2Proof.Machine
end

