-- ==== Sys2Proof/Laws/State.lean ====
section
/-! SUPPORT. What each update of the state does to each field, one lemma a field, and the laws of the register accessors. -/
namespace Sys2Proof.Machine

variable (s : State)

@[simp] theorem State.mapR_pool (f : Regs → Regs) : (s.mapR f).pool = s.pool := rfl
@[simp] theorem State.mapR_cores (f : Regs → Regs) : (s.mapR f).cores = s.cores := rfl
@[simp] theorem State.mapR_rafts (f : Regs → Regs) : (s.mapR f).rafts = s.rafts := rfl
@[simp] theorem State.mapR_dies (f : Regs → Regs) : (s.mapR f).dies = s.dies := rfl
@[simp] theorem State.mapR_hub (f : Regs → Regs) : (s.mapR f).hub = s.hub := rfl
@[simp] theorem State.mapR_sched (f : Regs → Regs) : (s.mapR f).sched = s.sched := rfl
@[simp] theorem State.mapR_landings (f : Regs → Regs) : (s.mapR f).landings = s.landings := rfl
@[simp] theorem State.mapR_mem (f : Regs → Regs) : (s.mapR f).mem = s.mem := rfl
@[simp] theorem State.mapR_keyed (f : Regs → Regs) : (s.mapR f).keyed = s.keyed := rfl
@[simp] theorem State.mapR_filled (f : Regs → Regs) : (s.mapR f).filled = s.filled := rfl
@[simp] theorem State.mapR_bad (f : Regs → Regs) : (s.mapR f).bad = s.bad := rfl
@[simp] theorem State.mapR_streams (f : Regs → Regs) : (s.mapR f).streams = s.streams := rfl
@[simp] theorem State.mapR_partials (f : Regs → Regs) : (s.mapR f).partials = s.partials := rfl
@[simp] theorem State.mapR_posted (f : Regs → Regs) : (s.mapR f).posted = s.posted := rfl
@[simp] theorem State.mapR_fences (f : Regs → Regs) : (s.mapR f).fences = s.fences := rfl
@[simp] theorem State.mapR_inbound (f : Regs → Regs) : (s.mapR f).inbound = s.inbound := rfl
@[simp] theorem State.mapR_outbox (f : Regs → Regs) : (s.mapR f).outbox = s.outbox := rfl
@[simp] theorem State.mapR_now (f : Regs → Regs) : (s.mapR f).now = s.now := rfl
@[simp] theorem State.mapR_uids (f : Regs → Regs) : (s.mapR f).uids = s.uids := rfl
@[simp] theorem State.mapR_free (f : Regs → Regs) : (s.mapR f).free = s.free := rfl
@[simp] theorem State.mapR_epoch (f : Regs → Regs) : (s.mapR f).epoch = s.epoch := rfl
@[simp] theorem State.mapR_agenda (f : Regs → Regs) : (s.mapR f).agenda = s.agenda := rfl
@[simp] theorem State.mapR_own_focus_r (f : Regs → Regs) : (s.mapR f).focus.r = f s.focus.r := rfl
@[simp] theorem State.mapR_own_focus_uid (f : Regs → Regs) : (s.mapR f).focus.uid = s.focus.uid := rfl
@[simp] theorem State.mapR_own_focus_shadow (f : Regs → Regs) : (s.mapR f).focus.shadow = s.focus.shadow := rfl
@[simp] theorem State.mapR_own_focus_chunk (f : Regs → Regs) : (s.mapR f).focus.chunk = s.focus.chunk := rfl
@[simp] theorem State.mapR_own_focus_cur (f : Regs → Regs) : (s.mapR f).focus.cur = s.focus.cur := rfl
@[simp] theorem State.mapR_own_focus_trap (f : Regs → Regs) : (s.mapR f).focus.trap = s.focus.trap := rfl
@[simp] theorem State.mapR_own_focus_replay (f : Regs → Regs) : (s.mapR f).focus.replay = s.focus.replay := rfl
@[simp] theorem State.mapR_own_focus_phase (f : Regs → Regs) : (s.mapR f).focus.phase = s.focus.phase := rfl
@[simp] theorem State.mapR_own_focus_place (f : Regs → Regs) : (s.mapR f).focus.place = s.focus.place := rfl
@[simp] theorem State.mapR_own_focus_task (f : Regs → Regs) : (s.mapR f).focus.task = s.focus.task := rfl
@[simp] theorem State.mapR_own_focus_enroll (f : Regs → Regs) : (s.mapR f).focus.enroll = s.focus.enroll := rfl
@[simp] theorem State.mapR_own_focus_dirty (f : Regs → Regs) : (s.mapR f).focus.dirty = s.focus.dirty := rfl
@[simp] theorem State.mapR_own_focus_window (f : Regs → Regs) : (s.mapR f).focus.window = s.focus.window := rfl
@[simp] theorem State.mapR_own_focus_saved (f : Regs → Regs) : (s.mapR f).focus.saved = s.focus.saved := rfl
@[simp] theorem State.mapR_own_focus_tenFp (f : Regs → Regs) : (s.mapR f).focus.tenFp = s.focus.tenFp := rfl
@[simp] theorem State.mapR_own_focus_tiles (f : Regs → Regs) : (s.mapR f).focus.tiles = s.focus.tiles := rfl
@[simp] theorem State.mapR_own_focus_post (f : Regs → Regs) : (s.mapR f).focus.post = s.focus.post := rfl

@[simp] theorem State.mapCur_pool (f : Clause → Clause) : (s.mapCur f).pool = s.pool := rfl
@[simp] theorem State.mapCur_cores (f : Clause → Clause) : (s.mapCur f).cores = s.cores := rfl
@[simp] theorem State.mapCur_rafts (f : Clause → Clause) : (s.mapCur f).rafts = s.rafts := rfl
@[simp] theorem State.mapCur_dies (f : Clause → Clause) : (s.mapCur f).dies = s.dies := rfl
@[simp] theorem State.mapCur_hub (f : Clause → Clause) : (s.mapCur f).hub = s.hub := rfl
@[simp] theorem State.mapCur_sched (f : Clause → Clause) : (s.mapCur f).sched = s.sched := rfl
@[simp] theorem State.mapCur_landings (f : Clause → Clause) : (s.mapCur f).landings = s.landings := rfl
@[simp] theorem State.mapCur_mem (f : Clause → Clause) : (s.mapCur f).mem = s.mem := rfl
@[simp] theorem State.mapCur_keyed (f : Clause → Clause) : (s.mapCur f).keyed = s.keyed := rfl
@[simp] theorem State.mapCur_filled (f : Clause → Clause) : (s.mapCur f).filled = s.filled := rfl
@[simp] theorem State.mapCur_bad (f : Clause → Clause) : (s.mapCur f).bad = s.bad := rfl
@[simp] theorem State.mapCur_streams (f : Clause → Clause) : (s.mapCur f).streams = s.streams := rfl
@[simp] theorem State.mapCur_partials (f : Clause → Clause) : (s.mapCur f).partials = s.partials := rfl
@[simp] theorem State.mapCur_posted (f : Clause → Clause) : (s.mapCur f).posted = s.posted := rfl
@[simp] theorem State.mapCur_fences (f : Clause → Clause) : (s.mapCur f).fences = s.fences := rfl
@[simp] theorem State.mapCur_inbound (f : Clause → Clause) : (s.mapCur f).inbound = s.inbound := rfl
@[simp] theorem State.mapCur_outbox (f : Clause → Clause) : (s.mapCur f).outbox = s.outbox := rfl
@[simp] theorem State.mapCur_now (f : Clause → Clause) : (s.mapCur f).now = s.now := rfl
@[simp] theorem State.mapCur_uids (f : Clause → Clause) : (s.mapCur f).uids = s.uids := rfl
@[simp] theorem State.mapCur_free (f : Clause → Clause) : (s.mapCur f).free = s.free := rfl
@[simp] theorem State.mapCur_epoch (f : Clause → Clause) : (s.mapCur f).epoch = s.epoch := rfl
@[simp] theorem State.mapCur_agenda (f : Clause → Clause) : (s.mapCur f).agenda = s.agenda := rfl
@[simp] theorem State.mapCur_own_focus_cur (f : Clause → Clause) : (s.mapCur f).focus.cur = s.focus.cur.map f := rfl
@[simp] theorem State.mapCur_own_focus_uid (f : Clause → Clause) : (s.mapCur f).focus.uid = s.focus.uid := rfl
@[simp] theorem State.mapCur_own_focus_r (f : Clause → Clause) : (s.mapCur f).focus.r = s.focus.r := rfl
@[simp] theorem State.mapCur_own_focus_shadow (f : Clause → Clause) : (s.mapCur f).focus.shadow = s.focus.shadow := rfl
@[simp] theorem State.mapCur_own_focus_chunk (f : Clause → Clause) : (s.mapCur f).focus.chunk = s.focus.chunk := rfl
@[simp] theorem State.mapCur_own_focus_trap (f : Clause → Clause) : (s.mapCur f).focus.trap = s.focus.trap := rfl
@[simp] theorem State.mapCur_own_focus_replay (f : Clause → Clause) : (s.mapCur f).focus.replay = s.focus.replay := rfl
@[simp] theorem State.mapCur_own_focus_phase (f : Clause → Clause) : (s.mapCur f).focus.phase = s.focus.phase := rfl
@[simp] theorem State.mapCur_own_focus_place (f : Clause → Clause) : (s.mapCur f).focus.place = s.focus.place := rfl
@[simp] theorem State.mapCur_own_focus_task (f : Clause → Clause) : (s.mapCur f).focus.task = s.focus.task := rfl
@[simp] theorem State.mapCur_own_focus_enroll (f : Clause → Clause) : (s.mapCur f).focus.enroll = s.focus.enroll := rfl
@[simp] theorem State.mapCur_own_focus_dirty (f : Clause → Clause) : (s.mapCur f).focus.dirty = s.focus.dirty := rfl
@[simp] theorem State.mapCur_own_focus_window (f : Clause → Clause) : (s.mapCur f).focus.window = s.focus.window := rfl
@[simp] theorem State.mapCur_own_focus_saved (f : Clause → Clause) : (s.mapCur f).focus.saved = s.focus.saved := rfl
@[simp] theorem State.mapCur_own_focus_tenFp (f : Clause → Clause) : (s.mapCur f).focus.tenFp = s.focus.tenFp := rfl
@[simp] theorem State.mapCur_own_focus_tiles (f : Clause → Clause) : (s.mapCur f).focus.tiles = s.focus.tiles := rfl
@[simp] theorem State.mapCur_own_focus_post (f : Clause → Clause) : (s.mapCur f).focus.post = s.focus.post := rfl

@[simp] theorem State.mapFocus_pool (f : Crew → Crew) : (s.mapFocus f).pool = s.pool := rfl
@[simp] theorem State.mapFocus_cores (f : Crew → Crew) : (s.mapFocus f).cores = s.cores := rfl
@[simp] theorem State.mapFocus_rafts (f : Crew → Crew) : (s.mapFocus f).rafts = s.rafts := rfl
@[simp] theorem State.mapFocus_dies (f : Crew → Crew) : (s.mapFocus f).dies = s.dies := rfl
@[simp] theorem State.mapFocus_hub (f : Crew → Crew) : (s.mapFocus f).hub = s.hub := rfl
@[simp] theorem State.mapFocus_sched (f : Crew → Crew) : (s.mapFocus f).sched = s.sched := rfl
@[simp] theorem State.mapFocus_landings (f : Crew → Crew) : (s.mapFocus f).landings = s.landings := rfl
@[simp] theorem State.mapFocus_mem (f : Crew → Crew) : (s.mapFocus f).mem = s.mem := rfl
@[simp] theorem State.mapFocus_keyed (f : Crew → Crew) : (s.mapFocus f).keyed = s.keyed := rfl
@[simp] theorem State.mapFocus_filled (f : Crew → Crew) : (s.mapFocus f).filled = s.filled := rfl
@[simp] theorem State.mapFocus_bad (f : Crew → Crew) : (s.mapFocus f).bad = s.bad := rfl
@[simp] theorem State.mapFocus_streams (f : Crew → Crew) : (s.mapFocus f).streams = s.streams := rfl
@[simp] theorem State.mapFocus_partials (f : Crew → Crew) : (s.mapFocus f).partials = s.partials := rfl
@[simp] theorem State.mapFocus_posted (f : Crew → Crew) : (s.mapFocus f).posted = s.posted := rfl
@[simp] theorem State.mapFocus_fences (f : Crew → Crew) : (s.mapFocus f).fences = s.fences := rfl
@[simp] theorem State.mapFocus_inbound (f : Crew → Crew) : (s.mapFocus f).inbound = s.inbound := rfl
@[simp] theorem State.mapFocus_outbox (f : Crew → Crew) : (s.mapFocus f).outbox = s.outbox := rfl
@[simp] theorem State.mapFocus_now (f : Crew → Crew) : (s.mapFocus f).now = s.now := rfl
@[simp] theorem State.mapFocus_uids (f : Crew → Crew) : (s.mapFocus f).uids = s.uids := rfl
@[simp] theorem State.mapFocus_free (f : Crew → Crew) : (s.mapFocus f).free = s.free := rfl
@[simp] theorem State.mapFocus_epoch (f : Crew → Crew) : (s.mapFocus f).epoch = s.epoch := rfl
@[simp] theorem State.mapFocus_agenda (f : Crew → Crew) : (s.mapFocus f).agenda = s.agenda := rfl
@[simp] theorem State.mapFocus_own_focus (f : Crew → Crew) : (s.mapFocus f).focus = f s.focus := rfl

@[simp] theorem State.mapChunk_pool (f : Chunk → Chunk) : (s.mapChunk f).pool = s.pool := rfl
@[simp] theorem State.mapChunk_cores (f : Chunk → Chunk) : (s.mapChunk f).cores = s.cores := rfl
@[simp] theorem State.mapChunk_rafts (f : Chunk → Chunk) : (s.mapChunk f).rafts = s.rafts := rfl
@[simp] theorem State.mapChunk_dies (f : Chunk → Chunk) : (s.mapChunk f).dies = s.dies := rfl
@[simp] theorem State.mapChunk_hub (f : Chunk → Chunk) : (s.mapChunk f).hub = s.hub := rfl
@[simp] theorem State.mapChunk_sched (f : Chunk → Chunk) : (s.mapChunk f).sched = s.sched := rfl
@[simp] theorem State.mapChunk_landings (f : Chunk → Chunk) : (s.mapChunk f).landings = s.landings := rfl
@[simp] theorem State.mapChunk_mem (f : Chunk → Chunk) : (s.mapChunk f).mem = s.mem := rfl
@[simp] theorem State.mapChunk_keyed (f : Chunk → Chunk) : (s.mapChunk f).keyed = s.keyed := rfl
@[simp] theorem State.mapChunk_filled (f : Chunk → Chunk) : (s.mapChunk f).filled = s.filled := rfl
@[simp] theorem State.mapChunk_bad (f : Chunk → Chunk) : (s.mapChunk f).bad = s.bad := rfl
@[simp] theorem State.mapChunk_streams (f : Chunk → Chunk) : (s.mapChunk f).streams = s.streams := rfl
@[simp] theorem State.mapChunk_partials (f : Chunk → Chunk) : (s.mapChunk f).partials = s.partials := rfl
@[simp] theorem State.mapChunk_posted (f : Chunk → Chunk) : (s.mapChunk f).posted = s.posted := rfl
@[simp] theorem State.mapChunk_fences (f : Chunk → Chunk) : (s.mapChunk f).fences = s.fences := rfl
@[simp] theorem State.mapChunk_inbound (f : Chunk → Chunk) : (s.mapChunk f).inbound = s.inbound := rfl
@[simp] theorem State.mapChunk_outbox (f : Chunk → Chunk) : (s.mapChunk f).outbox = s.outbox := rfl
@[simp] theorem State.mapChunk_now (f : Chunk → Chunk) : (s.mapChunk f).now = s.now := rfl
@[simp] theorem State.mapChunk_uids (f : Chunk → Chunk) : (s.mapChunk f).uids = s.uids := rfl
@[simp] theorem State.mapChunk_free (f : Chunk → Chunk) : (s.mapChunk f).free = s.free := rfl
@[simp] theorem State.mapChunk_epoch (f : Chunk → Chunk) : (s.mapChunk f).epoch = s.epoch := rfl
@[simp] theorem State.mapChunk_agenda (f : Chunk → Chunk) : (s.mapChunk f).agenda = s.agenda := rfl
@[simp] theorem State.mapChunk_own_focus_chunk (f : Chunk → Chunk) : (s.mapChunk f).focus.chunk = f s.focus.chunk := rfl
@[simp] theorem State.mapChunk_own_focus_uid (f : Chunk → Chunk) : (s.mapChunk f).focus.uid = s.focus.uid := rfl
@[simp] theorem State.mapChunk_own_focus_r (f : Chunk → Chunk) : (s.mapChunk f).focus.r = s.focus.r := rfl
@[simp] theorem State.mapChunk_own_focus_shadow (f : Chunk → Chunk) : (s.mapChunk f).focus.shadow = s.focus.shadow := rfl
@[simp] theorem State.mapChunk_own_focus_cur (f : Chunk → Chunk) : (s.mapChunk f).focus.cur = s.focus.cur := rfl
@[simp] theorem State.mapChunk_own_focus_trap (f : Chunk → Chunk) : (s.mapChunk f).focus.trap = s.focus.trap := rfl
@[simp] theorem State.mapChunk_own_focus_replay (f : Chunk → Chunk) : (s.mapChunk f).focus.replay = s.focus.replay := rfl
@[simp] theorem State.mapChunk_own_focus_phase (f : Chunk → Chunk) : (s.mapChunk f).focus.phase = s.focus.phase := rfl
@[simp] theorem State.mapChunk_own_focus_place (f : Chunk → Chunk) : (s.mapChunk f).focus.place = s.focus.place := rfl
@[simp] theorem State.mapChunk_own_focus_task (f : Chunk → Chunk) : (s.mapChunk f).focus.task = s.focus.task := rfl
@[simp] theorem State.mapChunk_own_focus_enroll (f : Chunk → Chunk) : (s.mapChunk f).focus.enroll = s.focus.enroll := rfl
@[simp] theorem State.mapChunk_own_focus_dirty (f : Chunk → Chunk) : (s.mapChunk f).focus.dirty = s.focus.dirty := rfl
@[simp] theorem State.mapChunk_own_focus_window (f : Chunk → Chunk) : (s.mapChunk f).focus.window = s.focus.window := rfl
@[simp] theorem State.mapChunk_own_focus_saved (f : Chunk → Chunk) : (s.mapChunk f).focus.saved = s.focus.saved := rfl
@[simp] theorem State.mapChunk_own_focus_tenFp (f : Chunk → Chunk) : (s.mapChunk f).focus.tenFp = s.focus.tenFp := rfl
@[simp] theorem State.mapChunk_own_focus_tiles (f : Chunk → Chunk) : (s.mapChunk f).focus.tiles = s.focus.tiles := rfl
@[simp] theorem State.mapChunk_own_focus_post (f : Chunk → Chunk) : (s.mapChunk f).focus.post = s.focus.post := rfl

@[simp] theorem State.putByte_focus (k : Nat) (b : Byte) : (s.putByte k b).focus = s.focus := rfl
@[simp] theorem State.putByte_pool (k : Nat) (b : Byte) : (s.putByte k b).pool = s.pool := rfl
@[simp] theorem State.putByte_cores (k : Nat) (b : Byte) : (s.putByte k b).cores = s.cores := rfl
@[simp] theorem State.putByte_rafts (k : Nat) (b : Byte) : (s.putByte k b).rafts = s.rafts := rfl
@[simp] theorem State.putByte_dies (k : Nat) (b : Byte) : (s.putByte k b).dies = s.dies := rfl
@[simp] theorem State.putByte_hub (k : Nat) (b : Byte) : (s.putByte k b).hub = s.hub := rfl
@[simp] theorem State.putByte_sched (k : Nat) (b : Byte) : (s.putByte k b).sched = s.sched := rfl
@[simp] theorem State.putByte_landings (k : Nat) (b : Byte) : (s.putByte k b).landings = s.landings := rfl
@[simp] theorem State.putByte_keyed (k : Nat) (b : Byte) : (s.putByte k b).keyed = s.keyed := rfl
@[simp] theorem State.putByte_own_filled (k : Nat) (b : Byte) :
    (s.putByte k b).filled = if isSpad k && !s.given k then (k, 1) :: s.filled else s.filled := rfl
@[simp] theorem State.putByte_bad (k : Nat) (b : Byte) : (s.putByte k b).bad = s.bad := rfl
@[simp] theorem State.putByte_streams (k : Nat) (b : Byte) : (s.putByte k b).streams = s.streams := rfl
@[simp] theorem State.putByte_partials (k : Nat) (b : Byte) : (s.putByte k b).partials = s.partials := rfl
@[simp] theorem State.putByte_posted (k : Nat) (b : Byte) : (s.putByte k b).posted = s.posted := rfl
@[simp] theorem State.putByte_fences (k : Nat) (b : Byte) : (s.putByte k b).fences = s.fences := rfl
@[simp] theorem State.putByte_inbound (k : Nat) (b : Byte) : (s.putByte k b).inbound = s.inbound := rfl
@[simp] theorem State.putByte_outbox (k : Nat) (b : Byte) : (s.putByte k b).outbox = s.outbox := rfl
@[simp] theorem State.putByte_now (k : Nat) (b : Byte) : (s.putByte k b).now = s.now := rfl
@[simp] theorem State.putByte_uids (k : Nat) (b : Byte) : (s.putByte k b).uids = s.uids := rfl
@[simp] theorem State.putByte_free (k : Nat) (b : Byte) : (s.putByte k b).free = s.free := rfl
@[simp] theorem State.putByte_epoch (k : Nat) (b : Byte) : (s.putByte k b).epoch = s.epoch := rfl
@[simp] theorem State.putByte_agenda (k : Nat) (b : Byte) : (s.putByte k b).agenda = s.agenda := rfl
@[simp] theorem State.putByte_own_mem (k : Nat) (b : Byte) : (s.putByte k b).mem = writeCell k b s.mem := rfl

@[simp] theorem State.mapCore_focus (k : Nat) (f : Core → Core) : (s.mapCore k f).focus = s.focus := rfl
@[simp] theorem State.mapCore_pool (k : Nat) (f : Core → Core) : (s.mapCore k f).pool = s.pool := rfl
@[simp] theorem State.mapCore_rafts (k : Nat) (f : Core → Core) : (s.mapCore k f).rafts = s.rafts := rfl
@[simp] theorem State.mapCore_dies (k : Nat) (f : Core → Core) : (s.mapCore k f).dies = s.dies := rfl
@[simp] theorem State.mapCore_hub (k : Nat) (f : Core → Core) : (s.mapCore k f).hub = s.hub := rfl
@[simp] theorem State.mapCore_sched (k : Nat) (f : Core → Core) : (s.mapCore k f).sched = s.sched := rfl
@[simp] theorem State.mapCore_landings (k : Nat) (f : Core → Core) : (s.mapCore k f).landings = s.landings := rfl
@[simp] theorem State.mapCore_mem (k : Nat) (f : Core → Core) : (s.mapCore k f).mem = s.mem := rfl
@[simp] theorem State.mapCore_keyed (k : Nat) (f : Core → Core) : (s.mapCore k f).keyed = s.keyed := rfl
@[simp] theorem State.mapCore_filled (k : Nat) (f : Core → Core) : (s.mapCore k f).filled = s.filled := rfl
@[simp] theorem State.mapCore_bad (k : Nat) (f : Core → Core) : (s.mapCore k f).bad = s.bad := rfl
@[simp] theorem State.mapCore_streams (k : Nat) (f : Core → Core) : (s.mapCore k f).streams = s.streams := rfl
@[simp] theorem State.mapCore_partials (k : Nat) (f : Core → Core) : (s.mapCore k f).partials = s.partials := rfl
@[simp] theorem State.mapCore_posted (k : Nat) (f : Core → Core) : (s.mapCore k f).posted = s.posted := rfl
@[simp] theorem State.mapCore_fences (k : Nat) (f : Core → Core) : (s.mapCore k f).fences = s.fences := rfl
@[simp] theorem State.mapCore_inbound (k : Nat) (f : Core → Core) : (s.mapCore k f).inbound = s.inbound := rfl
@[simp] theorem State.mapCore_outbox (k : Nat) (f : Core → Core) : (s.mapCore k f).outbox = s.outbox := rfl
@[simp] theorem State.mapCore_now (k : Nat) (f : Core → Core) : (s.mapCore k f).now = s.now := rfl
@[simp] theorem State.mapCore_uids (k : Nat) (f : Core → Core) : (s.mapCore k f).uids = s.uids := rfl
@[simp] theorem State.mapCore_free (k : Nat) (f : Core → Core) : (s.mapCore k f).free = s.free := rfl
@[simp] theorem State.mapCore_epoch (k : Nat) (f : Core → Core) : (s.mapCore k f).epoch = s.epoch := rfl
@[simp] theorem State.mapCore_agenda (k : Nat) (f : Core → Core) : (s.mapCore k f).agenda = s.agenda := rfl
@[simp] theorem State.mapCore_own_cores (k : Nat) (f : Core → Core) : (s.mapCore k f).cores = s.cores.modify k f := rfl

@[simp] theorem State.mapLaunch_focus (u : Nat) (f : Launch → Launch) : (s.mapLaunch u f).focus = s.focus := rfl
@[simp] theorem State.mapLaunch_pool (u : Nat) (f : Launch → Launch) : (s.mapLaunch u f).pool = s.pool := rfl
@[simp] theorem State.mapLaunch_cores (u : Nat) (f : Launch → Launch) : (s.mapLaunch u f).cores = s.cores := rfl
@[simp] theorem State.mapLaunch_rafts (u : Nat) (f : Launch → Launch) : (s.mapLaunch u f).rafts = s.rafts := rfl
@[simp] theorem State.mapLaunch_dies (u : Nat) (f : Launch → Launch) : (s.mapLaunch u f).dies = s.dies := rfl
@[simp] theorem State.mapLaunch_hub (u : Nat) (f : Launch → Launch) : (s.mapLaunch u f).hub = s.hub := rfl
@[simp] theorem State.mapLaunch_landings (u : Nat) (f : Launch → Launch) : (s.mapLaunch u f).landings = s.landings := rfl
@[simp] theorem State.mapLaunch_mem (u : Nat) (f : Launch → Launch) : (s.mapLaunch u f).mem = s.mem := rfl
@[simp] theorem State.mapLaunch_keyed (u : Nat) (f : Launch → Launch) : (s.mapLaunch u f).keyed = s.keyed := rfl
@[simp] theorem State.mapLaunch_filled (u : Nat) (f : Launch → Launch) : (s.mapLaunch u f).filled = s.filled := rfl
@[simp] theorem State.mapLaunch_bad (u : Nat) (f : Launch → Launch) : (s.mapLaunch u f).bad = s.bad := rfl
@[simp] theorem State.mapLaunch_streams (u : Nat) (f : Launch → Launch) : (s.mapLaunch u f).streams = s.streams := rfl
@[simp] theorem State.mapLaunch_partials (u : Nat) (f : Launch → Launch) : (s.mapLaunch u f).partials = s.partials := rfl
@[simp] theorem State.mapLaunch_posted (u : Nat) (f : Launch → Launch) : (s.mapLaunch u f).posted = s.posted := rfl
@[simp] theorem State.mapLaunch_fences (u : Nat) (f : Launch → Launch) : (s.mapLaunch u f).fences = s.fences := rfl
@[simp] theorem State.mapLaunch_inbound (u : Nat) (f : Launch → Launch) : (s.mapLaunch u f).inbound = s.inbound := rfl
@[simp] theorem State.mapLaunch_outbox (u : Nat) (f : Launch → Launch) : (s.mapLaunch u f).outbox = s.outbox := rfl
@[simp] theorem State.mapLaunch_now (u : Nat) (f : Launch → Launch) : (s.mapLaunch u f).now = s.now := rfl
@[simp] theorem State.mapLaunch_uids (u : Nat) (f : Launch → Launch) : (s.mapLaunch u f).uids = s.uids := rfl
@[simp] theorem State.mapLaunch_free (u : Nat) (f : Launch → Launch) : (s.mapLaunch u f).free = s.free := rfl
@[simp] theorem State.mapLaunch_epoch (u : Nat) (f : Launch → Launch) : (s.mapLaunch u f).epoch = s.epoch := rfl
@[simp] theorem State.mapLaunch_agenda (u : Nat) (f : Launch → Launch) : (s.mapLaunch u f).agenda = s.agenda := rfl

@[simp] theorem State.mapPkg_focus (f : PkgRegs → PkgRegs) : (s.mapPkg f).focus = s.focus := rfl
@[simp] theorem State.mapPkg_pool (f : PkgRegs → PkgRegs) : (s.mapPkg f).pool = s.pool := rfl
@[simp] theorem State.mapPkg_cores (f : PkgRegs → PkgRegs) : (s.mapPkg f).cores = s.cores := rfl
@[simp] theorem State.mapPkg_rafts (f : PkgRegs → PkgRegs) : (s.mapPkg f).rafts = s.rafts := rfl
@[simp] theorem State.mapPkg_dies (f : PkgRegs → PkgRegs) : (s.mapPkg f).dies = s.dies := rfl
@[simp] theorem State.mapPkg_sched (f : PkgRegs → PkgRegs) : (s.mapPkg f).sched = s.sched := rfl
@[simp] theorem State.mapPkg_landings (f : PkgRegs → PkgRegs) : (s.mapPkg f).landings = s.landings := rfl
@[simp] theorem State.mapPkg_mem (f : PkgRegs → PkgRegs) : (s.mapPkg f).mem = s.mem := rfl
@[simp] theorem State.mapPkg_keyed (f : PkgRegs → PkgRegs) : (s.mapPkg f).keyed = s.keyed := rfl
@[simp] theorem State.mapPkg_filled (f : PkgRegs → PkgRegs) : (s.mapPkg f).filled = s.filled := rfl
@[simp] theorem State.mapPkg_bad (f : PkgRegs → PkgRegs) : (s.mapPkg f).bad = s.bad := rfl
@[simp] theorem State.mapPkg_streams (f : PkgRegs → PkgRegs) : (s.mapPkg f).streams = s.streams := rfl
@[simp] theorem State.mapPkg_partials (f : PkgRegs → PkgRegs) : (s.mapPkg f).partials = s.partials := rfl
@[simp] theorem State.mapPkg_posted (f : PkgRegs → PkgRegs) : (s.mapPkg f).posted = s.posted := rfl
@[simp] theorem State.mapPkg_fences (f : PkgRegs → PkgRegs) : (s.mapPkg f).fences = s.fences := rfl
@[simp] theorem State.mapPkg_inbound (f : PkgRegs → PkgRegs) : (s.mapPkg f).inbound = s.inbound := rfl
@[simp] theorem State.mapPkg_outbox (f : PkgRegs → PkgRegs) : (s.mapPkg f).outbox = s.outbox := rfl
@[simp] theorem State.mapPkg_now (f : PkgRegs → PkgRegs) : (s.mapPkg f).now = s.now := rfl
@[simp] theorem State.mapPkg_uids (f : PkgRegs → PkgRegs) : (s.mapPkg f).uids = s.uids := rfl
@[simp] theorem State.mapPkg_free (f : PkgRegs → PkgRegs) : (s.mapPkg f).free = s.free := rfl
@[simp] theorem State.mapPkg_epoch (f : PkgRegs → PkgRegs) : (s.mapPkg f).epoch = s.epoch := rfl
@[simp] theorem State.mapPkg_agenda (f : PkgRegs → PkgRegs) : (s.mapPkg f).agenda = s.agenda := rfl
@[simp] theorem State.mapPkg_own_hub_regs (f : PkgRegs → PkgRegs) : (s.mapPkg f).hub.regs = f s.hub.regs := rfl

@[simp] theorem State.dropGrants_focus (u : Nat) : (s.dropGrants u).focus = s.focus := rfl
@[simp] theorem State.dropGrants_pool (u : Nat) : (s.dropGrants u).pool = s.pool := rfl
@[simp] theorem State.dropGrants_cores (u : Nat) : (s.dropGrants u).cores = s.cores := rfl
@[simp] theorem State.dropGrants_rafts (u : Nat) : (s.dropGrants u).rafts = s.rafts := rfl
@[simp] theorem State.dropGrants_dies (u : Nat) : (s.dropGrants u).dies = s.dies := rfl
@[simp] theorem State.dropGrants_hub (u : Nat) : (s.dropGrants u).hub = s.hub := rfl
@[simp] theorem State.dropGrants_sched (u : Nat) : (s.dropGrants u).sched = s.sched := rfl
@[simp] theorem State.dropGrants_mem (u : Nat) : (s.dropGrants u).mem = s.mem := rfl
@[simp] theorem State.dropGrants_keyed (u : Nat) : (s.dropGrants u).keyed = s.keyed := rfl
@[simp] theorem State.dropGrants_filled (u : Nat) : (s.dropGrants u).filled = s.filled := rfl
@[simp] theorem State.dropGrants_bad (u : Nat) : (s.dropGrants u).bad = s.bad := rfl
@[simp] theorem State.dropGrants_streams (u : Nat) : (s.dropGrants u).streams = s.streams := rfl
@[simp] theorem State.dropGrants_partials (u : Nat) : (s.dropGrants u).partials = s.partials := rfl
@[simp] theorem State.dropGrants_posted (u : Nat) : (s.dropGrants u).posted = s.posted := rfl
@[simp] theorem State.dropGrants_fences (u : Nat) : (s.dropGrants u).fences = s.fences := rfl
@[simp] theorem State.dropGrants_inbound (u : Nat) : (s.dropGrants u).inbound = s.inbound := rfl
@[simp] theorem State.dropGrants_outbox (u : Nat) : (s.dropGrants u).outbox = s.outbox := rfl
@[simp] theorem State.dropGrants_now (u : Nat) : (s.dropGrants u).now = s.now := rfl
@[simp] theorem State.dropGrants_uids (u : Nat) : (s.dropGrants u).uids = s.uids := rfl
@[simp] theorem State.dropGrants_free (u : Nat) : (s.dropGrants u).free = s.free := rfl
@[simp] theorem State.dropGrants_epoch (u : Nat) : (s.dropGrants u).epoch = s.epoch := rfl
@[simp] theorem State.dropGrants_agenda (u : Nat) : (s.dropGrants u).agenda = s.agenda := rfl
@[simp] theorem State.dropGrants_own_landings (u : Nat) : (s.dropGrants u).landings = s.landings.map (Landing.drop u) := rfl

@[simp] theorem State.event_focus (a u : Nat) (e : EvKind) (q : Nat) (d : Dword) : (s.event a u e q d).focus = s.focus := rfl
@[simp] theorem State.event_pool (a u : Nat) (e : EvKind) (q : Nat) (d : Dword) : (s.event a u e q d).pool = s.pool := rfl
@[simp] theorem State.event_cores (a u : Nat) (e : EvKind) (q : Nat) (d : Dword) : (s.event a u e q d).cores = s.cores := rfl
@[simp] theorem State.event_rafts (a u : Nat) (e : EvKind) (q : Nat) (d : Dword) : (s.event a u e q d).rafts = s.rafts := rfl
@[simp] theorem State.event_dies (a u : Nat) (e : EvKind) (q : Nat) (d : Dword) : (s.event a u e q d).dies = s.dies := rfl
@[simp] theorem State.event_sched (a u : Nat) (e : EvKind) (q : Nat) (d : Dword) : (s.event a u e q d).sched = s.sched := rfl
@[simp] theorem State.event_landings (a u : Nat) (e : EvKind) (q : Nat) (d : Dword) : (s.event a u e q d).landings = s.landings := rfl
@[simp] theorem State.event_mem (a u : Nat) (e : EvKind) (q : Nat) (d : Dword) : (s.event a u e q d).mem = s.mem := rfl
@[simp] theorem State.event_keyed (a u : Nat) (e : EvKind) (q : Nat) (d : Dword) : (s.event a u e q d).keyed = s.keyed := rfl
@[simp] theorem State.event_filled (a u : Nat) (e : EvKind) (q : Nat) (d : Dword) : (s.event a u e q d).filled = s.filled := rfl
@[simp] theorem State.event_bad (a u : Nat) (e : EvKind) (q : Nat) (d : Dword) : (s.event a u e q d).bad = s.bad := rfl
@[simp] theorem State.event_streams (a u : Nat) (e : EvKind) (q : Nat) (d : Dword) : (s.event a u e q d).streams = s.streams := rfl
@[simp] theorem State.event_partials (a u : Nat) (e : EvKind) (q : Nat) (d : Dword) : (s.event a u e q d).partials = s.partials := rfl
@[simp] theorem State.event_posted (a u : Nat) (e : EvKind) (q : Nat) (d : Dword) : (s.event a u e q d).posted = s.posted := rfl
@[simp] theorem State.event_fences (a u : Nat) (e : EvKind) (q : Nat) (d : Dword) : (s.event a u e q d).fences = s.fences := rfl
@[simp] theorem State.event_inbound (a u : Nat) (e : EvKind) (q : Nat) (d : Dword) : (s.event a u e q d).inbound = s.inbound := rfl
@[simp] theorem State.event_outbox (a u : Nat) (e : EvKind) (q : Nat) (d : Dword) : (s.event a u e q d).outbox = s.outbox := rfl
@[simp] theorem State.event_now (a u : Nat) (e : EvKind) (q : Nat) (d : Dword) : (s.event a u e q d).now = s.now := rfl
@[simp] theorem State.event_uids (a u : Nat) (e : EvKind) (q : Nat) (d : Dword) : (s.event a u e q d).uids = s.uids := rfl
@[simp] theorem State.event_free (a u : Nat) (e : EvKind) (q : Nat) (d : Dword) : (s.event a u e q d).free = s.free := rfl
@[simp] theorem State.event_epoch (a u : Nat) (e : EvKind) (q : Nat) (d : Dword) : (s.event a u e q d).epoch = s.epoch := rfl
@[simp] theorem State.event_agenda (a u : Nat) (e : EvKind) (q : Nat) (d : Dword) : (s.event a u e q d).agenda = s.agenda := rfl

/-! Registers -/

variable (r : Regs)

/-- s0 reads zero (R50). -/
@[simp] theorem Regs.readS_zero : r.readS 0 = 0 := rfl

/-- A write to s0 is discarded (R50). -/
@[simp] theorem Regs.writeS_zero (x : Dword) : r.writeS 0 x = r := rfl

/-- An s register reads what was written. -/
theorem Regs.readS_writeS_same {d : Fin 64} (x : Dword) (h : d ≠ 0) : (r.writeS d x).readS d = x := by
  simp [Regs.readS, Regs.writeS, h]

/-- A write leaves every other s register alone. -/
theorem Regs.readS_writeS_other {d i : Fin 64} (x : Dword) (h : i ≠ d) : (r.writeS d x).readS i = r.readS i := by
  unfold Regs.readS Regs.writeS
  by_cases hd : d = 0
  · simp [hd]
  · have : ¬ d.val = i.val := fun e => h (Fin.ext e.symm)
    simp [hd, Vector.getElem_set_ne, this]

/-- q0 reads all ones (R50). -/
@[simp] theorem Regs.readQ_zero (t : Fin 32) : r.readQ 0 t = 0xFF := rfl

@[simp] theorem Regs.writeQ_zero (t : Fin 32) (m x : Byte) : r.writeQ 0 t m x = r := rfl

@[simp] theorem Regs.writeS_v (d : Fin 64) (x : Dword) : (r.writeS d x).v = r.v := by
  unfold Regs.writeS; split <;> rfl
@[simp] theorem Regs.writeS_side (d : Fin 64) (x : Dword) : (r.writeS d x).side = r.side := by
  unfold Regs.writeS; split <;> rfl
@[simp] theorem Regs.writeS_q (d : Fin 64) (x : Dword) : (r.writeS d x).q = r.q := by
  unfold Regs.writeS; split <;> rfl
@[simp] theorem Regs.writeS_marks (d : Fin 64) (x : Dword) : (r.writeS d x).marks = r.marks := by
  unfold Regs.writeS; split <;> rfl
/-- A write of an s register takes it from what is still in flight (R63). -/
theorem Regs.writeS_inflight {d : Fin 64} (x : Dword) (h : d ≠ 0) : (r.writeS d x).inflight = r.inflight.map (Inflight.lose d) := by
  simp [Regs.writeS, h]
@[simp] theorem Regs.writeS_frontier (d : Fin 64) (x : Dword) : (r.writeS d x).frontier = r.frontier := by
  unfold Regs.writeS; split <;> rfl
@[simp] theorem Regs.writeS_csp (d : Fin 64) (x : Dword) : (r.writeS d x).csp = r.csp := by
  unfold Regs.writeS; split <;> rfl
@[simp] theorem Regs.writeS_cdepth (d : Fin 64) (x : Dword) : (r.writeS d x).cdepth = r.cdepth := by
  unfold Regs.writeS; split <;> rfl
@[simp] theorem Regs.writeS_blocked (d : Fin 64) (x : Dword) : (r.writeS d x).blocked = r.blocked := by
  unfold Regs.writeS; split <;> rfl
@[simp] theorem Regs.writeS_tmask (d : Fin 64) (x : Dword) : (r.writeS d x).tmask = r.tmask := by
  unfold Regs.writeS; split <;> rfl
@[simp] theorem Regs.writeS_emask (d : Fin 64) (x : Dword) : (r.writeS d x).emask = r.emask := by
  unfold Regs.writeS; split <;> rfl
@[simp] theorem Regs.writeS_barPhase (d : Fin 64) (x : Dword) : (r.writeS d x).barPhase = r.barPhase := by
  unfold Regs.writeS; split <;> rfl
@[simp] theorem Regs.writeS_barArrived (d : Fin 64) (x : Dword) : (r.writeS d x).barArrived = r.barArrived := by
  unfold Regs.writeS; split <;> rfl
@[simp] theorem Regs.writeS_waits (d : Fin 64) (x : Dword) : (r.writeS d x).waits = r.waits := by
  unfold Regs.writeS; split <;> rfl
@[simp] theorem Regs.writeS_views (d : Fin 64) (x : Dword) : (r.writeS d x).views = r.views := by
  unfold Regs.writeS; split <;> rfl
@[simp] theorem Regs.writeS_repc (d : Fin 64) (x : Dword) : (r.writeS d x).repc = r.repc := by
  unfold Regs.writeS; split <;> rfl
@[simp] theorem Regs.writeS_srctr (d : Fin 64) (x : Dword) : (r.writeS d x).srctr = r.srctr := by
  unfold Regs.writeS; split <;> rfl
@[simp] theorem Regs.writeS_fpflags (d : Fin 64) (x : Dword) : (r.writeS d x).fpflags = r.fpflags := by
  unfold Regs.writeS; split <;> rfl
@[simp] theorem Regs.writeS_pivst (d : Fin 64) (x : Dword) : (r.writeS d x).pivst = r.pivst := by
  unfold Regs.writeS; split <;> rfl
@[simp] theorem Regs.writeS_rndmode (d : Fin 64) (x : Dword) : (r.writeS d x).rndmode = r.rndmode := by
  unfold Regs.writeS; split <;> rfl
@[simp] theorem Regs.writeS_gang (d : Fin 64) (x : Dword) : (r.writeS d x).gang = r.gang := by
  unfold Regs.writeS; split <;> rfl
@[simp] theorem Regs.writeS_safecnt (d : Fin 64) (x : Dword) : (r.writeS d x).safecnt = r.safecnt := by
  unfold Regs.writeS; split <;> rfl
@[simp] theorem Regs.writeS_pedigree (d : Fin 64) (x : Dword) : (r.writeS d x).pedigree = r.pedigree := by
  unfold Regs.writeS; split <;> rfl
@[simp] theorem Regs.writeS_arenaBase (d : Fin 64) (x : Dword) : (r.writeS d x).arenaBase = r.arenaBase := by
  unfold Regs.writeS; split <;> rfl
@[simp] theorem Regs.writeS_arenaLim (d : Fin 64) (x : Dword) : (r.writeS d x).arenaLim = r.arenaLim := by
  unfold Regs.writeS; split <;> rfl
@[simp] theorem Regs.writeS_logBase (d : Fin 64) (x : Dword) : (r.writeS d x).logBase = r.logBase := by
  unfold Regs.writeS; split <;> rfl
@[simp] theorem Regs.writeS_logSeq (d : Fin 64) (x : Dword) : (r.writeS d x).logSeq = r.logSeq := by
  unfold Regs.writeS; split <;> rfl
@[simp] theorem Regs.writeS_redtab (d : Fin 64) (x : Dword) : (r.writeS d x).redtab = r.redtab := by
  unfold Regs.writeS; split <;> rfl
@[simp] theorem Regs.writeS_spmBase (d : Fin 64) (x : Dword) : (r.writeS d x).spmBase = r.spmBase := by
  unfold Regs.writeS; split <;> rfl
@[simp] theorem Regs.writeS_spmSize (d : Fin 64) (x : Dword) : (r.writeS d x).spmSize = r.spmSize := by
  unfold Regs.writeS; split <;> rfl
@[simp] theorem Regs.writeS_keyslot (d : Fin 64) (x : Dword) : (r.writeS d x).keyslot = r.keyslot := by
  unfold Regs.writeS; split <;> rfl
@[simp] theorem Regs.writeS_flt (d : Fin 64) (x : Dword) : (r.writeS d x).flt = r.flt := by
  unfold Regs.writeS; split <;> rfl

@[simp] theorem Regs.writeQ_s (d : Fin 8) (t : Fin 32) (m x : Byte) : (r.writeQ d t m x).s = r.s := by
  unfold Regs.writeQ; split <;> rfl
@[simp] theorem Regs.writeQ_v (d : Fin 8) (t : Fin 32) (m x : Byte) : (r.writeQ d t m x).v = r.v := by
  unfold Regs.writeQ; split <;> rfl
@[simp] theorem Regs.writeQ_side (d : Fin 8) (t : Fin 32) (m x : Byte) : (r.writeQ d t m x).side = r.side := by
  unfold Regs.writeQ; split <;> rfl
@[simp] theorem Regs.writeQ_marks (d : Fin 8) (t : Fin 32) (m x : Byte) : (r.writeQ d t m x).marks = r.marks := by
  unfold Regs.writeQ; split <;> rfl
@[simp] theorem Regs.writeQ_inflight (d : Fin 8) (t : Fin 32) (m x : Byte) : (r.writeQ d t m x).inflight = r.inflight := by
  unfold Regs.writeQ; split <;> rfl
@[simp] theorem Regs.writeQ_frontier (d : Fin 8) (t : Fin 32) (m x : Byte) : (r.writeQ d t m x).frontier = r.frontier := by
  unfold Regs.writeQ; split <;> rfl
@[simp] theorem Regs.writeQ_csp (d : Fin 8) (t : Fin 32) (m x : Byte) : (r.writeQ d t m x).csp = r.csp := by
  unfold Regs.writeQ; split <;> rfl
@[simp] theorem Regs.writeQ_cdepth (d : Fin 8) (t : Fin 32) (m x : Byte) : (r.writeQ d t m x).cdepth = r.cdepth := by
  unfold Regs.writeQ; split <;> rfl
@[simp] theorem Regs.writeQ_blocked (d : Fin 8) (t : Fin 32) (m x : Byte) : (r.writeQ d t m x).blocked = r.blocked := by
  unfold Regs.writeQ; split <;> rfl
@[simp] theorem Regs.writeQ_tmask (d : Fin 8) (t : Fin 32) (m x : Byte) : (r.writeQ d t m x).tmask = r.tmask := by
  unfold Regs.writeQ; split <;> rfl
@[simp] theorem Regs.writeQ_emask (d : Fin 8) (t : Fin 32) (m x : Byte) : (r.writeQ d t m x).emask = r.emask := by
  unfold Regs.writeQ; split <;> rfl
@[simp] theorem Regs.writeQ_barPhase (d : Fin 8) (t : Fin 32) (m x : Byte) : (r.writeQ d t m x).barPhase = r.barPhase := by
  unfold Regs.writeQ; split <;> rfl
@[simp] theorem Regs.writeQ_barArrived (d : Fin 8) (t : Fin 32) (m x : Byte) : (r.writeQ d t m x).barArrived = r.barArrived := by
  unfold Regs.writeQ; split <;> rfl
@[simp] theorem Regs.writeQ_waits (d : Fin 8) (t : Fin 32) (m x : Byte) : (r.writeQ d t m x).waits = r.waits := by
  unfold Regs.writeQ; split <;> rfl
@[simp] theorem Regs.writeQ_views (d : Fin 8) (t : Fin 32) (m x : Byte) : (r.writeQ d t m x).views = r.views := by
  unfold Regs.writeQ; split <;> rfl
@[simp] theorem Regs.writeQ_repc (d : Fin 8) (t : Fin 32) (m x : Byte) : (r.writeQ d t m x).repc = r.repc := by
  unfold Regs.writeQ; split <;> rfl
@[simp] theorem Regs.writeQ_srctr (d : Fin 8) (t : Fin 32) (m x : Byte) : (r.writeQ d t m x).srctr = r.srctr := by
  unfold Regs.writeQ; split <;> rfl
@[simp] theorem Regs.writeQ_fpflags (d : Fin 8) (t : Fin 32) (m x : Byte) : (r.writeQ d t m x).fpflags = r.fpflags := by
  unfold Regs.writeQ; split <;> rfl
@[simp] theorem Regs.writeQ_pivst (d : Fin 8) (t : Fin 32) (m x : Byte) : (r.writeQ d t m x).pivst = r.pivst := by
  unfold Regs.writeQ; split <;> rfl
@[simp] theorem Regs.writeQ_rndmode (d : Fin 8) (t : Fin 32) (m x : Byte) : (r.writeQ d t m x).rndmode = r.rndmode := by
  unfold Regs.writeQ; split <;> rfl
@[simp] theorem Regs.writeQ_gang (d : Fin 8) (t : Fin 32) (m x : Byte) : (r.writeQ d t m x).gang = r.gang := by
  unfold Regs.writeQ; split <;> rfl
@[simp] theorem Regs.writeQ_safecnt (d : Fin 8) (t : Fin 32) (m x : Byte) : (r.writeQ d t m x).safecnt = r.safecnt := by
  unfold Regs.writeQ; split <;> rfl
@[simp] theorem Regs.writeQ_pedigree (d : Fin 8) (t : Fin 32) (m x : Byte) : (r.writeQ d t m x).pedigree = r.pedigree := by
  unfold Regs.writeQ; split <;> rfl
@[simp] theorem Regs.writeQ_arenaBase (d : Fin 8) (t : Fin 32) (m x : Byte) : (r.writeQ d t m x).arenaBase = r.arenaBase := by
  unfold Regs.writeQ; split <;> rfl
@[simp] theorem Regs.writeQ_arenaLim (d : Fin 8) (t : Fin 32) (m x : Byte) : (r.writeQ d t m x).arenaLim = r.arenaLim := by
  unfold Regs.writeQ; split <;> rfl
@[simp] theorem Regs.writeQ_logBase (d : Fin 8) (t : Fin 32) (m x : Byte) : (r.writeQ d t m x).logBase = r.logBase := by
  unfold Regs.writeQ; split <;> rfl
@[simp] theorem Regs.writeQ_logSeq (d : Fin 8) (t : Fin 32) (m x : Byte) : (r.writeQ d t m x).logSeq = r.logSeq := by
  unfold Regs.writeQ; split <;> rfl
@[simp] theorem Regs.writeQ_redtab (d : Fin 8) (t : Fin 32) (m x : Byte) : (r.writeQ d t m x).redtab = r.redtab := by
  unfold Regs.writeQ; split <;> rfl
@[simp] theorem Regs.writeQ_spmBase (d : Fin 8) (t : Fin 32) (m x : Byte) : (r.writeQ d t m x).spmBase = r.spmBase := by
  unfold Regs.writeQ; split <;> rfl
@[simp] theorem Regs.writeQ_spmSize (d : Fin 8) (t : Fin 32) (m x : Byte) : (r.writeQ d t m x).spmSize = r.spmSize := by
  unfold Regs.writeQ; split <;> rfl
@[simp] theorem Regs.writeQ_keyslot (d : Fin 8) (t : Fin 32) (m x : Byte) : (r.writeQ d t m x).keyslot = r.keyslot := by
  unfold Regs.writeQ; split <;> rfl
@[simp] theorem Regs.writeQ_flt (d : Fin 8) (t : Fin 32) (m x : Byte) : (r.writeQ d t m x).flt = r.flt := by
  unfold Regs.writeQ; split <;> rfl

@[simp] theorem Regs.writeV_s (d : Fin 64) (t : Fin 32) (m x : Dword) (g : Fin 16) : (r.writeV d t m x g).s = r.s := rfl
@[simp] theorem Regs.writeV_side (d : Fin 64) (t : Fin 32) (m x : Dword) (g : Fin 16) : (r.writeV d t m x g).side = r.side := rfl
@[simp] theorem Regs.writeV_q (d : Fin 64) (t : Fin 32) (m x : Dword) (g : Fin 16) : (r.writeV d t m x g).q = r.q := rfl
@[simp] theorem Regs.writeV_marks (d : Fin 64) (t : Fin 32) (m x : Dword) (g : Fin 16) : (r.writeV d t m x g).marks = r.marks := rfl
@[simp] theorem Regs.writeV_inflight (d : Fin 64) (t : Fin 32) (m x : Dword) (g : Fin 16) : (r.writeV d t m x g).inflight = r.inflight := rfl
@[simp] theorem Regs.writeV_frontier (d : Fin 64) (t : Fin 32) (m x : Dword) (g : Fin 16) : (r.writeV d t m x g).frontier = r.frontier := rfl
@[simp] theorem Regs.writeV_csp (d : Fin 64) (t : Fin 32) (m x : Dword) (g : Fin 16) : (r.writeV d t m x g).csp = r.csp := rfl
@[simp] theorem Regs.writeV_cdepth (d : Fin 64) (t : Fin 32) (m x : Dword) (g : Fin 16) : (r.writeV d t m x g).cdepth = r.cdepth := rfl
@[simp] theorem Regs.writeV_blocked (d : Fin 64) (t : Fin 32) (m x : Dword) (g : Fin 16) : (r.writeV d t m x g).blocked = r.blocked := rfl
@[simp] theorem Regs.writeV_tmask (d : Fin 64) (t : Fin 32) (m x : Dword) (g : Fin 16) : (r.writeV d t m x g).tmask = r.tmask := rfl
@[simp] theorem Regs.writeV_emask (d : Fin 64) (t : Fin 32) (m x : Dword) (g : Fin 16) : (r.writeV d t m x g).emask = r.emask := rfl
@[simp] theorem Regs.writeV_barPhase (d : Fin 64) (t : Fin 32) (m x : Dword) (g : Fin 16) : (r.writeV d t m x g).barPhase = r.barPhase := rfl
@[simp] theorem Regs.writeV_barArrived (d : Fin 64) (t : Fin 32) (m x : Dword) (g : Fin 16) : (r.writeV d t m x g).barArrived = r.barArrived := rfl
@[simp] theorem Regs.writeV_waits (d : Fin 64) (t : Fin 32) (m x : Dword) (g : Fin 16) : (r.writeV d t m x g).waits = r.waits := rfl
@[simp] theorem Regs.writeV_views (d : Fin 64) (t : Fin 32) (m x : Dword) (g : Fin 16) : (r.writeV d t m x g).views = r.views := rfl
@[simp] theorem Regs.writeV_repc (d : Fin 64) (t : Fin 32) (m x : Dword) (g : Fin 16) : (r.writeV d t m x g).repc = r.repc := rfl
@[simp] theorem Regs.writeV_srctr (d : Fin 64) (t : Fin 32) (m x : Dword) (g : Fin 16) : (r.writeV d t m x g).srctr = r.srctr := rfl
@[simp] theorem Regs.writeV_fpflags (d : Fin 64) (t : Fin 32) (m x : Dword) (g : Fin 16) : (r.writeV d t m x g).fpflags = r.fpflags := rfl
@[simp] theorem Regs.writeV_pivst (d : Fin 64) (t : Fin 32) (m x : Dword) (g : Fin 16) : (r.writeV d t m x g).pivst = r.pivst := rfl
@[simp] theorem Regs.writeV_rndmode (d : Fin 64) (t : Fin 32) (m x : Dword) (g : Fin 16) : (r.writeV d t m x g).rndmode = r.rndmode := rfl
@[simp] theorem Regs.writeV_gang (d : Fin 64) (t : Fin 32) (m x : Dword) (g : Fin 16) : (r.writeV d t m x g).gang = r.gang := rfl
@[simp] theorem Regs.writeV_safecnt (d : Fin 64) (t : Fin 32) (m x : Dword) (g : Fin 16) : (r.writeV d t m x g).safecnt = r.safecnt := rfl
@[simp] theorem Regs.writeV_pedigree (d : Fin 64) (t : Fin 32) (m x : Dword) (g : Fin 16) : (r.writeV d t m x g).pedigree = r.pedigree := rfl
@[simp] theorem Regs.writeV_arenaBase (d : Fin 64) (t : Fin 32) (m x : Dword) (g : Fin 16) : (r.writeV d t m x g).arenaBase = r.arenaBase := rfl
@[simp] theorem Regs.writeV_arenaLim (d : Fin 64) (t : Fin 32) (m x : Dword) (g : Fin 16) : (r.writeV d t m x g).arenaLim = r.arenaLim := rfl
@[simp] theorem Regs.writeV_logBase (d : Fin 64) (t : Fin 32) (m x : Dword) (g : Fin 16) : (r.writeV d t m x g).logBase = r.logBase := rfl
@[simp] theorem Regs.writeV_logSeq (d : Fin 64) (t : Fin 32) (m x : Dword) (g : Fin 16) : (r.writeV d t m x g).logSeq = r.logSeq := rfl
@[simp] theorem Regs.writeV_redtab (d : Fin 64) (t : Fin 32) (m x : Dword) (g : Fin 16) : (r.writeV d t m x g).redtab = r.redtab := rfl
@[simp] theorem Regs.writeV_spmBase (d : Fin 64) (t : Fin 32) (m x : Dword) (g : Fin 16) : (r.writeV d t m x g).spmBase = r.spmBase := rfl
@[simp] theorem Regs.writeV_spmSize (d : Fin 64) (t : Fin 32) (m x : Dword) (g : Fin 16) : (r.writeV d t m x g).spmSize = r.spmSize := rfl
@[simp] theorem Regs.writeV_keyslot (d : Fin 64) (t : Fin 32) (m x : Dword) (g : Fin 16) : (r.writeV d t m x g).keyslot = r.keyslot := rfl
@[simp] theorem Regs.writeV_flt (d : Fin 64) (t : Fin 32) (m x : Dword) (g : Fin 16) : (r.writeV d t m x g).flt = r.flt := rfl

end Sys2Proof.Machine
end

