-- ==== Sys2Proof/Laws/Faults.lean ====
section
/-! SUPPORT. What rolling a chunk back and taking a fault do, once each: the crew in focus, the landings, memory. -/
namespace Sys2Proof.Machine

/-- The crew in focus is the first of its number. -/
@[simp] theorem State.crew?_focus (s : State) : s.crew? s.focus.uid = some s.focus := by simp [State.crew?, State.crews]

/-- A list of byte writes leaves everything but memory, and which scratchpad bytes are given. -/
theorem State.putBytes_rest (s : State) (l : List (Nat × Byte)) :
    s.putBytes l = { s with mem := (s.putBytes l).mem, filled := (s.putBytes l).filled } := by
  induction l generalizing s with
  | nil => rfl
  | cons x l ih =>
    simp only [State.putBytes, List.foldl_cons] at ih ⊢
    rw [ih]
    rfl

/-- Restoring logged granules leaves everything but memory (R209). -/
theorem restore_rest (l : List SpadLog) (s : State) :
    l.foldl (fun s g => s.putBytes (cellsAt g.key g.old)) s =
      { s with
        mem := (l.foldl (fun s g => s.putBytes (cellsAt g.key g.old)) s).mem
        filled := (l.foldl (fun s g => s.putBytes (cellsAt g.key g.old)) s).filled } := by
  induction l generalizing s with
  | nil => rfl
  | cons g l ih =>
    simp only [List.foldl_cons]
    rw [ih, State.putBytes_rest s]

theorem restore_wf (l : List SpadLog) {s : State} (h : Memory.wf s.mem) :
    Memory.wf (l.foldl (fun s g => s.putBytes (cellsAt g.key g.old)) s).mem := by
  induction l generalizing s with
  | nil => exact h
  | cons g l ih => exact ih (State.putBytes_wf _ h)

/-- R208: a rollback of the crew in focus: its registers are the shadow's and its chunk is empty; it leaves every landing; the
granules that it logged have their old bytes. Nothing else changes. -/
theorem State.rollback_eq (s : State) : s.rollback =
    { s with
      focus := s.focus.rollback
      landings := s.landings.map (Landing.drop s.focus.uid)
      mem := (s.focus.chunk.logS.foldl (fun s g => s.putBytes (cellsAt g.key g.old)) s).mem
      filled := (s.focus.chunk.logS.foldl (fun s g => s.putBytes (cellsAt g.key g.old)) s).filled } := by
  unfold State.rollback State.rollbackCrew
  rw [State.crew?_focus]
  simp only
  rw [restore_rest]
  simp [State.dropGrants, State.mapCrew]

theorem State.rollback_wf {s : State} (h : Memory.wf s.mem) : Memory.wf s.rollback.mem := by
  rw [State.rollback_eq]
  exact restore_wf _ h

/-- A chunk that has written no scratchpad leaves memory as it is when it rolls back. -/
theorem State.rollback_mem {s : State} (h : s.focus.chunk.logS = []) : s.rollback.mem = s.mem := by
  rw [State.rollback_eq, h]
  rfl

/-- Logging a machine check leaves everything but the event log. -/
theorem State.logMemerr_rest (s : State) (code : BitVec 8) (addr : Dword) :
    s.logMemerr code addr = { s with hub := (s.logMemerr code addr).hub } := by
  unfold State.logMemerr
  split <;> rfl

@[simp] theorem State.logMemerr_focus (s : State) (code : BitVec 8) (addr : Dword) : (s.logMemerr code addr).focus = s.focus := by
  rw [State.logMemerr_rest]
@[simp] theorem State.logMemerr_mem (s : State) (code : BitVec 8) (addr : Dword) : (s.logMemerr code addr).mem = s.mem := by
  rw [State.logMemerr_rest]
@[simp] theorem State.logMemerr_ownCore (s : State) (code : BitVec 8) (addr : Dword) : (s.logMemerr code addr).ownCore = s.ownCore := by
  rw [State.logMemerr_rest]
  rfl

/-- Delivering a fault leaves memory as it is. -/
@[simp] theorem State.deliverAt_mem (s : State) (repc : BitVec 6) (code : BitVec 8) (addr : Dword) (post eng : Bool) (pc : Addr) (word : BitVec 4)
    (lanes : Lanes) (chkpc : Addr) : (s.deliverAt repc code addr post eng pc word lanes chkpc).mem = s.mem := by
  unfold State.deliverAt
  simp only [State.logMemerr_focus]
  split
  · exact State.logMemerr_mem ..
  · split <;> exact State.logMemerr_mem ..

/-- A fault at issue leaves memory as the rollback leaves it. -/
@[simp] theorem State.raise_mem (s : State) (f : Flt) : (s.raise f).mem = s.rollback.mem := by
  unfold State.raise
  simp

theorem State.raise_wf {s : State} (f : Flt) (h : Memory.wf s.mem) : Memory.wf (s.raise f).mem := by
  rw [State.raise_mem]
  exact State.rollback_wf h

/-- R385, R386: a fault at issue in user mode, of a crew that runs no merge routine: the crew rolls back, its record names the fault,
CHKPC its chunk's first clause, and lane 0 alone stands at TRAPVEC in supervisor mode. -/
theorem State.raise_focus (s : State) (f : Flt) (h : s.focus.task.kind ≠ .routine) (hs : s.focus.shadow.flt.sup = false) :
    let c := s.focus.rollback
    let r := { s.focus.shadow with repc := 0 }
    let k := s.clause
    let word := f.word.getD (BitVec.ofNat 4 k.idx)
    let lanes := f.lanes.getD k.lanes
    (s.raise f).focus = { c with
      trap := some ⟨r.frontier, r.csp, r.cdepth, r.blocked, r.safecnt, tab 4 fun i => r.s[60 + i.val], s.focus.chunk.first,
        causeOf f.code.num false false, f.addr, c.replay, c.post⟩
      cur := none
      replay := Replay.none
      post := []
      r := { r with
        flt := ⟨f.code.num, false, false, word, k.addr, f.addr, lanes, s.focus.chunk.first, true, false, false, s.focus.r.repc⟩
        frontier := [⟨s.rollback.ownCore.trapvec, 1, 0, false⟩]
        csp := r.csp.set 0 0
        cdepth := r.cdepth.set 0 0
        blocked := r.blocked &&& ~~~1 } } := by
  have hf : s.rollback.focus = s.focus.rollback := by rw [State.rollback_eq]
  have h' : ¬ s.focus.rollback.task.kind = .routine := h
  have hr : s.focus.rollback.r = { s.focus.shadow with repc := 0 } := rfl
  simp only [State.raise, State.deliverAt, State.mapFocus, State.logMemerr_focus, State.logMemerr_ownCore, hf, h', if_false, hr, hs]

/-- R25: an instruction none of whose registers is marked acts; else it raises HAZARD. -/
theorem checked_clear {uses : List Use} {s : State} (k : State → State) (h : s.focus.r.hazard uses = none) : checked uses s k = k s := by
  rw [checked, h]
theorem checked_marked {uses : List Use} {s : State} (k : State → State) {n : Nat} (h : s.focus.r.hazard uses = some n) :
    checked uses s k = s.raise (hazardFlt n) := by
  rw [checked, h]
theorem checked_wf {uses : List Use} {s : State} {k : State → State} (hm : Memory.wf s.mem) (hk : Memory.wf (k s).mem) :
    Memory.wf (checked uses s k).mem := by
  unfold checked
  split
  · exact State.raise_wf _ hm
  · exact hk

/-- R79: a control transfer moves the frontier and marks the clause as moved; nothing else changes. -/
theorem State.transfer_rest (s : State) (target : Fin 32 → Option Addr) :
    (s.transfer target).mem = s.mem ∧ (s.transfer target).pool = s.pool ∧ (s.transfer target).hub = s.hub ∧ (s.transfer target).sched = s.sched ∧
      { (s.transfer target).focus.r with frontier := s.focus.r.frontier } = s.focus.r :=
  ⟨rfl, rfl, rfl, rfl, rfl⟩

end Sys2Proof.Machine
end

