-- ==== Sys2Proof/Laws/Access.lean ====
section
/-! SUPPORT. What translating and locating an access may change (R173 to R177, R166 to R172): the TLBs, caches and counters of cores,
rafts and dies, the L2 tags, and in memory the accessed and dirty bits of table entries and the partial copies that a walk merges,
for which other crews may roll back; and whether the step has to wait for such a merge. Nothing else, and nothing of the crew in
focus. -/
namespace Sys2Proof.Machine

/-- `t` is `s` but for TLBs, tags and counters, partial copies, memory, which keeps its canonical form, crews out of focus with
their requests, and whether the step has to wait. -/
structure Translated (s t : State) : Prop where
  rest : { t with
    pool := s.pool, cores := s.cores, rafts := s.rafts, dies := s.dies, hub := s.hub, landings := s.landings, mem := s.mem
    filled := s.filled, keyed := s.keyed, partials := s.partials, stall := s.stall } = s
  hub : { t.hub with l2 := s.hub.l2 } = s.hub
  wf : Memory.wf s.mem → Memory.wf t.mem

theorem Translated.refl (s : State) : Translated s s := ⟨rfl, rfl, id⟩

theorem Translated.trans {s t u : State} (h : Translated s t) (g : Translated t u) : Translated s u :=
  ⟨by have := g.rest; have := h.rest; cases s; cases t; cases u; simp_all,
    by rw [← h.hub, ← g.hub], fun w => g.wf (h.wf w)⟩

theorem Translated.focus {s t : State} (h : Translated s t) : t.focus = s.focus := by have := congrArg State.focus h.rest; simpa using this
theorem Translated.sched {s t : State} (h : Translated s t) : t.sched = s.sched := by have := congrArg State.sched h.rest; simpa using this

theorem translated_mapCore (s : State) (k : Nat) (f : Core → Core) : Translated s (s.mapCore k f) := ⟨rfl, rfl, id⟩
theorem translated_mapDies (s : State) (l : List Die) : Translated s { s with dies := l } := ⟨rfl, rfl, id⟩

theorem translated_putBytes (s : State) (l : List (Nat × Byte)) : Translated s (s.putBytes l) :=
  ⟨by rw [State.putBytes_rest], by rw [State.putBytes_rest], State.putBytes_wf l⟩

theorem translated_reduceAt (s : State) (op : Fin 16) (w k : Nat) (b : Dword) : Translated s (s.reduceAt op w k b) := translated_putBytes _ _

theorem translated_foldl {α : Type} (l : List α) (f : State → α → State) (hf : ∀ s x, Translated s (f s x)) (s : State) :
    Translated s (l.foldl f s) := by
  induction l generalizing s with
  | nil => exact .refl s
  | cons x l ih => exact (hf s x).trans (ih _)

theorem translated_relabel (s : State) (pte : Nat) (leaf : Dword) : Translated s (s.relabel pte leaf) := ⟨rfl, rfl, id⟩
theorem translated_install (s : State) (x : Space) (e : TlbEntry) : Translated s (s.install x e) := ⟨rfl, rfl, id⟩
theorem translated_count (s : State) (k n : Nat) : Translated s (s.count k n) := ⟨rfl, rfl, id⟩
theorem translated_dropCopies (s : State) (core line : Nat) : Translated s (s.dropCopies core line) := ⟨rfl, rfl, id⟩
theorem translated_keyed (s : State) (l : List Keyed) : Translated s { s with keyed := l } := ⟨rfl, rfl, id⟩
theorem translated_dropGrants (s : State) (uid : Nat) : Translated s (s.dropGrants uid) := ⟨rfl, rfl, id⟩

/-- A line is to be written under a key slot (R417). -/
theorem translated_keyLine (s : State) (line slot : Nat) : Translated s (s.keyLine line slot) := by
  unfold State.keyLine
  cases s.keyed.find? fun x => x.line == line with
  | none => exact ⟨rfl, rfl, id⟩
  | some x =>
    simp only
    split
    · exact ⟨rfl, rfl, id⟩
    · exact (translated_putBytes s _).trans (translated_keyed _ _)

theorem translated_putSlice (s : State) (slice : Nat) (l : List CacheTag) : Translated s (s.putSlice slice l) := ⟨rfl, rfl, id⟩

/-- The home of a line holds it newer than memory (R212). -/
theorem translated_homeDirty (s : State) (line : Nat) : Translated s (s.homeDirty line) := by
  unfold State.homeDirty
  simp only
  split
  · exact translated_putSlice _ _ _
  · exact translated_putSlice _ _ _

/-! Other crews that roll back (R205, R208) -/

theorem translated_mapCrew {s : State} {uid : Nat} (f : Crew → Crew) (h : s.focus.uid ≠ uid) : Translated s (s.mapCrew uid f) :=
by
  unfold State.mapCrew
  rw [if_neg h]
  exact ⟨rfl, rfl, id⟩

theorem translated_rollbackCrew {s : State} {uid : Nat} (h : s.focus.uid ≠ uid) : Translated s (s.rollbackCrew uid) := by
  unfold State.rollbackCrew
  cases s.crew? uid with
  | none => exact .refl s
  | some c =>
    have h1 := translated_foldl c.chunk.logS (fun s g => s.putBytes (cellsAt g.key g.old)) (fun s g => translated_putBytes s _) s
    have h2 := h1.trans (translated_dropGrants _ uid)
    exact h2.trans (translated_mapCrew _ (by rw [h2.focus]; exact h))

theorem translated_conflictRollback {s : State} {uid : Nat} (h : s.focus.uid ≠ uid) : Translated s (s.conflictRollback uid) := by
  have h1 := translated_rollbackCrew h
  exact h1.trans (translated_mapCrew _ (by rw [h1.focus]; exact h))

/-- The invalidation of a line's readers but for the crew in focus (R205). -/
theorem translated_invalidateLine (s : State) (line : Nat) : Translated s (s.invalidateLine line s.focus.uid) := by
  unfold State.invalidateLine
  have hl : ∀ c ∈ s.crews.filter fun c => c.uid != s.focus.uid && c.uncommitted && sigHas c.chunk.rsig line, s.focus.uid ≠ c.uid := by
    intro c hc
    have := (List.mem_filter.mp hc).2
    simp only [Bool.and_eq_true, bne_iff_ne, ne_eq] at this
    exact fun e => this.1.1 e.symm
  generalize s.crews.filter (fun c => c.uid != s.focus.uid && c.uncommitted && sigHas c.chunk.rsig line) = l at hl
  induction l generalizing s with
  | nil => exact .refl s
  | cons c l ih =>
    have h1 := translated_conflictRollback (hl c (by simp))
    exact h1.trans (ih _ fun x hx => by rw [h1.focus]; exact hl x (by simp [hx]))

/-- R246: the merge of a line's partial copies. -/
theorem translated_mergeLine (s : State) (line : Nat) : Translated s (s.mergeLine line) := by
  unfold State.mergeLine
  split
  · exact .refl s
  · refine Translated.trans ?_ (translated_homeDirty _ _)
    refine Translated.trans (t := List.foldl _ s _) (translated_foldl _ _ (fun s p => ?_) s) ⟨rfl, rfl, id⟩
    exact (translated_keyLine s _ _).trans (translated_foldl _ _ (fun s e => translated_reduceAt s _ _ _ _) _)

theorem translated_stall (s : State) (b : Bool) : Translated s { s with stall := b } := ⟨rfl, rfl, id⟩

/-- R203, R246: a read of a line within a step. -/
theorem translated_readLine (s : State) (line : Nat) : Translated s (s.readLine line) :=
  (translated_mergeLine s line).trans (translated_stall _ _)

/-- R203, R246: where no partial waits to merge and no crew writes what it has committed, a read of a line changes nothing. -/
theorem readLine_quiet (s : State) (line : Nat) (h : s.partials = []) (h' : ∀ c ∈ s.crews, c.phase ≠ .granted) : s.readLine line = s := by
  have hb : s.homeBusy 0 line = false := by
    unfold State.homeBusy
    exact List.any_eq_false.2 fun c hc => by simp [h' c hc]
  have hw : (s.homeBusy 0 line || ((s.partials.any fun p => p.line == line) && !s.grantsNow s.focus.uid line)) = false := by simp [h, hb]
  unfold State.readLine
  rw [hw, show s.mergeLine line = s by simp [State.mergeLine, h]]
  simp only [Bool.or_false]

/-- R176: the walker's update of an entry. -/
theorem translated_setPteBits (s : State) (mask : Dword) (pte : Nat) : Translated s (s.setPteBits mask pte) := by
  unfold State.setPteBits
  have h1 := (translated_readLine s (lineOf pte)).trans
    (translated_stall _ ((s.readLine (lineOf pte)).stall || !s.grantsNow s.focus.uid (lineOf pte)))
  extract_lets line waits t u
  change Translated s u at h1
  have h2 := h1.trans (translated_putBytes u (cellsAt pte (leBytes 8 (u.dword pte ||| mask).toNat)))
  generalize u.putBytes (cellsAt pte (leBytes 8 (u.dword pte ||| mask).toNat)) = v at h2
  have h3 := translated_invalidateLine v (lineOf pte)
  rw [show v.focus = s.focus from h2.focus, ← h1.focus] at h3
  exact (((h2.trans h3).trans (translated_dropCopies _ _ _)).trans (translated_homeDirty _ _)).trans (translated_relabel _ _ _)

/-- R173, R174: the levels of a walk. -/
theorem translated_walk (slot va : Nat) : ∀ (n pa shift : Nat) (s : State), Translated s (s.walk slot va n pa shift).1
  | 0, _, _, s => .refl s
  | n + 1, pa, shift, s => by
    unfold State.walk
    generalize hp : pa + 8 * (va / 2 ^ shift % (if shift = 55 then 4 else 8192)) = e
    simp only
    split
    · exact .refl s
    · split
      · exact .refl s
      · have h : Translated s (s.readPte e).1 := translated_readLine s (lineOf e)
        split
        · exact h
        · split
          · exact h
          · split
            · exact h
            · exact h.trans (translated_walk slot va n _ _ _)

/-- R177: a walk, from the walk cache or the root. -/
theorem translated_walkFrom (s : State) (die slot root va : Nat) : Translated s (s.walkFrom die slot root va).1 := by
  unfold State.walkFrom
  simp only
  generalize deepest ((((s.dies[die]?).map Die.walks).getD []).filter (WalkEntry.hits slot va)) = e
  cases e with
  | none =>
    have h := translated_walk slot va 4 root 55 s
    simp only
    split
    · exact h.trans (translated_mapDies _ _)
    · exact h
  | some e =>
    have h := translated_walk slot va (if e.shift = 55 then 3 else if e.shift = 42 then 2 else 1) e.table (nextShift e.shift) s
    simp only
    split
    · exact h.trans (translated_mapDies _ _)
    · exact h

/-- R177: a lookup, with the walk where it misses. -/
theorem translated_lookup (s : State) (x : Space) (va : Nat) : Translated s (s.lookup x va).1 := by
  unfold State.lookup
  split
  · exact .refl s
  · have h6 := translated_count s x.core 6
    simp only
    split
    · exact h6.trans (translated_install _ _ _)
    · have h7 := (h6.trans (translated_count _ x.core 7)).trans (translated_walkFrom _ (x.core / 36) x.slot x.root va)
      generalize State.walkFrom (x.core / 36) x.slot x.root va ((s.count x.core 6).count x.core 7) = p at h7
      obtain ⟨u, w⟩ := p
      cases w with
      | fault f => exact h7
      | leaf leaf shift pte =>
        refine h7.trans (Translated.trans ?_ (translated_install _ _ _))
        simp only
        split
        · exact .refl _
        · exact translated_setPteBits _ _ _

/-- R173 to R177: the translation of an address. -/
theorem translated_translate (s : State) (x : Space) (n : Need) (va : Nat) : Translated s (s.translate x n va).1 := by
  have h := translated_lookup s x va
  unfold State.translate
  generalize s.lookup x va = p at h
  obtain ⟨t, w⟩ := p
  cases w with
  | fault f => exact h
  | leaf leaf shift pte =>
    simp only
    split
    · exact h
    · split
      · exact h
      · refine h.trans ?_
        simp only
        split
        · exact translated_setPteBits _ _ _
        · exact .refl _

/-- R166 to R172, R180: the location of an access. -/
theorem translated_locate (s : State) (c : Crew) (t : Option (Fin 32)) (n : Need) (a : Dword) (size : Nat) :
    Translated s (s.locate c t n a size).1 := by
  have hg : Translated s (s.locateGlobal c n a).1 := by
    have h := translated_translate s (s.space c false) n a.toNat
    unfold State.locateGlobal
    generalize s.translate (s.space c false) n a.toNat = p at h
    obtain ⟨u, w⟩ := p
    cases w <;> exact h
  have hp : ∀ o, Translated s (s.locatePriv c t n a o size).1 := by
    intro o
    unfold State.locatePriv
    split
    · rename_i l g t' _ _
      split
      · exact .refl s
      · have h := translated_translate s (s.space c true) n (l.sliceVa g t' o % 2 ^ 57)
        generalize s.translate (s.space c true) n (l.sliceVa g t' o % 2 ^ 57) = p at h
        obtain ⟨u, w⟩ := p
        cases w <;> exact h
    · exact .refl s
  unfold State.locate State.locateWindow
  simp only
  repeat' split
  all_goals first | exact .refl s | exact hg | exact hp _

/-- R166, R167: an aligned access through a crew's own window, within it, goes to the scratchpad of the crew's core at the window's base
plus the offset, and changes nothing. -/
theorem locate_own (s : State) (c : Crew) (t : Option (Fin 32)) (n : Need) (a : Dword) (size : Nat)
    (ha : winOwn ≤ a.toNat ∧ a.toNat < winRaft) (hs : a.toNat % size = 0)
    (hb : a.toNat - winOwn + size ≤ c.r.spmWindow.2) (hw : c.r.spmWindow.1 + (a.toNat - winOwn) + size ≤ 2 ^ 19) :
    s.locate c t n a size = (s, .ok ⟨.spad, keySpad c.core (c.r.spmWindow.1 + (a.toNat - winOwn)), a, false, 0⟩ none) := by
  have h1 : ¬ 2 ^ 57 ≤ a.toNat := by simp only [winRaft] at ha; omega
  have h2 : ¬ a.toNat < winOwn := by omega
  have h3 : a.toNat % 2 ^ 32 = a.toNat - winOwn := by simp only [winOwn, winRaft] at ha ⊢; omega
  unfold State.locate
  rw [if_neg (by omega), if_neg h1, if_neg h2]
  unfold State.locateWindow
  simp only [h3]
  rw [if_pos (by rw [Bool.and_eq_true]; exact ⟨decide_eq_true ha.1, decide_eq_true ha.2⟩), if_neg (by omega), if_neg (by omega)]

end Sys2Proof.Machine
end

