-- ==== Sys2Proof/Laws/PerInstr.lean ====
section
/-! SUPPORT. The shape of an instruction's encoding, constructor by constructor: its own word leaves bit 31 to EXT, and at
most two words follow it (R27 to R31). An event has no word. -/
namespace Sys2Proof.Laws.EncodeShape

set_option Elab.async false
set_option linter.unusedSimpArgs false

/-- The words of an instruction: bits [30:0] of the first, and the number of those after it. -/
def Statement (i : Instr) : Prop := i.cls.isSome = true → encodeBody i < 2 ^ 31 ∧ (encodeExt i).length ≤ 2

theorem encodeRx_length (rx : Option Rx) : (encodeRx rx).length ≤ 2 := by
  unfold encodeRx
  cases rx with
  | none => simp
  | some r => cases h : r.c <;> simp [h]

theorem encodeMx_length (mx : Option Mx) : (encodeMx mx).length ≤ 2 := by
  unfold encodeMx
  cases mx <;> simp

theorem nop : Statement .nop := by
  intro _
  refine ⟨?_, by simp [encodeExt, encodeRx_length, encodeMx_length]⟩
  simp only [encodeBody, pack]
  omega

theorem bra (off : BitVec 24) : Statement (.bra off) := by
  intro _
  refine ⟨?_, by simp [encodeExt, encodeRx_length, encodeMx_length]⟩
  simp only [encodeBody, pack]
  omega

theorem brz (u : Bool) (a : Fin 64) (off : BitVec 12) : Statement (.brz u a off) := by
  intro _
  refine ⟨?_, by simp [encodeExt, encodeRx_length, encodeMx_length]⟩
  have := Bool.toNat_lt u
  simp only [encodeBody, pack]
  omega

theorem brnz (u : Bool) (a : Fin 64) (off : BitVec 12) : Statement (.brnz u a off) := by
  intro _
  refine ⟨?_, by simp [encodeExt, encodeRx_length, encodeMx_length]⟩
  have := Bool.toNat_lt u
  simp only [encodeBody, pack]
  omega

theorem brq (q : Fin 8) (neg : Bool) (off : BitVec 20) : Statement (.brq q neg off) := by
  intro _
  refine ⟨?_, by simp [encodeExt, encodeRx_length, encodeMx_length]⟩
  have := Bool.toNat_lt neg
  simp only [encodeBody, pack]
  omega

theorem jmpi (a : Fin 64) : Statement (.jmpi a) := by
  intro _
  refine ⟨?_, by simp [encodeExt, encodeRx_length, encodeMx_length]⟩
  simp only [encodeBody, pack]
  omega

theorem call (off : BitVec 24) : Statement (.call off) := by
  intro _
  refine ⟨?_, by simp [encodeExt, encodeRx_length, encodeMx_length]⟩
  simp only [encodeBody, pack]
  omega

theorem calli (a : Fin 64) : Statement (.calli a) := by
  intro _
  refine ⟨?_, by simp [encodeExt, encodeRx_length, encodeMx_length]⟩
  simp only [encodeBody, pack]
  omega

theorem ret : Statement .ret := by
  intro _
  refine ⟨?_, by simp [encodeExt, encodeRx_length, encodeMx_length]⟩
  simp only [encodeBody, pack]
  omega

theorem exit : Statement .exit := by
  intro _
  refine ⟨?_, by simp [encodeExt, encodeRx_length, encodeMx_length]⟩
  simp only [encodeBody, pack]
  omega

theorem safept (off : BitVec 20) : Statement (.safept off) := by
  intro _
  refine ⟨?_, by simp [encodeExt, encodeRx_length, encodeMx_length]⟩
  simp only [encodeBody, pack]
  omega

theorem waitf (mask : BitVec 12) : Statement (.waitf mask) := by
  intro _
  refine ⟨?_, by simp [encodeExt, encodeRx_length, encodeMx_length]⟩
  simp only [encodeBody, pack]
  omega

theorem rep (n : Fin 64) (step : BitVec 4) : Statement (.rep n step) := by
  intro _
  refine ⟨?_, by simp [encodeExt, encodeRx_length, encodeMx_length]⟩
  simp only [encodeBody, pack]
  omega

theorem brk (code : BitVec 12) : Statement (.brk code) := by
  intro _
  refine ⟨?_, by simp [encodeExt, encodeRx_length, encodeMx_length]⟩
  simp only [encodeBody, pack]
  omega

theorem sadd (d a b : Fin 64) : Statement (.sadd d a b) := by
  intro _
  refine ⟨?_, by simp [encodeExt, encodeRx_length, encodeMx_length]⟩
  simp only [encodeBody, pack]
  omega

theorem ssub (d a b : Fin 64) : Statement (.ssub d a b) := by
  intro _
  refine ⟨?_, by simp [encodeExt, encodeRx_length, encodeMx_length]⟩
  simp only [encodeBody, pack]
  omega

theorem smul (d a b : Fin 64) : Statement (.smul d a b) := by
  intro _
  refine ⟨?_, by simp [encodeExt, encodeRx_length, encodeMx_length]⟩
  simp only [encodeBody, pack]
  omega

theorem smulh (d a b : Fin 64) : Statement (.smulh d a b) := by
  intro _
  refine ⟨?_, by simp [encodeExt, encodeRx_length, encodeMx_length]⟩
  simp only [encodeBody, pack]
  omega

theorem smulhz (d a b : Fin 64) : Statement (.smulhz d a b) := by
  intro _
  refine ⟨?_, by simp [encodeExt, encodeRx_length, encodeMx_length]⟩
  simp only [encodeBody, pack]
  omega

theorem sand (d a b : Fin 64) : Statement (.sand d a b) := by
  intro _
  refine ⟨?_, by simp [encodeExt, encodeRx_length, encodeMx_length]⟩
  simp only [encodeBody, pack]
  omega

theorem sor (d a b : Fin 64) : Statement (.sor d a b) := by
  intro _
  refine ⟨?_, by simp [encodeExt, encodeRx_length, encodeMx_length]⟩
  simp only [encodeBody, pack]
  omega

theorem sxor (d a b : Fin 64) : Statement (.sxor d a b) := by
  intro _
  refine ⟨?_, by simp [encodeExt, encodeRx_length, encodeMx_length]⟩
  simp only [encodeBody, pack]
  omega

theorem sshl (d a b : Fin 64) : Statement (.sshl d a b) := by
  intro _
  refine ⟨?_, by simp [encodeExt, encodeRx_length, encodeMx_length]⟩
  simp only [encodeBody, pack]
  omega

theorem sshr (d a b : Fin 64) : Statement (.sshr d a b) := by
  intro _
  refine ⟨?_, by simp [encodeExt, encodeRx_length, encodeMx_length]⟩
  simp only [encodeBody, pack]
  omega

theorem ssar (d a b : Fin 64) : Statement (.ssar d a b) := by
  intro _
  refine ⟨?_, by simp [encodeExt, encodeRx_length, encodeMx_length]⟩
  simp only [encodeBody, pack]
  omega

theorem smin (d a b : Fin 64) : Statement (.smin d a b) := by
  intro _
  refine ⟨?_, by simp [encodeExt, encodeRx_length, encodeMx_length]⟩
  simp only [encodeBody, pack]
  omega

theorem smax (d a b : Fin 64) : Statement (.smax d a b) := by
  intro _
  refine ⟨?_, by simp [encodeExt, encodeRx_length, encodeMx_length]⟩
  simp only [encodeBody, pack]
  omega

theorem sminz (d a b : Fin 64) : Statement (.sminz d a b) := by
  intro _
  refine ⟨?_, by simp [encodeExt, encodeRx_length, encodeMx_length]⟩
  simp only [encodeBody, pack]
  omega

theorem smaxz (d a b : Fin 64) : Statement (.smaxz d a b) := by
  intro _
  refine ⟨?_, by simp [encodeExt, encodeRx_length, encodeMx_length]⟩
  simp only [encodeBody, pack]
  omega

theorem scmp (d a b : Fin 64) (cc : Fin 16) : Statement (.scmp d a b cc) := by
  intro _
  refine ⟨?_, by simp [encodeExt, encodeRx_length, encodeMx_length]⟩
  simp only [encodeBody, pack]
  omega

theorem ssel (d a b c : Fin 64) : Statement (.ssel d a b c) := by
  intro _
  refine ⟨?_, by simp [encodeExt, encodeRx_length, encodeMx_length]⟩
  simp only [encodeBody, pack]
  omega

theorem smov (d a : Fin 64) : Statement (.smov d a) := by
  intro _
  refine ⟨?_, by simp [encodeExt, encodeRx_length, encodeMx_length]⟩
  simp only [encodeBody, pack]
  omega

theorem spopc (d a : Fin 64) : Statement (.spopc d a) := by
  intro _
  refine ⟨?_, by simp [encodeExt, encodeRx_length, encodeMx_length]⟩
  simp only [encodeBody, pack]
  omega

theorem sclz (d a : Fin 64) : Statement (.sclz d a) := by
  intro _
  refine ⟨?_, by simp [encodeExt, encodeRx_length, encodeMx_length]⟩
  simp only [encodeBody, pack]
  omega

theorem saddi (d a : Fin 64) (imm : BitVec 12) : Statement (.saddi d a imm) := by
  intro _
  refine ⟨?_, by simp [encodeExt, encodeRx_length, encodeMx_length]⟩
  simp only [encodeBody, pack]
  omega

theorem sandi (d a : Fin 64) (imm : BitVec 12) : Statement (.sandi d a imm) := by
  intro _
  refine ⟨?_, by simp [encodeExt, encodeRx_length, encodeMx_length]⟩
  simp only [encodeBody, pack]
  omega

theorem sori (d a : Fin 64) (imm : BitVec 12) : Statement (.sori d a imm) := by
  intro _
  refine ⟨?_, by simp [encodeExt, encodeRx_length, encodeMx_length]⟩
  simp only [encodeBody, pack]
  omega

theorem sshli (d a n : Fin 64) : Statement (.sshli d a n) := by
  intro _
  refine ⟨?_, by simp [encodeExt, encodeRx_length, encodeMx_length]⟩
  simp only [encodeBody, pack]
  omega

theorem sshri (d a n : Fin 64) : Statement (.sshri d a n) := by
  intro _
  refine ⟨?_, by simp [encodeExt, encodeRx_length, encodeMx_length]⟩
  simp only [encodeBody, pack]
  omega

theorem smovk (d : Fin 64) (sh : Fin 4) (imm : BitVec 16) : Statement (.smovk d sh imm) := by
  intro _
  refine ⟨?_, by simp [encodeExt, encodeRx_length, encodeMx_length]⟩
  simp only [encodeBody, pack]
  omega

theorem smovz (d : Fin 64) (sh : Fin 4) (imm : BitVec 16) : Statement (.smovz d sh imm) := by
  intro _
  refine ⟨?_, by simp [encodeExt, encodeRx_length, encodeMx_length]⟩
  simp only [encodeBody, pack]
  omega

theorem slimm (d : Fin 64) (lit : BitVec 64) : Statement (.slimm d lit) := by
  intro _
  refine ⟨?_, by simp [encodeExt, encodeRx_length, encodeMx_length]⟩
  simp only [encodeBody, pack]
  omega

theorem srdl (d a b : Fin 64) (n : Fin 32) : Statement (.srdl d a b n) := by
  intro _
  refine ⟨?_, by simp [encodeExt, encodeRx_length, encodeMx_length]⟩
  simp only [encodeBody, pack]
  omega

theorem mfsr (d : Fin 64) (num : BitVec 12) : Statement (.mfsr d num) := by
  intro _
  refine ⟨?_, by simp [encodeExt, encodeRx_length, encodeMx_length]⟩
  simp only [encodeBody, pack]
  omega

theorem mtsr (num : BitVec 12) (a : Fin 64) : Statement (.mtsr num a) := by
  intro _
  refine ⟨?_, by simp [encodeExt, encodeRx_length, encodeMx_length]⟩
  simp only [encodeBody, pack]
  omega

theorem vmov (d a : Fin 64) (fs : Bool) (rx : Option Rx) : Statement (.vmov d a fs rx) := by
  intro _
  refine ⟨?_, by simp [encodeExt, encodeRx_length, encodeMx_length]⟩
  have := Bool.toNat_lt fs
  simp only [encodeBody, pack]
  omega

theorem vadd (d a b : Fin 64) (fs : Bool) (rx : Option Rx) : Statement (.vadd d a b fs rx) := by
  intro _
  refine ⟨?_, by simp [encodeExt, encodeRx_length, encodeMx_length]⟩
  have := Bool.toNat_lt fs
  simp only [encodeBody, pack]
  omega

theorem vsub (d a b : Fin 64) (fs : Bool) (rx : Option Rx) : Statement (.vsub d a b fs rx) := by
  intro _
  refine ⟨?_, by simp [encodeExt, encodeRx_length, encodeMx_length]⟩
  have := Bool.toNat_lt fs
  simp only [encodeBody, pack]
  omega

theorem vadds (d a b : Fin 64) (fs : Bool) (rx : Option Rx) : Statement (.vadds d a b fs rx) := by
  intro _
  refine ⟨?_, by simp [encodeExt, encodeRx_length, encodeMx_length]⟩
  have := Bool.toNat_lt fs
  simp only [encodeBody, pack]
  omega

theorem vsubs (d a b : Fin 64) (fs : Bool) (rx : Option Rx) : Statement (.vsubs d a b fs rx) := by
  intro _
  refine ⟨?_, by simp [encodeExt, encodeRx_length, encodeMx_length]⟩
  have := Bool.toNat_lt fs
  simp only [encodeBody, pack]
  omega

theorem vmul (d a b : Fin 64) (fs : Bool) (rx : Option Rx) : Statement (.vmul d a b fs rx) := by
  intro _
  refine ⟨?_, by simp [encodeExt, encodeRx_length, encodeMx_length]⟩
  have := Bool.toNat_lt fs
  simp only [encodeBody, pack]
  omega

theorem vmulh (d a b : Fin 64) (fs : Bool) (rx : Option Rx) : Statement (.vmulh d a b fs rx) := by
  intro _
  refine ⟨?_, by simp [encodeExt, encodeRx_length, encodeMx_length]⟩
  have := Bool.toNat_lt fs
  simp only [encodeBody, pack]
  omega

theorem vmad (d a b c : Fin 64) (fs : Bool) (rx : Option Rx) : Statement (.vmad d a b c fs rx) := by
  intro _
  refine ⟨?_, by simp [encodeExt, encodeRx_length, encodeMx_length]⟩
  have := Bool.toNat_lt fs
  simp only [encodeBody, pack]
  omega

theorem vmin (d a b : Fin 64) (fs : Bool) (rx : Option Rx) : Statement (.vmin d a b fs rx) := by
  intro _
  refine ⟨?_, by simp [encodeExt, encodeRx_length, encodeMx_length]⟩
  have := Bool.toNat_lt fs
  simp only [encodeBody, pack]
  omega

theorem vmax (d a b : Fin 64) (fs : Bool) (rx : Option Rx) : Statement (.vmax d a b fs rx) := by
  intro _
  refine ⟨?_, by simp [encodeExt, encodeRx_length, encodeMx_length]⟩
  have := Bool.toNat_lt fs
  simp only [encodeBody, pack]
  omega

theorem vabs (d a : Fin 64) (fs : Bool) (rx : Option Rx) : Statement (.vabs d a fs rx) := by
  intro _
  refine ⟨?_, by simp [encodeExt, encodeRx_length, encodeMx_length]⟩
  have := Bool.toNat_lt fs
  simp only [encodeBody, pack]
  omega

theorem vneg (d a : Fin 64) (fs : Bool) (rx : Option Rx) : Statement (.vneg d a fs rx) := by
  intro _
  refine ⟨?_, by simp [encodeExt, encodeRx_length, encodeMx_length]⟩
  have := Bool.toNat_lt fs
  simp only [encodeBody, pack]
  omega

theorem vabsd (d a b : Fin 64) (fs : Bool) (rx : Option Rx) : Statement (.vabsd d a b fs rx) := by
  intro _
  refine ⟨?_, by simp [encodeExt, encodeRx_length, encodeMx_length]⟩
  have := Bool.toNat_lt fs
  simp only [encodeBody, pack]
  omega

theorem vand (d a b : Fin 64) (fs : Bool) (rx : Option Rx) : Statement (.vand d a b fs rx) := by
  intro _
  refine ⟨?_, by simp [encodeExt, encodeRx_length, encodeMx_length]⟩
  have := Bool.toNat_lt fs
  simp only [encodeBody, pack]
  omega

theorem vor (d a b : Fin 64) (fs : Bool) (rx : Option Rx) : Statement (.vor d a b fs rx) := by
  intro _
  refine ⟨?_, by simp [encodeExt, encodeRx_length, encodeMx_length]⟩
  have := Bool.toNat_lt fs
  simp only [encodeBody, pack]
  omega

theorem vxor (d a b : Fin 64) (fs : Bool) (rx : Option Rx) : Statement (.vxor d a b fs rx) := by
  intro _
  refine ⟨?_, by simp [encodeExt, encodeRx_length, encodeMx_length]⟩
  have := Bool.toNat_lt fs
  simp only [encodeBody, pack]
  omega

theorem vandn (d a b : Fin 64) (fs : Bool) (rx : Option Rx) : Statement (.vandn d a b fs rx) := by
  intro _
  refine ⟨?_, by simp [encodeExt, encodeRx_length, encodeMx_length]⟩
  have := Bool.toNat_lt fs
  simp only [encodeBody, pack]
  omega

theorem vnot (d a : Fin 64) (fs : Bool) (rx : Option Rx) : Statement (.vnot d a fs rx) := by
  intro _
  refine ⟨?_, by simp [encodeExt, encodeRx_length, encodeMx_length]⟩
  have := Bool.toNat_lt fs
  simp only [encodeBody, pack]
  omega

theorem vshl (d a b : Fin 64) (fs : Bool) (rx : Option Rx) : Statement (.vshl d a b fs rx) := by
  intro _
  refine ⟨?_, by simp [encodeExt, encodeRx_length, encodeMx_length]⟩
  have := Bool.toNat_lt fs
  simp only [encodeBody, pack]
  omega

theorem vshr (d a b : Fin 64) (fs : Bool) (rx : Option Rx) : Statement (.vshr d a b fs rx) := by
  intro _
  refine ⟨?_, by simp [encodeExt, encodeRx_length, encodeMx_length]⟩
  have := Bool.toNat_lt fs
  simp only [encodeBody, pack]
  omega

theorem vsar (d a b : Fin 64) (fs : Bool) (rx : Option Rx) : Statement (.vsar d a b fs rx) := by
  intro _
  refine ⟨?_, by simp [encodeExt, encodeRx_length, encodeMx_length]⟩
  have := Bool.toNat_lt fs
  simp only [encodeBody, pack]
  omega

theorem vrol (d a b : Fin 64) (fs : Bool) (rx : Option Rx) : Statement (.vrol d a b fs rx) := by
  intro _
  refine ⟨?_, by simp [encodeExt, encodeRx_length, encodeMx_length]⟩
  have := Bool.toNat_lt fs
  simp only [encodeBody, pack]
  omega

theorem vbfx (d a b c : Fin 64) (fs : Bool) (rx : Option Rx) : Statement (.vbfx d a b c fs rx) := by
  intro _
  refine ⟨?_, by simp [encodeExt, encodeRx_length, encodeMx_length]⟩
  have := Bool.toNat_lt fs
  simp only [encodeBody, pack]
  omega

theorem vbfi (d a b c : Fin 64) (fs : Bool) (rx : Option Rx) : Statement (.vbfi d a b c fs rx) := by
  intro _
  refine ⟨?_, by simp [encodeExt, encodeRx_length, encodeMx_length]⟩
  have := Bool.toNat_lt fs
  simp only [encodeBody, pack]
  omega

theorem vpopc (d a : Fin 64) (fs : Bool) (rx : Option Rx) : Statement (.vpopc d a fs rx) := by
  intro _
  refine ⟨?_, by simp [encodeExt, encodeRx_length, encodeMx_length]⟩
  have := Bool.toNat_lt fs
  simp only [encodeBody, pack]
  omega

theorem vclz (d a : Fin 64) (fs : Bool) (rx : Option Rx) : Statement (.vclz d a fs rx) := by
  intro _
  refine ⟨?_, by simp [encodeExt, encodeRx_length, encodeMx_length]⟩
  have := Bool.toNat_lt fs
  simp only [encodeBody, pack]
  omega

theorem vbrev (d a : Fin 64) (fs : Bool) (rx : Option Rx) : Statement (.vbrev d a fs rx) := by
  intro _
  refine ⟨?_, by simp [encodeExt, encodeRx_length, encodeMx_length]⟩
  have := Bool.toNat_lt fs
  simp only [encodeBody, pack]
  omega

theorem vcmp (d : Fin 8) (a b : Fin 64) (cc : Fin 16) (fs : Bool) (rx : Option Rx) : Statement (.vcmp d a b cc fs rx) := by
  intro _
  refine ⟨?_, by simp [encodeExt, encodeRx_length, encodeMx_length]⟩
  have := Bool.toNat_lt fs
  simp only [encodeBody, pack]
  omega

theorem vsel (d a b : Fin 64) (q : Fin 8) (fs : Bool) (rx : Option Rx) : Statement (.vsel d a b q fs rx) := by
  intro _
  refine ⟨?_, by simp [encodeExt, encodeRx_length, encodeMx_length]⟩
  have := Bool.toNat_lt fs
  simp only [encodeBody, pack]
  omega

theorem vqop (d a b op : Fin 8) (rx : Option Rx) : Statement (.vqop d a b op rx) := by
  intro _
  refine ⟨?_, by simp [encodeExt, encodeRx_length, encodeMx_length]⟩
  simp only [encodeBody, pack]
  omega

theorem vqmov (d a : Fin 64) (dir fs : Bool) (rx : Option Rx) : Statement (.vqmov d a dir fs rx) := by
  intro _
  refine ⟨?_, by simp [encodeExt, encodeRx_length, encodeMx_length]⟩
  have := Bool.toNat_lt dir
  have := Bool.toNat_lt fs
  simp only [encodeBody, pack]
  omega

theorem vaddi (d a : Fin 64) (imm : BitVec 12) (rx : Option Rx) : Statement (.vaddi d a imm rx) := by
  intro _
  refine ⟨?_, by simp [encodeExt, encodeRx_length, encodeMx_length]⟩
  simp only [encodeBody, pack]
  omega

theorem vandi (d a : Fin 64) (imm : BitVec 12) (rx : Option Rx) : Statement (.vandi d a imm rx) := by
  intro _
  refine ⟨?_, by simp [encodeExt, encodeRx_length, encodeMx_length]⟩
  simp only [encodeBody, pack]
  omega

theorem vori (d a : Fin 64) (imm : BitVec 12) (rx : Option Rx) : Statement (.vori d a imm rx) := by
  intro _
  refine ⟨?_, by simp [encodeExt, encodeRx_length, encodeMx_length]⟩
  simp only [encodeBody, pack]
  omega

theorem vxori (d a : Fin 64) (imm : BitVec 12) (rx : Option Rx) : Statement (.vxori d a imm rx) := by
  intro _
  refine ⟨?_, by simp [encodeExt, encodeRx_length, encodeMx_length]⟩
  simp only [encodeBody, pack]
  omega

theorem vshli (d a n : Fin 64) (rx : Option Rx) : Statement (.vshli d a n rx) := by
  intro _
  refine ⟨?_, by simp [encodeExt, encodeRx_length, encodeMx_length]⟩
  simp only [encodeBody, pack]
  omega

theorem vshri (d a n : Fin 64) (rx : Option Rx) : Statement (.vshri d a n rx) := by
  intro _
  refine ⟨?_, by simp [encodeExt, encodeRx_length, encodeMx_length]⟩
  simp only [encodeBody, pack]
  omega

theorem vsari (d a n : Fin 64) (rx : Option Rx) : Statement (.vsari d a n rx) := by
  intro _
  refine ⟨?_, by simp [encodeExt, encodeRx_length, encodeMx_length]⟩
  simp only [encodeBody, pack]
  omega

theorem vmovi (d : Fin 64) (sh : Fin 4) (imm : BitVec 16) (rx : Option Rx) : Statement (.vmovi d sh imm rx) := by
  intro _
  refine ⟨?_, by simp [encodeExt, encodeRx_length, encodeMx_length]⟩
  simp only [encodeBody, pack]
  omega

theorem vlimm (d : Fin 64) (lit : BitVec 64) : Statement (.vlimm d lit) := by
  intro _
  refine ⟨?_, by simp [encodeExt, encodeRx_length, encodeMx_length]⟩
  simp only [encodeBody, pack]
  omega

theorem viota (d a : Fin 64) (tag : Fin 16) (rx : Option Rx) : Statement (.viota d a tag rx) := by
  intro _
  refine ⟨?_, by simp [encodeExt, encodeRx_length, encodeMx_length]⟩
  simp only [encodeBody, pack]
  omega

theorem vwrl (d a b c : Fin 64) (fs : Bool) (rx : Option Rx) : Statement (.vwrl d a b c fs rx) := by
  intro _
  refine ⟨?_, by simp [encodeExt, encodeRx_length, encodeMx_length]⟩
  have := Bool.toNat_lt fs
  simp only [encodeBody, pack]
  omega

theorem vvote (d : Fin 8) (a : Fin 64) (mode : Fin 4) (fs : Bool) (rx : Option Rx) : Statement (.vvote d a mode fs rx) := by
  intro _
  refine ⟨?_, by simp [encodeExt, encodeRx_length, encodeMx_length]⟩
  have := Bool.toNat_lt fs
  simp only [encodeBody, pack]
  omega

theorem vballot (d a : Fin 64) (fs : Bool) (rx : Option Rx) : Statement (.vballot d a fs rx) := by
  intro _
  refine ⟨?_, by simp [encodeExt, encodeRx_length, encodeMx_length]⟩
  have := Bool.toNat_lt fs
  simp only [encodeBody, pack]
  omega

theorem vmatch (d a : Fin 64) (fs : Bool) (rx : Option Rx) : Statement (.vmatch d a fs rx) := by
  intro _
  refine ⟨?_, by simp [encodeExt, encodeRx_length, encodeMx_length]⟩
  have := Bool.toNat_lt fs
  simp only [encodeBody, pack]
  omega

theorem vfirst (d a : Fin 64) (fs : Bool) (rx : Option Rx) : Statement (.vfirst d a fs rx) := by
  intro _
  refine ⟨?_, by simp [encodeExt, encodeRx_length, encodeMx_length]⟩
  have := Bool.toNat_lt fs
  simp only [encodeBody, pack]
  omega

theorem vactive (d : Fin 64) (rx : Option Rx) : Statement (.vactive d rx) := by
  intro _
  refine ⟨?_, by simp [encodeExt, encodeRx_length, encodeMx_length]⟩
  simp only [encodeBody, pack]
  omega

theorem fadd (d a b : Fin 64) (fs : Bool) (rx : Option Rx) : Statement (.fadd d a b fs rx) := by
  intro _
  refine ⟨?_, by simp [encodeExt, encodeRx_length, encodeMx_length]⟩
  have := Bool.toNat_lt fs
  simp only [encodeBody, pack]
  omega

theorem fsub (d a b : Fin 64) (fs : Bool) (rx : Option Rx) : Statement (.fsub d a b fs rx) := by
  intro _
  refine ⟨?_, by simp [encodeExt, encodeRx_length, encodeMx_length]⟩
  have := Bool.toNat_lt fs
  simp only [encodeBody, pack]
  omega

theorem fmul (d a b : Fin 64) (fs : Bool) (rx : Option Rx) : Statement (.fmul d a b fs rx) := by
  intro _
  refine ⟨?_, by simp [encodeExt, encodeRx_length, encodeMx_length]⟩
  have := Bool.toNat_lt fs
  simp only [encodeBody, pack]
  omega

theorem fma (d a b c : Fin 64) (fs : Bool) (rx : Option Rx) : Statement (.fma d a b c fs rx) := by
  intro _
  refine ⟨?_, by simp [encodeExt, encodeRx_length, encodeMx_length]⟩
  have := Bool.toNat_lt fs
  simp only [encodeBody, pack]
  omega

theorem fms (d a b c : Fin 64) (fs : Bool) (rx : Option Rx) : Statement (.fms d a b c fs rx) := by
  intro _
  refine ⟨?_, by simp [encodeExt, encodeRx_length, encodeMx_length]⟩
  have := Bool.toNat_lt fs
  simp only [encodeBody, pack]
  omega

theorem fnma (d a b c : Fin 64) (fs : Bool) (rx : Option Rx) : Statement (.fnma d a b c fs rx) := by
  intro _
  refine ⟨?_, by simp [encodeExt, encodeRx_length, encodeMx_length]⟩
  have := Bool.toNat_lt fs
  simp only [encodeBody, pack]
  omega

theorem fmin (d a b : Fin 64) (fs : Bool) (rx : Option Rx) : Statement (.fmin d a b fs rx) := by
  intro _
  refine ⟨?_, by simp [encodeExt, encodeRx_length, encodeMx_length]⟩
  have := Bool.toNat_lt fs
  simp only [encodeBody, pack]
  omega

theorem fmax (d a b : Fin 64) (fs : Bool) (rx : Option Rx) : Statement (.fmax d a b fs rx) := by
  intro _
  refine ⟨?_, by simp [encodeExt, encodeRx_length, encodeMx_length]⟩
  have := Bool.toNat_lt fs
  simp only [encodeBody, pack]
  omega

theorem fminn (d a b : Fin 64) (fs : Bool) (rx : Option Rx) : Statement (.fminn d a b fs rx) := by
  intro _
  refine ⟨?_, by simp [encodeExt, encodeRx_length, encodeMx_length]⟩
  have := Bool.toNat_lt fs
  simp only [encodeBody, pack]
  omega

theorem fmaxn (d a b : Fin 64) (fs : Bool) (rx : Option Rx) : Statement (.fmaxn d a b fs rx) := by
  intro _
  refine ⟨?_, by simp [encodeExt, encodeRx_length, encodeMx_length]⟩
  have := Bool.toNat_lt fs
  simp only [encodeBody, pack]
  omega

theorem fabs (d a : Fin 64) (fs : Bool) (rx : Option Rx) : Statement (.fabs d a fs rx) := by
  intro _
  refine ⟨?_, by simp [encodeExt, encodeRx_length, encodeMx_length]⟩
  have := Bool.toNat_lt fs
  simp only [encodeBody, pack]
  omega

theorem fneg (d a : Fin 64) (fs : Bool) (rx : Option Rx) : Statement (.fneg d a fs rx) := by
  intro _
  refine ⟨?_, by simp [encodeExt, encodeRx_length, encodeMx_length]⟩
  have := Bool.toNat_lt fs
  simp only [encodeBody, pack]
  omega

theorem fcps (d a b : Fin 64) (fs : Bool) (rx : Option Rx) : Statement (.fcps d a b fs rx) := by
  intro _
  refine ⟨?_, by simp [encodeExt, encodeRx_length, encodeMx_length]⟩
  have := Bool.toNat_lt fs
  simp only [encodeBody, pack]
  omega

theorem fcmp (d : Fin 8) (a b : Fin 64) (cc : Fin 16) (fs : Bool) (rx : Option Rx) : Statement (.fcmp d a b cc fs rx) := by
  intro _
  refine ⟨?_, by simp [encodeExt, encodeRx_length, encodeMx_length]⟩
  have := Bool.toNat_lt fs
  simp only [encodeBody, pack]
  omega

theorem fclass (d a : Fin 64) (fs : Bool) (rx : Option Rx) : Statement (.fclass d a fs rx) := by
  intro _
  refine ⟨?_, by simp [encodeExt, encodeRx_length, encodeMx_length]⟩
  have := Bool.toNat_lt fs
  simp only [encodeBody, pack]
  omega

theorem frnd (d a : Fin 64) (fs : Bool) (rx : Option Rx) : Statement (.frnd d a fs rx) := by
  intro _
  refine ⟨?_, by simp [encodeExt, encodeRx_length, encodeMx_length]⟩
  have := Bool.toNat_lt fs
  simp only [encodeBody, pack]
  omega

theorem fdot2 (d a b c : Fin 64) (fs : Bool) (rx : Option Rx) : Statement (.fdot2 d a b c fs rx) := by
  intro _
  refine ⟨?_, by simp [encodeExt, encodeRx_length, encodeMx_length]⟩
  have := Bool.toNat_lt fs
  simp only [encodeBody, pack]
  omega

theorem fdot4 (d a b c : Fin 64) (fs : Bool) (rx : Option Rx) : Statement (.fdot4 d a b c fs rx) := by
  intro _
  refine ⟨?_, by simp [encodeExt, encodeRx_length, encodeMx_length]⟩
  have := Bool.toNat_lt fs
  simp only [encodeBody, pack]
  omega

theorem fscale (d a b : Fin 64) (fs : Bool) (rx : Option Rx) : Statement (.fscale d a b fs rx) := by
  intro _
  refine ⟨?_, by simp [encodeExt, encodeRx_length, encodeMx_length]⟩
  have := Bool.toNat_lt fs
  simp only [encodeBody, pack]
  omega

theorem fgetx (d a : Fin 64) (fs : Bool) (rx : Option Rx) : Statement (.fgetx d a fs rx) := by
  intro _
  refine ⟨?_, by simp [encodeExt, encodeRx_length, encodeMx_length]⟩
  have := Bool.toNat_lt fs
  simp only [encodeBody, pack]
  omega

theorem fpivg (d a b c : Fin 64) (fs : Bool) (rx : Option Rx) : Statement (.fpivg d a b c fs rx) := by
  intro _
  refine ⟨?_, by simp [encodeExt, encodeRx_length, encodeMx_length]⟩
  have := Bool.toNat_lt fs
  simp only [encodeBody, pack]
  omega

theorem frcp (d a : Fin 64) (fs : Bool) (rx : Option Rx) : Statement (.frcp d a fs rx) := by
  intro _
  refine ⟨?_, by simp [encodeExt, encodeRx_length, encodeMx_length]⟩
  have := Bool.toNat_lt fs
  simp only [encodeBody, pack]
  omega

theorem frsq (d a : Fin 64) (fs : Bool) (rx : Option Rx) : Statement (.frsq d a fs rx) := by
  intro _
  refine ⟨?_, by simp [encodeExt, encodeRx_length, encodeMx_length]⟩
  have := Bool.toNat_lt fs
  simp only [encodeBody, pack]
  omega

theorem fsqrt (d a : Fin 64) (fs : Bool) (rx : Option Rx) : Statement (.fsqrt d a fs rx) := by
  intro _
  refine ⟨?_, by simp [encodeExt, encodeRx_length, encodeMx_length]⟩
  have := Bool.toNat_lt fs
  simp only [encodeBody, pack]
  omega

theorem fdiv (d a b : Fin 64) (fs : Bool) (rx : Option Rx) : Statement (.fdiv d a b fs rx) := by
  intro _
  refine ⟨?_, by simp [encodeExt, encodeRx_length, encodeMx_length]⟩
  have := Bool.toNat_lt fs
  simp only [encodeBody, pack]
  omega

theorem fexp2 (d a : Fin 64) (fs : Bool) (rx : Option Rx) : Statement (.fexp2 d a fs rx) := by
  intro _
  refine ⟨?_, by simp [encodeExt, encodeRx_length, encodeMx_length]⟩
  have := Bool.toNat_lt fs
  simp only [encodeBody, pack]
  omega

theorem flog2 (d a : Fin 64) (fs : Bool) (rx : Option Rx) : Statement (.flog2 d a fs rx) := by
  intro _
  refine ⟨?_, by simp [encodeExt, encodeRx_length, encodeMx_length]⟩
  have := Bool.toNat_lt fs
  simp only [encodeBody, pack]
  omega

theorem fsinp (d a : Fin 64) (fs : Bool) (rx : Option Rx) : Statement (.fsinp d a fs rx) := by
  intro _
  refine ⟨?_, by simp [encodeExt, encodeRx_length, encodeMx_length]⟩
  have := Bool.toNat_lt fs
  simp only [encodeBody, pack]
  omega

theorem fcosp (d a : Fin 64) (fs : Bool) (rx : Option Rx) : Statement (.fcosp d a fs rx) := by
  intro _
  refine ⟨?_, by simp [encodeExt, encodeRx_length, encodeMx_length]⟩
  have := Bool.toNat_lt fs
  simp only [encodeBody, pack]
  omega

theorem ftanh (d a : Fin 64) (fs : Bool) (rx : Option Rx) : Statement (.ftanh d a fs rx) := by
  intro _
  refine ⟨?_, by simp [encodeExt, encodeRx_length, encodeMx_length]⟩
  have := Bool.toNat_lt fs
  simp only [encodeBody, pack]
  omega

theorem cvt (d a : Fin 64) (p : Fin 8) (tag : Fin 16) (fs : Bool) (rx : Option Rx) : Statement (.cvt d a p tag fs rx) := by
  intro _
  refine ⟨?_, by simp [encodeExt, encodeRx_length, encodeMx_length]⟩
  have := Bool.toNat_lt fs
  simp only [encodeBody, pack]
  omega

theorem cvts (d a b : Fin 64) (p : Fin 8) (fs : Bool) (rx : Option Rx) : Statement (.cvts d a b p fs rx) := by
  intro _
  refine ⟨?_, by simp [encodeExt, encodeRx_length, encodeMx_length]⟩
  have := Bool.toNat_lt fs
  simp only [encodeBody, pack]
  omega

theorem fmaxx (d a b : Fin 64) (acc fs : Bool) (rx : Option Rx) : Statement (.fmaxx d a b acc fs rx) := by
  intro _
  refine ⟨?_, by simp [encodeExt, encodeRx_length, encodeMx_length]⟩
  have := Bool.toNat_lt acc
  have := Bool.toNat_lt fs
  simp only [encodeBody, pack]
  omega

theorem vsettag (d a : Fin 64) (tag : Fin 16) (fs : Bool) (rx : Option Rx) : Statement (.vsettag d a tag fs rx) := by
  intro _
  refine ⟨?_, by simp [encodeExt, encodeRx_length, encodeMx_length]⟩
  have := Bool.toNat_lt fs
  simp only [encodeBody, pack]
  omega

theorem vgettag (d a : Fin 64) (fs : Bool) (rx : Option Rx) : Statement (.vgettag d a fs rx) := by
  intro _
  refine ⟨?_, by simp [encodeExt, encodeRx_length, encodeMx_length]⟩
  have := Bool.toNat_lt fs
  simp only [encodeBody, pack]
  omega

theorem sclget (d a : Fin 64) (rx : Option Rx) : Statement (.sclget d a rx) := by
  intro _
  refine ⟨?_, by simp [encodeExt, encodeRx_length, encodeMx_length]⟩
  simp only [encodeBody, pack]
  omega

theorem sclset (d a : Fin 64) (rx : Option Rx) : Statement (.sclset d a rx) := by
  intro _
  refine ⟨?_, by simp [encodeExt, encodeRx_length, encodeMx_length]⟩
  simp only [encodeBody, pack]
  omega

theorem flimm (d : Fin 64) (lit : BitVec 64) : Statement (.flimm d lit) := by
  intro _
  refine ⟨?_, by simp [encodeExt, encodeRx_length, encodeMx_length]⟩
  simp only [encodeBody, pack]
  omega

theorem ord (order scope : Fin 8) : Statement (.ord order scope) := by
  intro _
  refine ⟨?_, by simp [encodeExt, encodeRx_length, encodeMx_length]⟩
  simp only [encodeBody, pack]
  omega

theorem ld (d base : Fin 64) (ty : Fin 16) (off : Fin 256) (mx : Option Mx) : Statement (.ld d base ty off mx) := by
  intro _
  refine ⟨?_, by simp [encodeExt, encodeRx_length, encodeMx_length]⟩
  simp only [encodeBody, pack]
  omega

theorem lde (d base : Fin 64) (ty : Fin 16) (off : Fin 256) (mx : Option Mx) : Statement (.lde d base ty off mx) := by
  intro _
  refine ⟨?_, by simp [encodeExt, encodeRx_length, encodeMx_length]⟩
  simp only [encodeBody, pack]
  omega

theorem st (d base : Fin 64) (ty : Fin 16) (off : Fin 256) (mx : Option Mx) : Statement (.st d base ty off mx) := by
  intro _
  refine ⟨?_, by simp [encodeExt, encodeRx_length, encodeMx_length]⟩
  simp only [encodeBody, pack]
  omega

theorem ste (d base : Fin 64) (ty : Fin 16) (off : Fin 256) (mx : Option Mx) : Statement (.ste d base ty off mx) := by
  intro _
  refine ⟨?_, by simp [encodeExt, encodeRx_length, encodeMx_length]⟩
  simp only [encodeBody, pack]
  omega

theorem ldu (d base : Fin 64) (ty : Fin 16) (off : Fin 256) (mx : Option Mx) : Statement (.ldu d base ty off mx) := by
  intro _
  refine ⟨?_, by simp [encodeExt, encodeRx_length, encodeMx_length]⟩
  simp only [encodeBody, pack]
  omega

theorem stu (d base : Fin 64) (ty : Fin 16) (off : Fin 256) (mx : Option Mx) : Statement (.stu d base ty off mx) := by
  intro _
  refine ⟨?_, by simp [encodeExt, encodeRx_length, encodeMx_length]⟩
  simp only [encodeBody, pack]
  omega

theorem ldx (d base : Fin 64) (ty : Fin 16) (off : Fin 256) (gx : Gx) : Statement (.ldx d base ty off gx) := by
  intro _
  refine ⟨?_, by simp [encodeExt, encodeRx_length, encodeMx_length]⟩
  simp only [encodeBody, pack]
  omega

theorem stx (d base : Fin 64) (ty : Fin 16) (off : Fin 256) (gx : Gx) : Statement (.stx d base ty off gx) := by
  intro _
  refine ⟨?_, by simp [encodeExt, encodeRx_length, encodeMx_length]⟩
  simp only [encodeBody, pack]
  omega

theorem ldp (d base : Fin 64) (ty : Fin 16) (off : Fin 256) (mx : Option Mx) : Statement (.ldp d base ty off mx) := by
  intro _
  refine ⟨?_, by simp [encodeExt, encodeRx_length, encodeMx_length]⟩
  simp only [encodeBody, pack]
  omega

theorem stp (d base : Fin 64) (ty : Fin 16) (off : Fin 256) (mx : Option Mx) : Statement (.stp d base ty off mx) := by
  intro _
  refine ⟨?_, by simp [encodeExt, encodeRx_length, encodeMx_length]⟩
  simp only [encodeBody, pack]
  omega

theorem atom (d a b : Fin 64) (op : Fin 16) (fs : Bool) (mx : Option Mx) : Statement (.atom d a b op fs mx) := by
  intro _
  refine ⟨?_, by simp [encodeExt, encodeRx_length, encodeMx_length]⟩
  have := Bool.toNat_lt fs
  simp only [encodeBody, pack]
  omega

theorem atomc (x y z : Fin 64) (w : Fin 32) (fs : Bool) (mx : Option Mx) : Statement (.atomc x y z w fs mx) := by
  intro _
  refine ⟨?_, by simp [encodeExt, encodeRx_length, encodeMx_length]⟩
  have := Bool.toNat_lt fs
  simp only [encodeBody, pack]
  omega

theorem red (a b : Fin 64) (op : Fin 16) (mx : Option Mx) : Statement (.red a b op mx) := by
  intro _
  refine ⟨?_, by simp [encodeExt, encodeRx_length, encodeMx_length]⟩
  simp only [encodeBody, pack]
  omega

theorem atomu (d a b : Fin 64) (op : Fin 16) (w32 fs : Bool) (mx : Option Mx) : Statement (.atomu d a b op w32 fs mx) := by
  intro _
  refine ⟨?_, by simp [encodeExt, encodeRx_length, encodeMx_length]⟩
  have := Bool.toNat_lt w32
  have := Bool.toNat_lt fs
  simp only [encodeBody, pack]
  omega

theorem fence (d : Fin 64) (scope : Fin 8) : Statement (.fence d scope) := by
  intro _
  refine ⟨?_, by simp [encodeExt, encodeRx_length, encodeMx_length]⟩
  simp only [encodeBody, pack]
  omega

theorem cpin (base : Fin 64) (ways : Fin 16) (slot : Fin 4) : Statement (.cpin base ways slot) := by
  intro _
  refine ⟨?_, by simp [encodeExt, encodeRx_length, encodeMx_length]⟩
  simp only [encodeBody, pack]
  omega

theorem cunpin (slot : Fin 4) : Statement (.cunpin slot) := by
  intro _
  refine ⟨?_, by simp [encodeExt, encodeRx_length, encodeMx_length]⟩
  simp only [encodeBody, pack]
  omega

theorem cpref (base : Fin 64) (off : Fin 256) (mx : Option Mx) : Statement (.cpref base off mx) := by
  intro _
  refine ⟨?_, by simp [encodeExt, encodeRx_length, encodeMx_length]⟩
  simp only [encodeBody, pack]
  omega

theorem cinv (kind : Fin 4) (base : Fin 64) (off : Fin 256) : Statement (.cinv kind base off) := by
  intro _
  refine ⟨?_, by simp [encodeExt, encodeRx_length, encodeMx_length]⟩
  simp only [encodeBody, pack]
  omega

theorem tzero (x n : Fin 8) (fs : Bool) : Statement (.tzero x n fs) := by
  intro _
  refine ⟨?_, by simp [encodeExt, encodeRx_length, encodeMx_length]⟩
  have := Bool.toNat_lt fs
  simp only [encodeBody, pack]
  omega

theorem tld (x : Fin 8) (y : Fin 64) (fs : Bool) : Statement (.tld x y fs) := by
  intro _
  refine ⟨?_, by simp [encodeExt, encodeRx_length, encodeMx_length]⟩
  have := Bool.toNat_lt fs
  simp only [encodeBody, pack]
  omega

theorem tst (x : Fin 8) (y : Fin 64) (rnd : Fin 8) (sat fs : Bool) : Statement (.tst x y rnd sat fs) := by
  intro _
  refine ⟨?_, by simp [encodeExt, encodeRx_length, encodeMx_length]⟩
  have := Bool.toNat_lt sat
  have := Bool.toNat_lt fs
  simp only [encodeBody, pack]
  omega

theorem tmma (x : Fin 8) (y z : Fin 64) (zero rows fs : Bool) : Statement (.tmma x y z zero rows fs) := by
  intro _
  refine ⟨?_, by simp [encodeExt, encodeRx_length, encodeMx_length]⟩
  have := Bool.toNat_lt zero
  have := Bool.toNat_lt rows
  have := Bool.toNat_lt fs
  simp only [encodeBody, pack]
  omega

theorem tgang (fs : Bool) : Statement (.tgang fs) := by
  intro _
  refine ⟨?_, by simp [encodeExt, encodeRx_length, encodeMx_length]⟩
  have := Bool.toNat_lt fs
  simp only [encodeBody, pack]
  omega

theorem tsweep (x y z : Fin 64) (w : Fin 32) (fs : Bool) : Statement (.tsweep x y z w fs) := by
  intro _
  refine ⟨?_, by simp [encodeExt, encodeRx_length, encodeMx_length]⟩
  have := Bool.toNat_lt fs
  simp only [encodeBody, pack]
  omega

theorem tred (x y : Fin 8) (op : Fin 4) (w : Fin 32) (fs : Bool) : Statement (.tred x y op w fs) := by
  intro _
  refine ⟨?_, by simp [encodeExt, encodeRx_length, encodeMx_length]⟩
  have := Bool.toNat_lt fs
  simp only [encodeBody, pack]
  omega

theorem tfact (x : Fin 8) (y : Fin 64) (fs : Bool) : Statement (.tfact x y fs) := by
  intro _
  refine ⟨?_, by simp [encodeExt, encodeRx_length, encodeMx_length]⟩
  have := Bool.toNat_lt fs
  simp only [encodeBody, pack]
  omega

theorem ttrs (x y : Fin 8) (z : Fin 64) (fs : Bool) : Statement (.ttrs x y z fs) := by
  intro _
  refine ⟨?_, by simp [encodeExt, encodeRx_length, encodeMx_length]⟩
  have := Bool.toNat_lt fs
  simp only [encodeBody, pack]
  omega

theorem tmov (x y : Fin 8) (z : Fin 64) (t fs : Bool) : Statement (.tmov x y z t fs) := by
  intro _
  refine ⟨?_, by simp [encodeExt, encodeRx_length, encodeMx_length]⟩
  have := Bool.toNat_lt t
  have := Bool.toNat_lt fs
  simp only [encodeBody, pack]
  omega

theorem tscl (x : Fin 8) (y z : Fin 64) (col scalar fs : Bool) : Statement (.tscl x y z col scalar fs) := by
  intro _
  refine ⟨?_, by simp [encodeExt, encodeRx_length, encodeMx_length]⟩
  have := Bool.toNat_lt col
  have := Bool.toNat_lt scalar
  have := Bool.toNat_lt fs
  simp only [encodeBody, pack]
  omega

theorem spawn (x y : Fin 64) (n : Fin 8) (split atom : Bool) (die : Fin 8) (hint : Bool) : Statement (.spawn x y n split atom die hint) := by
  intro _
  refine ⟨?_, by simp [encodeExt, encodeRx_length, encodeMx_length]⟩
  have := Bool.toNat_lt split
  have := Bool.toNat_lt atom
  have := Bool.toNat_lt hint
  simp only [encodeBody, pack]
  omega

theorem spawnr (x y : Fin 64) (n : Fin 8) (split atom : Bool) : Statement (.spawnr x y n split atom) := by
  intro _
  refine ⟨?_, by simp [encodeExt, encodeRx_length, encodeMx_length]⟩
  have := Bool.toNat_lt split
  have := Bool.toNat_lt atom
  simp only [encodeBody, pack]
  omega

theorem spawng (x y : Fin 64) (n b : Fin 8) (m : Fin 16) (raft split : Bool) : Statement (.spawng x y n b m raft split) := by
  intro _
  refine ⟨?_, by simp [encodeExt, encodeRx_length, encodeMx_length]⟩
  have := Bool.toNat_lt raft
  have := Bool.toNat_lt split
  simp only [encodeBody, pack]
  omega

theorem sync : Statement .sync := by
  intro _
  refine ⟨?_, by simp [encodeExt, encodeRx_length, encodeMx_length]⟩
  simp only [encodeBody, pack]
  omega

theorem pgrd (d a : Fin 64) (dep : Bool) : Statement (.pgrd d a dep) := by
  intro _
  refine ⟨?_, by simp [encodeExt, encodeRx_length, encodeMx_length]⟩
  have := Bool.toNat_lt dep
  simp only [encodeBody, pack]
  omega

theorem pgkey (d : Fin 64) : Statement (.pgkey d) := by
  intro _
  refine ⟨?_, by simp [encodeExt, encodeRx_length, encodeMx_length]⟩
  simp only [encodeBody, pack]
  omega

theorem prng (x y : Fin 64) (j : Fin 4) (f32 fs : Bool) : Statement (.prng x y j f32 fs) := by
  intro _
  refine ⟨?_, by simp [encodeExt, encodeRx_length, encodeMx_length]⟩
  have := Bool.toNat_lt f32
  have := Bool.toNat_lt fs
  simp only [encodeBody, pack]
  omega

theorem palloc (d a : Fin 64) (k : Fin 16) : Statement (.palloc d a k) := by
  intro _
  refine ⟨?_, by simp [encodeExt, encodeRx_length, encodeMx_length]⟩
  simp only [encodeBody, pack]
  omega

theorem plog (a : Fin 64) : Statement (.plog a) := by
  intro _
  refine ⟨?_, by simp [encodeExt, encodeRx_length, encodeMx_length]⟩
  simp only [encodeBody, pack]
  omega

theorem view (i : Fin 16) (a b : Fin 64) (op : Fin 8) : Statement (.view i a b op) := by
  intro _
  refine ⟨?_, by simp [encodeExt, encodeRx_length, encodeMx_length]⟩
  simp only [encodeBody, pack]
  omega

theorem rdacc (i : Fin 16) (a b : Fin 64) (q : Fin 8) (neg : Bool) : Statement (.rdacc i a b q neg) := by
  intro _
  refine ⟨?_, by simp [encodeExt, encodeRx_length, encodeMx_length]⟩
  have := Bool.toNat_lt neg
  simp only [encodeBody, pack]
  omega

theorem rdget (d : Fin 64) (i : Fin 16) (fs : Bool) : Statement (.rdget d i fs) := by
  intro _
  refine ⟨?_, by simp [encodeExt, encodeRx_length, encodeMx_length]⟩
  have := Bool.toNat_lt fs
  simp only [encodeBody, pack]
  omega

theorem chunk : Statement .chunk := by
  intro _
  refine ⟨?_, by simp [encodeExt, encodeRx_length, encodeMx_length]⟩
  simp only [encodeBody, pack]
  omega

theorem chkst (d : Fin 64) : Statement (.chkst d) := by
  intro _
  refine ⟨?_, by simp [encodeExt, encodeRx_length, encodeMx_length]⟩
  simp only [encodeBody, pack]
  omega

theorem bar (scope : Fin 8) (b : Fin 16) : Statement (.bar scope b) := by
  intro _
  refine ⟨?_, by simp [encodeExt, encodeRx_length, encodeMx_length]⟩
  simp only [encodeBody, pack]
  omega

theorem bara (d : Fin 64) (scope : Fin 8) (b : Fin 16) : Statement (.bara d scope b) := by
  intro _
  refine ⟨?_, by simp [encodeExt, encodeRx_length, encodeMx_length]⟩
  simp only [encodeBody, pack]
  omega

theorem barw (a : Fin 64) (scope : Fin 8) (b : Fin 16) : Statement (.barw a scope b) := by
  intro _
  refine ⟨?_, by simp [encodeExt, encodeRx_length, encodeMx_length]⟩
  simp only [encodeBody, pack]
  omega

theorem bari (a : Fin 64) (scope : Fin 8) (b : Fin 16) : Statement (.bari a scope b) := by
  intro _
  refine ⟨?_, by simp [encodeExt, encodeRx_length, encodeMx_length]⟩
  simp only [encodeBody, pack]
  omega

theorem barb (a : Fin 64) (scope : Fin 8) (b : Fin 16) : Statement (.barb a scope b) := by
  intro _
  refine ⟨?_, by simp [encodeExt, encodeRx_length, encodeMx_length]⟩
  simp only [encodeBody, pack]
  omega

theorem trap (code : BitVec 12) : Statement (.trap code) := by
  intro _
  refine ⟨?_, by simp [encodeExt, encodeRx_length, encodeMx_length]⟩
  simp only [encodeBody, pack]
  omega

theorem cpy (x y tag : Fin 64) (w : Fin 32) (fs : Bool) : Statement (.cpy x y tag w fs) := by
  intro _
  refine ⟨?_, by simp [encodeExt, encodeRx_length, encodeMx_length]⟩
  have := Bool.toNat_lt fs
  simp only [encodeBody, pack]
  omega

theorem cpyf (x y tag : Fin 64) (w : Fin 32) (fs : Bool) : Statement (.cpyf x y tag w fs) := by
  intro _
  refine ⟨?_, by simp [encodeExt, encodeRx_length, encodeMx_length]⟩
  have := Bool.toNat_lt fs
  simp only [encodeBody, pack]
  omega

theorem wtagany (x y : Fin 64) (fs : Bool) : Statement (.wtagany x y fs) := by
  intro _
  refine ⟨?_, by simp [encodeExt, encodeRx_length, encodeMx_length]⟩
  have := Bool.toNat_lt fs
  simp only [encodeBody, pack]
  omega

theorem wtagall (x y : Fin 64) (fs : Bool) : Statement (.wtagall x y fs) := by
  intro _
  refine ⟨?_, by simp [encodeExt, encodeRx_length, encodeMx_length]⟩
  have := Bool.toNat_lt fs
  simp only [encodeBody, pack]
  omega

theorem tagff (x y : Fin 64) (fs : Bool) : Statement (.tagff x y fs) := by
  intro _
  refine ⟨?_, by simp [encodeExt, encodeRx_length, encodeMx_length]⟩
  have := Bool.toNat_lt fs
  simp only [encodeBody, pack]
  omega

theorem tagclr (y : Fin 64) (fs : Bool) : Statement (.tagclr y fs) := by
  intro _
  refine ⟨?_, by simp [encodeExt, encodeRx_length, encodeMx_length]⟩
  have := Bool.toNat_lt fs
  simp only [encodeBody, pack]
  omega

theorem frontierSelection (c : Nat) : Statement (.frontierSelection c) := fun h => nomatch h

theorem longLatencyCompletion (c k : Nat) : Statement (.longLatencyCompletion c k) := fun h => nomatch h

theorem sfuAcceptance (core : Nat) : Statement (.sfuAcceptance core) := fun h => nomatch h

theorem chunkCommit (c : Nat) : Statement (.chunkCommit c) := fun h => nomatch h

theorem softErrorFerry (c : Nat) : Statement (.softErrorFerry c) := fun h => nomatch h

theorem landingRequest (c : Nat) : Statement (.landingRequest c) := fun h => nomatch h

theorem invalidation (c line : Nat) : Statement (.invalidation c line) := fun h => nomatch h

theorem exclusiveMode (c : Nat) : Statement (.exclusiveMode c) := fun h => nomatch h

theorem tableWalk (c : Nat) (va : BitVec 64) : Statement (.tableWalk c va) := fun h => nomatch h

theorem taskStart (c : Nat) : Statement (.taskStart c) := fun h => nomatch h

theorem windowPlacement (c : Nat) : Statement (.windowPlacement c) := fun h => nomatch h

theorem taskEnd (c : Nat) : Statement (.taskEnd c) := fun h => nomatch h

theorem steal (core : Nat) : Statement (.steal core) := fun h => nomatch h

theorem frameReady (c : Nat) : Statement (.frameReady c) := fun h => nomatch h

theorem viewMerge (c : Nat) (i : Fin 16) : Statement (.viewMerge c i) := fun h => nomatch h

theorem userMergeRoutine (c : Nat) (i : Fin 16) : Statement (.userMergeRoutine c i) := fun h => nomatch h

theorem hintQueueTake (core : Nat) : Statement (.hintQueueTake core) := fun h => nomatch h

theorem gangStart (c : Nat) : Statement (.gangStart c) := fun h => nomatch h

theorem bargeCommandEntry (c : Nat) : Statement (.bargeCommandEntry c) := fun h => nomatch h

theorem copyStart (core : Nat) : Statement (.copyStart core) := fun h => nomatch h

theorem copyLineCommit (core k : Nat) : Statement (.copyLineCommit core k) := fun h => nomatch h

theorem copyCompletion (core k : Nat) : Statement (.copyCompletion core k) := fun h => nomatch h

theorem tagWaitCompletion (core k : Nat) : Statement (.tagWaitCompletion core k) := fun h => nomatch h

theorem tensorCommandEntry (c : Nat) : Statement (.tensorCommandEntry c) := fun h => nomatch h

theorem tensorCommandDispatch (core : Nat) : Statement (.tensorCommandDispatch core) := fun h => nomatch h

theorem tensorCommandCompletion (core : Nat) : Statement (.tensorCommandCompletion core) := fun h => nomatch h

theorem latchPairing (raft : Nat) : Statement (.latchPairing raft) := fun h => nomatch h

theorem launchStart (slot : Nat) : Statement (.launchStart slot) := fun h => nomatch h

theorem launchCompletion (slot : Nat) : Statement (.launchCompletion slot) := fun h => nomatch h

theorem preemptionRequest (slot : Nat) : Statement (.preemptionRequest slot) := fun h => nomatch h

theorem contextSave (slot : Nat) : Statement (.contextSave slot) := fun h => nomatch h

theorem stopTimeout (slot : Nat) : Statement (.stopTimeout slot) := fun h => nomatch h

theorem contextResume (slot : Nat) : Statement (.contextResume slot) := fun h => nomatch h

theorem doorbell (queue : Nat) (tail : BitVec 64) : Statement (.doorbell queue tail) := fun h => nomatch h

theorem bar0RegisterWrite (off : Nat) (value : BitVec 64) : Statement (.bar0RegisterWrite off value) := fun h => nomatch h

theorem bar2Write (off : Nat) (data : List (BitVec 8)) : Statement (.bar2Write off data) := fun h => nomatch h

theorem bar2Read (off len : Nat) : Statement (.bar2Read off len) := fun h => nomatch h

theorem bar2AtomicOp (off : Nat) (w64 : Bool) (op : PcieOp) (operand compare : BitVec 64) : Statement (.bar2AtomicOp off w64 op operand compare) := fun h => nomatch h

theorem keyload (slot : Nat) (wrapped : BitVec 512) : Statement (.keyload slot wrapped) := fun h => nomatch h

theorem keydestroy (slot : Nat) : Statement (.keydestroy slot) := fun h => nomatch h

theorem preempt (queue : Nat) : Statement (.preempt queue) := fun h => nomatch h

theorem checkpoint (queue : Nat) (dest : CkptPlace) : Statement (.checkpoint queue dest) := fun h => nomatch h

theorem checkpointCopyDone (queue : Nat) : Statement (.checkpointCopyDone queue) := fun h => nomatch h

theorem restore (queue : Nat) (source : CkptPlace) : Statement (.restore queue source) := fun h => nomatch h

theorem fwstage (host len : Nat) : Statement (.fwstage host len) := fun h => nomatch h

theorem sensors (host : Nat) : Statement (.sensors host) := fun h => nomatch h

theorem window (i : Fin 64) (lo hi : BitVec 64) : Statement (.window i lo hi) := fun h => nomatch h

theorem bar2set (base key : BitVec 64) : Statement (.bar2set base key) := fun h => nomatch h

theorem evread (host first count : Nat) : Statement (.evread host first count) := fun h => nomatch h

theorem peerInboundAccess (src off : Nat) (access : PeerAccess) : Statement (.peerInboundAccess src off access) := fun h => nomatch h

theorem linkStateChange (peer : Nat) (state : LinkState) : Statement (.linkStateChange peer state) := fun h => nomatch h

theorem linkTimeout (c : Nat) : Statement (.linkTimeout c) := fun h => nomatch h

theorem fenceWaitEnd (c : Nat) : Statement (.fenceWaitEnd c) := fun h => nomatch h

theorem dieFailure (die : Nat) : Statement (.dieFailure die) := fun h => nomatch h

theorem powerCap (mw : Nat) : Statement (.powerCap mw) := fun h => nomatch h

theorem thermalTrip (die : Nat) : Statement (.thermalTrip die) := fun h => nomatch h

theorem redirectCompletion (c : Nat) (pc : BitVec 57) : Statement (.redirectCompletion c pc) := fun h => nomatch h

theorem podBarrierMessage (msg : PodMessage) : Statement (.podBarrierMessage msg) := fun h => nomatch h

theorem rft : Statement .rft := by
  intro _
  refine ⟨?_, by simp [encodeExt, encodeRx_length, encodeMx_length]⟩
  simp only [encodeBody, pack]
  omega

theorem rotationTick : Statement .rotationTick := fun h => nomatch h

theorem fwactivate : Statement .fwactivate := fun h => nomatch h

theorem coldReset : Statement .coldReset := fun h => nomatch h

theorem warmReset : Statement .warmReset := fun h => nomatch h

end Sys2Proof.Laws.EncodeShape
end

