-- ==== Sys2Proof/Laws/Vector.lean ====
section
/-! SUPPORT. What the shared issue of a vector instruction does: it writes the active positions of its destination, raises
their flags, and changes nothing else. -/
namespace Sys2Proof.Machine
open Sys2Proof.Claims

/-! ### Bits of positions -/

theorem tag_split (T : Fin 16) : tagWidth T * tagCount T = 64 ∧ 64 / tagCount T = tagWidth T ∧ 0 < tagWidth T ∧ 0 < tagCount T := by
  revert T; decide

theorem testBit_elemOf (w e : Nat) (x : Dword) (i : Nat) :
    (elemOf w e x).testBit i = (decide (i < w) && x.getLsbD (w * e + i)) := by
  simp [elemOf, Nat.testBit_mod_two_pow, Nat.testBit_div_two_pow, BitVec.getLsbD, Nat.add_comm]

theorem getLsbD_posMask (w e k : Nat) (hk : k < 64) :
    (posMask w e).getLsbD k = decide (w * e ≤ k ∧ k < w * e + w) := by
  simp only [posMask, BitVec.getLsbD_ofNat, Nat.testBit_mul_two_pow, Nat.testBit_two_pow_sub_one]
  by_cases h : w * e ≤ k
  · simp [hk, h]; omega
  · simp [hk, h]

theorem getLsbD_place (w e x k : Nat) (hk : k < 64) :
    (BitVec.ofNat 64 (x % 2 ^ w * 2 ^ (w * e))).getLsbD k = (decide (w * e ≤ k ∧ k < w * e + w) && x.testBit (k - w * e)) := by
  simp only [BitVec.getLsbD_ofNat, Nat.testBit_mul_two_pow, Nat.testBit_mod_two_pow]
  by_cases h : w * e ≤ k <;> simp [hk, h]
  by_cases h2 : k < w * e + w
  · have : k - w * e < w := by omega
    simp [this, h2]
  · have : ¬ k - w * e < w := by omega
    simp [this, h2]

/-- A bit of a list of words joined by OR. -/
theorem getLsbD_orList {α : Type} {n : Nat} (l : List α) (f : α → BitVec n) (z : BitVec n) (k : Nat) :
    (l.foldl (fun m x => m ||| f x) z).getLsbD k = (z.getLsbD k || l.any fun x => (f x).getLsbD k) := by
  induction l generalizing z with
  | nil => simp
  | cons a l ih => simp [ih, Bool.or_assoc]

theorem getLsbD_orZero {α : Type} {n : Nat} (l : List α) (f : α → BitVec n) (k : Nat) :
    (l.foldl (fun m x => m ||| f x) 0).getLsbD k = l.any fun x => (f x).getLsbD k := by
  rw [getLsbD_orList]
  exact (congrArg (· || _) (BitVec.getLsbD_zero (w := n) (i := k))).trans (Bool.false_or _)

/-- Positions of width w are disjoint. -/
theorem pos_unique {w e e' k : Nat} (h : w * e ≤ k ∧ k < w * e + w) (h' : w * e' ≤ k ∧ k < w * e' + w) : e = e' := by
  rcases Nat.lt_trichotomy e e' with hl | rfl | hl
  · have : w * (e + 1) ≤ w * e' := Nat.mul_le_mul_left _ hl
    rw [Nat.mul_add] at this; omega
  · rfl
  · have : w * (e' + 1) ≤ w * e := Nat.mul_le_mul_left _ hl
    rw [Nat.mul_add] at this; omega

/-! ### Writes to several threads of one register -/

theorem Regs.readV_writeV (r : Regs) (i j : Fin 64) (t u : Fin 32) (m x : Dword) (T : Fin 16) :
    (r.writeV i t m x T).readV j u =
      if j = i ∧ u = t then ⟨((r.readV i t).val &&& ~~~m) ||| (x &&& m), T⟩ else r.readV j u := by
  simp only [Regs.writeV, Regs.readV, Fin.getElem_fin, Vector.getElem_set]
  by_cases h1 : i = j
  · subst h1
    by_cases h2 : t = u
    · subst h2; simp
    · have : ¬ t.val = u.val := fun h => h2 (Fin.ext h)
      have h3 : ¬ u = t := fun h => h2 h.symm
      simp [this, h3]
  · have : ¬ i.val = j.val := fun h => h1 (Fin.ext h)
    have h3 : ¬ j = i := fun h => h1 h.symm
    simp [this, h3]

/-- The writes of a list of threads to v[d]. -/
def vWrites (d : Fin 64) (l : List (Fin 32)) (m x : Fin 32 → Dword) (T : Fin 32 → Fin 16) : List RegWrite :=
  l.map fun t => .v d t (m t) (x t) (T t)

theorem Regs.applyAll_rest (r : Regs) (d : Fin 64) (l : List (Fin 32)) (m x : Fin 32 → Dword) (T : Fin 32 → Fin 16) :
    { r.applyAll (vWrites d l m x T) with v := r.v } = r := by
  induction l generalizing r with
  | nil => rfl
  | cons a l ih =>
    have := ih (r.writeV d a (m a) (x a) (T a))
    simp only [Regs.applyAll, vWrites, List.map_cons, List.foldl_cons, Regs.apply] at this ⊢
    generalize List.foldl Regs.apply (r.writeV d a (m a) (x a) (T a)) _ = q at this ⊢
    cases q; cases r
    simp [Regs.writeV] at this ⊢
    exact this

theorem Regs.readV_applyAll (r : Regs) (d : Fin 64) (l : List (Fin 32)) (hl : l.Nodup) (m x : Fin 32 → Dword) (T : Fin 32 → Fin 16)
    (j : Fin 64) (u : Fin 32) :
    (r.applyAll (vWrites d l m x T)).readV j u =
      if j = d ∧ u ∈ l then ⟨((r.readV d u).val &&& ~~~m u) ||| (x u &&& m u), T u⟩ else r.readV j u := by
  induction l generalizing r with
  | nil => simp [Regs.applyAll, vWrites]
  | cons a l ih =>
    have hn := List.nodup_cons.mp hl
    have h := ih (r.writeV d a (m a) (x a) (T a)) hn.2
    simp only [Regs.applyAll, vWrites, List.map_cons, List.foldl_cons, Regs.apply] at h ⊢
    rw [h]
    simp only [Regs.readV_writeV, List.mem_cons]
    by_cases hj : j = d
    · subst hj
      by_cases hu : u = a
      · subst hu; simp [hn.1]
      · by_cases hm : u ∈ l <;> simp [hu, hm]
    · simp [hj]

theorem State.lanes_nodup (s : State) : s.lanes.Nodup := (List.nodup_finRange 32).filter _

/-! ### One thread -/

/-- What `elem` gives position `e` of thread `t`. -/
def VOp.at (v : VOp) (r : Regs) (t : Fin 32) (e : Nat) : Option (Nat × FpFlags) :=
  v.elem (v.tags r t) (v.ops.map fun o => o.whole r t)
    (fun k i => match v.ops[k]? with | some o => o.scale r t i | none => 0) t e
    (match v.dst with
      | .v d => elemOf (tagWidth (v.count (v.tags r t))) e (r.readV d t).val
      | _ => 0)

/-- The positions that a thread writes, with their values and flags. -/
def VOp.results (v : VOp) (r : Regs) (g : Guard) (t : Fin 32) : List (Nat × Nat × FpFlags) :=
  (v.active r g t).filterMap fun e => (v.at r t e).map fun x => (e, x)

def VOp.mask (v : VOp) (r : Regs) (g : Guard) (t : Fin 32) : Dword :=
  (v.results r g t).foldl (fun m x => m ||| posMask (tagWidth (v.count (v.tags r t))) x.1) 0
def VOp.value (v : VOp) (r : Regs) (g : Guard) (t : Fin 32) : Dword :=
  (v.results r g t).foldl (fun m x => m ||| BitVec.ofNat 64 (x.2.1 % 2 ^ tagWidth (v.count (v.tags r t)) *
    2 ^ (tagWidth (v.count (v.tags r t)) * x.1))) 0
def VOp.flags (v : VOp) (r : Regs) (g : Guard) (t : Fin 32) : FpFlags :=
  (v.results r g t).foldl (fun f x => f ||| x.2.2) 0

theorem VOp.thread_v (v : VOp) (r : Regs) (g : Guard) (t : Fin 32) (d : Fin 64) (hd : v.dst = .v d) :
    v.thread r g t = (.v d t (v.mask r g t) (v.value r g t) ((v.result (v.tags r t)).getD 0), v.flags r g t) := by
  unfold VOp.thread VOp.mask VOp.value VOp.flags VOp.results VOp.at
  cases v; cases hd; rfl

theorem VOp.mem_results (v : VOp) (r : Regs) (g : Guard) (t : Fin 32) (e : Nat) (x : Nat × FpFlags) :
    (e, x) ∈ v.results r g t ↔
      e < tagCount (v.count (v.tags r t)) ∧ posActive r g (tagCount (v.count (v.tags r t))) t e = true ∧ v.at r t e = some x := by
  simp only [VOp.results, VOp.active, activePos, List.mem_filterMap, List.mem_filter, List.mem_range]
  constructor
  · rintro ⟨e', ⟨h1, h2⟩, h3⟩
    cases h : v.at r t e' with
    | none => simp [h] at h3
    | some y => simp [h] at h3; obtain ⟨rfl, rfl⟩ := h3; exact ⟨h1, h2, h⟩
  · rintro ⟨h1, h2, h3⟩; exact ⟨e, ⟨h1, h2⟩, by simp [h3]⟩

/-- Bit `i` of an active position with a value is written, and every other bit of an active or idle position is not. -/
theorem VOp.mask_bit (v : VOp) (r : Regs) (g : Guard) (t : Fin 32) (e i : Nat)
    (he : e < tagCount (v.count (v.tags r t))) (hi : i < tagWidth (v.count (v.tags r t))) :
    (v.mask r g t).getLsbD (tagWidth (v.count (v.tags r t)) * e + i) =
      (posActive r g (tagCount (v.count (v.tags r t))) t e && (v.at r t e).isSome) := by
  obtain ⟨hw, -, -, -⟩ := tag_split (v.count (v.tags r t))
  generalize hW : tagWidth (v.count (v.tags r t)) = w at *
  have hk : w * e + i < 64 := by
    have : w * (e + 1) ≤ w * tagCount (v.count (v.tags r t)) := Nat.mul_le_mul_left _ he
    rw [Nat.mul_add] at this; omega
  rw [VOp.mask, hW, getLsbD_orZero, Bool.eq_iff_iff]
  simp only [List.any_eq_true, getLsbD_posMask _ _ _ hk, decide_eq_true_eq, Bool.and_eq_true]
  constructor
  · rintro ⟨⟨e', x⟩, hm, hp⟩
    have := pos_unique hp (⟨by omega, by omega⟩ : w * e ≤ w * e + i ∧ w * e + i < w * e + w)
    simp only at this; subst this
    have := (v.mem_results r g t _ x).mp hm
    exact ⟨this.2.1, by simp [this.2.2]⟩
  · rintro ⟨hp, hs⟩
    obtain ⟨x, hx⟩ := Option.isSome_iff_exists.mp hs
    exact ⟨(e, x), (v.mem_results r g t e x).mpr ⟨he, hp, hx⟩, ⟨by simp, by simpa using hi⟩⟩

theorem VOp.value_bit (v : VOp) (r : Regs) (g : Guard) (t : Fin 32) (e i : Nat) (x : Nat × FpFlags)
    (he : e < tagCount (v.count (v.tags r t))) (hi : i < tagWidth (v.count (v.tags r t)))
    (hp : posActive r g (tagCount (v.count (v.tags r t))) t e = true) (hx : v.at r t e = some x) :
    (v.value r g t).getLsbD (tagWidth (v.count (v.tags r t)) * e + i) = x.1.testBit i := by
  obtain ⟨hw, -, -, -⟩ := tag_split (v.count (v.tags r t))
  generalize hW : tagWidth (v.count (v.tags r t)) = w at *
  have hk : w * e + i < 64 := by
    have : w * (e + 1) ≤ w * tagCount (v.count (v.tags r t)) := Nat.mul_le_mul_left _ he
    rw [Nat.mul_add] at this; omega
  rw [VOp.value, hW, getLsbD_orZero, Bool.eq_iff_iff]
  simp only [List.any_eq_true, getLsbD_place _ _ _ _ hk, decide_eq_true_eq, Bool.and_eq_true]
  constructor
  · rintro ⟨⟨e', y⟩, hm, hb, ht⟩
    have := pos_unique hb (⟨by omega, by omega⟩ : w * e ≤ w * e + i ∧ w * e + i < w * e + w)
    simp only at this; subst this
    have := ((v.mem_results r g t _ y).mp hm).2.2
    rw [hx] at this; cases this
    simpa using ht
  · intro ht
    exact ⟨(e, x), (v.mem_results r g t e x).mpr ⟨he, hp, hx⟩, ⟨by simp, by simpa using hi⟩, by simpa using ht⟩

/-! ### The shared issue -/

/-- The position count that the guard is counted in, and the result tag, by thread. -/
def VOp.n (v : VOp) (r : Regs) (t : Fin 32) : Nat := tagCount (v.count (v.tags r t))
def VOp.T (v : VOp) (r : Regs) (t : Fin 32) : Fin 16 := (v.result (v.tags r t)).getD 0

theorem VOp.mem_activeLanes (v : VOp) (r : Regs) (g : Guard) (l : List (Fin 32)) (t : Fin 32) :
    t ∈ v.activeLanes r g l ↔ t ∈ l ∧ ∃ e < v.n r t, posActive r g (v.n r t) t e = true := by
  simp only [VOp.activeLanes, VOp.active, activePos, List.mem_filter, VOp.n]
  refine and_congr_right fun _ => ?_
  rw [Bool.not_eq_true', List.isEmpty_eq_false_iff_exists_mem]
  simp

theorem elemOf_eq {w e : Nat} {x : Dword} {y : Nat} (h : ∀ i < w, x.getLsbD (w * e + i) = y.testBit i) : elemOf w e x = y % 2 ^ w := by
  apply Nat.eq_of_testBit_eq; intro i
  rw [testBit_elemOf, Nat.testBit_mod_two_pow]
  by_cases hi : i < w
  · simp [hi, h i hi]
  · simp [hi]

theorem elemOf_congr {w e : Nat} {x y : Dword} (h : ∀ i < w, x.getLsbD (w * e + i) = y.getLsbD (w * e + i)) :
    elemOf w e x = elemOf w e y := by
  apply Nat.eq_of_testBit_eq; intro i
  rw [testBit_elemOf, testBit_elemOf]
  by_cases hi : i < w
  · simp [hi, h i hi]
  · simp [hi]

/-- The writes of a vector instruction to v[d]. -/
def VOp.writes (v : VOp) (r : Regs) (g : Guard) (l : List (Fin 32)) (d : Fin 64) : List RegWrite :=
  vWrites d (v.activeLanes r g l) (v.mask r g) (v.value r g) (v.T r)

theorem VOp.writes_spec (v : VOp) (r : Regs) (g : Guard) (l : List (Fin 32)) (hl : l.Nodup) (d : Fin 64) :
    VWrites r (r.applyAll (v.writes r g l d)) d l g (v.n r) (v.T r) fun t e => (v.at r t e).map (·.1) := by
  have hn : (v.activeLanes r g l).Nodup := hl.filter _
  have hbits : ∀ t ∈ l, ∀ e < v.n r t, ∀ i < tagWidth (v.count (v.tags r t)),
      tagWidth (v.count (v.tags r t)) * e + i < 64 := by
    intro t _ e he i hi
    obtain ⟨hw, -, -, -⟩ := tag_split (v.count (v.tags r t))
    have : tagWidth (v.count (v.tags r t)) * (e + 1) ≤ tagWidth (v.count (v.tags r t)) * tagCount (v.count (v.tags r t)) :=
      Nat.mul_le_mul_left _ he
    rw [Nat.mul_add] at this; omega
  constructor
  · intro t ht e he hp x hx
    have hm : t ∈ v.activeLanes r g l := (v.mem_activeLanes r g l t).mpr ⟨ht, e, he, hp⟩
    rw [VOp.writes, Regs.readV_applyAll _ _ _ hn]
    simp only [hm, and_self, if_true]
    obtain ⟨y, hy, rfl⟩ := Option.map_eq_some_iff.mp hx
    have hw := (tag_split (v.count (v.tags r t))).2.1
    show elemOf (64 / tagCount _) e _ = y.1 % 2 ^ (64 / tagCount _)
    rw [hw]
    refine elemOf_eq fun i hi => ?_
    have h1 := v.mask_bit r g t e i he hi
    have h2 := v.value_bit r g t e i y he hi hp hy
    simp only [VOp.n] at hp
    simp [h1, h2, hp, hy]
  · intro t ht e he hk
    rw [VOp.writes, Regs.readV_applyAll _ _ _ hn]
    split
    · have hw := (tag_split (v.count (v.tags r t))).2.1
      show elemOf (64 / tagCount _) e _ = elemOf (64 / tagCount _) e _
      rw [hw]
      refine elemOf_congr fun i hi => ?_
      have h1 := v.mask_bit r g t e i he hi
      have h3 := hbits t ht e he i hi
      rcases hk with hk | hk
      · simp only [VOp.n] at hk
        simp only [BitVec.getLsbD_or, BitVec.getLsbD_and, BitVec.getLsbD_not, h1, h3, hk]; simp
      · have : v.at r t e = none := by simpa using hk
        simp only [BitVec.getLsbD_or, BitVec.getLsbD_and, BitVec.getLsbD_not, h1, h3, this]; simp
    · rfl
  · rintro t ht ⟨e, he, hp⟩
    have hm : t ∈ v.activeLanes r g l := (v.mem_activeLanes r g l t).mpr ⟨ht, e, he, hp⟩
    rw [VOp.writes, Regs.readV_applyAll _ _ _ hn]
    simp [hm]
  · intro t ht
    have hm : t ∉ v.activeLanes r g l := fun h => by
      obtain ⟨h1, e, he, hp⟩ := (v.mem_activeLanes r g l t).mp h
      rcases ht with ht | ht
      · exact ht h1
      · simp [ht e he] at hp
    rw [VOp.writes, Regs.readV_applyAll _ _ _ hn]
    simp [hm]
  · intro d' hd' t
    rw [VOp.writes, Regs.readV_applyAll _ _ _ hn]
    simp [hd']
  · exact Regs.applyAll_rest ..

theorem VOp.flags_spec (v : VOp) (r : Regs) (g : Guard) (l : List (Fin 32)) :
    RaisedBy r l g (v.n r) (fun t e => ((v.at r t e).map (·.2)).getD 0)
      ((v.activeLanes r g l).foldl (fun f t => f ||| v.flags r g t) 0) := by
  intro k hk
  simp only [getLsbD_orZero, List.any_eq_true, VOp.flags]
  constructor
  · rintro ⟨t, ht, ⟨e, x⟩, hm, hb⟩
    have h := (v.mem_results r g t e x).mp hm
    exact ⟨t, ((v.mem_activeLanes r g l t).mp ht).1, e, h.1, h.2.1, by simpa [h.2.2] using hb⟩
  · rintro ⟨t, ht, e, he, hp, hb⟩
    cases h : v.at r t e with
    | none => simp [h] at hb
    | some x =>
      exact ⟨t, (v.mem_activeLanes r g l t).mpr ⟨ht, e, he, hp⟩, (e, x), (v.mem_results r g t e x).mpr ⟨he, hp, h⟩,
        by simpa [h] using hb⟩

/-- The undo log takes v[d] where it has room (R209). -/
theorem logV_room (d : Fin 64) (s : State) (k : State → State) (h : Room s d) :
    logV (.v d) s k = k { s with focus := { s.focus with chunk := logged d s.focus.chunk } } := by
  unfold logV logged
  by_cases hd : d ∈ s.focus.chunk.logV
  · simp [hd]
  · have : ¬ 256 < s.focus.chunk.logUnits + 10 := by rcases h with h | h <;> [exact absurd h hd; omega]
    simp [hd, this]

/-- Marking the threads of a v or q destination leaves what is in flight alone (R25, R63). -/
theorem Regs.marks_inflight (l : List (Fin 32)) (file : RegFile) (n : Fin 64) (flag : Fin 12) (r : Regs) :
    (l.foldl (fun r t => r.addMark file n t flag) r).inflight = r.inflight := by
  induction l generalizing r with
  | nil => rfl
  | cons t l ih =>
    rw [List.foldl_cons, ih]
    unfold Regs.addMark
    split <;> rfl

/-- A held result with one v or q destination: its markers, and one more instruction in flight. -/
theorem State.holdResult_v (s : State) (flag : Fin 12) (kind : LongKind) (d : Fin 64) (lanes : List (Fin 32)) (ws : List RegWrite)
    (fp : BitVec 6) : s.holdResult flag kind [.v d] lanes ws fp = s.mapR fun r =>
      { r.markDst lanes flag (.v d) with inflight := r.inflight ++ [⟨flag, kind, ws, fp, false, []⟩] } := by
  simp only [State.holdResult, List.foldl_cons, List.foldl_nil, Regs.markDst, Regs.marks_inflight]
theorem State.holdResult_q (s : State) (flag : Fin 12) (kind : LongKind) (d : Fin 8) (lanes : List (Fin 32)) (ws : List RegWrite)
    (fp : BitVec 6) : s.holdResult flag kind [.q d] lanes ws fp = s.mapR fun r =>
      { r.markDst lanes flag (.q d) with inflight := r.inflight ++ [⟨flag, kind, ws, fp, false, []⟩] } := by
  simp only [State.holdResult, List.foldl_cons, List.foldl_nil, Regs.markDst, Regs.marks_inflight]

/-- A vector instruction to v[d] that meets no marker, whose tags are accepted and for which the undo log has room,
writes its active positions, raises their flags, and changes nothing else. -/
theorem State.vecIssue_v (s : State) (v : VOp) (g : Guard) (ll : Option (Fin 12 × LongKind)) (post : Regs → Regs) (d : Fin 64)
    (hd : v.dst = .v d)
    (hz : v.hazard s.focus.r s.clause.header.wait g s.lanes (v.activeLanes s.focus.r g s.lanes) = none)
    (hf : v.formatOk s.focus.r (v.activeLanes s.focus.r g s.lanes) = true) (hr : Room s d) :
    ∃ ws fp, VWrites s.focus.r (s.focus.r.applyAll ws) d s.lanes g (v.n s.focus.r) (v.T s.focus.r)
        (fun t e => (v.at s.focus.r t e).map (·.1)) ∧
      RaisedBy s.focus.r s.lanes g (v.n s.focus.r) (fun t e => ((v.at s.focus.r t e).map (·.2)).getD 0) fp ∧
      s.vecIssue v g ll post = withCrew s (post (settled s.focus.r s.lanes (.v d) ll ws fp)) (logged d s.focus.chunk) := by
  refine ⟨_, _, v.writes_spec s.focus.r g s.lanes s.lanes_nodup d, v.flags_spec s.focus.r g s.lanes, ?_⟩
  have hth : (v.activeLanes s.focus.r g s.lanes).map (v.thread s.focus.r g) =
      (v.activeLanes s.focus.r g s.lanes).map fun t =>
        (RegWrite.v d t (v.mask s.focus.r g t) (v.value s.focus.r g t) (v.T s.focus.r t), v.flags s.focus.r g t) :=
    List.map_congr_left fun t _ => v.thread_v s.focus.r g t d hd
  unfold State.vecIssue
  simp only [hz, hf, if_true, hd, logV_room _ _ _ hr, hth, List.map_map, List.foldl_map]
  cases ll with
  | none => rfl
  | some x => simp only [State.deliver, State.holdResult_v]; rfl

/-! ### When it issues -/

theorem Regs.hazard_none (r : Regs) (uses : List Use) :
    r.hazard uses = none ↔ ∀ u ∈ uses, ∀ t ∈ u.lanes, r.marked u.file u.num t = false := by
  simp only [Regs.hazard, Option.map_eq_none_iff, List.find?_eq_none, List.any_eq_true, not_exists, not_and, Bool.not_eq_true]

/-- Every position of a thread that is no index route has the feed of position 0. -/
theorem routeFeed_pos (rt : Route) (ix : Dword) (t : Fin 32) (e : Nat) (h : ∀ v b, rt ≠ .idx v b) :
    routeFeed rt ix t e = routeFeed rt 0 t 0 := by
  cases rt <;> first | rfl | exact absurd rfl (h _ _)

theorem Operand.hazard_none (s : State) (o : Operand) (t : Fin 32) (h : Readable s o t) :
    o.hazard s.focus.r s.clause.header.wait s.lanes t = none := by
  obtain ⟨h1, h2, h3⟩ := h
  have hpos := (tag_split (o.tag s.focus.r t)).2.2.2
  have hix : (match o.route with
      | .idx v _ => if s.focus.r.marked .v v.val t then some v.val else none
      | _ => none) = none := by
    split
    · rename_i v b he; simp [h1 v b he]
    · rfl
  have hlane : ((o.feeds s.focus.r t).any fun f => match f with
      | .lane l => hasLane s.focus.r.tmask l && s.focus.r.markedRead s.clause.header.wait o.reg.val l
      | _ => false) = false := by
    rw [List.any_eq_false]
    intro f hf
    have : ∃ e < tagCount (o.tag s.focus.r t), f = routeFeed o.route (o.index s.focus.r t) t e := by
      unfold Operand.feeds at hf
      split at hf
      · simp at hf
      · simp only [List.mem_map, List.mem_range] at hf
        obtain ⟨e, he, hfe⟩ := hf; exact ⟨e, he, hfe.symm⟩
      · rename_i hne hni
        simp only [List.mem_singleton] at hf
        exact ⟨0, hpos, hf.trans (routeFeed_pos _ _ _ _ fun v b => hni v b).symm⟩
    obtain ⟨e, he, rfl⟩ := this
    have := h2 e he
    split
    · rename_i l hl
      rw [hl] at this
      by_cases hm : hasLane s.focus.r.tmask l = true
      · simp [this hm]
      · simp [hm]
    · simp
  have hown : ((o.route == .none || routeFeed o.route (o.index s.focus.r t) t 0 == .own) && s.focus.r.marked .v o.reg.val t) = false := by
    by_cases hr : routeFeed o.route (o.index s.focus.r t) t 0 = .own
    · have := h2 0 hpos; rw [hr] at this; simp only at this; simp [this]
    · have : ¬ o.route = .none := fun hc => hr (by rw [hc]; rfl)
      simp [hr, this]
  unfold Operand.hazard
  dsimp only
  split
  · rename_i n hn; exact absurd (hn.symm.trans hix) (by simp)
  · have hc := congrArg₂ (· || ·) hlane hown
    rw [if_neg (fun h => absurd (h.symm.trans hc) (by simp)), if_neg]
    intro h
    simp only [Bool.and_eq_true, beq_iff_eq, List.any_eq_true] at h
    obtain ⟨hm, u, hu, hk⟩ := h
    exact absurd (hk.symm.trans (h3 hm u hu)) (by simp)

theorem allSame_iff (l : List (Fin 16)) : allSame l = true ↔ ∀ x ∈ l, ∀ y ∈ l, x = y := by
  cases l with
  | nil => simp [allSame]
  | cons a l =>
    simp only [allSame, List.all_eq_true, beq_iff_eq, List.mem_cons, forall_eq_or_imp]
    constructor
    · intro h
      exact ⟨⟨trivial, fun y hy => (h y hy).symm⟩, fun x hx => ⟨h x hx, fun y hy => (h x hx).trans (h y hy).symm⟩⟩
    · intro h x hx; exact (h.2 x hx).1

/-- A vector instruction that is ready, whose other registers bear no marker, meets none. -/
theorem VOp.hazard_none (v : VOp) (s : State) (g : Guard) (h : Ready s g (v.n s.focus.r) v.ops)
    (hu : ∀ u ∈ v.uses (v.activeLanes s.focus.r g s.lanes) ++ v.dst.uses (v.activeLanes s.focus.r g s.lanes),
      ∀ t ∈ u.lanes, s.focus.r.marked u.file u.num t = false) :
    v.hazard s.focus.r s.clause.header.wait g s.lanes (v.activeLanes s.focus.r g s.lanes) = none := by
  unfold VOp.hazard
  have h1 : s.focus.r.hazard [⟨.q, g.q.val, s.lanes⟩] = none := by
    rw [Regs.hazard_none]; intro u hu t ht; simp at hu; subst hu; exact h.guard t ht
  have h2 : ((v.activeLanes s.focus.r g s.lanes).map fun t =>
      v.ops.filterMap fun o => o.hazard s.focus.r s.clause.header.wait s.lanes t).flatten = [] := by
    rw [List.flatten_eq_nil_iff]
    intro l hl
    obtain ⟨t, ht, rfl⟩ := List.mem_map.mp hl
    rw [List.filterMap_eq_nil_iff]
    intro o ho
    exact Operand.hazard_none s o t (h.reads o ho t ((v.mem_activeLanes _ _ _ _).mp ht))
  simp only [h1, h2, (Regs.hazard_none _ _).mpr hu]

/-- It passes the format check where its tags are accepted in every active thread. -/
theorem VOp.formatOk_of (v : VOp) (s : State) (g : Guard) (h : Ready s g (v.n s.focus.r) v.ops)
    (hr : ∀ t, Active s g (v.n s.focus.r) t → (v.result (v.tags s.focus.r t)).isSome = true) :
    v.formatOk s.focus.r (v.activeLanes s.focus.r g s.lanes) = true := by
  have ha : ∀ t, t ∈ v.activeLanes s.focus.r g s.lanes → Active s g (v.n s.focus.r) t :=
    fun t ht => (v.mem_activeLanes _ _ _ _).mp ht
  simp only [VOp.formatOk, Bool.and_eq_true, List.all_eq_true]
  refine ⟨fun o ho => (allSame_iff _).mpr ?_, fun t ht => hr t (ha t ht)⟩
  intro x hx y hy
  simp only [Operand.feedTags, List.mem_flatten, List.mem_map] at hx hy
  obtain ⟨_, ⟨t, ht, rfl⟩, hx⟩ := hx
  obtain ⟨_, ⟨t', ht', rfl⟩, hy⟩ := hy
  simp only [List.mem_map, List.mem_filter] at hx hy
  obtain ⟨f, ⟨hf, hfl⟩, rfl⟩ := hx
  obtain ⟨f', ⟨hf', hfl'⟩, rfl⟩ := hy
  cases f with
  | lane l => cases f' with
    | lane l' => exact h.routes o ho t t' (ha t ht) (ha t' ht') l l' hf hf'
    | _ => simp [Feed.isLane] at hfl'
  | _ => simp [Feed.isLane] at hfl

/-- A write of one thread in q[d]. -/
theorem VOp.thread_q (v : VOp) (r : Regs) (g : Guard) (t : Fin 32) (d : Fin 8) (hd : v.dst = .q d) :
    v.thread r g t = (.q d t ((v.results r g t).foldl (fun m x => m ||| predMask (tagWidth (v.count (v.tags r t))) x.1) 0)
      ((v.results r g t).foldl (fun m x => m ||| (if x.2.1 = 0 then 0 else predMask (tagWidth (v.count (v.tags r t))) x.1)) 0),
      v.flags r g t) := by
  unfold VOp.thread VOp.flags VOp.results VOp.at
  cases v; cases hd; rfl

/-! ### Writes to q registers -/

theorem Regs.readQ_writeQ (r : Regs) (i j : Fin 8) (t u : Fin 32) (m x : Byte) :
    (r.writeQ i t m x).readQ j u =
      if i ≠ 0 ∧ j = i ∧ u = t then ((r.readQ i t) &&& ~~~m) ||| (x &&& m) else r.readQ j u := by
  by_cases hi : i = 0
  · simp [Regs.writeQ, hi]
  · simp only [Regs.writeQ, hi, if_false, Regs.readQ, Fin.getElem_fin, Vector.getElem_set]
    by_cases h1 : i = j
    · subst h1
      by_cases h2 : t = u
      · subst h2; simp [hi]
      · have : ¬ t.val = u.val := fun h => h2 (Fin.ext h)
        have h3 : ¬ u = t := fun h => h2 h.symm
        simp [this, h3, hi]
    · have : ¬ i.val = j.val := fun h => h1 (Fin.ext h)
      have h3 : ¬ j = i := fun h => h1 h.symm
      simp [this, h3]

/-- The writes of a list of threads to q[d]. -/
def qWrites (d : Fin 8) (l : List (Fin 32)) (m x : Fin 32 → Byte) : List RegWrite := l.map fun t => .q d t (m t) (x t)

theorem Regs.applyAll_restQ (r : Regs) (d : Fin 8) (l : List (Fin 32)) (m x : Fin 32 → Byte) :
    { r.applyAll (qWrites d l m x) with q := r.q } = r := by
  induction l generalizing r with
  | nil => rfl
  | cons a l ih =>
    have := ih (r.writeQ d a (m a) (x a))
    simp only [Regs.applyAll, qWrites, List.map_cons, List.foldl_cons, Regs.apply] at this ⊢
    generalize List.foldl Regs.apply (r.writeQ d a (m a) (x a)) _ = q at this ⊢
    by_cases hd : d = 0
    · simpa [Regs.writeQ, hd] using this
    · cases q; cases r
      simp [Regs.writeQ, hd] at this ⊢
      exact this

theorem Regs.readQ_applyAll (r : Regs) (d : Fin 8) (l : List (Fin 32)) (hl : l.Nodup) (m x : Fin 32 → Byte) (j : Fin 8) (u : Fin 32) :
    (r.applyAll (qWrites d l m x)).readQ j u =
      if d ≠ 0 ∧ j = d ∧ u ∈ l then ((r.readQ d u) &&& ~~~m u) ||| (x u &&& m u) else r.readQ j u := by
  induction l generalizing r with
  | nil => simp [Regs.applyAll, qWrites]
  | cons a l ih =>
    have hn := List.nodup_cons.mp hl
    have h := ih (r.writeQ d a (m a) (x a)) hn.2
    simp only [Regs.applyAll, qWrites, List.map_cons, List.foldl_cons, Regs.apply] at h ⊢
    rw [h]
    simp only [Regs.readQ_writeQ, List.mem_cons]
    by_cases h0 : d = 0
    · simp [h0]
    · by_cases hj : j = d
      · subst hj
        by_cases hu : u = a
        · subst hu; simp [hn.1, h0]
        · by_cases hm : u ∈ l <;> simp [hu, hm, h0]
      · simp [hj]

theorem getLsbD_predMask (w e k : Nat) (hk : k < 8) :
    (predMask w e).getLsbD k = decide (w / 8 * e ≤ k ∧ k < w / 8 * e + w / 8) := by
  simp only [predMask, BitVec.getLsbD_ofNat, Nat.testBit_mul_two_pow, Nat.testBit_two_pow_sub_one]
  by_cases h : w / 8 * e ≤ k
  · simp [hk, h]; omega
  · simp [hk, h]

theorem pred_split (T : Fin 16) : tagWidth T / 8 * tagCount T = 8 ∧ 8 / tagCount T = tagWidth T / 8 ∧ 0 < tagWidth T / 8 := by
  revert T; decide

/-- The masks of a thread's write to a q register. -/
def VOp.qmask (v : VOp) (r : Regs) (g : Guard) (t : Fin 32) : Byte :=
  (v.results r g t).foldl (fun m x => m ||| predMask (tagWidth (v.count (v.tags r t))) x.1) 0
def VOp.qvalue (v : VOp) (r : Regs) (g : Guard) (t : Fin 32) : Byte :=
  (v.results r g t).foldl (fun m x => m ||| (if x.2.1 = 0 then 0 else predMask (tagWidth (v.count (v.tags r t))) x.1)) 0

theorem VOp.qbits (v : VOp) (r : Regs) (g : Guard) (t : Fin 32) (k : Nat) (hk : k < 8) :
    let e := k / (8 / v.n r t)
    e < v.n r t ∧ (v.qmask r g t).getLsbD k = (posActive r g (v.n r t) t e && (v.at r t e).isSome) ∧
    ∀ x, posActive r g (v.n r t) t e = true → v.at r t e = some x → (v.qvalue r g t).getLsbD k = decide (x.1 ≠ 0) := by
  intro e
  obtain ⟨hw, hq, hw0⟩ := pred_split (v.count (v.tags r t))
  have hn : 8 / v.n r t = tagWidth (v.count (v.tags r t)) / 8 := hq
  have hmul : tagWidth (v.count (v.tags r t)) / 8 * v.n r t = 8 := hw
  generalize hW : tagWidth (v.count (v.tags r t)) / 8 = w at *
  have hmask : ∀ e', (predMask (tagWidth (v.count (v.tags r t))) e').getLsbD k = decide (w * e' ≤ k ∧ k < w * e' + w) := by
    intro e'; rw [getLsbD_predMask _ _ _ hk, hW]
  generalize hTW : tagWidth (v.count (v.tags r t)) = tw at *
  have heq : e = k / w := by show k / (8 / v.n r t) = k / w; rw [hn]
  have hpos : w * e ≤ k ∧ k < w * e + w := by
    rw [heq]; have h1 := Nat.div_add_mod k w; have h2 := Nat.mod_lt k hw0; omega
  have he : e < v.n r t := by
    rw [heq]; exact Nat.div_lt_of_lt_mul (by omega)
  refine ⟨he, ?_, ?_⟩
  · rw [VOp.qmask, hTW, getLsbD_orZero, Bool.eq_iff_iff]
    simp only [List.any_eq_true, hmask, decide_eq_true_eq, Bool.and_eq_true]
    constructor
    · rintro ⟨⟨e', x⟩, hm, hp⟩
      have := pos_unique hp hpos; simp only at this; subst this
      have := (v.mem_results r g t _ x).mp hm
      exact ⟨this.2.1, by simp [this.2.2]⟩
    · rintro ⟨hp, hs⟩
      obtain ⟨x, hx⟩ := Option.isSome_iff_exists.mp hs
      exact ⟨(e, x), (v.mem_results r g t e x).mpr ⟨he, hp, hx⟩, hpos⟩
  · intro x hp hx
    rw [VOp.qvalue, hTW, getLsbD_orZero, Bool.eq_iff_iff]
    simp only [List.any_eq_true, decide_eq_true_eq]
    constructor
    · rintro ⟨⟨e', y⟩, hm, hb⟩
      split at hb
      · exact absurd (hb.symm.trans BitVec.getLsbD_zero) (by simp)
      · rename_i hy
        rw [hmask, decide_eq_true_eq] at hb
        have := pos_unique hb hpos; simp only at this; subst this
        have := ((v.mem_results r g t _ y).mp hm).2.2
        rw [hx] at this; cases this; exact hy
    · intro h0
      exact ⟨(e, x), (v.mem_results r g t e x).mpr ⟨he, hp, hx⟩, by simp [h0, hmask, hpos]⟩

/-- A vector instruction to q[d] that meets no marker and whose tags are accepted, and that gives every active position a
value, writes their bits, raises their flags, and changes nothing else. -/
theorem State.vecIssue_q (s : State) (v : VOp) (g : Guard) (ll : Option (Fin 12 × LongKind)) (post : Regs → Regs) (d : Fin 8)
    (hd : v.dst = .q d)
    (hz : v.hazard s.focus.r s.clause.header.wait g s.lanes (v.activeLanes s.focus.r g s.lanes) = none)
    (hf : v.formatOk s.focus.r (v.activeLanes s.focus.r g s.lanes) = true)
    (hs : ∀ t e, (v.at s.focus.r t e).isSome = true) :
    ∃ ws fp, QWrites s.focus.r (s.focus.r.applyAll ws) d s.lanes g (v.n s.focus.r)
        (fun t e => decide (((v.at s.focus.r t e).map (·.1)).getD 0 ≠ 0)) ∧
      RaisedBy s.focus.r s.lanes g (v.n s.focus.r) (fun t e => ((v.at s.focus.r t e).map (·.2)).getD 0) fp ∧
      s.vecIssue v g ll post = withCrew s (post (settled s.focus.r s.lanes (.q d) ll ws fp)) s.focus.chunk := by
  have hnd : (v.activeLanes s.focus.r g s.lanes).Nodup := s.lanes_nodup.filter _
  refine ⟨qWrites d (v.activeLanes s.focus.r g s.lanes) (v.qmask s.focus.r g) (v.qvalue s.focus.r g), _, ?_,
    v.flags_spec s.focus.r g s.lanes, ?_⟩
  · constructor
    · intro h0 t ht k hk hp
      obtain ⟨he, h1, h2⟩ := v.qbits s.focus.r g t k hk
      have hm : t ∈ v.activeLanes s.focus.r g s.lanes := (v.mem_activeLanes _ _ _ _).mpr ⟨ht, _, he, hp⟩
      obtain ⟨x, hx⟩ := Option.isSome_iff_exists.mp (hs t (k / (8 / v.n s.focus.r t)))
      rw [Regs.readQ_applyAll _ _ _ hnd]
      simp only [h0, hm, and_self, if_true, ne_eq, not_false_eq_true]
      rw [BitVec.getLsbD_or, BitVec.getLsbD_and, BitVec.getLsbD_and, BitVec.getLsbD_not, h1, h2 x hp hx, hp, hx]
      simp
    · intro t k hk h
      rw [Regs.readQ_applyAll _ _ _ hnd]
      split
      · rename_i hc
        obtain ⟨he, h1, -⟩ := v.qbits s.focus.r g t k hk
        rcases h with h | h
        · exact absurd ((v.mem_activeLanes _ _ _ _).mp hc.2.2).1 h
        · rw [BitVec.getLsbD_or, BitVec.getLsbD_and, BitVec.getLsbD_and, BitVec.getLsbD_not, h1, h]; simp [hk]
      · rfl
    · intro d' hd' t
      rw [Regs.readQ_applyAll _ _ _ hnd]; simp [hd']
    · exact Regs.applyAll_restQ ..
  · have hth : (v.activeLanes s.focus.r g s.lanes).map (v.thread s.focus.r g) =
        (v.activeLanes s.focus.r g s.lanes).map fun t =>
          (RegWrite.q d t (v.qmask s.focus.r g t) (v.qvalue s.focus.r g t), v.flags s.focus.r g t) :=
      List.map_congr_left fun t _ => v.thread_q s.focus.r g t d hd
    unfold State.vecIssue
    simp only [hz, hf, if_true, hd, logV, hth, List.map_map, List.foldl_map]
    cases ll with
    | none => rfl
    | some x => simp only [State.deliver, State.holdResult_q]; rfl

/-! ### The claims' terms -/

/-- Only the issuing lanes' counts, tags and values matter to what a vector instruction writes. -/
theorem VWrites_congr {r w : Regs} {d : Fin 64} {l : List (Fin 32)} {g : Guard} {n n' : Fin 32 → Nat} {T T' : Fin 32 → Fin 16}
    {f f' : Fin 32 → Nat → Option Nat} (h : VWrites r w d l g n T f) (hn : ∀ t ∈ l, n t = n' t)
    (hT : ∀ t ∈ l, (∃ e < n t, posActive r g (n t) t e = true) → T t = T' t)
    (hf : ∀ t ∈ l, ∀ e < n t, posActive r g (n t) t e = true →
      (f t e).map (· % 2 ^ (64 / n t)) = (f' t e).map (· % 2 ^ (64 / n t))) :
    VWrites r w d l g n' T' f' := by
  obtain ⟨ha, hk, ht, hi, ho, hr⟩ := h
  refine ⟨?_, ?_, ?_, ?_, ho, hr⟩
  · intro t htl e he hp x hx
    rw [← hn t htl] at he hp ⊢
    have := hf t htl e he hp
    rw [hx] at this
    obtain ⟨y, hy, hyx⟩ := Option.map_eq_some_iff.mp this
    rw [ha t htl e he hp y hy, hyx]
  · intro t htl e he h
    rw [← hn t htl] at he h ⊢
    by_cases hp : posActive r g (n t) t e = true
    · refine hk t htl e he (Or.inr ?_)
      have := hf t htl e he hp
      rcases h with h | h
      · rw [hp] at h; cases h
      · simpa [h] using this
    · exact hk t htl e he (Or.inl (by simpa using hp))
  · rintro t htl ⟨e, he, hp⟩
    rw [← hn t htl] at he hp
    rw [ht t htl ⟨e, he, hp⟩, hT t htl ⟨e, he, hp⟩]
  · intro t h
    by_cases htl : t ∈ l
    · exact hi t (Or.inr (by rcases h with h | h; exact absurd htl h; rw [hn t htl]; exact h))
    · exact hi t (Or.inl htl)

theorem RaisedBy_congr {r : Regs} {l : List (Fin 32)} {g : Guard} {n n' : Fin 32 → Nat} {F F' : Fin 32 → Nat → FpFlags} {fp : FpFlags}
    (h : RaisedBy r l g n F fp) (hn : ∀ t ∈ l, n t = n' t)
    (hF : ∀ t ∈ l, ∀ e < n t, posActive r g (n t) t e = true → F t e = F' t e) : RaisedBy r l g n' F' fp := by
  intro k hk
  rw [h k hk]
  constructor
  · rintro ⟨t, ht, e, he, hp, hb⟩
    exact ⟨t, ht, e, hn t ht ▸ he, hn t ht ▸ hp, hF t ht e he hp ▸ hb⟩
  · rintro ⟨t, ht, e, he, hp, hb⟩
    rw [← hn t ht] at he hp
    exact ⟨t, ht, e, he, hp, by rw [hF t ht e he hp]; exact hb⟩

theorem Active_congr {s : State} {g : Guard} {n n' : Fin 32 → Nat} {t : Fin 32} (hn : ∀ t ∈ s.lanes, n t = n' t) :
    Active s g n t ↔ Active s g n' t :=
  and_congr_right fun h => by rw [hn t h]

theorem Ready_congr {s : State} {g : Guard} {n n' : Fin 32 → Nat} {ops : List Operand} (h : Ready s g n ops)
    (hn : ∀ t ∈ s.lanes, n t = n' t) : Ready s g n' ops :=
  ⟨h.guard, fun o ho t ht => h.reads o ho t ((Active_congr hn).mpr ht),
    fun o ho t t' ht ht' => h.routes o ho t t' ((Active_congr hn).mpr ht) ((Active_congr hn).mpr ht')⟩

/-- The sum of fields of width w at their places, and one field of it. -/
theorem places_lt (w n : Nat) (g : Nat → Nat) (hg : ∀ i < n, g i < 2 ^ w) :
    ((List.range n).map fun i => g i * 2 ^ (w * i)).sum < 2 ^ (w * n) := by
  induction n with
  | zero => simp
  | succ n ih =>
    have h1 := ih fun i hi => hg i (by omega)
    have h2 := hg n (by omega)
    rw [List.range_succ, List.map_append, List.sum_append, Nat.mul_add, Nat.pow_add, Nat.mul_one]
    simp only [List.map_cons, List.map_nil, List.sum_cons, List.sum_nil, Nat.add_zero]
    have h3 : (g n + 1) * 2 ^ (w * n) ≤ 2 ^ w * 2 ^ (w * n) := Nat.mul_le_mul_right _ h2
    rw [Nat.add_mul, Nat.one_mul] at h3
    have h4 : 2 ^ (w * n) * 2 ^ w = 2 ^ w * 2 ^ (w * n) := Nat.mul_comm ..
    omega

theorem places_get (w n : Nat) (g : Nat → Nat) (hg : ∀ i < n, g i < 2 ^ w) (e : Nat) (he : e < n) :
    ((List.range n).map fun i => g i * 2 ^ (w * i)).sum / 2 ^ (w * e) % 2 ^ w = g e := by
  induction n with
  | zero => omega
  | succ n ih =>
    rw [List.range_succ, List.map_append, List.sum_append]
    simp only [List.map_cons, List.map_nil, List.sum_cons, List.sum_nil, Nat.add_zero]
    by_cases hen : e = n
    · subst hen
      have h1 := places_lt w e g fun i hi => hg i (by omega)
      rw [Nat.add_mul_div_right _ _ (by positivity), Nat.div_eq_of_lt h1, Nat.zero_add, Nat.mod_eq_of_lt (hg e he)]
    · have hlt : e < n := by omega
      have h2 : g n * 2 ^ (w * n) = g n * 2 ^ (w * (n - e - 1)) * 2 ^ w * 2 ^ (w * e) := by
        rw [Nat.mul_assoc, Nat.mul_assoc, ← Nat.pow_add, ← Nat.pow_add]
        congr 2
        have : n = (n - e - 1) + 1 + e := by omega
        conv_lhs => rw [this]
        ring
      rw [h2, Nat.add_mul_div_right _ _ (by positivity), Nat.add_mul_mod_self_right]
      exact ih (fun i hi => hg i (by omega)) hlt

theorem Operand.elem_lt (r : Regs) (o : Operand) (t : Fin 32) (e : Nat) : o.elem r t e < 2 ^ tagWidth (o.tag r t) := by
  unfold Operand.elem
  dsimp only
  split
  · exact Nat.mod_lt _ (by positivity)
  · positivity
  · split
    · exact Nat.mod_lt _ (by positivity)
    · positivity

/-- A position of the joined value of an operand is the element read. -/
theorem Operand.elemOf_whole (r : Regs) (o : Operand) (t : Fin 32) (e : Nat) (he : e < tagCount (o.tag r t)) :
    elemOf (tagWidth (o.tag r t)) e (o.whole r t) = o.elem r t e := by
  unfold Operand.whole
  split
  · rename_i h
    unfold Operand.elem routeFeed
    simp [h]
  · have hlt := places_lt _ (tagCount (o.tag r t)) (o.elem r t) fun i _ => o.elem_lt r t i
    have h64 := (tag_split (o.tag r t)).1
    rw [h64] at hlt
    unfold elemOf
    rw [BitVec.toNat_ofNat, Nat.mod_eq_of_lt hlt]
    exact places_get _ _ _ (fun i _ => o.elem_lt r t i) e he

/-! ### A whole instruction -/

/-- An instruction that issues a vector operation runs as VRuns says, where its operands are ready, its destination is
free, its tags are accepted, and the operation gives the stated elements and flags at the active positions. -/
theorem VRuns_of (i : Instr) (s : State) (v : VOp) (d : Fin 64) (g : Guard) (ll : Option (Fin 12 × LongKind)) (post : Regs → Regs)
    (n : Fin 32 → Nat) (T : Fin 32 → Fin 16) (f : Fin 32 → Nat → Option Nat) (F : Fin 32 → Nat → FpFlags)
    (hi : exec i s = .next (s.vecIssue v g ll post)) (hd : v.dst = .v d) (hn : ∀ t ∈ s.lanes, v.n s.focus.r t = n t)
    (hready : Ready s g n v.ops) (hdst : DstFree s g n d)
    (hu : ∀ u ∈ v.uses (v.activeLanes s.focus.r g s.lanes), ∀ t ∈ u.lanes, s.focus.r.marked u.file u.num t = false)
    (hres : ∀ t, Active s g n t → v.result (v.tags s.focus.r t) = some (T t))
    (hat : ∀ t, Active s g n t → ∀ e < n t, ((v.at s.focus.r t e).map fun x => (x.1 % 2 ^ (64 / n t), x.2)) =
      (f t e).map fun x => (x % 2 ^ (64 / n t), F t e))
    (hF : ∀ t e, Active s g n t → f t e = none → F t e = 0) :
    VRuns i s d g n T ll post f F := by
  have hact : ∀ t, t ∈ v.activeLanes s.focus.r g s.lanes → Active s g n t := fun t ht =>
    (Active_congr hn).mp ((v.mem_activeLanes _ _ _ _).mp ht)
  have hr' := Ready_congr hready fun t ht => (hn t ht).symm
  have hz := v.hazard_none s g hr' (by
    intro u hu' t ht
    rcases List.mem_append.mp hu' with h | h
    · exact hu u h t ht
    · rw [hd] at h; simp [Dst.uses] at h; subst h; exact hdst.1 t (hact t ht))
  have hf := v.formatOk_of s g hr' (fun t ht => by rw [hres t ((Active_congr hn).mp ht)]; rfl)
  obtain ⟨ws, fp, h1, h2, h3⟩ := s.vecIssue_v v g ll post d hd hz hf hdst.2
  refine ⟨ws, fp, VWrites_congr h1 hn ?_ ?_, RaisedBy_congr h2 hn ?_, by rw [Runs, hi, h3]⟩
  · intro t ht ha; simp [VOp.T, hres t ((Active_congr hn).mp ⟨ht, ha⟩)]
  · intro t ht e he hp
    have ha : Active s g n t := (Active_congr hn).mp ⟨ht, e, he, hp⟩
    have := hat t ha e (hn t ht ▸ he)
    rw [← hn t ht] at this
    cases h : v.at s.focus.r t e <;> cases h' : f t e <;> simp_all
  · intro t ht e he hp
    have ha : Active s g n t := (Active_congr hn).mp ⟨ht, e, he, hp⟩
    have := hat t ha e (hn t ht ▸ he)
    cases h : v.at s.focus.r t e <;> cases h' : f t e <;> simp_all

/-! ### A crew without pending markers -/

/-- No register of the crew in focus bears a marker, and all its v registers have one tag. -/
structure Clean (s : State) (T : Fin 16) : Prop where
  marks : s.focus.r.marks = []
  tags : ∀ k t, (s.focus.r.readV k t).tag = T

theorem Clean.marked {s : State} {T : Fin 16} (h : Clean s T) (f : RegFile) (n : Nat) (t : Fin 32) :
    s.focus.r.marked f n t = false := by simp [Regs.marked, h.marks]

theorem Clean.noMark {s : State} {T : Fin 16} (h : Clean s T) (f : RegFile) (n : Nat) : NoMark s f n := fun t _ => h.marked f n t

theorem Clean.tag {s : State} {T : Fin 16} (h : Clean s T) (o : Operand) (t : Fin 32) : o.tag s.focus.r t = T := by
  unfold Operand.tag Operand.feedTag
  split <;> [split <;> exact h.tags _ _; exact h.tags _ _]

theorem Clean.readable {s : State} {T : Fin 16} (h : Clean s T) (o : Operand) (t : Fin 32) : Readable s o t := by
  refine ⟨fun v b _ => h.marked _ _ _, fun e _ => ?_, fun _ u _ => h.marked _ _ _⟩
  split
  · intro _; simp [Regs.markedRead, h.marks]
  · exact h.marked _ _ _
  · trivial

theorem Clean.ready {s : State} {T : Fin 16} (h : Clean s T) (g : Guard) (n : Fin 32 → Nat) (ops : List Operand) : Ready s g n ops := by
  refine ⟨h.noMark _ _, fun o _ t _ => h.readable o t, fun o _ t t' _ _ l l' _ _ => ?_⟩
  simp only [Operand.feedTag, h.tags, ite_self]

theorem Clean.dstFree {s : State} {T : Fin 16} (h : Clean s T) (g : Guard) (n : Fin 32 → Nat) (d : Fin 64) (hr : Room s d) :
    DstFree s g n d := ⟨fun _ _ => h.marked _ _ _, hr⟩

theorem Clean.oneTag {s : State} {T : Fin 16} (h : Clean s T) (g : Guard) (ok : Fin 16 → Bool) (hok : ok T = true) (ops : List Operand) :
    OneTag s g ok ops fun _ => T :=
  ⟨fun t _ o _ => h.tag o t, fun t _ => ⟨hok, fun o _ => h.tag o t⟩⟩

end Sys2Proof.Machine
end

