-- ==== Sys2Proof/Tests/Slice0.lean ====
section
/-! SUPPORT. Tests: ill-formed terms that WellFormed refuses; words from the spec's encodings; single steps from its worked
examples; and, for every statement with hypotheses, states and operands that meet them. -/
namespace Sys2Proof.Tests
set_option Elab.async false
open Sys2Proof.Machine Sys2Proof.Claims

/-! ### Witnesses: states and operands that meet a statement's hypotheses -/

/-- A crew of two threads that issues word 1 of a clause of two words; every v register holds the same under tag T, the
registers `other` under tag U. -/
def regsOf (T U : Fin 16) (other : Fin 64) : Regs :=
  { Regs.reset with
    v := (Vector.replicate 64 (Vector.replicate 32 ⟨0x3C003C003F800000, T⟩)).set other (Vector.replicate 32 ⟨0x40000000C0000000, U⟩)
    tmask := 3, frontier := [⟨0x1000, 3, 0, false⟩], csp := Vector.replicate 32 64, spmSize := 8 }
def wordClause : Clause := ⟨0x1000, ⟨2, .seq, 0, 3, 4, false, false, 0⟩, [0, 0], 1, 3, none, none, false, false⟩
def crewOf (r : Regs) : Crew :=
  { Crew.empty with
    uid := 1, r := r, shadow := r, cur := some wordClause, phase := .run, chunk := { Chunk.empty with first := 0x1000, clauses := 1 }
    task := { Task.none with launch := 100, kind := .root } }
def mixed (T U : Fin 16) (other : Fin 64) : State := { State.reset with focus := crewOf (regsOf T U other), uids := 200 }
/-- The same with one tag everywhere. -/
def plain (T : Fin 16) : State := mixed T T 63

theorem plain_clean (T : Fin 16) : Clean (plain T) T := by
  refine ⟨rfl, fun k t => ?_⟩
  simp only [plain, mixed, crewOf, regsOf, Regs.readV, Fin.getElem_fin, Vector.getElem_set, Vector.getElem_replicate]
  split <;> simp

/-- Where no marker stands, an operand without a route is readable. -/
theorem ready_own {s : State} (h : s.focus.r.marks = []) (g : Guard) (n : Fin 32 → Nat) (ops : List Operand)
    (ho : ∀ o ∈ ops, o.route = .none) : Ready s g n ops := by
  refine ⟨fun t _ => by simp [Regs.marked, h], fun o hm t _ => ?_, fun o hm t t' _ _ l l' hl _ => by simp [Operand.feeds, ho o hm] at hl⟩
  refine ⟨fun v b hv => by rw [ho o hm] at hv; simp at hv, fun e _ => ?_, fun _ u _ => by simp [Regs.marked, h]⟩
  simp [ho o hm, routeFeed, Regs.marked, h]

theorem room_mixed (T U : Fin 16) (k d : Fin 64) : Room (mixed T U k) d := .inr (show 0 + 10 ≤ 256 by decide)
theorem mixed_ready (T U : Fin 16) (k : Fin 64) (n : Fin 32 → Nat) (l : List (Fin 64)) :
    Ready (mixed T U k) ⟨false, 0⟩ n (l.map fun a => ⟨a, .none⟩) :=
  ready_own rfl _ _ _ (by simp)
theorem mixed_free (T U : Fin 16) (k d : Fin 64) (n : Fin 32 → Nat) : DstFree (mixed T U k) ⟨false, 0⟩ n d :=
  ⟨fun t _ => by simp [Regs.marked, mixed, crewOf, regsOf, Regs.reset], room_mixed T U k d⟩

/-- Both threads of `plain` are active in every position, whatever the operands. -/
theorem plain_active : ∀ t ∈ (plain 1).lanes, Active (plain 1) ⟨false, 0⟩ (counts fun _ => 1) t := by
  unfold Active; decide
theorem plain_lanes : (plain 1).lanes = [0, 1] := by decide

theorem witness_UniformInstructions : (∀ f n, NoMark (plain 1) f n) ∧ hasLane (plain 1).focus.r.tmask 1 = true ∧
    hasLane (plain 1).focus.r.tmask 2 = false ∧ (plain 1).focus.r.marked .v 63 1 = false :=
  ⟨fun f n => (plain_clean 1).noMark f n, by decide, by decide, (plain_clean 1).marked ..⟩

/-- Any operands with any routes and any guard. -/
theorem witness_VectorIntegerArithmetic (rx : Option Rx) (ops : List Operand) (d : Fin 64) :
    OneTag (plain 1) (rxGuard rx) tagInt ops (fun _ => 1) ∧ OneTag (plain 1) (rxGuard rx) tagSigned ops (fun _ => 1) ∧
      Ready (plain 1) (rxGuard rx) (counts fun _ => 1) ops ∧ DstFree (plain 1) (rxGuard rx) (counts fun _ => 1) d :=
  ⟨(plain_clean 1).oneTag _ _ rfl _, (plain_clean 1).oneTag _ _ rfl _, (plain_clean 1).ready .., (plain_clean 1).dstFree _ _ _ (room_mixed ..)⟩

theorem witness_VectorLogic (rx : Option Rx) (a : Operand) (ops : List Operand) (d : Fin 64) :
    (∀ t ∈ (plain 5).lanes, 5 = logicT ((a :: ops).map fun o => o.tag (plain 5).focus.r t)) ∧
      Ready (plain 5) (rxGuard rx) (counts fun _ => 5) (a :: ops) ∧ DstFree (plain 5) (rxGuard rx) (counts fun _ => 5) d := by
  refine ⟨fun t _ => ?_, (plain_clean 5).ready .., (plain_clean 5).dstFree _ _ _ (room_mixed ..)⟩
  simp [logicT, (plain_clean 5).tag, tHND]

theorem witness_VectorMovesAndPredicates (rx : Option Rx) (ops : List Operand) (n : Fin 32 → Nat) (a : Fin 64) (q : Fin 8) :
    OneTag (plain 3) (rxGuard rx) anyTag ops (fun _ => 3) ∧ OneTag (plain 3) (rxGuard rx) (· != tHND) ops (fun _ => 3) ∧
      OneTag (plain 3) (rxGuard rx) tagInt ops (fun _ => 3) ∧ Ready (plain 3) (rxGuard rx) n ops ∧ DstFree (plain 3) (rxGuard rx) n a ∧
      UsesS (plain 3) (rxGuard rx) n a ∧ UsesQ (plain 3) (rxGuard rx) n q ∧ NoMark (plain 3) .q (rxGuard rx).q.val :=
  ⟨(plain_clean 3).oneTag _ _ rfl _, (plain_clean 3).oneTag _ _ rfl _, (plain_clean 3).oneTag _ _ rfl _, (plain_clean 3).ready ..,
    (plain_clean 3).dstFree _ _ _ (room_mixed ..), fun _ => (plain_clean 3).noMark _ _, fun _ _ => (plain_clean 3).marked ..,
    (plain_clean 3).noMark _ _⟩

/-- Threads 0 and 1 participate where no guard is written, and none where it is q0 negated. -/
theorem witness_CrossLaneInstructions : participants (plain 3) ⟨false, 0⟩ = [0, 1] ∧ participants (plain 3) ⟨true, 0⟩ = [] ∧
    (∀ g ops, Ready (plain 3) g one ops) ∧ (∀ g d, DstFree (plain 3) g one d) ∧ (∀ g q, UsesQ (plain 3) g one q) :=
  ⟨by decide, by decide, fun _ _ => (plain_clean 3).ready .., fun _ _ => (plain_clean 3).dstFree _ _ _ (room_mixed ..),
    fun _ _ _ _ => (plain_clean 3).marked ..⟩

/-- Each kind of route at the edge of its lanes. -/
theorem witness_RoutedReads : (31 : Fin 32).val = ((0 : Fin 32).val + 32 - (1 : Fin 32).val) % 32 ∧ (31 : Fin 32).val = (0 : Fin 32).val ^^^ (31 : Fin 32).val ∧
    (0 : Fin 32).val + (31 : Fin 32).val = (31 : Fin 32).val ∧ (0 : Fin 32).val < (1 : Fin 32).val ∧ 32 ≤ (31 : Fin 32).val + (1 : Fin 32).val ∧
    (31 : Fin 32).val = (31 : Fin 32).val / 2 ^ (4 : Fin 8).val * 2 ^ (4 : Fin 8).val + (15 : Fin 32).val := by decide

theorem witness_FloatSums (rx : Option Rx) (ops : List Operand) (d : Fin 64) :
    (OneTag (plain 11) (rxGuard rx) tagBin ops (fun _ => 11) ∧ Ready (plain 11) (rxGuard rx) (counts fun _ => 11) ops ∧
      DstFree (plain 11) (rxGuard rx) (counts fun _ => 11) d) ∧
    (Ready (mixed tF16 tF32 3) ⟨false, 0⟩ (counts fun _ => tF32) [⟨1, .none⟩, ⟨2, .none⟩, ⟨3, .none⟩] ∧
      DstFree (mixed tF16 tF32 3) ⟨false, 0⟩ (counts fun _ => tF32) d) ∧
    (∀ t ∈ (mixed tF16 tF32 3).lanes, (⟨1, .none⟩ : Operand).tag (mixed tF16 tF32 3).focus.r t = tF16 ∧
      (⟨2, .none⟩ : Operand).tag (mixed tF16 tF32 3).focus.r t = tF16 ∧ (⟨3, .none⟩ : Operand).tag (mixed tF16 tF32 3).focus.r t = tF32) ∧
    ∀ t ∈ (mixed tM8 tF32 3).lanes, (⟨1, .none⟩ : Operand).tag (mixed tM8 tF32 3).focus.r t = tM8 ∧
      (⟨2, .none⟩ : Operand).tag (mixed tM8 tF32 3).focus.r t = tM8 ∧ (⟨3, .none⟩ : Operand).tag (mixed tM8 tF32 3).focus.r t = tF32 :=
  ⟨⟨(plain_clean 11).oneTag _ _ rfl _, (plain_clean 11).ready .., (plain_clean 11).dstFree _ _ _ (room_mixed ..)⟩,
    ⟨mixed_ready _ _ _ _ [1, 2, 3], mixed_free ..⟩, by decide, by decide⟩

theorem witness_FloatSelection (rx : Option Rx) (ops : List Operand) (d : Fin 64) :
    OneTag (plain 12) (rxGuard rx) tagBin ops (fun _ => 12) ∧ Ready (plain 12) (rxGuard rx) (counts fun _ => 12) ops ∧
      DstFree (plain 12) (rxGuard rx) (counts fun _ => 12) d :=
  ⟨(plain_clean 12).oneTag _ _ rfl _, (plain_clean 12).ready .., (plain_clean 12).dstFree _ _ _ (room_mixed ..)⟩

theorem witness_TagInstructions (rx : Option Rx) (ops : List Operand) (n : Fin 32 → Nat) (d : Fin 64) (o : Operand) (t : Fin 32) :
    o.tag (plain 0).focus.r t ≠ tHND ∧ Ready (plain 0) (rxGuard rx) n ops ∧ DstFree (plain 0) (rxGuard rx) n d ∧ NoMark (plain 0) .s d.val ∧
      Room (plain 0) d :=
  ⟨by rw [(plain_clean 0).tag]; decide, (plain_clean 0).ready .., (plain_clean 0).dstFree _ _ _ (room_mixed ..), (plain_clean 0).noMark _ _,
    room_mixed ..⟩

theorem witness_FloatInspectionAndScaling (rx : Option Rx) (ops : List Operand) (d : Fin 64) (q : Fin 8) :
    (OneTag (plain 9) (rxGuard rx) tagBin ops (fun _ => 9) ∧ Ready (plain 9) (rxGuard rx) (counts fun _ => 9) ops ∧
      DstFree (plain 9) (rxGuard rx) (counts fun _ => 9) d ∧ UsesQ (plain 9) (rxGuard rx) (counts fun _ => 9) q) ∧
    (∀ t ∈ (mixed 11 3 2).lanes, (⟨1, .none⟩ : Operand).tag (mixed 11 3 2).focus.r t = 11 ∧
      (⟨2, .none⟩ : Operand).tag (mixed 11 3 2).focus.r t = intTag true 11) ∧
    Ready (mixed 11 3 2) ⟨false, 0⟩ (counts fun _ => 11) [⟨1, .none⟩, ⟨2, .none⟩] ∧ DstFree (mixed 11 3 2) ⟨false, 0⟩ (counts fun _ => 11) d :=
  ⟨⟨(plain_clean 9).oneTag _ _ rfl _, (plain_clean 9).ready .., (plain_clean 9).dstFree _ _ _ (room_mixed ..), fun _ _ => (plain_clean 9).marked ..⟩,
    by decide, mixed_ready _ _ _ _ [1, 2], mixed_free ..⟩

theorem witness_SpecialFunctions (rx : Option Rx) (ops : List Operand) (d : Fin 64) :
    OneTag (plain 10) (rxGuard rx) (fun T => tagBin T && T != tF64) ops (fun _ => 10) ∧ Ready (plain 10) (rxGuard rx) (counts fun _ => 10) ops ∧
      DstFree (plain 10) (rxGuard rx) (counts fun _ => 10) d ∧ tagBin 9 = true ∧ tagBin 12 = true :=
  ⟨(plain_clean 10).oneTag _ _ rfl _, (plain_clean 10).ready .., (plain_clean 10).dstFree _ _ _ (room_mixed ..), rfl, rfl⟩

/-- A half, which rounds to the even 0 and away to 1; sums with a NaN, with both infinities, with one, of zeros of one and
of both signs, and of an exact cancellation. -/
theorem witness_Rounding : |((roundToNat (byCode 1) false 1 (-1)).1 : ℚ) - 1 * 2 ^ (-1 : Int)| = 1 / 2 ∧
    |((roundToNat (byCode 5) false 1 (-1)).1 : ℚ) - 1 * 2 ^ (-1 : Int)| = 1 / 2 ∧
    (([.nan true, .inf true] : List FVal) ≠ [] ∧ nan (.nan true)) ∧
    (FVal.inf true ∈ ([.inf true, .inf false] : List FVal) ∧ FVal.inf false ∈ ([.inf true, .inf false] : List FVal)) ∧
    (([.num false 1 0, .num true 1 0] : List FVal).map rat).sum = 0 ∧ (([.num true 0 0] : List FVal).map rat).sum = 0 ∧
    (([.num false 3 0, .num true 1 0] : List FVal).map rat).sum ≠ 0 := by
  have h1 : (roundToNat (byCode 1) false 1 (-1)).1 = 0 := by decide
  have h5 : (roundToNat (byCode 5) false 1 (-1)).1 = 1 := by decide
  rw [h1, h5]
  refine ⟨by norm_num [abs_of_neg], by norm_num, ⟨by simp, _, rfl⟩, by simp, ?_, ?_, ?_⟩ <;> norm_num [rat]

/-- A conversion of two parts, block scales under two active threads, and exponents with operand B's. -/
theorem witness_Conversions (d : Fin 64) :
    (∀ t ∈ (plain 11).lanes, (⟨1, .none⟩ : Operand).tag (plain 11).focus.r t = 11 ∧ 1 < ratio (tagCount 11) (tagCount 9)) ∧
    Ready (plain 11) ⟨false, 0⟩ (counts fun _ => 9) [⟨1, .none⟩] ∧ DstFree (plain 11) ⟨false, 0⟩ (counts fun _ => 9) d ∧
    (∀ t ∈ (mixed 11 3 2).lanes, tagBin ((⟨1, .none⟩ : Operand).tag (mixed 11 3 2).focus.r t) = true ∧
      (⟨2, .none⟩ : Operand).tag (mixed 11 3 2).focus.r t = tS32 ∧ 3 < ratio (tagCount ((⟨1, .none⟩ : Operand).tag (mixed 11 3 2).focus.r t)) 8) ∧
    Ready (mixed 11 3 2) ⟨false, 0⟩ (counts fun _ => tM8) [⟨1, .none⟩, ⟨2, .none⟩] ∧ DstFree (mixed 11 3 2) ⟨false, 0⟩ (counts fun _ => tM8) d ∧
    UsesS (mixed 11 3 2) ⟨false, 0⟩ (counts fun _ => tM8) (mixed 11 3 2).focus.r.side[d].base ∧
    Ready (mixed 11 3 2) ⟨false, 0⟩ one [⟨1, .none⟩, ⟨2, .none⟩] ∧ DstFree (mixed 11 3 2) ⟨false, 0⟩ one d :=
  ⟨by decide, mixed_ready _ _ _ _ [1], mixed_free .., by decide, mixed_ready _ _ _ _ [1, 2], mixed_free .., fun _ t _ => by
    simp [Regs.marked, mixed, crewOf, regsOf, Regs.reset], mixed_ready _ _ _ _ [1, 2], mixed_free ..⟩

/-- A launch in hardware slot 0, and its packet and descriptor. -/
def packetOf : Packet := ⟨0x1000, 5, 0, 1, 0, 0, 0, 0, 0, 0, 1024, 256, 0, 0, 0, 0, 0x100000⟩
def descOf : Desc := ⟨0x200000, 16, 1, 0x400000, 0, 0, 0x300000, 0x10000, 0, 0, 0x130000, 0x10000⟩
def launchOf : Launch := ⟨100, 1, 7, some 0, packetOf, descOf, false, none, [], [0], [], [], 384, none, false, none, [], 0, [], []⟩

/-- Leaf entries of 64 KiB pages with every right: CHUNKED at 0x100000 and 0x130000, SYSTEM at 0x110000. -/
def tlbOf : List TlbEntry := [⟨0, 0x10, 16, 0x400031F, 0x400080⟩, ⟨0, 0x11, 16, 0x440035F, 0x400088⟩, ⟨0, 0x13, 16, 0x4C0031F, 0x400098⟩]
/-- A clause of one NOP at 0x100000, of one SAFEPT at 0x100080, both landing points. -/
def codeOf (op : Byte) : List Byte := [0xF0, 0x1F, 0, 0x10, 0, 0, 0, op] ++ List.replicate 120 0
def withTlb (s : State) : State :=
  { s with cores := { Core.reset with tlb := tlbOf, code := [⟨0x2000, codeOf 0⟩, ⟨0x2001, codeOf 0x0A⟩] } :: List.replicate 287 Core.reset, sched := { s.sched with launches := [launchOf] } }

/-- v4, v5 and v6 hold addresses on the pages and in the crew's own window, v8 zeros, v7 data of tag T; s likewise. -/
def memRegs (T : Fin 16) : Regs :=
  { regsOf T T 63 with
    cdepth := Vector.replicate 32 1
    v := Vector.ofFn fun k : Fin 64 => Vector.replicate 32 (match k.val with
      | 4 => ⟨0x100000, 8⟩ | 5 => ⟨0x110000, 8⟩ | 6 => ⟨2 ^ 56, 8⟩ | 8 => ⟨0, 8⟩ | _ => ⟨0x3C003C003F800000, T⟩)
    s := Vector.ofFn fun k : Fin 64 => match k.val with
      | 4 => 0x100000 | 5 => 0x110000 | 6 => 2 ^ 56 | 8 => 0 | _ => 0x80 }
/-- The return address 0x100000, in the private slices of threads 0 and 1. -/
def retAddr (k : Nat) : List Host.Cell := (leBytes 8 0x100000).zipIdx.map fun x => (k + x.2, x.1)
def mem (T : Fin 16) : State :=
  let c := crewOf (memRegs T)
  withTlb { State.reset with
    focus := { c with task := { c.task with group := some 0 } }, mem := retAddr 0x130040 ++ retAddr 0x130140, uids := 200 }

theorem mem_free (T : Fin 16) (f n) (l : List (Fin 32)) : FreeIn (mem T) f n l := fun _ _ => rfl
theorem mem_noMark (T : Fin 16) (f n) : NoMark (mem T) f n := fun _ _ => rfl
theorem mem_actives : actives (mem 8) ⟨false, 0⟩ 1 = [0, 1] := by decide

/-- Loads through v6 from the crew's own window, its last bytes for the pair, and through v4 from a CHUNKED page; gathers and
stores by index v8; stores through v5 to a SYSTEM page. Two threads are active. -/
def ownLoc (o : Nat) : Loc := ⟨.spad, 2 ^ 53 + o, BitVec.ofNat 64 (2 ^ 56 + o), false, 0⟩
def pageLoc (o : Nat) : Loc := ⟨.chunked, 0x100000 + o, BitVec.ofNat 64 (0x100000 + o), false, 0⟩
def sysLoc (o : Nat) : Loc := ⟨.system, 0x110000 + o, BitVec.ofNat 64 (0x110000 + o), false, 0⟩
def two (x : Loc) : List Loc := [x, x]
def ldWants (base : Fin 64) (off : Fin 256) (sz : Nat) : List Want :=
  (actives (mem 8) ⟨false, 0⟩ 1).map fun t => ⟨some t, addr (mem 8) base off sz t, sz, idleBytes (mem 8).focus.r ⟨false, 0⟩ 8 t⟩
def gxOf : Gx := ⟨8, 0, false, 3, ⟨false, 0⟩, 0⟩
def gatherWants : List Want :=
  (pairs (mem 8) gxOf 1).map fun p => ⟨some p.1, addr (mem 8) 4 1 8 p.1 + BitVec.ofInt 64 (indexTerm (mem 8) gxOf p.1 p.2), 8, 0⟩

/-- Behind an acquire atomic of the chunk; a reduction of another die's crew outstanding on the page's first line, whose landing
another crew holds. -/
def behindAtomic (s : State) : State := { s with focus := { s.focus with chunk := { s.focus.chunk with holdAll := true } } }
def granting (s : State) : State :=
  { s with
    partials := [⟨1, 0x2000, 0, 64, 0, [(0, 1)]⟩]
    landings := s.landings.set (landingOf 0x2000) ⟨[⟨2, true, true, [], 0, 0⟩], []⟩ }

theorem witness_LoadInstructions :
    Probed forLoad (mem 8) (mem 8) (ldWants 6 127 8) (two (ownLoc 1016)) ∧
    Probed forLoad (mem 8) (mem 8) (ldWants 4 0 8) (two (pageLoc 0)) ∧
    Probed forLoad (mem 8) (mem 8) (ldWants 6 63 16) (two (ownLoc 1008)) ∧
    Probed forLoad (mem 8) (mem 8) gatherWants (two (pageLoc 8)) ∧ IndexFree (mem 8) gxOf 8 ∧
    Probed forLoad (mem 8) (mem 8) [⟨none, (mem 8).focus.r.readS 4 + BitVec.ofNat 64 (255 * 8), 8, 0⟩] [pageLoc 2040] ∧
    (mem 8).focus.chunk.logUnits + 10 * fresh (mem 8) [.v 7, .v 8] ≤ 256 ∧ (∀ f n l, FreeIn (mem 8) f n l) ∧ (∀ f n, NoMark (mem 8) f n) ∧
    (mem 8).holdsLoad = false ∧ (mem 8).mergeReads (two (pageLoc 0)) = (mem 8, true) ∧ (behindAtomic (mem 8)).holdsLoad = true ∧
    ((granting (mem 8)).mergeReads [pageLoc 0]).2 = false :=
  ⟨⟨rfl, [none, none], rfl, rfl⟩, ⟨rfl, [some (0x100000, 16), some (0x100000, 16)], rfl, rfl⟩, ⟨rfl, [none, none], rfl, rfl⟩,
    ⟨rfl, [some (0x100000, 16), some (0x100000, 16)], rfl, rfl⟩, fun _ _ => mem_free _ _ _ _, ⟨rfl, [some (0x100000, 16)], rfl, rfl⟩, by decide, mem_free 8, mem_noMark 8,
    by decide, rfl, by decide, by decide +kernel⟩

theorem witness_Stores :
    Probed forStore (mem 8) (mem 8) ((actives (mem 8) ⟨false, 0⟩ 1).map fun t => ⟨some t, addr (mem 8) 6 127 8 t, 8, 0⟩)
      (two (ownLoc 1016)) ∧
    Probed forStore (mem 8) (mem 8) ((actives (mem 8) ⟨false, 0⟩ 1).map fun t => ⟨some t, addr (mem 8) 4 255 16 t, 16, 0⟩)
      (two (pageLoc 4080)) ∧
    Probed forStore (mem 8) (mem 8) ((actives (mem 8) ⟨false, 0⟩ 1).map fun t => ⟨some t, addr (mem 8) 5 0 8 t, 8, 0⟩)
      (two (sysLoc 0)) ∧
    Probed forStore (mem 8) (mem 8) gatherWants (two (pageLoc 8)) ∧
    (mem 8).focus.chunk.lines + 2 ≤ 32 ∧ (mem 8).focus.chunk.logUnits + 2 * 2 ≤ 256 ∧ Memory.wf (mem 8).mem ∧
    (∀ t ∈ (mem 8).lanes, ((mem 8).focus.r.readV 7 t).tag = 8) ∧ (∀ l ∈ two (sysLoc 0), l.region = .system) ∧
    ∀ l ∈ two (pageLoc 8), l.region ≠ .system :=
  ⟨⟨rfl, [none, none], rfl, rfl⟩, ⟨rfl, [some (0x100000, 16), some (0x100000, 16)], rfl, rfl⟩, ⟨rfl, [some (0x110000, 16), some (0x110000, 16)], rfl, rfl⟩,
    ⟨rfl, [some (0x100000, 16), some (0x100000, 16)], rfl, rfl⟩, by decide, by decide, by decide, by decide, by decide, by decide⟩

/-- The same crew with another clause, and with other registers. -/
def inClause (c : Clause) (s : State) : State := { s with focus := { s.focus with cur := some c } }
def onRegs (f : Regs → Regs) (s : State) : State := { s with focus := { s.focus with r := f s.focus.r, shadow := f s.focus.shadow } }
def supervisor (s : State) : State := onRegs (fun r => { r with flt := { r.flt with sup := true } }) s

/-- The last word of a clause, after an ORD that an access may follow. -/
def lastWord (s : State) : State := { s with focus := { s.focus with cur := some { wordClause with idx := 2 } } }

theorem witness_OrderAndCacheInstructions :
    ordPair 1 (some (.ld 7 6 8 0 none)) = true ∧ (lastWord (mem 8)).clause.idx = (lastWord (mem 8)).clause.header.count.val ∧
    ((mem 8).focus.r.readS 4).toNat % 128 = 0 ∧ ((mem 8).focus.r.readS 1).toNat % 128 = 0 ∧ (mem 8).focus.r.readS 1 ≠ 0 ∧
    ((mem 8).focus.r.readS 4).toNat + ((mem 8).focus.r.readS 1).toNat ≤ 2 ^ 56 ∧ (mem 8).clause.order = none ∧
    ordPair 1 (inClause { wordClause with header := { wordClause.header with cls := .mem }, words := [0, 0x011C6800] } (mem 8)).clause.following = true ∧
    (supervisor (mem 8)).focus.r.flt.sup = true ∧ (∀ f n, NoMark (mem 8) f n) ∧ ∀ f n l, FreeIn (mem 8) f n l :=
  ⟨by decide, by decide, by decide, by decide, by decide, by decide, by decide, by decide, by decide, mem_noMark 8, mem_free 8⟩

/-- A store through v5 + 8 × 4 to the page at 0x110000 passes; through s6 + 1 it is misaligned; past the core's scratchpad,
past the crew's window, and in its last bytes. -/
theorem witness_AccessChecks :
    (∃ f, probeFault (((mem 8).probeAll ⟨true, false, false⟩ true (ldWants 6 128 8)).2) = some f) ∧
    (∃ f, probeFault (((mem 8).probeAll ⟨false, true, false⟩ false ((actives (mem 8) ⟨false, 0⟩ 1).map fun t => ⟨some t, addr (mem 8) 6 128 8 t, 8, 0⟩)).2) = some f) ∧
    (let o := fun (w : Want) => w.addr.toNat - 2 ^ 56
     let base := (mem 8).focus.r.spmBase.toNat * 128
     let size := (mem 8).focus.r.spmSize.toNat * 128
     (let w : Want := ⟨none, 2 ^ 56 + 1, 8, 0⟩; w.addr.toNat % w.size ≠ 0) ∧
     (let w : Want := ⟨none, 2 ^ 56 + 2 ^ 19, 8, 0⟩; w.addr.toNat % w.size = 0 ∧ 2 ^ 19 < base + o w + w.size) ∧
     (let w : Want := ⟨none, 2 ^ 56 + 1024, 8, 0⟩; w.addr.toNat % w.size = 0 ∧ base + o w + w.size ≤ 2 ^ 19 ∧ size < o w + w.size) ∧
     (let w : Want := ⟨none, 2 ^ 56 + 1016, 8, 0⟩; w.addr.toNat % w.size = 0 ∧ base + o w + w.size ≤ 2 ^ 19 ∧ o w + w.size ≤ size ∧
      (mem 8).badAt (keySpad (mem 8).focus.core (base + o w)) w.size = false)) :=
  ⟨⟨_, rfl⟩, ⟨_, rfl⟩, by decide⟩

theorem witness_AtomicsAndReductions :
    Probed (forAtomic true) (mem 8) (mem 8) ((actives (mem 8) ⟨false, 0⟩ 1).map fun t => ⟨some t, ((mem 8).focus.r.readV 4 t).val,
      tagWidth ((mem 8).focus.r.readV 7 t).tag / 8, 0⟩) (two (pageLoc 0)) ∧
    Probed (forAtomic true) (mem 8) (mem 8) [⟨none, (mem 8).focus.r.readS 6, 64 / 8, 0⟩] [ownLoc 0] ∧
    Probed forStore (mem 8) (mem 8) ((actives (mem 8) ⟨false, 0⟩ 1).map fun t => ⟨some t, ((mem 8).focus.r.readV 5 t).val,
      tagWidth ((mem 8).focus.r.readV 7 t).tag / 8, 0⟩) (two (sysLoc 0)) ∧
    (∀ op : Fin 16, op.val ∈ [0, 2, 3, 4, 5, 6, 7, 8, 9] → AtomTag op 8) ∧ (∀ l ∈ two (pageLoc 0) ++ [ownLoc 0, sysLoc 0], AtomPlace false l) ∧
    (∀ t ∈ (mem 8).lanes, AtomTag 9 ((mem 8).focus.r.readV 7 t).tag ∧ ((mem 8).focus.r.readV 9 t).tag = ((mem 8).focus.r.readV 7 t).tag) ∧
    (mem 8).focus.chunk.logUnits + 10 * fresh (mem 8) [.v 7] ≤ 256 ∧ (mem 8).focus.chunk.lines + 2 ≤ 32 :=
  ⟨⟨rfl, [some (0x100000, 16), some (0x100000, 16)], rfl, rfl⟩, ⟨rfl, [none], rfl, rfl⟩, ⟨rfl, [some (0x110000, 16), some (0x110000, 16)], rfl, rfl⟩,
    fun op h => by fin_cases op <;> simp_all [AtomTag], by unfold AtomPlace; decide,
    fun t h => by
      have : ∀ t ∈ (mem 8).lanes, ((mem 8).focus.r.readV 7 t).tag = 8 ∧ ((mem 8).focus.r.readV 9 t).tag = 8 := by decide
      rw [(this t h).1, (this t h).2]; exact ⟨.inl (by decide), rfl⟩,
    by decide, by decide⟩


theorem witness_FrontierUpdate : let l : List Entry := [⟨0x1000, 3, 5, false⟩, ⟨0x1010, 12, 2, false⟩]
    ([0] : List (Fin 32)).Nodup ∧ (l.map Entry.pc).Nodup ∧ (⟨0x1000, 3, 5, false⟩ : Entry) ∈ l ∧
    ∀ t ∈ ([0] : List (Fin 32)), hasLane (3 : Lanes) t = true ∧ ∀ e ∈ l, hasLane e.threads t = true → e.pc = 0x1000 := by decide

theorem witness_Branches : NoMark (mem 8) .s 63 ∧ NoMark (mem 8) .v 0 ∧ NoMark (mem 8) .q 7 ∧ (mem 8).lanes = [0, 1] :=
  ⟨mem_noMark _ _ _, mem_noMark _ _ _, mem_noMark _ _ _, by decide⟩

/-- The last threads exit; and one of two while the other is still to arrive. -/
theorem witness_ThreadExit :
    (let s := mem 8; laneCount (s.focus.r.barArrived &&& ~~~s.clause.lanes) = laneCount (s.focus.r.tmask &&& ~~~(s.focus.r.emask ||| s.clause.lanes))) ∧
    let s := inClause { wordClause with lanes := 1 } (mem 8)
    laneCount (s.focus.r.barArrived &&& ~~~s.clause.lanes) ≠ laneCount (s.focus.r.tmask &&& ~~~(s.focus.r.emask ||| s.clause.lanes)) := by decide

/-- A REP of SADD with D stepped, up to s63 and beyond; the last safe count; instructions in flight. -/
def repClause : Clause := { wordClause with words := [0x0C000000, 0x10F80000] }
theorem witness_SafePointsWaitsRepeats :
    (∃ i j, (inClause repClause (mem 8)).clause.following = some i ∧ stepInstr 8 1 i = some j) ∧
    (inClause repClause (mem 8)).clause.following.bind (stepInstr 8 2) = none ∧ (mem 8).focus.r.safecnt + 63 + 1 < 4096 ∧
    4096 ≤ (onRegs (fun r => { r with safecnt := 4032 }) (mem 8)).focus.r.safecnt + 63 + 1 ∧ (mem 8).focus.r.inflight = [] ∧
    (∃ x ∈ (onRegs (fun r => { r with inflight := [⟨3, .plain, [], 0, false, []⟩] }) (mem 8)).focus.r.inflight, (8 : BitVec 12).getLsbD x.flag.val = true) :=
  ⟨⟨_, _, rfl, rfl⟩, by decide, by decide, by decide, rfl, by decide⟩

set_option maxRecDepth 20000 in
theorem witness_SystemRegisters :
    (∃ x ∈ sysTable (mem 8), x.1 = 0x005 ∧ x.2.1 = .ro) ∧ (∃ x ∈ sysTable (mem 8), x.1 = 0x153 ∧ x.2.1 = .user) ∧
    (∃ x ∈ sysTable (mem 8), x.1 = 0x160 ∧ x.2.1 = .sup) ∧ (∃ x ∈ sysTable (mem 8), x.1 = 0x1C3 ∧ x.2.1 = .hidden) ∧
    (∀ x ∈ sysTable (mem 8), x.1 ≠ 0xFFF) ∧ OutOfRange 0x140 255 ∧ ¬ OutOfRange 0x140 256 ∧ ¬ OutOfRange 0x140 4096 ∧ OutOfRange 0x140 4097 ∧
    OutOfRange 0x152 7 ∧ ¬ OutOfRange 0x152 6 ∧ OutOfRange 0x1C0 9 ∧ ¬ OutOfRange 0x1C0 10 ∧
    (∃ w ∈ crewWrites (mem 8).focus.r 1, w.1 = 0x152) ∧ (∀ w ∈ crewWrites (mem 8).focus.r 1, w.1 ≠ 0x140) ∧
    (supervisor (mem 8)).focus.r.flt.sup = true := by
  unfold OutOfRange
  refine ⟨?_, ?_, ?_, ?_, ?_, by decide, by decide, by decide, by decide, by decide, by decide, by decide, by decide, by decide, by decide, by decide⟩
  all_goals decide

/-- Targets of both threads that pass; targets on a page without a leaf; each check of one target. -/
theorem witness_IndirectTransfers :
    (let ts := (mem 8).lanes.map fun t => (t, ((mem 8).focus.r.readV 4 t).val); ((mem 8).checkTargets true ts).2 = []) ∧
    (let ts := (mem 8).lanes.map fun t => (t, ((mem 8).focus.r.readV 6 t).val); ((mem 8).checkTargets true ts).2 =
      [(0, .prot, 0x100000000000000), (1, .prot, 0x100000000000000)]) ∧
    (2 : Dword).toNat % 4 ≠ 0 ∧ (0x100000000000000 : Dword).toNat % 4 = 0 ∧ 2 ^ 56 ≤ (0x100000000000000 : Dword).toNat ∧
    (0x100000 : Dword).toNat < 2 ^ 56 ∧ ((mem 8).fetchWord (mem 8).focus 0x100000 0).2 = .ok 0x10001FF0 ∧
    ((mem 8).translate ((mem 8).space (mem 8).focus false) ⟨false, false, true⟩ 0x100000).2 = .ok 0x400031F 0x100000 (0x100000, 16) := by
  refine ⟨by decide, by decide, ?_⟩
  decide

/-- Both threads push below CSP 64, and return to 0x100000. -/
theorem witness_CallsAndReturns :
    (∃ s1 ls, Probed forStore (mem 8) s1
      ((mem 8).lanes.map fun t => ⟨some t, BitVec.ofNat 64 (2 ^ 56 + 3 * 2 ^ 32 + ((mem 8).focus.r.csp[t].toNat - 8)), 8, 0⟩) ls ∧ ls.length = 2) ∧
    (∃ s1, (mem 8).probeAll ⟨true, false, false⟩ false ((mem 8).lanes.map fun t => ⟨some t, privVa (mem 8).focus.r.csp[t].toNat, 8, 0⟩) = (s1, s1.probeAll ⟨true, false, false⟩ false
        ((mem 8).lanes.map fun t => ⟨some t, privVa (mem 8).focus.r.csp[t].toNat, 8, 0⟩) |>.2) ∧ s1 = mem 8) ∧
    (∀ t ∈ (mem 8).lanes, 8 ≤ (mem 8).focus.r.csp[t].toNat ∧ (mem 8).focus.r.cdepth[t].toNat < 65535 ∧ (mem 8).focus.r.cdepth[t] ≠ 0) ∧
    (mem 8).focus.chunk.lines + (mem 8).lanes.length ≤ 32 ∧ (mem 8).focus.r.flt.sup = false := by
  refine ⟨⟨mem 8, [⟨.priv, 0x130038, _, false, 0⟩, ⟨.priv, 0x130138, _, false, 0⟩], ⟨rfl, [some (0x130000, 16), some (0x130000, 16)], rfl, rfl⟩, rfl⟩,
    ⟨mem 8, rfl, rfl⟩, by decide, by decide, by decide⟩

/-- A crew in user mode; one in its handler whose launch runs; a marked s7; operands of different tags. -/
theorem witness_FaultsTaken :
    Faultable (mem 8) ∧
    (let s := { supervisor (mem 8) with focus := { (supervisor (mem 8)).focus with trap := some ⟨[], Vector.replicate 32 0, Vector.replicate 32 0, 0, 0, Vector.replicate 4 0, 0, 0x12, 0, Replay.none, []⟩ } }
     s.focus.task.kind ≠ .routine ∧ s.focus.shadow.flt.sup = true ∧ s.focus.trap.isSome ∧ ∃ l ∈ s.sched.launches, l.uid = s.focus.task.launch ∧ l.ended = none) ∧
    ¬ NoMark (onRegs (fun r => { r with marks := [⟨.s, 7, 1, 3⟩] }) (mem 8)) .s 7 ∧
    (∃ t, Active (mixed 2 3 2) ⟨false, 0⟩ (counts fun _ => 2) t ∧ (⟨2, .none⟩ : Operand).tag (mixed 2 3 2).focus.r t ≠ 2) := by
  unfold Faultable NoMark Active
  refine ⟨by decide, by decide, by decide, 0, by decide, by decide⟩

/-- A clause that begins with SAFEPT and spawns in its last word; s4 holds the landing point. The state that the entry's
check leaves. -/
def spawning : State := inClause { wordClause with words := [0x0A000000, 0], idx := 2 } (mem 8)
def spawnChecked (s : State) (x : Fin 64) : State := (s.checkTarget true (s.focus.r.readS x)).1

theorem spawn_ok (x : Fin 64) (uses : List (Fin 64)) (deep : Nat) (s : State) (hm : s.focus.r.marks = []) (hc : s.clause = spawning.clause)
    (ht : (s.checkTarget true (s.focus.r.readS x)).2 = none) (hr : (lastLevel s.focus.r.pedigree).rank ≠ 65535)
    (hd : s.focus.r.pedigree.length + deep ≤ 32) : SpawnOk s (spawnChecked s x) x uses deep 0 none where
  place := ⟨spawnChecked s x, by rw [hc]; decide, Prod.ext rfl ht, by simp [State.liveRecord]⟩
  last := by rw [hc]; decide
  free := fun u _ t _ => by simp [Regs.marked, hm]
  rank := hr
  depth := hd

/-- A pedigree of 31 levels has room for one level more and none for two; one of 30 has none for a split in four; a rank of 65,535 has no successor. -/
def deepPg (n : Nat) (s : State) : State := onRegs (fun r => { r with pedigree := List.replicate n ⟨0, 0⟩ }) s
theorem witness_Spawns :
    SpawnOk spawning (spawnChecked spawning 4) 4 (group 1 7) 2 0 none ∧
    SpawnOk (deepPg 31 spawning) (spawnChecked (deepPg 31 spawning) 4) 4 (group 1 7) 1 0 none ∧
    (spawning.focus.r.readS 10).toNat - (spawning.focus.r.readS 9).toNat ≤ max 1 (spawning.focus.r.readS 11).toNat * 2 ^ 0 ∧
    (let s := onRegs (fun r => { r with s := r.s.set 10 0x200 }) (deepPg 30 spawning)
     max 1 (s.focus.r.readS 11).toNat * 2 ^ 1 < (s.focus.r.readS 10).toNat - (s.focus.r.readS 9).toNat ∧ 31 ≤ s.focus.r.pedigree.length + 1) ∧
    (deepPg 31 spawning).focus.r.pedigree.length = 31 ∧ (deepPg 32 spawning).focus.r.pedigree.length = 32 ∧ (deepPg 32 spawning).clause.safeptOff = some 0 ∧
    ((deepPg 32 spawning).checkTarget true ((deepPg 32 spawning).focus.r.readS 4)).2 = none ∧ ∀ l, AllFree (deepPg 32 spawning) l :=
  ⟨spawn_ok _ _ _ _ rfl rfl (by decide) (by decide) (by decide), spawn_ok _ _ _ _ rfl rfl (by decide) (by decide) (by decide), by decide,
    by decide, by decide, by decide, by decide, by decide, fun _ _ _ _ _ => rfl⟩

theorem witness_SyncPedigreeRandom : spawning.clause.idx = spawning.clause.header.count.val ∧
    (lastLevel spawning.focus.r.pedigree).rank ≠ 65535 ∧ (deepPg 32 spawning).focus.r.pedigree.length ≤ 32 ∧ Room spawning 63 ∧
    NoMark spawning .v 63 ∧ NoMark spawning .s 63 := ⟨by decide, by decide, by decide, .inr (by decide), fun _ _ => rfl, fun _ _ => rfl⟩

/-- Arenas that a request of 0x80 bytes just fits and just exceeds. -/
theorem witness_ArenaLogChunkTrap :
    (let s := onRegs (fun r => { r with arenaBase := 1, arenaLim := 0x100 }) (mem 8)
     s.focus.r.arenaBase.toNat ≤ 0x80 ∧ 2 ^ 7 ∣ 0x80 ∧ 0x80 < s.focus.r.arenaBase.toNat + 2 ^ 7 ∧
      0x80 + (s.focus.r.readS 1).toNat ≤ s.focus.r.arenaLim.toNat) ∧
    (let s := onRegs (fun r => { r with arenaBase := 1, arenaLim := 0xFF }) (mem 8); s.focus.r.arenaLim.toNat < 0x80 + (s.focus.r.readS 1).toNat) ∧
    (mem 8).focus.chunk.issued < 2 ^ 13 ∧ (mem 8).focus.chunk.lines < 2 ^ 6 ∧ (mem 8).focus.replay.soft < 8 ∧ (∀ l, AllFree (mem 8) l) ∧
    (supervisor (mem 8)).focus.r.flt.sup = true :=
  ⟨by decide, by decide, by decide, by decide, by decide, fun _ _ _ _ _ => rfl, by decide⟩

/-- A gang member that is enrolled in the last object of its raft. -/
def member : State :=
  let s := mem 8
  { s with focus := { s.focus with task := { s.focus.task with kind := .member }, enroll := [⟨⟨2, 0, 7⟩, 0⟩] } }
theorem witness_BarrierInstructions :
    (∀ o ∈ member.focus.enroll, o.obj.scope ≠ 0) ∧ member.focus.r.barArrived &&& member.clause.lanes = 0 ∧ member.focus.task.kind = .member ∧
    member.enrolledObj 2 7 = some ⟨⟨2, 0, 7⟩, 0⟩ ∧ (0 : Lanes) &&& member.clause.lanes = 0 ∧ member.enrolledObj 1 15 = none ∧
    member.enrolledObj 5 1 = none ∧ member.focus.enroll.length < 4 := by decide

theorem witness_CopyCommands : FlagsLegal 0 false ∧ FlagsLegal 0 true ∧ FlagsLegal (2 ^ 10 + 2 * 2 ^ 11 + 7 * 2 ^ 14) false ∧
    ¬ FlagsLegal (2 ^ 10 + 2 * 2 ^ 11 + 8 * 2 ^ 14) false ∧ ¬ FlagsLegal 8 true ∧ ¬ FlagsLegal 7 true ∧ (mem 8).focus.r.readS 1 ≠ 0 ∧
    (mem 8).focus.r.readS 8 = 0 ∧ ∀ l, AllFree (mem 8) l := by
  unfold FlagsLegal
  exact ⟨by decide, by decide, by decide, by decide, by decide, by decide, by decide, by decide, fun _ _ _ _ _ => rfl⟩

/-- Alone, in a gang of two members, in a gang that leaves the core out; span words that are legal and fit, that do not
fit, and that are not legal. -/
theorem witness_TensorCommands :
    (mem 8).focus.r.gang = 0 ∧
    (let s := onRegs (fun r => { r with gang := 3 }) member
     s.focus.r.gang ≠ 0 ∧ s.focus.r.gang ≠ BitVec.ofNat 4 (2 ^ s.memberOf s.focus.core) ∧ s.focus.r.gang.getLsbD (s.memberOf s.focus.core) = true ∧
      (∀ k < 4, s.focus.r.gang.getLsbD k = true → k < (s.raftMembers (s.focus.core / 4)).length) ∧
      ((List.range 4).filter s.focus.r.gang.getLsbD).length = 2) ∧
    (let s := onRegs (fun r => { r with gang := 2 }) member
     s.focus.r.gang ≠ 0 ∧ s.focus.r.gang ≠ BitVec.ofNat 4 (2 ^ s.memberOf s.focus.core) ∧ s.focus.r.gang.getLsbD (s.memberOf s.focus.core) = false) ∧
    SpanOk 0 0x1000100 ∧ Fits false 0 256 256 ∧ ¬ Fits false 1 256 256 ∧ ¬ Fits true 0 1 129 ∧ ¬ SpanOk 0 0x1000000 ∧ ¬ SpanOk 0 0x1010101 ∧
    SpanOk 0x0000FF0000000000 0x0000FF0000010001 ∧ SpanOk 0x0000002000000000 0x0000002000010001 ∧ SpanOk 0x0000001C00000000 0x0000000400010001 ∧
    (∀ l, AllFree (mem 8) l) := by
  unfold SpanOk Fits
  exact ⟨by decide, by decide, by decide, by decide, by decide, by decide, by decide, by decide, by decide, by decide, by decide, by decide,
    fun _ _ _ _ _ => rfl⟩

/-- A launch with one reducer of each kind. -/
def reducing : State :=
  let s := onRegs (fun r => { r with redtab := 0x120000 }) (mem 11)
  { s with sched := { s.sched with launches := [{ launchOf with reducers := some ((List.range 8).map fun k => ⟨k, 0x100000, 0x100000⟩) }] } }
theorem witness_Reducers :
    (∀ k : Fin 7, ∃ e, reducing.redEntry ⟨k.val + 1, by omega⟩ = some e ∧ e.kind = k.val + 1) ∧
    Probed forStore reducing reducing [⟨none, reducing.focus.r.readS 4, 32, 0⟩] [pageLoc 0] ∧
    (reducing.focus.r.readS 4).toNat % 32 = 0 ∧ (∀ t ∈ reducing.lanes, (reducing.focus.r.readV 7 t).tag = tF32 ∧
      tagInt (reducing.focus.r.readV 4 t).tag = true) ∧ reducing.focus.r.views.get 7 = none ∧
    (lastLevel reducing.focus.r.pedigree).rank = (lastLevel reducing.focus.r.pedigree).mark ∧ (56 : Fin 64).val + 8 ≤ 64 ∧
    (∀ l, AllFree reducing l) ∧ fdecode tF32 0 0x7FC00000 = .nan false ∧ fdecode tF32 0 0xFF800000 = .inf true ∧
    fdecode tF64 0 1 = .num false 1 (-1074) :=
  ⟨fun k => by fin_cases k <;> exact ⟨_, rfl, rfl⟩, ⟨rfl, [some (0x100000, 16)], rfl, rfl⟩, by decide, by decide, by decide, by decide, by decide,
    fun _ _ _ _ _ => rfl, by decide, by decide, by decide⟩

/-- The crew between two clauses, at the clause of one NOP, or at the one of SAFEPT, its chunk with `n` clauses issued. -/
def between (pc : Addr) (n : Nat) : State :=
  let s := onRegs (fun r => { r with frontier := [⟨pc, 3, 4, false⟩] }) (mem 8)
  { s with focus := { s.focus with cur := none, chunk := { Chunk.empty with first := 0x100000, clauses := n, issued := n } } }
def entryAt (pc : Addr) : Entry := ⟨pc, 3, 4, false⟩

theorem between_selecting (pc : Addr) (n : Nat) : Selecting (between pc n) :=
  ⟨rfl, ⟨rfl, rfl, fun y hy => absurd hy List.not_mem_nil⟩, ⟨0, 0, rfl⟩, by simp [between, onRegs]⟩
theorem between_unhindered (pc : Addr) (n : Nat) : Unhindered (between pc n) :=
  { between_selecting pc n with post := rfl, table := .inl rfl, range := .inl rfl, conf := .inl (show 0 < 16 by decide) }
theorem between_eligible (pc : Addr) (n : Nat) : Eligible (between pc n) (entryAt pc) :=
  ⟨rfl, (by decide : (3 &&& ~~~0 : Lanes) ≠ 0), fun h _ => ⟨fun x hx => absurd hx (List.not_mem_nil), fun _ => rfl⟩⟩
theorem between_picks (pc : Addr) (n : Nat) : Picks (between pc n) (entryAt pc) :=
  ⟨List.mem_singleton.2 rfl, .inr ⟨fun _ _ h => (nomatch (show (none : Option Addr) = some _ from h.2.1)), between_eligible pc n,
    .inr ⟨fun h => absurd h (show ¬ (false = true) by decide), fun x hx hne => absurd (List.mem_singleton.1 hx) hne⟩⟩⟩
def stopping (s : State) : State := { s with sched := { s.sched with launches := [{ launchOf with stopAt := some 0 }] } }
/-- The crew after the commit of a chunk that ended before the entry for pre-emption. -/
def ended (pc : Addr) (s : State) : State := { s with focus := { s.focus with chunk := { s.focus.chunk with stop := some pc } } }
theorem ended_picks : Picks (ended 0x100080 (stopping (between 0x100080 0))) (entryAt 0x100080) :=
  ⟨List.mem_singleton.2 rfl, .inl ⟨rfl, rfl, by decide⟩⟩
def ranged (x : RangeRec) (n : Nat) : State :=
  let s := deepPg n (between 0x100000 0)
  { s with focus := { s.focus with task := { s.focus.task with range := some x } } }

/-- The first clause of a chunk; a stop at SAFEPT; a later clause, and one at which the chunk has its length; ranges that are
empty, a leaf, and too deep to split; a fault that waits. -/
theorem witness_FrontierEvents :
    (Unhindered (between 0x100000 0) ∧ Picks (between 0x100000 0) (entryAt 0x100000) ∧ HandlerOk (between 0x100000 0) (entryAt 0x100000) ∧
      (between 0x100000 0).stopsAt (between 0x100000 0).focus (entryAt 0x100000) = false) ∧
    (let b := begun (between 0x100000 0) (entryAt 0x100000)
     (b.fetchClause b.focus 0x100000).2 = .ok (⟨1, .seq, 0, 15, 15, true, false, 0⟩, [0]) ∧
      clauseFault ⟨1, .seq, 0, 15, 15, true, false, 0⟩ 16 1 [0] = none) ∧
    (let b := ended 0x100080 (stopping (between 0x100080 0))
     Unhindered b ∧ Picks b (entryAt 0x100080) ∧ HandlerOk b (entryAt 0x100080) ∧
      b.stopsAt b.focus (entryAt 0x100080) = true ∧ (b.liveRecord b.focus 0x100080 ((b.peekSafept b.focus 0x100080).getD 0)).2 = .ok none) ∧
    (Picks (between 0x100000 1) (entryAt 0x100000) ∧ ¬ Boundary (between 0x100000 2047) (entryAt 0x100000) ⟨1, .seq, 0, 15, 15, true, false, 0⟩ [0] ∧
      Boundary (between 0x100000 2048) (entryAt 0x100000) ⟨1, .seq, 0, 15, 15, true, false, 0⟩ [0]) ∧
    (Selecting (ranged ⟨5, 5, 1, false, none⟩ 1) ∧ (ranged ⟨5, 6, 1, false, some 0⟩ 1).focus.r.frontier ≠ [] ∧
      (∀ y ∈ (ranged ⟨5, 7, 1, false, some 0⟩ 32).pool, y.uid ≠ 1) ∧ 32 ≤ (ranged ⟨5, 7, 1, false, some 0⟩ 32).focus.r.pedigree.length) ∧
    ∃ p, { (between 0x100000 1) with focus := { (between 0x100000 1).focus with post := [⟨0x12, 5, ⟨0x1000, 1, 3⟩, 3, false⟩] } }.focus.post = p :: [] := by
  refine ⟨⟨between_unhindered _ _, between_picks _ _, fun h => absurd h (by decide), by decide⟩, ⟨by decide, by decide⟩,
    ⟨⟨⟨rfl, ⟨rfl, rfl, fun y hy => absurd hy List.not_mem_nil⟩, ⟨0, 0, rfl⟩, by decide⟩, rfl, .inl rfl, .inl rfl, .inl (by decide)⟩, ended_picks,
      fun h => absurd h (by decide), by decide, by decide⟩,
    ⟨between_picks _ _, ?_, ?_⟩, ⟨⟨rfl, ⟨rfl, rfl, fun y hy => absurd hy List.not_mem_nil⟩, ⟨0, 0, rfl⟩, by decide⟩, by decide, by decide, by decide⟩, _, rfl⟩
  · unfold Boundary; decide
  · exact .inl (by decide)

/-- A crew with a load in flight, one at the special-function unit; a FENCE that waits, the link to package 9 down, some peers
known to have failed. -/
def flying (k : LongKind) : State := onRegs (fun r => { r with inflight := [⟨3, k, [], 0, false, []⟩] }) (between 0x100000 1)
def fencing (scope : Nat) (p : List Posted) (failed : List Nat) : State :=
  let s := between 0x100000 1
  { s with
    focus := { s.focus with phase := .acting, chunk := { s.focus.chunk with acts := [⟨⟨0x1000, 1, 3⟩, .fence scope 7⟩] } }
    fences := [⟨1, 0, [], failed⟩], posted := p, hub := { s.hub with links := [(9, .down)] } }
/-- What crew 1 has posted to package 9, and to the host. -/
def toPeer : Posted := ⟨1, some 9, 2 ^ 50, none, false, false⟩
def toHost : Posted := ⟨1, none, 2 ^ 51, none, false, false⟩
/-- Nothing is cached, nothing written: the walk of a table at 0 meets an entry that is not valid; a leaf of a 64 KiB page. -/
theorem witness_CompletionEvents_walks :
    PlainTables State.reset ∧ Misses State.reset ⟨0, 0, false, 0⟩ 0x100000 ∧
    (∃ leaf shift pte, (mem 8).lookup ((mem 8).space (mem 8).focus false) 0x100000 = (mem 8, .leaf leaf shift pte) ∧ pte + 8 ≤ 2 ^ 53) ∧
    PlainTables (mem 8) := by
  refine ⟨⟨by decide, rfl, by decide +kernel, fun y hy g hg => ?_⟩, ⟨?_, ?_, ?_⟩, ⟨_, _, _, rfl, by decide⟩, by decide +kernel, rfl, by decide +kernel, fun y hy g hg => ?_⟩
  · rw [List.mem_singleton.1 hy] at hg; exact absurd hg List.not_mem_nil
  · intro e he; rw [show (State.reset.coreAt 0).tlb = [] from by decide +kernel] at he; exact absurd he List.not_mem_nil
  · intro r hr e he
    rw [show State.reset.rafts[0 / 4]? = some ⟨List.replicate 8 Barrier.reset, []⟩ from rfl] at hr
    rw [← Option.some.inj hr] at he; exact absurd he List.not_mem_nil
  · intro d hd e he
    rw [show State.reset.dies[0 / 36]? = some ⟨List.replicate 4 Barrier.reset, [], false, [], []⟩ from rfl] at hd
    rw [← Option.some.inj hd] at he; exact absurd he List.not_mem_nil
  · rw [List.mem_singleton.1 hy] at hg; exact absurd hg List.not_mem_nil
theorem witness_CompletionEvents :
    ((flying .plain).crew? 1).isSome ∧ (flying .plain).focus.r.inflight[0]? = some ⟨3, .plain, [], 0, false, []⟩ ∧
    SfuWaits (flying (.sfu false)) 0 0 ∧ 0 = (((flying (.sfu false)).coreAt 0).sfu + 1 + 0) % 16 ∧
    (∃ leaf shift pte, ((mem 8).lookup ((mem 8).space (mem 8).focus false) 0x100000).2 = .leaf leaf shift pte) ∧
    (∀ scope p failed, ∃ x, AtFence (fencing scope p failed) 1 x ⟨1, 0, [], failed⟩ ⟨0x1000, 1, 3⟩ scope 7) ∧
    (fencing 4 [] []).shown 1 0 4 = true ∧ (fencing 5 [] []).shown 1 0 5 = true ∧ (fencing 5 [toPeer] []).shown 1 0 4 = true ∧
    Failed (fencing 5 [toPeer] []) ⟨1, 0, [], []⟩ toPeer 9 0 ∧ toPeer.peer = some 9 ∧
    ∀ k t, ¬ Failed (fencing 5 [toPeer, toHost] []) ⟨1, 0, [], []⟩ toHost k t :=
  ⟨rfl, rfl, ⟨_, List.mem_cons_self .., by decide, rfl, _, List.mem_cons_self .., rfl⟩, by decide, ⟨_, _, _, rfl⟩,
    fun _ _ _ => ⟨_, rfl, rfl, ⟨rfl, rfl⟩, (by decide : ([9] : List Nat).Nodup), List.nodup_nil⟩, by decide, by decide, by decide,
    ⟨rfl, .inl ⟨.inr (List.mem_cons_self ..), rfl⟩⟩, rfl, fun k t h => nomatch h.1⟩

/-- The crew at a stage of its commit, with its chunk so changed. -/
def stage (p : Phase) (f : Chunk → Chunk) : State :=
  let s := between 0x100000 1
  { s with focus := { s.focus with phase := p, chunk := f { s.focus.chunk with ends := true } } }
/-- A chunk that has written one byte of the line at 0x108000, and one that has read it. -/
def wrote (ch : Chunk) : Chunk := { ch with buf := [⟨.chunked, 0x2100, 0x108000, 0, 0, 0, false, .bytes [(127, 5)]⟩], wsig := sigAdd 0x2100 0 }
def hasRead (ch : Chunk) : Chunk := { ch with rsig := sigAdd 0x2100 0, rmask := 1 <<< landingOf 0x2100 }
/-- A STREAM line of the crew itself, released to the same place, that is still to come. -/
def awaited (s : State) : State := { s with streams := [⟨150, 1, 0, [], ⟨.stream, 0x2100, 0x108000, 0, 0, 0, false, .bytes [(1, 6)]⟩⟩] }
def acting (k : ActKind) : State := stage .acting fun ch => { ch with acts := [⟨⟨0x1000, 1, 3⟩, k⟩] }

theorem witness_ChunkCommit :
    (EndedClean (stage .run id).focus ∧ writtenLines (stage .run id).focus = [] ∧ (stage .run id).focus.chunk.tracked = []) ∧
    (EndedClean (stage .run wrote).focus ∧ writtenLines (stage .run wrote).focus ≠ [] ∧
      Foremost (stage .run wrote) (stage .run wrote).focus ∧ ¬ Foremost (awaited (stage .run wrote)) (stage .run wrote).focus ∧
      ∀ b ∈ writtenLines (stage .run wrote).focus, grantsLine ((stage .run wrote).focus.core / 36) b < 200) ∧
    (let x := (stage .run fun ch => { ch with soft := true }).focus
     x.phase = .run ∧ x.cur = none ∧ x.chunk.ends = true ∧ x.chunk.soft = true ∧ x.replay.soft < x.chunk.retry.toNat ∧
      x.replay.ferried = false) ∧
    ((stage .granted wrote).focus.phase = .granted ∧ PlainCommit (stage .granted wrote) (stage .granted wrote).focus) ∧
    ((stage .acting id).focus.chunk.acts = [] ∧ (stage .acting id).focus.task.merge = none) ∧
    (acting (.fence 4 7)).focus.chunk.acts.head? = some ⟨⟨0x1000, 1, 3⟩, .fence 4 7⟩ ∧ (∀ f ∈ (acting (.fence 4 7)).fences, f.crew ≠ 1) ∧
    (acting (.streamLine 5 0)).focus.chunk.acts.head? = some ⟨⟨0x1000, 1, 3⟩, .streamLine 5 0⟩ ∧
    (acting (.spadRed (2 ^ 53) 0 32 1)).focus.phase = .acting ∧ Memory.wf (acting (.spadRed (2 ^ 53) 0 32 1)).mem ∧
    (acting (.trap 5)).crew? 1 = some (acting (.trap 5)).focus := by
  refine ⟨⟨⟨⟨rfl, rfl, rfl⟩, rfl, rfl⟩, rfl, rfl⟩, ⟨⟨⟨rfl, rfl, rfl⟩, rfl, rfl⟩, by decide, fun _ _ _ hy => absurd hy List.not_mem_nil, ?_, by decide⟩,
    by decide, ⟨rfl, ⟨by decide, ?_, by decide, ?_, ?_, rfl, by decide +kernel, ?_⟩⟩, ⟨rfl, rfl⟩, rfl, ?_, rfl, rfl, by decide, rfl⟩
  · exact fun h => absurd rfl (h _ (List.mem_singleton.2 rfl) _ (List.mem_singleton.2 rfl) rfl).1
  · intro b hb; exact ⟨[(127, 5)], by rw [List.mem_singleton.1 hb], by decide⟩
  · intro b _ z hz; exact nomatch (show (none : Option Keyed) = some z from hz)
  · intro b hb b' hb' _; rw [List.mem_singleton.1 hb, List.mem_singleton.1 hb']
  · intro y hy g hg; rw [List.mem_singleton.1 hy] at hg; exact absurd hg List.not_mem_nil
  · exact fun f hf => absurd hf List.not_mem_nil

/-- The landing of the line, with what it holds. -/
def landing (L : Landing) (s : State) : State := { s with landings := s.landings.set (landingOf 0x2100) L }
def other (rsig wsig : BitVec 1024) : Grant := ⟨2, false, true, [0x2100], rsig, wsig⟩
theorem witness_LandingsAndReplays :
    (let s := stage (.asking [landingOf 0x2100]) wrote
     s.focus.phase = .asking [landingOf 0x2100] ∧ s.landings[landingOf 0x2100]? = some ⟨[], []⟩) ∧
    (let s := landing ⟨List.replicate 15 (other 0 0), []⟩ (stage (.asking [landingOf 0x2100]) wrote)
     s.landings[landingOf 0x2100]? = some ⟨List.replicate 15 (other 0 0), []⟩ ∧ ∀ h ∈ List.replicate 15 (other 0 0), ¬ Conflict [0x2100] 0 h) ∧
    Conflict [0x2100] 0 (other 0 (sigAdd 0x2100 0)) ∧ 16 ≤ (List.replicate 16 (other 0 0)).length ∧
    (sigHas (stage .run hasRead).focus.chunk.rsig 0x2100 = true ∧ sigHas (stage .run hasRead).focus.chunk.rsig 0x2101 = false) ∧
    (let s := { (between 0x100000 0) with focus := { (between 0x100000 0).focus with replay := { Replay.none with conf := 16 } } }
     s.focus.chunk.clauses = 0 ∧ 16 ≤ s.focus.replay.conf ∧ s.focus.replay.excl = false ∧ s.landings.length = 200 ∧ s.focus.cur = none) ∧
    (let s := { (stage .run fun ch => { ch with soft := true }) with
       focus := { (stage .run fun ch => { ch with soft := true }).focus with replay := { Replay.none with soft := 3 } } }
     s.focus.chunk.retry.toNat ≤ s.focus.replay.soft ∧ 1 ∈ s.hub.regs.coresIn (s.dieset s.focus.task.launch) ∧ s.freeSlots 1 ≠ [] ∧
      s.spmReq s.focus.task.launch = 1024) := by
  unfold Conflict
  refine ⟨⟨rfl, by decide +kernel⟩, ⟨by decide +kernel, by decide +kernel⟩, .inr (.inl ⟨0x2100, by decide +kernel, by decide +kernel⟩), by decide +kernel, ⟨by decide +kernel, by decide +kernel⟩, ?_, ?_⟩
  · exact ⟨by decide +kernel, by decide +kernel, by decide +kernel, by decide +kernel, by decide +kernel⟩
  · exact ⟨by decide +kernel, by decide +kernel, by decide +kernel, by decide +kernel⟩

/-- One crew of one launch. -/
def sole (l : Launch) (f : Crew → Crew) : State :=
  let s := between 0x100000 0
  { s with focus := f s.focus, sched := { s.sched with launches := [l] } }
def small : Launch := { launchOf with packet := { packetOf with spmreq := 0, privreq := 0 } }
def asPhase (p : Phase) (c : Crew) : Crew := { c with phase := p }
def spawnReq : SpawnReq := ⟨0x100000, [1, 2], 3, [⟨0, 0⟩, ⟨0, 0⟩], 1, 0, 0, false, none, none, 0⟩
def does (k : ActKind) (c : Crew) : Crew := { c with phase := .acting, chunk := { c.chunk with acts := [⟨⟨0x1000, 1, 3⟩, k⟩] } }
theorem sole_runs (l : Launch) (f : Crew → Crew) (h : l.uid = 100) (g : l.stopAt = none ∧ l.ended = none ∧ l.holding = false) :
    LaunchRuns (sole l f) 100 l := ⟨by simp [State.launch?, sole, h], g⟩
def groups (n : Nat) : Launch := { launchOf with groups := List.range n }

/-- The slices of the pool's last group; none left; a window that waits; a gang of one on an empty core. -/
theorem witness_TaskStarts :
    (LaunchRuns (sole small (asPhase .unstarted)) 100 small ∧ small.packet.privreq = 0 ∧ InSlot (sole small (asPhase .unstarted)).focus 0) ∧
    (LaunchRuns (sole (groups 7) (asPhase .unstarted)) 100 (groups 7) ∧ 7 ∉ (groups 7).groups ∧ (∀ h < 7, h ∈ (groups 7).groups) ∧
      (7 + 1) * (32 * (groups 7).packet.privreq) ≤ (groups 7).desc.privsize) ∧
    (8 ∉ (groups 8).groups ∧ (groups 8).desc.privsize < (8 + 1) * (32 * (groups 8).packet.privreq) ∧
      (sole (groups 8) (asPhase .unstarted)).focus.task.waited = false) ∧
    (let s := sole launchOf fun c => { c with phase := .unstarted, place := .waiting 0, task := { c.task with kind := .child } }
     s.focus.task.parent = none ∧ s.focus.task.gangObj = none ∧ s.focus.saved = [] ∧ (s.freeSlots 0).head? = some 0 ∧
      s.freeWindow 0 launchOf.packet.spmreq = some 0) ∧
    (let s := sole small (does (.gang spawnReq 15 false 7))
     LaunchRuns s 100 small ∧ Fresh s ∧ (s.barrier ⟨1, s.focus.core, 7⟩).v = false ∧ s.focus.core < s.cores.length ∧
      7 < (s.coreAt s.focus.core).bars.length ∧ 15 ≤ (s.freeSlots s.focus.core).length) := by
  refine ⟨⟨sole_runs _ _ rfl ⟨rfl, rfl, rfl⟩, rfl, 0, rfl⟩, ⟨sole_runs _ _ rfl ⟨rfl, rfl, rfl⟩, by decide, by decide, by decide⟩,
    by decide, by decide +kernel, sole_runs _ _ rfl ⟨rfl, rfl, rfl⟩, ?_, by decide, by decide +kernel, by decide, by decide +kernel⟩
  intro y hy; rw [List.mem_singleton.1 hy]; decide

/-- A parked crew on core k, in its deque, and core 0 in focus of the steal. -/
def parked (k : Nat) (ph : Phase) (p : Place) : State :=
  let s := sole small fun c => { c with phase := ph, place := p, task := { c.task with live := none, kind := .child } }
  { s with cores := s.cores.set k { s.coreAt k with deque := [1] } }
theorem parked_free (k : Nat) (p : Place) (h : (parked k .parked p).freeSlots 0 ≠ []) :
    FreeCore (parked k .parked p) 0 where
  enabled := by show State.reset.coreOn 0 = true; decide +kernel
  quiet := fun x hx _ _ => by rw [List.mem_singleton.1 hx]; exact .inl rfl
  frames := fun x hx _ hs _ => by rw [List.mem_singleton.1 hx] at hs; exact nomatch hs
  room := h

theorem witness_TaskFlow :
    (let s := sole small (does (.spawn spawnReq none))
     Fresh s ∧ s.focus.task.merge = none ∧ (s.coreAt s.focus.core).deque.length < 64 ∧ s.focus.core < s.cores.length) ∧
    (let s := sole small (asPhase .suspended)
     InSlot s.focus 0 ∧ s.focus.post = [] ∧ (∀ y ∈ s.focus.task.kids, y.ended = true) ∧
      ∀ i : Fin 16, (s.focus.task.block.filter fun b => (b.views.get i).isSome).length ≤ 1) ∧
    (let s := sole small fun c => { c with r := { c.r with frontier := [], emask := 3 } }
     s.focus.phase = .run ∧ s.focus.task.kind ≠ .routine ∧ s.focus.r.live = 0 ∧ s.focus.r.frontier = [] ∧ s.focus.cur = none ∧
      s.focus.chunk.clauses = 0 ∧ s.focus.r.inflight = [] ∧ s.focus.post = [] ∧ s.focus.task.range = none ∧ s.focus.task.kids = [] ∧ s.focus.task.block = [] ∧
      s.focus.task.parent = none ∧ ∃ l, s.launch? s.focus.task.launch = some l ∧ l.holding = false) ∧
    (FreeCore (parked 0 .parked (.slot 0 0)) 0 ∧ (entriesOf (parked 0 .parked (.slot 0 0)) 0).getLast? = some 1) ∧
    (let s := parked 1 .parked (.slot 1 0)
     IdleCore s 0 ∧ entriesOf s 0 = [] ∧ (∀ y, s.dies[0 / 36]? = some y → y.hints = []) ∧ 1 ∈ s.hub.regs.coresIn small.packet.dieset ∧ s.launch? 100 = some small ∧
      1 ∈ entriesOf s 1 ∧ MayTake s 0 1 ∧ (s.freeWindow 0 (s.spmReq 100)).isSome = true) ∧
    (let s := { sole small fun c => { c with phase := .unstarted, place := .hinted 0, task := { c.task with kind := .child } } with
       dies := [⟨List.replicate 4 Barrier.reset, [1], false, [], []⟩] }
     s.dies[0 / 36]? = some ⟨List.replicate 4 Barrier.reset, [1], false, [], []⟩ ∧ s.focus.task.kind = .child ∧ entriesOf s 0 = [] ∧ s.freeSlots 0 ≠ []) := by
  refine ⟨⟨?_, rfl, by decide, by decide +kernel⟩, ⟨⟨0, rfl⟩, rfl, by decide, by decide⟩,
    ⟨rfl, by decide, by decide, rfl, rfl, rfl, rfl, rfl, rfl, rfl, rfl, rfl, _, rfl, rfl⟩, ⟨parked_free _ _ (by decide +kernel), by decide +kernel⟩,
    ⟨{ parked_free _ _ (by decide +kernel) with empty := by decide +kernel, pieces := by decide +kernel }, by decide +kernel, ?_, by decide +kernel, rfl, by decide +kernel, ?_, by decide +kernel⟩,
    by decide +kernel⟩
  · intro y hy; rw [List.mem_singleton.1 hy]; decide
  · intro y hy; rw [show (parked 1 .parked (.slot 1 0)).dies[0 / 36]? = some ⟨List.replicate 4 Barrier.reset, [], false, [], []⟩ from rfl] at hy
    rw [← Option.some.inj hy]
  · exact ⟨_, rfl, rfl, rfl, rfl, rfl, fun l hl => by
      rw [← Option.some.inj (show some small = some l from hl)]; exact ⟨rfl, rfl⟩, by decide +kernel, by decide +kernel⟩

/-- A crew whose block holds views of reducer 3, untouched entries between; a launch whose table makes it of kind k. -/
def viewed (k : Nat) (v w : ViewVal) : State :=
  sole { launchOf with reducers := some (List.replicate 16 ⟨k, 0, 0x100000⟩) }
    fun c => { c with cur := none, task := { c.task with block := [.own [(3, v)], .joined [(4, v)], .joined [(3, w)], .own []] } }
/-- The routine of that merge, at its end. -/
def routineOf : Crew :=
  { crewOf { (memRegs 8) with frontier := [], emask := 3 } with
    uid := 2, cur := none, chunk := Chunk.empty, task := { Task.none with launch := 100, kind := .routine, merge := some (1, 3), args := [0, 2] } }
def merging : State := { viewed 7 (.usr 5) (.usr 6) with pool := [routineOf] }
theorem viewed_pair (v w : ViewVal) : FirstPair [.own [(3, v)], .joined [(4, v)], .joined [(3, w)], .own []] 3 0 2 v w :=
  ⟨by decide, ⟨rfl, rfl⟩, fun m h h' => by
      obtain rfl : m = 1 := by omega
      exact ⟨rfl, fun ⟨_, hu⟩ => nomatch hu⟩,
    fun p q h h' hp hq => by
      obtain rfl | rfl : q = 0 ∨ q = 1 := by omega
      · omega
      · exact absurd rfl hq⟩
theorem witness_Merges :
    ((viewed 1 (.isum 5) (.isum 6)).crew? 1 = some (viewed 1 (.isum 5) (.isum 6)).focus ∧
      ((viewed 1 (.isum 5) (.isum 6)).redOf 100 3).kind = 1 ∧ (viewed 1 (.isum 5) (.isum 6)).focus.cur = none) ∧
    (((viewed 7 (.usr 5) (.usr 6)).redOf 100 3).kind = 7 ∧ Fresh (viewed 7 (.usr 5) (.usr 6)) ∧
      (∀ y ∈ (viewed 7 (.usr 5) (.usr 6)).crews, y.task.kind ≠ .routine)) ∧
    (merging.crew? 1 = some merging.focus ∧ routineOf ∈ merging.crews ∧ routineOf.uid ≠ 0 ∧ routineOf.uid ≠ 1 ∧ routineOf.task.kind = .routine ∧
      routineOf.task.merge = some (1, 3) ∧ routineOf.task.group = none ∧
      (∀ z ∈ merging.crews, z.task.kind = .routine → z.task.merge = some (1, 3) → z = routineOf) ∧
      routineOf.task.args = [BitVec.ofNat 64 0, BitVec.ofNat 64 2] ∧ routineOf.phase = .run ∧ routineOf.r.live = 0 ∧ routineOf.r.frontier = [] ∧
      routineOf.cur = none ∧ routineOf.chunk.clauses = 0 ∧ routineOf.r.inflight = [] ∧ routineOf.post = [] ∧ routineOf.task.range = none) := by
  refine ⟨⟨rfl, rfl, rfl⟩, ⟨rfl, fun y hy => by rw [List.mem_singleton.1 hy]; decide, fun y hy => by rw [List.mem_singleton.1 hy]; decide⟩, rfl, by simp [merging, State.crews],
    by decide, by decide, rfl, rfl, rfl, ?_, rfl, rfl, by decide, rfl, rfl, rfl, rfl, rfl, rfl⟩
  intro z hz hk _
  rcases List.mem_cons.1 hz with rfl | hz
  · exact absurd hk (by decide)
  · exact List.mem_singleton.1 hz

/-- A record of one element of 4 bytes in the crew's own window; a core's barge. -/
def recordAt (k : Nat) : List Host.Cell := [(k + 7, 1), (k + 8, 1), (k + 9, 2), (k + 10, 7), (k + 16, 1)]
def barged (b : Barge) : State :=
  let s := between 0x100000 1
  { s with mem := recordAt (2 ^ 53), filled := [(2 ^ 53, 0x80000)], cores := s.cores.modify 0 fun c => { c with barge := b } }
def fillCmd (st : CmdState) (r : Option (Iter × Option Iter)) : BrgCmd := ⟨7, ⟨1, 100, [⟨0, 0⟩]⟩, ⟨0x1000, 1, 3⟩, .cpyf (2 ^ 56) 0xAB 5 0, st, r, none⟩
def recordOf : Iter := ⟨2 ^ 56, 1, 2, 7, [⟨1, 0⟩], 0⟩
def requested (op : BrgOp) : State :=
  let s := barged ⟨[], [], [], []⟩
  { s with focus := { s.focus with phase := .acting, chunk := { s.focus.chunk with acts := [⟨⟨0x1000, 1, 3⟩, .brg 7 op⟩] } } }

theorem witness_BargeSteps :
    (∀ op, (requested op).crew? 1 = some (requested op).focus ∧ (requested op).focus.phase = .acting ∧
      (requested op).focus.chunk.acts = [⟨⟨0x1000, 1, 3⟩, .brg 7 op⟩] ∧ ((requested op).coreAt (requested op).focus.core).barge.queue.length < 32 ∧
      bitmap (requested op) (requested op).focus.core 100 = 0) ∧
    (let s := { barged ⟨[], [], [], []⟩ with cores := (barged ⟨[], [], [], []⟩).cores.modify 0 fun c => { c with ct := c.ct.set 0 9 } }
     bitmap s 0 100 &&& 8 ≠ 0 ∧ bitmap s 0 100 &&& 9 = 9) ∧
    (let s := barged ⟨[fillCmd .queued none], [], [], []⟩
     let s0 := withBarge 0 (fun _ => ⟨[], [fillCmd .latched none], [], []⟩) s
     ((s.coreAt 0).barge.queue = [fillCmd .queued none] ∧ 0 < s.cores.length ∧ (fillCmd .queued none).op.flags / 2 ^ 10 % 2 = 0) ∧
      (s0.copyRecords (fillCmd .queued none).actor (fillCmd .queued none).op).2 = .ok (recordOf, none) ∧
      ((s0.copyRecords (fillCmd .queued none).actor (fillCmd .queued none).op).1.coreAt 0).barge = (s0.coreAt 0).barge) ∧
    (let s := barged ⟨[], [fillCmd (.running 0) (some (recordOf, none))], [], []⟩
     (s.coreAt 0).barge.jobs[0]? = some (fillCmd (.running 0) (some (recordOf, none))) ∧ 0 + 1 = recordOf.count ∧ recordOf.esz ≤ 7 ∧
      (s.crew? 1).isSome ∧ 2 ^ 56 ≤ (recordOf.addr 0).toNat ∧ (recordOf.addr 0).toNat % 2 ^ recordOf.esz = 0 ∧
      ((recordOf.addr 0).toNat - 2 ^ 56) + 2 ^ recordOf.esz ≤ s.focus.r.spmSize.toNat * 128 ∧ Memory.wf s.mem) ∧
    (recordOf.count ≤ 1 ∧ (fillCmd (.running 1) (some (recordOf, none))).op.isCopy = true ∧
      (fillCmd (.running 1) (some (recordOf, none))).op.flags / 2 ^ 4 % 2 = 0) := by
  refine ⟨fun op => ⟨rfl, rfl, rfl, (by decide : 0 < 32), rfl⟩, by decide, ⟨?_, ?_, ?_⟩, ?_, ?_⟩ <;> decide +kernel

/-- A crew whose TZERO of tile 7 enters; TZERO and TMOV at the head of the engine; one that is done; two TMMA that pair. -/
def tenCmd (op : TenOp) (st : CmdState) : TenCmd := ⟨7, ⟨1, 100, [⟨0, 0⟩]⟩, ⟨0x1000, 1, 3⟩, op, st, 1, 0, 0, [], [], 0, false⟩
def engine (l : List TenCmd) : State :=
  let s := between 0x100000 1
  { s with cores := s.cores.modify 0 fun c => { c with ten := l } }
def mmaCmd (c : Nat) : TenCmd := { tenCmd (.mma 0 0x1000 0x2000 true false 3) .latched with actor := ⟨c, 100, [⟨0, 0⟩]⟩ }
def paired : State := let s := engine [mmaCmd 1]; { s with cores := s.cores.modify 1 fun c => { c with ten := [mmaCmd 2] } }
theorem witness_TensorSteps :
    (let s := acting (.ten 7 (.zero 7 1) 1 0 0)
     s.crew? 1 = some s.focus ∧ s.focus.chunk.acts = [⟨⟨0x1000, 1, 3⟩, .ten 7 (.zero 7 1) 1 0 0⟩] ∧ 1 ≤ 8 - (7 : Fin 8).val ∧
      (s.coreAt s.focus.core).ten.length < 16) ∧
    (((engine [tenCmd (.zero 7 1) .queued]).coreAt 0).ten = [tenCmd (.zero 7 1) .queued] ∧ Memory.wf (engine [tenCmd (.zero 7 1) .queued]).mem ∧
      rows 0x1000100 ≤ 256 ∧ cols 0x1000100 ≤ 1024 / 4 ∧ rows 0x1000100 ≤ 1024 / 4) ∧
    (((engine [tenCmd (.zero 7 1) .done]).coreAt 0).ten = [tenCmd (.zero 7 1) .done] ∧ (TenOp.zero 7 1).members = 0) ∧
    (paired.raftMembers 0 = [0, 1, 2, 3] ∧ 1 < paired.cores.length ∧ (paired.coreAt 0).ten = [mmaCmd 1] ∧ (paired.coreAt 1).ten = [mmaCmd 2] ∧
      (mmaCmd 1).raw.map (·.2) = (mmaCmd 2).raw.map (·.2)) := by
  refine ⟨⟨?_, ?_, ?_, ?_⟩, ⟨?_, ?_, ?_, ?_, ?_⟩, ⟨?_, ?_⟩, ?_, ?_, ?_, ?_, ?_⟩ <;> decide +kernel

/-- Descriptors of queues 1 and 7 in a table of 16 at 0: rings of 16 packets at 0x130800, enabled. -/
def descBytes : List Byte := leBytes 8 0x130800 ++ leBytes 4 16 ++ leBytes 4 1 ++ leBytes 8 0 ++ leBytes 8 (2 ^ 40) ++ List.replicate 96 0
def tableCells : List Host.Cell := cellsAt 128 descBytes ++ cellsAt 896 descBytes
def scheduled (qs : List Queue) : State :=
  { State.reset with
    mem := tableCells, now := 1000, uids := 200
    sched := { State.reset.sched with qtcount := 16, queues := qs, slots := List.replicate 64 ⟨none, none⟩ } }
def queueOf (q tail : Nat) (since : Option Nat) : Queue := ⟨q, tail, 2, since, none, false, false, descOf, false, false, none⟩
def entryOf : Desc := ⟨0x130800, 16, 1, 2 ^ 40, 0, 0, 0, 0, 0, 0, 0, 0⟩

theorem quiet_of {s : State} (h : s.partials = []) (h' : ∀ c ∈ s.crews, c.phase ≠ .granted) : Quiet s := ⟨h, h'⟩

theorem witness_QueueScheduling :
    (DescAt (scheduled [queueOf 7 3 none]) 7 entryOf ∧ (scheduled [queueOf 7 3 none]).queue? 7 = some (queueOf 7 3 none) ∧
      7 < (scheduled []).sched.qtcount ∧ 3 ≤ 3 ∧ 18 ≤ 2 + entryOf.qsize ∧ 2 + entryOf.qsize < 19 ∧ (scheduled []).queue? 7 = none) ∧
    (let s := scheduled [queueOf 7 3 (some 0), queueOf 1 3 (some 0)]
     s.sched.tick ≤ s.now ∧ DescAt s 1 entryOf ∧ DescAt s 7 entryOf ∧ s.sched.slots[0]? = some ⟨none, none⟩ ∧
      s.sched.slots[1]? = some ⟨none, none⟩ ∧ s.basePri (queueOf 1 3 (some 0)) = s.basePri (queueOf 7 3 (some 0)) ∧ (queueOf 1 3 (some 0)).num < 7) ∧
    Unqueued (scheduled []) none ∧ ∀ l, Quiet (scheduled l) := by
  refine ⟨⟨⟨?_, true, ?_⟩, ?_, ?_, ?_, ?_, ?_, ?_⟩, ⟨?_, ⟨?_, true, ?_⟩, ⟨?_, true, ?_⟩, ?_, ?_, ?_, ?_⟩, fun _ h => absurd h List.not_mem_nil,
    fun l => ⟨rfl, fun c hc => by
      rw [List.mem_singleton.1 hc]; exact fun h => (nomatch (show Crew.empty.phase = .granted from h))⟩⟩ <;> decide +kernel

/-- Queue 7 in slot 0, its STATE as in the table's entry, with or without a launch that runs there; queue 1 without work. -/
def mapped7 (off : Bool) (l : List Launch) : State :=
  let s := scheduled [{ queueOf 7 3 none with slot := some 0, disabled := off }, queueOf 1 2 none]
  { s with
    mem := if off then tableCells.map fun c => if c.1 = 908 then (908, 0) else c else tableCells
    sched := { s.sched with launches := l, slots := (List.replicate 64 ⟨none, none⟩).set 0 ⟨some 7, none⟩ } }
theorem slotsOk_of {s : State} (h : s.sched.slots.length = 64) (h' : ∀ y ∈ s.sched.slots, y.next = none)
    (hn : s.sched.queues.Pairwise fun x y => x.num ≠ y.num)
    (hq : ∀ x ∈ s.sched.queues, (∀ i < 64, x.slot = some i ↔ (s.sched.slots[i]?).bind QSlot.queue = some x.num) ∧ ∀ i ∈ x.slot, i < 64)
    (hm : ∀ i < 64, ∀ q ∈ (s.sched.slots[i]?).bind QSlot.queue, s.queue? q ≠ none) : SlotsOk s := by
  refine ⟨⟨h, h'⟩, hn, fun x hx i => ⟨fun e => ?_, fun ⟨y, hy, e⟩ => ?_⟩, fun i y q hy e => ?_⟩
  · exact Option.bind_eq_some_iff.1 (((hq x hx).1 i ((hq x hx).2 i e)).1 e)
  · exact ((hq x hx).1 i (h ▸ (List.getElem?_eq_some_iff.1 hy).1)).2 (by rw [hy]; exact e)
  · exact hm i (h ▸ (List.getElem?_eq_some_iff.1 hy).1) q (by rw [hy]; exact e)
theorem witness_QueueScheduling_mapped :
    (∀ off, (mapped7 off []).sched.slots[0]? = some ⟨some 7, none⟩ ∧ (mapped7 off []).queue? 7 = some { queueOf 7 3 none with slot := some 0, disabled := off } ∧
      (mapped7 off []).running 0 = none) ∧
    DescAt (mapped7 false []) 7 entryOf ∧ entryOf.state = 1 ∧ DescAt (mapped7 true []) 7 { entryOf with state := 0 } ∧
    (∃ l, (mapped7 true [launchOf]).running 0 = some l ∧ l.queue = 7) ∧
    (let s := mapped7 false []
     SlotsOk s ∧ Workless s (queueOf 1 2 none) ∧ s.sched.tick ≤ s.now ∧ rankOf s { queueOf 7 3 none with slot := some 0 } = 0) := by
  refine ⟨fun off => by cases off <;> exact ⟨rfl, rfl, rfl⟩, ⟨by decide +kernel, true, by decide +kernel⟩, rfl, ⟨by decide +kernel, true, by decide +kernel⟩, ⟨_, rfl, rfl⟩,
    slotsOk_of (by decide +kernel) (by decide +kernel) (by decide +kernel) (by decide +kernel) (by decide +kernel), ⟨rfl, by decide, rfl⟩, by decide +kernel, by decide +kernel⟩

/-- Queues in the first m slots and one that has waited long enough to rank above: for slot m, or as all are taken for that of the
mapped queue of the highest number. No packet can be read, the size of a ring being 0. -/
def crowded (m : Nat) : State :=
  let s := scheduled ((List.range (m + 1)).map fun q => { queueOf q 3 (if q = m then some 0 else none) with slot := if q = m then none else some q })
  { s with
    mem := (List.range (m + 1)).flatMap fun q => cellsAt (128 * q + 8) [0, 0, 0, 0, 1, 0, 0, 0]
    sched := { s.sched with qtcount := m + 1, slots := (List.range 64).map fun q => ⟨if q < m then some q else none, none⟩ } }
theorem readCell_of_mem {k : Nat} {b : Byte} : ∀ {m : List Host.Cell}, m.Pairwise (fun x y => x.1 < y.1) → (k, b) ∈ m → readCell m k = some b
  | (a, x) :: m, hw, h => by
    rcases List.mem_cons.1 h with e | h
    · cases e; simp [readCell]
    · have hlt := (List.pairwise_cons.1 hw).1 _ h
      simp only [readCell, show ¬ a = k from Nat.ne_of_lt hlt, show ¬ k < a from Nat.lt_asymm hlt, ↓reduceIte]
      exact readCell_of_mem (List.pairwise_cons.1 hw).2 h
theorem crowded_bytes (m q : Nat) (hw : (crowded m).mem.Pairwise fun x y => x.1 < y.1) (h : q < m + 1) (hq : q < 2 ^ 20) :
    let b := (crowded m).bytes ((crowded m).sched.qtbase.toNat + 128 * q) 128
    isHbm ((crowded m).sched.qtbase.toNat + 128 * q) = true ∧ (parseDesc b).1.state = 1 ∧ (parseDesc b).2 = false := by
  intro b
  have hz : (crowded m).sched.qtbase.toNat = 0 := rfl
  have hb : ∀ j, j < 8 → (crowded m).byte (0 + 128 * q + (8 + j)) = [0, 0, 0, 0, 1, 0, 0, 0].getD j 0 := fun j hj => by
    unfold State.byte
    rw [show isSpad (0 + 128 * q + (8 + j)) = false by simp [isSpad]; omega, readCell_of_mem (b := [0, 0, 0, 0, 1, 0, 0, 0].getD j 0) hw]
    · rfl
    · refine List.mem_flatMap.2 ⟨q, List.mem_range.2 h, ?_⟩
      rw [show 0 + 128 * q + (8 + j) = 128 * q + 8 + j by omega]
      revert j; intro j hj
      interval_cases j <;> simp [cellsAt]
  have h8 : fieldOf b 8 4 = 0 := by
    show leNat [(crowded m).byte (_ + 8), (crowded m).byte (_ + 9), (crowded m).byte (_ + 10), (crowded m).byte (_ + 11)] = 0
    rw [hz, hb 0 (by omega), hb 1 (by omega), hb 2 (by omega), hb 3 (by omega)]; rfl
  have h12 : fieldOf b 12 4 = 1 := by
    show leNat [(crowded m).byte (_ + 12), (crowded m).byte (_ + 13), (crowded m).byte (_ + 14), (crowded m).byte (_ + 15)] = 1
    rw [hz, hb 4 (by omega), hb 5 (by omega), hb 6 (by omega), hb 7 (by omega)]; rfl
  refine ⟨by rw [hz]; simp [isHbm, hbmStack]; omega, h12, ?_⟩
  unfold parseDesc
  simp only [h8]
  rw [show ((List.range 17).any fun k => (0 : Nat) == 2 ^ k) = false by decide]; rfl
theorem crowded_reads (m : Nat) (hw : (crowded m).mem.Pairwise fun x y => x.1 < y.1) (q : Queue) (h : q.num < m + 1) (hq : q.num < 2 ^ 20) :
    (crowded m).readPri q = (crowded m, 0) := by
  obtain ⟨a, -, b'⟩ := crowded_bytes m q.num hw h hq
  have hl : ∀ l : List Nat, l.foldl (fun s line => s.readLine line) (crowded m) = crowded m := fun l => by
    induction l with
    | nil => rfl
    | cons y l ih =>
      rw [List.foldl_cons, readLine_quiet _ _ rfl fun c hc => by
        rw [List.mem_singleton.1 hc]; exact fun h => (nomatch (show Crew.empty.phase = .granted from h))]
      exact ih
  have hr : (crowded m).readDesc q.num = (crowded m, parseDesc ((crowded m).bytes ((crowded m).sched.qtbase.toNat + 128 * q.num) 128)) := by
    unfold State.readDesc State.physRead
    simp only [a, ↓reduceIte, hl]
  unfold State.readPri
  rw [show (crowded m).launchOf q.num = none from rfl, hr]
  generalize parseDesc _ = y at b'
  obtain ⟨y1, y2⟩ := y
  cases (b' : y2 = false)
  rfl
/-- The queue of number q among those. -/
def crowdedQueue (m q : Nat) : Queue := { queueOf q 3 (if q = m then some 0 else none) with slot := if q = m then none else some q }
theorem crowded_queue {m : Nat} {x : Queue} (hx : x ∈ (crowded m).sched.queues) : ∃ q, q < m + 1 ∧ x = crowdedQueue m q :=
  let ⟨q, hq, e⟩ := List.mem_map.1 (show x ∈ (List.range (m + 1)).map (crowdedQueue m) from hx)
  ⟨q, List.mem_range.1 hq, e.symm⟩
theorem crowded_steady (m : Nat) (hw : (crowded m).mem.Pairwise fun x y => x.1 < y.1) (hm : m < 2 ^ 20) :
    ∀ x ∈ (crowded m).sched.queues, Steady (crowded m) x := by
  intro x hx
  obtain ⟨q, hq, rfl⟩ := crowded_queue hx
  obtain ⟨a, b, b'⟩ := crowded_bytes m q hw hq (by omega)
  refine ⟨⟨_, ⟨a, _, rfl⟩, b⟩, ⟨rfl, rfl, .inl (show 2 < 3 by decide)⟩, fun h => ?_, by rw [crowded_reads m hw _ hq (show q < 2 ^ 20 by omega)]⟩
  by_cases e : q = m
  · simp [crowdedQueue, e, queueOf]
  · simp [crowdedQueue, e] at h
theorem crowded_slot (m i : Nat) : (crowded m).sched.slots[i]? = if i < 64 then some ⟨if i < m then some i else none, none⟩ else none := by
  show ((List.range 64).map fun q => (⟨if q < m then some q else none, none⟩ : QSlot))[i]? = _
  rw [List.getElem?_map]; by_cases h : i < 64 <;> simp [h]
theorem crowded_find (m q : Nat) (h : q < m + 1) : (crowded m).queue? q ≠ none := by
  unfold State.queue?
  rw [Ne, List.find?_eq_none]
  exact fun e => e (crowdedQueue m q) (List.mem_map.2 ⟨q, List.mem_range.2 h, rfl⟩) (by simp [crowdedQueue, queueOf])
theorem crowded_slots (m : Nat) (hm : m ≤ 64) : SlotsOk (crowded m) := by
  refine ⟨⟨by simp [crowded], fun y hy => ?_⟩, ?_, fun x hx i => ?_, fun i y q h hq => ?_⟩
  · obtain ⟨_, -, rfl⟩ := List.mem_map.1 (show y ∈ (List.range 64).map fun q => (⟨if q < m then some q else none, none⟩ : QSlot) from hy); rfl
  · show ((List.range (m + 1)).map (crowdedQueue m)).Pairwise _
    rw [List.pairwise_map]; exact List.nodup_range.imp fun h => h
  · obtain ⟨q, hq, rfl⟩ := crowded_queue hx
    have hn : (crowdedQueue m q).num = q := rfl
    have hs : (crowdedQueue m q).slot = if q = m then none else some q := rfl
    rw [crowded_slot, hn, hs]
    constructor
    · intro e; split at e <;> cases e; exact ⟨_, by rw [if_pos (by omega)], by simp; omega⟩
    · rintro ⟨y, h, h'⟩; split at h <;> cases h; split at h' <;> cases h'; rw [if_neg (by omega)]
  · rw [crowded_slot] at h
    split at h <;> cases h; split at hq <;> cases hq; exact crowded_find m _ (by omega)
theorem crowded_priOf (m q : Nat) (hw : (crowded m).mem.Pairwise fun x y => x.1 < y.1) (hm : m < 2 ^ 20) (h : q < m + 1) :
    priOf (crowded m) (crowdedQueue m q) = if q = m then 2 else 0 := by
  unfold priOf State.basePri
  rw [crowded_reads m hw _ h (show q < 2 ^ 20 by omega)]
  by_cases e : q = m
  · rw [show (crowdedQueue m q).slot = none by simp [crowdedQueue, e], show (crowdedQueue m q).since = some 0 by simp [crowdedQueue, queueOf, e], if_pos e]
    show min 7 (0 + (1000 - 0) / State.reset.hub.regs.qage.toNat) = 2
    decide +kernel
  · rw [show (crowdedQueue m q).slot = some q by simp [crowdedQueue, e], if_neg e]
theorem crowded_rank (m q : Nat) (hw : (crowded m).mem.Pairwise fun x y => x.1 < y.1) (hm : m < 2 ^ 20) (h : q < m) :
    rankOf (crowded m) (crowdedQueue m q) = ((List.range (m + 1)).filter fun p => p == m || decide (p < q)).length := by
  unfold rankOf
  show (((List.range (m + 1)).map (crowdedQueue m)).filter _).length = _
  rw [List.filter_map, List.length_map]
  congr 1
  refine List.filter_congr fun p hp => ?_
  have hp := List.mem_range.1 hp
  simp only [Function.comp_apply, above, crowded_priOf m _ hw hm hp, crowded_priOf m _ hw hm (show q < m + 1 by omega)]
  have hq : ¬ q = m := by omega
  have hl : ((crowded m).launchOf (crowdedQueue m p).num).isNone = true := rfl
  have ht : decide ((crowdedQueue m p).tail ≤ (crowdedQueue m p).head) = false := rfl
  rw [ht]
  by_cases e : p = m
  · simp [e, hq]
  · simp [e, hq, crowdedQueue, queueOf]
theorem witness_QueueScheduling_rotation :
    (SlotsOk (crowded 64) ∧ (∀ x ∈ (crowded 64).sched.queues, Steady (crowded 64) x) ∧ rankOf (crowded 64) (crowdedQueue 64 63) = 64 ∧
      rankOf (crowded 64) (crowdedQueue 64 62) = 63) ∧
    SlotsOk (crowded 2) ∧ (∀ x ∈ (crowded 2).sched.queues, Steady (crowded 2) x) ∧ (places (crowded 2))[rankFresh (crowded 2) (crowdedQueue 2 2)]? = some 2 := by
  have hw : (crowded 64).mem.Pairwise fun x y => x.1 < y.1 :=
    haveI : Trans (fun x y : Host.Cell => x.1 < y.1) (fun x y : Host.Cell => x.1 < y.1) (fun x y : Host.Cell => x.1 < y.1) := ⟨fun h h' => Nat.lt_trans h h'⟩
    List.isChain_iff_pairwise.1 (by decide +kernel)
  refine ⟨⟨crowded_slots 64 (by omega), crowded_steady 64 hw (by omega), ?_, ?_⟩, crowded_slots 2 (by omega), crowded_steady 2 (by decide +kernel) (by omega), by decide +kernel⟩
  · rw [crowded_rank 64 63 hw (by omega) (by omega)]; decide
  · rw [crowded_rank 64 62 hw (by omega) (by omega)]; decide

/-- Tables from 0x400000 on: leaf entries of the pages at 0x100000 (CHUNKED), 0x110000 (SYSTEM) and 0x130000 (CHUNKED). -/
def walkCells : List Host.Cell :=
  cellsAt 0x400000 (leBytes 8 (0x41 * 2 ^ 22 + 1)) ++ cellsAt 0x410000 (leBytes 8 (0x42 * 2 ^ 22 + 1)) ++ cellsAt 0x420000 (leBytes 8 (0x43 * 2 ^ 22 + 1)) ++
    cellsAt 0x430080 (leBytes 8 (2 ^ 58 + 0x400031F)) ++ cellsAt 0x430088 (leBytes 8 (2 ^ 58 + 0x440035F)) ++ cellsAt 0x430098 (leBytes 8 (2 ^ 58 + 0x4C0031F))

/-- A queue mapped to slot 0, whose oldest packet stands at 0x130800. -/
def packetFor (mode dieset crews lo hi grain : Nat) : List Host.Cell :=
  cellsAt 0x130800 (leBytes 8 0x100000 ++ leBytes 8 5 ++ leBytes 1 mode ++ leBytes 1 dieset ++ leBytes 2 0 ++ leBytes 4 crews ++
    leBytes 8 lo ++ leBytes 8 hi ++ leBytes 8 grain ++ leBytes 4 1024 ++ leBytes 4 256 ++ List.replicate 72 0)
def ringOf : Desc := { entryOf with rootpt := 0x400000 }
def arriving (cells : List Host.Cell) : State :=
  let s := withTlb { State.reset with mem := cellsAt 0x100000 ((codeOf 0).take 8) ++ cells ++ walkCells, uids := 200 }
  { s with sched := { s.sched with
      launches := [], queues := [⟨7, 1, 0, none, some 0, false, false, ringOf, false, false, none⟩]
      slots := (List.replicate 64 ⟨none, none⟩).set 0 ⟨some 7, none⟩ } }
def packetIn (cells : List Host.Cell) : Option (Packet × Bool) := ((arriving cells).headPacket ringOf 0 0).2.map parsePacket
/-- What the packets of the three modes read as. -/
def arrived3 (mode crews lo hi grain : Nat) : Packet := { packetOf with mode := mode, crews := crews, lo := lo, hi := hi, grain := grain, entry := 0x100000, arenaBase := 0, keyslot := 0, compl := 0 }

theorem packet_ok (cells : List Host.Cell) (mode crews lo hi grain : Nat) (h : if mode = 2 then 1 ≤ crews ∧ crews ≤ 16 else crews = 0) :
    PacketOk (arriving cells) (arrived3 mode crews lo hi grain) where
  dies := by show (1 : BitVec 8) ≠ 0; decide
  once := by show ∀ i j : Fin 8, i ≠ j → (1 : BitVec 8).getLsbD i.val = true → (1 : BitVec 8).getLsbD j.val = true →
    State.reset.hub.regs.diemap.getD i.val 0 ≠ State.reset.hub.regs.diemap.getD j.val 0; decide
  cores := by show State.reset.hub.regs.coresIn 1 ≠ []; decide +kernel
  crews := h
  windows := by show (if mode = 2 then crews else 1) * 1024 ≤ 2 ^ 19; split at h <;> split <;> omega
  key := ⟨List.mem_singleton.2 rfl, List.not_mem_nil⟩
  aligned := ⟨rfl, rfl, rfl, (by decide : 1024 % 128 = 0), (by decide : 256 % 128 = 0)⟩
theorem witness_LaunchStarts :
    packetIn (packetFor 0 1 0 0 0 0) = some (arrived3 0 0 0 0 0, false) ∧ packetIn (packetFor 1 1 0 3 100 7) = some (arrived3 1 0 3 100 7, false) ∧
    packetIn (packetFor 2 1 16 0 0 0) = some (arrived3 2 16 0 0 0, false) ∧ (packetIn (packetFor 3 1 0 0 0 0)).map (·.2) = some true ∧
    (∀ cells, PacketOk (arriving cells) (arrived3 0 0 0 0 0) ∧ PacketOk (arriving cells) (arrived3 1 0 3 100 7) ∧ PacketOk (arriving cells) (arrived3 2 16 0 0 0) ∧
      ¬ PacketOk (arriving cells) (arrived3 2 17 0 0 0) ∧ Fresh (arriving cells) ∧ (arriving cells).hub.powered = true ∧
      (arriving cells).sched.slots[0]? = some ⟨some 7, none⟩) ∧
    ((arriving (packetFor 0 1 0 0 0 0)).headPacket ringOf 0 0).1.stall = false ∧
    (let b := arriving []
     let check := State.checkTarget true 0x100000 { b with focus := { launchOf with uid := 200 }.agent false, sched := { b.sched with launches := [{ launchOf with uid := 200 }] } }
     check.2 = none ∧ check.1.stall = b.stall) := by
  refine ⟨by decide +kernel, by decide +kernel, by decide +kernel, by decide +kernel, fun cells => ⟨packet_ok _ _ _ _ _ _ rfl, packet_ok _ _ _ _ _ _ rfl,
    packet_ok _ _ _ _ _ _ (by decide), fun h => absurd h.crews (by decide), ?_, rfl, rfl⟩, by decide +kernel, by decide +kernel⟩
  intro y hy; rw [List.mem_singleton.1 hy]; exact Nat.zero_lt_succ _

/-- A launch of slot 0 with no crew, whose completion record goes to 0x100000; the same with a crew that runs, told to stop
20,000 µs ago; told to stop now, its crew stopped. -/
def running (l : Launch) (f : Crew → Crew) : State :=
  let s := sole l f
  { s with
    now := 20000
    mem := s.mem ++ walkCells
    sched := { s.sched with queues := [⟨7, 1, 0, none, some 0, false, false, descOf, false, false, none⟩], slots := (List.replicate 64 ⟨none, none⟩).set 0 ⟨some 7, none⟩ } }
def ending : Launch := { launchOf with packet := { packetOf with compl := 0x100000 } }
def stopped : Launch := { launchOf with stopAt := some 0 }
theorem witness_LaunchEnds :
    (let s := running ending fun _ => Crew.empty
     s.running 0 = some ending ∧ s.launch? 100 = some ending ∧ (∀ c ∈ s.crews, c.uid ≠ 0 → c.task.launch ≠ 100) ∧
      (∀ k ∈ s.cores, k.barge = ⟨[], [], [], []⟩ ∧ k.ten = []) ∧ ending.reducers = none ∧ ending.finals = [] ∧ s.streams = [] ∧ s.posted = [] ∧
      (∃ x, s.queue? 7 = some x ∧ ending.number = (x.head + 1) % 2 ^ 32) ∧ s.bad = [] ∧ Calm s ∧ Memory.wf s.mem ∧ isHbm (s.sched.qtbase.toNat + 128 * 7 + 16) = true ∧
      (s.locate (ending.agent true) none ⟨false, true, false⟩ 0x100000 32).2 = .ok (pageLoc 0) (some (0x100000, 16)) ∧ 
      lineOf 0x100000 ≠ lineOf (s.sched.qtbase.toNat + 128 * 7 + 16)) ∧
    (let s := running stopped fun c => { c with cur := some wordClause }
     s.running 0 = some stopped ∧ s.hub.regs.stopTmo ≠ 0 ∧ 0 + s.hub.regs.stopTmo.toNat ≤ s.now ∧ s.focus ∈ s.crews ∧ s.focus.phase = .run ∧
      s.focus.cur ≠ none ∧ ∀ y ∈ s.crews, y.phase ≠ .granted ∧ y.phase ≠ .acting) := by
  refine ⟨⟨rfl, rfl, ?_, by decide +kernel, rfl, rfl, rfl, rfl, ⟨_, rfl, rfl⟩, rfl, ⟨?_, by decide +kernel, rfl, ?_⟩, by decide, by decide, rfl, by decide +kernel⟩,
    rfl, by decide, by decide, List.mem_cons_self .., rfl, by decide, ?_⟩
  all_goals intro y hy; rw [List.mem_singleton.1 hy]; decide

/-- An image of one crew record. -/
def imageOf : List Dword := [BitVec.ofNat 64 (2 ^ 32 + 0x5345494D), 0, 1, 0, 0, 0, 0, 0] ++ (18 :: List.replicate 17 0)
def imageCells : List Host.Cell := cellsAt 0x300000 (leBytes 8 (encodeImage imageOf).length ++ encodeImage imageOf)
def savedCrew : Crew := { crewOf (memRegs 8) with phase := .stopped, place := .waiting 0 }
def resting (cells : List Host.Cell) : State :=
  let l := { launchOf with saved := true, slot := none, packet := { packetOf with spmreq := 0 } }
  let s := running l fun _ => Crew.empty
  { s with mem := cells, sched := { s.sched with saved := [⟨100, [savedCrew], [], [], false⟩] } }
/-- A stopped launch of package 3 with a crew enrolled in an object of the pod. -/
def podUser : State :=
  let s := running stopped fun c => { c with phase := .stopped, cur := none, enroll := [⟨⟨5, 0, 1⟩, 0⟩] }
  { s with hub := { s.hub with regs := { s.hub.regs with pkg := 3 } } }
theorem witness_Contexts :
    (let s := running launchOf id
     s.running 0 = some launchOf ∧ (s.mapQueue 7 fun x => { x with asked := true }).queue? 7 = some ⟨7, 1, 0, none, some 0, false, false, descOf, false, true, none⟩) ∧
    (savedCrew.phase ≠ .unstarted ∧ savedCrew.r.pedigree.length ≤ 32 ∧ savedCrew.r.frontier.length ≤ 32) ∧
    (let s := podUser
     s.running 0 = some stopped ∧ s.launchStopped 100 = true ∧ s.hub.regs.pkg ≠ 0 ∧ s.podsOf 100 = [1] ∧ stopped.pods = [] ∧ s.link (some 0) = .up) ∧
    (let s := running stopped fun c => { c with phase := .stopped, cur := none }
     s.running 0 = some stopped ∧ s.launchStopped 100 = true ∧ s.podsOf 100 = [] ∧ s.ctx? 100 = none ∧ Calm s ∧ isHbm stopped.desc.savebase = true ∧
      (∀ c ∈ s.crews, c.phase ≠ .acting)) ∧
    ((resting (cellsAt 0x300000 (leBytes 8 0x10000))).readImage descOf).2 = none ∧ ((resting imageCells).readImage descOf).2 = some imageOf ∧
    splitImage imageOf = some ([], [], [18 :: List.replicate 17 0]) ∧
    (resting imageCells).recordCore (18 :: List.replicate 17 0) = some 0 ∧ twiceMapped (resting imageCells).hub.regs 1 = false ∧
    ((resting imageCells).freeSlots 0).head? = some 0 ∧ ((resting imageCells).launchOf 7).isSome ∧
    (∀ z ∈ (resting imageCells).crews, z.uid ≠ savedCrew.uid) := by
  refine ⟨⟨rfl, rfl⟩, by decide, ⟨rfl, by decide +kernel, by decide, rfl, rfl, rfl⟩, ⟨rfl, by decide +kernel, rfl, rfl, ⟨?_, by decide +kernel, rfl, ?_⟩, by decide, ?_⟩, by decide +kernel, by decide +kernel, by decide +kernel,
    by decide +kernel, by decide +kernel, by decide +kernel, by decide +kernel, ?_⟩
  all_goals intro y hy; rw [List.mem_singleton.1 hy]; decide

/-- Accesses from outside, up to the last byte of HBM; none past it or under a slot without a key. -/
theorem reset_ready (pa n : Nat) (h : 0 < n) (h' : pa + n ≤ 8 * 0xC00000000) : HbmReady State.reset 0 pa n :=
  ⟨⟨h, h'⟩, ⟨by decide, List.mem_singleton.2 rfl, List.not_mem_nil⟩, by decide, fun b hb => (nomatch hb), fun z hz => (nomatch hz)⟩
theorem calm_of {s : State} (h : ∀ c ∈ s.crews, c.uncommitted = false ∧ c.phase ≠ .granted) (h' : s.landings = State.reset.landings) (h'' : s.partials = []) : Calm s :=
  ⟨fun c hc g => (nomatch (h c hc).1.symm.trans g), by rw [h']; decide +kernel, h'', fun c hc => (h c hc).2⟩
theorem reset_calm : Calm State.reset := calm_of (by decide) rfl rfl
theorem witness_HostAccesses :
    HbmReady State.reset State.reset.hub.bar2key.toNat (State.reset.hub.bar2base.toNat + (8 * 0xC00000000 - 8)) 8 ∧ Calm State.reset ∧
    Memory.wf State.reset.mem ∧ (8 * 0xC00000000 - 8) % 8 = 0 ∧ Unqueued State.reset none ∧ Quiet State.reset ∧ (0x1FF0 : Nat) % 8 = 0 ∧ (0x1FF0 : Nat) < 0x1FF8 ∧
    8 * 0xC00000000 < State.reset.hub.bar2base.toNat + (8 * 0xC00000000 - 7) + [(1 : Byte), 2, 3, 4, 5, 6, 7, 8].length :=
  ⟨reset_ready _ _ (by decide) (by decide), reset_calm, by decide, by decide, fun _ h => absurd h List.not_mem_nil, reset_calm.quiet, by decide, by decide, by decide⟩

/-- The mailbox free and busy; key slots at the ends of their range; a launch that holds slot 0; a command in register 0x1000. -/
def mailed (x : Dword) : State := { State.reset with hub := { State.reset.hub with mailbox := [(0x1000, x)] } }
theorem witness_MailboxCommands :
    MailFree State.reset ∧ ¬ MailFree { State.reset with hub := { State.reset.hub with mbx := 1 } } ∧
    (∀ l ∈ State.reset.sched.launches, l.packet.keyslot.toNat ≠ 4095) ∧ (∀ y ∈ State.reset.streams, y.line.slot.toNat ≠ 4095) ∧
    (let s := { State.reset with sched := { State.reset.sched with launches := [{ launchOf with packet := { packetOf with keyslot := 9 } }] } }
     MailFree s ∧ ∃ l ∈ s.sched.launches, l.packet.keyslot.toNat = 9) ∧
    (∀ x, (mailed x).mail 0x1000 = x) ∧ (mailed 9).mail 0x1008 = BitVec.ofNat 64 0 ∧
    (let s := { State.reset with hub := { State.reset.hub with staged := true } }
     MailFree s ∧ s.sched.launches = [] ∧ s.hub.staged = true) ∧ State.reset.hub.staged = false := by
  unfold MailFree
  refine ⟨by decide, by decide, by decide, by decide, ⟨by decide, _, List.mem_singleton.2 rfl, rfl⟩, fun x => rfl, rfl, ⟨by decide, rfl, rfl⟩, rfl⟩

/-- A queue whose launch runs; one without a launch; a saved launch whose copy ends; a copy at hand. -/
def copied : Checkpoint := { place := .host 0x1000, queue := 7, launch := launchOf, ctx := ⟨100, [savedCrew], [], [], false⟩, frames := [(0x300000, 0x10000)], cells := cellsAt 0x300000 [5, 6], keyed := [], keys := [] }
def holding (x : Queue) (f : Sched → Sched) : State := let s := scheduled [x]; { s with sched := f s.sched }
theorem witness_CheckpointCommands :
    (MailFree (scheduled []) ∧ (scheduled []).sched.qtcount ≤ 16) ∧
    (let s := running launchOf id; let s := { s with sched := { s.sched with qtcount := 8 } }
     MailFree s ∧ 7 < s.sched.qtcount ∧ s.launchOf 7 = some launchOf ∧ launchOf.saved = false) ∧
    (let s := scheduled [queueOf 7 3 none]
     MailFree s ∧ s.launchOf 7 = none ∧ s.queue? 7 = some (queueOf 7 3 none) ∧ (queueOf 7 3 none).slot = none) ∧
    (let x := { queueOf 7 3 none with ckpt := some (.host 0x1000), copying := true }
     let s := holding x fun y => { y with launches := [{ launchOf with saved := true, slot := none }], saved := [⟨100, [savedCrew], [], [], false⟩] }
     s.queue? 7 = some x ∧ (s.launchOf 7).isSome ∧ (s.ctx? 100).isSome ∧ s.partials = [] ∧ (∀ c ∈ s.crews, c.phase ≠ .granted) ∧ s.link none = .up) ∧
    (let s := holding (queueOf 7 3 none) fun y => { y with ckpts := [copied] }
     MailFree s ∧ 7 < s.sched.qtcount ∧ copied ∈ s.sched.ckpts ∧ (∀ c ∈ s.sched.ckpts, c.place = .host 0x1000 → c.queue = 7 → c = copied) ∧ s.launchOf 7 = none ∧
      s.launch? 100 = none ∧ s.ctx? 100 = none ∧ copied.ctx.launch = copied.launch.uid ∧ copied.keys = [] ∧ Calm s ∧ Memory.wf s.mem ∧ Memory.wf copied.cells) := by
  unfold MailFree
  refine ⟨by decide, by decide, by decide, by decide, by decide, by decide, List.mem_singleton.2 rfl, fun c hc _ _ => List.mem_singleton.1 hc, by decide, by decide, by decide, rfl, rfl,
    calm_of (by decide) rfl rfl, by decide +kernel, by decide +kernel⟩

/-- Windows that let source 5 read, and write; one of no size. -/
def allowing (w : BitVec 2) : Window := ⟨BitVec.ofNat 64 (2 ^ 39 + 0x100000), BitVec.ofNat 64 (5 * 2 ^ 32 + 5 * 2 ^ 42 + w.toNat)⟩
def windowed (w : BitVec 2) : State := { State.reset with hub := { State.reset.hub with windows := State.reset.hub.windows.set 0 (allowing w) } }
theorem witness_PeerAccesses :
    (∀ y ∈ State.reset.hub.windows, ¬ LetsIn y 5 0x100000 1 false ∧ ¬ LetsIn y 5 0x100000 1 true) ∧
    Enters (windowed 1) (allowing 1) 5 (0x110000 - 8) 8 false ∧ Enters (windowed 2) (allowing 2) 5 0x100000 8 true ∧
    ¬ LetsIn (allowing 3) 4 0x100000 8 false ∧ ¬ LetsIn (allowing 3) 5 (0x110000 - 7) 8 false ∧
    HbmReady (windowed 3) (keyOf (allowing 3)) 0x100000 8 ∧ Calm (windowed 3) ∧ Unqueued (windowed 3) (some 5) := by
  unfold Enters LetsIn
  exact ⟨by decide, ⟨0, rfl, by decide, fun j hj => absurd hj (Nat.not_lt_zero _)⟩, ⟨0, rfl, by decide, fun j hj => absurd hj (Nat.not_lt_zero _)⟩,
    by decide, by decide, ⟨by decide, ⟨by decide, List.mem_singleton.2 rfl, List.not_mem_nil⟩, by decide, fun b hb => (nomatch hb), fun z hz => (nomatch hz)⟩, calm_of (by decide) rfl rfl, fun _ h => absurd h List.not_mem_nil⟩

/-- That a boot succeeds is a free value of the configuration (log entry 20): the statement assumes it of the counter, and the rest
of its hypotheses hold of the state after reset. -/
theorem witness_Resets : State.reset.sched.launches = [] ∧ State.reset.streams = [] ∧ State.reset.inbound = [] ∧ State.reset.hub.keys = [0] := ⟨rfl, rfl, rfl, rfl⟩

/-- A Part copy on die 0; a package that draws too much, or is at its lowest clock; the objects of the pod. -/
def parted : State := { mem 8 with partials := [⟨0, 0x2100, 0, 64, 0, []⟩] }
theorem witness_OutsideEvents :
    (parted.partials = [⟨0, 0x2100, 0, 64, 0, []⟩] ∧ parted.crew? 1 = some parted.focus ∧ parted.focus.post = [] ∧
      (∀ z ∈ parted.crews, z.uid = 1 → z = parted.focus) ∧ parted.focus.task.launch ≠ 0 ∧
      (⟨0, 0x2100, 0, 64, 0, []⟩ : Partial).slot = parted.focus.r.keyslot) ∧
    State.reset.hub.capMw < State.reset.hub.capMw + 1 ∧ 470 < State.reset.hub.clock ∧ State.reset.hub.pods[(1 : Fin 2).val]? = some Barrier.reset ∧
    State.reset.hub.regs.pkg = 0 ∧ ¬ (Barrier.reset.arrived + 1 = Barrier.reset.expect.toNat) ∧
    (let b := { Barrier.reset with expect := 1 }
     { b with arrived := b.arrived + 1 }.arrived = b.expect.toNat ∧ b.pendb = 0) := by
  refine ⟨⟨rfl, rfl, rfl, fun z hz _ => List.mem_singleton.1 hz, by decide, by decide +kernel⟩, by decide, by decide, by decide, by decide, by decide, by decide⟩

theorem witness_DecodeOfEncode : (Instr.bra (-4)).wf = true ∧ (Instr.bra (-4)).cls = some .seq ∧ setOk 15 = true ∧ setOk 0 = true ∧ (63 : Fin 64) ≠ 0 := by decide
theorem witness_EncodeOfDecode : (0x01FFFFFC : Nat) < 2 ^ 32 ∧ decode .seq 0x01FFFFFC [7] = some (.bra (-4), [7]) := by decide
theorem witness_ImageCoder : 0xC0 ≤ (0xC0 : Byte).toNat ∧ (0xFE : Byte).toNat < 0xFF := by decide
def issuing (w : BitVec 32) (r : Option Rep) : State :=
  onRegs (fun r => { r with safecnt := 7 }) { plain 8 with focus := { (plain 8).focus with cur := some { wordClause with words := [w, 0], rep := r } } }
theorem witness_StepRunsInstruction :
    (let s := { State.reset with agenda := [(3, Move.step .coldReset)] }
     s.agenda = (3, .step .coldReset) :: []) ∧
    (let s := issuing 0x13241080 none
     ∃ c, NextIssues s c 0 [] ∧ NextWords c 0x13241080 [0] ∧ decodeAt c.header.cls c.idx 0x13241080 [0] = some (.smulh 9 1 2, [0]) ∧ c.rep = none ∧
      s.focus.task.kind ≠ .routine ∧ s.focus.r.safecnt ≠ 4096) ∧
    (let s := issuing 0xFFFFFFFF none
     ∃ c, NextIssues s c 0 [] ∧ NextWords c 0xFFFFFFFF [0] ∧ decodeAt c.header.cls c.idx 0xFFFFFFFF [0] = none) ∧
    (∃ c, NextIssues (issuing 0x13241080 (some ⟨1, 2, 8⟩)) c 0 [] ∧ c.rep = some ⟨1, 2, 8⟩ ∧ stepInstr 8 1 (.smulh 9 1 2) = some (.smulh 10 1 2)) ∧
    (stepInstr 8 55 (.smulh 9 1 2) = none ∧ (onRegs (fun r => { r with safecnt := 4096 }) (plain 8)).focus.r.safecnt = 4096) ∧
    (let s := between 0x100000 0
     (∃ leaf pa page, (s.translate (s.space s.focus false) ⟨false, false, true⟩ 0x100000).2 = .ok leaf pa page ∧ isHbm pa = true ∧ pa % 4 = 0) ∧
      (s.coreAt 0).code.find? (fun x => x.line == 0x2000) = some ⟨0x2000, codeOf 0⟩ ∧ ∀ x ∈ (s.coreAt 0).code, x.line ≠ 0x2002) := by
  refine ⟨rfl, ⟨_, ⟨rfl, by decide, .inr ⟨rfl, rfl, rfl, rfl⟩⟩, rfl, by decide, rfl, by decide, by decide⟩,
    ⟨_, ⟨rfl, by decide, .inr ⟨rfl, rfl, rfl, rfl⟩⟩, rfl, by decide⟩,
    ⟨_, ⟨rfl, by decide, .inr ⟨rfl, rfl, rfl, rfl⟩⟩, rfl, by decide⟩, ⟨by decide, rfl⟩, ⟨_, _, _, rfl, by decide, by decide⟩, by decide +kernel, by decide +kernel⟩
/-- The state after reset, and one with a crew: numbers below the next, canonical memory. -/
theorem witness_EveryStepGoesOn : Memory.wf State.reset.mem ∧ Memory.wf (mem 8).mem := ⟨by decide, by decide +kernel⟩
theorem witness_NumbersStayBelow : State.reset.Numbered ∧ ∃ t, step State.reset = .next t :=
  ⟨⟨by decide, fun l h => (nomatch h), fun l h => (nomatch h), fun l h => (nomatch h)⟩, _, rfl⟩

/-- An object of each scope at a passing and at a waiting evaluation. -/
def meeting (o : ObjId) (b : Barrier) (k : ActKind) : State :=
  let s := { acting k with uids := 300 }
  match o.scope.val with
  | 1 => { s with cores := s.cores.modify 0 fun c => { c with bars := c.bars.set o.num b } }
  | _ => { s with dies := s.dies.modify 0 fun c => { c with bars := c.bars.set o.num b } }
def waitingFor (n : BitVec 20) : Barrier := ⟨launchOf.tag, true, 1, 5, 0, n, 0⟩
theorem witness_BarrierPhases :
    (∀ k b, (meeting ⟨1, 0, 7⟩ b k).focus.chunk.acts = [⟨⟨0x1000, 1, 3⟩, k⟩] ∧ (meeting ⟨1, 0, 7⟩ b k).focus.phase = .acting ∧ (meeting ⟨1, 0, 7⟩ b k).focus.uid = 1) ∧
    ObjectIs (meeting ⟨1, 0, 7⟩ (waitingFor 2) .sync) ⟨1, 0, 7⟩ (waitingFor 2) ∧
    ObjectIs (meeting ⟨3, 0, 3⟩ (waitingFor 3) .sync) ⟨3, 0, 3⟩ (waitingFor 3) ∧
    ((waitingFor 2).arrived + laneCount 3 = (waitingFor 2).expect.toNat ∧ (waitingFor 2).pendb = 0) ∧
    ¬ (waitingFor 3).arrived + laneCount 3 = (waitingFor 3).expect.toNat ∧
    (meeting ⟨1, 0, 7⟩ (waitingFor 2) .sync).launch? 100 = some launchOf ∧ (waitingFor 2).owner = launchOf.tag ∧
    ({ waitingFor 2 with owner := 9 }.owner ≠ launchOf.tag) ∧ ({ waitingFor 2 with v := false }.v = false) := by
  refine ⟨fun k b => ⟨rfl, rfl, rfl⟩, ⟨by decide, by decide +kernel, rfl⟩, ⟨by decide, by decide +kernel, rfl⟩, by decide, by decide, rfl, rfl, by decide, rfl⟩

/-! ### Words: one for every instruction, from the opcode map, the forms of R28 to R30 and the layouts of R31, R33 and R34 -/

def wordsSeq1 : List (EngineClass × List Nat × Instr) :=
  [(.seq, [0x00000000], .nop), (.seq, [0x01ABCDE5], .bra 0xABCDE5), (.seq, [0x02056A35], .brz true 22 0xA35),
   (.seq, [0x03056A35], .brnz true 22 0xA35), (.seq, [0x04B9ABC5], .brq 5 true 0x9ABC5), (.seq, [0x05016000], .jmpi 22),
   (.seq, [0x06ABCDE5], .call 0xABCDE5), (.seq, [0x07016000], .calli 22), (.seq, [0x08000000], .ret), (.seq, [0x09000000], .exit),
   (.seq, [0x0A09ABC5], .safept 0x9ABC5), (.seq, [0x0B000A35], .waitf 0xA35), (.seq, [0x0C768000], .rep 29 0xA),
   (.seq, [0x0D000A35], .brk 0xA35), (.seq, [0x10A56340], .sadd 41 22 13), (.seq, [0x11A56340], .ssub 41 22 13)]
theorem test_decode_seq1 : ∀ p ∈ wordsSeq1, decode p.1 (p.2.1.headD 0) (p.2.1.drop 1) = some (p.2.2, []) := by decide
def wordsSeq2 : List (EngineClass × List Nat × Instr) :=
  [(.seq, [0x12A56340], .smul 41 22 13), (.seq, [0x13A56340], .smulh 41 22 13), (.seq, [0x14A56340], .smulhz 41 22 13),
   (.seq, [0x15A56340], .sand 41 22 13), (.seq, [0x16A56340], .sor 41 22 13), (.seq, [0x17A56340], .sxor 41 22 13),
   (.seq, [0x18A56340], .sshl 41 22 13), (.seq, [0x19A56340], .sshr 41 22 13), (.seq, [0x1AA56340], .ssar 41 22 13),
   (.seq, [0x1BA56340], .smin 41 22 13), (.seq, [0x1CA56340], .smax 41 22 13), (.seq, [0x1DA56340], .sminz 41 22 13),
   (.seq, [0x1EA56340], .smaxz 41 22 13), (.seq, [0x1FA56349], .scmp 41 22 13 9), (.seq, [0x20A56372], .ssel 41 22 13 50),
   (.seq, [0x21A56000], .smov 41 22)]
theorem test_decode_seq2 : ∀ p ∈ wordsSeq2, decode p.1 (p.2.1.headD 0) (p.2.1.drop 1) = some (p.2.2, []) := by decide
def wordsSeq3 : List (EngineClass × List Nat × Instr) :=
  [(.seq, [0x22A56000], .spopc 41 22), (.seq, [0x23A56000], .sclz 41 22), (.seq, [0x28A56A35], .saddi 41 22 0xA35),
   (.seq, [0x29A56A35], .sandi 41 22 0xA35), (.seq, [0x2AA56A35], .sori 41 22 0xA35), (.seq, [0x2BA5601D], .sshli 41 22 29),
   (.seq, [0x2CA5601D], .sshri 41 22 29), (.seq, [0x2DA5CA35], .smovk 41 1 0xCA35), (.seq, [0x2EA5CA35], .smovz 41 1 0xCA35),
   (.seq, [0x30A5635D], .srdl 41 22 13 29), (.seq, [0x38A40A35], .mfsr 41 0xA35), (.seq, [0x39016A35], .mtsr 0xA35 22),
   (.seq, [0x2FA40000, 0x89ABCDEF, 0x01234567], .slimm 41 0x0123456789ABCDEF)]
theorem test_decode_seq3 : ∀ p ∈ wordsSeq3, decode p.1 (p.2.1.headD 0) (p.2.1.drop 1) = some (p.2.2, []) := by decide
def wordsVi1 : List (EngineClass × List Nat × Instr) :=
  [(.vi, [0x00A56000], .vmov 41 22 false none), (.vi, [0x01A56340], .vadd 41 22 13 false none),
   (.vi, [0x02A56340], .vsub 41 22 13 false none), (.vi, [0x03A56340], .vadds 41 22 13 false none),
   (.vi, [0x04A56340], .vsubs 41 22 13 false none), (.vi, [0x05A56340], .vmul 41 22 13 false none),
   (.vi, [0x06A56340], .vmulh 41 22 13 false none), (.vi, [0x07A56372], .vmad 41 22 13 50 false none),
   (.vi, [0x08A56340], .vmin 41 22 13 false none), (.vi, [0x09A56340], .vmax 41 22 13 false none),
   (.vi, [0x0AA56000], .vabs 41 22 false none), (.vi, [0x0BA56000], .vneg 41 22 false none),
   (.vi, [0x0CA56340], .vabsd 41 22 13 false none), (.vi, [0x10A56340], .vand 41 22 13 false none),
   (.vi, [0x11A56340], .vor 41 22 13 false none), (.vi, [0x12A56340], .vxor 41 22 13 false none)]
theorem test_decode_vi1 : ∀ p ∈ wordsVi1, decode p.1 (p.2.1.headD 0) (p.2.1.drop 1) = some (p.2.2, []) := by decide
def wordsVi2 : List (EngineClass × List Nat × Instr) :=
  [(.vi, [0x13A56340], .vandn 41 22 13 false none), (.vi, [0x14A56000], .vnot 41 22 false none),
   (.vi, [0x15A56340], .vshl 41 22 13 false none), (.vi, [0x16A56340], .vshr 41 22 13 false none),
   (.vi, [0x17A56340], .vsar 41 22 13 false none), (.vi, [0x18A56340], .vrol 41 22 13 false none),
   (.vi, [0x19A56372], .vbfx 41 22 13 50 false none), (.vi, [0x1AA56372], .vbfi 41 22 13 50 false none),
   (.vi, [0x1BA56000], .vpopc 41 22 false none), (.vi, [0x1CA56000], .vclz 41 22 false none), (.vi, [0x1DA56000], .vbrev 41 22 false none),
   (.vi, [0x20156349], .vcmp 5 22 13 9 false none), (.vi, [0x21A56345], .vsel 41 22 13 5 false none),
   (.vi, [0x221460C2], .vqop 5 6 3 2 none), (.vi, [0x23156000], .vqmov 5 22 false false none),
   (.vi, [0x28A56A35], .vaddi 41 22 0xA35 none)]
theorem test_decode_vi2 : ∀ p ∈ wordsVi2, decode p.1 (p.2.1.headD 0) (p.2.1.drop 1) = some (p.2.2, []) := by decide
def wordsVi3 : List (EngineClass × List Nat × Instr) :=
  [(.vi, [0x29A56A35], .vandi 41 22 0xA35 none), (.vi, [0x2AA56A35], .vori 41 22 0xA35 none), (.vi, [0x2BA56A35], .vxori 41 22 0xA35 none),
   (.vi, [0x2CA5601D], .vshli 41 22 29 none), (.vi, [0x2DA5601D], .vshri 41 22 29 none), (.vi, [0x2EA5601D], .vsari 41 22 29 none),
   (.vi, [0x2FA5CA35], .vmovi 41 1 0xCA35 none), (.vi, [0x31A561C0], .viota 41 22 7 none),
   (.vi, [0x32A56372], .vwrl 41 22 13 50 false none), (.vi, [0x38196002], .vvote 6 22 2 false none),
   (.vi, [0x39A56000], .vballot 41 22 false none), (.vi, [0x3AA56000], .vmatch 41 22 false none),
   (.vi, [0x3BA56000], .vfirst 41 22 false none), (.vi, [0x3CA40000], .vactive 41 none),
   (.vi, [0x81A56360, 0x9DACF800], .vadd 41 22 13 true (some ⟨.idx 45 3, .xor 30 1, ⟨false, 0⟩, 0, false, none⟩)),
   (.vi, [0x81A56340, 0xFDB47C80], .vadd 41 22 13 false (some ⟨.segb 5 29, .shup 31 false, ⟨false, 2⟩, 0, false, none⟩))]
theorem test_decode_vi3 : ∀ p ∈ wordsVi3, decode p.1 (p.2.1.headD 0) (p.2.1.drop 1) = some (p.2.2, []) := by decide
def wordsVi4 : List (EngineClass × List Nat × Instr) :=
  [(.vi, [0x30A40000, 0x89ABCDEF, 0x01234567], .vlimm 41 0x0123456789ABCDEF)]
theorem test_decode_vi4 : ∀ p ∈ wordsVi4, decode p.1 (p.2.1.headD 0) (p.2.1.drop 1) = some (p.2.2, []) := by decide
def wordsVf1 : List (EngineClass × List Nat × Instr) :=
  [(.vf, [0x00A56340], .fadd 41 22 13 false none), (.vf, [0x01A56340], .fsub 41 22 13 false none),
   (.vf, [0x02A56340], .fmul 41 22 13 false none), (.vf, [0x03A56372], .fma 41 22 13 50 false none),
   (.vf, [0x04A56372], .fms 41 22 13 50 false none), (.vf, [0x05A56372], .fnma 41 22 13 50 false none),
   (.vf, [0x06A56340], .fmin 41 22 13 false none), (.vf, [0x07A56340], .fmax 41 22 13 false none),
   (.vf, [0x08A56340], .fminn 41 22 13 false none), (.vf, [0x09A56340], .fmaxn 41 22 13 false none),
   (.vf, [0x0AA56000], .fabs 41 22 false none), (.vf, [0x0BA56000], .fneg 41 22 false none),
   (.vf, [0x0CA56340], .fcps 41 22 13 false none), (.vf, [0x0D156347], .fcmp 5 22 13 7 false none),
   (.vf, [0x0EA56000], .fclass 41 22 false none), (.vf, [0x0FA56000], .frnd 41 22 false none)]
theorem test_decode_vf1 : ∀ p ∈ wordsVf1, decode p.1 (p.2.1.headD 0) (p.2.1.drop 1) = some (p.2.2, []) := by decide
def wordsVf2 : List (EngineClass × List Nat × Instr) :=
  [(.vf, [0x10A56372], .fdot2 41 22 13 50 false none), (.vf, [0x11A56372], .fdot4 41 22 13 50 false none),
   (.vf, [0x12A56340], .fscale 41 22 13 false none), (.vf, [0x13A56000], .fgetx 41 22 false none),
   (.vf, [0x14A56372], .fpivg 41 22 13 50 false none), (.vf, [0x18A56020], .frcp 41 22 true none),
   (.vf, [0x19A56020], .frsq 41 22 true none), (.vf, [0x1AA56020], .fsqrt 41 22 true none), (.vf, [0x1BA56360], .fdiv 41 22 13 true none),
   (.vf, [0x1CA56020], .fexp2 41 22 true none), (.vf, [0x1DA56020], .flog2 41 22 true none), (.vf, [0x1EA56020], .fsinp 41 22 true none),
   (.vf, [0x1FA56020], .fcosp 41 22 true none), (.vf, [0x20A56020], .ftanh 41 22 true none),
   (.vf, [0x28A5614B], .cvt 41 22 5 11 false none), (.vf, [0x29A56345], .cvts 41 22 13 5 false none)]
theorem test_decode_vf2 : ∀ p ∈ wordsVf2, decode p.1 (p.2.1.headD 0) (p.2.1.drop 1) = some (p.2.2, []) := by decide
def wordsVf3 : List (EngineClass × List Nat × Instr) :=
  [(.vf, [0x2AA56341], .fmaxx 41 22 13 true false none), (.vf, [0x2BA5600B], .vsettag 41 22 11 false none),
   (.vf, [0x2CA56000], .vgettag 41 22 false none), (.vf, [0x2DA56000], .sclget 41 22 none), (.vf, [0x2EA56000], .sclset 41 22 none),
   (.vf, [0x83A56372, 0x2D2BFF6E, 0xD2200000], .fma 41 22 13 50 false (some ⟨.rot 9 3, .bcst 31 7, ⟨true, 5⟩, 5, true, some (.shdn 17 true)⟩)),
   (.vf, [0x2FA40000, 0x89ABCDEF, 0x01234567], .flimm 41 0x0123456789ABCDEF)]
theorem test_decode_vf3 : ∀ p ∈ wordsVf3, decode p.1 (p.2.1.headD 0) (p.2.1.drop 1) = some (p.2.2, []) := by decide
def wordsMem1 : List (EngineClass × List Nat × Instr) :=
  [(.mem, [0x00980000], .ord 4 6), (.mem, [0x01A45BA5], .ld 41 5 11 165 none), (.mem, [0x02A45DA5], .lde 41 5 13 165 none),
   (.mem, [0x03A455A5], .st 41 5 5 165 none), (.mem, [0x04A455A5], .ste 41 5 5 165 none), (.mem, [0x05A455A5], .ldu 41 5 5 165 none),
   (.mem, [0x06A455A5], .stu 41 5 5 165 none), (.mem, [0x09A455A5], .ldp 41 5 5 165 none), (.mem, [0x0AA455A5], .stp 41 5 5 165 none),
   (.mem, [0x10A5636D], .atom 41 22 13 13 true none), (.mem, [0x11953B13], .atomc 37 19 44 19 false none),
   (.mem, [0x12016348], .red 22 13 8 none), (.mem, [0x13A5635C], .atomu 41 22 13 12 true false none), (.mem, [0x18A40005], .fence 41 5),
   (.mem, [0x19029C02], .cpin 41 12 2), (.mem, [0x1A000001], .cunpin 1)]
theorem test_decode_mem1 : ∀ p ∈ wordsMem1, decode p.1 (p.2.1.headD 0) (p.2.1.drop 1) = some (p.2.2, []) := by decide
def wordsMem2 : List (EngineClass × List Nat × Instr) :=
  [(.mem, [0x1B0050A5], .cpref 5 165 none), (.mem, [0x1C0850A5], .cinv 2 5 165),
   (.mem, [0x87A56BA5, 0xCADE8000], .ldx 41 22 11 0xA5 ⟨50, 2, true, 5, ⟨true, 6⟩, 4⟩),
   (.mem, [0x88A56BA5, 0xCADE8000], .stx 41 22 11 0xA5 ⟨50, 2, true, 5, ⟨true, 6⟩, 4⟩),
   (.mem, [0x81A56BA5, 0x000E8000], .ld 41 22 11 0xA5 (some ⟨⟨true, 6⟩, 4⟩))]
theorem test_decode_mem2 : ∀ p ∈ wordsMem2, decode p.1 (p.2.1.headD 0) (p.2.1.drop 1) = some (p.2.2, []) := by decide
def wordsTen1 : List (EngineClass × List Nat × Instr) :=
  [(.ten, [0x011400A0], .tzero 5 2 true), (.ten, [0x02153000], .tld 5 19 false), (.ten, [0x03153380], .tst 5 19 6 true false),
   (.ten, [0x04153B21], .tmma 5 19 44 true false true), (.ten, [0x05000020], .tgang true), (.ten, [0x06953B25], .tsweep 37 19 44 5 true),
   (.ten, [0x07143085], .tred 5 3 2 5 false), (.ten, [0x08153000], .tfact 5 19 false), (.ten, [0x09143B20], .ttrs 5 3 44 true),
   (.ten, [0x0A143B01], .tmov 5 3 44 true false), (.ten, [0x0B153B21], .tscl 5 19 44 true false true)]
theorem test_decode_ten1 : ∀ p ∈ wordsTen1, decode p.1 (p.2.1.headD 0) (p.2.1.drop 1) = some (p.2.2, []) := by decide
def wordsTsk1 : List (EngineClass × List Nat × Instr) :=
  [(.tsk, [0x009530F5], .spawn 37 19 3 true false 5 true), (.tsk, [0x01953142], .spawnr 37 19 5 false true),
   (.tsk, [0x02953B99], .spawng 37 19 6 5 9 true false), (.tsk, [0x03000000], .sync), (.tsk, [0x04A56000], .pgrd 41 22 false),
   (.tsk, [0x05A40000], .pgkey 41), (.tsk, [0x06953180], .prng 37 19 2 true false), (.tsk, [0x07A5600C], .palloc 41 22 12),
   (.tsk, [0x08016000], .plog 22), (.tsk, [0x09156341], .view 5 22 13 1), (.tsk, [0x0A15634D], .rdacc 5 22 13 5 true),
   (.tsk, [0x0BA45020], .rdget 41 5 true), (.tsk, [0x0C000000], .chunk), (.tsk, [0x0DA40000], .chkst 41), (.tsk, [0x0E00006D], .bar 5 13),
   (.tsk, [0x0FA4006D], .bara 41 5 13)]
theorem test_decode_tsk1 : ∀ p ∈ wordsTsk1, decode p.1 (p.2.1.headD 0) (p.2.1.drop 1) = some (p.2.2, []) := by decide
def wordsTsk2 : List (EngineClass × List Nat × Instr) :=
  [(.tsk, [0x1001606D], .barw 22 5 13), (.tsk, [0x1101606D], .bari 22 5 13), (.tsk, [0x1201606D], .barb 22 5 13),
   (.tsk, [0x13000A35], .trap 0xA35), (.tsk, [0x14000000], .rft)]
theorem test_decode_tsk2 : ∀ p ∈ wordsTsk2, decode p.1 (p.2.1.headD 0) (p.2.1.drop 1) = some (p.2.2, []) := by decide
def wordsBrg1 : List (EngineClass × List Nat × Instr) :=
  [(.brg, [0x00953165], .cpy 37 19 5 5 true), (.brg, [0x01953165], .cpyf 37 19 5 5 true), (.brg, [0x02953020], .wtagany 37 19 true),
   (.brg, [0x03953020], .wtagall 37 19 true), (.brg, [0x04953020], .tagff 37 19 true), (.brg, [0x05013020], .tagclr 19 true)]
theorem test_decode_brg1 : ∀ p ∈ wordsBrg1, decode p.1 (p.2.1.headD 0) (p.2.1.drop 1) = some (p.2.2, []) := by decide

/-! ### One ill-formed term for each check of WellFormed, and a neighbour that passes -/

def rxWith (f : Rx → Rx) : Option Rx := some (f ⟨.none, .none, ⟨false, 0⟩, 0, false, none⟩)
def illFormed : List Instr :=
  [.scmp 1 2 3 10, .vcmp 1 2 3 10 false none, .fcmp 1 2 3 10 false none, .vqop 1 2 3 6 none, .vqop 1 2 3 4 none, .vqmov 8 1 false false none,
   .vqmov 1 8 true false none, .viota 1 2 0 none, .viota 1 2 9 none, .vvote 1 2 3 false none, .cvt 1 2 0 14 false none, .cvt 1 2 0 0 false none,
   .fmaxx 1 2 3 false false none, .vsettag 1 2 14 false none, .sclset 1 2 (rxWith fun r => { r with guard := ⟨false, 1⟩ }), .ord 5 0, .ord 0 7,
   .ld 1 2 14 0 none, .ldu 1 2 3 0 (some ⟨⟨false, 1⟩, 0⟩), .ld 1 2 3 0 (some ⟨⟨false, 0⟩, 5⟩), .ldx 1 2 3 0 ⟨1, 2, false, 0, ⟨false, 0⟩, 5⟩,
   .ldx 1 2 1 0 ⟨57, 3, false, 0, ⟨false, 0⟩, 0⟩, .ldp 63 2 3 0 none, .stp 63 2 3 0 none, .atom 1 2 3 1 false none, .red 1 2 9 none,
   .atomu 1 2 3 13 false false none, .atomu 1 2 3 0 true false (some ⟨⟨true, 0⟩, 0⟩), .fence 1 7, .cpin 63 1 0, .cpin 1 0 0, .cpin 1 13 0, .cinv 3 1 0,
   .tzero 1 7 false, .tst 1 2 7 false false, .tred 1 2 3 0 false, .tfact 1 61 false, .spawn 1 60 5 false false 0 false, .spawnr 1 2 6 false false,
   .spawnr 1 60 2 false false, .spawng 1 2 7 0 1 false false, .spawng 1 2 0 0 0 false false, .spawng 1 60 5 0 1 false false, .pgrd 1 1 true, .palloc 1 2 13,
   .plog 61, .view 0 1 63 1, .view 0 57 0 2, .view 0 1 1 2, .view 0 1 1 3]
def illRouted : List Instr :=
  [.vadd 1 2 3 false (rxWith fun r => { r with a := .segb 6 0 }), .vadd 1 2 3 false (rxWith fun r => { r with b := .segb 2 4 }),
   .vmov 1 2 false (rxWith fun r => { r with b := .rot 1 0 }), .vmovi 1 0 0 (rxWith fun r => { r with a := .rot 1 0 }),
   .vadd 1 2 3 false (rxWith fun r => { r with c := some .none }), .fma 1 2 3 4 false (rxWith fun r => { r with c := some (.segb 0 1) }),
   .fadd 1 2 3 false (rxWith fun r => { r with rnd := 7 }), .vadd 1 2 3 false (rxWith fun r => { r with rnd := 1 }),
   .vadd 1 2 3 false (rxWith fun r => { r with sat := true }), .vadd 1 2 3 true (rxWith fun r => { r with a := .rot 1 0 }),
   .vmad 1 2 3 32 false (rxWith fun r => { r with a := .idx 1 0 })]
theorem test_ill_formed : ∀ i ∈ illFormed ++ illRouted, i.wf = false := by decide
theorem test_well_formed : ∀ i ∈ ([.scmp 1 2 3 9, .vqop 1 2 0 5 none, .vqmov 8 7 true false none, .viota 1 2 8 none, .cvt 1 2 0 13 false none, .ord 4 6,
    .ldx 1 2 1 0 ⟨56, 3, false, 0, ⟨false, 0⟩, 4⟩, .ldp 62 2 3 0 none, .cpin 62 12 0, .tzero 1 6 false, .tfact 1 60 false, .spawnr 1 59 2 false false,
    .plog 60, .view 0 56 0 2, .vmad 1 2 3 31 true (rxWith fun r => { r with a := .idx 1 0 })] : List Instr), i.wf = true := by decide

/-! ### Single steps, from the worked examples of the spec -/

/-- A crew of 32 threads, those of `l` in issue, with f of each v register and lane. -/
def laid (l : Lanes) (f : Nat → Nat → VReg) (g : Regs → Regs) : State :=
  let r := g { regsOf 0 0 63 with v := Vector.ofFn fun k => Vector.ofFn fun t => f k.val t.val, tmask := BitVec.allOnes 32, frontier := [⟨0x1000, l, 0, false⟩] }
  { State.reset with focus := { crewOf r with cur := some { wordClause with lanes := l } }, uids := 200 }
def readBack (o : Out) (k : Fin 64) (t : Fin 32) : Option VReg :=
  match o with
  | .next s => some (s.focus.r.readV k t)
  | _ => none
def flagsOf (o : Out) : Option (BitVec 6) :=
  match o with
  | .next s => some s.focus.r.fpflags
  | _ => none
def rxOf (a b : Route) (q : Guard) (sat : Bool) : Option Rx := some ⟨a, b, q, 0, sat, none⟩

/-- Section 05, lane states: threads 0 to 2 and 4 to 7 issue; thread 3 has exited; 8 to 15 stand elsewhere; 20 is not launched. -/
def laneStates : State :=
  laid 0xF7 (fun k t => if k = 1 then ⟨if t = 3 then 7 else if t < 8 then 5 else if t < 16 then 40 else 0, 4⟩ else ⟨0, 4⟩)
    fun r => { r with tmask := 0xFFFF, emask := 8, frontier := [⟨0x1000, 0xF7, 0, false⟩, ⟨0x2000, 0xFF00, 1, false⟩] }
theorem test_vmov_bcst_exited : readBack (exec (.vmov 2 1 false (rxOf (.bcst 3 0) .none ⟨false, 0⟩ false)) laneStates) 2 4 = some ⟨7, 4⟩ := by decide +kernel
theorem test_vadd_bcst_unlaunched : readBack (exec (.vadd 2 1 1 false (rxOf .none (.bcst 20 0) ⟨false, 0⟩ false)) laneStates) 2 4 = some ⟨5, 4⟩ := by
  decide +kernel

/-- Section 05, segmented totals: lane t of v2 holds (t + 1)(t + 2) / 2. -/
theorem test_vsub_segb :
    let o := exec (.vsub 5 2 2 false (rxOf (.segb 3 7) (.segb 3 0) ⟨false, 0⟩ false)) (laid (BitVec.allOnes 32) (fun _ t => ⟨BitVec.ofNat 64 ((t + 1) * (t + 2) / 2), 4⟩) id)
    readBack o 5 9 = some ⟨136 - 45, 4⟩ ∧ readBack o 5 31 = some ⟨528 - 325, 4⟩ := by decide +kernel

/-- Section 03, guards: thread 9 of q3 is 0x0C; f16 operands write sub-element 1 alone, f32 operands nothing. -/
def guarded (T : Fin 16) : State :=
  laid 0x200 (fun k _ => if k = 6 then ⟨0x1111222233334444, 7⟩ else ⟨0x3C003C003C003C00, T⟩)
    fun r => { r with q := r.q.set 3 (Vector.replicate 32 0x0C) }
theorem test_guard_f16 : readBack (exec (.fadd 6 4 5 false (rxOf .none .none ⟨false, 3⟩ false)) (guarded 9)) 6 9 = some ⟨0x1111222240004444, 9⟩ := by
  decide +kernel
theorem test_guard_f32 : readBack (exec (.fadd 6 4 5 false (rxOf .none .none ⟨false, 3⟩ false)) (guarded 11)) 6 9 = some ⟨0x1111222233334444, 7⟩ := by
  decide +kernel

/-- Section 06, tag dispatch. -/
def bytesOf (T : Fin 16) : State := laid 1 (fun k _ => ⟨if k = 1 then 0x0040FF05807F9C64 else 0x0002FFF9FF01CE32, T⟩) id
theorem test_vadd_s8 : readBack (exec (.vadd 4 1 2 false none) (bytesOf 1)) 4 0 = some ⟨0x0042FEFE7F806A96, 1⟩ := by decide +kernel
theorem test_vadds_z8 : readBack (exec (.vadds 4 1 2 false none) (bytesOf 5)) 4 0 = some ⟨0x0042FFFEFF80FF96, 5⟩ := by decide +kernel
theorem test_vmul_sat_s8 : let o := exec (.vmul 4 1 2 false (rxOf .none .none ⟨false, 0⟩ true)) (bytesOf 1)
    readBack o 4 0 = some ⟨0x007F01DD7F7F7F7F, 1⟩ ∧ (flagsOf o).map (·.getLsbD 5) = some true := by decide +kernel
theorem test_vmulh_s8 : readBack (exec (.vmulh 4 1 2 false none) (bytesOf 1)) 4 0 = some ⟨0x000000FF00001313, 1⟩ := by decide +kernel

/-- R130, R131: m8 codes 0xB2 and 0x1F are −0.3125 and 224; 15.75 and 240 round to 0x10 and 0x04. R159: the exponent of 2^−149. -/
theorem test_cvt_m8_f32 : readBack (exec (.cvt 4 1 0 11 false none) (laid 1 (fun _ _ => ⟨0x1FB2, 13⟩) id)) 4 0 = some ⟨0x43600000BEA00000, 11⟩ := by
  decide +kernel
theorem test_cvt_f32_m8 :
    ((readBack (exec (.cvt 4 1 0 13 false none) (laid 1 (fun _ _ => ⟨0x43700000417C0000, 11⟩) id)) 4 0).map fun w => w.val.toNat % 2 ^ 16) = some 0x0410 := by
  decide +kernel
theorem test_fgetx_subnormal : ((readBack (exec (.fgetx 4 1 false none) (laid 1 (fun _ _ => ⟨1, 11⟩) id)) 4 0).map fun w => w.val.toNat % 2 ^ 32) =
    some (2 ^ 32 - 149) := by decide +kernel

/-- R400: the nine words of the worked example. -/
theorem test_image_coder : (encodeImage [0x1234, 0, 0, 0, 0x1234, 0x1234, 0x1234, 0x55, 0]).map BitVec.toNat =
    [0x00, 0x34, 0x12, 0, 0, 0, 0, 0, 0, 0x42, 0x00, 0x34, 0x12, 0, 0, 0, 0, 0, 0, 0x81, 0x00, 0x55, 0, 0, 0, 0, 0, 0, 0, 0x40, 0xFF] := by decide +kernel

/-- R176: the worked example of a walk, its four entries in tables at 0x10000, 0x20000, 0x30000 and 0x40000; a store sets DF. -/
def tables : State :=
  { State.reset with
    hub := { State.reset.hub with keys := [0, 0x2A] }
    mem := cellsAt 0x10000 (leBytes 8 (2 * 2 ^ 22 + 1)) ++ cellsAt 0x268A8 (leBytes 8 (3 * 2 ^ 22 + 1)) ++ cellsAt 0x39E20 (leBytes 8 (4 * 2 ^ 22 + 1)) ++
      cellsAt 0x4D5E0 (leBytes 8 0x04000168F000A997) }
theorem test_walk : (tables.translate ⟨0, 0x10000, false, 0⟩ ⟨true, false, false⟩ 0x003456789ABCDEF0).2 =
    .ok 0x04000168F000A997 0x5A3C0DEF0 (0x003456789ABC0000, 16) := by decide +kernel
theorem test_walk_dirty :
    ((tables.translate ⟨0, 0x10000, false, 0⟩ ⟨false, true, false⟩ 0x003456789ABCDEF0).1.bytes 0x4D5E0 8) = leBytes 8 0x04000168F000AB97 := by decide +kernel

/-- R116: a uniform sum wraps. R95: BRK faults with TRAP, bit 63 of FLTADDR and its code. -/
theorem test_saddi_wraps : (match exec (.saddi 7 8 0xFFF) (mem 8) with | .next s => some s.focus.r.s[7] | _ => none) = some 0xFFFFFFFFFFFFFFFF := by
  decide +kernel
theorem test_brk : (match exec (.brk 0xA35) (mem 8) with | .next s => some (s.focus.r.flt.code, s.focus.r.flt.addr, s.focus.r.flt.sup) | _ => none) =
    some (0x12, 0x8000000000000A35, true) := by decide +kernel

/-! ### Further clauses of the statements -/

/-- Range frames whose pieces are next on their core; one whose launch is being stopped; a fault that waits before an entry with
an open thread. -/
theorem witness_FrontierEvents_ranges :
    (ranged ⟨5, 5, 1, false, none⟩ 1).pieceWaits (ranged ⟨5, 5, 1, false, none⟩ 1).focus = false ∧
    (ranged ⟨5, 6, 1, false, some 0⟩ 1).pieceWaits (ranged ⟨5, 6, 1, false, some 0⟩ 1).focus = false ∧
    (stopping (ranged ⟨5, 7, 1, false, some 0⟩ 1)).stopping (stopping (ranged ⟨5, 7, 1, false, some 0⟩ 1)).focus = true ∧
    (ranged ⟨5, 7, 1, false, some 0⟩ 32).stopping (ranged ⟨5, 7, 1, false, some 0⟩ 32).focus = false ∧
    ready (between 0x100000 0) (entryAt 0x100000) ≠ 0 := by unfold ready; decide +kernel

/-- Actions behind a release whose writes are visible, and are not; a load that ORD held. -/
def releasing (streams : List StreamOut) : State :=
  { stage .acting fun ch => { ch with acts := [⟨⟨0x1000, 1, 3⟩, .sync⟩], rels := [⟨0, 4, false⟩] } with streams := streams }
def ownLine : StreamOut := ⟨150, 1, 0, [], ⟨.stream, 0x2100, 0x108000, 0, 0, 0, false, .bytes [(127, 5)]⟩⟩
def heldLoad : LoadJob := ⟨150, 0, false, 0, [⟨pageLoc 0, 8, 0⟩], [destV 0 0 7 0 0 8]⟩
theorem witness_ChunkCommit_actions :
    (releasing []).focus.chunk.rels.head? = some ⟨0, 4, false⟩ ∧ (releasing []).focus.chunk.acts ≠ [] ∧ (releasing []).shown 1 0 4 = true ∧
    (releasing [ownLine]).shown 1 0 4 = false ∧
    (((acting (.load heldLoad)).focusOn 1).mergeReads (heldLoad.reads.map HeldRead.loc)).2 = true ∧
    (∀ y ∈ heldLoad.reads, (acting (.load heldLoad)).homeLost y.loc.key = false ∧ ∀ i < y.size, (acting (.load heldLoad)).badAt (y.loc.key + i) 1 = false) ∧
    (∀ m, (acting (.load heldLoad)).focus.chunk.rels.head? = some m → m.acts ≠ 0) ∧
    ((acting (.fence 5 7)).hub.links.map (·.1)).Nodup := by
  refine ⟨rfl, by decide, by decide, by decide, by decide, by decide, (fun m h => by cases h), List.nodup_nil⟩

/-- A window of 1 KiB fits on every core beside the one crew, which holds none. -/
theorem witness_LandingsAndReplays_ferry :
    (1 : Nat) ≠ 0 ∧ ∀ k, ((stage .run fun ch => { ch with soft := true }).freeWindow k 1024).isSome = true := by
  refine ⟨by decide, fun k => ?_⟩
  have h : ((stage .run fun ch => { ch with soft := true }).onCore k).filterMap Crew.window = [] :=
    List.filterMap_eq_nil_iff.2 fun c hc => (by decide +kernel : ∀ c ∈ (stage .run fun ch => { ch with soft := true }).crews, c.window = none) c
      (List.mem_of_mem_filter hc)
  simp only [State.freeWindow, h]; rfl

/-- The pool has no group left, and its descriptor, which is no legal one, gives none either. -/
def poolSpent : State := { sole (groups 8) (asPhase .unstarted) with mem := cellsAt 0 (List.replicate 1024 0) }
theorem poolSpent_refresh : poolSpent.refreshDesc 100 = poolSpent := by
  have h : (poolSpent.readDesc (groups 8).queue).2.2 = false := by decide +kernel
  have hl : poolSpent.launch? 100 = some (groups 8) := rfl
  simp only [State.refreshDesc, hl]
  split
  · simp_all
  · rfl
theorem witness_TaskStarts_waits :
    (poolSpent.refreshDesc 100).crew? 1 = some poolSpent.focus ∧ (poolSpent.refreshDesc 100).launch? 100 = some (groups 8) ∧
    (sole launchOf fun c => { c with phase := .unstarted, place := .waiting 0 }).coreOn 0 = true := by
  rw [poolSpent_refresh]; exact ⟨rfl, rfl, by decide +kernel⟩

/-- A steal of a crew whose spawn names a live-mask record that cannot be fetched. -/
theorem witness_TaskFlow_record :
    (let s := sole small fun c => { c with phase := .parked, place := .slot 1 0, task := { c.task with live := some 0, liveAt := 0x180000, kind := .child } }
     let s := { s with mem := cellsAt 0x400000 (List.replicate 8 0) }
     ∃ y0 s1 f a w, (s.vacate 1 (.waiting 0)).crew? 1 = some y0 ∧
      (s.vacate 1 (.waiting 0)).fetchWords { y0 with place := .waiting 0 } 0x180000 1 4 = (s1, .fault f a w)) ∧
    (sole small (does (.spawn spawnReq none))).focus.chunk.rels = [] :=
  ⟨⟨_, _, _, _, _, rfl, rfl⟩, rfl⟩

/-- A copy that passes its checks at entry, one whose record is misaligned, one whose object is not its launch's; the oldest queued
copy behind a suspended one; a wait that has observed its tags. -/
theorem witness_BargeSteps_entry :
    (∀ op, MayEnter (requested op) (requested op).focus) ∧
    ((requested (.cpyf (2 ^ 56) 0xAB 5 0)).copyChecks 0 ⟨1, 100, [⟨0, 0⟩]⟩ (.cpyf (2 ^ 56) 0xAB 5 0)).2 = .ok (recordOf, none) ∧
    ((requested (.cpyf (2 ^ 56 + 8) 0xAB 5 0)).copyChecks 0 ⟨1, 100, [⟨0, 0⟩]⟩ (.cpyf (2 ^ 56 + 8) 0xAB 5 0)).2 = .fault .misalign (BitVec.ofNat 64 (2 ^ 56 + 8)) ∧
    ((requested (.cpyf (2 ^ 56) 0xAB 5 (2 ^ 10 + 2 ^ 11))).copyChecks 0 ⟨1, 100, [⟨0, 0⟩]⟩ (.cpyf (2 ^ 56) 0xAB 5 (2 ^ 10 + 2 ^ 11))).2 = .fault .prot 1 ∧
    (∀ y ∈ [fillCmd (.suspended 0) none], y.st ≠ .queued) ∧ (fillCmd .queued (some (recordOf, none))).st = .queued ∧
    (let w : BrgCmd := { fillCmd .queued none with op := .waitAll 9 6, seen := some 7 }; w.seen.getD 0 &&& 6 = (6 : Dword)) := by
  refine ⟨fun _ => ⟨fun _ hm => absurd hm List.not_mem_nil, rfl⟩, ?_, ?_, ?_, ?_, rfl, ?_⟩ <;> decide +kernel

theorem witness_TensorSteps_entry : MayEnter (acting (.ten 7 (.zero 7 1) 1 0 0)) (acting (.ten 7 (.zero 7 1) 1 0 0)).focus :=
  ⟨fun _ hm => absurd hm List.not_mem_nil, rfl⟩

/-- A launch of an integer sum whose crews are gone. -/
def summing : Launch := { launchOf with reducers := some [⟨2, 0x100000, 0⟩] }
theorem witness_LaunchEnds_results :
    (let s := running summing fun _ => Crew.empty
     s.running 0 = some summing ∧ summing.ended = none ∧ summing.merged = true ∧ s.writesSeen 100 = true ∧
      (s.writeResults summing (summing.finals.flatMap (·.2)) [(⟨2, 0x100000, 0⟩, 0)]).2 = true ∧
      ({ s with landings := List.replicate 200 ⟨[⟨2, true, true, [], 0, 0⟩], []⟩ }.writeResults summing [] [(⟨2, 0x100000, 0⟩, 0)]).2 = false) := by
  refine ⟨rfl, rfl, by decide +kernel, by decide +kernel, by decide +kernel, by decide +kernel⟩

/-- Nothing waits outside; a host's write and a peer's that wait; the end of a BAR2 of 1 GiB. -/
def waitingOutside (i : Instr) : State := { State.reset with inbound := [⟨5, 0, 0, i⟩], hub := { State.reset.hub with bar2size := 0 } }
theorem witness_HostAccesses_waits :
    (∀ a, Unqueued State.reset a) ∧ ¬ Unqueued (waitingOutside (.bar2Write 0 [1])) none ∧
    ¬ Unqueued (waitingOutside (.peerInboundAccess 5 0 (.write [1]))) (some 5) ∧
    Unqueued (waitingOutside (.peerInboundAccess 5 0 (.write [1]))) none ∧
    2 ^ 30 - 8 + 8 ≤ 2 ^ (30 + (waitingOutside .nop).hub.bar2size.val) ∧ ¬ 2 ^ 30 - 7 + 8 ≤ 2 ^ (30 + (waitingOutside .nop).hub.bar2size.val) := by
  refine ⟨fun a y hy => absurd hy List.not_mem_nil, fun h => h _ (List.mem_singleton.2 rfl) rfl, fun h => h _ (List.mem_singleton.2 rfl) rfl,
    fun y hy => ?_, by decide, by decide⟩
  rw [List.mem_singleton.1 hy]; exact (nomatch ·)

/-- A link that comes up with a write held for it; a saved crew whose key slot owns the dropped partial; a package other than 0
whose crew asks for an object of the pod, and waits for the answer. -/
def podded (sent : Bool) : State :=
  let s := acting (.bari ⟨5, 0, 1⟩ 64 13 sent)
  { s with hub := { s.hub with regs := { s.hub.regs with pkg := 3 } } }
theorem witness_OutsideEvents_pod :
    (∀ sent, (podded sent).hub.regs.pkg ≠ 0 ∧ (podded sent).focus.chunk.acts = [⟨⟨0x1000, 1, 3⟩, .bari ⟨5, 0, 1⟩ 64 13 sent⟩] ∧
      (podded sent).focus.phase = .acting ∧ (podded sent).hub.pods[(1 : Fin 2).val]? = some Barrier.reset ∧
      (podded sent).launch? (podded sent).focus.task.launch = some launchOf) ∧
    (let s := { parted with sched := { parted.sched with saved := [⟨100, [savedCrew], [], [], false⟩] } }
     ∃ y x, s.sched.saved[0]? = some y ∧ y.crews[0]? = some x ∧ x.post = [] ∧ x.r.keyslot = 0) ∧
    (Barrier.reset.v = false ∧ (waitingFor 2).v = true ∧ (waitingFor 2).owner = launchOf.tag ∧ (waitingFor 2).owner ≠ 9) ∧
    ∀ y ∈ State.reset.landings, y.held = [] ∧ y.waiting = [] := by
  refine ⟨fun sent => ⟨by cases sent <;> decide, rfl, rfl, rfl, rfl⟩, ⟨_, _, rfl, rfl, rfl, rfl⟩, by decide, by decide +kernel⟩

/-- A chunk that asks its last landing, whose one tracked access is to a granule that its launch's strand 1, a child of the strand
that runs on, has written. -/
def filtered (write : Bool) : State :=
  let s := stage (.asking [landingOf 0x2100]) fun ch => { wrote ch with tracked := [⟨0x108000, 0x108000, write, 0x100000, 1, 3⟩] }
  { s with
    focus := { s.focus with shadow := { s.focus.shadow with pedigree := [⟨1, 0⟩] } }
    sched := { s.sched with launches := [{ launchOf with
      strands := [⟨1, [⟨0, 0⟩, ⟨0, 0⟩], 384⟩, ⟨2, [⟨1, 0⟩], 544⟩], recs := [⟨704, 0x2100, 1, 0, 0, 1, 0⟩], rfNext := 736
      desc := { descOf with rfsize := 4096 } }] } }
theorem witness_LandingsAndReplays_filter :
    (∀ w, (filtered w).focus.phase = .asking [landingOf 0x2100] ∧ (filtered w).landings[landingOf 0x2100]? = some ⟨[], []⟩ ∧
      (filtered w).focus.chunk.tracked = [⟨0x108000, 0x108000, w, 0x100000, 1, 3⟩] ∧ (filtered w).focus.task.kind ≠ .routine ∧
      (filtered w).focus.shadow.flt.sup = false ∧
      ∃ l, (filtered w).launch? (filtered w).focus.task.launch = some l ∧ KnowsStrand l (filtered w).focus.shadow.pedigree 2 ∧
        ParallelTo l (filtered w).focus.shadow.pedigree 2 (l.granule 0x108000).1 ∧ l.rfNext + 32 ≤ l.desc.rfsize) := by
  intro w
  refine ⟨rfl, by cases w <;> decide +kernel, rfl, by cases w <;> decide +kernel, by cases w <;> decide +kernel, _, rfl, ⟨by decide, _, rfl, rfl⟩, ?_, ?_⟩
  · refine ⟨?_, ?_, ?_⟩ <;> cases w <;> decide +kernel
  · decide +kernel

/-! ### Copies and tensor commands, element by element -/

/-- A fill of one element of 2 ^ esz bytes. -/
def iterAt (a esz : Nat) : Iter := ⟨a, 1, esz, 0, [⟨1, 0⟩], 0⟩
def filler (a esz f : Nat) : BrgCmd := ⟨7, ⟨1, 100, [⟨0, 0⟩]⟩, ⟨0x1000, 1, 3⟩, .cpyf (2 ^ 56) 0xAB 5 f, .running 0, some (iterAt a esz, none), none⟩
def filling (a esz f : Nat) : State := barged ⟨[], [filler a esz f], [], []⟩
def fills (a esz f : Nat) : Elems := (filler a esz f).elems (iterAt a esz) none

theorem fill_place : (fills (2 ^ 56) 3 0).place 0 (filling (2 ^ 56) 3 0) = (filling (2 ^ 56) 3 0, .direct [2 ^ 53] none) := rfl
def fillBytes : List Byte := ((List.range 16).flatMap fun _ => leBytes 8 (0xAB : Dword).toNat).take 8
theorem fill_value (a f : Nat) (s : State) : (fills a 3 f).value 0 s = (s, .ok (fillBytes, 0)) := rfl
theorem fill_line : (fills 0x100000 3 0).place 0 (filling 0x100000 3 0) = (filling 0x100000 3 0, .line (pageLoc 0)) := rfl
theorem fill_system : (fills 0x110000 3 0).place 0 (filling 0x110000 3 0) = (filling 0x110000 3 0, .direct [] (some (sysLoc 0))) := rfl
theorem fill_pass : (filling 0x100000 3 0).passStore 7 (pageLoc 0) = (filling 0x100000 3 0, true) := rfl

/-- A move over the one element: into the own window at once, gathered into a CHUNKED line, and as one SYSTEM write. -/
theorem fill_moves :
    (∃ n fp bytes u, WalkMove 7 (filler (2 ^ 56) 3 0).actor (fills (2 ^ 56) 3 0) 1 0 (filling (2 ^ 56) 3 0) n fp bytes u) ∧
    (∃ n fp bytes u, WalkMove 7 (filler 0x100000 3 0).actor (fills 0x100000 3 0) 1 0 (filling 0x100000 3 0) n fp bytes u) ∧
    ∃ n fp bytes u, WalkMove 7 (filler 0x110000 3 0).actor (fills 0x110000 3 0) 1 0 (filling 0x110000 3 0) n fp bytes u := by
  refine ⟨⟨_, _, _, _, .direct 1 ((filling (2 ^ 56) 3 0).putBytes (cellsAt (2 ^ 53) fillBytes) |>.markDirty (2 ^ 53)) _ (fun _ => [2 ^ 53]) 0 8 (by decide) (by decide) ?_
      (fun q hq h => by obtain rfl : q = 0 := by omega
                        rfl) (.inl ⟨rfl, rfl⟩)⟩,
    ⟨_, _, _, _, .line 1 (filling 0x100000 3 0) _ _ _ (fun _ => pageLoc 0) 0 (cellsAt 0x100000 fillBytes) (by decide) (by decide) ?_ (.inl ⟨rfl, rfl⟩) fill_pass (Prod.ext rfl ?_)⟩,
    ⟨_, _, _, _, .system _ _ (sysLoc 0) fillBytes 0 fill_system (fill_value _ _ _) (by decide) rfl rfl⟩⟩
  · refine ⟨fun q => if q = 0 then filling (2 ^ 56) 3 0 else _, fun _ => 0, fun q => if q = 0 then 0 else 8, rfl, rfl, rfl, rfl, rfl, rfl, fun q hq h => ?_⟩
    obtain rfl : q = 0 := by omega
    exact ⟨_, _, fillBytes, 0, fill_place, fill_value _ _ _, rfl, rfl, rfl⟩
  · refine ⟨fun _ => filling 0x100000 3 0, fun _ => 0, fun q => if q = 0 then [] else cellsAt 0x100000 fillBytes, rfl, rfl, rfl, rfl, rfl, rfl, fun q hq h => ?_⟩
    obtain rfl : q = 0 := by omega
    exact ⟨rfl, _, fillBytes, 0, fill_line, fill_value _ _ _, rfl, rfl⟩
  · rfl

/-- A copy that writes to the own windows of members 0 and 1 of its raft; one past the crew's window; members that the raft has not. -/
def casting (a : Nat) : BrgCmd := filler a 3 (2 ^ 5 + 3 * 2 ^ 6)
/-- A second crew of the launch, with the same window on core 1. -/
def neighboured (s : State) : State := { s with pool := [{ s.focus with uid := 2, place := .slot 1 0 }] }
/-- A copy of a line that it has released and that is not visible yet; that counts 8 bytes into object 2 of its core. -/
def released (id : Nat) (s : State) : State := { s with streams := [⟨150, id, 0, [], ⟨.stream, 0x2100, 0x108000, 0, 0, 0, false, .bytes [(1, 6)]⟩⟩] }
theorem witness_BargeSteps_elements :
    (∃ s1 l p, (filling (2 ^ 56) 3 0).locate ((filling (2 ^ 56) 3 0).actorCrew (filler (2 ^ 56) 3 0).actor) none ⟨false, true, false⟩ (iterAddr (iterAt (2 ^ 56) 3) 0) 8 =
      (s1, .ok l p)) ∧
    (∃ s1 f, (filling (2 ^ 56 + 1024) 3 0).locate ((filling (2 ^ 56) 3 0).actorCrew (filler (2 ^ 56) 3 0).actor) none ⟨false, true, false⟩
      (iterAddr (iterAt (2 ^ 56 + 1024) 3) 0) 8 = (s1, .fault f)) ∧
    (let s := neighboured (filling (2 ^ 56) 3 (2 ^ 5 + 3 * 2 ^ 6))
     ([0, 1].map fun m => (s.raftMembers 0)[m]?) = ([0, 1] : List Nat).map some ∧
      (∀ x ∈ [0, 1], 0 + 8 ≤ 2 ^ 19 ∧ s.inSomeWindow 100 x 0 8 = true) ∧ ¬ s.inSomeWindow 100 1 1024 8 = true ∧ (s.raftMembers 0).length ≤ 4) ∧
    (∃ s1 bs, (filling (2 ^ 56) 3 0).engineRead (filler (2 ^ 56) 3 0).actor true (iterAddr (iterAt (2 ^ 56 + 8) 3) 0) 8 = (s1, .ok bs)) ∧
    (∃ s1 f v, (filling (2 ^ 56) 3 0).engineRead (filler (2 ^ 56) 3 0).actor true (iterAddr (iterAt (2 ^ 56 + 1024) 3) 0) 8 = (s1, .fault f v)) ∧
    (let s := filling (2 ^ 56) 3 (2 ^ 10 + 2 ^ 11 + 2 * 2 ^ 14)
     (s.coreAt 0).barge.owed = [] ∧ s.shown 7 0 1 = true ∧ (released 7 s).shown 7 0 1 = false ∧ 0 < s.cores.length) ∧
    (∃ v f x, (fills (2 ^ 56 + 1024) 3 0).place 0 (filling (2 ^ 56 + 1024) 3 0) = (v, .fault f x) ∧ f ≠ .memerr) ∧
    DirectRun (fills (2 ^ 56 + 1024) 3 0) 0 0 (filling (2 ^ 56 + 1024) 3 0) (filling (2 ^ 56 + 1024) 3 0) (fun _ => []) 0 0 :=
  ⟨⟨_, _, _, rfl⟩, ⟨_, _, rfl⟩, by decide +kernel, ⟨_, _, rfl⟩, ⟨_, _, _, rfl⟩, by decide +kernel, ⟨_, _, _, rfl, by decide⟩,
    fun _ => filling (2 ^ 56 + 1024) 3 0, fun _ => 0, fun _ => 0, rfl, rfl, rfl, rfl, rfl, rfl, fun q hq h => by omega⟩

/-- Plain memory behind a line on a CHUNKED and on a STREAM page; and a read of the own window. -/
theorem witness_BargeSteps_engine :
    PlainTables (filling 0x100000 3 0) ∧ (∀ x ∈ cellsAt 0x100000 fillBytes, lineOf x.1 = lineOf (pageLoc 0).key) ∧ cellsAt 0x100000 fillBytes ≠ [] ∧
    (∀ z, (filling 0x100000 3 0).keyed.find? (fun z => z.line == lineOf (pageLoc 0).key) = some z → z.key = (filling 0x100000 3 0).material 0) ∧
    ({ pageLoc 0 with region := .stream } : Loc).rt = false ∧ ∃ v, SpadRead (filling (2 ^ 56) 3 0) (filler (2 ^ 56) 3 0).actor (2 ^ 56) 8 v := by
  refine ⟨⟨by decide +kernel, rfl, by decide +kernel, fun y hy g hg => ?_⟩, by decide, by decide, fun z h => (nomatch (show (none : Option Keyed) = some z from h)), rfl,
    _, ownLoc 0, rfl, rfl, rfl, by decide, by decide, by decide +kernel, rfl⟩
  rw [List.mem_singleton.1 hy] at hg; exact absurd hg List.not_mem_nil

/-- Shape records: of a 1 × 1 f32 matrix in the own window, the same on the CHUNKED page, and one of no rows. -/
def shapeOf (rows base : Nat) : List Byte := leBytes 8 base ++ leBytes 4 rows ++ leBytes 4 1 ++ leBytes 4 4 ++ [11, 0, 0, 0] ++ List.replicate 40 0
def iterOf (base : Nat) : List Byte := leBytes 8 base ++ [1, 2, 11, 0, 0, 0, 0, 0] ++ leBytes 4 1 ++ leBytes 8 4 ++ List.replicate 228 0
def tensing (l : List TenCmd) (cells : List Host.Cell) : State := { engine l with mem := cells, filled := [(2 ^ 53, 2 ^ 20)] }
def matrixCells (rows : Nat) : List Host.Cell := (cellsAt (2 ^ 53) (shapeOf rows (2 ^ 56 + 512))).filter fun c => c.2 != 0
theorem witness_TensorSteps_records :
    (∀ rows ∈ [0, 1], Memory.wf (tensing [] (matrixCells rows)).mem ∧
      ((tensing [] (matrixCells rows)).engineRead ⟨1, 100, [⟨0, 0⟩]⟩ false (2 ^ 56) 64).2 = .ok (shapeOf rows (2 ^ 56 + 512))) ∧
    (parseShape (shapeOf 1 (2 ^ 56 + 512))).rows = 1 ∧ (parseShape (shapeOf 0 (2 ^ 56 + 512))).rows = 0 := by decide +kernel

/-- Another crew's chunk, committed earlier or later, has a command on tile 7 to enter. -/
def rivalled (seq : Nat) : State :=
  let s := acting (.ten 7 (.zero 7 1) 1 0 0)
  { s with
    focus := { s.focus with chunk := { s.focus.chunk with seq := 5 } }
    pool := [{ s.focus with uid := 2, place := .slot 0 1, chunk := { s.focus.chunk with seq := seq, acts := [⟨⟨0x1000, 1, 3⟩, .ten 8 (.zero 7 1) 1 0 0⟩] } }] }
theorem witness_TensorSteps_ahead :
    (∃ y ∈ (rivalled 4).crews, y.uid ≠ 1 ∧ y.core = (rivalled 4).focus.core ∧ y.phase = .acting ∧ y.chunk.seq < (rivalled 4).focus.chunk.seq ∧
      ∃ a ∈ y.chunk.acts, a.kind = .ten 8 (.zero 7 1) 1 0 0 ∧ (rivalled 4).tileMask 0 (.zero 7 1) [] &&& (rivalled 4).tileMask 0 (.zero 7 1) [] ≠ 0) ∧
    (∀ y ∈ (rivalled 6).crews, y.uid ≠ 1 → ¬ y.chunk.seq < (rivalled 6).focus.chunk.seq) ∧
    (∃ s1 raw, (withTen 0 (fun l => l ++ [tenCmd (.zero 7 1) .queued]) (rivalled 6)).tenRecords 0 ⟨1, 100, [⟨0, 0⟩]⟩ (.zero 7 1) = (s1, .ok raw)) ∧
    ∃ s1 f v, (withTen 0 (fun l => l ++ [tenCmd (.ld 7 8) .queued]) (rivalled 6)).tenRecords 0 ⟨1, 100, [⟨0, 0⟩]⟩ (.ld 7 8) = (s1, .fault f v) ∧ f ≠ .memerr :=
  ⟨⟨_, List.mem_cons_of_mem _ (List.mem_singleton.2 rfl), by decide, rfl, rfl, by decide, _, List.mem_singleton.2 rfl, rfl, by decide +kernel⟩,
    fun y hy h => by
      rcases List.mem_cons.1 hy with rfl | hy
      · exact absurd rfl h
      · rw [List.mem_singleton.1 hy]; decide,
    ⟨_, _, rfl⟩, _, _, _, rfl, by decide⟩

/-- A command alone in the queue of core 0; one with a status word on the CHUNKED page, whose landing grants. -/
theorem engine_first (c : TenCmd) : First (engine [c]) 0 c [] :=
  ⟨rfl, by rw [show (engine [c]).cores.length = (between 0x100000 1).cores.length from List.length_modify ..]; decide +kernel, fun _ h => absurd h List.not_mem_nil⟩
def facting : TenCmd := { tenCmd (.fact 0 0x10001 0 0x3F800000 0x100000) .queued with raw := [(0x100000, [])] }
theorem witness_TensorSteps_tiles :
    (∀ c, First (engine [c]) 0 c []) ∧ Memory.wf (engine [facting]).mem ∧ rows 0x10001 = 1 ∧ cols 0x10001 = 1 ∧ (0x10001 : Dword).toNat / 2 ^ 34 % 4 ≤ 2 ∧
    1 ≤ 256 ∧ 1 ≤ 1024 / spanSize ((0x10001 : Dword).getLsbD 32) ∧
    ∃ s1 s2, (engine [facting]).enginePlace facting.actor 0x100000 8 = (s1, .ok (pageLoc 0)) ∧ s1.passStore facting.id (pageLoc 0) = (s2, true) ∧
      s2.byte = (engine [facting]).byte ∧ Memory.wf s2.mem :=
  ⟨engine_first, by decide +kernel, by decide, by decide, by decide, by decide, by decide, _, _, rfl, rfl, rfl, by decide +kernel⟩

/-- A product of 1 × 1 matrices in the own window; the same by members 0 and 1 of the raft, by columns, B of two columns. -/
def product (m : BitVec 4) (n : Nat) (st : CmdState) (p : Bool) : TenCmd :=
  { tenCmd (.mma 0 (2 ^ 56) (2 ^ 56) true false m) st with
    paired := p, raw := [(2 ^ 56, shapeOf 1 (2 ^ 56 + 512)), (2 ^ 56, leBytes 8 (2 ^ 56 + 640) ++ leBytes 4 1 ++ leBytes 4 n ++ leBytes 4 8 ++ [11, 0, 0, 0] ++ List.replicate 40 0)] }
def shapeB (n : Nat) : Shape := ⟨2 ^ 56 + 640, 1, n, 8, 11, false, 0, 0⟩
def shapeA : Shape := ⟨2 ^ 56 + 512, 1, 1, 4, 11, false, 0, 0⟩
def ganging : State := let s := engine [product 3 2 .latched true]; { s with cores := s.cores.modify 1 fun c => { c with ten := [product 3 2 .latched true] } }
theorem operands_of (s : State) (c0 n : Nat) (hc : c0 < 2) (h : ∀ o ∈ [512, 640, 644], s.locate (s.actorCrew ⟨1, 100, [⟨0, 0⟩]⟩) none ⟨true, false, false⟩ (BitVec.ofNat 64 (2 ^ 56 + o)) 4 =
      (s, .ok (ownLoc o) none) ∧ s.badAt (2 ^ 53 + o) 4 = false) :
    ∃ av bv da db, Operands s ⟨1, 100, [⟨0, 0⟩]⟩ shapeA (shapeB n) 0 1 c0 1 av bv da db := by
  have read : ∀ o ∈ [512, 640, 644], ∀ va : Dword, va = BitVec.ofNat 64 (2 ^ 56 + o) → SpadRead s ⟨1, 100, [⟨0, 0⟩]⟩ va 4 (leNat (s.bytes (2 ^ 53 + o) 4)) :=
    fun o ho va e => ⟨ownLoc o, by rw [e]; exact (h o ho).1, rfl, rfl, Nat.le_add_right .., by
      show 2 ^ 53 + o + 4 ≤ 2 ^ 54
      simp only [List.mem_cons, List.not_mem_nil, or_false] at ho; omega, (h o ho).2, rfl⟩
  have addr : ∀ j, shapeAddr (shapeB n) 0 j = shapeAddr (shapeB 0) 0 j := fun _ => rfl
  have left : ∀ i < 1, ∀ k < shapeA.cols, SpadRead s ⟨1, 100, [⟨0, 0⟩]⟩ (shapeAddr shapeA (0 + i) k) 4 (leNat (s.bytes (2 ^ 53 + 512) 4)) := fun i hi k hk => by
    obtain rfl : i = 0 := Nat.lt_one_iff.1 hi
    obtain rfl : k = 0 := Nat.lt_one_iff.1 hk
    exact read 512 (by simp) _ (by decide)
  have right : ∀ o, o ∈ [512, 640, 644] → shapeAddr (shapeB 0) 0 (c0 + 0) = BitVec.ofNat 64 (2 ^ 56 + o) → ∃ av bv da db, Operands s ⟨1, 100, [⟨0, 0⟩]⟩ shapeA (shapeB n) 0 1 c0 1 av bv da db :=
    fun o ho e => ⟨fun _ _ => leNat (s.bytes (2 ^ 53 + 512) 4), fun _ _ => leNat (s.bytes (2 ^ 53 + o) 4), fun _ _ => 0, fun _ _ => 0, left, fun k hk j hj => by
      obtain rfl : j = 0 := Nat.lt_one_iff.1 hj
      obtain rfl : k = 0 := Nat.lt_one_iff.1 hk
      show SpadRead s _ (shapeAddr (shapeB n) 0 (c0 + 0)) (tagWidth 11 / 8) _
      exact read o ho _ ((addr _).trans e),
      fun h => absurd (show (11 : Fin 16) = tM8 from h) (by decide), fun h => absurd (show (11 : Fin 16) = tM8 from h) (by decide)⟩
  obtain rfl | rfl : c0 = 0 ∨ c0 = 1 := by omega
  · exact right 640 (by simp) (by decide)
  · exact right 644 (by simp) (by decide)
theorem witness_TensorSteps_products :
    parseShape (shapeOf 1 (2 ^ 56 + 512)) = shapeA ∧ (∀ n ∈ [1, 2], ((product 3 n .queued false).raw.map fun r => parseShape r.2) = [shapeA, shapeB n]) ∧
    (∃ av bv da db, Operands (engine [product 0 1 .queued false]) ⟨1, 100, [⟨0, 0⟩]⟩ shapeA (shapeB 1) 0 1 0 1 av bv da db) ∧
    ganging.gangCores 0 3 = [0, 1] ∧ ((List.range 4).filter (3 : BitVec 4).getLsbD).length = 2 ∧
    (∀ c ∈ [0, 1], First ganging c (product 3 2 .latched true) [] ∧ bandAt 3 (ganging.memberOf c) false 1 2 = (0, 1, c, 1) ∧
      ∃ av bv da db, Operands ganging ⟨1, 100, [⟨0, 0⟩]⟩ shapeA (shapeB 2) 0 1 c 1 av bv da db) := by
  refine ⟨by decide +kernel, by decide +kernel, operands_of _ 0 1 (by decide) ?_, by decide +kernel, by decide, fun c hc => ⟨?_, ?_, operands_of _ c 2 ?_ ?_⟩⟩
  · intro o ho; fin_cases ho <;> exact ⟨rfl, by decide +kernel⟩
  · fin_cases hc <;> exact ⟨rfl, by decide +kernel, fun _ h => absurd h List.not_mem_nil⟩
  · fin_cases hc <;> decide +kernel
  · fin_cases hc <;> decide
  · intro o ho; fin_cases ho <;> exact ⟨rfl, by decide +kernel⟩

/-- A load of one element into tile 7; a store of it past the crew's window; sweeps of one element with and without a second operand. -/
def loading : TenCmd := { tenCmd (.ld 7 (2 ^ 56)) .queued with raw := [(2 ^ 56, shapeOf 1 (2 ^ 56 + 512))] }
def storing : TenCmd := { tenCmd (.st 7 (2 ^ 56) false) .queued with raw := [(2 ^ 56, shapeOf 1 (2 ^ 56 + 1024))] }
def sweeping (op : Nat) (y : Option Dword) : TenCmd :=
  { tenCmd (.sweep (2 ^ 56) (2 ^ 56 + 8) y (BitVec.ofNat 64 op)) .queued with
    raw := [(2 ^ 56, iterOf (2 ^ 56 + 512)), (2 ^ 56 + 8, iterOf (2 ^ 56 + 520))] ++ (y.map fun a => (a, iterOf (2 ^ 56 + 528))).toList }
theorem own_read {s : State} {a : Actor} {va : Dword} {n o : Nat}
    (hl : s.locate (s.actorCrew a) none ⟨true, false, false⟩ va n = (s, .ok (ownLoc o) none)) (hb : s.badAt (ownLoc o).key n = false)
    (ha : (ownLoc o).away = false) : s.engineRead a true va n = (s, .ok (s.engineBytes (s.actorCrew a).core (ownLoc o) n)) := by
  unfold State.engineRead
  simp only [hl, hb, ha, show ((ownLoc o).region == .spad) = true from rfl, show (ownLoc o).rt = false from rfl, Bool.and_false, Bool.false_eq_true, ↓reduceIte]
theorem engine_reads : ∀ o ∈ [512, 520, 528],
    ∃ b, (engine [loading]).engineRead ⟨1, 100, [⟨0, 0⟩]⟩ true (BitVec.ofNat 64 (2 ^ 56 + o)) 4 = (engine [loading], .ok b) := by
  have hl : ∀ o ∈ [512, 520, 528], (engine [loading]).locate ((engine [loading]).actorCrew ⟨1, 100, [⟨0, 0⟩]⟩) none ⟨true, false, false⟩ (BitVec.ofNat 64 (2 ^ 56 + o)) 4 =
      (engine [loading], .ok (ownLoc o) none) ∧ (engine [loading]).badAt (2 ^ 53 + o) 4 = false ∧ (ownLoc o).away = false := by
    intro o ho; fin_cases ho <;> exact ⟨rfl, by decide +kernel, by decide +kernel⟩
  exact fun o ho => ⟨_, own_read (hl o ho).1 (hl o ho).2.1 (hl o ho).2.2⟩
theorem witness_TensorSteps_walks :
    (∃ e n fp bytes u, loading.elems 0 = some (e, 1) ∧ WalkMove 7 loading.actor e 1 0 (engine [loading]) n fp bytes u) ∧ loading.start = 0 ∧ loading.op.members = 0 ∧
    tagBin (parseShape (shapeOf 1 (2 ^ 56 + 512))).tag = true ∧ shapeAddr (parseShape (shapeOf 1 (2 ^ 56 + 512))) 0 0 = BitVec.ofNat 64 (2 ^ 56 + 512) ∧
    (∃ e v f x, storing.elems 0 = some (e, 1) ∧ e.place 0 (engine [storing]) = (v, .fault f x) ∧ f ≠ .memerr ∧ storing.paired = false) ∧
    (∃ s1 l p, (engine [loading]).locate ((engine [loading]).actorCrew loading.actor) none ⟨false, true, false⟩
      (shapeAddr (parseShape (shapeOf 1 (2 ^ 56 + 512))) 0 0) 4 = (s1, .ok l p)) ∧
    (parseIter (iterOf (2 ^ 56 + 512))).tag = 11 ∧ (11 : Fin 16).val = (parseIter (iterOf (2 ^ 56 + 512))).tag ∧
    iterAddr (parseIter (iterOf (2 ^ 56 + 520))) 0 = BitVec.ofNat 64 (2 ^ 56 + 520) ∧ iterAddr (parseIter (iterOf (2 ^ 56 + 528))) 0 = BitVec.ofNat 64 (2 ^ 56 + 528) := by
  have place : (loading.ldElems 0 7 (parseShape (shapeOf 1 (2 ^ 56 + 512)))).place 0 (engine [loading]) = (engine [loading], .direct [2 ^ 54 + 7 * 2 ^ 15] none) := rfl
  have value : ∃ b, (loading.ldElems 0 7 (parseShape (shapeOf 1 (2 ^ 56 + 512)))).value 0 (engine [loading]) = (engine [loading], .ok (b, 0)) := by
    obtain ⟨bs, read⟩ := engine_reads 512 (by simp)
    rw [show BitVec.ofNat 64 (2 ^ 56 + 512) = (parseShape (shapeOf 1 (2 ^ 56 + 512))).addr 0 0 from by decide +kernel] at read
    have read : (engine [loading]).engineRead loading.actor true ((parseShape (shapeOf 1 (2 ^ 56 + 512))).addr (0 / (parseShape (shapeOf 1 (2 ^ 56 + 512))).cols)
        (0 % (parseShape (shapeOf 1 (2 ^ 56 + 512))).cols)) (tagWidth (parseShape (shapeOf 1 (2 ^ 56 + 512))).tag / 8) = (engine [loading], .ok bs) := read
    let h := parseShape (shapeOf 1 (2 ^ 56 + 512))
    refine ⟨leBytes (eszOf (h.tag == tF64)) (widenExact h.tag (if h.tag == tF64 then tF64 else tF32) (leNat bs)), ?_⟩
    simp only [TenCmd.ldElems, read, h]
  obtain ⟨b, value⟩ := value
  refine ⟨⟨_, 1, 0, b.length, _, rfl, .direct 1 (((engine [loading]).putBytes (cellsAt (2 ^ 54 + 7 * 2 ^ 15) b)).markDirty (2 ^ 54 + 7 * 2 ^ 15)) _ (fun _ => [2 ^ 54 + 7 * 2 ^ 15]) 0 b.length
      (by decide) (by decide) ?_ (fun q hq h => by obtain rfl : q = 0 := by omega
                                                   rfl) (.inl ⟨rfl, rfl⟩)⟩,
    rfl, rfl, by decide +kernel, by decide +kernel, ⟨_, _, _, _, rfl, rfl, by decide, rfl⟩, ⟨_, _, _, rfl⟩, by decide +kernel, by decide +kernel, by decide +kernel, by decide +kernel⟩
  refine ⟨fun q => if q = 0 then engine [loading] else _, fun _ => 0, fun q => if q = 0 then 0 else b.length, rfl, rfl, rfl, rfl, rfl, rfl, fun q hq h => ?_⟩
  obtain rfl : q = 0 := by omega
  exact ⟨_, _, b, 0, place, value, rfl, rfl, by simp⟩

/-- Lines that a command released: one that its core has seen, one that it has not; a copy that asks for visibility. -/
theorem witness_TensorSteps_visible :
    (∀ z ∈ (released 8 (engine [tenCmd (.zero 7 1) .done])).streams, z.crew = 7 → 0 ∈ z.seen) ∧
    (∀ y ∈ ((released 7 (engine [tenCmd (.zero 7 1) .done])).coreAt 0).ten, y.st = .done → ∃ z ∈ (released 7 (engine [tenCmd (.zero 7 1) .done])).streams,
      z.crew = y.id ∧ 0 ∉ z.seen) ∧
    (filler (2 ^ 56) 3 (2 ^ 4)).op.flags / 2 ^ 4 % 2 = 1 ∧ (filling (2 ^ 56) 3 (2 ^ 4)).shown 7 0 0 = true := by
  refine ⟨fun z hz h => ?_, fun y hy _ => ⟨_, List.mem_singleton.2 rfl, ?_, List.not_mem_nil⟩, by decide, by decide +kernel⟩
  · rw [List.mem_singleton.1 hz] at h; exact absurd h (by decide)
  · rw [show ((released 7 (engine [tenCmd (.zero 7 1) .done])).coreAt 0).ten = [tenCmd (.zero 7 1) .done] from rfl] at hy
    rw [List.mem_singleton.1 hy]; rfl

/-! ### The outside, further -/

/-- A write of two lines whose second landing is full; an access that waits under key slot 9, and under a slot that is being destroyed. -/
def fullAt (n : Nat) : State := { State.reset with landings := State.reset.landings.set n ⟨List.replicate 16 (other 0 0), []⟩ }
def waitingUnder (k : BitVec 12) : State := { State.reset with inbound := [⟨5, 0, k, .bar2Write 0 [1]⟩] }
theorem witness_HostAccesses_lines :
    (let s := fullAt (landingOf 1)
     (List.replicate 130 (1 : Byte)).length = 128 - 0 % 128 + 2 ∧ s.landings[landingOf 0]? = some ⟨[], []⟩ ∧
      s.landings[landingOf 1]? = some ⟨List.replicate 16 (other 0 0), []⟩ ∧ landingOf 0 ≠ landingOf 1 ∧ HbmReady s 0 0 130) ∧
    (0 : Nat) ∉ State.reset.hub.dying ∧ (∃ y ∈ (waitingUnder 9).inbound, (waitingUnder 9).keyUnder y = some 9) ∧
    (∀ y ∈ (waitingUnder 9).inbound, (waitingUnder 9).keyUnder y ≠ some 4095) ∧ ∀ y ∈ State.reset.hub.windows, keyOf y ∉ State.reset.hub.dying := by
  refine ⟨⟨List.length_replicate, by decide +kernel, by decide +kernel, by decide, ⟨by decide, by decide⟩, ⟨by decide, by decide, by decide⟩, by decide +kernel, fun b hb => absurd hb List.not_mem_nil,
    fun z hz => absurd hz List.not_mem_nil⟩, by decide, ⟨_, List.mem_singleton.2 rfl, rfl⟩, fun y hy => ?_, fun _ _ => List.not_mem_nil⟩
  rw [List.mem_singleton.1 hy]; exact fun h => absurd (Option.some.inj (show some 9 = some 4095 from h)) (by decide)

/-- An atomic posted to package 9; a launch of package 3 that has asked package 0 for object 1 back; messages at package 0. -/
def posting (atomic : Bool) : State := { between 0x100000 1 with posted := [⟨1, some 9, 2 ^ 50, none, false, atomic⟩] }
def asked (l : List (Fin 2 × Option (List Dword))) : State := { podded false with sched := { (podded false).sched with launches := [{ launchOf with pods := l }] } }
theorem witness_OutsideEvents_links :
    (∀ p ∈ (posting false).posted, p.atomic = true → p.lost = false → p.peer ≠ some 9) ∧
    (let s := posting true
     ∃ p ∈ s.posted, p.atomic = true ∧ p.lost = false ∧ p.peer = some 9 ∧ p.crew = 1 ∧ s.crew? 1 = some s.focus ∧ (∀ p' ∈ s.posted, p' = p) ∧ (s.posted.filter (· = p)).length = 1) ∧
    (∀ k ∈ (posting true).cores, k.barge.queue = [] ∧ k.barge.jobs = [] ∧ k.ten = []) ∧
    (∀ l ∈ (asked [(1, some [5])]).sched.launches, ∀ p ∈ l.pods, p.1 = 1 → p.2 ≠ none) ∧
    (∀ l ∈ (asked [(1, some [5])]).sched.launches, ∀ p ∈ l.pods, p.1 = 0 → p.2 = none) ∧ (∃ l ∈ (asked [(1, some [5])]).sched.launches, (1, some [5]) ∈ l.pods) ∧
    (podded false).link (some 0) = .up ∧ State.reset.hub.regs.pkg = 0 ∧ State.reset.link (some 3) = .up ∧
    (let z : Barrier := ⟨launchOf.tag, true, 1, 5, 2, 64, 0⟩; z.v = true ∧ z.arrived < 2 ^ 20 ∧ z.enrolled < 2 ^ 20) := by
  refine ⟨by decide, ⟨_, List.mem_singleton.2 rfl, rfl, rfl, rfl, rfl, rfl, fun p hp => List.mem_singleton.1 hp, by decide⟩, by decide +kernel, ?_, ?_,
    ⟨_, List.mem_singleton.2 rfl, List.mem_singleton.2 rfl⟩, by decide, rfl, rfl, by decide⟩
  all_goals
    intro l hl p hp
    rw [List.mem_singleton.1 hl] at hp
    rw [List.mem_singleton.1 hp]; decide

/-- A walk that meets a table entry under a reduction of another die whose landing another crew holds: it has to wait. -/
def walking : State :=
  { granting (sole launchOf id) with
    cores := State.reset.cores, mem := walkCells, partials := [⟨1, 0x400000 / 128, 0, 64, 0, [(0, 1)]⟩]
    landings := State.reset.landings.set (landingOf (0x400000 / 128)) ⟨[⟨2, true, true, [], 0, 0⟩], []⟩ }
theorem witness_StepRunsInstruction_waits :
    (walking.crew? 1).isSome = true ∧ (walking.lookup (walking.space walking.focus false) 0x100000).1.stall = true ∧ walking.stall = false ∧
    ({ walking with partials := [] }.lookup (walking.space walking.focus false) 0x100000).1.stall = false := by
  refine ⟨rfl, ?_, rfl, ?_⟩ <;> decide +kernel

/-- The example that R275 works out step by step. -/
theorem test_prng_example : pgkey [⟨0, 0⟩] = 0x95C7D1AAC0B571DA ∧ prng (pgkey [⟨0, 0⟩]) 0 0 0 = 0x2D1CDDA2621A5742 := by decide +kernel

end Sys2Proof.Tests
end

section
/-! PROOF. Canonical memory is kept: what an update of the state does to it, and the operations that the rest is made of. -/
namespace Sys2Proof.Machine

/-- The memory of the state is in its canonical form: the invariant of R4 and R208 that every operation below keeps. -/
def State.Canonical (s : State) : Prop := Memory.wf s.mem

/-- The move goes on, to a state whose memory is in canonical form. -/
def Goes (o : Out) : Prop := ∃ t, o = .next t ∧ t.Canonical

section
variable {s : State} {α β : Type}

theorem State.Canonical.of_fst {p : State × α} {t : State} {a : α} (h : p.1.Canonical) (e : p = (t, a)) : t.Canonical := by
  subst e
  exact h

theorem State.Canonical.of_fst_fst {p : (State × α) × β} {t : State} {a : α} {b : β} (h : p.1.1.Canonical) (e : p = ((t, a), b)) :
    t.Canonical := by
  subst e
  exact h

theorem State.Canonical.ite {a b : State} {c : Prop} [Decidable c] (ha : a.Canonical) (hb : b.Canonical) : (if c then a else b).Canonical := by
  split
  · exact ha
  · exact hb

/-- A fold over a value that carries a state. -/
theorem canonical_foldl {f : β → α → β} (π : β → State) {b : β} (h : (π b).Canonical) (l : List α)
    (hf : ∀ b x, (π b).Canonical → (π (f b x)).Canonical) : (π (l.foldl f b)).Canonical := by
  induction l generalizing b with
  | nil => exact h
  | cons x l ih => exact ih (hf b x h)

theorem State.Canonical.foldl {f : State → α → State} (h : s.Canonical) (l : List α) (hf : ∀ s x, s.Canonical → (f s x).Canonical) :
    (l.foldl f s).Canonical := canonical_foldl id h l hf

theorem State.Canonical.foldl_fst {f : State × β → α → State × β} {p : State × β} (h : p.1.Canonical) (l : List α)
    (hf : ∀ p x, p.1.Canonical → (f p x).1.Canonical) : (l.foldl f p).1.Canonical := canonical_foldl Prod.fst h l hf

/-- An update of the state that leaves memory alone. -/
theorem State.Canonical.same {focus : Crew} {pool : List Crew} {cores : List Core} {rafts : List Raft} {dies : List Die} {hub : Hub}
    {sched : Sched} {landings : List Landing} {filled : List (Nat × Nat)} {keyed : List Keyed} {bad : List Nat} {streams : List StreamOut}
    {partials : List Partial} {posted : List Posted} {fences : List FenceWait} {inbound : List Inbound} {stall : Bool} {outbox : List Output}
    {now uids free epoch : Nat} {agenda : List (Nat × Move)} (h : s.Canonical) :
    State.Canonical ⟨focus, pool, cores, rafts, dies, hub, sched, landings, s.mem, filled, keyed, bad, streams, partials, posted, fences,
      inbound, stall, outbox, now, uids, free, epoch, agenda⟩ := h

/-- What is taken out of memory leaves the rest in canonical form. -/
theorem State.Canonical.filter (h : s.Canonical) (p : Host.Cell → Bool) : ({ s with mem := s.mem.filter p } : State).Canonical := by
  obtain ⟨hp, hv⟩ := h
  exact ⟨hp.filter p, fun x hx => hv x (List.mem_filter.1 hx).1⟩

end

section
variable {s : State} {uid line slot id j : Nat}

theorem State.Canonical.putBytes {l : List (Nat × Byte)} (h : s.Canonical) : (s.putBytes l).Canonical := State.putBytes_wf l h

theorem State.Canonical.keyLine (h : s.Canonical) : (s.keyLine line slot).Canonical := State.keyLine_wf line slot h

theorem State.Canonical.mapCrew {f : Crew → Crew} (h : s.Canonical) : (s.mapCrew uid f).Canonical := by
  unfold State.mapCrew
  split <;> exact h

theorem State.Canonical.focusOn (h : s.Canonical) : (s.focusOn uid).Canonical := by
  unfold State.focusOn
  split
  · exact h
  · split <;> exact h

theorem State.Canonical.onCrew {f : State → State} (h : s.Canonical) (hf : ∀ {t : State}, t.Canonical → (f t).Canonical) :
    (s.onCrew uid f).Canonical := by
  unfold State.onCrew
  split
  · exact h
  · exact (hf h.focusOn).focusOn

theorem State.Canonical.askLanding {g : Grant} (h : s.Canonical) : (s.askLanding g j).1.Canonical := by
  unfold State.askLanding
  split <;> exact h

theorem State.Canonical.passAt (h : s.Canonical) : (s.passAt id j line).1.Canonical := by
  unfold State.passAt
  split
  · exact h
  · split
    · exact h
    · split <;> exact h

theorem State.Canonical.passLine (h : s.Canonical) : (s.passLine id line).1.Canonical := h.passAt

theorem State.Canonical.rollbackCrew (h : s.Canonical) : (s.rollbackCrew uid).Canonical := by
  unfold State.rollbackCrew
  split
  · exact h
  · exact State.Canonical.mapCrew (restore_wf _ h)

theorem State.Canonical.rollback (h : s.Canonical) : s.rollback.Canonical := h.rollbackCrew

theorem State.Canonical.conflictRollback (h : s.Canonical) : (s.conflictRollback uid).Canonical := h.rollbackCrew.mapCrew

theorem State.Canonical.invalidateLine (h : s.Canonical) : (s.invalidateLine line uid).Canonical :=
  h.foldl _ fun _ _ => State.Canonical.conflictRollback

theorem State.Canonical.takeBad {key n : Nat} (h : s.Canonical) : (s.takeBad key n).Canonical := by
  unfold State.takeBad
  split <;> exact h

theorem State.Canonical.deliverFault {code : BitVec 8} {addr : Dword} {post eng : Bool} {pc : Addr} {word : BitVec 4} {lanes : Lanes}
    {chkpc : Addr} (h : s.Canonical) : (s.deliverFault code addr post eng pc word lanes chkpc).Canonical := by
  unfold State.deliverFault State.Canonical
  rw [State.deliverAt_mem]
  exact h

theorem State.Canonical.raise {f : Flt} (h : s.Canonical) : (s.raise f).Canonical := State.raise_wf f h

theorem State.Canonical.checked {uses : List Use} {k : State → State} (h : s.Canonical) (hk : ∀ {t : State}, t.Canonical → (k t).Canonical) :
    (Machine.checked uses s k).Canonical := checked_wf h (hk h)

end
end Sys2Proof.Machine
end

section
/-! PROOF. Canonical memory is kept by issue, caches, translation and accesses. -/
namespace Sys2Proof.Machine

section
variable {s : State} {uid line slot id core key die va pa : Nat}

/-! Issue of uniform and vector instructions -/

theorem State.Canonical.logV {d : Dst} {k : State → State} (h : s.Canonical) (hk : ∀ {t : State}, t.Canonical → (k t).Canonical) :
    (Machine.logV d s k).Canonical := by
  unfold Machine.logV
  split
  · dsimp only
    split
    · exact hk h
    · split
      · exact h.raise
      · exact hk h
  · exact hk h

theorem State.Canonical.deliver {ll : Option (Fin 12 × LongKind)} {dst : Dst} {lanes : List (Fin 32)} {ws : List RegWrite} {fp : FpFlags}
    (h : s.Canonical) : (s.deliver ll dst lanes ws fp).Canonical := by
  unfold State.deliver
  split <;> exact h

theorem State.Canonical.vecIssue {v : VOp} {g : Guard} {ll : Option (Fin 12 × LongKind)} {post : Regs → Regs} (h : s.Canonical) :
    (s.vecIssue v g ll post).Canonical := by
  unfold State.vecIssue
  dsimp only
  split
  · exact h.raise
  · split
    · exact h.logV fun h => h.deliver
    · exact h.raise

theorem State.Canonical.uniform {srcs : List (Fin 64)} {d : Fin 64} {f : Regs → Dword} (h : s.Canonical) :
    (Machine.uniform srcs d f s).Canonical := h.checked id

/-! Cache tags, partial copies, translation -/

theorem State.Canonical.mergeLine (h : s.Canonical) : (s.mergeLine line).Canonical := (translated_mergeLine s line).wf h

theorem State.Canonical.mergeFor (h : s.Canonical) : (s.mergeFor id line).1.Canonical := by
  unfold State.mergeFor
  split
  · split
    · exact (h.passLine.of_fst ‹_›).mergeLine
    · exact h.passLine.of_fst ‹_›
  · exact h

theorem State.Canonical.readLine (h : s.Canonical) : (s.readLine line).Canonical := (translated_readLine s line).wf h

theorem State.Canonical.tagLeaves {v : Option CacheTag} (h : s.Canonical) : (s.tagLeaves v).Canonical := by
  unfold State.tagLeaves
  split
  · split
    · exact h.mergeLine
    · exact h
  · exact h

theorem State.Canonical.putSlice {slice : Nat} {l : List CacheTag} (h : s.Canonical) : (s.putSlice slice l).Canonical := h.same

theorem State.Canonical.count {n : Nat} (h : s.Canonical) : (s.count core n).Canonical := h.same

theorem State.Canonical.fillCache (h : s.Canonical) : (s.fillCache line key).Canonical := by
  unfold State.fillCache
  exact h.same

theorem State.Canonical.touchL2 {mark : Option (Fin 4)} {hint : Fin 8} {alloc counts write : Bool} (h : s.Canonical) :
    (s.touchL2 core line key mark hint alloc counts write).Canonical := by
  have tally (n : Nat) {t : State} (h : t.Canonical) : (if counts = true then t.count core n else t).Canonical := h.count.ite h
  unfold State.touchL2
  dsimp only
  split
  · exact ((tally 4 (tally 2 h)).ite (tally 2 h)).putSlice
  · split
    · exact (tally 3 h).fillCache
    · exact ((tally 5 (tally 3 h).fillCache).ite (tally 3 h).fillCache).putSlice.tagLeaves

theorem State.Canonical.placePart (h : s.Canonical) : (s.placePart die line key).Canonical := by
  unfold State.placePart
  exact h.putSlice.tagLeaves

theorem State.Canonical.copyIn (h : s.Canonical) : (s.copyIn die line key).Canonical := by
  unfold State.copyIn
  split <;> exact h

theorem State.Canonical.touchRead {hint : Fin 8} (h : s.Canonical) : (s.touchRead core key line va hint).Canonical := by
  unfold State.touchRead
  dsimp only
  have h2 : ((s.count core 1).touchL2 core line key (s.hub.regs.retSlot key va) hint (hint != 4) true false).Canonical :=
    State.Canonical.touchL2 (s := s.count core 1) h
  split
  · exact h
  · split
    · split
      · exact h2
      · exact h2.copyIn
    · split
      · exact h2
      · exact h2.copyIn

theorem State.Canonical.touchAtom {hint : Fin 8} (h : s.Canonical) : (s.touchAtom core key line va hint).Canonical :=
  State.Canonical.touchL2 (s := s.count core _) h

theorem State.Canonical.walk {shift n : Nat} (h : s.Canonical) : (s.walk slot va n pa shift).1.Canonical :=
  (translated_walk slot va n pa shift s).wf h

theorem State.Canonical.setPteBits {mask : Dword} {pte : Nat} (h : s.Canonical) : (s.setPteBits mask pte).Canonical :=
  (translated_setPteBits s mask pte).wf h

theorem State.Canonical.translate {x : Space} {n : Need} (h : s.Canonical) : (s.translate x n va).1.Canonical :=
  (translated_translate s x n va).wf h

theorem State.Canonical.lookup {x : Space} (h : s.Canonical) : (s.lookup x va).1.Canonical := (translated_lookup s x va).wf h

theorem State.Canonical.locate {c : Crew} {t : Option (Fin 32)} {n : Need} {a : Dword} {size : Nat} (h : s.Canonical) :
    (s.locate c t n a size).1.Canonical := (translated_locate s c t n a size).wf h

end

section
variable {s t : State} {c : Crew} {pg : List Level} {va pa : Nat} {l : Launch}

/-! The race filter -/

theorem State.Canonical.hubPlace (h : s.Canonical) : (s.hubPlace l va).1.Canonical := by
  have h' : (s.walk (l.slot.getD 64) va 4 l.desc.rootpt 55).1.Canonical := h.walk
  unfold State.hubPlace
  split
  · exact h'.of_fst ‹_›
  · dsimp only
    split
    · exact h'.of_fst ‹_›
    · exact (h'.of_fst ‹_›).setPteBits

theorem State.Canonical.pokeLine {bytes : List Byte} (h : s.Canonical) : (s.pokeLine l va bytes).1.Canonical := by
  unfold State.pokeLine
  split
  · split
    · refine State.Canonical.touchL2 (s := State.dropCopies _ _ (State.clearBad _ _)) ?_
      exact (h.hubPlace.of_fst ‹_›).readLine.keyLine.putBytes
    · exact h.hubPlace.of_fst ‹_›
  · exact h.hubPlace.of_fst ‹_›

theorem State.Canonical.pokeVa {bytes : List Byte} {fuel : Nat} (h : s.Canonical) : (s.pokeVa l fuel va bytes).1.Canonical := by
  induction fuel generalizing s va bytes with
  | zero => exact h
  | succ fuel ih =>
    unfold State.pokeVa
    split
    · exact h
    · dsimp only
      split
      · exact h.pokeLine.of_fst ‹_›
      · exact ih (h.pokeLine.of_fst ‹_›)

theorem State.Canonical.pokeRf {off : Nat} {bytes : List Byte} (h : s.Canonical) : (s.pokeRf l off bytes).Canonical := h.pokeVa

theorem State.Canonical.setRf (h : s.Canonical) : (s.setRf l).Canonical := State.Canonical.pokeRf (s := s.mapLaunch _ _) h

theorem State.Canonical.strandOf {n : Nat} (h : s.Canonical) (e : s.strandOf c pg = some (t, n)) : t.Canonical := by
  unfold State.strandOf at e
  split at e
  · cases e
    exact h
  · split at e
    · cases e
      exact h
    · dsimp only at e
      split at e
      · cases e
      · cases e
        exact h.setRf.pokeRf

theorem State.Canonical.setGranule {w rl rh : Nat} (h : s.Canonical) (e : s.setGranule c pa w rl rh = some t) : t.Canonical := by
  have written (l : Launch) (rs : List LineRec) : (rs.foldl (fun s r => s.pokeRf l r.off r.bytes) (s.setRf l)).Canonical :=
    h.setRf.foldl _ fun _ _ h => h.pokeRf
  unfold State.setGranule at e
  split at e
  · cases e
    exact h
  · dsimp only at e
    split at e
    · cases e
      exact written _ _
    · split at e
      · cases e
        exact written _ _
      · split at e
        · cases e
        · cases e
          exact written _ _

theorem State.Canonical.raceCheck {note write : Bool} (h : s.Canonical) : (s.raceCheck note c pg va pa write).1.Canonical := by
  unfold State.raceCheck
  split
  · exact h
  · have h' := h.strandOf ‹_›
    split
    · exact h'
    · split
      · dsimp only
        split
        · exact h'.pokeRf
        · exact h'
      · exact h'

theorem State.Canonical.raceRecord {write : Bool} (h : s.Canonical) (e : s.raceRecord c pg pa write = some t) : t.Canonical := by
  unfold State.raceRecord at e
  split at e
  · cases e
  · have h' := h.strandOf ‹_›
    split at e
    · cases e
      exact h'
    · split at e
      split at e
      · exact h'.setGranule e
      · extract_lets rl' rh' at e
        split at e
        · cases e
          exact h'
        · exact h'.setGranule e

theorem State.Canonical.raceCheckAll {note write : Bool} {gs : List (Nat × Nat)} (h : s.Canonical) :
    (s.raceCheckAll note c pg write gs).1.Canonical := by
  induction gs generalizing s with
  | nil => exact h
  | cons g gs ih =>
    unfold State.raceCheckAll
    split
    · exact ih (h.raceCheck.of_fst ‹_›)
    · exact h.raceCheck

theorem State.Canonical.raceWrites {gs : List (Nat × Nat)} (h : s.Canonical) : (s.raceWrites c pg gs).1.Canonical := by
  unfold State.raceWrites
  split
  · exact h.raceCheck
  · split <;> exact h.raceCheckAll.of_fst ‹_›

theorem State.Canonical.raceRecordAll {write : Bool} {gs : List (Nat × Nat)} (h : s.Canonical) (e : s.raceRecordAll c pg write gs = some t) :
    t.Canonical := by
  induction gs generalizing s with
  | nil =>
    cases e
    exact h
  | cons g gs ih =>
    obtain ⟨u, hu, e⟩ := Option.bind_eq_some_iff.1 e
    exact ih (h.raceRecord hu) e

end

section
variable {s : State} {race load : Bool} {n : Need} {w : Want} {extra : Loc → Option FltCode} {ws : List Want} {hint : Fin 8} {key : Nat}

/-! Accesses -/

theorem State.Canonical.probe {note : Bool} (h : s.Canonical) : (s.probe n race note w).1.Canonical := by
  unfold State.probe
  split
  · exact h.locate.of_fst ‹_›
  · have h' := h.locate.of_fst ‹_›
    split
    · exact h'.takeBad
    · split
      · split <;> exact h'.raceCheckAll.of_fst ‹_›
      · exact h'

theorem State.Canonical.probeAtom (h : s.Canonical) : (s.probeAtom n w).1.Canonical := by
  unfold State.probeAtom
  split
  · exact h
  · split
    · split
      · exact (h.probe.of_fst ‹_›).takeBad
      · exact h.probe.of_fst ‹_›
    · exact h.probe

theorem State.Canonical.probeEach {f : Bool → Want → State → State × Probe} {fine : Bool} (h : s.Canonical)
    (hf : ∀ {b w} {t : State}, t.Canonical → (f b w t).1.Canonical) : (Machine.probeEach f fine ws s).1.Canonical := by
  induction ws generalizing s fine with
  | nil => exact h
  | cons w ws ih => exact ih (hf h)

theorem State.Canonical.probeAll (h : s.Canonical) : (s.probeAll n race ws).1.Canonical := h.probeEach State.Canonical.probe

theorem State.Canonical.noteUse {va : Nat} (h : s.Canonical) : (s.noteUse va).Canonical := by
  unfold State.noteUse
  split
  · split <;> exact h
  · exact h

theorem State.Canonical.checkedAll {p : State × List (Want × Probe)} {k : List (Want × Loc) → State → State} (h : p.1.Canonical)
    (hk : ∀ {l} {t : State}, t.Canonical → (k l t).Canonical) : (State.checkedAll extra p k).Canonical := by
  unfold State.checkedAll
  dsimp only
  split
  · exact h.raise
  · exact hk h

theorem State.Canonical.access {k : List (Want × Loc) → State → State} (h : s.Canonical)
    (hk : ∀ {l} {t : State}, t.Canonical → (k l t).Canonical) : (s.access n race extra ws k).Canonical := h.probeAll.checkedAll hk

theorem State.Canonical.accessAtom {k : List (Want × Loc) → State → State} (h : s.Canonical)
    (hk : ∀ {l} {t : State}, t.Canonical → (k l t).Canonical) : (s.accessAtom n extra ws k).Canonical :=
  (h.probeEach State.Canonical.probeAtom).checkedAll hk

theorem State.Canonical.mergeReads {ls : List Loc} (h : s.Canonical) : (s.mergeReads ls).1.Canonical := by
  induction ls generalizing s with
  | nil => exact h
  | cons l ls ih =>
    have h' : (if l.region == .spad then (s, true) else if s.homeBusy s.focus.uid (lineOf l.key) || s.linkWaits l then (s, false)
        else s.mergeFor s.focus.uid (lineOf l.key)).1.Canonical := by
      split
      · exact h
      · split
        · exact h
        · exact h.mergeFor
    unfold State.mergeReads
    split
    · exact ih (h'.of_fst ‹_›)
    · exact h'.of_fst ‹_›

theorem State.Canonical.noteRead {l : Loc} (h : s.Canonical) : (s.noteRead race w l).Canonical := by
  unfold State.noteRead
  dsimp only
  split <;> exact h

theorem State.Canonical.noteReads {ls : List (Want × Loc)} (h : s.Canonical) : (s.noteReads load hint ls).Canonical := by
  unfold State.noteReads
  have h' := h.foldl ls fun s x (h : s.Canonical) => h.noteRead (race := load) (w := x.1) (l := x.2)
  dsimp only
  split
  · exact h'.foldl _ fun _ _ h => h.touchRead
  · exact h'

theorem State.Canonical.logGranule {a : Dword} {k : State → State} (h : s.Canonical) (hk : ∀ {t : State}, t.Canonical → (k t).Canonical) :
    (s.logGranule a key k).Canonical := by
  unfold State.logGranule
  dsimp only
  split
  · exact hk h
  · split
    · exact h.raise
    · exact hk h

theorem State.Canonical.markDirty (h : s.Canonical) : (s.markDirty key).Canonical := by
  unfold State.markDirty
  split <;> exact h

theorem State.Canonical.store {p : Put} {k : State → State} (h : s.Canonical) (hk : ∀ {t : State}, t.Canonical → (k t).Canonical) :
    (s.store hint p k).Canonical := by
  unfold State.store
  dsimp only
  split
  · exact hk h
  · split
    · refine h.logGranule fun h => hk ?_
      split
      · exact h
      · exact h.putBytes.markDirty
    · split
      · exact hk h
      · exact h.raise
    · split
      · exact h.raise
      · exact hk h

theorem State.Canonical.storeAll {ps : List Put} {k : State → State} (h : s.Canonical) (hk : ∀ {t : State}, t.Canonical → (k t).Canonical) :
    (s.storeAll hint ps k).Canonical := by
  induction ps generalizing s with
  | nil => exact hk h
  | cons p ps ih => exact h.store ih

end
end Sys2Proof.Machine
end

section
/-! PROOF. Canonical memory is kept by loads, stores, atomics, system registers and barriers at issue. -/
namespace Sys2Proof.Machine

section
variable {s : State} {hint : Fin 8} {n before : Nat} {dsts : List Dst} {dests : List LoadDest} {uses guardUse : List Use} {ty : Fin 16}
  {d base a b : Fin 64} {off : Fin 256} {fs : Bool} {mx : Option Mx} {op : Fin 16}

/-! Loads and stores -/

theorem State.Canonical.logVs {ds : List (Fin 64)} {k : State → State} (h : s.Canonical) (hk : ∀ {t : State}, t.Canonical → (k t).Canonical) :
    (Machine.logVs ds s k).Canonical := by
  induction ds generalizing s with
  | nil => exact hk h
  | cons d ds ih => exact h.logV ih

theorem State.Canonical.ordered {k : Ordered} (h : s.Canonical) : (s.ordered k before).Canonical := by
  unfold State.ordered
  split
  · exact h
  · exact h.same

theorem State.Canonical.newGen (h : s.Canonical) : s.newGen.Canonical := h.same.ite h

theorem State.Canonical.performLoad {ls : List (Want × Loc)} (h : s.Canonical) : (s.performLoad dsts hint ls dests).Canonical := by
  unfold State.performLoad
  dsimp only
  split
  · exact .ordered h.same
  · split
    · exact (h.mergeReads.of_fst ‹_›).same
    · exact .ordered (h.mergeReads.of_fst ‹_›).noteReads.same

theorem State.Canonical.loadIssue {handle : Bool} {wants : List Want} (h : s.Canonical) :
    (s.loadIssue ty handle guardUse uses dsts hint wants dests).Canonical :=
  h.raise.ite (h.checked fun h => h.access fun h => h.logVs fun h => h.performLoad)

theorem State.Canonical.storeIssue {formatOk : Bool} {puts : List (Want × List (Nat × Byte))} (h : s.Canonical) :
    (s.storeIssue guardUse uses formatOk hint puts).Canonical :=
  h.checked fun h => (h.access fun h => h.newGen.storeAll fun h => h.ordered).ite h.raise

theorem State.Canonical.execOrd {order scope : Fin 8} (h : s.Canonical) : Goes (execOrd order scope s) := ⟨_, rfl, h.same.ite h.raise⟩

/-! Atomics, FENCE, the cache instructions -/

theorem State.Canonical.holdAtom {dst : Dst} {job : AtomJob} (h : s.Canonical) : (s.holdAtom fs dst job before).Canonical := .ordered h.same

theorem State.Canonical.atomIssue {cas : Bool} {c : Option (Fin 64)} (h : s.Canonical) : (s.atomIssue op cas d a b c fs mx).Canonical :=
  h.checked fun h => (h.accessAtom fun h => h.logV fun h => .holdAtom h.same).ite h.raise

theorem State.Canonical.execAtomu {w32 : Bool} (h : s.Canonical) : Goes (execAtomu d a b op w32 fs mx s) :=
  ⟨_, rfl, h.checked fun h => h.accessAtom fun h => .holdAtom h.same⟩

theorem State.Canonical.redOne {w : Nat} {want : Want} {l : Loc} {x : Dword} {k : State → State} (h : s.Canonical)
    (hk : ∀ {t : State}, t.Canonical → (k t).Canonical) : (s.redOne op w hint want l x k).Canonical := by
  unfold State.redOne
  split
  · exact hk h.same
  · exact (hk h.same).ite h.raise
  · split
    · exact h.raise
    · exact hk h.same

theorem State.Canonical.redAll {rs : List (Nat × Want × Loc × Dword)} {k : State → State} (h : s.Canonical)
    (hk : ∀ {t : State}, t.Canonical → (k t).Canonical) : (s.redAll op hint rs k).Canonical := by
  induction rs generalizing s with
  | nil => exact hk h
  | cons r rs ih => exact h.redOne ih

theorem State.Canonical.execRed (h : s.Canonical) : Goes (execRed a b op mx s) :=
  ⟨_, rfl, h.checked fun h => (h.accessAtom fun h => h.newGen.redAll fun h => h.ordered).ite h.raise⟩

theorem State.Canonical.execFence {scope : Fin 8} (h : s.Canonical) : Goes (execFence d scope s) :=
  ⟨_, rfl, (h.checked fun h => h.same).ite h.raise⟩

theorem State.Canonical.execCpin {ways : Fin 16} {slot : Fin 4} (h : s.Canonical) : Goes (execCpin base ways slot s) :=
  ⟨_, rfl, h.checked fun h => h.raise.ite (h.raise.ite h.same)⟩

theorem State.Canonical.prefetch {x : Dword} (h : s.Canonical) : (s.prefetch hint x).Canonical := by
  have hl : (s.locateGlobal s.focus ⟨true, false, false⟩ x).1.Canonical := by
    unfold State.locateGlobal
    split <;> exact h.translate.of_fst ‹_›
  unfold State.prefetch
  split
  · exact h
  · split
    · have h' := hl.of_fst ‹_›
      split
      · exact h'
      · split
        · exact .noteUse (h'.mergeReads.of_fst ‹_›).touchRead.same
        · exact h'.noteUse
    · exact hl.of_fst ‹_›

theorem State.Canonical.execCpref (h : s.Canonical) : Goes (execCpref base off mx s) :=
  ⟨_, rfl, h.checked fun h => (h.foldl _ fun _ _ h => h.prefetch).ordered⟩

theorem State.Canonical.execCinv {kind : Fin 4} (h : s.Canonical) : Goes (execCinv kind base off s) :=
  ⟨_, rfl, h.raise.ite (h.checked fun h => h.same)⟩

/-! System registers -/

theorem State.Canonical.postFault {uid : Nat} {code : FltCode} {addr : Dword} {org : Origin} {lanes : Lanes} {eng : Bool} (h : s.Canonical) :
    (s.postFault uid code addr org lanes eng).Canonical := h.mapCrew

theorem State.Canonical.popAct {uid : Nat} (h : s.Canonical) : (s.popAct uid).Canonical := h.mapCrew

theorem State.Canonical.writeHeld {org : Origin} {x : Dword} (h : s.Canonical) : (s.writeHeld org n x).Canonical := by
  have refitted (t : State) (h : t.Canonical) : (if (0x178 ≤ n && n ≤ 0x17B) || n = 0x180 then t.mapPkg PkgRegs.refit else t).Canonical :=
    State.Canonical.ite h.same h
  exact h.same.ite (h.postFault.ite (.ite (refitted _ h.same).same (refitted _ h.same)))

theorem State.Canonical.firmwareMap {x : Dword} (h : s.Canonical) : (s.firmwareMap n x).Canonical := h.same.ite h

theorem State.Canonical.execMfsr {num : BitVec 12} (h : s.Canonical) : Goes (execMfsr d num s) := by
  refine ⟨_, rfl, ?_⟩
  split
  · exact h.raise
  · exact h.raise.ite (h.checked fun h => h.same)

theorem State.Canonical.execMtsr {num : BitVec 12} (h : s.Canonical) : Goes (execMtsr num a s) := by
  refine ⟨_, rfl, ?_⟩
  split
  · exact h.raise
  · exact h.raise.ite (h.raise.ite (h.checked fun h => h.raise.ite (h.same.ite h.same)))

theorem State.Canonical.execRft (h : s.Canonical) : Goes (execRft s) := ⟨_, rfl, h.same.ite h.raise⟩

end

section
variable {s : State} {uid num : Nat} {o : ObjId} {lanes : Lanes} {scope : Fin 8} {b : Fin 16} {a d : Fin 64} {org : Origin}

/-! Barrier objects -/

theorem State.Canonical.sendTo {peer : Option Nat} {addr : Nat} {out : Output} (h : s.Canonical) : (s.sendTo peer addr out).Canonical := by
  unfold State.sendTo
  split
  · exact h.same
  · exact h.same
  · exact h

theorem State.Canonical.tellPod {peer : Nat} {m : PodMessage} (h : s.Canonical) : (s.tellPod peer m).Canonical := h.sendTo

theorem State.Canonical.mapBarrier {f : Barrier → Barrier} (h : s.Canonical) : (s.mapBarrier o f).Canonical := by
  unfold State.mapBarrier
  split <;> exact h.same

theorem State.Canonical.nextPhase {phase : BitVec 16} (h : s.Canonical) : (s.nextPhase o phase).Canonical := h.mapBarrier.same

theorem State.Canonical.evaluate (h : s.Canonical) : (s.evaluate o).Canonical := (h.nextPhase.same.ite h.nextPhase).ite h

theorem State.Canonical.arrive (h : s.Canonical) : (s.arrive o uid lanes).Canonical := h.mapCrew.tellPod.ite h.mapCrew.mapBarrier.evaluate

theorem State.Canonical.deduct (h : s.Canonical) : (s.deduct o uid lanes).Canonical := h.mapCrew.tellPod.ite h.mapCrew.mapBarrier.evaluate

theorem State.Canonical.addBytes {n : Dword} (h : s.Canonical) : (s.addBytes o n).Canonical := h.tellPod.ite h.mapBarrier.evaluate

theorem State.Canonical.joinObject (h : s.Canonical) : (s.joinObject o uid).Canonical := h.mapCrew

theorem State.Canonical.enrollIn (h : s.Canonical) : (s.enrollIn o uid).Canonical := by
  unfold State.enrollIn
  split
  · exact h
  · exact h.mapBarrier.joinObject

theorem State.Canonical.claim {owner : BitVec 32} {expect : BitVec 20} (h : s.Canonical) : (s.claim o owner expect).Canonical := h.mapBarrier

theorem State.Canonical.leaveObjects (h : s.Canonical) : (s.leaveObjects uid).Canonical := by
  unfold State.leaveObjects
  split
  · exact h
  · exact (h.foldl _ fun _ _ h => h.tellPod.ite h.mapBarrier).mapCrew

theorem State.Canonical.barIssue {d : Option (Fin 64)} (h : s.Canonical) : (s.barIssue scope num d).Canonical := by
  refine h.raise.ite (h.raise.ite (h.checked fun h => ?_))
  dsimp only
  split
  · split <;> exact h.same
  · exact h.same

theorem State.Canonical.execBarw (h : s.Canonical) : Goes (execBarw a scope b s) := by
  refine ⟨_, rfl, h.raise.ite (h.checked fun h => ?_)⟩
  dsimp only
  split <;> exact h.same

theorem State.Canonical.execBari (h : s.Canonical) : Goes (execBari a scope b s) :=
  ⟨_, rfl, h.raise.ite (h.checked fun h => h.same)⟩

theorem State.Canonical.execBarb (h : s.Canonical) : Goes (execBarb a scope b s) := by
  refine ⟨_, rfl, h.raise.ite (h.checked fun h => ?_)⟩
  split
  · exact h.same
  · exact h

theorem State.Canonical.barStep6 {k : ActKind} (h : s.Canonical) : (s.barStep6 k).Canonical := by
  unfold State.barStep6
  split
  · exact .arrive h.same
  · exact .arrive h.same
  · exact h.same
  · exact h.addBytes
  · exact h.foldl _ fun _ _ h => h.deduct
  · exact h

theorem State.Canonical.bariFault (h : s.Canonical) : (s.bariFault org num).Canonical := h.postFault

theorem State.Canonical.bariStep6 {count : Dword} {sent : Bool} (h : s.Canonical) : (s.bariStep6 org o count num sent).Canonical := by
  refine State.Canonical.ite (h.ite (.tellPod h.same)) ?_
  split
  · exact h.mapBarrier.joinObject.popAct
  · exact h.bariFault.popAct

theorem State.Canonical.bariAnswer {n : Fin 2} {granted : Bool} (h : s.Canonical) : (s.bariAnswer n granted).Canonical := by
  unfold State.bariAnswer
  split
  · exact State.Canonical.ite (h.joinObject.ite h.bariFault).popAct h
  · exact h

theorem State.Canonical.podAsked {msg : PodMessage} (h : s.Canonical) : (s.podAsked msg).Canonical := by
  unfold State.podAsked
  split
  · exact h.mapBarrier.evaluate
  · exact h.mapBarrier.evaluate
  · exact h.mapBarrier.evaluate
  · split
    · exact h.mapBarrier.tellPod
    · exact h.tellPod
  · exact h.mapBarrier
  · exact h.mapBarrier
  · exact h.mapBarrier.tellPod
  · split
    · exact h.mapBarrier.tellPod
    · exact h.tellPod
  all_goals exact h

theorem State.Canonical.podTold {msg : PodMessage} (h : s.Canonical) : (s.podTold msg).Canonical := by
  unfold State.podTold
  split
  · exact .mapBarrier h.nextPhase.same
  · exact State.Canonical.ite (.onCrew (h.mapBarrier.ite h) .bariAnswer) h
  · exact h.same.ite h
  · exact h.same.ite h
  all_goals exact h

theorem State.Canonical.execPodBarrierMessage {msg : PodMessage} (h : s.Canonical) : Goes (execPodBarrierMessage msg s) :=
  ⟨_, rfl, h.podAsked.ite h.podTold⟩

end
end Sys2Proof.Machine
end

section
/-! PROOF. Canonical memory is kept by control flow, the release of lines, tables and views. -/
namespace Sys2Proof.Machine

section
variable {s : State} {core a idx : Nat} {c : Crew} {r d : Fin 64}

/-! Instruction fetch and control flow -/

theorem State.Canonical.codeLine {line : Nat} {slot : BitVec 12} (h : s.Canonical) : (s.codeLine core line slot).1.Canonical := by
  unfold State.codeLine
  split
  · exact h
  · exact h.readLine.same

theorem State.Canonical.fetchWord (h : s.Canonical) : (s.fetchWord c a idx).1.Canonical := by
  unfold State.fetchWord
  dsimp only
  split
  · exact h
  · split
    · exact h.translate.of_fst ‹_›
    · have h' := h.translate.of_fst ‹_›
      split
      · exact h'.takeBad
      · split
        · exact h'.codeLine
        · exact h'.same

theorem State.Canonical.fetchWords {n : Nat} (h : s.Canonical) : (s.fetchWords c a idx n).1.Canonical := by
  induction n generalizing s a idx with
  | zero => exact h
  | succ n ih =>
    unfold State.fetchWords
    split
    · exact h.fetchWord.of_fst ‹_›
    · have h' := ih (a := a + 4) (idx := idx + 1) (h.fetchWord.of_fst ‹_›)
      split
      · exact h'.of_fst ‹_›
      · exact h'

theorem State.Canonical.fetchClause {x : Addr} (h : s.Canonical) : (s.fetchClause c x).1.Canonical := by
  unfold State.fetchClause
  split
  · exact h.fetchWord.of_fst ‹_›
  · have h' := h.fetchWord.of_fst ‹_›
    split
    · exact h'.fetchWords.of_fst ‹_›
    · split <;> exact h'.fetchWords.of_fst ‹_›

theorem State.Canonical.checkTarget {lp : Bool} {x : Dword} (h : s.Canonical) : (s.checkTarget lp x).1.Canonical := by
  unfold State.checkTarget
  split
  · exact h
  · split
    · exact h
    · split
      · exact h.fetchWord.of_fst ‹_›
      · exact (h.fetchWord.of_fst ‹_›).noteUse

theorem State.Canonical.checkTargets {lp : Bool} {ts : List (Fin 32 × Dword)} (h : s.Canonical) : (s.checkTargets lp ts).1.Canonical := by
  induction ts generalizing s with
  | nil => exact h
  | cons x ts ih => exact ih h.checkTarget

theorem State.Canonical.execJmpi (h : s.Canonical) : Goes (execJmpi r s) := by
  refine ⟨_, rfl, h.checked fun h => ?_⟩
  dsimp only
  split
  · exact h.checkTargets.raise
  · exact h.checkTargets.same

theorem State.Canonical.callTo {fails : List LaneFail} {ts : List (Fin 32 × Dword)} (h : s.Canonical) : (s.callTo fails ts).Canonical := by
  unfold State.callTo
  dsimp only
  split
  · exact h.probeAll.raise
  · exact State.Canonical.storeAll h.probeAll.same fun h => h.same

theorem State.Canonical.execCall {off : BitVec 24} (h : s.Canonical) : Goes (execCall off s) := ⟨_, rfl, h.raise.ite h.callTo⟩

theorem State.Canonical.execCalli (h : s.Canonical) : Goes (execCalli r s) :=
  ⟨_, rfl, h.raise.ite (h.checked fun h => h.checkTargets.callTo)⟩

theorem State.Canonical.execRet (h : s.Canonical) : Goes (execRet s) := by
  refine ⟨_, rfl, h.raise.ite (h.raise.ite (h.access fun h => ?_))⟩
  split
  · exact (h.mergeReads.of_fst ‹_›).same
  · have h' := h.mergeReads.of_fst ‹_›
    dsimp only
    split
    · exact h'.checkTargets.raise
    · exact h'.checkTargets.noteReads.same

theorem State.Canonical.execExit (h : s.Canonical) : Goes (execExit s) := by
  refine ⟨_, rfl, ?_⟩
  exact .ite (.same (.ite h.same h.same)) (.ite h.same h.same)

theorem State.Canonical.execSafept {off : BitVec 20} (h : s.Canonical) : Goes (execSafept off s) := ⟨_, rfl, h.same.ite h.same⟩

theorem State.Canonical.execWaitf {mask : BitVec 12} (h : s.Canonical) : Goes (execWaitf mask s) := ⟨_, rfl, h.same.ite h.same⟩

theorem State.Canonical.execRep {step : BitVec 4} (h : s.Canonical) : Goes (execRep r step s) := by
  refine ⟨_, rfl, h.raise.ite ?_⟩
  split
  · exact h.raise
  · exact h.same

end

section
variable {s : State} {id core line except pa n k w : Nat} {l : Loc} {slot : BitVec 12} {op : Fin 16} {cells : List (Nat × Byte)}
  {code : FltCode} {addr : Dword}

/-! Lines at their homes -/

theorem State.Canonical.postCheck (h : s.Canonical) : (s.postCheck id code addr).Canonical := by
  unfold State.postCheck
  split
  · exact h.same.ite h
  · exact h.postFault

theorem State.Canonical.postOut (h : s.Canonical) : (s.postOut id cells).Canonical := h.foldl _ fun _ _ h => h.same

theorem State.Canonical.sendAtomic {operand : Dword} (h : s.Canonical) : (s.sendAtomic id k op w operand).Canonical := by
  unfold State.sendAtomic
  have h' : (s.post id k (awayAtomic k op w operand none)).Canonical := h.same
  exact h'.postCheck.ite h'

theorem State.Canonical.writeLine {hint : Fin 8} {va : Nat} (h : s.Canonical) : (s.writeLine core except slot hint va cells).Canonical := by
  unfold State.writeLine
  split
  · exact h
  · next k _ _ =>
    have h' : State.Canonical (if isHbm k then (s.mergeLine (lineOf k)).keyLine (lineOf k) slot.toNat else s.mergeLine (lineOf k)) :=
      h.mergeLine.keyLine.ite h.mergeLine
    exact .ite (.touchL2 h'.putBytes.invalidateLine.same) h'.putBytes.invalidateLine.same

theorem State.Canonical.systemWrite (h : s.Canonical) : (s.systemWrite except l cells).Canonical :=
  h.mergeLine.keyLine.putBytes.invalidateLine.same

theorem State.Canonical.engineStore {bytes : List Byte} (h : s.Canonical) : (s.engineStore id core l bytes).Canonical := by
  unfold State.engineStore
  split
  · exact h.putBytes.markDirty
  · exact h.same
  · exact h.postOut.ite h.systemWrite
  · exact h.writeLine

theorem State.Canonical.passStore (h : s.Canonical) : (s.passStore id l).1.Canonical := by
  unfold State.passStore
  split
  · exact h.passLine
  · split
    · exact h.mergeFor
    · exact h

theorem State.Canonical.passStores {ls : List Loc} (h : s.Canonical) : (s.passStores id ls).1.Canonical := by
  induction ls generalizing s with
  | nil => exact h
  | cons l ls ih =>
    unfold State.passStores
    split
    · exact ih (h.passStore.of_fst ‹_›)
    · exact h.passStore.of_fst ‹_›

theorem State.Canonical.reduceAt {b : Dword} (h : s.Canonical) : (s.reduceAt op w k b).Canonical := h.putBytes

theorem State.Canonical.reduceHome {rs : List RedRec} (h : s.Canonical) : (s.reduceHome line op w rs).1.Canonical :=
  h.foldl _ fun _ _ h => h.reduceAt

theorem State.Canonical.commitReds {b : BufLine} {rs : List RedRec} (h : s.Canonical) : (s.commitReds core except b op w rs).1.Canonical := by
  have hm : (if s.otherPartial b.line op w then s.mergeLine b.line else s).Canonical := h.mergeLine.ite h
  unfold State.commitReds
  dsimp only
  generalize (if s.otherPartial b.line op w then s.mergeLine b.line else s) = u at hm
  split
  · split
    · exact hm.same
    · exact .placePart hm.invalidateLine.same
  · have hr := State.Canonical.reduceHome (line := b.line) (op := op) (w := w) (rs := rs)
      (((hm.keyLine (line := b.line) (slot := b.slot.toNat)).ite (c := isHbm (b.line * 128) = true) hm).invalidateLine (line := b.line) (uid := except)
        |>.same : (State.dropCopies noCore b.line _).Canonical)
    exact hr.touchL2.ite hr

theorem State.Canonical.applyLine {b : BufLine} (h : s.Canonical) : (s.applyLine core id b).Canonical := by
  unfold State.applyLine
  dsimp only
  split
  · exact h.postCheck
  · split
    · exact h.postOut.ite h.writeLine
    · split
      · exact h.foldl _ fun _ _ h => h.sendAtomic
      · split
        · exact h.commitReds.of_fst ‹_›
        · exact (h.commitReds.of_fst ‹_›).postCheck

/-! What the hub reads and writes in memory -/

theorem State.Canonical.physRead {slot : Option (BitVec 12)} (h : s.Canonical) : (s.physRead slot pa n).1.Canonical := by
  unfold State.physRead
  split
  · exact h.foldl _ fun _ _ h => h.readLine
  · exact h.same

theorem State.Canonical.physWrite {slot : Option Nat} {bytes : List Byte} (h : s.Canonical) : (s.physWrite slot pa bytes).Canonical := by
  refine State.Canonical.ite h.same (h.sendTo.ite (h.foldl _ fun t line h => ?_))
  have hk : State.Canonical (match slot with
      | some k => (t.mergeLine line).keyLine line k
      | none => t.mergeLine line) := by
    split
    · exact h.mergeLine.keyLine
    · exact h.mergeLine
  exact .touchL2 hk.putBytes.invalidateLine.same

theorem State.Canonical.passLines {ns : List Nat} (h : s.Canonical) : (s.passLines id ns).1.Canonical := by
  induction ns generalizing s with
  | nil => exact h
  | cons n ns ih =>
    unfold State.passLines
    split
    · exact ih (h.passLine.of_fst ‹_›)
    · exact h.passLine.of_fst ‹_›

theorem State.Canonical.passPhys (h : s.Canonical) : (s.passPhys id pa n).1.Canonical := by
  unfold State.passPhys
  split
  · exact h.passLines
  · exact h

theorem State.Canonical.readDesc {q : Nat} (h : s.Canonical) : (s.readDesc q).1.Canonical := by
  unfold State.readDesc
  exact h.physRead

theorem State.Canonical.knowQueue {q : Nat} (h : s.Canonical) : (s.knowQueue q).Canonical := h.ite h.same

theorem State.Canonical.refreshDesc {launch : Nat} (h : s.Canonical) : (s.refreshDesc launch).Canonical := by
  unfold State.refreshDesc
  split
  · exact h
  · split
    · exact (h.readDesc.of_fst ‹_›).same
    · exact h

theorem State.Canonical.freeFrames {launch crew : Nat} {p : FrameUse → Bool} (h : s.Canonical) : (s.freeFrames launch crew p).Canonical := h.same

theorem State.Canonical.writeFrame {launch crew : Nat} {use : FrameUse} {bytes : List Byte} (h : s.Canonical) :
    (s.writeFrame launch crew use bytes).1.Canonical := by
  unfold State.writeFrame
  dsimp only
  split
  · exact h.freeFrames
  · split
    · exact h.freeFrames
    · split
      · exact h.freeFrames.pokeVa.of_fst ‹_›
      · exact (h.freeFrames.pokeVa.of_fst ‹_›).same

end

section
variable {s : State} {i : Fin 16} {a b d : Fin 64} {addr : Dword} {core : Nat}

/-! Reducers -/

theorem State.Canonical.spillView {x : Nat × Fin 16} (h : s.Canonical) : (s.spillView x).1.Canonical := by
  unfold State.spillView
  split
  · exact h.writeFrame
  · exact h

theorem State.Canonical.evictViews {fuel : Nat} (h : s.Canonical) : (s.evictViews core fuel).1.Canonical := by
  induction fuel generalizing s with
  | zero => exact h
  | succ fuel ih =>
    unfold State.evictViews
    dsimp only
    split
    · exact h.same
    · split
      · exact h
      · split
        · exact h.spillView.of_fst ‹_›
        · exact ih (h.spillView.of_fst ‹_›).same

theorem State.Canonical.useView (h : s.Canonical) : (s.useView i).1.Canonical := by
  unfold State.useView
  dsimp only
  split
  · exact h
  · exact .evictViews h.same

theorem State.Canonical.withView {f : State → State} (h : s.Canonical) (hf : ∀ {t : State}, t.Canonical → (f t).Canonical) :
    (s.withView i addr f).Canonical := by
  unfold State.withView
  split
  · exact (hf h).useView.of_fst ‹_›
  · exact ((hf h).useView.of_fst ‹_›).raise

theorem State.Canonical.viewApp (h : s.Canonical) : (s.viewApp i a b).Canonical :=
  h.raise.ite (h.access fun h => h.withView fun h => h.same)

theorem State.Canonical.viewUsr (h : s.Canonical) : (s.viewUsr i a).Canonical := by
  unfold State.viewUsr
  split
  · exact h.withView fun h => h.same
  · exact h.same

theorem State.Canonical.execView {op : Fin 8} (h : s.Canonical) : Goes (execView i a b op s) := by
  refine ⟨_, rfl, h.checked fun h => State.Canonical.ite h.raise ?_⟩
  split
  · exact h.withView fun h => h.same
  · exact h.viewApp
  · exact h.viewUsr

theorem State.Canonical.execRdacc {q : Fin 8} {neg : Bool} (h : s.Canonical) : Goes (execRdacc i a b q neg s) :=
  ⟨_, rfl, h.checked fun h => State.Canonical.ite h.raise ((h.withView fun h => h.same).ite h.raise)⟩

theorem State.Canonical.execRdget {fs : Bool} (h : s.Canonical) : Goes (execRdget d i fs s) :=
  ⟨_, rfl, h.checked fun h => State.Canonical.ite h.raise (h.withView fun h => h.same)⟩

end
end Sys2Proof.Machine
end

section
/-! PROOF. Canonical memory is kept by tasks at issue and by the copy engine. -/
namespace Sys2Proof.Machine

section
variable {s : State} {c : Crew} {x a d : Fin 64}

/-! Task instructions at issue -/

theorem State.Canonical.liveRecord {pc : Addr} {off : Int} (h : s.Canonical) : (s.liveRecord c pc off).1.Canonical := by
  unfold State.liveRecord
  split
  · exact h
  · split
    · exact h.fetchWords.of_fst ‹_›
    · have h' := h.fetchWords.of_fst ‹_›
      dsimp only
      split
      · exact h'
      · exact h'.noteUse.noteUse

theorem State.Canonical.spawnIssue {uses : List (Fin 64)} {deep : Bool} {act : Option (BitVec 128) → Addr → State → State} (h : s.Canonical)
    (hact : ∀ {m at_} {t : State}, t.Canonical → (act m at_ t).Canonical) : (s.spawnIssue x uses deep act).Canonical := by
  unfold State.spawnIssue
  split
  · exact h.raise
  · refine h.raise.ite (h.checked fun h => ?_)
    split
    · exact (h.checkTarget.of_fst ‹_›).raise
    · have h' := h.checkTarget.of_fst ‹_›
      split
      · exact (h'.liveRecord.of_fst ‹_›).raise
      · have h' := h'.liveRecord.of_fst ‹_›
        exact h'.raise.ite (hact h').same

theorem State.Canonical.execSync (h : s.Canonical) : Goes (execSync s) := ⟨_, rfl, h.raise.ite (h.raise.ite h.same)⟩

theorem State.Canonical.execPrng {y : Fin 64} {j : Fin 4} {f32 fs : Bool} (h : s.Canonical) : Goes (execPrng x y j f32 fs s) :=
  ⟨_, rfl, h.checked fun h => h.logV fun h => h.deliver⟩

theorem State.Canonical.execPalloc {k : Fin 16} (h : s.Canonical) : Goes (execPalloc d a k s) :=
  ⟨_, rfl, h.checked fun h => State.Canonical.ite h.raise h.same⟩

end

section
variable {s : State} {a : Actor} {race : Bool} {va addr : Dword} {n id : Nat} {l : Loc} {code : FltCode} {org : Origin}

/-! Accesses of the engines -/

theorem State.Canonical.engineRead (h : s.Canonical) : (s.engineRead a race va n).1.Canonical := by
  unfold State.engineRead
  dsimp only
  split
  · exact h.locate.of_fst ‹_›
  · have h' := h.locate.of_fst ‹_›
    split
    · exact h'.takeBad
    · next t l _ _ _ =>
      have hr : State.Canonical (if l.region == .spad then t else { t.readLine (lineOf l.key) with stall := t.stall || t.linkWaits l }) :=
        h'.ite h'.readLine.same
      generalize (if l.region == .spad then t else { t.readLine (lineOf l.key) with stall := t.stall || t.linkWaits l }) = u at hr
      have hf : State.Canonical (if l.away then { u with free := u.free + 1 } else u) := State.Canonical.ite hr.same hr
      generalize (if l.away then { u with free := u.free + 1 } else u) = w at hf
      split
      · split
        · exact hf.raceCheckAll.of_fst ‹_›
        · exact hf.raceCheckAll.of_fst ‹_›
        · have hc := hf.raceCheckAll.of_fst ‹_›
          split
          · exact hc.raceRecordAll ‹_›
          · exact hc
      · exact hf

theorem State.Canonical.engineReads {k : Nat} (h : s.Canonical) : (s.engineReads a race va n k).1.Canonical := by
  induction k generalizing s va with
  | zero => exact h
  | succ k ih =>
    unfold State.engineReads
    split
    · exact h.engineRead.of_fst ‹_›
    · have h' := ih (va := va + BitVec.ofNat 64 n) (h.engineRead.of_fst ‹_›)
      split
      · exact h'.of_fst ‹_›
      · exact h'

theorem State.Canonical.enginePlace (h : s.Canonical) : (s.enginePlace a va n).1.Canonical := by
  unfold State.enginePlace
  split <;> exact h.locate.of_fst ‹_›

theorem State.Canonical.engineCommit {base : Nat} {cells : List (Nat × Byte)} (h : s.Canonical) :
    (s.engineCommit id a race l base va cells).1.Canonical := by
  unfold State.engineCommit
  dsimp only
  split
  · exact h.raceWrites.of_fst ‹_›
  · have h' := h.raceWrites.of_fst ‹_›
    split
    · exact h'
    · have h' := h'.raceRecordAll ‹_›
      split
      · exact h'.same
      · exact h'.writeLine

theorem State.Canonical.readIter {dst : Bool} {tags : Nat → Bool} (h : s.Canonical) : (s.readIter a dst tags va).1.Canonical := by
  unfold State.readIter
  split
  · exact h.engineReads.of_fst ‹_›
  · split <;> exact h.engineReads.of_fst ‹_›

theorem State.Canonical.placeAt (h : s.Canonical) : (s.placeAt a va n).1.Canonical := by
  unfold State.placeAt
  split
  · exact h.enginePlace.of_fst ‹_›
  · have h' := h.enginePlace.of_fst ‹_›
    split
    · exact h'
    · split <;> exact h'

/-- The elements of a command are placed and read with memory kept in canonical form. -/
structure Elems.Keeps (e : Elems) : Prop where
  place : ∀ {i} {t : State}, t.Canonical → (e.place i t).1.Canonical
  value : ∀ {i} {t : State}, t.Canonical → (e.value i t).1.Canonical

theorem Elems.Keeps.walk {e : Elems} (he : e.Keeps) {fuel i : Nat} {g : Option Gather} {sp : Option (Nat × Nat)} {fp : FpFlags} (h : s.Canonical) :
    (e.walk fuel i g sp fp s).1.Canonical := by
  induction fuel generalizing s i g sp fp with
  | zero => exact h
  | succ fuel ih =>
    unfold Elems.walk
    dsimp only
    split
    · exact (he.place h).of_fst ‹_›
    · have h' := (he.place h).of_fst ‹_›
      split
      · exact h'
      · split
        · exact (he.value h').of_fst ‹_›
        · exact ih ((he.value h').of_fst ‹_›)
    · have h' := (he.place h).of_fst ‹_›
      split
      · exact h'
      · split
        · exact (he.value h').of_fst ‹_›
        · have h' := (he.value h').of_fst ‹_›
          split
          · exact .engineStore (h'.foldl _ fun _ _ h => h.putBytes.markDirty)
          · exact ih (h'.foldl _ fun _ _ h => h.putBytes.markDirty)

theorem State.Canonical.finishCommand {uid : Nat} {ws : List RegWrite} (h : s.Canonical) : (s.finishCommand uid id ws).Canonical := h.mapCrew

theorem State.Canonical.engineFault (h : s.Canonical) : (s.engineFault a org code addr).Canonical := by
  unfold State.engineFault
  split
  · exact h
  · exact (h.onCrew fun h => h.rollback.deliverFault).ite h.postFault

end

section
variable {s : State} {a : Actor} {core k n c : Nat} {code : FltCode} {addr : Dword} {op : BrgOp} {j : BrgCmd} {d : Iter} {src : Option Iter}
  {x y tag : Fin 64} {fs : Bool}

/-! The copy engine -/

theorem State.Canonical.copyIssue {fill : Bool} {w : Fin 32} (h : s.Canonical) : (s.copyIssue fill x y tag w fs).Canonical :=
  h.checked fun h => State.Canonical.ite h.same h.raise

theorem State.Canonical.tagIssue {any : Bool} {x : Option (Fin 64)} {f : Dword → BrgOp} (h : s.Canonical) : (s.tagIssue any x y fs f).Canonical :=
  h.checked fun h => State.Canonical.ite h.raise h.same

theorem State.Canonical.copyRecords (h : s.Canonical) : (s.copyRecords a op).1.Canonical := by
  unfold State.copyRecords
  split
  · exact h.readIter.of_fst ‹_›
  · have h' := h.readIter.of_fst ‹_›
    split
    · split
      · exact h'.readIter.of_fst ‹_›
      · dsimp only
        split <;> exact h'.readIter.of_fst ‹_›
    · exact h'

theorem State.Canonical.copyChecks (h : s.Canonical) : (s.copyChecks core a op).1.Canonical := by
  unfold State.copyChecks
  split
  · exact h.copyRecords.of_fst ‹_›
  · split <;> exact h.copyRecords.of_fst ‹_›

theorem State.Canonical.copyFault (h : s.Canonical) : (s.copyFault j code addr).Canonical := (h.finishCommand.ite h).engineFault

theorem State.Canonical.enterCopy (h : s.Canonical) : (s.enterCopy core j).Canonical := by
  unfold State.enterCopy
  split
  · exact (h.copyChecks.of_fst ‹_›).same
  · exact .copyFault (h.copyChecks.of_fst ‹_›).same

theorem State.Canonical.enterBarge {org : Origin} {id : Nat} {c : Crew} (h : s.Canonical) : (s.enterBarge org id op c).Canonical := by
  refine h.enterCopy.ite (State.Canonical.ite h.same (.finishCommand ?_))
  split
  · exact h.same
  · exact h

theorem State.Canonical.suspendJob {i : Nat} (h : s.Canonical) : (s.suspendJob core k i code addr).Canonical := by
  unfold State.suspendJob
  split
  · exact h
  · exact .copyFault (.ite h.same h.same)

theorem State.Canonical.copySource {i : Nat} (h : s.Canonical) : (s.copySource a op d src i).1.Canonical := by
  unfold State.copySource
  dsimp only
  split
  · exact h
  · exact h.engineRead
  · exact h

theorem BrgCmd.elems_keeps : (j.elems d src).Keeps where
  place h := by
    unfold BrgCmd.elems
    dsimp only
    split
    · split <;> exact h
    · exact h.placeAt
  value h := by
    unfold BrgCmd.elems
    dsimp only
    split <;> exact h.copySource.of_fst ‹_›

theorem State.Canonical.settleCore (h : s.Canonical) : (s.settleCore core).Canonical := State.Canonical.foldl h.same _ fun _ _ h => h.addBytes

theorem State.Canonical.settleOwed (h : s.Canonical) : s.settleOwed.Canonical := h.foldl _ fun _ _ h => h.settleCore

theorem State.Canonical.copyCount (h : s.Canonical) : (s.copyCount core j n).Canonical := by
  unfold State.copyCount
  split
  · exact h.ite (.settleCore h.same)
  · exact h

theorem State.Canonical.waitAs {t : State} (h : s.Canonical) : (s.waitAs t).Canonical := h.same

theorem State.Canonical.copyLine (h : s.Canonical) : (s.copyLine core k).Canonical := by
  unfold State.copyLine
  split
  · exact h
  · next j _ =>
    split
    · next i d src _ _ =>
      have hw : ((j.elems d src).walk (d.count - i) i none none 0 s).1.Canonical := BrgCmd.elems_keeps.walk h
      have done (p : Pass) (n : Nat) {t : State} (h : t.Canonical) : State.Canonical (match p.halt with
          | .fault c x => (t.copyCount core j n).suspendJob core k p.next c x
          | _ => (t.copyCount core j n).setJob core k { j with st := .running p.next }) := by
        split
        · exact h.copyCount.suspendJob
        · exact h.copyCount.same
      refine State.Canonical.ite h ?_
      dsimp only
      split
      · exact done _ _ hw
      · split
        · exact h.waitAs
        · have h' := hw.passStore.of_fst ‹_›
          split
          · exact (h'.engineCommit.of_fst ‹_›).suspendJob
          · exact done _ _ (h'.engineCommit.of_fst ‹_›)
    · exact h

theorem State.Canonical.bargeEntry (h : s.Canonical) : (s.bargeEntry c).Canonical := by
  unfold State.bargeEntry
  split
  · exact h
  · split
    · exact h.enterBarge.popAct.ite h
    · exact h

theorem State.Canonical.execCopyStart (h : s.Canonical) : Goes (execCopyStart core s) := by
  refine ⟨_, rfl, ?_⟩
  dsimp only
  split
  · exact h
  · exact State.Canonical.ite h.same h

theorem State.Canonical.execCopyCompletion (h : s.Canonical) : Goes (execCopyCompletion core k s) := by
  refine ⟨_, rfl, ?_⟩
  split
  · exact h
  · split
    · exact State.Canonical.ite (.finishCommand h.same) h
    · exact h

theorem State.Canonical.execTagWaitCompletion (h : s.Canonical) : Goes (execTagWaitCompletion core k s) := by
  refine ⟨_, rfl, ?_⟩
  split
  · exact h
  · exact State.Canonical.ite (.finishCommand h.same) h

end
end Sys2Proof.Machine
end

section
/-! PROOF. Canonical memory is kept by the tensor engine. -/
namespace Sys2Proof.Machine

section
variable {s : State} {a : Actor} {core k n i : Nat} {va addr : Dword} {code : FltCode} {x y : Fin 8} {sp : Dword} {sh : Shape} {c : TenCmd}
  {fs : Bool}

/-! Tiles and records of the tensor engine -/

theorem State.Canonical.tenIssue {uses : List (Fin 64)} {code : Nat} {op : TenOp} {bad : Option FltCode} (h : s.Canonical) :
    (s.tenIssue uses fs code op bad).Canonical := by
  refine h.checked fun h => ?_
  split
  · exact h.raise
  · exact h.same

theorem State.Canonical.tilePut {f64 : Bool} {i j v : Nat} (h : s.Canonical) : (s.tilePut core f64 x i j v).Canonical := h.putBytes

theorem State.Canonical.useTiles {uid rows : Nat} (h : s.Canonical) : (s.useTiles uid x rows).Canonical := h.mapCrew

theorem State.Canonical.zeroTiles (h : s.Canonical) : (s.zeroTiles core x n).Canonical := h.filter _

theorem State.Canonical.readShape {tags : Fin 16 → Bool} (h : s.Canonical) : (s.readShape a tags va).1.Canonical := by
  unfold State.readShape
  split
  · exact h
  · split
    · exact h.engineRead.of_fst ‹_›
    · split <;> exact h.engineRead.of_fst ‹_›

theorem State.Canonical.sweepRecords {d x : Dword} {y : Option Dword} (h : s.Canonical) : (s.sweepRecords a d x y).1.Canonical := by
  unfold State.sweepRecords
  split
  · exact h.readIter.of_fst ‹_›
  · have h' := h.readIter.of_fst ‹_›
    split
    · exact h'.readIter.of_fst ‹_›
    · have h' := h'.readIter.of_fst ‹_›
      dsimp only
      split
      · split <;> exact h'
      · split
        · exact h'.readIter.of_fst ‹_›
        · split <;> exact h'.readIter.of_fst ‹_›

theorem State.Canonical.mmaRecords {vb : Dword} {rows : Bool} {m : BitVec 4} (h : s.Canonical) :
    (s.mmaRecords core a x va vb rows m).1.Canonical := by
  unfold State.mmaRecords
  split
  · exact h.readShape.of_fst ‹_›
  · have h' := h.readShape.of_fst ‹_›
    split
    · exact h'.readShape.of_fst ‹_›
    · split <;> exact h'.readShape.of_fst ‹_›

theorem State.Canonical.tileRecord (h : s.Canonical) : (s.tileRecord a x va).1.Canonical := by
  unfold State.tileRecord
  split
  · exact h.readShape.of_fst ‹_›
  · dsimp only
    split <;> exact h.readShape.of_fst ‹_›

theorem State.Canonical.tenRecords {op : TenOp} (h : s.Canonical) : (s.tenRecords core a op).1.Canonical := by
  unfold State.tenRecords
  split
  · exact h.tileRecord
  · exact h.tileRecord
  · exact h.mmaRecords
  · exact h.sweepRecords
  · dsimp only
    split <;> exact h.engineReads.of_fst ‹_›
  · split
    · exact h
    · split <;> exact h.enginePlace.of_fst ‹_›
  · exact h

/-! Products, reductions, factorization and solution -/

theorem State.Canonical.readBlock {i0 j0 cols : Nat} {is : List Nat} (h : s.Canonical) : (s.readBlock a sh i0 j0 cols is).1.Canonical := by
  induction is generalizing s with
  | nil => exact h
  | cons i is ih =>
    have row (p : State × Reply (List Nat)) (j : Nat) (h : p.1.Canonical) : (match p with
        | (s, .ok l) => match s.engineRead a true (sh.addr (i0 + i) (j0 + j)) (tagWidth sh.tag / 8) with
          | (s, .ok b) => (s, Reply.ok (l ++ [leNat b]))
          | (s, .fault c v) => (s, Reply.fault c v)
        | (s, .fault c v) => (s, Reply.fault c v)).1.Canonical := by
      split
      · split <;> exact State.Canonical.of_fst (State.Canonical.engineRead h) ‹_›
      · exact h
    unfold State.readBlock
    dsimp only
    split
    · exact State.Canonical.of_fst (State.Canonical.foldl_fst (p := (s, Reply.ok [])) h _ row) ‹_›
    · have h' := State.Canonical.of_fst (State.Canonical.foldl_fst (p := (s, Reply.ok [])) h _ row) ‹_›
      split
      · exact (ih h').of_fst ‹_›
      · exact ih h'

theorem State.Canonical.readDeltas (h : s.Canonical) : (s.readDeltas a sh k n).1.Canonical := by
  unfold State.readDeltas
  split
  · exact h
  · refine State.Canonical.foldl_fst (p := (s, Reply.ok [])) h _ fun p g h => ?_
    split
    · dsimp only
      split <;> exact State.Canonical.of_fst (State.Canonical.engineRead h) ‹_›
    · exact h

theorem State.Canonical.readAllDeltas {xs : List Nat} (h : s.Canonical) : (s.readAllDeltas a sh k xs).1.Canonical := by
  induction xs generalizing s with
  | nil => exact h
  | cons x xs ih =>
    unfold State.readAllDeltas
    split
    · exact h.readDeltas.of_fst ‹_›
    · have h' := ih (h.readDeltas.of_fst ‹_›)
      split
      · exact h'.of_fst ‹_›
      · exact h'

theorem State.Canonical.perform_mma {fresh rows : Bool} {m : BitVec 4} (h : s.Canonical) : (s.perform_mma core c x fresh rows m).1.Canonical := by
  unfold State.perform_mma
  split
  · dsimp only
    split
    · exact h
    · split
      · exact h.readBlock.of_fst ‹_›
      · have h' := h.readBlock.of_fst ‹_›
        split
        · exact h'.readBlock.of_fst ‹_›
        · have h' := h'.readBlock.of_fst ‹_›
          split
          · exact h'.readAllDeltas.of_fst ‹_›
          · have h' := h'.readAllDeltas.of_fst ‹_›
            split
            · exact h'.readAllDeltas.of_fst ‹_›
            · exact (h'.readAllDeltas.of_fst ‹_›).foldl _ fun _ _ h => h.tilePut
  · exact h

theorem State.Canonical.perform_red {op : Fin 4} (h : s.Canonical) : (s.perform_red core x y op sp).1.Canonical :=
  State.Canonical.foldl_fst h _ fun _ _ h => h.tilePut

theorem State.Canonical.perform_mov {t : Bool} (h : s.Canonical) : (s.perform_mov core x y sp t).Canonical :=
  h.foldl _ fun _ _ h => h.tilePut.ite h.tilePut

theorem State.Canonical.perform_scl {factor : Dword} {col scalar : Bool} {arr : List Byte} (h : s.Canonical) :
    (s.perform_scl core x factor sp col scalar arr).1.Canonical :=
  State.Canonical.foldl_fst h _ fun _ _ h => State.Canonical.foldl_fst h _ fun _ _ h => h.tilePut

theorem State.Canonical.tileFnma {f64 : Bool} {i k : Nat} {u v : FVal} (h : s.Canonical) : (s.tileFnma core f64 x i k u v).1.Canonical :=
  h.tilePut

theorem State.Canonical.factColumn {f64 ldlt : Bool} {tau delta j : Nat} {z : Fact} (h : z.s.Canonical) :
    (Machine.factColumn core x n f64 ldlt tau delta j z).s.Canonical := by
  unfold Machine.factColumn
  dsimp only
  refine canonical_foldl Fact.s (canonical_foldl Fact.s ?_ _ fun _ _ h => h.tilePut) _ fun _ _ h =>
    canonical_foldl Fact.s h _ fun _ _ h => h.tileFnma
  exact h.tilePut

theorem State.Canonical.perform_fact {tau delta : Dword} (h : s.Canonical) : (s.perform_fact core x sp tau delta).s.Canonical :=
  canonical_foldl Fact.s h _ fun _ _ h => h.factColumn

theorem State.Canonical.trsRow {p : Span} {trans : Bool} {c i : Nat} {ks : List Nat} {z : State × FpFlags} (h : z.1.Canonical) :
    (Machine.trsRow core x y p trans c i ks z).1.Canonical := by
  have h' := State.Canonical.foldl_fst h ks (f := fun z k =>
      let l := if trans then z.1.tileVal core p.f64 x k i else z.1.tileVal core p.f64 x i k
      let (s, f) := z.1.tileFnma core p.f64 y i c l (z.1.tileVal core p.f64 y k c)
      (s, z.2 ||| f)) fun _ _ h => h.tileFnma
  unfold Machine.trsRow
  dsimp only
  split
  · exact h'
  · exact h'.tilePut

theorem State.Canonical.perform_trs (h : s.Canonical) : (s.perform_trs core x y sp).1.Canonical := by
  refine State.Canonical.foldl_fst h _ fun _ _ h => ?_
  split <;> exact State.Canonical.foldl_fst h _ fun _ _ h => h.trsRow

/-! Walked commands -/

theorem TenCmd.ldElems_keeps : (c.ldElems core x sh).Keeps where
  place h := h
  value h := by
    unfold TenCmd.ldElems
    dsimp only
    split <;> exact h.engineRead.of_fst ‹_›

theorem TenCmd.stElems_keeps {sat : Bool} : (c.stElems core x sat sh).Keeps where
  place h := h.placeAt
  value h := h

theorem TenCmd.sweepElems_keeps {word : Dword} {d u : Iter} {v : Option Iter} : (c.sweepElems word d u v).Keeps where
  place h := h.placeAt
  value {i t} h := by
    have rd (r : Iter) {t : State} (h : t.Canonical) :
        (match t.engineRead c.actor true (r.addr i) (tagWidth (fin 16 r.tag) / 8) with
          | (s, .ok bs) => (s, Reply.ok (fdecode (fin 16 r.tag) 0 (leNat bs)))
          | (s, .fault f v) => (s, Reply.fault f v)).1.Canonical := by
      split <;> exact h.engineRead.of_fst ‹_›
    have second {p : State × Reply FVal} (h : p.1.Canonical) :
        (match p with
          | (s, .ok y) => (s, Reply.ok (some y))
          | (s, .fault f v) => (s, Reply.fault f v)).1.Canonical := by
      split <;> exact h
    unfold TenCmd.sweepElems
    dsimp only
    split
    · exact (rd u h).of_fst ‹_›
    · have h' := (rd u h).of_fst ‹_›
      cases v with
      | none => exact h'
      | some v =>
        dsimp only
        split <;> exact (second (rd v h')).of_fst ‹_›

theorem TenCmd.elems_keeps {e : Elems} (he : c.elems core = some (e, n)) : e.Keeps := by
  unfold TenCmd.elems at he
  split at he <;> cases he
  · exact c.ldElems_keeps
  · exact c.stElems_keeps
  · exact c.sweepElems_keeps
  · exact c.sweepElems_keeps

end

section
variable {s : State} {core k n i : Nat} {c : TenCmd} {code : FltCode} {addr sp : Dword} {x : Fin 8}

/-! The tensor engine's steps -/

theorem State.Canonical.tenFail {keep : Bool} (h : s.Canonical) : (s.tenFail core c i keep code addr).Canonical := by
  unfold State.tenFail
  split
  · exact .engineFault (.finishCommand h.same)
  · exact .engineFault h.same

theorem State.Canonical.setTen (h : s.Canonical) : (s.setTen core c).Canonical := h.same

theorem State.Canonical.nameTiles (h : s.Canonical) : (s.nameTiles core c).Canonical := h.foldl _ fun _ _ h => h.useTiles

theorem State.Canonical.tenRead {k : TenCmd → State → State} (h : s.Canonical) (hk : ∀ {c} {t : State}, t.Canonical → (k c t).Canonical) :
    (s.tenRead core c k).Canonical := by
  unfold State.tenRead
  split
  · exact (h.tenRecords.of_fst ‹_›).nameTiles.tenFail
  · exact hk (.nameTiles (h.tenRecords.of_fst ‹_›).same)

theorem State.Canonical.enterTen {org : Origin} {id code : Nat} {op : TenOp} {ctr key : Dword} {c : Crew} (h : s.Canonical) :
    (s.enterTen org id op code ctr key c).Canonical := .tenRead h.same fun h => h

theorem State.Canonical.tenEntry (h : s.Canonical) : (s.tenEntry n).Canonical := by
  unfold State.tenEntry
  split
  · exact h
  · split
    · exact h.enterTen.popAct.ite h
    · exact h

theorem State.Canonical.latchPair {raft : Nat} (h : s.Canonical) : (s.latchPair raft).Canonical := by
  unfold State.latchPair
  dsimp only
  split
  · exact h
  · exact h.foldl _ fun _ _ h => State.Canonical.ite h.same h.tenFail

theorem State.Canonical.tenWalk (h : s.Canonical) : (s.tenWalk core c i).Canonical := by
  unfold State.tenWalk
  split
  · exact h.same
  · next e n he =>
    have hw : (e.walk (n - i) i none none 0 s).1.Canonical := (TenCmd.elems_keeps he).walk h
    have done (p : Pass) {t : State} (h : t.Canonical) : State.Canonical (
        let c := { c with fp := c.fp ||| p.fp }
        match p.halt with
        | .fault f v => t.tenFail core c p.next true f v
        | _ => t.setTen core { c with st := if n ≤ p.next then .done else .running p.next }) := by
      dsimp only
      split
      · exact h.tenFail
      · exact h.same
    refine State.Canonical.ite h.same ?_
    dsimp only
    split
    · exact done _ hw
    · split
      · exact h.waitAs
      · have h' := hw.passStore.of_fst ‹_›
        split
        · exact (h'.engineCommit.of_fst ‹_›).tenFail
        · exact done _ (h'.engineCommit.of_fst ‹_›)

theorem State.Canonical.tenFact {tau delta status : Dword} (h : s.Canonical) : (s.tenFact core c x sp tau delta status).Canonical := by
  unfold State.tenFact
  dsimp only
  split
  · exact h.perform_fact.same
  · split
    · exact (h.enginePlace.of_fst ‹_›).tenFail
    · have h' := h.enginePlace.of_fst ‹_›
      split
      · exact h.waitAs
      · exact (h'.passStore.of_fst ‹_›).perform_fact.engineStore.same

theorem State.Canonical.tenPerform (h : s.Canonical) : (s.tenPerform core c).Canonical := by
  unfold State.tenPerform
  dsimp only
  split
  · exact h.zeroTiles.setTen
  · exact h.tenWalk
  · exact h.tenWalk
  · exact h.tenWalk
  · split
    · exact (h.perform_mma.of_fst ‹_›).setTen
    · exact (h.perform_mma.of_fst ‹_›).tenFail
  · refine State.Canonical.ite h.same (h.foldl _ fun _ _ h => ?_)
    split
    · exact h.same
    · exact h
  · exact h.perform_red.setTen
  · exact h.tenFact
  · exact h.perform_trs.setTen
  · exact h.perform_mov.setTen
  · exact h.perform_scl.setTen

theorem State.Canonical.mmaGang (h : s.Canonical) : (s.mmaGang core c).Canonical := by
  refine h.foldl _ fun _ _ h => ?_
  split
  · exact h.tenPerform
  · exact h

theorem State.Canonical.tenPrepare {k : TenCmd → State → State} (h : s.Canonical) (hk : ∀ {c} {t : State}, t.Canonical → (k c t).Canonical) :
    (s.tenPrepare core c k).Canonical := (h.tenRead hk).ite (hk h)

theorem State.Canonical.tenDispatch (h : s.Canonical) : (s.tenDispatch core).Canonical := by
  unfold State.tenDispatch
  dsimp only
  split
  · exact h.tenWalk
  · split
    · exact h
    · refine h.tenPrepare fun h => State.Canonical.ite (h.tenFail.ite h.same) ?_
      split
      · exact h.tenPerform.ite h.mmaGang
      · exact h.tenPerform

theorem State.Canonical.tenFinish (h : s.Canonical) : (s.tenFinish core c).Canonical := .mapCrew (.finishCommand h.same)

theorem State.Canonical.tenComplete (h : s.Canonical) : (s.tenComplete core).Canonical := by
  unfold State.tenComplete
  split
  · exact h
  · split
    · refine h.tenFinish.ite (h.foldl _ fun _ _ h => ?_)
      split
      · exact h.tenFinish
      · exact h
    · exact h.tenFinish

end
end Sys2Proof.Machine
end

section
/-! PROOF. Canonical memory is kept by the placement of crews. -/
namespace Sys2Proof.Machine

section
variable {s t : State} {uid core slot base size n lo parent launch fuel : Nat} {c p : Crew} {q : SpawnReq} {o : ObjId} {x : RangeRec}

/-! Where crews stand -/

theorem State.Canonical.stamp (h : s.Canonical) : (s.stamp uid).Canonical := .mapCrew h.same

theorem State.Canonical.clearKeys (h : s.Canonical) : (s.clearKeys lo n).Canonical := h.filter _

theorem State.Canonical.writeDeque (h : s.Canonical) : (s.writeDeque core).Canonical := h.foldl _ fun _ _ h => h.pokeVa

theorem State.Canonical.storeBlock (h : s.Canonical) : (s.storeBlock uid).Canonical := by
  unfold State.storeBlock
  split
  · exact h
  · dsimp only
    split
    · exact h.same
    · exact .writeFrame h.same

theorem State.Canonical.vacate {place : Place} (h : s.Canonical) : (s.vacate uid place).Canonical := by
  unfold State.vacate
  split
  · exact h
  · exact h.mapCrew

theorem State.Canonical.carryLive (h : s.Canonical) : (s.carryLive uid core).Canonical := by
  unfold State.carryLive
  split
  · exact h
  · split
    · exact h
    · split <;> exact (h.fetchWords.of_fst ‹_›).mapCrew

theorem State.Canonical.writeCrew (h : s.Canonical) : (s.writeCrew uid core).Canonical := by
  unfold State.writeCrew
  split
  · exact h
  · split
    · exact h
    · exact h.writeFrame.writeDeque

theorem State.Canonical.spillCrew (h : s.Canonical) : (s.spillCrew uid core).Canonical := h.vacate.carryLive.writeCrew

theorem State.Canonical.fillKeys (h : s.Canonical) : (s.fillKeys lo n).Canonical := h.clearKeys.same

theorem State.Canonical.occupy (h : s.Canonical) : (s.occupy uid core slot base size).Canonical := by
  unfold State.occupy
  split
  · exact h
  · exact .mapCrew (h.fillKeys.foldl _ fun _ _ h => h.putBytes).freeFrames

theorem State.Canonical.placeNow (h : s.Canonical) (e : s.placeNow uid core = some t) : t.Canonical := by
  unfold State.placeNow at e
  split at e
  · obtain ⟨base, -, e⟩ := Option.map_eq_some_iff.1 e
    cases e
    exact h.occupy
  · cases e

theorem State.Canonical.tryPlace (h : s.Canonical) : (s.tryPlace uid core parent fuel).Canonical := by
  induction fuel generalizing s with
  | zero => exact h
  | succ fuel ih =>
    unfold State.tryPlace
    split
    · exact h.placeNow ‹_›
    · split
      · exact ih h.spillCrew
      · split
        · exact (ih h.spillCrew).ite h
        · exact h

theorem State.Canonical.placeOn (h : s.Canonical) : (s.placeOn uid core parent).Canonical := h.vacate.tryPlace

theorem State.Canonical.resumeIn (h : s.Canonical) : (s.resumeIn uid).Canonical := h.mapCrew.ite h

theorem State.Canonical.resumeOn (h : s.Canonical) : (s.resumeOn uid core).Canonical := by
  unfold State.resumeOn
  split
  · exact h
  · exact (h.ite h.placeOn).resumeIn

theorem State.Canonical.removeCrew (h : s.Canonical) : (s.removeCrew uid).Canonical := by
  unfold State.removeCrew
  dsimp only
  split
  · exact State.Canonical.ite h.same h.same
  · exact State.Canonical.ite h.same h.same

theorem State.Canonical.pushDeque (h : s.Canonical) : (s.pushDeque uid core).Canonical := State.Canonical.ite h.same (.writeDeque h.same)

theorem State.Canonical.dropEntry (h : s.Canonical) : (s.dropEntry uid core).Canonical := .writeDeque h.same

theorem State.Canonical.popDeque (h : s.Canonical) : (s.popDeque core).Canonical := by
  unfold State.popDeque
  split
  · exact h.dropEntry.resumeOn
  · exact h

/-! New crews and their slices -/

theorem State.Canonical.addChild {kind : TaskKind} {leaf : Option Nat} (h : s.Canonical) : (s.addChild p q kind core leaf).1.Canonical :=
  .mapCrew h.same

theorem State.Canonical.park {live : Option (BitVec 128)} {at_ : Addr} (h : s.Canonical) : (s.park uid core live at_).Canonical :=
  h.mapCrew.stamp.storeBlock.pushDeque

theorem State.Canonical.spawnStep6 {die : Option Nat} (h : s.Canonical) : (s.spawnStep6 uid q die).Canonical := by
  unfold State.spawnStep6
  split
  · exact h
  · dsimp only
    split
    · exact .mapCrew h.addChild.same
    · exact h.addChild.park.placeOn

theorem State.Canonical.slicesWait (h : s.Canonical) : (s.slicesWait uid).Canonical := by
  unfold State.slicesWait
  split
  · exact h
  · exact h.ite (.mapCrew h.same)

theorem State.Canonical.startTask (h : s.Canonical) (e : s.startTask uid = some t) : t.Canonical := by
  unfold State.startTask at e
  split at e
  · cases e
  · split at e
    · cases e
    · split at e
      · cases e
        exact h.mapCrew
      · obtain ⟨g, -, e⟩ := Option.map_eq_some_iff.1 e
        cases e
        exact .mapCrew h.same

/-- What a partial operation answers, or else another state. -/
theorem State.Canonical.getD {r : Option State} (hr : ∀ {u}, r = some u → u.Canonical) (h : s.Canonical) : (r.getD s).Canonical := by
  cases r with
  | none => exact h
  | some u => exact hr rfl

theorem State.Canonical.taskStart (h : s.Canonical) : (s.taskStart uid).Canonical := by
  unfold State.taskStart
  split
  · exact h
  · split
    · exact h
    · next l _ =>
      have h' : State.Canonical (if s.poolShort l.uid 1 then s.refreshDesc l.uid else s) := h.refreshDesc.ite h
      exact h.ite (.getD h'.startTask h'.slicesWait)

theorem State.Canonical.placeAll {l : List (Nat × Nat)} (h : s.Canonical) : (s.placeAll l).Canonical :=
  (h.foldl _ fun _ _ h => h.tryPlace).ite h

theorem State.Canonical.windowPlacement (h : s.Canonical) : (s.windowPlacement uid).Canonical := by
  unfold State.windowPlacement
  split
  · exact h
  · split
    · exact h.ite (h.placeAll.ite (h.ite (h.tryPlace.resumeIn.ite h.tryPlace)))
    · exact h

/-! Range frames and gangs -/

theorem State.Canonical.moveRange (h : s.Canonical) : (s.moveRange uid core).Canonical := h.mapCrew.placeOn.resumeIn

theorem State.Canonical.splitRange (h : s.Canonical) : (s.splitRange c x).Canonical :=
  .ite (.placeOn (.moveRange (.mapCrew h.addChild))) (.ite (.placeOn (.mapCrew h.addChild)) (.placeOn (.park (.mapCrew h.addChild))))

theorem State.Canonical.rangeStep (h : s.Canonical) : (s.rangeStep c x).Canonical :=
  h.ite (h.mapCrew.ite (h.mapCrew.ite h.splitRange))

theorem State.Canonical.addMember {raft : Bool} (h : s.Canonical) : (s.addMember p q raft o n).1.Canonical := by
  unfold State.addMember
  dsimp only
  split
  · exact h
  · exact h.addChild.mapCrew

theorem State.Canonical.addMembers {raft : Bool} {is : List Nat} (h : s.Canonical) : (Machine.addMembers p q raft o is s).1.Canonical := by
  induction is generalizing s with
  | nil => exact h
  | cons i is ih => exact ih h.addMember

theorem State.Canonical.startGang {us : List Nat} (h : s.Canonical) (e : Machine.startGang o us s = some t) : t.Canonical := by
  induction us generalizing s with
  | nil =>
    cases e
    exact h
  | cons u us ih =>
    obtain ⟨v, hv, e⟩ := Option.bind_eq_some_iff.1 e
    exact ih (h.startTask hv).enrollIn.mapCrew e

theorem State.Canonical.startMembers {us : List Nat} (h : s.Canonical) (e : s.startMembers launch parent o us = some t) : t.Canonical := by
  have hp : (us.foldl (fun s u => match s.crew? u with
      | some c => s.tryPlace u c.core parent placeFuel
      | none => s) s).Canonical := by
    refine h.foldl _ fun _ _ h => ?_
    split
    · exact h.tryPlace
    · exact h
  unfold State.startMembers at e
  split at e
  · cases e
  · dsimp only at e
    split at e
    · exact hp.claim.startGang e
    · cases e

/-- R286: a launch whose slices run short reads its descriptor again, and waits. -/
theorem State.Canonical.slicesFor (h : s.Canonical) : State.Canonical (
    let s := if s.poolShort launch n then s.refreshDesc launch else s
    if s.poolShort launch n then s.slicesWait uid else s) := by
  have h' : State.Canonical (if s.poolShort launch n then s.refreshDesc launch else s) := h.refreshDesc.ite h
  exact h'.slicesWait.ite h'

theorem State.Canonical.gangStart (h : s.Canonical) : (s.gangStart uid).Canonical := by
  unfold State.gangStart
  split
  · exact h
  · split
    · exact .getD (State.Canonical.startMembers (.park (.mapCrew (.addMembers h.slicesFor)))) h.slicesFor
    · dsimp only
      split
      · exact h.ite (.getD h.slicesFor.startMembers h.slicesFor)
      · exact h
    · exact h

/-! Sync blocks, ends of tasks, stealing -/

theorem State.Canonical.closeBlock {phase : Phase} (h : s.Canonical) : (s.closeBlock uid phase).Canonical := by
  unfold State.closeBlock
  split
  · exact h
  · exact .storeBlock (.stamp (.mapCrew (h.foldl _ fun _ _ h => .mapCrew h.same)))

theorem State.Canonical.frameReady (h : s.Canonical) : (s.frameReady uid).Canonical := by
  unfold State.frameReady
  split
  · exact h
  · refine h.ite ?_
    split
    · split
      · exact h.mapCrew.resumeOn
      · exact h.resumeOn.mapCrew.ite h.resumeOn
      · exact h
    · exact h.mapCrew.resumeOn.ite h
    · exact h

theorem State.Canonical.dropHeld (h : s.Canonical) : (s.dropHeld c).Canonical := by
  unfold State.dropHeld
  split
  · exact (h.foldl _ fun _ _ h => h.removeCrew).ite h
  · exact h

theorem State.Canonical.finishTask {v : Views} (h : s.Canonical) : (s.finishTask c v).Canonical := by
  unfold State.finishTask
  extract_lets core fp s1 s2 s3 s4
  have h2 : s2.Canonical := by
    unfold s2
    split
    · exact h.leaveObjects.same
    · exact h.leaveObjects
  have h3 : s3.Canonical := by
    unfold s3
    split
    · exact h2.mapCrew
    · exact h2.same
  have h4 : s4.Canonical := h3.dropHeld.removeCrew
  split
  · exact h4.dropEntry.resumeOn.ite h4.dropEntry.resumeOn.popDeque
  · exact h4.ite h4.popDeque

theorem State.Canonical.taskEnd (h : s.Canonical) : (s.taskEnd uid).Canonical := by
  unfold State.taskEnd
  split
  · exact h
  · next c _ =>
    have h' : State.Canonical (if c.over then s.closeBlock uid .ending else s) := h.closeBlock.ite h
    refine h.ite ?_
    dsimp only
    split
    · exact h'
    · split
      · exact h'.finishTask
      · exact h'

theorem State.Canonical.steal (h : s.Canonical) : (s.steal core).Canonical := by
  refine h.ite (h.popDeque.ite (h.ite (h.ite ?_)))
  split
  · exact h
  · split
    · exact h
    · have h' := h.vacate.carryLive.mapCrew.placeNow ‹_›
      exact .resumeIn (State.Canonical.dropEntry (s := State.ferrySeen _ _ _) h'.same).same

theorem State.Canonical.hintTake (h : s.Canonical) : (s.hintTake core).Canonical := by
  refine h.ite ?_
  dsimp only
  split
  · exact h
  · exact .placeOn h.same

end
end Sys2Proof.Machine
end

section
/-! PROOF. Canonical memory is kept by commit, the frontier and the frame of a word. -/
namespace Sys2Proof.Machine

section
variable {s t : State} {uid k n fuel : Nat} {c : Crew} {org : Origin} {l : Loc} {code : FltCode} {addr : Dword}

/-! Grants and commit points -/

theorem State.Canonical.faultCrew (h : s.Canonical) : (s.faultCrew uid code addr).Canonical := h.onCrew fun h => h.rollback.deliverFault

theorem State.Canonical.raceAtGrant {lines : List Nat} {last : Bool} (h : s.Canonical) : (s.raceAtGrant c lines last).1.Canonical := h.raceWrites

theorem State.Canonical.raceCommit {ts : List Tracked} (h : s.Canonical) (e : s.raceCommit c ts = some t) : t.Canonical := by
  induction ts generalizing s with
  | nil =>
    cases e
    exact h
  | cons x ts ih =>
    obtain ⟨u, hu, e⟩ := Option.bind_eq_some_iff.1 e
    exact ih (h.raceRecord hu) e

theorem State.Canonical.commitPoint {phase : Phase} (h : s.Canonical) : (s.commitPoint uid phase).Canonical := by
  unfold State.commitPoint
  split
  · exact h
  · split
    · exact h.faultCrew
    · exact .foldl (.mapCrew (h.raceCommit ‹_›).same) _ fun _ _ h => h.invalidateLine

theorem State.Canonical.commitPointFree (h : s.Canonical) : (s.commitPointFree c).Canonical := by
  unfold State.commitPointFree
  split
  · exact (h.raceAtGrant.of_fst ‹_›).faultCrew
  · exact (h.raceAtGrant.of_fst ‹_›).commitPoint

theorem State.Canonical.landingRequest (h : s.Canonical) : (s.landingRequest uid).Canonical := by
  unfold State.landingRequest
  split
  · exact h
  · split
    · dsimp only
      split
      · exact h.askLanding.of_fst ‹_›
      · have h' := h.askLanding.of_fst ‹_›
        split
        · exact (h'.raceAtGrant.of_fst ‹_›).faultCrew
        · have h' := h'.raceAtGrant.of_fst ‹_›
          exact h'.commitPoint.ite h'.mapCrew
    · exact h

theorem State.Canonical.exclusiveMode (h : s.Canonical) : (s.exclusiveMode uid).Canonical := by
  have asked := State.Canonical.foldl_fst (p := (s, true)) h (List.range 200)
    (f := fun acc j => if acc.2 then acc.1.askLanding (exclusive uid) j else acc) fun p j h => by
      split
      · exact State.Canonical.askLanding h
      · exact h
  unfold State.exclusiveMode
  split
  · exact h
  · dsimp only
    split
    · exact asked.mapCrew.ite asked
    · exact h

theorem State.Canonical.invalidation {line : Nat} (h : s.Canonical) : (s.invalidation uid line).Canonical := by
  unfold State.invalidation
  split
  · exact h.conflictRollback.ite h
  · exact h

/-! Step 1: releases -/

theorem State.Canonical.releaseStream {line gen : Nat} (h : s.Canonical) : (s.releaseStream c line gen).Canonical :=
  (h.foldl _ fun _ _ h => h.same).mapCrew

theorem State.Canonical.systemStore {data : List (Nat × Byte)} (h : s.Canonical) : (s.systemStore c org l data).1.Canonical := by
  unfold State.systemStore
  dsimp only
  split
  · exact h.postFault
  · split
    · exact h
    · split
      · exact (h.passStore.of_fst ‹_›).postOut.ite (h.passStore.of_fst ‹_›).systemWrite
      · exact h.passStore

theorem State.Canonical.systemRed {op : Fin 16} {w : Nat} {x : Dword} (h : s.Canonical) : (s.systemRed c org l op w x).1.Canonical := by
  unfold State.systemRed
  dsimp only
  split
  · exact h.postFault
  · split
    · exact h
    · split
      · have h' := h.passStore.of_fst ‹_›
        exact h'.sendAtomic.ite (h'.postFault.ite h'.systemWrite)
      · exact h.passStore

theorem State.Canonical.writeAct {a : Act} (h : s.Canonical) : (s.writeAct c a).1.Canonical := by
  unfold State.writeAct
  split
  · exact h.releaseStream
  · exact h.systemStore
  · exact h.systemRed
  · exact h

theorem State.Canonical.releaseWork (h : s.Canonical) : (s.releaseWork uid fuel k).1.Canonical := by
  induction fuel generalizing s k with
  | zero => exact h
  | succ fuel ih =>
    unfold State.releaseWork
    split
    · exact h
    · split
      · exact h
      · split
        · exact h
        · split
          · split
            · exact ih (h.writeAct.of_fst ‹_›).mapCrew
            · exact h.writeAct
          · split
            · exact h
            · split
              · exact ih h.mapCrew
              · exact ih h

theorem State.Canonical.softReplay (h : s.Canonical) : (s.softReplay c).Canonical := .mapCrew (.rollbackCrew h.same)

theorem State.Canonical.commitBegin (h : s.Canonical) : (s.commitBegin c).Canonical := by
  unfold State.commitBegin
  split
  · exact h.faultCrew
  · exact h.softReplay
  · exact h
  · split
    · exact h.releaseWork.of_fst ‹_›
    · have h' := h.releaseWork.of_fst ‹_›
      refine h'.ite ?_
      split
      · exact .commitPointFree h'.same
      · exact h'.mapCrew

theorem State.Canonical.softFerry (h : s.Canonical) : (s.softFerry uid).Canonical := by
  unfold State.softFerry
  split
  · exact h
  · refine State.Canonical.ite ?_ h
    split
    · exact h
    · refine State.Canonical.ite (.mapCrew (.same (.tryPlace (.vacate (.rollbackCrew h.same))))) h

/-! Step 6 -/

theorem State.Canonical.commitWrites (h : s.Canonical) : (s.commitWrites c).Canonical :=
  .mapCrew (.same (h.foldl _ fun _ _ h => h.applyLine))

theorem State.Canonical.atomOne {q : AtomReq} {j : AtomJob} (h : s.Canonical) : (s.atomOne c org q j).1.Canonical := by
  unfold State.atomOne
  extract_lets n old fail new
  split
  · exact h.postFault
  · split
    · exact h.postFault.takeBad
    · split
      · exact h.same
      · change new.Canonical
        unfold new
        split
        · exact h.ite h.invalidateLine.same
        · dsimp only
          split
          · exact h.putBytes.markDirty
          · exact h.systemWrite
          · exact h.writeLine

theorem State.Canonical.passAtom (h : s.Canonical) : (s.passAtom uid l).1.Canonical := by
  unfold State.passAtom
  split
  · exact h.passLine
  · exact h.passStore

theorem State.Canonical.atomStep {j : AtomJob} (h : s.Canonical) : (s.atomStep c org j).1.1.Canonical := by
  unfold State.atomStep
  split
  · exact h
  · next q _ _ =>
    dsimp only
    split
    · exact h
    · split
      · exact h.passAtom.of_fst ‹_›
      · next u _ =>
        have h' := h.passAtom.of_fst ‹_›
        have hm : State.Canonical (if q.loc.away || q.loc.region == .spad then u else u.mergeLine (lineOf q.loc.key)) := h'.ite h'.mergeLine
        exact State.Canonical.foldl_fst (p := (_, _)) (hm.touchAtom.ite hm) _ fun _ _ h => State.Canonical.atomOne h

theorem State.Canonical.loadStep {j : LoadJob} (h : s.Canonical) : (s.loadStep org j).1.Canonical := by
  unfold State.loadStep
  split
  · exact h.mergeReads.of_fst ‹_›
  · have h' := h.mergeReads.of_fst ‹_›
    dsimp only
    split
    · exact h'.postFault.same
    · exact .takeBad h'.postFault.same
    · exact .same ((h'.foldl _ fun _ _ h => h.noteRead).foldl _ fun _ _ h => h.touchRead)

theorem State.Canonical.lateStep {b : BufLine} (h : s.Canonical) : (s.lateStep c b).1.Canonical := by
  have passed := State.Canonical.foldl_fst (p := (s, true)) h (s.landingsOf c.core b)
    (f := fun acc j => if acc.2 then acc.1.passAt c.uid j b.line else acc) fun p j h => by
      split
      · exact State.Canonical.passAt h
      · exact h
  unfold State.lateStep
  split
  · exact h
  · split
    · exact (passed.of_fst ‹_›).applyLine
    · exact passed

theorem State.Canonical.cpinAct {slot : Fin 4} {base size : Dword} {ways : Nat} (h : s.Canonical) : (s.cpinAct c slot base size ways).Canonical := by
  unfold State.cpinAct
  dsimp only
  split
  · exact h.same
  · exact h

theorem State.Canonical.cunpinAct {slot : Fin 4} (h : s.Canonical) : (s.cunpinAct c org slot).Canonical :=
  h.ite (State.Canonical.ite h.same h.postFault)

theorem State.Canonical.rollbackUsers {launch except : Nat} {p : Nat × Nat → Bool} (h : s.Canonical) :
    (s.rollbackUsers launch except p).Canonical := h.foldl _ fun _ _ h => h.rollbackCrew.mapCrew

theorem State.Canonical.cinvAct {k : ActKind} (h : s.Canonical) : (s.cinvAct c k).Canonical := by
  unfold State.cinvAct
  cases k with
  | cinvCode a =>
    refine h.ite ?_
    split
    · exact h.same
    · exact h
  | cinvPage a => exact .rollbackUsers h.same
  | cinvSpace => exact .rollbackUsers h.same
  | _ => exact h

theorem State.Canonical.locateLines {need : Need} {vas : List Nat} (h : s.Canonical) : (s.locateLines c need n vas).1.Canonical := by
  induction vas generalizing s with
  | nil => exact h
  | cons va vas ih =>
    unfold State.locateLines
    split
    · exact h.locate.of_fst ‹_›
    · have h' := h.locate.of_fst ‹_›
      split
      · split
        · exact (ih h').of_fst ‹_›
        · exact ih h'
      · exact h'

theorem State.Canonical.storeDwords {ls : List Loc} {bytes : List Byte} (h : s.Canonical) : (s.storeDwords c ls bytes).Canonical :=
  h.foldl _ fun _ _ h => h.engineStore

theorem State.Canonical.passAtoms {ls : List Loc} (h : s.Canonical) : (s.passAtoms uid ls).1.Canonical := by
  induction ls generalizing s with
  | nil => exact h
  | cons l ls ih =>
    unfold State.passAtoms
    split
    · exact ih (h.passAtom.of_fst ‹_›)
    · exact h.passAtom.of_fst ‹_›

theorem State.Canonical.plogAct {seq : BitVec 32} {pg : List Level} {payload : List Dword} (h : s.Canonical) :
    (s.plogAct c org seq pg payload).1.Canonical := by
  unfold State.plogAct
  dsimp only
  split
  · exact h.postFault
  · split
    · exact (h.locateLines.of_fst ‹_›).postFault
    · have h' := h.locateLines.of_fst ‹_›
      split
      · exact h'
      · split
        · exact h'.passAtoms.of_fst ‹_›
        · next hd _ _ _ _ _ =>
          have h' := (h'.passAtoms.of_fst ‹_›).foldl hd fun s l (h : s.Canonical) => h.mergeLine (line := lineOf l.key)
          split
          · exact h'.postFault
          · split
            · exact (h'.locateLines.of_fst ‹_›).postFault
            · have h' := h'.locateLines.of_fst ‹_›
              split
              · exact ((h'.passStores.of_fst ‹_›).foldl _ fun _ _ h => h.writeLine).storeDwords
              · exact h'.passStores

theorem State.Canonical.locateSegment {va : Dword} (h : s.Canonical) : (s.locateSegment c va n).1.Canonical := by
  unfold State.locateSegment
  split <;> exact h.locate.of_fst ‹_›

theorem State.Canonical.viewAppAct {desc data len : Dword} {tail : Option Dword} (h : s.Canonical) :
    (s.viewAppAct c desc data len tail).1.Canonical := by
  unfold State.viewAppAct
  split
  next u new hu =>
    have hn := h.locateSegment.of_fst hu
    have stored {v : State} {old : List Loc} (h : v.Canonical) : (match v.passStores c.uid (new ++ old) with
        | (s, true) =>
          let s := new.foldl (fun (s : State) (l : Loc) => s.engineStore c.uid c.core l (leBytes 8 0 ++ leBytes 8 data.toNat ++ leBytes 8 len.toNat ++ leBytes 8 0)) s
          (old.foldl (fun (s : State) (l : Loc) => s.engineStore c.uid c.core l (leBytes 8 desc.toNat)) s, true)
        | r => r).1.Canonical := by
      split
      · exact ((h.passStores.of_fst ‹_›).foldl _ fun _ _ h => h.engineStore).foldl _ fun _ _ h => h.engineStore
      · exact h.passStores
    cases tail with
    | none => exact stored hn
    | some t =>
      dsimp only
      exact stored hn.locateSegment

theorem State.Canonical.retire {lanes : Lanes} (h : s.Canonical) : (s.retire uid lanes).Canonical := by
  unfold State.retire
  split
  · exact h
  · exact h.mapCrew.foldl _ fun _ _ h => h.deduct

theorem State.Canonical.cancelSuspended (h : s.Canonical) : (s.cancelSuspended c).Canonical :=
  .foldl (.foldl (h.foldl _ fun _ _ h => h.finishCommand.same) _ fun _ _ h => h.same) _ fun _ _ h => h.same

theorem State.Canonical.resumeCopy {core : Nat} {j : BrgCmd} (h : s.Canonical) : (s.resumeCopy core j).Canonical := by
  unfold State.resumeCopy
  dsimp only
  split
  · split
    · exact h.same
    · exact .copyFault (.ite h.same h.same)
  · split
    · exact (h.copyChecks.of_fst ‹_›).same
    · have h' := h.copyChecks.of_fst ‹_›
      exact .copyFault (.ite h'.same h'.same)

theorem State.Canonical.resumeSuspended (h : s.Canonical) : (s.resumeSuspended c).Canonical :=
  .foldl (h.foldl _ fun _ _ h => h.resumeCopy) _ fun _ _ h => h.setTen

theorem State.Canonical.rftAct (h : s.Canonical) : (s.rftAct c).Canonical := by
  unfold State.rftAct
  extract_lets s1 s2 s3 s4
  have h1 : s1.Canonical := h.refreshDesc.ite h
  have h2 : s2.Canonical := h1.retire.ite h1
  have h3 : s3.Canonical := h2.cancelSuspended.ite h2
  refine State.Canonical.resumeSuspended ?_
  unfold s4
  split
  · exact h3.mapCrew
  · exact h3

theorem State.Canonical.rftStop (h : s.Canonical) : (s.rftStop uid).Canonical := by
  unfold State.rftStop
  split
  · exact h
  · exact h.mapCrew.ite h

theorem State.Canonical.chunkDone (h : s.Canonical) : (s.chunkDone uid).Canonical := h.mapCrew

/-- An action that has to wait leaves its request alone. -/
theorem State.Canonical.tried {p : State × Bool} (h : s.Canonical) (hp : p.1.Canonical) :
    State.Canonical (if p.2 then p.1.popAct uid else s.waitAs p.1) := hp.popAct.ite h.waitAs

theorem State.Canonical.actStep {a : Act} (h : s.Canonical) : (s.actStep c a).Canonical := by
  have here {f : State → State} (hf : ∀ {t : State}, t.Canonical → (f t).Canonical) : ((s.onCrew c.uid f).popAct c.uid).Canonical :=
    (h.onCrew hf).popAct
  unfold State.actStep
  dsimp only
  split
  · exact h.tried h.writeAct
  · exact h.tried h.writeAct
  · exact h.tried h.writeAct
  · exact h.tried h.lateStep
  · exact (h.putBytes.foldl _ fun _ _ h => h.markDirty).popAct
  · exact h.tried (p := (_, _)) h.focusOn.loadStep.focusOn
  · exact (h.postFault.ite h.reduceAt.markDirty).popAct
  · split
    · exact h.waitAs
    · have h' := h.atomStep.of_fst_fst ‹_›
      exact h'.mapCrew.popAct.ite h'.mapCrew
  · exact h.cpinAct.popAct
  · exact h.cunpinAct.popAct
  · exact h.cinvAct.popAct
  · exact h.cinvAct.popAct
  · exact h.cinvAct.popAct
  · exact h
  · exact h
  · exact here .writeHeld
  · exact h.popAct.chunkDone.spawnStep6
  · exact h
  · exact h.popAct.chunkDone.closeBlock
  · exact h.ite h.same
  · exact h.onCrew .bariStep6
  · exact here .barStep6
  · exact here .barStep6
  · exact here .barStep6
  · exact here .barStep6
  · exact here .barStep6
  · exact h.tried h.plogAct
  · exact h.tried h.viewAppAct
  · exact h.postFault.popAct
  · exact h.rftAct.popAct.rftStop

theorem State.Canonical.meetRelease (h : s.Canonical) : (s.meetRelease c).1.Canonical := by
  unfold State.meetRelease
  split
  · split
    · exact h
    · split
      · exact h.mapCrew
      · exact h
  · exact h

theorem State.Canonical.chunkCommit (h : s.Canonical) : (s.chunkCommit uid).Canonical := by
  unfold State.chunkCommit
  split
  · exact h
  · split
    · exact h.commitBegin.ite h
    · exact h.commitWrites
    · split
      · exact h.chunkDone
      · split
        · exact (h.meetRelease.of_fst ‹_›).actStep
        · exact h.meetRelease.of_fst ‹_›
    · exact h

end

section
variable {s : State} {uid n : Nat} {c : Crew} {e : Entry} {code : FltCode} {addr : Dword} {org : Origin}

/-! Frontier selection -/

theorem State.Canonical.checkRedEntry {b : List Byte} (h : s.Canonical) : (s.checkRedEntry c b).1.Canonical := by
  have routine {t : State} {kind : Nat} {e : RedEntry} (h : t.Canonical) : State.Canonical (
      (if kind = 7 then
        match t.checkTarget true e.routine with
        | (s, none) => (s, some e)
        | (s, some _) => (s, none)
      else (t, some e)) : State × Option RedEntry).1 := by
    split
    · split <;> exact h.checkTarget.of_fst ‹_›
    · exact h
  unfold State.checkRedEntry
  dsimp only
  split
  · exact h
  · split
    · exact routine h
    · split
      · exact h
      · split
        · exact routine (h.locateLines.of_fst ‹_›)
        · exact h.locateLines.of_fst ‹_›

theorem State.Canonical.readRedTable {i : Nat} (h : s.Canonical) : (s.readRedTable c n i).1.Canonical := by
  induction n generalizing s i with
  | zero => exact h
  | succ n ih =>
    unfold State.readRedTable
    dsimp only
    split
    · exact h.engineReads.of_fst ‹_›
    · have h' := h.engineReads.of_fst ‹_›
      split
      · exact h'.checkRedEntry.of_fst ‹_›
      · have h' := ih (i := i + 1) (h'.checkRedEntry.of_fst ‹_›)
        split
        · exact h'.of_fst ‹_›
        · exact h'

theorem State.Canonical.faultAt {word : BitVec 4} (h : s.Canonical) : (s.faultAt e code addr word).Canonical := h.deliverFault

theorem State.Canonical.tableCheck (h : s.Canonical) : (s.tableCheck e).Canonical := by
  unfold State.tableCheck
  split
  · exact (h.readRedTable.of_fst ‹_›).same
  · exact (h.readRedTable.of_fst ‹_›).faultAt

theorem State.Canonical.endChunk (h : s.Canonical) : (s.endChunk e).Canonical := State.Canonical.ite h.rollback.deliverFault h.same

theorem State.Canonical.deliverPost {p : PostFault} {rest : List PostFault} (h : s.Canonical) : (s.deliverPost p rest).Canonical :=
  .deliverFault h.same

theorem State.Canonical.stopAt (h : s.Canonical) : (s.stopAt e).Canonical := by
  unfold State.stopAt
  split
  · exact (h.liveRecord.of_fst ‹_›).faultAt
  · exact (h.liveRecord.of_fst ‹_›).same

theorem State.Canonical.issueClause (h : s.Canonical) : (s.issueClause e).Canonical := by
  unfold State.issueClause
  dsimp only
  split
  · exact (h.fetchClause.of_fst ‹_›).rollback.deliverFault
  · have h' := h.fetchClause.of_fst ‹_›
    split
    · exact h'.rollback.deliverFault
    · exact h'.noteUse.noteUse.same

theorem State.Canonical.selectEntry (h : s.Canonical) : (s.selectEntry e).Canonical := by
  unfold State.selectEntry
  dsimp only
  split
  · split <;> exact h.rollback.same
  · exact State.Canonical.ite (h.endChunk.ite h.issueClause) (h.stopAt.ite (.issueClause h.same))

theorem State.Canonical.select (h : s.Canonical) : s.select.Canonical := by
  refine h.ite ?_
  split
  · exact h.deliverPost.ite h.same
  · split
    · exact h
    · refine h.tableCheck.ite ?_
      split
      · exact h.ite (h.faultAt.ite h.rangeStep)
      · refine h.ite ?_
        split
        · exact h.selectEntry
        · exact State.Canonical.ite h.same h

theorem State.Canonical.execTableWalk {va : BitVec 64} (h : s.Canonical) : Goes (execTableWalk n va s) := by
  refine ⟨_, rfl, ?_⟩
  split
  · exact h.lookup.ite h
  · exact h

theorem State.Canonical.execLongLatencyCompletion (h : s.Canonical) : Goes (execLongLatencyCompletion uid n s) := by
  refine ⟨_, rfl, ?_⟩
  split
  · exact h.mapCrew.ite h
  · exact h

theorem State.Canonical.sfuAccept (h : s.Canonical) : (s.sfuAccept n).Canonical := by
  unfold State.sfuAccept
  dsimp only
  split
  · exact h
  · exact h.same

theorem State.Canonical.fenceDone {d : Fin 64} {f : FenceWait} (h : s.Canonical) : (s.fenceDone c org d f).Canonical := by
  have h' {g : Crew → Crew} : (State.mapCrew c.uid g { s with fences := s.fences.filter fun f => f.crew != c.uid }).Canonical :=
    .mapCrew h.same
  unfold State.fenceDone
  dsimp only
  split
  · exact h'
  · exact State.Canonical.ite (.postFault h'.same) h'.same

theorem State.Canonical.fenceWaitEnd (h : s.Canonical) : (s.fenceWaitEnd uid).Canonical := by
  unfold State.fenceWaitEnd
  split
  · split
    · exact h.ite (h.fenceDone.ite h.fenceDone)
    · exact h
  · exact h

theorem State.Canonical.linkTimeout (h : s.Canonical) : (s.linkTimeout uid).Canonical := by
  unfold State.linkTimeout
  split
  · split
    · exact h.ite (.ite (.fenceDone h.same) h.same)
    · exact h
  · exact h

/-! What surrounds a word -/

theorem State.Canonical.setRepc (h : s.Canonical) : s.setRepc.Canonical := by
  unfold State.setRepc
  split
  · exact h
  · exact h.same

theorem State.Canonical.endClause (h : s.Canonical) : s.endClause.Canonical := by
  have h' : State.Canonical (if s.clause.moved then s else s.mapR fun r => { r with
      frontier := advanceFrontier s.clause.addr (laneList s.clause.lanes) (fun _ => (s.clause.next, false)) false r.frontier }) := h.ite h.same
  exact State.Canonical.ite h'.same h

theorem State.Canonical.afterWord {i : Instr} {ended : Bool} (h : s.Canonical) : (s.afterWord i ended).Canonical := by
  unfold State.afterWord
  split
  · exact h
  · exact h.ite (h.raise.ite (.endClause h.same))

theorem State.Canonical.beforeWord (h : s.Canonical) : s.beforeWord.Canonical := .setRepc h.same

end
end Sys2Proof.Machine
end

section
/-! PROOF. Canonical memory is kept by merges, the scheduler and contexts. -/
namespace Sys2Proof.Machine

section
variable {s : State} {uid core : Nat} {i : Fin 16} {c : Crew} {l : Launch} {pg : List Level}

/-! Merges of views -/

theorem State.Canonical.setMergeItem {k : Nat} {f : Views → Views} (h : s.Canonical) : (s.setMergeItem uid k f).Canonical := by
  unfold State.setMergeItem
  split
  · exact h.mapCrew
  · exact h.same

theorem State.Canonical.linkTail {launch : Nat} {x y : ViewVal} (h : s.Canonical) : (s.linkTail uid launch core pg x y).1.Canonical := by
  unfold State.linkTail
  split
  · dsimp only
    split
    · exact (h.locateSegment.passStores.of_fst ‹_›).foldl _ fun _ _ h => h.engineStore
    · exact h.locateSegment.passStores
  · exact h

theorem State.Canonical.viewMerge (h : s.Canonical) : (s.viewMerge uid i).Canonical := by
  unfold State.viewMerge
  split
  · refine h.ite ?_
    split
    · exact h.waitAs
    · exact (h.linkTail.of_fst ‹_›).setMergeItem.setMergeItem
  · exact h

theorem State.Canonical.startRoutine {launch : Nat} {v : ViewVal × ViewVal} {entries : List Dword} (h : s.Canonical) :
    (s.startRoutine uid i launch core pg v entries).Canonical := .placeOn h.same

theorem State.Canonical.endRoutine (h : s.Canonical) : (s.endRoutine c).Canonical := by
  unfold State.endRoutine
  refine State.Canonical.removeCrew ?_
  split
  · exact h.same
  · exact h

theorem State.Canonical.userMerged (h : s.Canonical) : (s.userMerged uid i c).Canonical := by
  unfold State.userMerged
  dsimp only
  split
  · exact h.setMergeItem.setMergeItem
  · refine h.ite (h.onCrew fun h => ?_)
    split
    · exact .afterWord h.same
    · exact h

theorem State.Canonical.userFailed (h : s.Canonical) : (s.userFailed uid i c).Canonical := by
  unfold State.userFailed
  dsimp only
  split
  · exact h.postFault.mapCrew
  · exact h.same
  · exact (h.onCrew fun h => h.raise).ite h

theorem State.Canonical.userMerge (h : s.Canonical) : (s.userMerge uid i).Canonical := by
  unfold State.userMerge
  split
  · exact h.endRoutine.userFailed.ite (h.endRoutine.userMerged.ite h)
  · split
    · exact h.ite h.startRoutine
    · exact h

end

section
variable {s : State} {q n slot root va : Nat} {l : Launch} {c : Crew} {x : Queue} {d : Desc}

/-! Queues and packets -/

theorem State.Canonical.leaveSlot (h : s.Canonical) : (s.leaveSlot q n).Canonical := State.Canonical.ite h.same h.same

theorem State.Canonical.settleQueue (h : s.Canonical) : (s.settleQueue q).Canonical := by
  unfold State.settleQueue
  split
  · exact h
  · split
    · exact h.same
    · exact h.ite (.leaveSlot h.same)

theorem State.Canonical.readState (h : s.Canonical) : (s.readState q).Canonical := by
  unfold State.readState
  dsimp only
  exact .settleQueue (.same (.ite h.readDesc.same h.readDesc))

theorem State.Canonical.doorbell (h : s.Canonical) : (s.doorbell q n).Canonical := by
  unfold State.doorbell
  have h' := (h.knowQueue (q := q)).readState (q := q) |>.readDesc (q := q)
  dsimp only
  split
  · exact h.same
  · split
    · exact h'
    · exact h'.ite (State.Canonical.ite h'.same (.settleQueue h'.same))

theorem State.Canonical.readPacket (h : s.Canonical) : (s.readPacket slot root va).1.Canonical := by
  unfold State.readPacket
  split
  · have h' := h.translate.of_fst ‹_›
    split
    · exact h'
    · split
      · exact h'.readLine
      · exact h'
  · exact h.translate.of_fst ‹_›

theorem State.Canonical.headPacket (h : s.Canonical) : (s.headPacket d slot n).1.Canonical := h.readPacket

theorem State.Canonical.readPri (h : s.Canonical) : (s.readPri x).1.Canonical := by
  unfold State.readPri
  split
  · exact h
  · split
    · exact (h.readDesc.of_fst ‹_›).headPacket
    · exact h.readDesc.of_fst ‹_›

theorem State.Canonical.startRoots (h : s.Canonical) : (s.startRoots l).Canonical := by
  unfold State.startRoots
  dsimp only
  split
  · exact .placeOn h.same
  · exact .placeOn h.same
  · exact h.foldl _ fun _ _ h => h.foldl _ fun _ _ h => h.same

theorem State.Canonical.pokeRfHeader (h : s.Canonical) : (s.pokeRfHeader l).Canonical := h.pokeRf

theorem State.Canonical.launchStart (h : s.Canonical) : (s.launchStart slot).Canonical := by
  unfold State.launchStart
  split
  · exact h
  · dsimp only
    exact .ite (.same h.headPacket) (.startRoots (.ite (.pokeRfHeader (.same h.headPacket)) (.same h.headPacket)))

/-! The end of a launch -/

theorem State.Canonical.freeObjects (h : s.Canonical) : (s.freeObjects l).Canonical := h

theorem State.Canonical.dropCommands (h : s.Canonical) : (s.dropCommands n).Canonical := h

theorem State.Canonical.dropGrants (h : s.Canonical) : (s.dropGrants n).Canonical := h

theorem State.Canonical.freePods (h : s.Canonical) : (s.freePods l).Canonical :=
  .same (.foldl (h.foldl _ fun _ _ h => h.tellPod) _ fun _ _ h => h.tellPod)

theorem State.Canonical.dropCrews (h : s.Canonical) : (s.dropCrews n).Canonical :=
  .same (h.foldl _ fun _ _ h => .removeCrew h.same)

theorem State.Canonical.forceAct {a : Act} (h : s.Canonical) : (s.forceAct c a).Canonical := by
  refine State.Canonical.writeAct ?_
  split
  · exact h.ite h.mergeLine
  · exact h.ite h.mergeLine
  · exact h

theorem State.Canonical.flushActs (h : s.Canonical) : (s.flushActs n).Canonical := by
  unfold State.flushActs
  split
  · exact h
  · exact h.foldl _ fun _ _ h => h.forceAct

theorem State.Canonical.finishCommit (h : s.Canonical) : (s.finishCommit c).Canonical := by
  unfold State.finishCommit
  split
  · exact h.commitWrites.flushActs
  · exact h.flushActs
  · exact h.rollbackCrew

theorem State.Canonical.writeResults {views : Views} {es : List (RedEntry × Nat)} (h : s.Canonical) :
    (s.writeResults l views es).1.Canonical := by
  induction es generalizing s with
  | nil => exact h
  | cons e es ih =>
    unfold State.writeResults
    split
    · exact ih h
    · dsimp only
      split
      · exact h.same
      · split
        · exact ih ((h.passStores.of_fst ‹_›).foldl _ fun _ _ h => h.engineStore)
        · exact h.passStores

theorem State.Canonical.writeRecord (h : s.Canonical) : (s.writeRecord l).1.Canonical := by
  unfold State.writeRecord
  dsimp only
  split
  · exact h.same
  · split
    · exact h.same
    · have h' := h.locate.of_fst ‹_›
      split
      · exact h.same
      · split
        · exact (h'.passStore.of_fst ‹_›).engineStore.same
        · exact h'.passStore



theorem State.Canonical.retireLaunch (h : s.Canonical) : (s.retireLaunch l).Canonical := by
  have answered : ∀ {s : State}, s.Canonical → (match s.queue? l.queue with
      | some x =>
        if x.asked then (s.mapQueue l.queue fun x => { x with asked := false, ckpt := none }).mailDone (if x.ckpt.isSome then 3 else 0)
        else s
      | none => s).Canonical := by
    intro s h
    split
    · exact .ite (.same h) h
    · exact h
  have passed : ∀ {s : State}, s.Canonical → (match l.slot with
      | some i => if ((s.sched.slots[i]?).bind QSlot.next).isSome then s.passSlot i else s
      | none => s).Canonical := by
    intro s h
    split
    · exact .ite (.same h) h
    · exact h
  unfold State.retireLaunch
  exact .settleQueue (passed (answered (.same (.physWrite (.same (.dropGrants (.freeObjects h)))))))

theorem State.Canonical.closeLaunch (h : s.Canonical) : (s.closeLaunch l).Canonical := by
  unfold State.closeLaunch
  split
  · exact h.waitAs
  · have h' := h.passPhys.of_fst ‹_›
    split
    · exact h.waitAs
    · exact (h'.writeRecord.of_fst ‹_›).retireLaunch

theorem State.Canonical.launchCompletion (h : s.Canonical) : (s.launchCompletion slot).Canonical := by
  unfold State.launchCompletion
  split
  · exact h
  · next l _ =>
    have ended : ((((s.crews.foldl (fun s c => if c.task.launch = l.uid && c.uid != 0 then s.finishCommit c else s) s).freePods l).dropCrews
        l.uid).dropCommands l.uid).Canonical := .same (.dropCrews (.freePods (h.foldl _ fun _ _ h => h.finishCommit.ite h)))
    refine .ite (.ite (ended.closeLaunch.ite ended) h) (.ite ?_ h)
    split
    · exact h.closeLaunch
    · split
      · exact h.waitAs
      · exact (h.writeResults.of_fst ‹_›).same

theorem State.Canonical.mapTo (h : s.Canonical) : (s.mapTo q slot).Canonical := by
  unfold State.mapTo
  dsimp only

  exact .ite (.same (.ite (.same h.readDesc) (.same h.readDesc))) (.same (.ite (.same h.readDesc) (.same h.readDesc)))

theorem State.Canonical.rotate (h : s.Canonical) : s.rotate.Canonical :=
  .foldl (h.foldl _ fun _ _ h => h.same) _ fun _ _ h => h.mapTo

theorem State.Canonical.rotationTick (h : s.Canonical) : s.rotationTick.Canonical :=
  h.ite (.same (.rotate (.foldl (h.foldl _ fun _ _ h => h.readState) _ fun _ _ h => h.readPri)))

end

section
variable {s t : State} {n q slot : Nat} {l : Launch} {c : Crew} {own : BitVec 32}

/-! Pre-emption and return -/

theorem State.Canonical.preemptionRequest (h : s.Canonical) : (s.preemptionRequest slot).Canonical := by
  unfold State.preemptionRequest
  split
  · exact State.Canonical.ite h.same h
  · exact h

theorem State.Canonical.cutLaunch (h : s.Canonical) : (s.cutLaunch l).Canonical := by
  have cut : (((((s.crews.foldl (fun s c => if c.task.launch = l.uid && c.uid != 0 then s.finishCommit c else s) s).freePods l).dropCrews
      l.uid).dropCommands l.uid).freeObjects l).Canonical := .same (.dropCrews (.freePods (h.foldl _ fun _ _ h => h.finishCommit.ite h)))
  unfold State.cutLaunch
  dsimp only
  split
  · exact cut.same
  · exact cut

theorem State.Canonical.stopTimeout (h : s.Canonical) : (s.stopTimeout slot).Canonical := by
  unfold State.stopTimeout
  split
  · exact .ite (.same h.cutLaunch) h
  · exact h

theorem State.Canonical.parkGang (h : s.Canonical) : (s.parkGang c).Canonical := by
  unfold State.parkGang
  split
  · exact h.addMembers.mapCrew.park
  · exact h

theorem State.Canonical.queueSaved (h : s.Canonical) : (s.queueSaved q slot).Canonical := by
  unfold State.queueSaved
  split
  · exact h
  · exact .ite (.leaveSlot (.ite h.same h.same)) (.same (.ite h.same h.same))

theorem State.Canonical.askPods {ask : Fin 2 → PodMessage} {ns : List (Fin 2)} (h : s.Canonical) : (s.askPods n ask ns).Canonical :=
  h.ite (.same (h.foldl _ fun _ _ h => h.tellPod))

theorem State.Canonical.contextSave (h : s.Canonical) : (s.contextSave slot).Canonical := by
  unfold State.contextSave
  split
  · exact h
  · refine h.ite (h.askPods.ite (h.ite ?_))
    dsimp only
    split
    · exact h.waitAs
    · next l _ _ _ _ =>
      have parked : (s.crews.foldl (fun s c => if c.task.launch = l.uid then s.parkGang c else s) s).Canonical :=
        h.foldl _ fun _ _ h => h.parkGang.ite h
      exact .settleQueue (.queueSaved (.same (.same (.physWrite (.dropGrants (.freeObjects (.dropCommands (.dropCrews parked))))))))

theorem State.Canonical.readImage {d : Desc} (h : s.Canonical) : (s.readImage d).1.Canonical := by
  unfold State.readImage
  dsimp only
  split
  · exact h.physRead
  · exact h.physRead.physRead

theorem State.Canonical.returnCrew {kinds : Fin 16 → Nat} {x : List Dword × Crew} (h : s.Canonical) (e : s.returnCrew l kinds x = some t) :
    t.Canonical := by
  unfold State.returnCrew at e
  extract_lets core add at e
  split at e
  extract_lets c1 run task c2 s1 hinted placed waiting at e
  have h1 : s1.Canonical := .foldl (.same h) _ fun _ _ h => h.putBytes
  have added : ∀ c, (add c s1).Canonical := fun _ => .same h1
  split at e
  · split at e
    · cases e
      exact .same (added _)
    · cases e
      exact added _
  · split at e
    · split at e
      · rw [← Option.some.inj e]
        exact (added _).tryPlace
      · cases e
    · cases e
      exact .getD (added _).placeNow (.writeCrew (.mapCrew (added _)))

theorem State.Canonical.returnAll {kinds : Fin 16 → Nat} {xs : List (List Dword × Crew)} (h : s.Canonical)
    (e : s.returnAll l kinds xs = some t) : t.Canonical := by
  induction xs generalizing s with
  | nil =>
    cases e
    exact h
  | cons x xs ih =>
    obtain ⟨u, hu, e⟩ := Option.bind_eq_some_iff.1 e
    exact ih (h.returnCrew hu) e

theorem State.Canonical.returnDeques {xs : List (List Dword × Crew)} (h : s.Canonical) : (s.returnDeques xs).Canonical :=
  h.foldl _ fun _ _ h => h.pushDeque

theorem State.Canonical.returnCommands {x : SavedCtx} (h : s.Canonical) : (s.returnCommands x).Canonical := by
  refine .foldl (.foldl (h.foldl _ fun _ _ h => h.same) _ fun _ _ h => h.same) _ fun _ _ h => ?_
  split
  · exact h.resumeSuspended
  · exact h

theorem State.Canonical.restorePods {far : List (Fin 2 × List Dword)} (h : s.Canonical) : (s.restorePods l own far).Canonical :=
  h.ite (.askPods (.same h.freePods))

theorem State.Canonical.returnObject {w : List Dword} (h : s.Canonical) : (s.returnObject own w).Canonical := by
  unfold State.returnObject
  split
  · exact h.mapBarrier.ite h.mapBarrier
  · exact h

theorem State.Canonical.refuseResume (h : s.Canonical) : (s.refuseResume l).Canonical := h

theorem State.Canonical.contextResume (h : s.Canonical) : (s.contextResume slot).Canonical := by
  unfold State.contextResume
  split
  · exact h
  · split
    · exact (h.readImage.of_fst ‹_›).refuseResume
    · have h' := h.readImage.of_fst ‹_›
      split
      · exact h.same
      · refine .ite h.same (h.ite (h.restorePods.ite ?_))
        dsimp only
        split
        · refine State.Canonical.returnCommands (.returnDeques (State.Canonical.returnAll ?_ ‹_›))
          refine .foldl (.foldl (.same h') _ fun _ _ h => h.returnObject) _ fun _ _ h => ?_
          split
          · exact h.same
          · exact h
        · exact h

end
end Sys2Proof.Machine
end

section
/-! PROOF. Canonical memory is kept by accesses from outside, management and the moves without a table row. -/
namespace Sys2Proof.Machine

section
variable {s : State} {x : Inbound} {id slot pa off n k w die peer uid launch : Nat} {data : List Byte} {i : Instr}

/-! Accesses from outside -/

theorem State.Canonical.ite_fst {α : Type} {a b : State × α} {c : Prop} [Decidable c] (ha : a.1.Canonical) (hb : b.1.Canonical) :
    (if c then a else b).1.Canonical := by
  split
  · exact ha
  · exact hb

theorem State.Canonical.hbmLines (h : s.Canonical) : (s.hbmLines id slot n pa data).1.Canonical := by
  induction n generalizing s pa data with
  | zero => exact h
  | succ n ih =>
    unfold State.hbmLines
    split
    · exact h
    · dsimp only
      split
      · exact ih (h.passLine.of_fst ‹_›).physWrite
      · exact h.passLine.of_fst ‹_›

theorem State.Canonical.hbmWrite (h : s.Canonical) : (s.hbmWrite id slot pa data).1.Canonical := h.hbmLines

theorem State.Canonical.hbmAtomic {f : Nat → Nat} {reply : Bool} (h : s.Canonical) : (s.hbmAtomic id slot pa w f reply).1.Canonical := by
  unfold State.hbmAtomic
  split
  · exact .same (.physWrite (h.passPhys.of_fst ‹_›).mergeLine.physRead)
  · exact h.passPhys

theorem State.Canonical.bar2Write (h : s.Canonical) : (s.bar2Write x off data).1.Canonical := by
  unfold State.bar2Write
  dsimp only
  split
  · exact h
  · split
    · exact h.same
    · split
      · exact h.same
      · split
        · exact h.hbmWrite.of_fst ‹_›
        · exact h.hbmWrite.of_fst ‹_›

theorem State.Canonical.bar2Read (h : s.Canonical) : (s.bar2Read x off n).Canonical := by
  refine State.Canonical.ite h.same (.ite h.same (.ite h.same (.ite (.same h.takeBad) ?_)))
  exact State.Canonical.same (s := (s.physRead (some (BitVec.ofNat 12 (x.bar2 off).2)) (x.bar2 off).1 n).1) h.physRead

theorem State.Canonical.bar2Atomic {w64 : Bool} {op : PcieOp} {a b : Dword} (h : s.Canonical) :
    (s.bar2Atomic x off w64 op a b).1.Canonical := by
  unfold State.bar2Atomic
  extract_lets
  exact .ite_fst h.same (.ite_fst h.same h.hbmAtomic)

theorem State.Canonical.peerInbound {a : PeerAccess} (h : s.Canonical) : (s.peerInbound id n off a).1.Canonical := by
  unfold State.peerInbound
  dsimp only
  split
  · exact h.same
  · split
    · exact h.same
    · split
      · exact .same h.physRead
      · split
        · exact .same (h.hbmWrite.of_fst ‹_›)
        · exact h.hbmWrite.of_fst ‹_›
      · exact h.hbmAtomic
      · exact h.hbmAtomic

theorem State.Canonical.accessTry (h : s.Canonical) : (s.accessTry x).1.Canonical := by
  unfold State.accessTry
  split
  · exact h.bar2Write
  · exact h.bar2Read
  · split
    · exact h.bar2Atomic.of_fst ‹_›
    · exact h.bar2Atomic.of_fst ‹_›
  · exact h.peerInbound
  · exact h

theorem State.Canonical.refuseInbound (h : s.Canonical) : (s.refuseInbound x).Canonical := by
  unfold State.refuseInbound
  split
  · exact h.same
  · exact h.same
  · exact h.same
  · exact h.same
  · exact h

theorem State.Canonical.drainInbound (h : s.Canonical) : s.drainInbound.Canonical := .foldl (.same h) _ fun _ _ h => h.accessTry

/-! Links, dies, power -/

theorem State.Canonical.linkLost {posted : List Posted} (h : s.Canonical) : (s.linkLost peer posted).Canonical := by
  have h' := h.foldl (posted.filter fun p => p.atomic && !p.lost && p.peer == some peer)
    fun (s : State) p h => h.postCheck (id := p.crew) (code := .memerr) (addr := BitVec.ofNat 64 p.addr)
  exact State.Canonical.ite (.same h') h'

theorem State.Canonical.linkChange {st : LinkState} (h : s.Canonical) : (s.linkChange peer st).Canonical :=
  .same (.ite (.linkLost (.same h)) (.same h))

theorem State.Canonical.dieFailure (h : s.Canonical) : (s.dieFailure die).Canonical :=
  .same (.foldl (.same h) _ fun _ _ h => h.same)

theorem State.Canonical.powerCap (h : s.Canonical) : (s.powerCap n).Canonical := State.Canonical.ite h.same h

theorem State.Canonical.flushStreams (h : s.Canonical) : s.flushStreams.Canonical := .foldl (.same h) _ fun _ _ h => h.applyLine

theorem State.Canonical.endRecord (h : s.Canonical) : (s.endRecord launch).Canonical := by
  unfold State.endRecord
  split
  · exact h
  · exact .same h.writeRecord.retireLaunch

theorem State.Canonical.endAll (h : s.Canonical) : s.endAll.Canonical :=
  .foldl (.same (.flushStreams (h.flushStreams.foldl _ fun _ _ h => .same h.cutLaunch))) _ fun _ _ h => h.endRecord

theorem State.Canonical.thermalTrip (h : s.Canonical) : (s.thermalTrip die).Canonical := .same (.endAll (.same h))

/-! Commands of the mailbox -/

theorem State.Canonical.command {f : State → State} (h : s.Canonical) (hf : (f s).Canonical) : (s.command f).Canonical := h.ite hf

theorem State.Canonical.keyload {x : BitVec 512} (h : s.Canonical) : (s.keyload slot x).Canonical := State.Canonical.ite h.same h.same

theorem State.Canonical.releaseRetention (h : s.Canonical) : (s.releaseRetention slot).Canonical :=
  h.foldl _ fun _ _ h => .ite (.same h) h

theorem State.Canonical.destroyKey (h : s.Canonical) : (s.destroyKey slot).Canonical :=
  .releaseRetention (.same (.foldl (.same h) _ fun _ _ h => h.applyLine))

theorem State.Canonical.keydestroy (h : s.Canonical) : (s.keydestroy slot).Canonical :=
  .ite h.same (.ite h.same (.ite h.same (.same h.destroyKey)))

theorem State.Canonical.finishDying (h : s.Canonical) : s.finishDying.Canonical := h.foldl _ fun _ _ h => .same h.destroyKey

theorem State.Canonical.unmap (h : s.Canonical) : (s.unmap n).Canonical := by
  unfold State.unmap
  split
  · exact h
  · exact .settleQueue (.leaveSlot (.same h))

theorem State.Canonical.preempt (h : s.Canonical) : (s.preempt n).Canonical := .ite h.same (.ite h.same (.same h.unmap))

theorem State.Canonical.checkpoint {p : CkptPlace} (h : s.Canonical) : (s.checkpoint n p).Canonical := by
  refine State.Canonical.ite h.same ?_
  split
  · exact h.same
  · exact h.same

theorem State.Canonical.copyDone (h : s.Canonical) : (s.copyDone n).Canonical := by
  unfold State.copyDone
  split
  · split
    · have read : (s.partials.foldl (fun s p => s.readLine p.line) s).Canonical := h.foldl _ fun _ _ h => h.readLine
      dsimp only
      split
      · exact .settleQueue (.same (.sendTo read))
      · exact .settleQueue (.same (.sendTo read))
    · exact h
  · exact h

theorem State.Canonical.restore {p : CkptPlace} (h : s.Canonical) : (s.restore n p).Canonical := by
  refine State.Canonical.ite h.same ?_
  split
  · exact h.same
  · refine State.Canonical.ite h.same ?_
    refine .same (.settleQueue (.same (.knowQueue (.same (.putBytes (.filter (.same (.foldl h _ fun _ _ h => ?_)) _))))))
    exact .same h.mergeLine.invalidateLine

theorem State.Canonical.fwstage (h : s.Canonical) : (s.fwstage n k).Canonical := State.Canonical.ite h.same h.same

theorem State.Canonical.boot (h : s.Canonical) : s.boot.Canonical := State.Canonical.ite h.same h.same

theorem State.Canonical.warmReset (h : s.Canonical) : s.warmReset.Canonical :=
  .boot (.foldl (.same (.foldl (h.endAll.drainInbound.foldl _ fun _ _ h => h.destroyKey) _ fun _ _ h => h.same)) _ fun _ _ h => h.same)

theorem State.Canonical.fwactivate (h : s.Canonical) : s.fwactivate.Canonical := .ite h.same (.same (.warmReset (.same h)))

/-- Memory after a cold reset is that of the reset state, whatever it was before. -/
theorem State.coldReset_canonical (s : State) : s.coldReset.Canonical := .boot (.same (s := State.reset) State.reset_wf)

theorem State.Canonical.sensors (h : s.Canonical) : (s.sensors n).Canonical := State.Canonical.ite h.same h.same

theorem State.Canonical.setWindow {lo hi : Dword} (h : s.Canonical) : (s.setWindow n lo hi).Canonical := State.Canonical.ite h.same h.same

theorem State.Canonical.bar2set {base key : Dword} (h : s.Canonical) : (s.bar2set base key).Canonical := State.Canonical.ite h.same h.same

theorem State.Canonical.evread {host first : Nat} (h : s.Canonical) : (s.evread host first n).Canonical := State.Canonical.ite h.same h.same

theorem State.Canonical.mailStart (h : s.Canonical) : s.mailStart.Canonical := by
  unfold State.mailStart
  dsimp only
  split
  · exact h.keyload
  · exact h.keydestroy
  · exact h.preempt
  · exact .ite h.checkpoint h.same
  · exact .ite h.restore h.same
  · exact h.fwstage
  · exact h.fwactivate
  · exact h.sensors
  · exact h.setWindow
  · exact h.bar2set
  · exact h.evread
  · exact h.same

theorem State.Canonical.bar0Write {x : Dword} (h : s.Canonical) : (s.bar0Write off x).Canonical :=
  .ite h (.ite h.same (.ite (.ite h.same h) (.ite (.ite (h.command h.mailStart) h) (.ite h.same (.ite h.doorbell h)))))

theorem State.Canonical.outsideTry (h : s.Canonical) : (s.outsideTry x).1.Canonical := by
  refine .ite_fst h ?_
  split
  · exact h.doorbell
  · exact h.bar0Write
  · exact h.accessTry

theorem State.Canonical.outside (h : s.Canonical) : (s.outside i).Canonical := by
  unfold State.outside
  dsimp only
  split
  · exact h.refuseInbound
  · split
    · exact h.same
    · split
      · exact h.outsideTry.of_fst ‹_›
      · next t _ tried => exact .same (s := t) (h.outsideTry.of_fst tried)

theorem State.Canonical.inboundAgain (h : s.Canonical) : (s.inboundAgain k).Canonical := by
  unfold State.inboundAgain
  split
  · exact h
  · have tried : ∀ {x l}, (State.outsideTry x { s with inbound := l }).1.Canonical := State.Canonical.outsideTry (.same h)
    refine h.ite ?_
    split
    · exact (tried.of_fst ‹_›).finishDying
    · next t _ again => exact .same (s := t) (tried.of_fst again)

/-! The moves that the opcode table has no row for -/

theorem State.Canonical.turnTo (h : s.Canonical) : (s.turnTo uid).Canonical := by
  unfold State.turnTo
  split
  · exact h
  · split
    · exact h.same
    · exact h

theorem State.Canonical.passReleased {x : StreamOut} (h : s.Canonical) : (s.passReleased x).1.Canonical := by
  unfold State.passReleased
  dsimp only
  split
  · exact h
  · split
    · exact h.mergeFor
    · refine .foldl_fst (p := (s, true)) h _ fun p _ h => ?_
      split
      · exact h.passAt
      · exact h

theorem State.Canonical.streamVisible (h : s.Canonical) : (s.streamVisible k).Canonical := by
  unfold State.streamVisible
  split
  · exact h
  · refine h.ite ?_
    split
    · exact .applyLine (.same (h.passReleased.of_fst ‹_›))
    · exact h.waitAs

theorem State.Canonical.streamSeen (h : s.Canonical) : (s.streamSeen k n).Canonical := by
  unfold State.streamSeen
  split
  · exact h
  · exact State.Canonical.ite h.same h

theorem State.Canonical.acknowledge (h : s.Canonical) : (s.acknowledge k).Canonical := by
  unfold State.acknowledge
  split
  · exact h
  · exact State.Canonical.ite h.same h

theorem State.Canonical.postError (h : s.Canonical) : (s.postError k).Canonical := by
  unfold State.postError
  split
  · exact h
  · exact h.ite (.postCheck (.same h))

theorem State.Canonical.softError {log : Bool} (h : s.Canonical) : (s.softError uid log).Canonical := by
  unfold State.softError
  split
  · exact h
  · exact h.ite (.ite (h.ite h.faultCrew) h.mapCrew)

theorem State.Canonical.memError (h : s.Canonical) : (s.memError n).Canonical := State.Canonical.ite h h.same



theorem State.Canonical.idle (h : s.Canonical) : s.idle.Canonical := by
  unfold State.idle
  split
  · exact h
  · exact h.same

theorem State.Canonical.notTaken {m : Move} (h : s.Canonical) : (s.notTaken m).Canonical := by
  unfold State.notTaken
  split
  · exact h.onCrew fun h => h.same
  · exact h

end
end Sys2Proof.Machine
end

section
/-! PROOF. Every instruction, move and step goes on (O58). -/
namespace Sys2Proof.Machine

section
variable {s : State}

/-! Each instruction and event goes on -/

theorem State.Canonical.exec (h : s.Canonical) (i : Instr) : Goes (Machine.exec i s) := by
  cases i with
  | sadd | ssub | smul | smulh | smulhz | sand | sor | sxor | sshl | sshr | ssar | smin | smax | sminz | smaxz | scmp | ssel | smov | spopc
  | sclz | saddi | sandi | sori | sshli | sshri | smovk | smovz | slimm => exact ⟨_, rfl, h.uniform⟩
  | vmov | vadd | vsub | vadds | vsubs | vmul | vmulh | vmad | vmin | vmax | vabs | vneg | vabsd | vand | vor | vxor | vandn | vnot | vshl
  | vshr | vsar | vrol | vbfx | vbfi | vpopc | vclz | vbrev | vcmp | vsel | vqop | vaddi | vandi | vori | vxori | vshli | vshri | vsari
  | vmovi | vlimm | viota | vwrl | vvote | vballot | vmatch | vfirst | vactive => exact ⟨_, rfl, h.vecIssue⟩
  | fadd | fsub | fmul | fma | fms | fnma | fmin | fmax | fminn | fmaxn | fabs | fneg | fcps | fcmp | fclass | frnd | fdot2 | fdot4 | fscale
  | fgetx | fpivg | frcp | frsq | fsqrt | fdiv | fexp2 | flog2 | fsinp | fcosp | ftanh | cvt | cvts | fmaxx | vsettag | vgettag | sclget
  | flimm => exact ⟨_, rfl, h.vecIssue⟩
  | vqmov d a dir fs rx =>
    cases dir
    · exact ⟨_, rfl, h.vecIssue⟩
    · exact ⟨_, rfl, h.vecIssue⟩
  | srdl => exact ⟨_, rfl, h.checked fun h => h.raise.ite (h.checked fun h => h.same)⟩
  | sclset => exact ⟨_, rfl, h.checked fun h => h.logV fun h => h.same⟩
  | ld | lde | ldu | ldx | ldp => exact ⟨_, rfl, h.loadIssue⟩
  | st | ste | stu | stx | stp => exact ⟨_, rfl, h.storeIssue⟩
  | atom | atomc => exact ⟨_, rfl, h.atomIssue⟩
  | atomu => exact h.execAtomu
  | red => exact h.execRed
  | ord => exact h.execOrd
  | fence => exact h.execFence
  | cpin => exact h.execCpin
  | cpref => exact h.execCpref
  | cinv => exact h.execCinv
  | cunpin | trap | chunk | nop => exact ⟨_, rfl, h.same⟩
  | bra => exact ⟨_, rfl, h.same⟩
  | brz | brnz | brq => exact ⟨_, rfl, h.checked fun h => h.same⟩
  | jmpi => exact h.execJmpi
  | call => exact h.execCall
  | calli => exact h.execCalli
  | ret => exact h.execRet
  | exit => exact h.execExit
  | safept off => exact h.execSafept (off := off)
  | waitf => exact h.execWaitf
  | rep => exact h.execRep
  | brk => exact ⟨_, rfl, h.raise⟩
  | mfsr => exact h.execMfsr
  | mtsr => exact h.execMtsr
  | rft => exact h.execRft
  | tzero | tld | tst | tmma | tgang | tsweep | tred | tfact | ttrs | tmov | tscl => exact ⟨_, rfl, h.tenIssue⟩
  | spawn | spawnr | spawng => exact ⟨_, rfl, h.spawnIssue fun h => h.same⟩
  | sync => exact h.execSync
  | pgrd | pgkey | plog | chkst => exact ⟨_, rfl, h.checked fun h => h.same⟩
  | prng => exact h.execPrng
  | palloc => exact h.execPalloc
  | view => exact h.execView
  | rdacc => exact h.execRdacc
  | rdget => exact h.execRdget
  | bar | bara => exact ⟨_, rfl, h.barIssue⟩
  | barw => exact h.execBarw
  | bari => exact h.execBari
  | barb => exact h.execBarb
  | podBarrierMessage => exact h.execPodBarrierMessage
  | cpy | cpyf => exact ⟨_, rfl, h.copyIssue⟩
  | wtagany | wtagall | tagff | tagclr => exact ⟨_, rfl, h.tagIssue⟩
  | frontierSelection => exact ⟨_, rfl, h.onCrew State.Canonical.select⟩
  | redirectCompletion => exact ⟨_, rfl, h.mapCrew⟩
  | longLatencyCompletion => exact h.execLongLatencyCompletion
  | tableWalk => exact h.execTableWalk
  | sfuAcceptance => exact ⟨_, rfl, h.sfuAccept⟩
  | chunkCommit => exact ⟨_, rfl, h.chunkCommit⟩
  | softErrorFerry => exact ⟨_, rfl, h.softFerry⟩
  | landingRequest => exact ⟨_, rfl, h.landingRequest⟩
  | invalidation => exact ⟨_, rfl, h.invalidation⟩
  | exclusiveMode => exact ⟨_, rfl, h.exclusiveMode⟩
  | fenceWaitEnd => exact ⟨_, rfl, h.fenceWaitEnd⟩
  | linkTimeout => exact ⟨_, rfl, h.linkTimeout⟩
  | taskStart => exact ⟨_, rfl, h.taskStart⟩
  | windowPlacement => exact ⟨_, rfl, h.windowPlacement⟩
  | taskEnd => exact ⟨_, rfl, h.taskEnd⟩
  | steal => exact ⟨_, rfl, h.steal⟩
  | frameReady => exact ⟨_, rfl, h.frameReady⟩
  | hintQueueTake => exact ⟨_, rfl, h.hintTake⟩
  | gangStart => exact ⟨_, rfl, h.gangStart⟩
  | viewMerge => exact ⟨_, rfl, h.viewMerge⟩
  | userMergeRoutine => exact ⟨_, rfl, h.userMerge⟩
  | bargeCommandEntry => exact ⟨_, rfl, h.bargeEntry⟩
  | copyStart => exact h.execCopyStart
  | copyLineCommit => exact ⟨_, rfl, h.copyLine⟩
  | copyCompletion => exact h.execCopyCompletion
  | tagWaitCompletion => exact h.execTagWaitCompletion
  | tensorCommandEntry => exact ⟨_, rfl, h.tenEntry⟩
  | tensorCommandDispatch => exact ⟨_, rfl, h.tenDispatch⟩
  | tensorCommandCompletion => exact ⟨_, rfl, h.tenComplete⟩
  | latchPairing => exact ⟨_, rfl, h.latchPair⟩
  | launchStart => exact ⟨_, rfl, h.launchStart⟩
  | launchCompletion => exact ⟨_, rfl, h.launchCompletion⟩
  | preemptionRequest => exact ⟨_, rfl, h.preemptionRequest⟩
  | contextSave => exact ⟨_, rfl, h.contextSave⟩
  | stopTimeout => exact ⟨_, rfl, h.stopTimeout⟩
  | contextResume => exact ⟨_, rfl, h.contextResume⟩
  | rotationTick => exact ⟨_, rfl, h.rotationTick⟩
  | doorbell | bar0RegisterWrite | bar2Write | bar2Read | bar2AtomicOp | peerInboundAccess => exact ⟨_, rfl, h.outside⟩
  | keyload => exact ⟨_, rfl, h.command h.keyload⟩
  | keydestroy => exact ⟨_, rfl, h.command h.keydestroy⟩
  | preempt => exact ⟨_, rfl, h.command h.preempt⟩
  | checkpoint => exact ⟨_, rfl, h.command h.checkpoint⟩
  | checkpointCopyDone => exact ⟨_, rfl, h.copyDone⟩
  | restore => exact ⟨_, rfl, h.command h.restore⟩
  | fwstage => exact ⟨_, rfl, h.command h.fwstage⟩
  | fwactivate => exact ⟨_, rfl, h.command h.fwactivate⟩
  | sensors => exact ⟨_, rfl, h.command h.sensors⟩
  | window => exact ⟨_, rfl, h.command h.setWindow⟩
  | bar2set => exact ⟨_, rfl, h.command h.bar2set⟩
  | evread => exact ⟨_, rfl, h.command h.evread⟩
  | linkStateChange => exact ⟨_, rfl, h.linkChange⟩
  | dieFailure => exact ⟨_, rfl, h.dieFailure⟩
  | powerCap => exact ⟨_, rfl, h.powerCap⟩
  | thermalTrip => exact ⟨_, rfl, h.thermalTrip⟩
  | coldReset => exact ⟨_, rfl, s.coldReset_canonical⟩
  | warmReset => exact ⟨_, rfl, h.warmReset⟩

/-! The moves and the step -/

theorem State.Canonical.issueWord (h : s.Canonical) : Goes s.issueWord := by
  unfold State.issueWord
  split
  · exact ⟨_, rfl, h.raise⟩
  · split
    · exact ⟨_, rfl, h⟩
    · next i _ =>
      obtain ⟨t, e, ht⟩ := h.beforeWord.exec i
      rw [e]
      exact ⟨_, rfl, ht.afterWord⟩

theorem State.Canonical.issueOf {uid : Nat} (h : s.Canonical) : Goes (s.issueOf uid) := by
  unfold State.issueOf
  dsimp only
  split
  · exact h.turnTo.issueWord
  · exact ⟨_, rfl, h⟩

theorem State.Canonical.act (h : s.Canonical) (m : Move) : Goes (s.act m) := by
  cases m with
  | step i => exact h.exec i
  | issue => exact h.issueOf
  | streamVisible => exact ⟨_, rfl, h.streamVisible.settleOwed⟩
  | streamSeen => exact ⟨_, rfl, h.streamSeen.settleOwed⟩
  | acknowledge => exact ⟨_, rfl, h.acknowledge.settleOwed⟩
  | postError => exact ⟨_, rfl, h.postError⟩
  | inbound => exact ⟨_, rfl, h.inboundAgain⟩
  | softError => exact ⟨_, rfl, h.softError⟩
  | memError => exact ⟨_, rfl, h.memError⟩
  | firmwareMap => exact ⟨_, rfl, h.firmwareMap⟩
  | corrected | bootSplit | resizeBar2 => exact ⟨_, rfl, h.same⟩

theorem State.focusOn_stall (s : State) (uid : Nat) : (s.focusOn uid).stall = s.stall := by
  unfold State.focusOn
  split
  · rfl
  · split <;> rfl

/-- A move that is not taken leaves no read waiting that did not wait before. -/
theorem State.notTaken_stall (s : State) (m : Move) : (s.notTaken m).stall = s.stall := by
  unfold State.notTaken
  split
  · unfold State.onCrew
    split
    · rfl
    · rw [State.focusOn_stall]
      exact s.focusOn_stall _
  · rfl

/-- What a step does to canonical memory and to a waiting read. -/
def Settles (s : State) (o : Out) : Prop := ∃ t, o = .next t ∧ t.Canonical ∧ (s.stall = false → t.stall = false)

theorem State.Canonical.perform (h : s.Canonical) (m : Move) : Settles s (s.perform m) := by
  obtain ⟨t, e, ht⟩ := h.act m
  unfold State.perform
  rw [e]
  by_cases wait : t.stall
  · exact ⟨s.notTaken m, if_pos wait, h.notTaken, fun quiet => (s.notTaken_stall m).trans quiet⟩
  · exact ⟨t, if_neg wait, ht, fun _ => Bool.eq_false_iff.2 wait⟩

theorem State.idle_stall (s : State) : s.idle.stall = s.stall := by
  unfold State.idle
  split <;> rfl

theorem State.Canonical.auto (h : s.Canonical) : Settles s s.auto := by
  unfold State.auto
  split
  · exact h.perform _
  · exact ⟨_, rfl, h.idle, fun quiet => s.idle_stall.trans quiet⟩

theorem State.Canonical.step (h : s.Canonical) : Settles s (Machine.step s) := by
  unfold Machine.step
  split
  · exact State.Canonical.perform (.same h) _
  · exact h.auto

end

/-- Settles O58: every instruction and event answers a next state with canonical memory, and a move whose read waits is not taken. -/
theorem everyStepGoesOn : Obligations.EveryStepGoesOn := by
  unfold Obligations.EveryStepGoesOn
  intro s canonical
  exact State.Canonical.step canonical

end Sys2Proof.Machine
end

section
/-! PROOF. What a view folds (R295, R297, R305), with the exact values that sums and comparisons rest on. -/
namespace Sys2Proof.Machine
open Sys2Proof.Claims

/-! Views of a strand -/

section
variable (v : Views) (i j : Fin 16) (kind : Nat) (x y : ViewVal)

theorem Views.get_put_same : (v.put i x).get i = some x := by
  have others : (v.filter fun y => y.1 != i).find? (fun y => y.1 == i) = none := by simp
  simp [Views.get, Views.put, List.find?_append, others]

variable {i j} in
theorem Views.get_put_other (h : j ≠ i) : (v.put i x).get j = v.get j := by
  have kept : (v.filter fun y => y.1 != i).find? (fun y => y.1 == j) = v.find? fun y => y.1 == j := by
    rw [List.find?_filter]
    congr 1
    funext y
    by_cases e : y.1 = j <;> simp [e, h]
  simp [Views.get, Views.put, List.find?_append, kept, Ne.symm h]

variable {i j} in
theorem Views.get_fold_other (h : j ≠ i) : (v.fold kind i y).get j = v.get j := by
  unfold Views.fold
  split <;> exact v.get_put_other _ h

variable {v i} in
theorem Views.get_fold_untouched (h : v.get i = none) : (v.fold kind i y).get i = some y := by
  rw [Views.fold, h]
  exact v.get_put_same i y

variable {v i x} in
theorem Views.get_fold_touched (h : v.get i = some x) : (v.fold kind i y).get i = some (mergeView kind x y) := by
  rw [Views.fold, h]
  exact v.get_put_same i _

end

/-! Exact values of floats -/

/-- The number that a dyadic number stands for. -/
def Dy.rat (x : Dy) : ℚ := x.m * 2 ^ x.e

theorem pow_toNat_of_le {a b : ℤ} (h : a ≤ b) : ((2 ^ (b - a).toNat : ℕ) : ℚ) * 2 ^ a = 2 ^ b := by
  have e : ((b - a).toNat : ℤ) = b - a := Int.toNat_of_nonneg (by omega)
  rw [Nat.cast_pow, Nat.cast_ofNat, ← zpow_natCast, e, ← zpow_add₀ (by norm_num)]
  congr 1
  omega

/-- Both terms of a sum are brought to the smaller exponent. -/
theorem Dy.rat_add (x y : Dy) : (x.add y).rat = x.rat + y.rat := by
  unfold Dy.add Dy.rat
  dsimp only
  have hx : (if x.e ≤ y.e then x.e else y.e) ≤ x.e := by split <;> omega
  have hy : (if x.e ≤ y.e then x.e else y.e) ≤ y.e := by split <;> omega
  generalize (if x.e ≤ y.e then x.e else y.e) = e at hx hy
  rw [← pow_toNat_of_le hx, ← pow_toNat_of_le hy]
  push_cast
  ring

theorem rat_dy (n : Bool) (m : ℕ) (e : ℤ) : (FVal.num n m e).dy.rat = Claims.rat (.num n m e) := by
  cases n <;> simp [FVal.dy, Dy.rat, Claims.rat]

theorem Dy.rat_neg_iff (x : Dy) : x.rat < 0 ↔ x.m < 0 := by
  have p : (0 : ℚ) < 2 ^ x.e := by positivity
  rw [Dy.rat, mul_neg_iff, Int.cast_lt_zero]
  exact ⟨fun h => h.elim (fun h => absurd p h.2.not_gt) And.left, fun h => .inr ⟨h, p⟩⟩

theorem Dy.rat_zero_iff (x : Dy) : x.rat = 0 ↔ x.m = 0 := by
  have p : (2 : ℚ) ^ x.e ≠ 0 := by positivity
  rw [Dy.rat, mul_eq_zero_iff_right p, Int.cast_eq_zero]

/-- The sign of the exact difference orders two numbers. -/
theorem fcmp3_num (n k : Bool) (m m' : ℕ) (e e' : ℤ) :
    let a := FVal.num n m e
    let b := FVal.num k m' e'
    (fcmp3 a b < 0 ↔ Claims.rat a < Claims.rat b) ∧ (fcmp3 a b = 0 ↔ Claims.rat a = Claims.rat b) := by
  intro a b
  let d := Dy.add a.dy ⟨-b.dy.m, b.dy.e⟩
  have value : d.rat = Claims.rat a - Claims.rat b := by
    rw [Dy.rat_add, rat_dy, show Claims.rat b = b.dy.rat from (rat_dy ..).symm, sub_eq_add_neg]
    simp [Dy.rat, a]
  have cmp : fcmp3 a b = if d.m < 0 then -1 else if d.m = 0 then 0 else 1 := rfl
  rw [cmp, ← sub_neg (a := Claims.rat a), ← sub_eq_zero (a := Claims.rat a), ← value, d.rat_neg_iff, d.rat_zero_iff]
  split
  · omega
  · split <;> omega

theorem rat_nonpos (m : ℕ) (e : ℤ) : Claims.rat (.num true m e) ≤ 0 := by
  have p : (0 : ℚ) ≤ m * 2 ^ e := by positivity
  simp only [Claims.rat, if_true]
  linarith

theorem rat_nonneg (m : ℕ) (e : ℤ) : 0 ≤ Claims.rat (.num false m e) := by
  simp only [Claims.rat, Bool.false_eq_true, if_false, one_mul]
  positivity

/-- R155: the order of FMIN and FMAX is that of the values, with −0 below +0. -/
theorem fless_iff_below {x y : FVal} (hx : ¬ nan x) (hy : ¬ nan y) : fless x y = true ↔ below true x y := by
  cases x with
  | nan s => exact absurd ⟨s, rfl⟩ hx
  | inf n => cases y with
    | nan s => exact absurd ⟨s, rfl⟩ hy
    | inf k => cases n <;> cases k <;> simp [fless, fcmp3, below, FVal.sign]
    | num k m e => cases n <;> simp [fless, fcmp3, below]
  | num n m e => cases y with
    | nan s => exact absurd ⟨s, rfl⟩ hy
    | inf k => cases k <;> simp [fless, fcmp3, below]
    | num k m' e' =>
      obtain ⟨lt, eq⟩ := fcmp3_num n k m m' e e'
      have signs : (fless (.num n m e) (.num k m' e') = true) ↔ Claims.rat (.num n m e) < Claims.rat (.num k m' e') ∨
          (Claims.rat (.num n m e) = Claims.rat (.num k m' e') ∧ n = true ∧ k = false) := by
        rw [← lt, ← eq]
        simp [fless, FVal.sign, and_assoc]
      rw [signs]
      refine or_congr_right ⟨?_, ?_⟩
      · rintro ⟨same, rfl, rfl⟩
        have := rat_nonpos m e
        have := rat_nonneg m' e'
        exact ⟨rfl, by linarith, by linarith, rfl, rfl⟩
      · rintro ⟨-, zx, zy, hn, hk⟩
        exact ⟨zx.trans zy.symm, hn, hk⟩

theorem nan_iff (x : FVal) : nan x ↔ x.isNan = true := by
  cases x <;> simp [nan, FVal.isNan]

/-! Contributions -/

theorem Fmt.decode_exp {f : Fmt} {n m : ℕ} {neg : Bool} {e : ℤ} (h : f.decode n = .num neg m e) : f.emin - f.fb ≤ e := by
  unfold Fmt.decode at h
  dsimp only at h
  split at h
  · split at h <;> cases h
  · split at h
    · cases h
      exact le_refl _
    · cases h
      omega

/-- The units of the exact sums: every value of a format that such a sum takes is a multiple (R295). -/
theorem sum_unit {T : Fin 16} (hT : T ∈ [tF32, tF16, tBF16, tF64]) {n m : ℕ} {neg : Bool} {e : ℤ}
    (h : fdecode T 0 n = .num neg m e) : 0 ≤ e + (if (T == tF64) = true then 1074 else 149 : ℕ) := by
  simp only [List.mem_cons, List.not_mem_nil, or_false] at hT
  obtain rfl | rfl | rfl | rfl := hT
  all_goals
    have := Fmt.decode_exp (show Fmt.decode _ n = .num neg m e from h)
    simp [Fmt.emin, Fmt.bias, tF32, tF16, tBF16, tF64] at this ⊢
    omega

/-- A magnitude in units of 2^-u, with its sign. -/
theorem rat_units {neg : Bool} {m u : ℕ} {e : ℤ} (h : 0 ≤ e + u) :
    (((if neg then -((m * 2 ^ (e + u).toNat : ℕ) : ℤ) else ((m * 2 ^ (e + u).toNat : ℕ) : ℤ)) : ℤ) : ℚ) = rat (.num neg m e) * 2 ^ u := by
  have scaled : (((m * 2 ^ (e + u).toNat : ℕ) : ℤ) : ℚ) = m * 2 ^ e * 2 ^ u := by
    have := pow_toNat_of_le (a := 0) h
    rw [sub_zero, zpow_zero, mul_one] at this
    rw [Int.cast_natCast, Nat.cast_mul, this, zpow_add₀ (by norm_num), zpow_natCast, mul_assoc]
  cases neg
  · simpa [rat] using scaled
  · simpa [rat] using scaled

theorem esumOne_num {big neg : Bool} {m : ℕ} {e : ℤ} (h : 0 ≤ e + (if big then 1074 else 149 : ℕ)) :
    ∃ k : ℤ, (k : ℚ) = rat (.num neg m e) * 2 ^ (if big then 1074 else 149) ∧
      esumOne big (.num neg m e) =
        if big then .esum64 (BitVec.ofInt 2176 k) false false false else .esum32 (BitVec.ofInt 320 k) false false false := by
  cases big
  · exact ⟨_, rat_units h, rfl⟩
  · exact ⟨_, rat_units h, rfl⟩

theorem pickOne_nan {x ix : BitVec 32} (h : nan (fdecode tF32 0 x.toNat)) : pickOne x ix = .pick 0x7FC00000 ix true :=
  if_pos ((nan_iff _).1 h)

theorem pickOne_number {x ix : BitVec 32} (h : ¬ nan (fdecode tF32 0 x.toNat)) : pickOne x ix = .pick x ix false :=
  if_neg fun c => h ((nan_iff _).2 c)

/-- R297: of two views of MINP or MAXP the right one stands where it alone holds a number, or where both do and it is better. -/
theorem mergeView_pick (kind : ℕ) (a b ia ib : BitVec 32) (m n : Bool)
    (number : m = false → n = false → ¬ nan (fdecode tF32 0 a.toNat) ∧ ¬ nan (fdecode tF32 0 b.toNat)) :
    let less := fun (p q : BitVec 32) => below true (fdecode tF32 0 p.toNat) (fdecode tF32 0 q.toNat)
    let wins := (m = true ∧ n = false) ∨ (m = false ∧ n = false ∧ if kind = 5 then less a b else less b a)
    (wins → mergeView kind (.pick a ia m) (.pick b ib n) = .pick b ib n) ∧
      (¬ wins → mergeView kind (.pick a ia m) (.pick b ib n) = .pick a ia m) := by
  intro less wins
  let better := if kind = 5 then fless (fdecode tF32 0 a.toNat) (fdecode tF32 0 b.toNat)
    else fless (fdecode tF32 0 b.toNat) (fdecode tF32 0 a.toNat)
  have merged : mergeView kind (.pick a ia m) (.pick b ib n) =
      if ((m && !n) || (!m && !n && better)) = true then .pick b ib n else .pick a ia m := rfl
  have decided : ((m && !n) || (!m && !n && better)) = true ↔ wins := by
    cases n with
    | true => simp [wins]
    | false => cases m with
      | true => simp [wins]
      | false =>
        obtain ⟨ha, hb⟩ := number rfl rfl
        by_cases five : kind = 5
        · simp [wins, better, less, five, fless_iff_below ha hb]
        · simp [wins, better, less, five, fless_iff_below hb ha]
  rw [merged]
  exact ⟨fun h => if_pos (decided.2 h), fun h => if_neg fun c => h (decided.1 c)⟩

theorem reducerFolds : ReducerFolds := by
  unfold ReducerFolds
  intro kind i j v x y
  refine ⟨v.get_fold_other kind y, Views.get_fold_untouched kind y, Views.get_fold_touched kind y, fun _ _ _ _ _ _ _ _ => rfl,
    fun _ _ _ _ _ _ _ _ => rfl, fun _ _ => rfl, fun a b ia ib m n => mergeView_pick kind a b ia ib m n, fun n => ⟨?_, fun ix => ⟨?_, ?_⟩⟩⟩
  · intro T hT z big
    refine ⟨?_, ?_, ?_⟩
    · rintro ⟨sn, e⟩
      rw [e]
      rfl
    · intro neg e
      rw [e]
      rfl
    · intro neg m e h
      rw [h]
      exact esumOne_num (sum_unit hT h)
  · intro h
    exact pickOne_nan (by rwa [BitVec.toNat_ofNat])
  · intro h
    exact pickOne_number (by rwa [BitVec.toNat_ofNat])

end Sys2Proof.Machine
end

section
/-! PROOF. The view store (R10, R298): what the use of a view leaves in it. -/
namespace Sys2Proof.Machine
open Sys2Proof.Claims

variable {s t : State} {core : Nat}

/-- The bytes of a view's image, 0 where the crew has no such view. -/
def State.viewSize (s : State) (x : Nat × Fin 16) : Nat := ((s.viewOf x).map fun v => v.image.length).getD 0

/-- The touched views that a core's store holds. -/
def State.storedViews (s : State) (core : Nat) : List (Nat × Fin 16) := (s.coreAt core).viewStore.filter fun x => (s.viewOf x).isSome

/-- Their bytes are within the store's 64 KiB. -/
def State.viewsFit (s : State) (core : Nat) : Prop := ((s.storedViews core).map s.viewSize).sum ≤ 2 ^ 16

/-- The views of a core's store are those of the list. -/
def State.setStore (s : State) (core : Nat) (l : List (Nat × Fin 16)) : State := s.mapCore core fun c => { c with viewStore := l }

/-- A core that exists holds the list; of another nothing is held. -/
theorem State.setStore_viewStore (s : State) (core : Nat) (l : List (Nat × Fin 16)) :
    ((s.setStore core l).coreAt core).viewStore = l ∨ ((s.setStore core l).coreAt core).viewStore = [] := by
  rcases Nat.lt_or_ge core s.cores.length with h | h
  · left
    simp [State.setStore, State.coreAt, State.mapCore, List.getD_eq_getElem?_getD, h]
  · right
    simp [State.setStore, State.coreAt, State.mapCore, List.getD_eq_getElem?_getD, h, Core.reset]

theorem State.evictViews_fit {fuel : Nat} (h : s.viewsFit core) :
    s.evictViews core (fuel + 1) = (s.setStore core (s.storedViews core), true) := if_pos h

/-- One view more leaves the store, the last of those that it holds. -/
theorem State.evictViews_evict {fuel : Nat} (h : ¬ s.viewsFit core) (done : s.evictViews core (fuel + 1) = (t, true)) :
    ∃ u : State, (u.setStore core (s.storedViews core).dropLast).evictViews core fuel = (t, true) := by
  have step : s.evictViews core (fuel + 1) = match (s.storedViews core).getLast? with
      | none => (s, true)
      | some x => match s.spillView x with
        | (s', false) => (s', false)
        | (s', true) => (s'.setStore core (s.storedViews core).dropLast).evictViews core fuel := if_neg h
  rw [step] at done
  split at done
  · rename_i none
    exact absurd (show s.viewsFit core by simp [State.viewsFit, List.getLast?_eq_none_iff.1 none]) h
  · split at done
    · cases done
    · exact ⟨_, done⟩

/-- Evictions that end with room leave the store within its size: each takes one view, so that they end before the fuel does. -/
theorem State.evictViews_room {fuel : Nat} (enough : (s.coreAt core).viewStore.length < fuel)
    (done : s.evictViews core fuel = (t, true)) : ((t.coreAt core).viewStore.map t.viewSize).sum ≤ 2 ^ 16 := by
  induction fuel generalizing s with
  | zero => exact absurd enough (Nat.not_lt_zero _)
  | succ fuel ih =>
    by_cases fits : s.viewsFit core
    · rw [State.evictViews_fit fits] at done
      cases done
      rcases s.setStore_viewStore core (s.storedViews core) with e | e
      · rw [e]
        exact fits
      · simp [e]
    · obtain ⟨u, rest⟩ := State.evictViews_evict fits done
      refine ih ?_ rest
      have shorter : (s.storedViews core).length ≤ (s.coreAt core).viewStore.length := List.length_filter_le _ _
      have nonempty : s.storedViews core ≠ [] := fun e => fits (by simp [State.viewsFit, e])
      have := List.length_pos_iff.2 nonempty
      rcases u.setStore_viewStore core (s.storedViews core).dropLast with e | e
      · rw [e, List.length_dropLast]
        omega
      · rw [e, List.length_nil]
        omega

/-- What the use of a view does first: its frame is free, and it stands first in its core's store. -/
def State.viewFirst (s : State) (i : Fin 16) : State :=
  let s' := s.freeFrames s.focus.task.launch s.focus.uid (· == .view i)
  s'.mapCore s.focus.core fun k => { k with viewStore := (s.focus.uid, i) :: k.viewStore.filter fun x => x != (s.focus.uid, i) }

theorem State.useView_untouched {i : Fin 16} (h : s.focus.r.views.get i = none) : s.useView i = (s, true) := by
  simp [State.useView, h]

theorem State.useView_touched {i : Fin 16} (h : s.focus.r.views.get i ≠ none) :
    s.useView i = (s.viewFirst i).evictViews s.focus.core (((s.viewFirst i).coreAt s.focus.core).viewStore.length + 1) :=
  if_neg (by simpa using h)

/-- The views of the store once a view of the crew in focus stands first in it. -/
def State.storeWith (s : State) (i : Fin 16) : List (Nat × Fin 16) :=
  ((s.focus.uid, i) :: (s.coreAt s.focus.core).viewStore.filter (· ≠ (s.focus.uid, i))).filter fun x => (s.viewOf x).isSome

theorem State.viewFirst_storedViews (s : State) (i : Fin 16) (h : s.focus.core < s.cores.length) :
    (s.viewFirst i).storedViews s.focus.core = s.storeWith i := by
  have first : ((s.viewFirst i).coreAt s.focus.core).viewStore =
      (s.focus.uid, i) :: (s.coreAt s.focus.core).viewStore.filter (· ≠ (s.focus.uid, i)) := by
    simp [State.viewFirst, State.freeFrames, State.mapLaunch, State.mapCore, State.coreAt, List.getD_eq_getElem?_getD, h, bne, beq_eq_decide]
  rw [State.storedViews, first]
  rfl

/-- Without the core there is no store. -/
theorem State.viewFirst_noStore (s : State) (i : Fin 16) (h : s.cores.length ≤ s.focus.core) :
    (s.viewFirst i).storedViews s.focus.core = [] := by
  simp [State.storedViews, State.viewFirst, State.freeFrames, State.mapLaunch, State.mapCore, State.coreAt, List.getD_eq_getElem?_getD, h,
    Core.reset]

/-- The frame of a view of the crew in focus is free. -/
def State.freeView (s : State) (i : Fin 16) : List Launch :=
  s.sched.launches.map fun x => if x.uid = s.focus.task.launch then
    { x with frames := x.frames.filter fun f => !(f.crew == s.focus.uid && f.use == .view i) } else x

theorem State.useView_room {i : Fin 16} (touched : s.focus.r.views.get i ≠ none) (room : ((s.storeWith i).map s.viewSize).sum ≤ 2 ^ 16) :
    s.useView i = ({ s with
      cores := s.cores.modify s.focus.core fun k => { k with viewStore := s.storeWith i }
      sched := { s.sched with launches := s.freeView i } }, true) := by
  rw [State.useView_touched touched]
  rcases Nat.lt_or_ge s.focus.core s.cores.length with h | h
  · have stored := s.viewFirst_storedViews i h
    have fits : (s.viewFirst i).viewsFit s.focus.core := by
      rw [State.viewsFit, stored]
      exact room
    rw [State.evictViews_fit fits, stored]
    simp [State.setStore, State.viewFirst, State.freeFrames, State.freeView, State.mapLaunch, State.mapCore, List.modify_modify_eq, Function.comp_def]
  · have stored := s.viewFirst_noStore i h
    have fits : (s.viewFirst i).viewsFit s.focus.core := by simp [State.viewsFit, stored]
    rw [State.evictViews_fit fits]
    simp [State.setStore, State.viewFirst, State.freeFrames, State.freeView, State.mapLaunch, State.mapCore, List.modify_eq_self h]

theorem viewStore : ViewStore := by
  unfold ViewStore
  intro s t i c size l
  refine ⟨State.useView_untouched, fun touched => ⟨State.useView_room touched, fun done => ?_⟩⟩
  rw [State.useView_touched touched] at done
  exact State.evictViews_room (Nat.lt_succ_self _) done

end Sys2Proof.Machine
end

section
/-! PROOF. VIEW, RDACC and RDGET (R304 to R306). -/
namespace Sys2Proof.Machine
open Sys2Proof.Claims

section
variable {s t : State} {i : Fin 16} {a b d : Fin 64} {e : RedEntry}

/-! What the words have in common -/

theorem State.redtab_of_redEntry (h : s.redEntry i = some e) : s.focus.r.redtab ≠ 0 := by
  intro none
  simp [State.redEntry, none] at h

theorem State.redAddr_of_redEntry (h : s.redEntry i = some e) :
    s.focus.r.redAddr i = s.focus.r.redtab + BitVec.ofNat 64 (32 * i.val) := if_neg (State.redtab_of_redEntry h)

theorem checked_free {uses : List Use} (k : State → State) (h : ∀ u ∈ uses, FreeIn s u.file u.num u.lanes) :
    checked uses s k = k s := checked_clear k ((Regs.hazard_none _ _).2 h)

/-- A word that acts on a view runs as ViewRuns says. -/
theorem viewRuns_withView {w : Instr} {addr : Dword} {f : State → State} (run : exec w s = .next (t.withView i addr f)) :
    ViewRuns w s (f t) i addr := by
  refine ⟨fun u h => ?_, fun u h => ?_⟩
  · rw [Runs, run, State.withView, h]
  · rw [Runs, run, State.withView, h]
    rfl

/-! VIEW -/

/-- The effect of a word that fits its reducer's kind. -/
theorem checked_fits {uses : List Use} {fits : Bool} {f g : State → State} (free : ∀ u ∈ uses, FreeIn s u.file u.num u.lanes)
    (h : fits = true) : checked uses s (fun s => if !fits then f s else g s) = g s := by
  rw [checked_free _ free, h]
  rfl

theorem checked_unfit {uses : List Use} {fits : Bool} {f g : State → State} (free : ∀ u ∈ uses, FreeIn s u.file u.num u.lanes)
    (h : fits = false) : checked uses s (fun s => if !fits then f s else g s) = f s := by
  rw [checked_free _ free, h]
  rfl

/-- The registers of `view.add` are free where those that its kind reads are. -/
theorem viewUses_add {kind : Nat} (ha : NoMark s .s a.val) (hb : kind = 4 ∨ kind = 5 → NoMark s .s b.val) :
    ∀ u ∈ viewUses 0 kind a b s.lanes, FreeIn s u.file u.num u.lanes := by
  intro u hu
  rcases List.mem_cons.1 hu with rfl | hu
  · exact ha
  · by_cases pair : kind = 4 ∨ kind = 5
    · obtain rfl : u = ⟨.s, b.val, s.lanes⟩ := by simpa [pair] using hu
      exact hb pair
    · simp [pair] at hu

theorem view_add (declared : s.redEntry i = some e) (low : 1 ≤ e.kind) (high : e.kind ≤ 5) (ha : NoMark s .s a.val)
    (hb : e.kind = 4 ∨ e.kind = 5 → NoMark s .s b.val) :
    ViewRuns (.view i a b 0) s
      (withViews s (s.focus.r.views.fold e.kind i (addView e.kind (s.focus.r.readS a) (s.focus.r.readS b)))) i (s.focus.r.redAddr i) := by
  refine viewRuns_withView (f := fun s => s.foldView e.kind i (addView e.kind (s.focus.r.readS a) (s.focus.r.readS b))) ?_
  change execView i a b 0 s = _
  rw [execView, declared]
  exact congrArg Host.Outcome.next (checked_fits (viewUses_add ha hb) (by simp [viewFits, low, high]))

theorem view_add_unfit (declared : s.redEntry i = some e) (kind : e.kind = 6 ∨ e.kind = 7) (ha : NoMark s .s a.val) :
    Runs (.view i a b 0) s (s.raiseView (s.focus.r.redAddr i)) := by
  have unpaired : ¬ (e.kind = 4 ∨ e.kind = 5) := by omega
  change execView i a b 0 s = _
  rw [execView, declared]
  exact congrArg Host.Outcome.next (checked_unfit (viewUses_add ha fun h => absurd h unpaired) (by rcases kind with h | h <;> simp [viewFits, h]))

/-- The check of a store changes nothing of the crew in focus. -/
theorem forStore_focus {note : Bool} (w : Want) (s : State) : (forStore note w s).1.focus = s.focus := by
  have located := (translated_locate s s.focus w.lane ⟨false, true, false⟩ w.addr w.size).focus
  unfold forStore State.probe
  split
  · rename_i s' f h
    rw [h] at located
    exact located
  · rename_i s' l page h
    rw [h] at located
    simpa using located

theorem notePages_acts (ps : List (Want × Probe)) (c : Chunk) : (notePages ps c).acts = c.acts := rfl

theorem chunkFrame_act (ps : List (Want × Probe)) (c : Chunk) (o : Origin) (k : ActKind) : ChunkFrame c ((notePages ps c).act o k) := by
  simp [ChunkFrame, notePages, Chunk.uses, Chunk.act]

/-- A single access of a store whose checks pass goes on at its location, with the traces of its page in the chunk. -/
theorem access_probed {w : Want} {s1 : State} {ls : List Loc} (h : Probed forStore s s1 [w] ls) (k : List (Want × Loc) → State → State) :
    s1.focus = s.focus ∧ ∃ l ps, s.access ⟨false, true, false⟩ false noExtra [w] k = k [(w, l)] (s1.mapChunk (notePages ps)) := by
  obtain ⟨hl, pages, hp, probed⟩ := h
  obtain ⟨l, rfl⟩ := List.length_eq_one_iff.1 hl
  obtain ⟨page, rfl⟩ := List.length_eq_one_iff.1 hp
  have one : probeEach forStore true [w] s = ((forStore true w s).1, [(w, (forStore true w s).2)]) := rfl
  have all : s.probeAll ⟨false, true, false⟩ false [w] = (s1, [(w, .ok l page)]) := probed
  have moved : (forStore true w s).1 = s1 := congrArg Prod.fst (one.symm.trans probed)
  refine ⟨moved ▸ forStore_focus w s, l, [(w, .ok l page)], ?_⟩
  rw [State.access, all]
  rfl

/-- The step-6 action of `view.app`: the descriptor of the segment, behind the list's tail (R304). -/
def State.appAction (s : State) (i : Fin 16) (a b : Fin 64) : ActKind :=
  .viewApp (s.focus.r.readS a) (s.focus.r.readS b) (s.focus.r.readS (b + 1))
    (match s.focus.r.views.get i with | some (.app _ tl _ _) => some tl | _ => none)

/-- What `view.app` of `s` does to a state: its action joins the chunk, its segment the view. -/
def State.appended (s : State) (i : Fin 16) (a b : Fin 64) (t : State) : State :=
  (t.mapChunk (Chunk.act t.origin (s.appAction i a b))).foldView 6 i
    (.app (s.focus.r.readS a) (s.focus.r.readS a) (s.focus.r.readS (b + 1)) 1)

/-- R304: past the check of its alignment, `view.app` is an access of a store to the descriptor. -/
theorem State.viewApp_aligned (h : (s.focus.r.readS a).toNat % 32 = 0) : s.viewApp i a b =
    s.access ⟨false, true, false⟩ false noExtra [⟨none, s.focus.r.readS a, 32, 0⟩] fun _ t =>
      t.withView i (s.focus.r.redAddr i) (s.appended i a b) := by
  unfold State.viewApp
  simp only [h, ne_eq, not_true_eq_false, if_false]
  rfl

/-- R304: the segment of `view.app`, whose descriptor is written in step 6, joins the crew's list. -/
theorem view_app (declared : s.redEntry i = some e) (kind : e.kind = 6) (free : AllFree s [a, b, b + 1]) {s1 : State} {ls : List Loc}
    (aligned : (s.focus.r.readS a).toNat % 32 = 0) (probed : Probed forStore s s1 [⟨none, s.focus.r.readS a, 32, 0⟩] ls) :
    ∃ ch, ViewRuns (.view i a b 1) s { s1 with focus := { s1.focus with
        r := { s.focus.r with views := s.focus.r.views.fold 6 i (.app (s.focus.r.readS a) (s.focus.r.readS a) (s.focus.r.readS (b + 1)) 1) }
        chunk := ch } } i (s.focus.r.redAddr i) ∧
      ChunkFrame s.focus.chunk ch ∧ ch.acts = s.focus.chunk.acts ++ [⟨s.origin, .viewApp (s.focus.r.readS a) (s.focus.r.readS b)
        (s.focus.r.readS (b + 1)) (match s.focus.r.views.get i with | some (.app _ tl _ _) => some tl | _ => none)⟩] := by
  have uses : ∀ u ∈ viewUses 1 e.kind a b s.lanes, FreeIn s u.file u.num u.lanes := by
    intro u hu
    simp only [viewUses, List.mem_cons, List.not_mem_nil, or_false] at hu
    obtain rfl | rfl | rfl := hu
    · exact free a (by simp)
    · exact free b (by simp)
    · exact free (b + 1) (by simp)
  obtain ⟨same, l, ps, goes⟩ := access_probed probed fun _ s1 => s1.withView i (s.focus.r.redAddr i) (s.appended i a b)
  refine ⟨((notePages ps s1.focus.chunk).act s.origin (s.appAction i a b)), ?_, ?_, ?_⟩
  · have run : exec (.view i a b 1) s = .next ((s1.mapChunk (notePages ps)).withView i (s.focus.r.redAddr i) (s.appended i a b)) := by
      change execView i a b 1 s = _
      rw [execView, declared]
      refine congrArg Host.Outcome.next ((checked_fits uses (by simp [viewFits, kind])).trans ?_)
      exact (State.viewApp_aligned aligned).trans goes
    have folded : s.appended i a b (s1.mapChunk (notePages ps)) = { s1 with focus := { s1.focus with
        r := { s.focus.r with views := s.focus.r.views.fold 6 i (.app (s.focus.r.readS a) (s.focus.r.readS a) (s.focus.r.readS (b + 1)) 1) }
        chunk := (notePages ps s1.focus.chunk).act s.origin (s.appAction i a b) } } := by
      have origin : (s1.mapChunk (notePages ps)).origin = s.origin := by simp [State.origin, State.clause, same]
      rw [State.appended, origin]
      simp [State.foldView, State.mapR, State.mapChunk, same]
    rw [← folded]
    exact viewRuns_withView run
  · rw [same]
    exact chunkFrame_act _ _ _ _
  · rw [same]
    exact congrArg (· ++ _) (notePages_acts ps _)

/-- Fields at their places fill a bit vector of just their width. -/
theorem toNat_places (w n : Nat) (f : Nat → Nat) (h : ∀ k < n, f k < 2 ^ w) :
    (BitVec.ofNat (w * n) ((List.range n).map fun k => f k * 2 ^ (w * k)).sum).toNat = ((List.range n).map fun k => f k * 2 ^ (w * k)).sum := by
  rw [BitVec.toNat_ofNat]
  exact Nat.mod_eq_of_lt (places_lt w n f h)

theorem Regs.userImage_dword (r : Regs) (a : Fin 64) {j : Nat} (h : j < 8) :
    (r.userImage a).extractLsb' (64 * j) 64 = r.readS (a + ⟨j % 64, Nat.mod_lt _ (by decide)⟩) := by
  have small : ∀ k < 8, (r.readS (a + fin 64 k)).toNat < 2 ^ 64 := fun k _ => BitVec.isLt _
  have image : (r.userImage a).toNat = ((List.range 8).map fun k => (r.readS (a + fin 64 k)).toNat * 2 ^ (64 * k)).sum :=
    toNat_places 64 8 (fun k => (r.readS (a + fin 64 k)).toNat) small
  apply BitVec.eq_of_toNat_eq
  rw [BitVec.extractLsb'_toNat, image, Nat.shiftRight_eq_div_pow]
  exact places_get 64 8 (fun k => (r.readS (a + fin 64 k)).toNat) small j h

/-- The eight registers of `view.usr` are those of its group. -/
theorem viewUses_usr {kind : Nat} (free : AllFree s (group a 8)) : ∀ u ∈ viewUses 2 kind a b s.lanes, FreeIn s u.file u.num u.lanes := by
  intro u hu
  obtain ⟨k, hk, rfl⟩ := List.mem_map.1 hu
  refine free (a + ⟨k % 64, Nat.mod_lt _ (by decide)⟩) (List.mem_map.2 ⟨k, hk, rfl⟩) |> fun h => ?_
  have num : (a + ⟨k % 64, Nat.mod_lt _ (by decide)⟩ : Fin 64).val = (a.val + k) % 64 := by simp [Fin.val_add]
  rwa [num] at h

theorem view_usr_untouched (declared : s.redEntry i = some e) (kind : e.kind = 7) (free : AllFree s (group a 8))
    (untouched : s.focus.r.views.get i = none) :
    ViewRuns (.view i a b 2) s (withViews s (s.focus.r.views.fold 7 i (.usr (s.focus.r.userImage a)))) i (s.focus.r.redAddr i) := by
  refine viewRuns_withView (f := fun s => s.foldView 7 i (.usr (s.focus.r.userImage a))) ?_
  change execView i a b 2 s = _
  rw [execView, declared]
  refine congrArg Host.Outcome.next ((checked_fits (viewUses_usr free) (by simp [viewFits, kind])).trans ?_)
  simp only [State.viewUsr, untouched]

/-- R301: into a touched view the launch's routine has to merge; the word waits. -/
theorem view_usr_touched (declared : s.redEntry i = some e) (kind : e.kind = 7) (free : AllFree s (group a 8))
    (touched : s.focus.r.views.get i ≠ none) : Runs (.view i a b 2) s s.hold := by
  obtain ⟨v, view⟩ := Option.ne_none_iff_exists'.1 touched
  change execView i a b 2 s = _
  rw [execView, declared]
  refine congrArg Host.Outcome.next ((checked_fits (viewUses_usr free) (by simp [viewFits, kind])).trans ?_)
  simp only [State.viewUsr, view]

/-! RDACC -/

/-- The two readings of an integer element (R114). -/
theorem elemInt_eq_intOf (T : Fin 16) {x : Nat} (h : x < 2 ^ tagWidth T) : elemInt T x = intOf T x := by
  have half : 2 ^ tagWidth T = 2 * 2 ^ (tagWidth T - 1) := by
    rw [← Nat.pow_succ']
    congr 1
    have := (tag_split T).2.2.1
    omega
  unfold elemInt intOf signedOf
  split
  · rw [BitVec.toInt_eq_toNat_cond, BitVec.toNat_ofNat, Nat.mod_eq_of_lt h]
    split <;> split <;> first | rfl | omega
  · rfl

/-- R305: the threads with an active position are those whose list of active positions holds one. -/
theorem rdaccLanes_eq (r : Regs) (g : Guard) (l : List (Fin 32)) :
    rdaccLanes r g a l = l.filter fun t => (List.range (tagCount (r.readV a t).tag)).any (posActive r g (tagCount (r.readV a t).tag) t) := by
  refine List.filter_congr fun t _ => ?_
  rw [Bool.eq_iff_iff, Bool.not_eq_true', List.isEmpty_eq_false_iff_exists_mem, List.any_eq_true]
  simp [activePos]

theorem rdacc_runs {g : Guard} (declared : s.redEntry i = some e) (low : 1 ≤ e.kind) (high : e.kind ≤ 5) (hq : NoMark s .q g.q.val)
    (ha : FreeIn s .v a.val (rdaccLanes s.focus.r g a s.lanes))
    (hb : e.kind = 4 ∨ e.kind = 5 → FreeIn s .v b.val (rdaccLanes s.focus.r g a s.lanes))
    (tags : ∀ t ∈ rdaccLanes s.focus.r g a s.lanes, rdaccTag e.kind (s.focus.r.readV a t).tag = true ∧
      (e.kind = 4 ∨ e.kind = 5 → (s.focus.r.readV b t).tag = 7)) :
    ViewRuns (.rdacc i a b g.q g.neg) s (withViews s ((rdaccAll s.focus.r e.kind g a b (rdaccLanes s.focus.r g a s.lanes)).foldl
      (fun v y => v.fold e.kind i y) s.focus.r.views)) i 0 := by
  let act := rdaccLanes s.focus.r g a s.lanes
  refine viewRuns_withView (f := fun s' => s'.mapR fun r' => { r' with
    views := (rdaccAll s.focus.r e.kind g a b act).foldl (fun v y => v.fold e.kind i y) r'.views }) ?_
  change execRdacc i a b g.q g.neg s = _
  have uses : ∀ u ∈ (⟨.q, g.q.val, s.lanes⟩ :: ⟨.v, a.val, act⟩ :: if (e.kind == 4 || e.kind == 5) = true then [⟨.v, b.val, act⟩] else [] : List Use),
      FreeIn s u.file u.num u.lanes := by
    intro u hu
    rcases List.mem_cons.1 hu with rfl | hu
    · exact hq
    · rcases List.mem_cons.1 hu with rfl | hu
      · exact ha
      · by_cases pair : e.kind = 4 ∨ e.kind = 5
        · obtain rfl : u = ⟨.v, b.val, act⟩ := by simpa [pair] using hu
          exact hb pair
        · simp [pair] at hu
  have folds : ¬ (e.kind == 0 || e.kind == 6 || e.kind == 7) = true := by
    simp only [Bool.or_eq_true, beq_iff_eq]
    omega
  have accepted : (act.all fun t => rdaccTag e.kind (s.focus.r.readV a t).tag &&
      (!(e.kind == 4 || e.kind == 5) || (s.focus.r.readV b t).tag == 7)) = true := by
    rw [List.all_eq_true]
    intro t ht
    obtain ⟨hA, hB⟩ := tags t ht
    by_cases pair : e.kind = 4 ∨ e.kind = 5
    · simp [hA, hB pair]
    · obtain ⟨four, five⟩ := not_or.1 pair
      simp [hA, four, five]
  simp only [execRdacc, declared, Option.map_some, Option.getD_some]
  exact congrArg Host.Outcome.next ((checked_free _ uses).trans ((if_neg folds).trans (if_pos accepted)))

/-! RDGET -/

theorem joinedAll_iff (pg : List Level) : joinedAll pg = true ↔ (lastLevel pg).rank = (lastLevel pg).mark := by
  unfold joinedAll lastLevel
  cases pg.getLast? <;> simp

/-- The registers that RDGET writes, where all of them exist (R306). -/
theorem rdget_group {n : Nat} (h : d.val + n ≤ 64) :
    ((List.range n).filterMap fun k => if h : d.val + k < 64 then some (⟨d.val + k, h⟩ : Fin 64) else none) = group d n := by
  have all : ∀ k ∈ List.range n, (if h : d.val + k < 64 then some (⟨d.val + k, h⟩ : Fin 64) else none) =
      some (d + ⟨k % 64, Nat.mod_lt _ (by decide)⟩) := by
    intro k hk
    have := List.mem_range.1 hk
    have inside : d.val + k < 64 := by omega
    rw [dif_pos inside]
    congr 1
    apply Fin.ext
    simp [Fin.val_add]
    omega
  rw [List.filterMap_congr all, List.filterMap_eq_map']
  rfl

/-- What RDGET holds: the registers of its group are marked, and take the view's reading as its flag clears (R306). -/
def State.holdReading (s : State) (d : Fin 64) (kind : Nat) (fs : Bool) (x : List Dword × FpFlags) : State :=
  s.holdResult (s.clause.flag fs) .plain ((group d (viewRegs kind)).map .s) s.lanes
    (((group d (viewRegs kind)).zip x.1).map fun w => RegWrite.s w.1 w.2) x.2

theorem rdget_runs {fs : Bool} (declared : s.redEntry i = some e) (low : 1 ≤ e.kind) (free : AllFree s (group d (viewRegs e.kind)))
    (inside : d.val + viewRegs e.kind ≤ 64) (joined : (lastLevel s.focus.r.pedigree).rank = (lastLevel s.focus.r.pedigree).mark) :
    ViewRuns (.rdget d i fs) s (s.holdReading d e.kind fs (readView e.kind (s.focus.r.views.get i))) i 0 := by
  refine viewRuns_withView (f := fun s' => s'.holdReading d e.kind fs (readView e.kind (s.focus.r.views.get i))) ?_
  have uses : ∀ u ∈ (group d (viewRegs e.kind)).map fun x => (⟨.s, x.val, s.lanes⟩ : Use), FreeIn s u.file u.num u.lanes := by
    intro u hu
    obtain ⟨y, hy, rfl⟩ := List.mem_map.1 hu
    exact free y hy
  have reads : ¬ (e.kind == 0 || decide (64 < d.val + viewRegs e.kind) || !joinedAll s.focus.r.pedigree) = true := by
    rw [(joinedAll_iff _).2 joined]
    simp only [Bool.or_eq_true, beq_iff_eq, decide_eq_true_eq, Bool.not_true, Bool.false_eq_true, or_false]
    omega
  change execRdget d i fs s = _
  simp only [execRdget, declared, Option.map_some, Option.getD_some, rdget_group inside]
  exact congrArg Host.Outcome.next ((checked_free _ uses).trans (if_neg reads))

end

/-- The contribution of `view.add`, by kind (R304). -/
theorem addView_by_kind {k : Nat} (low : 1 ≤ k) (high : k ≤ 5) (a b : Dword) : addView k a b =
    if k = 3 then .isum (a.signExtend 128)
    else if k = 4 ∨ k = 5 then pickOne (a.truncate 32) (b.truncate 32)
    else if k = 2 then esumOne true (fdecode tF64 0 a.toNat) else esumOne false (fdecode tF32 0 (a.toNat % 2 ^ 32)) := by
  obtain rfl | rfl | rfl | rfl | rfl : k = 1 ∨ k = 2 ∨ k = 3 ∨ k = 4 ∨ k = 5 := by omega
  all_goals rfl

/-- The tags that a kind takes (R305). -/
def TakesTag (k : Nat) (T : Fin 16) : Prop :=
  match k with
  | 1 => T = tF32 ∨ T = tF16 ∨ T = tBF16
  | 2 => T = tF64 ∨ T = tF32 ∨ T = tF16 ∨ T = tBF16
  | 3 => tagInt T = true
  | _ => T = tF32

theorem rdaccTag_of_takes {k : Nat} (low : 1 ≤ k) (high : k ≤ 5) {T : Fin 16} (h : TakesTag k T) : rdaccTag k T = true := by
  obtain rfl | rfl | rfl | rfl | rfl : k = 1 ∨ k = 2 ∨ k = 3 ∨ k = 4 ∨ k = 5 := by omega
  · rcases h with rfl | rfl | rfl <;> rfl
  · rcases h with rfl | rfl | rfl | rfl <;> rfl
  · exact h
  · obtain rfl := h
    rfl
  · obtain rfl := h
    rfl

theorem takesTag_pair {k : Nat} {T : Fin 16} (pair : k = 4 ∨ k = 5) (h : TakesTag k T) : T = tF32 := by
  rcases pair with rfl | rfl <;> exact h

/-- The contribution of one position, by kind (R305): the index of a pair is an element of the value's width. -/
theorem rdaccOne_by_kind {k : Nat} (low : 1 ≤ k) (high : k ≤ 5) {T : Fin 16} {x : Nat} (hx : x < 2 ^ tagWidth T)
    (index : Nat → Nat) (pairTag : k = 4 ∨ k = 5 → T = tF32) : rdaccOne k T x (index (tagWidth T)) =
    if k = 3 then .isum (BitVec.ofInt 128 (intOf T x))
    else if k = 4 ∨ k = 5 then pickOne (BitVec.ofNat 32 x) (BitVec.ofNat 32 (index 32))
    else esumOne (k == 2) (fdecode T 0 x) := by
  obtain rfl | rfl | rfl | rfl | rfl : k = 1 ∨ k = 2 ∨ k = 3 ∨ k = 4 ∨ k = 5 := by omega
  · rfl
  · rfl
  · rw [if_pos rfl, ← elemInt_eq_intOf T hx]
    rfl
  · rw [pairTag (by decide)]
    rfl
  · rw [pairTag (by decide)]
    rfl

theorem reducerInstructions : ReducerInstructions := by
  unfold ReducerInstructions
  intro s i a b d op q neg fs e declared low _ r k pair addr g n L one tagOk
  have named : s.focus.r.redAddr i = addr := State.redAddr_of_redEntry declared
  have lanes : rdaccLanes r g a s.lanes = L := rdaccLanes_eq r g s.lanes
  refine ⟨?_, ?_, ?_, ?_, ?_, ?_⟩
  · intro high ha hb
    rw [← named, ← addView_by_kind low high]
    exact view_add declared low high ha hb
  · intro kind free s1 ls aligned probed
    rw [← named]
    exact view_app declared kind free aligned probed
  · intro kind free
    refine ⟨fun untouched => ⟨r.userImage a, fun j hj => r.userImage_dword a hj, ?_⟩, fun touched => view_usr_touched declared kind free touched⟩
    rw [← named]
    exact view_usr_untouched declared kind free untouched
  · intro hq ha hb high tags
    have takes : ∀ t ∈ L, TakesTag k (r.readV a t).tag := fun t ht => (tags t ht).1
    have contributions : rdaccAll r k g a b L = L.flatMap fun t => ((List.range (n t)).filter (posActive r g (n t) t)).map (one t) := by
      refine List.flatMap_congr fun t ht => List.map_congr_left fun p _ => ?_
      exact rdaccOne_by_kind low high (Nat.mod_lt _ (by positivity)) (fun w => elemOf w p (r.readV b t).val)
        fun pair => takesTag_pair pair (takes t ht)
    rw [← contributions]
    rw [← lanes] at ha hb tags takes ⊢
    exact rdacc_runs (g := g) declared low high hq ha hb fun t ht => ⟨rdaccTag_of_takes low high (takes t ht), (tags t ht).2⟩
  · intro m x free inside joined w
    have held : s.holdReading d k fs x = withCrew s { w with
        inflight := w.inflight ++ [⟨s.clause.flag fs, .plain, ((group d m).zip x.1).map fun w => RegWrite.s w.1 w.2, x.2, false, []⟩] }
        s.focus.chunk := by
      have marked : ((group d m).map Dst.s).foldl (fun r x => r.markDst s.lanes (s.clause.flag fs) x) r = w := List.foldl_map ..
      rw [← marked]
      rfl
    rw [← held]
    exact rdget_runs declared low free inside joined
  · intro ha hb kind
    rw [← named]
    exact view_add_unfit declared kind ha

/-- Settles O32: folds, the view store and the instructions on reducers, each by its own lemmas above. -/
theorem reducers : Obligations.Reducers := ⟨reducerFolds, viewStore, reducerInstructions⟩

end Sys2Proof.Machine
end

section
/-! PROOF. Which keys stay loaded and which launches in progress through what a reset makes of them (R403, R418, R422). -/
namespace Sys2Proof.Machine

/-- The loaded keys and the launches in progress are among those. -/
structure State.Under (ks us : List Nat) (s : State) : Prop where
  keys : ∀ k ∈ s.hub.keys, k ∈ ks
  launches : ∀ l ∈ s.sched.launches, l.uid ∈ us

section
variable {s t : State} {ks us : List Nat} {α β : Type}

/-- An update that leaves the hub and the scheduler alone. -/
theorem State.Under.same {focus : Crew} {pool : List Crew} {cores : List Core} {rafts : List Raft} {dies : List Die}
    {landings : List Landing} {mem : List Host.Cell} {filled : List (Nat × Nat)} {keyed : List Keyed} {bad : List Nat}
    {streams : List StreamOut} {partials : List Partial} {posted : List Posted} {fences : List FenceWait} {inbound : List Inbound}
    {stall : Bool} {outbox : List Output} {now uids free epoch : Nat} {agenda : List (Nat × Move)} (h : s.Under ks us) :
    State.Under ks us ⟨focus, pool, cores, rafts, dies, s.hub, s.sched, landings, mem, filled, keyed, bad, streams, partials, posted,
      fences, inbound, stall, outbox, now, uids, free, epoch, agenda⟩ := ⟨h.keys, h.launches⟩

/-- An update that leaves the scheduler and the hub's keys alone. -/
theorem State.Under.withHub {focus : Crew} {pool : List Crew} {cores : List Core} {rafts : List Raft} {dies : List Die} {hub : Hub}
    {landings : List Landing} {mem : List Host.Cell} {filled : List (Nat × Nat)} {keyed : List Keyed} {bad : List Nat}
    {streams : List StreamOut} {partials : List Partial} {posted : List Posted} {fences : List FenceWait} {inbound : List Inbound}
    {stall : Bool} {outbox : List Output} {now uids free epoch : Nat} {agenda : List (Nat × Move)} (h : s.Under ks us)
    (keep : hub.keys = s.hub.keys := by rfl) :
    State.Under ks us ⟨focus, pool, cores, rafts, dies, hub, s.sched, landings, mem, filled, keyed, bad, streams, partials, posted,
      fences, inbound, stall, outbox, now, uids, free, epoch, agenda⟩ := ⟨keep ▸ h.keys, h.launches⟩

/-- An update that leaves the hub and the launches in progress alone. -/
theorem State.Under.withSched {focus : Crew} {pool : List Crew} {cores : List Core} {rafts : List Raft} {dies : List Die} {sched : Sched}
    {landings : List Landing} {mem : List Host.Cell} {filled : List (Nat × Nat)} {keyed : List Keyed} {bad : List Nat}
    {streams : List StreamOut} {partials : List Partial} {posted : List Posted} {fences : List FenceWait} {inbound : List Inbound}
    {stall : Bool} {outbox : List Output} {now uids free epoch : Nat} {agenda : List (Nat × Move)} (h : s.Under ks us)
    (keep : sched.launches = s.sched.launches := by rfl) :
    State.Under ks us ⟨focus, pool, cores, rafts, dies, s.hub, sched, landings, mem, filled, keyed, bad, streams, partials, posted,
      fences, inbound, stall, outbox, now, uids, free, epoch, agenda⟩ := ⟨h.keys, keep ▸ h.launches⟩

theorem State.Under.of_fst {p : State × α} {a : α} (h : p.1.Under ks us) (e : p = (t, a)) : t.Under ks us := by
  subst e
  exact h

theorem State.Under.ite {c : Prop} [Decidable c] (hs : s.Under ks us) (ht : t.Under ks us) : (if c then s else t).Under ks us := by
  split
  · exact hs
  · exact ht

theorem State.Under.ite_fst {p q : State × α} {c : Prop} [Decidable c] (hp : p.1.Under ks us) (hq : q.1.Under ks us) :
    (if c then p else q).1.Under ks us := by
  split
  · exact hp
  · exact hq

theorem State.Under.foldl {f : State → α → State} (h : s.Under ks us) (l : List α) (hf : ∀ s x, s.Under ks us → (f s x).Under ks us) :
    (l.foldl f s).Under ks us := by
  induction l generalizing s with
  | nil => exact h
  | cons x l ih => exact ih (hf s x h)

theorem State.Under.mapLaunch {uid : Nat} {f : Launch → Launch} (h : s.Under ks us) (hf : ∀ l, (f l).uid = l.uid := by intro l; rfl) :
    (s.mapLaunch uid f).Under ks us := by
  refine ⟨h.keys, fun l hl => ?_⟩
  obtain ⟨x, hx, rfl⟩ := List.mem_map.1 hl
  split
  · exact (hf x).symm ▸ h.launches x hx
  · exact h.launches x hx

theorem State.Under.translated (h : s.Under ks us) (m : Translated s t) : t.Under ks us := by
  have keys : ({ t.hub with l2 := s.hub.l2 } : Hub).keys = s.hub.keys := congrArg Hub.keys m.hub
  change t.hub.keys = s.hub.keys at keys
  exact ⟨keys ▸ h.keys, m.sched ▸ h.launches⟩

/-- What a pass over a list takes out, one element after another, is gone after it. -/
theorem foldl_drops {P : List Nat → State → Prop} {f : State → Nat → State} (hf : ∀ ks s k, P ks s → P (ks.filter (· ≠ k)) (f s k)) :
    ∀ (l ks : List Nat) {s : State}, P ks s → P (ks.filter (· ∉ l)) (l.foldl f s)
  | [], ks, s, h => by simpa using h
  | k :: l, ks, s, h => by
    have := foldl_drops hf l _ (hf ks s k h)
    rw [List.filter_filter] at this
    simpa [not_or, Bool.and_comm] using this

end

/-! Crews, lines and partial copies -/

section
variable {s : State} {ks us : List Nat} {uid line slot id core die key : Nat} {cells : List (Nat × Byte)}

theorem State.Under.putBytes (h : s.Under ks us) : (s.putBytes cells).Under ks us := h.translated (translated_putBytes s cells)

theorem State.Under.keyLine (h : s.Under ks us) : (s.keyLine line slot).Under ks us := h.translated (translated_keyLine s line slot)

theorem State.Under.mergeLine (h : s.Under ks us) : (s.mergeLine line).Under ks us := h.translated (translated_mergeLine s line)

theorem State.Under.mapCrew {f : Crew → Crew} (h : s.Under ks us) : (s.mapCrew uid f).Under ks us := by
  unfold State.mapCrew
  split
  · exact h.same
  · exact h.same

theorem State.Under.rollbackCrew (h : s.Under ks us) : (s.rollbackCrew uid).Under ks us := by
  unfold State.rollbackCrew
  split
  · exact h
  · exact .mapCrew (.same (h.foldl _ fun _ _ h => h.putBytes))

theorem State.Under.invalidateLine (h : s.Under ks us) : (s.invalidateLine line uid).Under ks us :=
  h.foldl _ fun _ _ h => h.rollbackCrew.mapCrew

theorem State.Under.tagLeaves {v : Option CacheTag} (h : s.Under ks us) : (s.tagLeaves v).Under ks us := by
  unfold State.tagLeaves
  split
  · exact h.mergeLine.ite h
  · exact h

theorem State.Under.touchL2 {mark : Option (Fin 4)} {hint : Fin 8} {alloc counts write : Bool} (h : s.Under ks us) :
    (s.touchL2 core line key mark hint alloc counts write).Under ks us := by
  have tally (n : Nat) {t : State} (h : t.Under ks us) : (if counts = true then t.count core n else t).Under ks us := h.same.ite h
  unfold State.touchL2
  dsimp only
  split
  · exact .withHub (.ite (tally 4 (tally 2 h)) (tally 2 h))
  · have filled : (State.fillCache line key (if counts = true then s.count core 3 else s)).Under ks us := .withHub (tally 3 h)
    split
    · exact filled
    · exact .tagLeaves (.withHub (.ite (tally 5 filled) filled))

theorem State.Under.passLine (h : s.Under ks us) : (s.passLine id line).1.Under ks us := by
  unfold State.passLine State.passAt
  split
  · exact h
  · split
    · exact h
    · split
      · exact h.same
      · exact h.same

theorem State.Under.mergeFor (h : s.Under ks us) : (s.mergeFor id line).1.Under ks us := by
  unfold State.mergeFor
  split
  · split
    · exact (h.passLine.of_fst ‹_›).mergeLine
    · exact h.passLine.of_fst ‹_›
  · exact h.same

theorem State.Under.passLines {ns : List Nat} (h : s.Under ks us) : (s.passLines id ns).1.Under ks us := by
  induction ns generalizing s with
  | nil => exact h
  | cons n ns ih =>
    unfold State.passLines
    split
    · exact ih (h.passLine.of_fst ‹_›)
    · exact h.passLine.of_fst ‹_›

/-! Messages and faults -/

theorem State.Under.sendTo {peer : Option Nat} {addr : Nat} {out : Output} (h : s.Under ks us) : (s.sendTo peer addr out).Under ks us := by
  unfold State.sendTo
  split
  · exact h.same
  · exact h.same
  · exact h

theorem State.Under.postFault {code : FltCode} {addr : Dword} {org : Origin} {lanes : Lanes} {eng : Bool} (h : s.Under ks us) :
    (s.postFault uid code addr org lanes eng).Under ks us := h.mapCrew

theorem State.Under.postCheck {code : FltCode} {addr : Dword} (h : s.Under ks us) : (s.postCheck id code addr).Under ks us := by
  unfold State.postCheck
  split
  · exact h.withHub.ite h
  · exact h.postFault

theorem State.Under.postOut (h : s.Under ks us) : (s.postOut id cells).Under ks us := h.foldl _ fun _ _ h => h.same

theorem State.Under.sendAtomic {op : Fin 16} {w : Nat} {x : Dword} (h : s.Under ks us) : (s.sendAtomic id key op w x).Under ks us := by
  have posted : (s.post id key (awayAtomic key op w x none)).Under ks us := h.same
  exact posted.postCheck.ite posted

/-! Writes -/

theorem State.Under.writeLine {except va : Nat} {slot : BitVec 12} {hint : Fin 8} (h : s.Under ks us) :
    (s.writeLine core except slot hint va cells).Under ks us := by
  unfold State.writeLine
  split
  · exact h
  · next k _ _ =>
    have merged : State.Under ks us (if isHbm k then (s.mergeLine (lineOf k)).keyLine (lineOf k) slot.toNat else s.mergeLine (lineOf k)) :=
      h.mergeLine.keyLine.ite h.mergeLine
    exact .ite (.touchL2 (.same (.same merged.putBytes.invalidateLine))) (.same merged.putBytes.invalidateLine)

theorem State.Under.reduceHome {op : Fin 16} {w : Nat} {rs : List RedRec} (h : s.Under ks us) : (s.reduceHome line op w rs).1.Under ks us :=
  h.foldl _ fun s r h => h.translated (translated_reduceAt s op w (line * 128 + r.off) r.operand)

theorem State.Under.commitReds {b : BufLine} {except w : Nat} {op : Fin 16} {rs : List RedRec} (h : s.Under ks us) :
    (s.commitReds core except b op w rs).1.Under ks us := by
  have merged : State.Under ks us (if s.otherPartial b.line op w then s.mergeLine b.line else s) := h.mergeLine.ite h
  unfold State.commitReds
  dsimp only
  generalize (if s.otherPartial b.line op w then s.mergeLine b.line else s) = u at merged
  split
  · split
    · exact merged.same
    · exact .tagLeaves (.withHub (.same (.same merged.invalidateLine)))
  · have keyed : State.Under ks us (if isHbm (b.line * 128) then u.keyLine b.line b.slot.toNat else u) := merged.keyLine.ite merged
    have reduced := State.Under.reduceHome (line := b.line) (op := op) (w := w) (rs := rs)
      (keyed.invalidateLine.same : (State.dropCopies noCore b.line (State.invalidateLine b.line except _)).Under ks us)
    exact reduced.touchL2.ite reduced

theorem State.Under.applyLine {b : BufLine} (h : s.Under ks us) : (s.applyLine core id b).Under ks us := by
  unfold State.applyLine
  dsimp only
  split
  · exact h.postCheck
  · split
    · exact h.postOut.ite h.writeLine
    · split
      · exact h.foldl _ fun _ _ h => h.sendAtomic
      · split
        · exact h.commitReds.of_fst ‹_›
        · exact (h.commitReds.of_fst ‹_›).postCheck

theorem State.Under.systemWrite {except : Nat} {l : Loc} (h : s.Under ks us) : (s.systemWrite except l cells).Under ks us :=
  .same (.same h.mergeLine.keyLine.putBytes.invalidateLine)

theorem State.Under.passStore {l : Loc} (h : s.Under ks us) : (s.passStore id l).1.Under ks us := .ite_fst h.passLine (.ite_fst h.mergeFor h)

theorem State.Under.systemStore {c : Crew} {org : Origin} {l : Loc} {data : List (Nat × Byte)} (h : s.Under ks us) :
    (s.systemStore c org l data).1.Under ks us := by
  unfold State.systemStore
  dsimp only
  split
  · exact h.postFault
  · split
    · exact h
    · split
      · exact (h.passStore.of_fst ‹_›).postOut.ite (h.passStore.of_fst ‹_›).systemWrite
      · exact h.passStore

theorem State.Under.systemRed {c : Crew} {org : Origin} {l : Loc} {op : Fin 16} {w : Nat} {x : Dword} (h : s.Under ks us) :
    (s.systemRed c org l op w x).1.Under ks us := by
  unfold State.systemRed
  dsimp only
  split
  · exact h.postFault
  · split
    · exact h
    · split
      · have passed := h.passStore.of_fst ‹_›
        exact passed.sendAtomic.ite (passed.postFault.ite passed.systemWrite)
      · exact h.passStore

theorem State.Under.writeAct {c : Crew} {a : Act} (h : s.Under ks us) : (s.writeAct c a).1.Under ks us := by
  unfold State.writeAct
  split
  · exact .mapCrew (h.foldl _ fun _ _ h => h.same)
  · exact h.systemStore
  · exact h.systemRed
  · exact h

theorem State.Under.engineStore {l : Loc} {bytes : List Byte} (h : s.Under ks us) : (s.engineStore id core l bytes).Under ks us := by
  unfold State.engineStore
  split
  · exact .ite h.putBytes h.putBytes.same
  · exact h.same
  · exact h.postOut.ite h.systemWrite
  · exact h.writeLine

theorem State.Under.physWrite {pa : Nat} {slot : Option Nat} {bytes : List Byte} (h : s.Under ks us) : (s.physWrite slot pa bytes).Under ks us := by
  refine .ite h.same (h.sendTo.ite (h.foldl _ fun t line h => ?_))
  have keyed : State.Under ks us (match slot with
      | some k => (t.mergeLine line).keyLine line k
      | none => t.mergeLine line) := by
    split
    · exact h.mergeLine.keyLine
    · exact h.mergeLine
  exact .touchL2 (.same (.same keyed.putBytes.invalidateLine))

theorem State.Under.physRead {pa n : Nat} {slot : Option (BitVec 12)} (h : s.Under ks us) : (s.physRead slot pa n).1.Under ks us := by
  unfold State.physRead
  split
  · exact h.foldl _ fun s line h => h.translated (translated_readLine s line)
  · exact h.same

/-! The end of a launch -/

theorem State.Under.forceAct {c : Crew} {a : Act} (h : s.Under ks us) : (s.forceAct c a).Under ks us := by
  refine State.Under.writeAct ?_
  split
  · exact h.ite h.mergeLine
  · exact h.ite h.mergeLine
  · exact h

theorem State.Under.flushActs (h : s.Under ks us) : (s.flushActs uid).Under ks us := by
  unfold State.flushActs
  split
  · exact h
  · exact h.foldl _ fun _ _ h => h.forceAct

theorem State.Under.finishCommit {c : Crew} (h : s.Under ks us) : (s.finishCommit c).Under ks us := by
  have written : (s.commitWrites c).Under ks us := .mapCrew (.same (h.foldl _ fun _ _ h => h.applyLine))
  unfold State.finishCommit
  split
  · exact written.flushActs
  · exact h.flushActs
  · exact h.rollbackCrew

theorem State.Under.freePods {l : Launch} (h : s.Under ks us) : (s.freePods l).Under ks us :=
  .mapLaunch (.foldl (h.foldl _ fun _ _ h => h.sendTo) _ fun _ _ h => h.sendTo)

theorem State.Under.removeCrew (h : s.Under ks us) : (s.removeCrew uid).Under ks us := by
  unfold State.removeCrew
  dsimp only
  split
  · exact .ite (.same (.same (.mapLaunch h))) (.same (.same (.mapLaunch h)))
  · exact .ite h.same h.same

theorem State.Under.dropCrews {launch : Nat} (h : s.Under ks us) : (s.dropCrews launch).Under ks us :=
  .same (h.foldl _ fun _ _ h => .removeCrew h.same)

theorem State.Under.cutLaunch {l : Launch} (h : s.Under ks us) : (s.cutLaunch l).Under ks us := by
  have cut : (((((s.crews.foldl (fun s c => if c.task.launch = l.uid && c.uid != 0 then s.finishCommit c else s) s).freePods l).dropCrews
      l.uid).dropCommands l.uid).freeObjects l).Under ks us :=
    .withHub (.same (.dropCrews (.freePods (h.foldl _ fun _ _ h => h.finishCommit.ite h))))
  unfold State.cutLaunch
  dsimp only
  split
  · exact cut.same
  · exact cut

theorem State.Under.endLaunch {launch status : Nat} {cause addr : Dword} (h : s.Under ks us) :
    (s.endLaunch launch status cause addr).Under ks us := h.mapLaunch

theorem State.Under.flushStreams (h : s.Under ks us) : s.flushStreams.Under ks us := .foldl h.same _ fun _ _ h => h.applyLine

theorem State.Under.writeRecord {l : Launch} (h : s.Under ks us) : (s.writeRecord l).1.Under ks us := by
  unfold State.writeRecord
  dsimp only
  split
  · exact h.withHub
  · split
    · exact h.withHub
    · have located := (h.translated (translated_locate s (l.agent true) none ⟨false, true, false⟩ l.packet.compl 32)).of_fst ‹_›
      split
      · exact h.withHub
      · split
        · exact .withHub (located.passStore.of_fst ‹_›).engineStore
        · exact located.passStore

theorem State.Under.leaveSlot {q i : Nat} (h : s.Under ks us) : (s.leaveSlot q i).Under ks us := .ite h.withSched h.withSched

theorem State.Under.settleQueue {q : Nat} (h : s.Under ks us) : (s.settleQueue q).Under ks us := by
  unfold State.settleQueue
  split
  · exact h
  · split
    · exact h.withSched
    · exact h.ite (.leaveSlot h.withSched)

/-- A launch that is over leaves the launches in progress (R403). -/
theorem State.Under.retireLaunch {l : Launch} (h : s.Under ks us) : (s.retireLaunch l).Under ks (us.filter (· ≠ l.uid)) := by
  let P := State.Under ks (us.filter (· ≠ l.uid))
  have answered : ∀ {s : State}, P s → P (match s.queue? l.queue with
      | some x =>
        if x.asked then (s.mapQueue l.queue fun x => { x with asked := false, ckpt := none }).mailDone (if x.ckpt.isSome then 3 else 0)
        else s
      | none => s) := by
    intro s h
    split
    · exact .ite (.withHub h.withSched) h
    · exact h
  have passed : ∀ {s : State}, P s → P (match l.slot with
      | some i => if ((s.sched.slots[i]?).bind QSlot.next).isSome then s.passSlot i else s
      | none => s) := by
    intro s h
    split
    · exact .ite h.withSched h
    · exact h
  have removed : ∀ {s : State} {saved : List SavedCtx}, s.Under ks us → P { s with sched := { s.sched with
      launches := s.sched.launches.filter fun x => x.uid != l.uid, saved := saved } } := by
    intro s saved h
    refine ⟨h.keys, fun x hx => ?_⟩
    obtain ⟨mem, other⟩ := List.mem_filter.1 hx
    exact List.mem_filter.2 ⟨h.launches x mem, by simpa using other⟩
  unfold State.retireLaunch
  exact .settleQueue (passed (answered (removed (.physWrite (.withSched (.same (.withHub h)))))))

theorem State.Under.endRecord (h : s.Under ks us) : (s.endRecord uid).Under ks (us.filter (· ≠ uid)) := by
  unfold State.endRecord
  split
  · rename_i none
    refine ⟨h.keys, fun l hl => List.mem_filter.2 ⟨h.launches l hl, ?_⟩⟩
    have other := List.find?_eq_none.1 none l hl
    simpa using other
  · rename_i l found
    obtain rfl : l.uid = uid := by simpa using List.find?_some found
    exact .same h.writeRecord.retireLaunch

/-- Every launch that was in progress is over. -/
theorem State.endAll_under (s : State) : s.endAll.Under s.hub.keys [] := by
  let us := s.sched.launches.map Launch.uid
  have start : s.Under s.hub.keys us := ⟨fun _ h => h, fun l hl => List.mem_map.2 ⟨l, hl, rfl⟩⟩
  have cut := start.flushStreams.foldl s.sched.launches (f := fun s l => (s.cutLaunch l).endLaunch l.uid 3 0 0)
    fun _ _ h => h.cutLaunch.endLaunch
  have gone := foldl_drops (P := State.Under s.hub.keys) (fun _ _ _ h => h.endRecord) us us (s := { State.flushStreams _ with
    landings := (s.sched.launches.foldl (fun s l => (s.cutLaunch l).endLaunch l.uid 3 0 0) s.flushStreams).landings.map
      fun _ => ⟨[], []⟩ }) (.same cut.flushStreams)
  rw [List.filter_eq_nil_iff.2 (by simp)] at gone
  exact gone

/-! What waits outside -/

theorem State.Under.hbmLines {pa n : Nat} {data : List Byte} (h : s.Under ks us) : (s.hbmLines id slot n pa data).1.Under ks us := by
  induction n generalizing s pa data with
  | zero => exact h
  | succ n ih =>
    unfold State.hbmLines
    split
    · exact h
    · dsimp only
      split
      · exact ih (h.passLine.of_fst ‹_›).physWrite
      · exact h.passLine.of_fst ‹_›

theorem State.Under.hbmWrite {pa : Nat} {data : List Byte} (h : s.Under ks us) : (s.hbmWrite id slot pa data).1.Under ks us := h.hbmLines

theorem State.Under.passPhys {pa n : Nat} (h : s.Under ks us) : (s.passPhys id pa n).1.Under ks us := .ite_fst h.passLines h

theorem State.Under.hbmAtomic {pa w : Nat} {f : Nat → Nat} {reply : Bool} (h : s.Under ks us) :
    (s.hbmAtomic id slot pa w f reply).1.Under ks us := by
  unfold State.hbmAtomic
  split
  · exact .same (.physWrite (h.passPhys.of_fst ‹_›).mergeLine.physRead)
  · exact h.passPhys

theorem State.Under.turnAway {kind unit off : Nat} {ev : EvKind} (h : s.Under ks us) : (s.turnAway kind unit ev off).Under ks us :=
  .withHub (.same h)

theorem State.Under.takeBad {n : Nat} (h : s.Under ks us) : (s.takeBad key n).Under ks us := .ite h h.same

theorem State.Under.bar2Write {x : Inbound} {off : Nat} {data : List Byte} (h : s.Under ks us) : (s.bar2Write x off data).1.Under ks us := by
  unfold State.bar2Write
  dsimp only
  split
  · exact h
  · split
    · exact h.same
    · split
      · exact h.turnAway
      · split
        · exact h.hbmWrite.of_fst ‹_›
        · exact h.hbmWrite.of_fst ‹_›

theorem State.Under.bar2Read {x : Inbound} {off n : Nat} (h : s.Under ks us) : (s.bar2Read x off n).Under ks us := by
  refine State.Under.ite h.same (.ite h.same (.ite h.turnAway (.ite h.takeBad.turnAway ?_)))
  exact State.Under.same (s := (s.physRead (some (BitVec.ofNat 12 (x.bar2 off).2)) (x.bar2 off).1 n).1) h.physRead

theorem State.Under.bar2Atomic {x : Inbound} {off : Nat} {w64 : Bool} {op : PcieOp} {a b : Dword} (h : s.Under ks us) :
    (s.bar2Atomic x off w64 op a b).1.Under ks us := by
  unfold State.bar2Atomic
  extract_lets
  exact .ite_fst h.same (.ite_fst h.turnAway h.hbmAtomic)

theorem State.Under.peerInbound {n off : Nat} {a : PeerAccess} (h : s.Under ks us) : (s.peerInbound id n off a).1.Under ks us := by
  unfold State.peerInbound
  dsimp only
  split
  · exact h.turnAway
  · split
    · exact h.turnAway
    · split
      · exact .same h.physRead
      · split
        · exact .same (h.hbmWrite.of_fst ‹_›)
        · exact h.hbmWrite.of_fst ‹_›
      · exact h.hbmAtomic
      · exact h.hbmAtomic

theorem State.Under.accessTry {x : Inbound} (h : s.Under ks us) : (s.accessTry x).1.Under ks us := by
  unfold State.accessTry
  split
  · exact h.bar2Write
  · exact h.bar2Read
  · split
    · exact h.bar2Atomic.of_fst ‹_›
    · exact h.bar2Atomic.of_fst ‹_›
  · exact h.peerInbound
  · exact h

theorem State.Under.drainInbound (h : s.Under ks us) : s.drainInbound.Under ks us := .foldl h.same _ fun _ _ h => h.accessTry

end
end Sys2Proof.Machine
end

section
/-! PROOF. A cold reset and a warm reset (R422). -/
namespace Sys2Proof.Machine
open Sys2Proof.Claims

section
variable {s : State} {ks us : List Nat} {slot : Nat}

/-! Booting -/

/-- A hub that boots at its first try changes nothing but the counter of free values (R421). -/
theorem State.boot_ready (h : Config.bootReady s.free = true) : s.boot = { s with free := s.free + 6 } := by
  simp [State.boot, bootsFail, h]

theorem State.Under.boot (h : s.Under ks us) : s.boot.Under ks us := .ite (.withHub (.withHub (.same h))) (.same h)

/-! The steps of a warm reset -/

theorem State.Under.releaseRetention (h : s.Under ks us) : (s.releaseRetention slot).Under ks us :=
  h.foldl _ fun _ _ h => .ite (.withHub (.withHub h)) h

/-- The key that is destroyed is loaded no more (R418). -/
theorem State.Under.destroyKey (h : s.Under ks us) : (s.destroyKey slot).Under (ks.filter (· ≠ slot)) us := by
  have flushed : State.Under ks us ((s.streams.filter fun x => x.line.slot.toNat == slot).foldl (fun s x => s.applyLine x.core x.crew x.line)
      { s with streams := s.streams.filter fun x => x.line.slot.toNat != slot }) := .foldl h.same _ fun _ _ h => h.applyLine
  refine .releaseRetention ⟨fun k hk => ?_, flushed.launches⟩
  obtain ⟨loaded, other⟩ := List.mem_filter.1 hk
  exact List.mem_filter.2 ⟨flushed.keys k loaded, by simpa using other⟩

/-- Every loaded key but the firmware's own is destroyed. -/
def State.dropKeys (s : State) : State := (s.hub.keys.filter fun k => k != 0).foldl (fun s k => s.destroyKey k) s

theorem State.Under.dropKeys (h : s.Under s.hub.keys us) : s.dropKeys.Under [0] us := by
  have gone := foldl_drops (P := fun ks => State.Under ks us) (fun _ _ _ h => h.destroyKey) (s.hub.keys.filter fun k => k != 0) s.hub.keys h
  refine ⟨fun k hk => ?_, gone.launches⟩
  obtain ⟨loaded, left⟩ := List.mem_filter.1 (gone.keys k hk)
  by_contra other
  simp_all

/-- Every translation of a hardware slot is dropped. -/
def State.dropTlbs (s : State) : State := (List.range 64).foldl (fun s i => s.dropTlb i fun _ _ => true) s

/-- No queue holds a slot or waits for the management processor; one that is ready starts to wait for a slot anew. -/
def State.unmapQueues (s : State) : State := { s with sched := { s.sched with
  queues := s.sched.queues.map fun x => { x with
    slot := none, copying := false, asked := false, ckpt := none
    since := if decide (x.head < x.tail) && !x.disabled then some s.now else none }
  slots := List.replicate 64 ⟨none, none⟩ } }

/-- The retention slot is not valid. -/
def State.releaseWay (s : State) (i : Nat) : State :=
  (s.mapPkg fun p => { p with retways := p.retways.set i (p.retways.getD i 0 &&& ~~~0x10) }).unmark i

def State.releaseWays (s : State) : State := (List.range 4).foldl State.releaseWay s

theorem State.warmReset_eq (s : State) : s.warmReset = s.endAll.drainInbound.dropKeys.dropTlbs.unmapQueues.releaseWays.boot := rfl

theorem State.warmReset_under (s : State) : s.warmReset.Under [0] [] := by
  have ended : s.endAll.drainInbound.Under s.endAll.drainInbound.hub.keys [] :=
    ⟨fun _ h => h, (State.Under.drainInbound s.endAll_under).launches⟩
  have unmapped : s.endAll.drainInbound.dropKeys.dropTlbs.unmapQueues.Under [0] [] := .withSched (.foldl ended.dropKeys _ fun _ _ h => .same h)
  rw [State.warmReset_eq]
  exact .boot (unmapped.foldl _ fun _ _ h => .withHub (.withHub h))

/-! A warm reset of a machine at rest -/

/-- No landing holds a grant or a request. -/
def State.unheld (s : State) : State := { s with landings := s.landings.map fun _ => ⟨[], []⟩ }

/-- Where no launch is in progress and no released line is on its way, the end of all launches leaves but the landings empty. -/
theorem State.endAll_idle (launches : s.sched.launches = []) (streams : s.streams = []) :
    s.endAll = s.unheld := by
  have flushed : s.flushStreams = s := by
    rw [State.flushStreams, streams]
    cases s
    simp_all
  unfold State.endAll
  rw [launches]
  simp [flushed, State.unheld]

theorem State.drainInbound_idle (h : s.inbound = []) : s.drainInbound = s := by
  cases s
  simp_all [State.drainInbound]

theorem State.dropKeys_idle (h : s.hub.keys = [0]) : s.dropKeys = s := by
  simp [State.dropKeys, h]

theorem State.dropTlbs_rest (s : State) : ∃ cores rafts dies, s.dropTlbs = { s with cores := cores, rafts := rafts, dies := dies } := by
  unfold State.dropTlbs
  generalize List.range 64 = l
  induction l generalizing s with
  | nil => exact ⟨s.cores, s.rafts, s.dies, rfl⟩
  | cons i l ih =>
    obtain ⟨cores, rafts, dies, rest⟩ := ih (s.dropTlb i fun _ _ => true)
    exact ⟨cores, rafts, dies, rest⟩

theorem State.releaseWay_valid (s : State) (i j : Nat) : ((s.releaseWay i).hub.regs.retways.getD j 0).getLsbD 4 =
    (decide (j ≠ i) && (s.hub.regs.retways.getD j 0).getLsbD 4) := by
  have ways : (s.releaseWay i).hub.regs.retways = s.hub.regs.retways.set i (s.hub.regs.retways.getD i 0 &&& ~~~0x10) := rfl
  rw [ways]
  rcases eq_or_ne j i with rfl | h
  · rcases Nat.lt_or_ge j s.hub.regs.retways.length with inside | outside
    · simp [List.getD_eq_getElem?_getD, inside]
    · simp [List.getD_eq_getElem?_getD, outside]
  · simp [List.getD_eq_getElem?_getD, h, h.symm]

/-- What the release of retention slots changes: their registers, none of which is valid any more, and the marks of L2 lines. -/
theorem State.foldl_releaseWay (l : List Nat) (s : State) : ∃ l2 ways,
    l.foldl State.releaseWay s = { s with hub := { s.hub with l2 := l2, regs := { s.hub.regs with retways := ways } } } ∧
      ∀ j, (ways.getD j 0).getLsbD 4 = (decide (j ∉ l) && (s.hub.regs.retways.getD j 0).getLsbD 4) := by
  induction l generalizing s with
  | nil => exact ⟨s.hub.l2, s.hub.regs.retways, rfl, by simp⟩
  | cons i l ih =>
    obtain ⟨l2, ways, rest, valid⟩ := ih (s.releaseWay i)
    refine ⟨l2, ways, rest, fun j => ?_⟩
    rw [valid, s.releaseWay_valid]
    simp [Bool.and_assoc, Bool.and_left_comm]

theorem State.warmReset_idle (launches : s.sched.launches = []) (streams : s.streams = []) (inbound : s.inbound = []) (keys : s.hub.keys = [0])
    (ready : Config.bootReady s.free = true) : ∃ cores rafts dies l2 ways,
    s.warmReset = { s.unheld.unmapQueues with
      cores := cores, rafts := rafts, dies := dies, free := s.free + 6
      hub := { s.hub with l2 := l2, regs := { s.hub.regs with retways := ways } } } ∧
    ∀ j < 4, (ways.getD j 0).getLsbD 4 = false := by
  have ended : s.endAll.drainInbound.dropKeys = s.unheld := by
    rw [State.endAll_idle launches streams, State.drainInbound_idle (s := s.unheld) inbound, State.dropKeys_idle (s := s.unheld) keys]
  obtain ⟨cores, rafts, dies, translations⟩ := s.unheld.dropTlbs_rest
  obtain ⟨l2, ways, retention, valid⟩ := State.foldl_releaseWay (List.range 4)
    (State.unmapQueues { s.unheld with cores := cores, rafts := rafts, dies := dies })
  refine ⟨cores, rafts, dies, l2, ways, ?_, fun j hj => by rw [valid]; simp [hj]⟩
  rw [State.warmReset_eq, ended, translations, State.releaseWays, retention]
  exact State.boot_ready ready

end

/-! A cold reset -/

/-- The machine of a cold reset before its hub boots. -/
def State.cleared (s : State) : State :=
  let regs := { PkgRegs.reset with
    pkg := s.hub.regs.pkg
    harv := s.hub.regs.harv
    lct := (List.range 8).flatMap fun d => lctOfDie d (s.hub.regs.harv.getD d 0) }
  { State.reset with
    hub := { Hub.reset with
      regs := regs, fwA := s.hub.fwA, fwB := s.hub.fwB, activeB := s.hub.activeB, staged := s.hub.staged, links := s.hub.links
      failed := s.hub.failed
      bar2size := s.hub.bar2size, spadUnits := s.hub.nextUnits, nextUnits := s.hub.nextUnits }
    dies := State.reset.dies.zipIdx.map fun d => { d.1 with failed := (s.dies[d.2]?).any Die.failed }
    sched := { Sched.reset with ckpts := s.sched.ckpts }
    outbox := s.outbox
    uids := s.uids
    free := s.free
    epoch := s.epoch + 1
    agenda := s.agenda }

theorem State.coldReset_ready (s : State) (ready : Config.bootReady s.free = true) : s.coldReset = { s.cleared with free := s.free + 6 } :=
  State.boot_ready (s := s.cleared) ready

/-- A die keeps whether it has failed, and nothing else. -/
theorem State.cleared_die (s : State) {k : Nat} {y z : Die} (hy : s.cleared.dies[k]? = some y) (hz : s.dies[k]? = some z) :
    y.failed = z.failed ∧ y.hints = [] := by
  simp only [State.cleared, List.getElem?_map, List.getElem?_zipIdx, Option.map_map, Option.map_eq_some_iff] at hy
  obtain ⟨d, hd, rfl⟩ := hy
  have fresh : d = ⟨List.replicate 4 Barrier.reset, [], false, [], []⟩ := List.eq_of_mem_replicate (List.mem_of_getElem? hd)
  simp [hz, fresh]

/-- Settles O51: a cold reset is the reset state with what it keeps; a warm reset at rest by its steps; and any warm reset ends every
launch and drops every key but the firmware's own. -/
theorem resets : Obligations.Resets := by
  unfold Obligations.Resets
  intro s ready
  refine ⟨⟨{ s.cleared with free := s.free + 6 }, ?_, ?_⟩, fun launches streams inbound keys => ?_, ⟨s.warmReset, rfl, ?_, ?_⟩⟩
  · exact congrArg Host.Outcome.next (s.coldReset_ready ready)
  · exact ⟨rfl, rfl, rfl, rfl, rfl, rfl, rfl, rfl, rfl, rfl, rfl, rfl, rfl, rfl, rfl, rfl, rfl, rfl, rfl, rfl, rfl, rfl, rfl, rfl, rfl,
      fun _ _ _ hy hz => s.cleared_die hy hz, State.reset_wf, rfl, rfl, rfl, rfl, rfl, rfl⟩
  · obtain ⟨cores, rafts, dies, l2, ways, reset, released⟩ := State.warmReset_idle launches streams inbound keys ready
    refine ⟨_, congrArg Host.Outcome.next reset, rfl, rfl, rfl, ?_, ?_, released, rfl, rfl, rfl, rfl⟩
    · intro x hx
      obtain ⟨q, -, rfl⟩ := List.mem_map.1 hx
      exact ⟨rfl, rfl, rfl⟩
    · exact List.map_map
  · intro k hk
    simpa using s.warmReset_under.keys k hk
  · exact List.eq_nil_iff_forall_not_mem.2 fun l hl => absurd (s.warmReset_under.launches l hl) List.not_mem_nil

end Sys2Proof.Machine
end

section
/-! PROOF. The state after reset (R51, R68 to R70, R188, R394, R404, R422). -/
namespace Sys2Proof.Machine

theorem length_rows {α : Type} (n w : Nat) (f : Nat → Nat → α) : ((List.range n).flatMap fun d => (List.range w).map (f d)).length = w * n := by
  simp [List.length_flatMap, Nat.mul_comm]

/-- An entry of rows of one length that stand one behind another. -/
theorem getD_rows {α : Type} {n w d j : Nat} (f : Nat → Nat → α) (z : α) (hd : d < n) (hj : j < w) :
    ((List.range n).flatMap fun d => (List.range w).map (f d)).getD (w * d + j) z = f d j := by
  induction n with
  | zero => omega
  | succ n ih =>
    rw [List.range_succ, List.flatMap_append]
    rcases Nat.lt_succ_iff_lt_or_eq.1 hd with earlier | rfl
    · have inside : w * d + j < w * n := calc
        w * d + j < w * (d + 1) := by rw [Nat.mul_succ]; omega
        _ ≤ w * n := Nat.mul_le_mul_left w earlier
      rw [List.getD_append _ _ _ _ (by rwa [length_rows])]
      exact ih earlier
    · rw [List.getD_append_right _ _ _ _ (by rw [length_rows]; omega), length_rows]
      simp [hj]

/-- A die without a fused core: its table names its cores in order (R394). -/
theorem lctOfDie_whole (d : Nat) : lctOfDie d 0 = (List.range 36).map fun j => BitVec.ofNat 64 (2 ^ 15 + 2 ^ 8 * d + j) := by
  have all : (List.range 36).filter (fun p => !(0 : BitVec 36).getLsbD p) = List.range 36 := by
    simp
  rw [lctOfDie, all]
  refine List.map_congr_left fun j hj => ?_
  simp [List.getElem?_range (List.mem_range.1 hj), Nat.mul_comm]

theorem reset_lct {d j : Nat} (hd : d < 8) (hj : j < 36) :
    State.reset.hub.regs.lct.getD (36 * d + j) 0 = BitVec.ofNat 64 (2 ^ 15 + 2 ^ 8 * d + j) := by
  have rows : State.reset.hub.regs.lct = (List.range 8).flatMap fun d => (List.range 36).map fun j => BitVec.ofNat 64 (2 ^ 15 + 2 ^ 8 * d + j) :=
    congrArg (List.flatMap · (List.range 8)) (funext lctOfDie_whole)
  rw [rows, getD_rows _ _ hd hj]

theorem reset_numbered : State.reset.Numbered where
  crews := by
    rintro c (_ | ⟨_, h⟩)
    · exact Nat.zero_lt_one
    · exact absurd h List.not_mem_nil
  launches _ h := absurd h List.not_mem_nil
  saved _ h := absurd h List.not_mem_nil
  ckpts _ h := absurd h List.not_mem_nil

/-- Settles O57: the reset state by its definition, its core table by the rows of its dies, and the invariant. -/
theorem resetState : Obligations.ResetState := by
  refine ⟨rfl, rfl, rfl, rfl, rfl, List.length_replicate, fun k hk => ?_, fun i => ⟨?_, fun t => ?_⟩, rfl, rfl, rfl, rfl, rfl,
    fun d hd j hj => reset_lct hd hj, rfl, rfl, rfl, rfl, State.reset_wf, reset_numbered⟩
  · obtain rfl := List.eq_of_mem_replicate hk
    exact ⟨rfl, rfl, rfl, rfl, rfl, rfl⟩
  · exact Vector.getElem_replicate i.isLt
  · exact (congrArg (fun r : Vector VReg 32 => r[t]) (Vector.getElem_replicate i.isLt)).trans (Vector.getElem_replicate t.isLt)

end Sys2Proof.Machine
end

section
/-! PROOF. The vector integer arithmetic (R121, R122, R125): what its operands give, and its results. -/
namespace Sys2Proof.Machine
open Sys2Proof.Claims

section
variable {s : State} {g : Guard} {T : Fin 32 → Fin 16} {o : Operand} {os : List Operand} {t : Fin 32}

/-! What operands give -/

theorem Active.position {n : Fin 32 → Nat} (h : Active s g n t) : t ∈ s.lanes := h.1

theorem OneTag.head {ok : Fin 16 → Bool} (h : OneTag s g ok (o :: os) T) (ht : t ∈ s.lanes) : o.tag s.focus.r t = T t := h.1 t ht o rfl

/-- The operands of an active thread read their elements at their positions. -/
theorem elems_eq_elemOf (r : Regs) (ops : List Operand) {W : Fin 16} (h : ∀ o ∈ ops, o.tag r t = W) {e : Nat} (he : e < tagCount W) :
    (ops.map fun o => elemOf (tagWidth W) e (o.whole r t)) = ops.map fun o => o.elem r t e :=
  List.map_congr_left fun o ho => by
    have tag := h o ho
    subst tag
    exact o.elemOf_whole r t e he

theorem commonTag_of_forall {W : Fin 16} {ts : List (Fin 16)} (nonempty : ts ≠ []) (h : ∀ x ∈ ts, x = W) : commonTag ts = some W := by
  cases ts with
  | nil => exact absurd rfl nonempty
  | cons a l =>
    obtain rfl := h a List.mem_cons_self
    have same : l.all (· == a) = true := by
      simpa using fun x hx => h x (List.mem_cons_of_mem a hx)
    simp [commonTag, same]

/-- The tag check passes where all operands of an active thread have one tag that is accepted (R55). -/
theorem tagIf_of_forall {W : Fin 16} {ok : Fin 16 → Bool} {ops : List Operand} {r : Regs} (nonempty : ops ≠ []) (accepted : ok W = true)
    (h : ∀ o ∈ ops, o.tag r t = W) : tagIf ok (ops.map fun o => o.tag r t) = some W := by
  rw [tagIf, commonTag_of_forall (W := W) (by simpa using nonempty) (by simpa using h)]
  simp [accepted]

end

/-! Integers of a tag (R114) -/

theorem two_pow_tagWidth (T : Fin 16) : 2 ^ tagWidth T = 2 * 2 ^ (tagWidth T - 1) := by
  rw [← Nat.pow_succ']
  congr 1
  have := (tag_split T).2.2.1
  omega

theorem wrapInt_eq (w : Nat) (x : Int) : wrapInt w x = (x % 2 ^ w).toNat := by
  simp [wrapInt]

/-- Saturation is clamping, and tells whether it changed the number. -/
theorem saturate_eq (T : Fin 16) (x : Int) : saturate (tagSigned T) (tagWidth T) x = (clamp T x, decide (clamp T x ≠ x)) := by
  have half : (2 : Int) ^ tagWidth T = 2 * 2 ^ (tagWidth T - 1) := by exact_mod_cast two_pow_tagWidth T
  have pos : (0 : Int) < 2 ^ (tagWidth T - 1) := by positivity
  unfold saturate clamp intMin intMax
  push_cast
  cases tagSigned T <;> simp only [if_true, Bool.false_eq_true, if_false] <;> split_ifs <;> simp only [Prod.mk.injEq] <;>
    refine ⟨by omega, ?_⟩ <;> simp <;> omega

theorem wrapInt_lt (w : Nat) (x : Int) : wrapInt w x < 2 ^ w := by
  rw [wrapInt_eq]
  have := Int.emod_lt_of_pos x (show (0 : Int) < 2 ^ w by positivity)
  have := Int.emod_nonneg x (show (2 : Int) ^ w ≠ 0 by positivity)
  zify
  omega

/-- Position e of an arithmetic result: on the elements as integers, clamped where it saturates, and wrapped (R122). -/
theorem arithOp_at (ok : Fin 16 → Bool) (sat : Bool) (o : Operand) (os : List Operand) (d : Fin 64) (f : Nat → List Int → Int) (r : Regs)
    (t : Fin 32) (e : Nat) : (arithOp ok sat (o :: os) d f).at r t e =
      let T := o.tag r t
      let x := f (tagWidth T) (((o :: os).map fun p => elemOf (tagWidth T) e (p.whole r t)).map (elemInt T))
      some (((if sat then clamp T x else x) % 2 ^ tagWidth T).toNat, if sat = true ∧ clamp T x ≠ x then fSAT else 0) := by
  have raws : ((o :: os).map fun p => p.whole r t).map (fun x => elemInt (o.tag r t) (elemOf (tagWidth (o.tag r t)) e x)) =
      ((o :: os).map fun p => elemOf (tagWidth (o.tag r t)) e (p.whole r t)).map (elemInt (o.tag r t)) := by
    simp only [List.map_map, Function.comp_def]
  have step : (arithOp ok sat (o :: os) d f).at r t e =
      let T := o.tag r t
      let x := f (tagWidth T) (((o :: os).map fun p => p.whole r t).map fun x => elemInt T (elemOf (tagWidth T) e x))
      let y := if sat then saturate (tagSigned T) (tagWidth T) x else (x, false)
      some (wrapInt (tagWidth T) y.1, if y.2 then fSAT else 0) := rfl
  rw [step]
  simp only [raws, saturate_eq, wrapInt_eq]
  cases sat <;> simp

/-- An arithmetic instruction computes on the elements as integers (R121, R122). -/
theorem arithOp_runs {i : Instr} {s : State} {d : Fin 64} {o : Operand} {os : List Operand} {rx : Option Rx} {fs : Bool}
    {ok : Fin 16 → Bool} {sat : Bool} {f : Nat → List Int → Int}
    (run : exec i s = s.viIssue (arithOp ok sat (o :: os) d f) rx fs) : IntRuns i s d (o :: os) rx fs ok sat f := by
  intro T one ready free
  obtain ⟨first, all⟩ := one
  refine VRuns_of i s _ d _ _ _ _ _ _ _ run rfl (fun t ht => congrArg tagCount (first t ht o rfl)) ready free (by simp [arithOp, noUses])
    (fun t ht => tagIf_of_forall (List.cons_ne_nil _ _) (all t ht).1 (all t ht).2) (fun t ht e he => ?_) (by simp)
  have args : (((o :: os).map fun p => elemOf (tagWidth (T t)) e (p.whole s.focus.r t)).map (elemInt (T t))) =
      (elems s (o :: os) t e).map (intOf (T t)) := by
    rw [elems_eq_elemOf s.focus.r _ (all t ht).2 he]
    refine List.map_congr_left fun x hx => elemInt_eq_intOf _ ?_
    obtain ⟨p, hp, rfl⟩ := List.mem_map.1 hx
    exact (all t ht).2 p hp ▸ p.elem_lt s.focus.r t e
  simp only [arithOp_at, first t ht.1 o rfl, args, Option.map_some]

/-- Settles O1: every instruction issues `arithOp` with its function on the elements. -/
theorem vectorIntegerArithmetic : Obligations.VectorIntegerArithmetic := by
  intro d a b c fs rx s
  have mulh : IntRuns (.vmulh d a b fs rx) s d [oA a rx, oB b rx] rx fs tagInt false fun w l => l.getD 0 0 * l.getD 1 0 / 2 ^ w := by
    simp only [show ∀ w : Nat, (2 : Int) ^ w = ((2 ^ w : Nat) : Int) from fun w => (Nat.cast_pow 2 w).symm]
    exact arithOp_runs rfl
  have absd : IntRuns (.vabsd d a b fs rx) s d [oA a rx, oB b rx] rx fs tagInt (rxSat rx) fun _ l => |l.getD 0 0 - l.getD 1 0| := by
    simp only [Int.abs_eq_natAbs]
    exact arithOp_runs rfl
  have abs : IntRuns (.vabs d a fs rx) s d [oA a rx] rx fs tagSigned (rxSat rx) fun _ l => |l.getD 0 0| := by
    simp only [Int.abs_eq_natAbs]
    exact arithOp_runs rfl
  simp only [int2Table, List.forall_mem_cons]
  exact ⟨⟨arithOp_runs rfl, arithOp_runs rfl, arithOp_runs rfl, arithOp_runs rfl, arithOp_runs rfl, mulh, arithOp_runs rfl, arithOp_runs rfl,
    absd, List.forall_mem_nil _⟩, arithOp_runs rfl, abs, arithOp_runs rfl, fun imm => arithOp_runs rfl⟩

end Sys2Proof.Machine
end

section
/-! PROOF. The tag and scale instructions and FLIMM (R141 to R143). -/
namespace Sys2Proof.Machine
open Sys2Proof.Claims

section
variable {i : Instr} {s : State} {v : VOp} {d : Fin 64} {rx : Option Rx} {fs : Bool}

/-- An instruction that raises no flag and reads no register beside its operands writes the values of its operation. -/
theorem plain_runs {n : Fin 32 → Nat} {T : Fin 32 → Fin 16} {f : Fin 32 → Nat → Nat} (x : Fin 32 → Nat → Nat)
    (run : exec i s = .next (s.vecIssue v (rxGuard rx) (longOf s rx fs) id)) (dst : v.dst = .v d) (uses : v.uses = noUses)
    (positions : ∀ t ∈ s.lanes, v.n s.focus.r t = n t)
    (tags : ∀ t, Active s (rxGuard rx) n t → v.result (v.tags s.focus.r t) = some (T t))
    (values : ∀ t e, v.at s.focus.r t e = some (x t e, 0)) (low : ∀ t e, e < n t → x t e % 2 ^ (64 / n t) = f t e % 2 ^ (64 / n t))
    (ready : Ready s (rxGuard rx) n v.ops) (free : DstFree s (rxGuard rx) n d) :
    VRuns i s d (rxGuard rx) n T (longOf s rx fs) id (fun t e => some (f t e)) noFlags :=
  VRuns_of i s v d _ _ _ _ _ _ _ run dst positions ready free (by simp [uses, noUses]) tags
    (fun t _ e he => by simp [values, low t e he, noFlags]) (by simp)

theorem elemOf_first (x : Dword) {e : Nat} (h : e < 1) : elemOf 64 e x = x.toNat := by
  obtain rfl := Nat.lt_one_iff.1 h
  simp [elemOf, Nat.mod_eq_of_lt x.isLt]

/-- Tags of one 64-bit position. -/
theorem counts_single {T : Fin 16} (h : tagCount T = 1) : (counts fun _ => T) = one := funext fun _ => h

/-- A constant goes into the single position of a 64-bit tag. -/
theorem constOp_runs {x : Dword} {n : Fin 32 → Nat} {T : Fin 16} (wide : tagWidth T = 64) (single : n = one)
    (run : exec i s = .next (s.vecIssue (constOp d x T) (rxGuard rx) (longOf s rx fs) id)) (ready : Ready s (rxGuard rx) n [])
    (free : DstFree s (rxGuard rx) n d) : VRuns i s d (rxGuard rx) n (fun _ => T) (longOf s rx fs) id (fun _ _ => some x.toNat) noFlags := by
  subst single
  exact plain_runs (fun _ e => elemOf (tagWidth T) e x) run rfl rfl (fun _ _ => by simp [VOp.n, constOp, tagCount, wide, one])
    (fun _ _ => rfl) (fun _ _ => rfl) (fun _ _ he => by rw [wide, elemOf_first x he]) ready free

/-- A crew-wide instruction writes the whole of v[d] in each participating thread (R106). -/
theorem wideOp_runs {ops : List Operand} {T : Fin 16} {f : Fin 32 → Nat}
    (run : exec i s = .next (s.vecIssue (wideOp ops (.v d) T f) (rxGuard rx) (longOf s rx fs) id)) : WideRuns i s d rx fs ops T f :=
  plain_runs (fun t _ => f t) run rfl rfl (fun _ _ => show tagCount tRAW = 1 by decide) (fun _ _ => rfl) (fun _ _ => rfl) fun _ _ _ => rfl

end

/-- Where s[a] bears no marker and the undo log has room, SCLSET sets the side field of v[d] alone (R142). -/
theorem sclset_runs {s : State} {d a : Fin 64} {rx : Option Rx} (free : NoMark s .s a.val) (room : Room s d) :
    Runs (.sclset d a rx) s (withCrew s
      { s.focus.r with side := s.focus.r.side.set d ⟨⟨(s.focus.r.readS a).toNat / 2 ^ 32 % 64, by omega⟩, (s.focus.r.readS a).truncate 32⟩ }
      (logged d s.focus.chunk)) := by
  have unmarked : ∀ u ∈ [(⟨.s, a.val, s.lanes⟩ : Use)], FreeIn s u.file u.num u.lanes := by
    simpa [FreeIn, NoMark] using free
  refine congrArg Host.Outcome.next ((checked_free _ unmarked).trans ?_)
  have base : fin 64 (bits (s.focus.r.readS a).toNat 32 6) = ⟨(s.focus.r.readS a).toNat / 2 ^ 32 % 64, by omega⟩ :=
    Fin.ext (Nat.mod_mod _ _)
  have delta : BitVec.ofNat 32 (bits (s.focus.r.readS a).toNat 0 32) = (s.focus.r.readS a).truncate 32 := by
    apply BitVec.eq_of_toNat_eq
    simp [bits]
  rw [logV_room _ _ _ room, ← base, ← delta]
  rfl

/-- Settles O8: the tag and scale instructions issue plain or crew-wide operations; SCLSET changes a side field. -/
theorem tagInstructions : Obligations.TagInstructions := by
  intro d a fs rx s
  refine ⟨fun T handle ready free => ?_, wideOp_runs rfl, fun ready free => ?_, sclset_runs, fun lit => constOp_runs (n := counts fun _ => tF64) (rx := none) (fs := false) rfl (counts_single (by decide)) rfl⟩
  · exact plain_runs _ rfl rfl rfl (fun _ _ => rfl) (fun t ht => if_neg (handle t ht)) (fun _ _ => rfl) (fun _ _ _ => rfl) ready free
  · have field : (BitVec.ofNat 64 (s.focus.r.side[a].base.val * 2 ^ 32 + s.focus.r.side[a].delta.toNat)).toNat =
        s.focus.r.side[a].base.val * 2 ^ 32 + s.focus.r.side[a].delta.toNat := by
      have := s.focus.r.side[a].base.isLt
      have := s.focus.r.side[a].delta.isLt
      simp only [BitVec.toNat_ofNat]
      omega
    rw [← field]
    exact constOp_runs (by decide) rfl rfl ready free

end Sys2Proof.Machine
end

section
/-! PROOF. The vector logic, shifts, bit fields and bit counts (R56, R123): each function of the model is the stated one. -/
namespace Sys2Proof.Machine
open Sys2Proof.Claims

/-! The functions on a position of w bits -/

section
variable {w x y : Nat}

/-- A pattern as the model and as a bit vector read it in two's complement. -/
theorem signedOf_eq_toInt (pos : 0 < w) (hx : x < 2 ^ w) : signedOf w x = (BitVec.ofNat w x).toInt := by
  have half : 2 ^ w = 2 * 2 ^ (w - 1) := by
    rw [← Nat.pow_succ', Nat.succ_eq_add_one, Nat.sub_add_cancel pos]
  unfold signedOf
  rw [BitVec.toInt_eq_toNat_cond, BitVec.toNat_ofNat, Nat.mod_eq_of_lt hx]
  split <;> split <;> first | rfl | omega

theorem testBit_notBits (w x k : Nat) : (notBits w x).testBit k = (decide (k < w) && !x.testBit k) := by
  have small := Nat.mod_lt x (Nat.two_pow_pos w)
  rw [notBits, Nat.sub_sub, Nat.add_comm 1, Nat.testBit_two_pow_sub_succ small, Nat.testBit_mod_two_pow]
  by_cases h : k < w <;> simp [h]

theorem notBits_of_lt (hy : y < 2 ^ w) : notBits w y = 2 ^ w - 1 - y := by
  rw [notBits, Nat.mod_eq_of_lt hy]

theorem shlBits_eq (x k : Nat) : shlBits w x k = (if k < w then x * 2 ^ k else 0) % 2 ^ w := by
  unfold shlBits
  split <;> split <;> first | omega | simp

theorem shrBits_eq (hx : x < 2 ^ w) (k : Nat) : shrBits w x k = (if k < w then x / 2 ^ k else 0) % 2 ^ w := by
  have small : x / 2 ^ k < 2 ^ w := (Nat.div_le_self _ _).trans_lt hx
  unfold shrBits
  split <;> split <;> first | omega | simp [Nat.mod_eq_of_lt small]

/-- A shift by the width or more leaves copies of the sign. -/
theorem sarBits_of_wide (pos : 0 < w) (hx : x < 2 ^ w) {k : Nat} (wide : w ≤ k) : sarBits w x k = wrapInt w (signedOf w x / 2 ^ w) := by
  have half : 2 ^ w = 2 * 2 ^ (w - 1) := by
    rw [← Nat.pow_succ', Nat.succ_eq_add_one, Nat.sub_add_cancel pos]
  have cast : (2 : Int) ^ w = ((2 ^ w : Nat) : Int) := by simp
  have some : 0 < 2 ^ w := Nat.two_pow_pos w
  rw [sarBits, if_pos wide, wrapInt_eq, signedOf, cast]
  generalize 2 ^ w = W at *
  generalize 2 ^ (w - 1) = H at *
  by_cases neg : H ≤ x
  · have quot : ((x : Int) - W) / W = -1 := by
      rw [Int.ediv_eq_iff_of_pos (by omega)]
      omega
    have rest : (-1 : Int) % W = W - 1 := by
      rw [Int.emod_eq_iff (by omega)]
      exact ⟨by omega, by omega, 1, by omega⟩
    rw [if_pos neg, if_neg (by omega), quot, rest]
    omega
  · rw [if_neg neg, if_pos (by omega), Int.ediv_eq_zero_of_lt (by omega) (by exact_mod_cast hx)]
    simp

theorem sarBits_eq (pos : 0 < w) (hx : x < 2 ^ w) (k : Nat) :
    sarBits w x k = ((BitVec.ofNat w x).toInt / 2 ^ min k w % 2 ^ w).toNat := by
  rw [← signedOf_eq_toInt pos hx, ← wrapInt_eq]
  rcases Nat.le_total w k with wide | narrow
  · rw [Nat.min_eq_right wide, sarBits_of_wide pos hx wide]
  · rw [Nat.min_eq_left narrow]
    rcases narrow.lt_or_eq with less | rfl
    · rw [sarBits, if_neg (by omega)]
      simp
    · exact sarBits_of_wide pos hx le_rfl

theorem rolBits_eq (pos : 0 < w) (hx : x < 2 ^ w) (k : Nat) : rolBits w x k = ((BitVec.ofNat w x).rotateLeft k).toNat := by
  have small := Nat.mod_lt k pos
  have split : 2 ^ w = 2 ^ (w - k % w) * 2 ^ (k % w) := by
    rw [← Nat.pow_add, Nat.sub_add_cancel small.le]
  have high : x / 2 ^ (w - k % w) < 2 ^ (k % w) := Nat.div_lt_of_lt_mul (split ▸ hx)
  rw [BitVec.toNat_rotateLeft, BitVec.toNat_ofNat, Nat.mod_eq_of_lt hx, Nat.shiftLeft_eq, Nat.shiftRight_eq_div_pow]
  simp only [rolBits]
  rw [split, Nat.mul_mod_mul_right, ← Nat.shiftLeft_eq, Nat.shiftLeft_add_eq_or_of_lt high]

theorem popcount_eq_ones (w x : Nat) : popcount w x = ones w x := by
  induction w generalizing x with
  | zero => rfl
  | succ w ih =>
    have rest : ones w (x / 2) = ((List.range w).filter (x.testBit ∘ Nat.succ)).length :=
      congrArg List.length (List.filter_congr fun i _ => (Nat.testBit_succ x i).symm)
    rw [popcount, ih, rest, ones, List.range_succ_eq_map, List.filter_cons, List.filter_map, Nat.testBit_zero]
    rcases Nat.mod_two_eq_zero_or_one x with h | h <;> simp [h, Nat.add_comm]

/-- Where the first m of a range pass a test and the next one does not, they are what is taken. -/
theorem takeWhile_range {p : Nat → Bool} {m n : Nat} (le : m ≤ n) (pass : ∀ i < m, p i = true) (fail : m < n → p m = false) :
    (List.range n).takeWhile p = List.range m := by
  obtain ⟨k, rfl⟩ := Nat.exists_eq_add_of_le le
  rw [List.range_add, List.takeWhile_append_of_pos (by simpa using pass)]
  cases k with
  | zero => simp
  | succ k => simp [List.range_succ_eq_map, fail (by omega)]

theorem leadingZeros_eq_leading (hx : x < 2 ^ w) : leadingZeros w x = leading w x := by
  unfold leadingZeros leading
  split
  · next zero => rw [takeWhile_range le_rfl (by simp [zero]) (by omega), List.length_range]
  · next nonzero =>
    have top : Nat.log2 x < w := (Nat.log2_lt nonzero).2 hx
    have above : ∀ i < w - 1 - Nat.log2 x, x.testBit (w - 1 - i) = false := fun i hi =>
      Nat.testBit_lt_two_pow (Nat.lt_log2_self.trans_le (Nat.pow_le_pow_right Nat.two_pos (by omega)))
    have at_ : x.testBit (w - 1 - (w - 1 - Nat.log2 x)) = true := by
      rw [show w - 1 - (w - 1 - Nat.log2 x) = Nat.log2 x by omega]
      exact Nat.testBit_log2 nonzero
    rw [takeWhile_range (m := w - 1 - Nat.log2 x) (by omega) (fun i hi => by simp [above i hi]) (fun _ => by simp [at_]), List.length_range]

theorem bitReverse_lt (w x : Nat) : bitReverse w x < 2 ^ w := by
  induction w generalizing x with
  | zero => simp [bitReverse]
  | succ w ih =>
    have := ih (x / 2)
    have : x % 2 * 2 ^ w ≤ 1 * 2 ^ w := Nat.mul_le_mul_right _ (by omega)
    rw [bitReverse, Nat.pow_succ]
    omega

theorem testBit_bitReverse (w x k : Nat) : (bitReverse w x).testBit k = (decide (k < w) && x.testBit (w - 1 - k)) := by
  induction w generalizing x with
  | zero => simp [bitReverse]
  | succ w ih =>
    rw [bitReverse, Nat.mul_comm, Nat.testBit_two_pow_mul_add _ (bitReverse_lt w _)]
    split
    · next low =>
      rw [ih, ← Nat.testBit_succ, show (w - 1 - k).succ = w + 1 - 1 - k by omega]
      simp [low, Nat.lt_succ_of_lt low]
    · next high =>
      rcases Nat.eq_or_lt_of_not_lt high with rfl | above
      · simp [Nat.testBit_zero]
      · have : ¬ k < w + 1 := by omega
        obtain ⟨j, hj⟩ := Nat.exists_eq_add_of_lt above
        rw [show k - w = j + 1 by omega, Nat.testBit_succ]
        simp [this, Nat.div_eq_of_lt (Nat.mod_lt x Nat.two_pos)]

theorem bitReverse_eq (w x : Nat) : bitReverse w x = (BitVec.ofNat w x).reverse.toNat := by
  refine Nat.eq_of_testBit_eq fun k => ?_
  rw [testBit_bitReverse, ← BitVec.getLsbD, BitVec.getLsbD_reverse, BitVec.getMsbD_eq_getLsbD, BitVec.getLsbD_ofNat]
  by_cases h : k < w
  · simp [h, show w - 1 - k < w by omega]
  · simp [h]

/-- The bits of a sum of single bits at their places. -/
theorem testBit_bitSum (b : Nat → Bool) (k : Nat) :
    (((List.range w).map fun i => (b i).toNat * 2 ^ i).sum).testBit k = (decide (k < w) && b k) := by
  have small : ∀ i < w, (b i).toNat < 2 ^ 1 := fun i _ => Bool.toNat_lt (b i)
  rcases Nat.lt_or_ge k w with inside | outside
  · have bit := places_get 1 w (fun i => (b i).toNat) small k inside
    simp only [Nat.one_mul, pow_one] at bit
    rw [Nat.testBit_eq_decide_div_mod_eq, bit]
    cases b k <;> simp [inside]
  · have bound := places_lt 1 w (fun i => (b i).toNat) small
    simp only [Nat.one_mul] at bound
    rw [Nat.testBit_lt_two_pow (bound.trans_le (Nat.pow_le_pow_right Nat.two_pos outside))]
    simp [outside]

theorem bfx_eq (x : Nat) (signed : Bool) (p n : Nat) : bfx w signed x p n = Claims.fieldOf w signed x p n % 2 ^ w := by
  unfold bfx Claims.fieldOf
  by_cases none : w ≤ p ∨ n = 0
  · simp [none]
  · have pos : 0 < min n (w - p) := by omega
    have field : x / 2 ^ p % 2 ^ min n (w - p) < 2 ^ min n (w - p) := Nat.mod_lt _ (Nat.two_pow_pos _)
    have fits : 2 ^ min n (w - p) ≤ 2 ^ w := Nat.pow_le_pow_right Nat.two_pos (by omega)
    have bits : BitVec.ofNat (min n (w - p)) (x / 2 ^ p % 2 ^ min n (w - p)) = BitVec.ofNat _ (x / 2 ^ p) := by
      apply BitVec.eq_of_toNat_eq
      simp
    simp only [Bool.or_eq_true, decide_eq_true_eq, none, if_false, signedOf_eq_toInt pos field, bits, ← wrapInt_eq]
    cases signed
    · simp only [Bool.false_eq_true, if_false]
      exact (Nat.mod_eq_of_lt (field.trans_le fits)).symm
    · simp only [if_true]
      exact (Nat.mod_eq_of_lt (wrapInt_lt w _)).symm

theorem bfi_eq (hy : y < 2 ^ w) (x p n : Nat) : bfi w y x p n = fieldInto w x p n y % 2 ^ w := by
  refine Nat.eq_of_testBit_eq fun k => ?_
  rw [Nat.testBit_mod_two_pow, fieldInto, testBit_bitSum]
  have outside : ¬ k < w → y.testBit k = false := fun h =>
    Nat.testBit_lt_two_pow (hy.trans_le (Nat.pow_le_pow_right Nat.two_pos (by omega)))
  unfold bfi
  by_cases none : w ≤ p ∨ n = 0
  · have : k < w → ¬ (p ≤ k ∧ k < p + n) := by omega
    by_cases h : k < w <;> simp_all
  · simp only [Bool.or_eq_true, decide_eq_true_eq, none, if_false, Nat.testBit_or, Nat.testBit_and, testBit_notBits,
      Nat.testBit_mul_two_pow, Nat.testBit_two_pow_sub_one]
    by_cases h : k < w
    · by_cases low : p ≤ k
      · by_cases high : k < p + n
        · have : k - p < min n (w - p) := by omega
          simp [h, low, high, this]
        · have : ¬ k - p < min n (w - p) := by omega
          simp [h, low, high, this]
      · simp [h, low]
    · have : ¬ k - p < min n (w - p) := by omega
      simp [h, outside h, this]

end

/-! A logic instruction -/

/-- The tag of a logic result (R56). -/
theorem logicTag_eq_logicT (T : Fin 16) (ts : List (Fin 16)) : logicTag (T :: ts) = logicT (T :: ts) := by
  have all : ts.all (· == T) = true ↔ ∀ t ∈ T :: ts, t = T := by simp
  have left : logicTag (T :: ts) = if ts.all (· == T) then (if T = tHND then tRAW else T) else tRAW := by
    simp only [logicTag, commonTag]
    cases ts.all (· == T) <;> rfl
  rw [left]
  by_cases same : ∀ t ∈ T :: ts, t = T
  · rw [if_pos (all.2 same)]
    by_cases handle : T = tHND
    · exact (if_pos handle).trans (if_neg fun h => h.2 handle).symm
    · exact (if_neg handle).trans (if_pos ⟨same, handle⟩).symm
  · exact (if_neg fun h => same (all.1 h)).trans (if_neg fun h => same h.1).symm

/-- The result tag of a logic instruction has the width of A's elements, or is RAW. -/
theorem logicT_cases (T : Fin 16) (ts : List (Fin 16)) : tagWidth (logicT (T :: ts)) = tagWidth T ∨ logicT (T :: ts) = tRAW := by
  unfold logicT
  split
  · exact .inl rfl
  · exact .inr rfl

theorem elemOf_lt (w e : Nat) (x : Dword) : elemOf w e x < 2 ^ w := Nat.mod_lt _ (Nat.two_pow_pos w)

/-- A position of a logic result. -/
theorem elemOf_logicWord {T : Fin 16} {e : Nat} (f : List Nat → Nat) (xs : List Dword) (he : e < tagCount T) :
    elemOf (tagWidth T) e (logicWord (tagWidth T) f xs) = f (xs.map (elemOf (tagWidth T) e)) % 2 ^ tagWidth T := by
  have small : ∀ i < tagCount T, f (xs.map (elemOf (tagWidth T) i)) % 2 ^ tagWidth T < 2 ^ tagWidth T := fun i _ =>
    Nat.mod_lt _ (Nat.two_pow_pos _)
  have bound := places_lt _ _ _ small
  rw [(tag_split T).1] at bound
  rw [elemOf, logicWord, BitVec.toNat_ofNat]
  exact (congrArg (· / _ % _) (Nat.mod_eq_of_lt bound)).trans (places_get _ _ _ small e he)

/-- A logic instruction whose function is the stated one on patterns of the width of A's elements (R56, R123). -/
theorem logicOp_runs {i : Instr} {s : State} {d : Fin 64} {o : Operand} {os : List Operand} {rx : Option Rx} {fs : Bool}
    {m f : Nat → Bool → List Nat → Nat} (run : exec i s = s.viIssue (logicOp (o :: os) d m) rx fs)
    (same : ∀ w sg x xs, 0 < w → x < 2 ^ w → (∀ y ∈ xs, y < 2 ^ w) → xs.length = os.length → m w sg (x :: xs) = f w sg (x :: xs) % 2 ^ w) :
    LogicRuns i s d o os rx fs f := by
  intro T tags ready free
  have result : ∀ t ∈ s.lanes, logicTag ((o :: os).map fun o => o.tag s.focus.r t) = T t := fun t ht =>
    (logicTag_eq_logicT _ _).trans (tags t ht).symm
  have value : ∀ t i, m (tagWidth (o.tag s.focus.r t)) (tagSigned (o.tag s.focus.r t))
      (((o :: os).map fun p => p.whole s.focus.r t).map (elemOf (tagWidth (o.tag s.focus.r t)) i)) =
        f (tagWidth (o.tag s.focus.r t)) (tagSigned (o.tag s.focus.r t))
          (((o :: os).map fun p => p.whole s.focus.r t).map (elemOf (tagWidth (o.tag s.focus.r t)) i)) % 2 ^ tagWidth (o.tag s.focus.r t) :=
    fun t i => same _ _ _ _ (tag_split _).2.2.1 (elemOf_lt _ _ _) (by simpa using fun p _ => elemOf_lt _ _ _) (by simp)
  refine VRuns_of i s _ d _ _ _ _ _ _ _ run rfl (fun t ht => congrArg tagCount (result t ht)) ready free (by simp [logicOp, noUses])
    (fun t ht => congrArg some (result t ht.1)) (fun t ht e he => ?_) (by simp)
  have position : (logicOp (o :: os) d m).at s.focus.r t e =
      if tagWidth (T t) = tagWidth (o.tag s.focus.r t) then some (m (tagWidth (o.tag s.focus.r t)) (tagSigned (o.tag s.focus.r t))
          (((o :: os).map fun p => p.whole s.focus.r t).map (elemOf (tagWidth (o.tag s.focus.r t)) e)), 0)
      else some (((List.range (64 / tagWidth (o.tag s.focus.r t))).map fun i =>
        m (tagWidth (o.tag s.focus.r t)) (tagSigned (o.tag s.focus.r t))
          (((o :: os).map fun p => p.whole s.focus.r t).map (elemOf (tagWidth (o.tag s.focus.r t)) i)) *
            2 ^ (tagWidth (o.tag s.focus.r t) * i)).sum, 0) := by
    rw [← result t ht.1]
    rfl
  simp only [position, value]
  by_cases layout : tagWidth (T t) = tagWidth (o.tag s.focus.r t)
  · have inside : e < tagCount (o.tag s.focus.r t) := by
      simpa [counts, tagCount, layout] using he
    rw [if_pos layout, layout, elemOf_logicWord _ _ inside]
    rfl
  · have raw : T t = tRAW := by
      rw [tags t ht.1]
      refine (logicT_cases (o.tag s.focus.r t) (os.map fun o => o.tag s.focus.r t)).resolve_left fun h => layout ?_
      rw [tags t ht.1]
      exact h
    have whole : e < 1 := by
      rwa [counts, raw] at he
    have width : 64 / counts T t = 64 := by
      rw [counts, raw]
      exact (tag_split tRAW).2.1
    have single : ∀ W : Dword, elemOf (tagWidth (T t)) e W = W.toNat := fun W => by
      rw [raw]
      exact elemOf_first W whole
    rw [if_neg layout, single, width]
    simp [logicWord, noFlags]

section
variable {i : Instr} {s : State} {d : Fin 64} {o p : Operand} {rx : Option Rx} {fs : Bool} {m f : Nat → Bool → List Nat → Nat}

theorem logicOp_runs_one (run : exec i s = s.viIssue (logicOp [o] d m) rx fs)
    (same : ∀ w sg x, 0 < w → x < 2 ^ w → m w sg [x] = f w sg [x] % 2 ^ w) : LogicRuns i s d o [] rx fs f :=
  logicOp_runs run fun w sg x xs pos hx _ len => by
    obtain rfl := List.length_eq_zero_iff.1 len
    exact same w sg x pos hx

theorem logicOp_runs_two (run : exec i s = s.viIssue (logicOp [o, p] d m) rx fs)
    (same : ∀ w sg x y, 0 < w → x < 2 ^ w → y < 2 ^ w → m w sg [x, y] = f w sg [x, y] % 2 ^ w) : LogicRuns i s d o [p] rx fs f :=
  logicOp_runs run fun w sg x xs pos hx hxs len => by
    obtain ⟨y, rfl⟩ := List.length_eq_one_iff.1 len
    exact same w sg x y pos hx (hxs y List.mem_cons_self)

end

theorem and_mod {w x : Nat} (y : Nat) (hx : x < 2 ^ w) : x &&& y = (x &&& y) % 2 ^ w :=
  (Nat.mod_eq_of_lt (Nat.and_le_left.trans_lt hx)).symm

theorem or_mod {w x y : Nat} (hx : x < 2 ^ w) (hy : y < 2 ^ w) : x ||| y = (x ||| y) % 2 ^ w := (Nat.mod_eq_of_lt (Nat.or_lt_two_pow hx hy)).symm

theorem xor_mod {w x y : Nat} (hx : x < 2 ^ w) (hy : y < 2 ^ w) : x ^^^ y = (x ^^^ y) % 2 ^ w := (Nat.mod_eq_of_lt (Nat.xor_lt_two_pow hx hy)).symm

theorem toNat_mod {w : Nat} (x : BitVec w) : x.toNat = x.toNat % 2 ^ w := (Nat.mod_eq_of_lt x.isLt).symm

/-- A count of bits fits the position that they stand in. -/
theorem count_mod {w k : Nat} (h : k ≤ w) : k = k % 2 ^ w := (Nat.mod_eq_of_lt (h.trans_lt Nat.lt_two_pow_self)).symm

theorem ones_le (w x : Nat) : ones w x ≤ w := (List.length_filter_le _ _).trans_eq List.length_range

theorem leading_le (w x : Nat) : leading w x ≤ w := (List.takeWhile_sublist _).length_le.trans_eq List.length_range

theorem sarBits_mod {w x : Nat} (pos : 0 < w) (hx : x < 2 ^ w) (k : Nat) :
    sarBits w x k = ((BitVec.ofNat w x).toInt / 2 ^ min k w % 2 ^ w).toNat % 2 ^ w := by
  rw [sarBits_eq pos hx, ← wrapInt_eq, Nat.mod_eq_of_lt (wrapInt_lt w _)]

/-- An immediate fits its position (R123). -/
theorem immBits_eq (imm : BitVec 12) (w : Nat) : immBits imm w = immOf w imm ∧ immOf w imm < 2 ^ w :=
  have eq : immBits imm w = immOf w imm := wrapInt_eq w imm.toInt
  ⟨eq, eq ▸ wrapInt_lt w imm.toInt⟩

/-- Settles O2: every instruction issues `logicOp` with a function that is the stated one on patterns. -/
theorem vectorLogic : Obligations.VectorLogic := by
  intro d a b c fs rx s
  simp only [logic2Table, logic1Table, List.forall_mem_cons]
  refine ⟨⟨?vand, ?vor, ?vxor, ?vandn, ?vshl, ?vshr, ?vsar, ?vrol, List.forall_mem_nil _⟩, ⟨?vnot, ?vpopc, ?vclz, ?vbrev, List.forall_mem_nil _⟩,
    ?vbfx, ?vbfi, fun imm => ⟨?vandi, ?vori, ?vxori⟩, fun n => ⟨?vshli, ?vshri, ?vsari⟩⟩
  case vand => exact logicOp_runs_two rfl fun w _ x y _ hx _ => and_mod y hx
  case vor => exact logicOp_runs_two rfl fun w _ x y _ hx hy => or_mod hx hy
  case vxor => exact logicOp_runs_two rfl fun w _ x y _ hx hy => xor_mod hx hy
  case vandn => exact logicOp_runs_two rfl fun w _ x y _ hx hy => (congrArg (x &&& ·) (notBits_of_lt hy)).trans (and_mod _ hx)
  case vshl => exact logicOp_runs_two rfl fun w _ x k _ _ _ => (shlBits_eq x k).trans (by simp only [List.getD_cons_zero, List.getD_cons_succ]; split <;> simp)
  case vshr => exact logicOp_runs_two rfl fun w _ x k _ hx _ => shrBits_eq hx k
  case vsar => exact logicOp_runs_two rfl fun w _ x k pos hx _ => sarBits_mod pos hx k
  case vrol => exact logicOp_runs_two rfl fun w _ x k pos hx _ => (rolBits_eq pos hx k).trans (toNat_mod _)
  case vnot => exact logicOp_runs_one rfl fun w _ x _ hx => (notBits_of_lt hx).trans (Nat.mod_eq_of_lt (by have := Nat.two_pow_pos w; omega)).symm
  case vpopc => exact logicOp_runs_one rfl fun w _ x _ _ => (popcount_eq_ones w x).trans (count_mod (ones_le w x))
  case vclz => exact logicOp_runs_one rfl fun w _ x _ hx => (leadingZeros_eq_leading hx).trans (count_mod (leading_le w x))
  case vbrev => exact logicOp_runs_one rfl fun w _ x _ _ => (bitReverse_eq w x).trans (toNat_mod _)
  case vbfx => exact logicOp_runs rfl fun w sg x xs _ _ _ _ => bfx_eq x sg _ _
  case vbfi =>
    refine logicOp_runs rfl fun w _ x xs _ _ hxs len => ?_
    obtain ⟨p, n, old, rfl⟩ := List.length_eq_three.1 len
    exact bfi_eq (hxs old (by simp)) x p n
  case vandi => exact logicOp_runs_one rfl fun w _ x _ hx => (congrArg (x &&& ·) (immBits_eq imm w).1).trans (and_mod _ hx)
  case vori => exact logicOp_runs_one rfl fun w _ x _ hx => (congrArg (x ||| ·) (immBits_eq imm w).1).trans (or_mod hx (immBits_eq imm w).2)
  case vxori => exact logicOp_runs_one rfl fun w _ x _ hx => (congrArg (x ^^^ ·) (immBits_eq imm w).1).trans (xor_mod hx (immBits_eq imm w).2)
  case vshli => exact logicOp_runs_one rfl fun w _ x _ _ => shlBits_eq x n.val
  case vshri => exact logicOp_runs_one rfl fun w _ x _ hx => shrBits_eq hx n.val
  case vsari => exact logicOp_runs_one rfl fun w _ x pos hx => sarBits_mod pos hx n.val

end Sys2Proof.Machine
end

section
/-! PROOF. Sums, products and dot products (R150, R154, R161). -/
namespace Sys2Proof.Machine
open Sys2Proof.Claims

/-- The block scales of the positions of operands by number, as a vector operation takes them (R65). -/
def scaleOf (r : Regs) (ops : List Operand) (t : Fin 32) (k e : Nat) : Int :=
  match ops[k]? with
  | some o => o.scale r t e
  | none => 0

theorem scaleOf_some {r : Regs} {ops : List Operand} {t : Fin 32} {k e : Nat} {o : Operand} (h : ops[k]? = some o) :
    scaleOf r ops t k e = o.scale r t e := by
  rw [scaleOf, h]

section
variable {i : Instr} {s : State} {d : Fin 64} {rx : Option Rx} {fs : Bool} {ops : List Operand} {t : Fin 32}

/-! What a float operation computes on -/

theorem fmtOf_of_tagBin {T : Fin 16} (h : tagBin T = true) : fmtOf T = some (fmt T) := by
  revert T
  decide

theorem fsum_of_tagBin {T : Fin 16} (h : tagBin T = true) (r : Rounding) (nv : Bool) (terms : List FVal) :
    fsum T r nv terms = sumResult (fmt T) r nv terms := by
  rw [fsum, fmtOf_of_tagBin h]

/-- The value that an operation takes from operand k in thread t. -/
def fvalAt (s : State) (ops : List Operand) (t : Fin 32) (k e : Nat) : FVal :=
  fval (ops.map fun o => o.tag s.focus.r t) (ops.map fun o => o.whole s.focus.r t) (scaleOf s.focus.r ops t) k e

/-- It is the value that the operand gives (R65). -/
theorem fvalAt_eq_fArg {o : Operand} {k e : Nat} (operand : ops[k]? = some o) (he : e < tagCount (o.tag s.focus.r t)) :
    fvalAt s ops t k e = fArg s o t e := by
  have tag : (ops.map fun o => o.tag s.focus.r t).getD k 0 = o.tag s.focus.r t := by
    simp [List.getD_eq_getElem?_getD, operand]
  have raw : rawAt (ops.map fun o => o.whole s.focus.r t) k = o.whole s.focus.r t := by
    simp [rawAt, List.getD_eq_getElem?_getD, operand]
  simp only [fvalAt, fval, fArg, tag, raw, scaleOf_some operand, o.elemOf_whole s.focus.r t e he]

/-- The values of all operands that have one tag. -/
theorem fvalsAt_eq_fArgs {e : Nat} {T : Fin 16} (tags : ∀ o ∈ ops, o.tag s.focus.r t = T) (he : e < tagCount T) :
    ((List.range ops.length).map fun k => fvalAt s ops t k e) = ops.map fun o => fArg s o t e := by
  refine List.ext_getElem (by simp) fun k hk _ => ?_
  have inside : k < ops.length := by simpa using hk
  simp only [List.getElem_map, List.getElem_range]
  exact fvalAt_eq_fArg (List.getElem?_eq_getElem inside) (tags _ (List.getElem_mem inside) ▸ he)

/-- An instruction on operands of one binary tag gives its function of their values (R149). -/
theorem floatOp_runs {o : Operand} {os : List Operand} {m : Fin 16 → Rounding → List FVal → Rounded}
    {f : Fmt → Rounding → List FVal → Rounded} (run : exec i s = s.fIssue (o :: os) d fs rx m)
    (same : ∀ T r l, tagBin T = true → m T r l = f (fmt T) r l) :
    FltRuns i s d (o :: os) rx fs (s.focus.r.code rx) (rxSat rx) f := by
  intro T one ready free
  obtain ⟨first, all⟩ := one
  refine VRuns_of i s _ d _ _ _ _ _ _ _ run rfl (fun t ht => congrArg tagCount (first t ht o rfl)) ready free (by simp [floatOp, noUses])
    (fun t ht => tagIf_of_forall (List.cons_ne_nil _ _) (all t ht).1 (all t ht).2) (fun t ht e he => ?_) (by simp)
  have position : (floatOp (o :: os) d (s.focus.r.rounding (s.focus.r.code rx) (rxSat rx)) m).at s.focus.r t e =
      some (m (o.tag s.focus.r t) (rounding s rx (rxSat rx) (o.tag s.focus.r t) t e)
        ((List.range (o :: os).length).map fun k => fvalAt s (o :: os) t k e)) := rfl
  rw [position, fvalsAt_eq_fArgs (all t ht).2 he, first t ht.1 o rfl, same _ _ _ (all t ht).1]
  rfl

end

/-! The sums and products -/

theorem FVal.isSnan_negate (x : FVal) : x.negate.isSnan = x.isSnan := by
  cases x <;> rfl

/-- An operand by number signals only where one of them does. -/
theorem snanIn_append_getD (l : List FVal) (k : Nat) : snanIn (l ++ [l.getD k (.num false 0 0)]) = snanIn l := by
  rcases Nat.lt_or_ge k l.length with inside | outside
  · have member : l.getD k (.num false 0 0) ∈ l := by
      rw [List.getD_eq_getElem _ _ inside]
      exact List.getElem_mem inside
    have absorbed : (l.getD k (.num false 0 0)).isSnan = true → l.any FVal.isSnan = true := fun h => List.any_eq_true.2 ⟨_, member, h⟩
    simp only [snanIn, List.any_append, List.any_cons, List.any_nil, Bool.or_false]
    cases h : (l.getD k (.num false 0 0)).isSnan
    · simp
    · simp [absorbed h]
  · rw [List.getD_eq_default _ _ outside]
    simp only [snanIn, List.any_append, List.any_cons, List.any_nil, FVal.isSnan, Bool.or_false]

theorem snanIn_append_negate (l : List FVal) (x : FVal) : snanIn (l ++ [x.negate]) = snanIn (l ++ [x]) := by
  simp [snanIn, FVal.isSnan_negate]

theorem sumOf_terms (f : Fmt) (r : Rounding) (l terms : List FVal) : sumOf f r l [] terms = sumResult f r (snanIn l) terms := by
  simp [sumOf, snanIn]

theorem sumOf_product (f : Fmt) (r : Rounding) (l terms : List FVal) (x y : FVal) :
    sumOf f r l [(x, y)] terms = sumResult f r (snanIn l || mulInvalid x y) terms := by
  simp [sumOf, snanIn]

/-- A product, with what is added to it, rounded once (R154). -/
theorem fmaOf_eq_sumOf {T : Fin 16} (h : tagBin T = true) (r : Rounding) (neg : Bool) (l : List FVal) (c : Option FVal)
    (quiet : snanIn (l ++ c.toList) = snanIn l) : fmaOf T r neg l c =
      sumOf (fmt T) r l [(arg l 0, arg l 1)] ((if neg then ((arg l 0).mul (arg l 1)).negate else (arg l 0).mul (arg l 1)) :: c.toList) := by
  rw [sumOf_product, ← quiet, ← fsum_of_tagBin h]
  rfl

/-! The dot products -/

/-- An operand pair of a dot product signals, or its product is invalid, as the one or the other does. -/
theorem any_products (l : List (FVal × FVal)) : (l.any fun q => q.1.isSnan || q.2.isSnan || mulInvalid q.1 q.2) =
    ((l.flatMap fun q => [q.1, q.2]).any FVal.isSnan || l.any fun q => mulInvalid q.1 q.2) := by
  induction l with
  | nil => rfl
  | cons q l ih =>
    simp only [List.any_cons, ih, List.flatMap_cons, List.any_append, List.any_nil, Bool.or_false]
    simp only [Bool.or_assoc, Bool.or_left_comm]

/-- A dot product of k positions sums the products of its part of A and B, and C (R161). -/
theorem dotOp_runs {i : Instr} {s : State} {d : Fin 64} {rx : Option Rx} {fs : Bool} {oa ob oc : Operand} {k : Nat} {ok : Fin 16 → Bool}
    (run : exec i s = s.vfIssue (dotOp [oa, ob, oc] d k ok (s.focus.r.rounding (s.focus.r.code rx) (rxSat rx))) (s.focus.r.code rx) rx fs)
    (parts : ∀ T, ok T = true → tagCount T = 2 * k) (ready : Ready s (rxGuard rx) (counts fun _ => tF32) [oa, ob, oc])
    (free : DstFree s (rxGuard rx) (counts fun _ => tF32) d)
    (tags : ∀ t, Active s (rxGuard rx) (counts fun _ => tF32) t → ok (oa.tag s.focus.r t) = true ∧
      ob.tag s.focus.r t = oa.tag s.focus.r t ∧ oc.tag s.focus.r t = tF32) :
    let prods := fun t p => (List.range k).map fun j => (fArg s oa t (k * p + j), fArg s ob t (k * p + j))
    let x := fun t p => sumOf ⟨8, 23⟩ (rounding s rx (rxSat rx) tF32 t p)
      (fArg s oc t p :: (prods t p).flatMap fun q => [q.1, q.2]) (prods t p) (fArg s oc t p :: (prods t p).map fun q => q.1.mul q.2)
    VRuns i s d (rxGuard rx) (counts fun _ => tF32) (fun _ => tF32) (longOf s rx fs) (drawn (s.focus.r.code rx))
      (fun t p => some (x t p).1) (fun t p => (x t p).2) := by
  intro prods x
  refine VRuns_of i s _ d _ _ _ _ _ _ _ run rfl (fun _ _ => rfl) ready free (by simp [dotOp, noUses]) (fun t ht => ?_)
    (fun t ht p hp => ?_) (by simp)
  · obtain ⟨ha, hb, hc⟩ := tags t ht
    simp [dotOp, VOp.tags, ha, hb, hc]
  · obtain ⟨ha, hb, hc⟩ := tags t ht
    have position : (dotOp [oa, ob, oc] d k ok (s.focus.r.rounding (s.focus.r.code rx) (rxSat rx))).at s.focus.r t p =
        let pairs := (List.range k).map fun j => (fvalAt s [oa, ob, oc] t 0 (k * p + j), fvalAt s [oa, ob, oc] t 1 (k * p + j))
        let c := fvalAt s [oa, ob, oc] t 2 p
        some (fsum tF32 (rounding s rx (rxSat rx) tF32 t p)
          (c.isSnan || pairs.any fun q => q.1.isSnan || q.2.isSnan || mulInvalid q.1 q.2) (c :: pairs.map fun q => q.1.mul q.2)) := rfl
    have third : fvalAt s [oa, ob, oc] t 2 p = fArg s oc t p := fvalAt_eq_fArg rfl (hc ▸ hp)
    have half : p < 2 := hp.trans_eq (show tagCount tF32 = 2 by decide)
    have pairs : ((List.range k).map fun j => (fvalAt s [oa, ob, oc] t 0 (k * p + j), fvalAt s [oa, ob, oc] t 1 (k * p + j))) = prods t p := by
      refine List.map_congr_left fun j hj => ?_
      have inside : k * p + j < tagCount (oa.tag s.focus.r t) := by
        have := List.mem_range.1 hj
        have := Nat.mul_le_mul_left k (Nat.le_of_lt_succ half)
        rw [parts _ ha]
        omega
      rw [fvalAt_eq_fArg rfl inside, fvalAt_eq_fArg rfl (hb ▸ inside)]
    have value : fsum tF32 (rounding s rx (rxSat rx) tF32 t p)
        ((fArg s oc t p).isSnan || (prods t p).any fun q => q.1.isSnan || q.2.isSnan || mulInvalid q.1 q.2)
        (fArg s oc t p :: (prods t p).map fun q => q.1.mul q.2) = x t p := by
      rw [any_products, ← Bool.or_assoc, fsum_of_tagBin (by decide)]
      rfl
    simp only [position, third, pairs, value, Option.map_some]

/-- Settles O6: the sums issue `floatOp` with one rounding of their terms, and the dot products `dotOp`. -/
theorem floatSums : Obligations.FloatSums := by
  intro d a b c fs rx s
  refine ⟨?_, ?_, fun i k ok kind ready free tags => ?_⟩
  · simp only [sum2Table, List.forall_mem_cons]
    refine ⟨?fadd, ?fsub, ?fmul, List.forall_mem_nil _⟩
    case fadd => exact floatOp_runs rfl fun T r l h => (fsum_of_tagBin h r _ _).trans (sumOf_terms _ r l _).symm
    case fsub => exact floatOp_runs rfl fun T r l h => (fsum_of_tagBin h r _ _).trans (sumOf_terms _ r l _).symm
    case fmul => exact floatOp_runs rfl fun T r l h => fmaOf_eq_sumOf h r false l none (by simp)
  · simp only [sum3Table, List.forall_mem_cons]
    refine ⟨?fma, ?fms, ?fnma, List.forall_mem_nil _⟩
    case fma => exact floatOp_runs rfl fun T r l h => fmaOf_eq_sumOf h r false l (some _) (snanIn_append_getD l 2)
    case fms =>
      exact floatOp_runs rfl fun T r l h => fmaOf_eq_sumOf h r false l (some _) ((snanIn_append_negate l _).trans (snanIn_append_getD l 2))
    case fnma => exact floatOp_runs rfl fun T r l h => fmaOf_eq_sumOf h r true l (some _) (snanIn_append_getD l 2)
  · rcases kind with ⟨rfl, rfl, rfl⟩ | ⟨rfl, rfl, rfl⟩
    · exact dotOp_runs rfl (by decide) ready free tags
    · exact dotOp_runs rfl (by decide) ready free tags

end Sys2Proof.Machine
end

section
/-! PROOF. Conversions of elements (R138), and CVT. -/
namespace Sys2Proof.Machine
open Sys2Proof.Claims

section
variable {i : Instr} {s : State} {v : VOp} {d : Fin 64} {rx : Option Rx} {fs : Bool} {T : Fin 16}

/-- An instruction with one result tag whose operation gives `x` runs with its values and flags. -/
theorem rounded_runs {post : Regs → Regs} {x : Fin 32 → Nat → Option Rounded}
    (run : exec i s = .next (s.vecIssue v (rxGuard rx) (longOf s rx fs) post)) (dst : v.dst = .v d) (count : v.count = fun _ => T)
    (uses : ∀ u ∈ v.uses (v.activeLanes s.focus.r (rxGuard rx) s.lanes), ∀ t ∈ u.lanes, s.focus.r.marked u.file u.num t = false)
    (tags : ∀ t, Active s (rxGuard rx) (counts fun _ => T) t → v.result (v.tags s.focus.r t) = some T)
    (values : ∀ t, Active s (rxGuard rx) (counts fun _ => T) t → ∀ e < tagCount T, v.at s.focus.r t e = x t e)
    (ready : Ready s (rxGuard rx) (counts fun _ => T) v.ops) (free : DstFree s (rxGuard rx) (counts fun _ => T) d) :
    RoundedRuns i s d rx fs T post x := by
  refine VRuns_of i s v d _ _ _ _ _ _ _ run dst (fun t _ => by rw [VOp.n, count, counts]) ready free uses tags (fun t ht e he => ?_)
    (fun t e _ none => ?_)
  · rw [values t ht e he]
    cases x t e <;> rfl
  · rw [Option.map_eq_none_iff.1 none]
    rfl

/-- An element converted is the one that R138 gives. -/
theorem convertElem_eq_conv (S T : Fin 16) (ss ds : Int) (r : Rounding) {n : Nat} (hn : n < 2 ^ tagWidth S) :
    convertElem S T ss ds r n = conv S T ss ds r n := by
  unfold convertElem conv
  cases tagInt S
  · rfl
  · cases tagInt T
    · simp only [elemInt_eq_intOf S hn, intValue, if_true, Bool.false_eq_true, if_false]
    · simp only [elemInt_eq_intOf S hn, saturate_eq, wrapInt_eq, if_true]
      by_cases fits : clamp T (intOf S n) = intOf S n <;> cases r.sat <;> simp [fits]

/-- The part of a conversion reads a position that the source has (R138). -/
theorem convSrc_lt {ns nd p e j : Nat} (part : p < ratio ns nd) (he : e < nd) (h : convSrc ns nd p e = some j) : j < ns := by
  unfold ratio at part
  unfold convSrc at h
  split at h
  · split at h
    · next inside => cases h; omega
    · cases h
  · next wide =>
    rw [if_neg wide] at part
    split at h
    · next less =>
      rw [if_pos less] at part
      cases h
      have := Nat.mul_le_of_le_div _ _ _ (Nat.succ_le_of_lt part)
      rw [Nat.succ_mul] at this
      omega
    · cases h
      omega

/-- What the operation of CVT and CVTS gives position e of thread t, from the operands `a :: ops`. -/
def cvtAt (s : State) (a : Operand) (ops : List Operand) (p : Nat) (T : Fin 16) (rnd : Fin 32 → Nat → Nat → Rounding) (ds : Fin 32 → Int)
    (t : Fin 32) (e : Nat) : Option Rounded :=
  (cvtSrc (tagCount (a.tag s.focus.r t)) (tagCount T) p e).map fun j =>
    convertElem (a.tag s.focus.r t) T (if a.tag s.focus.r t = tM8 then scaleOf s.focus.r (a :: ops) t 0 j else 0) (if T = tM8 then ds t else 0)
      (rnd t e (tagCount T)) (elemOf (tagWidth (a.tag s.focus.r t)) j (a.whole s.focus.r t))

/-- Where the part covers positions of the operand, it is what R138 gives. -/
theorem cvtAt_eq_convAt {a : Operand} {ops : List Operand} {p : Nat} {sat : Bool} {ds : Fin 32 → Int} {t : Fin 32} {e : Nat}
    (part : p < ratio (tagCount (a.tag s.focus.r t)) (tagCount T)) (he : e < tagCount T) :
    cvtAt s a ops p T (s.focus.r.rounding (s.focus.r.code rx) sat) ds t e = convAt s a T p ds (rounding s rx sat T) t e := by
  refine Option.map_congr fun j hj => ?_
  have inside := convSrc_lt part he (Option.mem_def.1 hj)
  rw [convertElem_eq_conv _ _ _ _ _ (elemOf_lt _ _ _), a.elemOf_whole s.focus.r t j inside]
  rfl

theorem cvtOp_at (a : Operand) (p : Nat) (lanes : List (Fin 32)) (rnd : Fin 32 → Nat → Nat → Rounding) (ds : Fin 32 → Int) (t : Fin 32) (e : Nat) :
    (cvtOp s.focus.r a d p T lanes rnd ds).at s.focus.r t e = cvtAt s a [] p T rnd ds t e := rfl

theorem cvtOp_result {r : Regs} {a : Operand} {p : Nat} {lanes : List (Fin 32)} {rnd : Fin 32 → Nat → Nat → Rounding} {ds : Fin 32 → Int}
    {S : Fin 16} {ts : List (Fin 16)} (noRaw : S ≠ tRAW) (noHandle : S ≠ tHND) (part : p < ratio (tagCount S) (tagCount T)) :
    (cvtOp r a d p T lanes rnd ds).result (S :: ts) = some T := by
  have ok : cvtPartOk (tagCount S) (tagCount T) p = true := decide_eq_true part
  simp [cvtOp, noRaw, noHandle, ok]

/-- The base of the block scales of an m8 destination is free where an active thread uses it (R65). -/
theorem m8BaseUse_free {r : Regs} {lanes act : List (Fin 32)}
    (free : T = tM8 → act ≠ [] → ∀ t ∈ lanes, r.marked .s r.side[d].base.val t = false) :
    ∀ u ∈ m8BaseUse r T d lanes act, ∀ t ∈ u.lanes, r.marked u.file u.num t = false := by
  intro u hu
  rw [m8BaseUse] at hu
  split at hu
  · next used =>
    obtain ⟨m8, some⟩ := Bool.and_eq_true_iff.1 used
    obtain rfl := List.mem_singleton.1 hu
    exact free (of_decide_eq_true m8) (by simpa using some)
  · exact absurd hu List.not_mem_nil

/-- A list of active threads that is not empty holds one that is active. -/
theorem exists_active {v : VOp} {n : Fin 32 → Nat} {g : Guard} (positions : v.n s.focus.r = n) (some : v.activeLanes s.focus.r g s.lanes ≠ []) :
    ∃ t, Active s g n t := by
  obtain ⟨t, ht⟩ := List.exists_mem_of_ne_nil _ some
  exact ⟨t, positions ▸ (v.mem_activeLanes _ _ _ _).1 ht⟩

end

/-- R138: CVT issues `cvtOp` on its operand. -/
theorem conversion : Conversion := by
  intro d a p T fs rx s g r tags ready free base
  refine rounded_runs (v := cvtOp r (opA a rx) d p.val T s.lanes (r.rounding (r.code rx) (rxSat rx)) (r.scale d)) rfl rfl rfl
    (m8BaseUse_free fun m8 act => base m8 (exists_active rfl act)) (fun t ht => ?_) (fun t ht e he => ?_) ready free
  · obtain ⟨noRaw, noHandle, part⟩ := tags t ht
    exact cvtOp_result noRaw noHandle part
  · obtain ⟨-, -, part⟩ := tags t ht
    exact (cvtOp_at ..).trans (cvtAt_eq_convAt part he)

end Sys2Proof.Machine
end

section
/-! PROOF. CVTS: the deltas of an m8 register, and the conversion under them (R139). -/
namespace Sys2Proof.Machine
open Sys2Proof.Claims

/-! Largest of a list -/

/-- The largest of a list and a first number is one of them, and none is larger. -/
theorem foldl_max_spec (l : List Int) (z : Int) :
    (l.foldl max z = z ∨ l.foldl max z ∈ l) ∧ z ≤ l.foldl max z ∧ ∀ y ∈ l, y ≤ l.foldl max z := by
  induction l generalizing z with
  | nil => simp
  | cons a l ih =>
    obtain ⟨one, first, all⟩ := ih (max z a)
    rw [List.foldl_cons]
    refine ⟨?_, (le_max_left z a).trans first, ?_⟩
    · rcases one with eq | later
      · rcases max_choice z a with h | h
        · exact .inl (eq.trans h)
        · exact .inr (by rw [eq, h]; exact List.mem_cons_self)
      · exact .inr (List.mem_cons_of_mem a later)
    · rintro y (_ | ⟨_, later⟩)
      · exact (le_max_right z a).trans first
      · exact all y later

/-! The deltas -/

section
variable {r : Regs} {d : Fin 64} {b : Operand} {act : List (Fin 32)} {k : Nat} {t : Fin 32}

/-- A delta of a side field: the four bits of a block, as a number (R64). -/
def Side.deltaOf (x : Side) (k : Nat) : Int := (BitVec.ofNat 4 (x.delta.toNat / 2 ^ (4 * k))).toInt

theorem cvtsDelta_lt (r : Regs) (d : Fin 64) (b : Operand) (act : List (Fin 32)) (k : Nat) : cvtsDelta r d b act k < 2 ^ 4 := by
  unfold cvtsDelta
  split
  · exact Nat.mod_lt _ (Nat.two_pow_pos 4)
  · exact wrapInt_lt 4 _

theorem ofNat_mod_two_pow (w x : Nat) : BitVec.ofNat w (x % 2 ^ w) = BitVec.ofNat w x := by
  apply BitVec.eq_of_toNat_eq
  simp

theorem cvtsSide_base : (cvtsSide r d b act).base = r.side[d].base := by
  rw [cvtsSide]

/-- The deltas of the side field after CVTS are those of its blocks. -/
theorem cvtsSide_deltaOf (hk : k < 8) : (cvtsSide r d b act).deltaOf k = (BitVec.ofNat 4 (cvtsDelta r d b act k)).toInt := by
  have small : ∀ i < 8, cvtsDelta r d b act i < 2 ^ 4 := fun i _ => cvtsDelta_lt r d b act i
  have delta : (cvtsSide r d b act).delta.toNat = ((List.range 8).map fun k => cvtsDelta r d b act k * 2 ^ (4 * k)).sum :=
    (BitVec.toNat_ofNat _ _).trans (Nat.mod_eq_of_lt (places_lt 4 8 _ small))
  rw [Side.deltaOf, delta, ← ofNat_mod_two_pow, places_get 4 8 _ small k hk]

/-- The delta of a block without an active thread stays. -/
theorem cvtsDelta_idle (idle : ∀ t ∈ act, t.val / 4 ≠ k) : cvtsDelta r d b act k = r.side[d].delta.toNat / 2 ^ (4 * k) % 2 ^ 4 := by
  have none : act.filter (fun t => t.val / 4 == k) = [] := by simpa using idle
  rw [cvtsDelta, none]
  rfl

theorem toInt_ofNat_wrapInt {z : Int} (low : -8 ≤ z) (high : z ≤ 7) : (BitVec.ofNat 4 (wrapInt 4 z)).toInt = z := by
  rw [← signedOf_eq_toInt (by decide) (wrapInt_lt 4 z), signedOf, wrapInt_eq]
  norm_num
  omega

/-- The exponent that CVTS takes from a thread's operand B (R139). -/
theorem cvts_exponent (tag : b.tag r t = tS32) : signedOf 32 (elemOf 32 0 (b.whole r t)) = (BitVec.ofNat 32 (b.elem r t 0)).toInt := by
  have elem := b.elemOf_whole r t 0 (tag_split _).2.2.2
  rw [tag] at elem
  rw [← elem]
  exact signedOf_eq_toInt (by decide) (elemOf_lt 32 0 _)

/-- The delta of a block with an active thread, from the largest exponent given there. -/
theorem cvtsDelta_active (tags : ∀ t ∈ act, b.tag r t = tS32) (ht : t ∈ act) (block : t.val / 4 = k)
    (largest : ∀ u ∈ act, u.val / 4 = k → (BitVec.ofNat 32 (b.elem r u 0)).toInt ≤ (BitVec.ofNat 32 (b.elem r t 0)).toInt) :
    (BitVec.ofNat 4 (cvtsDelta r d b act k)).toInt = max (-8) (min 7 ((BitVec.ofNat 32 (b.elem r t 0)).toInt -
      (BitVec.ofNat 16 (r.readS r.side[d].base).toNat).toInt - 3)) := by
  have base : signedOf 16 ((r.readS r.side[d].base).toNat % 2 ^ 16) = (BitVec.ofNat 16 (r.readS r.side[d].base).toNat).toInt := by
    rw [signedOf_eq_toInt (by decide) (Nat.mod_lt _ (Nat.two_pow_pos 16)), ofNat_mod_two_pow]
  have given : (act.filter fun t => t.val / 4 == k).map (fun t => signedOf 32 (elemOf 32 0 (b.whole r t))) =
      (act.filter fun t => t.val / 4 == k).map fun t => (BitVec.ofNat 32 (b.elem r t 0)).toInt :=
    List.map_congr_left fun u hu => cvts_exponent (tags u (List.mem_of_mem_filter hu))
  have member : (BitVec.ofNat 32 (b.elem r t 0)).toInt ∈ (act.filter fun t => t.val / 4 == k).map fun t => (BitVec.ofNat 32 (b.elem r t 0)).toInt :=
    List.mem_map_of_mem (List.mem_filter.2 ⟨ht, by simpa using block⟩)
  have above : ∀ y ∈ (act.filter fun t => t.val / 4 == k).map fun t => (BitVec.ofNat 32 (b.elem r t 0)).toInt,
      y ≤ (BitVec.ofNat 32 (b.elem r t 0)).toInt := by
    intro y hy
    obtain ⟨u, hu, rfl⟩ := List.mem_map.1 hy
    obtain ⟨inside, same⟩ := List.mem_filter.1 hu
    exact largest u inside (by simpa using same)
  unfold cvtsDelta
  rw [given, base]
  cases h : (act.filter fun t => t.val / 4 == k).map fun t => (BitVec.ofNat 32 (b.elem r t 0)).toInt with
  | nil => rw [h] at member; exact absurd member List.not_mem_nil
  | cons m ms =>
    rw [h] at member above
    obtain ⟨one, first, all⟩ := foldl_max_spec ms m
    have greatest : ms.foldl max m = (BitVec.ofNat 32 (b.elem r t 0)).toInt := by
      refine le_antisymm ?_ ?_
      · rcases one with eq | later
        · exact eq.trans_le (above m List.mem_cons_self)
        · exact above _ (List.mem_cons_of_mem m later)
      · rcases List.mem_cons.1 member with eq | later
        · exact eq ▸ first
        · exact all _ later
    simp only [greatest]
    exact toInt_ofNat_wrapInt (by omega) (by omega)

end

/-! The conversion under the new deltas -/

/-- Marking the threads of a v destination leaves the side fields alone. -/
theorem Regs.marks_side (l : List (Fin 32)) (file : RegFile) (n : Fin 64) (flag : Fin 12) (r : Regs) :
    (l.foldl (fun r t => r.addMark file n t flag) r).side = r.side := by
  induction l generalizing r with
  | nil => rfl
  | cons t l ih =>
    rw [List.foldl_cons, ih]
    unfold Regs.addMark
    split <;> rfl

/-- So does an instruction that writes v[d], at once or later. -/
theorem settled_side {r : Regs} {lanes : List (Fin 32)} {d : Fin 64} {long : Option (Fin 12 × LongKind)} {ws : List RegWrite} {fp : FpFlags}
    (h : { r.applyAll ws with v := r.v } = r) : (settled r lanes (.v d) long ws fp).side = r.side := by
  cases long with
  | none =>
    have side := congrArg Regs.side h
    exact side
  | some x => exact Regs.marks_side lanes .v d x.1 r

/-- The operation of CVTS: `cvtOp` into m8, with the exponents as a second operand. -/
def cvtsOp (r : Regs) (a b : Operand) (d : Fin 64) (p : Nat) (lanes : List (Fin 32)) (rnd : Fin 32 → Nat → Nat → Rounding) (ds : Fin 32 → Int) : VOp :=
  { cvtOp r a d p tM8 lanes rnd ds with
    ops := [a, b]
    result := fun ts => if tagBin (ts.getD 0 0) && ts.getD 1 0 == tS32 then (cvtOp r a d p tM8 lanes rnd ds).result ts else none }

theorem cvtsOp_result {r : Regs} {a b : Operand} {d : Fin 64} {p : Nat} {lanes : List (Fin 32)} {rnd : Fin 32 → Nat → Nat → Rounding}
    {ds : Fin 32 → Int} {S E : Fin 16} (source : tagBin S = true) (exponent : E = tS32) (part : p < ratio (tagCount S) (tagCount tM8)) :
    (cvtsOp r a b d p lanes rnd ds).result [S, E] = some tM8 := by
  have noRaw : S ≠ tRAW := by rintro rfl; exact absurd source (by decide)
  have noHandle : S ≠ tHND := by rintro rfl; exact absurd source (by decide)
  have accepted := cvtOp_result (r := r) (a := a) (d := d) (lanes := lanes) (rnd := rnd) (ds := ds) (ts := [E]) noRaw noHandle part
  simpa [cvtsOp, source, exponent] using accepted

/-- The active threads of CVTS (R61). -/
def cvtsActive (s : State) (g : Guard) : List (Fin 32) := s.lanes.filter fun t => !(activePos s.focus.r g 8 t).isEmpty

theorem tagCount_m8 : tagCount tM8 = 8 := by decide

theorem cvtsActive_eq (v : VOp) (count : v.count = fun _ => tM8) (s : State) (g : Guard) : v.activeLanes s.focus.r g s.lanes = cvtsActive s g := by
  simp only [VOp.activeLanes, VOp.active, cvtsActive, count, tagCount_m8]

theorem mem_cvtsActive {s : State} {g : Guard} {t : Fin 32} : t ∈ cvtsActive s g ↔ Active s g (counts fun _ => tM8) t := by
  rw [← cvtsActive_eq (constOp 0 0 tM8) rfl]
  exact (constOp 0 0 tM8).mem_activeLanes s.focus.r g s.lanes t

/-- The side field of v[d] in the registers after CVTS, which stays where no thread is active. -/
def cvtsPost (code : Nat) (act : List (Fin 32)) (d : Fin 64) (sd : Side) (q : Regs) : Regs :=
  drawn code { q with side := if act.isEmpty then q.side else q.side.set d sd }

theorem cvtsPost_eq {r q : Regs} {code : Nat} {act : List (Fin 32)} {d : Fin 64} {sd sd' : Side} (side : q.side = r.side)
    (some : act ≠ [] → sd' = sd) (none : act = [] → sd' = r.side[d]) :
    cvtsPost code act d sd q = drawn code { q with side := q.side.set d sd' } := by
  unfold cvtsPost
  by_cases idle : act = []
  · have stays : q.side.set d sd' = q.side := by
      rw [none idle, ← side]
      exact Vector.set_getElem_self d.isLt
    rw [stays, idle]
    rfl
  · rw [some idle, if_neg (by simpa using idle)]

section
variable {d a b : Fin 64} {p : Fin 8} {fs : Bool} {rx : Option Rx} {s : State} {sd : Side}

theorem execCvts_eq : exec (.cvts d a b p fs rx) s = .next (s.vecIssue
    (cvtsOp s.focus.r (oA a rx) (oB b rx) d p.val s.lanes (s.focus.r.rounding (s.focus.r.code rx) (rxSat rx))
      (Regs.scale { s.focus.r with side := s.focus.r.side.set d (cvtsSide s.focus.r d (oB b rx) (cvtsActive s (rxGuard rx))) } d))
    (rxGuard rx) (longOf s rx fs)
    (cvtsPost (s.focus.r.code rx) (cvtsActive s (rxGuard rx)) d (cvtsSide s.focus.r d (oB b rx) (cvtsActive s (rxGuard rx))))) := by
  simp only [cvtsActive]
  rfl

/-- CVTS converts into m8 under the side field that its blocks get, which stays where no thread is active. -/
theorem cvts_runs (some : cvtsActive s (rxGuard rx) ≠ [] → sd = cvtsSide s.focus.r d (oB b rx) (cvtsActive s (rxGuard rx)))
    (none : cvtsActive s (rxGuard rx) = [] → sd = s.focus.r.side[d])
    (tags : ∀ t, Active s (rxGuard rx) (counts fun _ => tM8) t → tagBin ((oA a rx).tag s.focus.r t) = true ∧ (oB b rx).tag s.focus.r t = tS32 ∧
      p.val < ratio (tagCount ((oA a rx).tag s.focus.r t)) 8)
    (ready : Ready s (rxGuard rx) (counts fun _ => tM8) [oA a rx, oB b rx]) (free : DstFree s (rxGuard rx) (counts fun _ => tM8) d)
    (base : UsesS s (rxGuard rx) (counts fun _ => tM8) s.focus.r.side[d].base) :
    RoundedRuns (.cvts d a b p fs rx) s d rx fs tM8 (fun q => drawn (s.focus.r.code rx) { q with side := q.side.set d sd })
      (convAt s (oA a rx) tM8 p.val (Regs.scale { s.focus.r with side := s.focus.r.side.set d sd } d) (rounding s rx (rxSat rx) tM8)) := by
  have part : ∀ t, Active s (rxGuard rx) (counts fun _ => tM8) t → p.val < ratio (tagCount ((oA a rx).tag s.focus.r t)) (tagCount tM8) := by
    rw [tagCount_m8]
    exact fun t ht => (tags t ht).2.2
  obtain ⟨ws, fp, writes, raised, runs⟩ := rounded_runs (T := tM8) (x := convAt s (oA a rx) tM8 p.val
      (Regs.scale { s.focus.r with side := s.focus.r.side.set d sd } d) (rounding s rx (rxSat rx) tM8)) execCvts_eq rfl rfl
    (m8BaseUse_free fun _ act => base (exists_active rfl act)) (fun t ht => cvtsOp_result (tags t ht).1 (tags t ht).2.1 (part t ht))
    (fun t ht e he => by
      rw [← cvtAt_eq_convAt (ops := [oB b rx]) (part t ht) he, some (List.ne_nil_of_mem (mem_cvtsActive.2 ht))]
      rfl) ready free
  refine ⟨ws, fp, writes, raised, runs.trans ?_⟩
  rw [cvtsPost_eq (settled_side writes.rest) (fun h => some h) none]

/-- R139: CVTS sets the deltas of the blocks with an active thread, and converts under them. -/
theorem scaledConversion : ScaledConversion := by
  intro d a b p fs rx s g r n m base delta tags ready free uses
  by_cases idle : cvtsActive s (rxGuard rx) = []
  · refine ⟨s.focus.r.side[d], rfl, fun k hk => ⟨fun _ => rfl, fun t ht => ?_⟩,
      cvts_runs (fun h => absurd idle h) (fun _ => rfl) tags ready free uses⟩
    exact absurd (mem_cvtsActive.2 ht) (idle ▸ List.not_mem_nil)
  · refine ⟨cvtsSide s.focus.r d (oB b rx) (cvtsActive s (rxGuard rx)), cvtsSide_base, fun k hk => ⟨fun none => ?_, fun t ht block largest => ?_⟩,
      cvts_runs (fun _ => rfl) (fun h => absurd h idle) tags ready free uses⟩
    · refine (cvtsSide_deltaOf hk).trans ?_
      rw [cvtsDelta_idle fun t ht => none t (mem_cvtsActive.1 ht), ofNat_mod_two_pow]
    · exact (cvtsSide_deltaOf hk).trans (cvtsDelta_active (fun t ht => (tags t (mem_cvtsActive.1 ht)).2.1) (mem_cvtsActive.2 ht) block
        fun u hu => largest u (mem_cvtsActive.1 hu))

end

end Sys2Proof.Machine
end

section
/-! PROOF. FMAXX: the largest exponent of a block (R140). -/
namespace Sys2Proof.Machine
open Sys2Proof.Claims

theorem xexp_ge (x : FVal) : -32768 ≤ xexp x := by
  cases x with
  | nan => simp [xexp]
  | inf => simp [xexp]
  | num n m e =>
    rw [xexp]
    split
    · exact le_rfl
    · exact le_max_left _ _

/-- The largest of numbers that a first one does not exceed is one of them. -/
theorem foldl_max_mem {l : List Int} {z : Int} (some : l ≠ []) (low : ∀ y ∈ l, z ≤ y) : l.foldl max z ∈ l := by
  obtain ⟨one, -, all⟩ := foldl_max_spec l z
  refine one.elim (fun eq => ?_) id
  obtain ⟨y, hy⟩ := List.exists_mem_of_ne_nil l some
  have same : y = z := le_antisymm (eq ▸ all y hy) (low y hy)
  rwa [eq, ← same]

section
variable {s : State} {rx : Option Rx} {o : Operand} {t u : Fin 32}

/-- The largest exponent of a thread's elements. -/
def laneMax (r : Regs) (o : Operand) (t : Fin 32) : Int :=
  ((List.range (tagCount (o.tag r t))).map fun e =>
    xexp (fdecode (o.tag r t) (if o.tag r t = tM8 then o.scale r t e else 0) (elemOf (tagWidth (o.tag r t)) e (o.whole r t)))).foldl max (-32768)

theorem laneMax_eq : laneMax s.focus.r o t = ((List.range (tagCount (o.tag s.focus.r t))).map fun e => xexp (fArg s o t e)).foldl max (-32768) :=
  congrArg (List.foldl max (-32768)) <| List.map_congr_left fun e he => by
    rw [o.elemOf_whole s.focus.r t e (List.mem_range.1 he)]
    rfl

theorem laneMax_attained : ∃ e < tagCount (o.tag s.focus.r t), laneMax s.focus.r o t = xexp (fArg s o t e) := by
  have some : (List.range (tagCount (o.tag s.focus.r t))).map (fun e => xexp (fArg s o t e)) ≠ [] := by
    have := (tag_split (o.tag s.focus.r t)).2.2.2
    simp
    omega
  have member := foldl_max_mem (z := -32768) some (by simpa using fun e _ => xexp_ge (fArg s o t e))
  rw [← laneMax_eq] at member
  obtain ⟨e, he, eq⟩ := List.mem_map.1 member
  exact ⟨e, List.mem_range.1 he, eq.symm⟩

theorem xexp_le_laneMax {e : Nat} (he : e < tagCount (o.tag s.focus.r t)) : xexp (fArg s o t e) ≤ laneMax s.focus.r o t := by
  rw [laneMax_eq]
  exact (foldl_max_spec _ _).2.2 _ (List.mem_map.2 ⟨e, List.mem_range.2 he, rfl⟩)

/-- The largest exponent of a thread's block (R140). -/
def blockMax (s : State) (rx : Option Rx) (o : Operand) (t : Fin 32) : Int :=
  (((s.participating rx).filter fun u => u.val / 4 == t.val / 4).map (laneMax s.focus.r o)).foldl max (-32768)

theorem blockMax_attained (ht : t ∈ s.participating rx) : ∃ u ∈ s.participating rx, u.val / 4 = t.val / 4 ∧
    ∃ e < tagCount (o.tag s.focus.r u), blockMax s rx o t = xexp (fArg s o u e) := by
  have some : ((s.participating rx).filter fun u => u.val / 4 == t.val / 4).map (laneMax s.focus.r o) ≠ [] :=
    List.ne_nil_of_mem (List.mem_map_of_mem (List.mem_filter.2 ⟨ht, beq_self_eq_true _⟩))
  have low : ∀ y ∈ ((s.participating rx).filter fun u => u.val / 4 == t.val / 4).map (laneMax s.focus.r o), -32768 ≤ y := by
    intro y hy
    obtain ⟨u, -, rfl⟩ := List.mem_map.1 hy
    exact (foldl_max_spec _ _).2.1
  obtain ⟨u, hu, eq⟩ := List.mem_map.1 (foldl_max_mem some low)
  obtain ⟨inside, block⟩ := List.mem_filter.1 hu
  obtain ⟨e, he, exp⟩ := laneMax_attained (s := s) (o := o) (t := u)
  exact ⟨u, inside, by simpa using block, e, he, eq.symm.trans exp⟩

theorem xexp_le_blockMax (hu : u ∈ s.participating rx) (block : u.val / 4 = t.val / 4) {e : Nat} (he : e < tagCount (o.tag s.focus.r u)) :
    xexp (fArg s o u e) ≤ blockMax s rx o t :=
  (xexp_le_laneMax he).trans <| (foldl_max_spec _ _).2.2 _ (List.mem_map_of_mem (List.mem_filter.2 ⟨hu, by simpa using block⟩))

/-- What FMAXX writes in a thread, as a number: the largest exponent of its block, with ACC that of operand B too. -/
def fmaxxValue (s : State) (rx : Option Rx) (a b : Operand) (acc : Bool) (t : Fin 32) : Int :=
  if acc then max (blockMax s rx a t) (signedOf 32 (elemOf 32 0 (b.whole s.focus.r t))) else blockMax s rx a t

/-- The operation of FMAXX. -/
def fmaxxOp (s : State) (rx : Option Rx) (a b : Operand) (d : Fin 64) (acc : Bool) : VOp where
  ops := if acc then [a, b] else [a]
  dst := .v d
  count := fun _ => tRAW
  uses := noUses
  result := fun ts => if (tagBin (ts.getD 0 0) || ts.getD 0 0 == tM8) && (!acc || ts.getD 1 0 == tS32) then some tS32 else none
  elem := fun _ _ _ t _ _ => some (wrapInt 32 (fmaxxValue s rx a b acc t) * (2 ^ 32 + 1), 0)

theorem execFmaxx_eq {d a b : Fin 64} {acc fs : Bool} : exec (.fmaxx d a b acc fs rx) s =
    .next (s.vecIssue (fmaxxOp s rx (oA a rx) (oB b rx) d acc) (rxGuard rx) (longOf s rx fs) (drawn 1)) := rfl

theorem fmaxxOp_result {a b : Operand} {d : Fin 64} {acc : Bool} {r : Regs} (source : tagBin (a.tag r t) = true ∨ a.tag r t = tM8)
    (exponent : acc = true → b.tag r t = tS32) : (fmaxxOp s rx a b d acc).result ((fmaxxOp s rx a b d acc).tags r t) = some tS32 := by
  cases acc
  · rcases source with h | h <;> simp [fmaxxOp, VOp.tags, h]
  · rcases source with h | h <;> simp [fmaxxOp, VOp.tags, h, exponent rfl]

/-- The value of FMAXX is the largest of the exponents of its block and, with ACC, of operand B. -/
theorem fmaxxValue_largest {a b : Operand} {acc : Bool} (ht : t ∈ s.participating rx) (exponent : acc = true → b.tag s.focus.r t = tS32) :
    let exps := fun x : Int => (∃ u ∈ s.participating rx, u.val / 4 = t.val / 4 ∧ ∃ e < tagCount (a.tag s.focus.r u), x = xexp (fArg s a u e)) ∨
      (acc = true ∧ x = (BitVec.ofNat 32 (b.elem s.focus.r t 0)).toInt)
    exps (fmaxxValue s rx a b acc t) ∧ ∀ y, exps y → y ≤ fmaxxValue s rx a b acc t := by
  intro exps
  have block : ∀ y, (∃ u ∈ s.participating rx, u.val / 4 = t.val / 4 ∧ ∃ e < tagCount (a.tag s.focus.r u), y = xexp (fArg s a u e)) →
      y ≤ blockMax s rx a t := by
    rintro y ⟨u, hu, same, e, he, rfl⟩
    exact xexp_le_blockMax hu same he
  cases acc with
  | false =>
    refine ⟨.inl (blockMax_attained ht), ?_⟩
    rintro y (h | ⟨h, -⟩)
    · exact block y h
    · exact absurd h Bool.false_ne_true
  | true =>
    have value : fmaxxValue s rx a b true t = max (blockMax s rx a t) (BitVec.ofNat 32 (b.elem s.focus.r t 0)).toInt :=
      congrArg (max _) (cvts_exponent (exponent rfl))
    rw [value]
    refine ⟨?_, ?_⟩
    · rcases max_choice (blockMax s rx a t) (BitVec.ofNat 32 (b.elem s.focus.r t 0)).toInt with h | h
      · rw [h]
        exact .inl (blockMax_attained ht)
      · exact .inr ⟨rfl, h⟩
    · rintro y (h | ⟨-, rfl⟩)
      · exact (block y h).trans (le_max_left _ _)
      · exact le_max_right _ _

end

/-- R140: FMAXX issues `fmaxxOp`, whose value is the largest exponent. -/
theorem blockExponents : BlockExponents := by
  intro d a b acc fs rx s g r P ops exps tags ready free
  have active : ∀ t, Active s g one t → t ∈ P := by
    rintro t ⟨ht, e, he, on⟩
    obtain rfl := Nat.lt_one_iff.1 he
    exact List.mem_filter.2 ⟨ht, on⟩
  refine ⟨fmaxxValue s rx (oA a rx) (oB b rx) acc, fun t ht => fmaxxValue_largest ht (tags t ht).2, ?_⟩
  refine VRuns_of _ s (fmaxxOp s rx (oA a rx) (oB b rx) d acc) d _ _ _ _ _ _ _ execFmaxx_eq rfl (fun _ _ => show tagCount tRAW = 1 by decide) ready free
    (by simp [fmaxxOp, noUses]) (fun t ht => fmaxxOp_result (tags t (active t ht)).1 (tags t (active t ht)).2) (fun t ht e he => ?_) (by simp)
  have position : (fmaxxOp s rx (oA a rx) (oB b rx) d acc).at s.focus.r t e =
      some (wrapInt 32 (fmaxxValue s rx (oA a rx) (oB b rx) acc t) * (2 ^ 32 + 1), 0) := rfl
  rw [position, wrapInt_eq]
  rfl

end Sys2Proof.Machine
end

section
/-! PROOF. Rounding into m8 (R129, R131, R133). -/
namespace Sys2Proof.Machine
open Sys2Proof.Claims

/-! The bodies in order of magnitude -/

theorem mem_m8Bodies {p : Nat} : p ∈ m8Bodies ↔ p < 128 := by
  simp only [m8Bodies, List.mem_append, List.mem_map, List.mem_range]
  constructor
  · rintro (((((h | ⟨a, h, rfl⟩) | ⟨a, h, rfl⟩) | ⟨a, h, rfl⟩) | ⟨a, h, rfl⟩) | ⟨a, h, rfl⟩) <;> omega
  · intro h
    rcases Nat.lt_or_ge p 4 with h4 | h4
    · exact .inl (.inl (.inl (.inl (.inl h4))))
    rcases Nat.lt_or_ge p 8 with h8 | h8
    · exact .inr ⟨p - 4, by omega, by omega⟩
    rcases Nat.lt_or_ge p 16 with h16 | h16
    · exact .inl (.inl (.inl (.inl (.inr ⟨p - 8, by omega, by omega⟩))))
    rcases Nat.lt_or_ge p 32 with h32 | h32
    · exact .inl (.inr ⟨p - 16, by omega, by omega⟩)
    rcases Nat.lt_or_ge p 64 with h64 | h64
    · exact .inl (.inl (.inl (.inr ⟨p - 32, by omega, by omega⟩)))
    · exact .inl (.inl (.inr ⟨p - 64, by omega, by omega⟩))

/-- Each body's magnitude is above that of the one before, and the two differ in their lowest bit (R129). -/
theorem m8Bodies_chain : m8Bodies.IsChain fun b b' => m8Mag b < m8Mag b' ∧ b % 2 ≠ b' % 2 := by
  decide +kernel

theorem m8Bodies_sorted : m8Bodies.Pairwise fun b b' => m8Mag b < m8Mag b' := by
  have chain : m8Bodies.IsChain fun b b' => m8Mag b < m8Mag b' := m8Bodies_chain.imp fun _ _ h => h.1
  have : IsTrans Nat fun b b' => m8Mag b < m8Mag b' := ⟨fun _ _ _ => Nat.lt_trans⟩
  exact chain.pairwise

theorem m8Mag_inj {p q : Nat} (hp : p < 128) (hq : q < 128) (h : m8Mag p = m8Mag q) : p = q := by
  have distinct : (m8Bodies.map m8Mag).Nodup := List.pairwise_map.2 (m8Bodies_sorted.imp Nat.ne_of_lt)
  exact List.inj_on_of_nodup_map distinct (mem_m8Bodies.2 hp) (mem_m8Bodies.2 hq) h

/-- What the bracket of num/den units is: its lower body is not above, and its upper one, of the other parity, is the next above; at the
top both are the largest body. -/
structure M8Bracket (num den b0 b1 : Nat) (l : List Nat) : Prop where
  low : b0 ∈ l ∧ m8Mag b0 * den ≤ num
  next : (b1 ∈ l ∧ num < m8Mag b1 * den ∧ b0 % 2 ≠ b1 % 2 ∧ ∀ p ∈ l, m8Mag p ≤ m8Mag b0 ∨ m8Mag b1 ≤ m8Mag p) ∨
    (b1 = b0 ∧ ∀ p ∈ l, m8Mag p ≤ m8Mag b0)

theorem m8Bracket_spec {num den b : Nat} {l : List Nat} (sorted : (b :: l).Pairwise fun b b' => m8Mag b < m8Mag b')
    (chain : (b :: l).IsChain fun b b' => m8Mag b < m8Mag b' ∧ b % 2 ≠ b' % 2) (first : m8Mag b * den ≤ num) :
    M8Bracket num den (m8Bracket num den (b :: l)).1 (m8Bracket num den (b :: l)).2 (b :: l) := by
  induction l generalizing b with
  | nil => exact ⟨⟨List.mem_cons_self, first⟩, .inr ⟨rfl, by simp [m8Bracket]⟩⟩
  | cons b' l ih =>
    obtain ⟨above, rest⟩ := List.pairwise_cons.1 sorted
    obtain ⟨⟨less, parity⟩, tail⟩ := List.isChain_cons_cons.1 chain
    rw [m8Bracket]
    split
    · next inside =>
      refine ⟨⟨List.mem_cons_self, first⟩, .inl ⟨by simp, inside, parity, ?_⟩⟩
      rintro p (_ | ⟨_, _ | ⟨_, later⟩⟩)
      · exact .inl le_rfl
      · exact .inr le_rfl
      · exact .inr ((List.pairwise_cons.1 rest).1 p later).le
    · next outside =>
      obtain ⟨⟨member, low⟩, next⟩ := ih rest tail (Nat.le_of_not_lt outside)
      refine ⟨⟨List.mem_cons_of_mem b member, low⟩, next.imp ?_ ?_⟩
      · rintro ⟨upper, inside, differ, split⟩
        refine ⟨List.mem_cons_of_mem b upper, inside, differ, List.forall_mem_cons.2 ⟨.inl (above _ member).le, split⟩⟩
      · rintro ⟨same, all⟩
        exact ⟨same, List.forall_mem_cons.2 ⟨(above _ member).le, all⟩⟩


/-- The bracket of a magnitude among all bodies of m8. -/
theorem m8Bracket_bodies (num den : Nat) : M8Bracket num den (m8Bracket num den m8Bodies).1 (m8Bracket num den m8Bodies).2 m8Bodies :=
  m8Bracket_spec (b := 0) m8Bodies_sorted m8Bodies_chain (by simp [m8Mag])

/-! Exact magnitudes -/

/-- The magnitude of a body, in units of 2^−11. -/
theorem rat_m8Decode {p : Nat} (hp : p < 128) : rat (m8Decode p 0) = (m8Mag p : ℚ) / 2 ^ 11 := by
  have notNan : p ≠ 0x80 := by omega
  have body : p % 128 = p := Nat.mod_eq_of_lt hp
  have positive : ¬ 128 ≤ p := by omega
  rw [m8Decode, if_neg notNan, body]
  simp only [positive, decide_false, Bool.false_and, rat, Bool.false_eq_true, if_false, one_mul]
  by_cases zero : p = 0
  · simp [zero, m8Mag]
  · rw [if_neg zero]
    norm_num [zpow_neg, div_eq_mul_inv]

/-- A magnitude m × 2^e in units of 2^−11, as the fraction that `roundM8` brings it to. -/
def m8Num (m : Nat) (e : Int) : Nat := m * 2 ^ (e + 11).toNat
def m8Den (e : Int) : Nat := 2 ^ (-(e + 11)).toNat

theorem m8Den_pos (e : Int) : 0 < m8Den e := Nat.two_pow_pos _

theorem m8Num_eq (m : Nat) (e : Int) : (m8Num m e : ℚ) = m * 2 ^ e * (2 ^ 11 * m8Den e) := by
  have exponent : ((e + 11).toNat : Int) = e + (11 : Nat) + ((-(e + 11)).toNat : Nat) := by omega
  have power : (2 : ℚ) ^ (e + 11).toNat = 2 ^ e * 2 ^ 11 * 2 ^ (-(e + 11)).toNat := by
    rw [← zpow_natCast, exponent, zpow_add₀ two_ne_zero, zpow_add₀ two_ne_zero, zpow_natCast, zpow_natCast]
  unfold m8Num m8Den
  push_cast
  rw [power]
  ring

/-! What is chosen between two bodies -/

/-- The upper of two bodies is chosen (R131, R133): `rem` of the `gap` lies below the magnitude. -/
def m8Picks (r : Rounding) (neg : Bool) (b1 rem gap : Nat) : Bool :=
  match r.code with
  | 1 => decide (gap < 2 * rem) || (2 * rem == gap && b1 % 2 == 0)
  | _ => roundsUp r neg 0 rem gap false

/-- A body with its sign. -/
def m8Signed (neg : Bool) (b : Nat) : Nat := if b ≠ 0 ∧ neg = true then b + 128 else b

section
variable {r : Rounding} {neg : Bool} {m : Nat} {e : Int} {num den : Nat}

/-- A magnitude strictly between two bodies that follow one another. -/
structure M8Between (num den b0 b1 : Nat) : Prop where
  lower : b0 < 128
  upper : b1 < 128
  low : m8Mag b0 * den < num
  high : num < m8Mag b1 * den
  parity : b0 % 2 ≠ b1 % 2
  apart : ∀ p < 128, m8Mag p ≤ m8Mag b0 ∨ m8Mag b1 ≤ m8Mag p

/-- A magnitude up to the largest is that of a body, or lies between two. -/
theorem m8_exact_or_between (top : num ≤ 2 ^ 22 * den) : let b := m8Bracket num den m8Bodies
    (b.1 < 128 ∧ num = m8Mag b.1 * den) ∨ M8Between num den b.1 b.2 := by
  intro b
  obtain ⟨⟨member, low⟩, next⟩ := m8Bracket_bodies num den
  rcases low.eq_or_lt with exact_ | below
  · exact .inl ⟨mem_m8Bodies.1 member, exact_.symm⟩
  · refine .inr ?_
    rcases next with ⟨upper, high, parity, apart⟩ | ⟨-, all⟩
    · exact ⟨mem_m8Bodies.1 member, mem_m8Bodies.1 upper, below, high, parity, fun p hp => apart p (mem_m8Bodies.2 hp)⟩
    · have largest : 2 ^ 22 ≤ m8Mag (m8Bracket num den m8Bodies).1 := all 7 (mem_m8Bodies.2 (by decide))
      exact absurd (top.trans (Nat.mul_le_mul_right den largest)) (Nat.not_le.2 below)

/-- Beyond the largest magnitude the result is that one (R131). -/
theorem roundM8_beyond (h : 2 ^ 22 * m8Den e < m8Num m e) :
    roundM8 r neg m e = (if neg then 0x87 else 0x07, fOF ||| fNX ||| fSAT) := by
  cases neg <;> exact if_pos h

theorem m8Signed_eq (neg : Bool) (b : Nat) : (if b = 0 then 0 else (if neg then 128 else 0) + b) = m8Signed neg b := by
  unfold m8Signed
  by_cases zero : b = 0
  · simp [zero]
  · cases neg <;> simp [zero, Nat.add_comm]

/-- Up to it, one of the two bodies of the bracket is chosen. -/
theorem roundM8_within (h : ¬ 2 ^ 22 * m8Den e < m8Num m e) :
    let b := m8Bracket (m8Num m e) (m8Den e) m8Bodies
    let rem := m8Num m e - m8Mag b.1 * m8Den e
    roundM8 r neg m e =
      (m8Signed neg (if rem ≠ 0 ∧ m8Picks r neg b.2 rem (m8Mag b.2 * m8Den e - m8Mag b.1 * m8Den e) = true then b.2 else b.1),
        if rem = 0 then 0 else if m8Num m e < m8Den e then fNX ||| fUF else fNX) := by
  intro b rem
  have step : roundM8 r neg m e =
      ((if (if (rem != 0 && m8Picks r neg b.2 rem (m8Mag b.2 * m8Den e - m8Mag b.1 * m8Den e)) = true then b.2 else b.1) = 0 then 0
        else (if neg then 128 else 0) + if (rem != 0 && m8Picks r neg b.2 rem (m8Mag b.2 * m8Den e - m8Mag b.1 * m8Den e)) = true then b.2 else b.1),
        (if (rem != 0) = true then fNX else 0) ||| (if (rem != 0 && decide (m8Num m e < m8Den e)) = true then fUF else 0)) := if_neg h
  rw [step, m8Signed_eq]
  refine Prod.ext ?_ ?_
  · simp
  · by_cases zero : rem = 0
    · simp [zero]
    · by_cases tiny : m8Num m e < m8Den e <;> simp [zero, tiny]

theorem roundM8_exact {b : Nat} (h : ¬ 2 ^ 22 * m8Den e < m8Num m e)
    (bracket : (m8Bracket (m8Num m e) (m8Den e) m8Bodies).1 = b)
    (own : m8Num m e = m8Mag b * m8Den e) : roundM8 r neg m e = (m8Signed neg b, 0) := by
  have whole : m8Num m e - m8Mag b * m8Den e = 0 := Nat.sub_eq_zero_of_le own.le
  have step := roundM8_within (r := r) (neg := neg) h
  simp only [bracket, whole, ne_eq, not_true_eq_false, false_and, if_false, if_true] at step
  exact step

theorem roundM8_between {b0 b1 : Nat} (h : ¬ 2 ^ 22 * m8Den e < m8Num m e)
    (bracket : m8Bracket (m8Num m e) (m8Den e) m8Bodies = (b0, b1))
    (between : M8Between (m8Num m e) (m8Den e) b0 b1) :
    roundM8 r neg m e = (m8Signed neg (if m8Picks r neg b1 (m8Num m e - m8Mag b0 * m8Den e)
        (m8Mag b1 * m8Den e - m8Mag b0 * m8Den e) = true then b1 else b0),
      if m8Num m e < m8Den e then fNX ||| fUF else fNX) := by
  have inexact : m8Num m e - m8Mag b0 * m8Den e ≠ 0 := Nat.sub_ne_zero_of_lt between.low
  have step := roundM8_within (r := r) (neg := neg) h
  simp only [bracket, ne_eq, inexact, not_false_eq_true, true_and, if_false] at step
  exact step

/-! The magnitudes around one that lies between two bodies -/

variable {b0 b1 : Nat}

theorem M8Between.apart_scaled (h : M8Between num den b0 b1) {p : Nat} (hp : p < 128) :
    m8Mag p * den ≤ m8Mag b0 * den ∨ m8Mag b1 * den ≤ m8Mag p * den :=
  (h.apart p hp).imp (Nat.mul_le_mul_right den) (Nat.mul_le_mul_right den)

theorem m8Mag_scaled_inj (pos : 0 < den) {p q : Nat} (hp : p < 128) (hq : q < 128) (h : m8Mag p * den = m8Mag q * den) : p = q :=
  m8Mag_inj hp hq (Nat.eq_of_mul_eq_mul_right pos h)

/-- The upper end of a gap is the nearest of what lies outside it to a point in its upper half; the lower one is as near in the middle. -/
theorem nearest_upper {lo hi n q : Nat} (low : lo < n) (high : n < hi) (split : q ≤ lo ∨ hi ≤ q) (half : hi - lo ≤ 2 * (n - lo)) :
    |(hi : Int) - n| ≤ |(q : Int) - n| ∧ (|(hi : Int) - n| = |(q : Int) - n| → q = hi ∨ (q = lo ∧ 2 * (n - lo) = hi - lo)) := by
  simp only [Int.abs_eq_natAbs]
  omega

/-- The lower end is the nearest to a point in its lower half. -/
theorem nearest_lower {lo hi n q : Nat} (low : lo < n) (high : n < hi) (split : q ≤ lo ∨ hi ≤ q) (half : 2 * (n - lo) ≤ hi - lo) :
    |(lo : Int) - n| ≤ |(q : Int) - n| ∧ (|(lo : Int) - n| = |(q : Int) - n| → q = lo ∨ (q = hi ∧ 2 * (n - lo) = hi - lo)) := by
  simp only [Int.abs_eq_natAbs]
  omega

/-- The nearest codes choose a body that none is nearer than, of two the even one by RNE and the larger one by RNA (R131). -/
theorem M8Between.nearest (h : M8Between num den b0 b1) (pos : 0 < den) {code : Nat} (rounds : r.code = code) (near : code = 1 ∨ code = 5)
    {p : Nat} (hp : p < 128) :
    let b := if m8Picks r neg b1 (num - m8Mag b0 * den) (m8Mag b1 * den - m8Mag b0 * den) = true then b1 else b0
    |((m8Mag b * den : Nat) : Int) - num| ≤ |((m8Mag p * den : Nat) : Int) - num| ∧
      (|((m8Mag b * den : Nat) : Int) - num| = |((m8Mag p * den : Nat) : Int) - num| →
        p = b ∨ if code = 1 then b % 2 = 0 else num < m8Mag b * den) := by
  have split := h.apart_scaled hp
  have same0 := fun eq => m8Mag_scaled_inj pos hp h.lower (den := den) eq
  have same1 := fun eq => m8Mag_scaled_inj pos hp h.upper (den := den) eq
  have low := h.low
  have high := h.high
  have parity := h.parity
  have picks : m8Picks r neg b1 (num - m8Mag b0 * den) (m8Mag b1 * den - m8Mag b0 * den) = true ↔
      if code = 1 then m8Mag b1 * den - m8Mag b0 * den < 2 * (num - m8Mag b0 * den) ∨
        (2 * (num - m8Mag b0 * den) = m8Mag b1 * den - m8Mag b0 * den ∧ b1 % 2 = 0)
      else m8Mag b1 * den - m8Mag b0 * den ≤ 2 * (num - m8Mag b0 * den) := by
    rcases near with rfl | rfl <;> simp [m8Picks, roundsUp, rounds]
  intro b
  by_cases up : m8Picks r neg b1 (num - m8Mag b0 * den) (m8Mag b1 * den - m8Mag b0 * den) = true
  · have upper : b = b1 := if_pos up
    have half : m8Mag b1 * den - m8Mag b0 * den ≤ 2 * (num - m8Mag b0 * den) := by
      have := picks.1 up
      split_ifs at this <;> omega
    obtain ⟨nearer, tie⟩ := nearest_upper low high split half
    rw [upper]
    refine ⟨nearer, fun eq => (tie eq).imp same1 fun ⟨_, middle⟩ => ?_⟩
    have := picks.1 up
    split_ifs at this ⊢ <;> omega
  · have lower : b = b0 := if_neg up
    have half : 2 * (num - m8Mag b0 * den) ≤ m8Mag b1 * den - m8Mag b0 * den := by
      have := mt picks.2 up
      split_ifs at this <;> omega
    obtain ⟨nearer, tie⟩ := nearest_lower low high split half
    rw [lower]
    refine ⟨nearer, fun eq => (tie eq).imp same0 fun ⟨_, middle⟩ => ?_⟩
    have := mt picks.2 up
    split_ifs at this ⊢ <;> omega

end

end Sys2Proof.Machine
end

section
/-! PROOF. Rounding into m8 against exact magnitudes (R129, R131, R133). -/
namespace Sys2Proof.Machine
open Sys2Proof.Claims

section
variable {m : Nat} {e : Int} {p q : Nat}

/-! Comparisons with the exact magnitude, in units -/

theorem unit_pos (e : Int) : (0 : ℚ) < 2 ^ 11 * m8Den e := by
  have : (0 : ℚ) < m8Den e := by exact_mod_cast m8Den_pos e
  positivity

theorem mag_units (e : Int) (hp : p < 128) : ((m8Mag p * m8Den e : Nat) : ℚ) = rat (m8Decode p 0) * (2 ^ 11 * m8Den e) := by
  rw [rat_m8Decode hp]
  push_cast
  ring

theorem mag_le_mag_iff (hp : p < 128) (hq : q < 128) : rat (m8Decode p 0) ≤ rat (m8Decode q 0) ↔ m8Mag p ≤ m8Mag q := by
  rw [rat_m8Decode hp, rat_m8Decode hq, div_le_div_iff_of_pos_right (by positivity), Nat.cast_le]

theorem mag_le_iff (hp : p < 128) : rat (m8Decode p 0) ≤ m * 2 ^ e ↔ m8Mag p * m8Den e ≤ m8Num m e := by
  rw [← mul_le_mul_iff_left₀ (unit_pos e), ← mag_units e hp, ← m8Num_eq, Nat.cast_le]

theorem le_mag_iff (hp : p < 128) : m * 2 ^ e ≤ rat (m8Decode p 0) ↔ m8Num m e ≤ m8Mag p * m8Den e := by
  rw [← mul_le_mul_iff_left₀ (unit_pos e), ← mag_units e hp, ← m8Num_eq, Nat.cast_le]

theorem mag_eq_iff (hp : p < 128) : rat (m8Decode p 0) = m * 2 ^ e ↔ m8Mag p * m8Den e = m8Num m e := by
  rw [← mul_left_inj' (unit_pos e).ne', ← mag_units e hp, ← m8Num_eq, Nat.cast_inj]

theorem lt_smallest_iff : (m : ℚ) * 2 ^ e < 2 ^ (-11 : Int) ↔ m8Num m e < m8Den e := by
  have one : (2 : ℚ) ^ (-11 : Int) * (2 ^ 11 * m8Den e) = m8Den e := by
    rw [← mul_assoc]
    norm_num
  rw [← mul_lt_mul_iff_left₀ (unit_pos e), one, ← m8Num_eq, Nat.cast_lt]

theorem beyond_iff : (2048 : ℚ) < m * 2 ^ e ↔ 2 ^ 22 * m8Den e < m8Num m e := by
  have top : (2048 : ℚ) * (2 ^ 11 * m8Den e) = ((2 ^ 22 * m8Den e : Nat) : ℚ) := by
    push_cast
    ring
  rw [← mul_lt_mul_iff_left₀ (unit_pos e), top, ← m8Num_eq, Nat.cast_lt]

/-- A distance from the exact magnitude, in units. -/
theorem dist_units (hp : p < 128) : ((|((m8Mag p * m8Den e : Nat) : Int) - m8Num m e| : Int) : ℚ) =
    |rat (m8Decode p 0) - m * 2 ^ e| * (2 ^ 11 * m8Den e) := by
  rw [← abs_of_pos (unit_pos e), ← abs_mul, sub_mul, ← mag_units e hp, ← m8Num_eq]
  push_cast
  rfl

theorem dist_le_iff (hp : p < 128) (hq : q < 128) : |rat (m8Decode p 0) - m * 2 ^ e| ≤ |rat (m8Decode q 0) - m * 2 ^ e| ↔
    |((m8Mag p * m8Den e : Nat) : Int) - m8Num m e| ≤ |((m8Mag q * m8Den e : Nat) : Int) - m8Num m e| := by
  rw [← mul_le_mul_iff_left₀ (unit_pos e), ← dist_units hp, ← dist_units hq, Int.cast_le]

theorem dist_eq_iff (hp : p < 128) (hq : q < 128) : |rat (m8Decode p 0) - m * 2 ^ e| = |rat (m8Decode q 0) - m * 2 ^ e| ↔
    |((m8Mag p * m8Den e : Nat) : Int) - m8Num m e| = |((m8Mag q * m8Den e : Nat) : Int) - m8Num m e| := by
  rw [← mul_left_inj' (unit_pos e).ne', ← dist_units hp, ← dist_units hq, Int.cast_inj]

/-- The share of a gap that lies below the exact magnitude, against a draw (R133). -/
theorem draw_lt_iff {b0 b1 u k : Nat} (h : M8Between (m8Num m e) (m8Den e) b0 b1) :
    (u : ℚ) < (m * 2 ^ e - rat (m8Decode b0 0)) / (rat (m8Decode b1 0) - rat (m8Decode b0 0)) * 2 ^ k ↔
      u * (m8Mag b1 * m8Den e - m8Mag b0 * m8Den e) < (m8Num m e - m8Mag b0 * m8Den e) * 2 ^ k := by
  have gap : (0 : ℚ) < rat (m8Decode b1 0) - rat (m8Decode b0 0) := by
    rw [sub_pos, ← not_le, mag_le_mag_iff h.upper h.lower, not_le]
    exact Nat.lt_of_mul_lt_mul_right (h.low.trans h.high)
  rw [div_mul_eq_mul_div, lt_div_iff₀ gap, ← mul_lt_mul_iff_left₀ (unit_pos e)]
  have left : (u : ℚ) * (rat (m8Decode b1 0) - rat (m8Decode b0 0)) * (2 ^ 11 * m8Den e) =
      ((u * (m8Mag b1 * m8Den e - m8Mag b0 * m8Den e) : Nat) : ℚ) := by
    rw [Nat.cast_mul, Nat.cast_sub (h.low.trans h.high).le, mag_units e h.lower, mag_units e h.upper]
    ring
  have right : ((m : ℚ) * 2 ^ e - rat (m8Decode b0 0)) * 2 ^ k * (2 ^ 11 * m8Den e) =
      (((m8Num m e - m8Mag b0 * m8Den e) * 2 ^ k : Nat) : ℚ) := by
    rw [Nat.cast_mul, Nat.cast_sub h.low.le, mag_units e h.lower, m8Num_eq]
    push_cast
    ring
  rw [left, right, Nat.cast_lt]

/-! The claims of R131 -/

/-- What R131 says of the body that rounding by a code chooses for an exact magnitude `x`. -/
structure M8Rounds (code u k : Nat) (neg : Bool) (x : ℚ) (b : Nat) : Prop where
  nearest : code = 1 ∨ code = 5 → ∀ p < 128, |rat (m8Decode b 0) - x| ≤ |rat (m8Decode p 0) - x| ∧
    (|rat (m8Decode b 0) - x| = |rat (m8Decode p 0) - x| → p = b ∨ if code = 1 then b % 2 = 0 else x < rat (m8Decode b 0))
  down : 2 ≤ code → code ≤ 4 → ¬ ((code = 3 ∧ neg = false) ∨ (code = 4 ∧ neg = true)) →
    rat (m8Decode b 0) ≤ x ∧ ∀ p < 128, rat (m8Decode p 0) ≤ x → rat (m8Decode p 0) ≤ rat (m8Decode b 0)
  away : (code = 3 ∧ neg = false) ∨ (code = 4 ∧ neg = true) →
    x ≤ rat (m8Decode b 0) ∧ ∀ p < 128, x ≤ rat (m8Decode p 0) → rat (m8Decode b 0) ≤ rat (m8Decode p 0)
  stochastic : code = 6 → ∀ p < 128, ∀ q < 128, rat (m8Decode p 0) ≤ x → x < rat (m8Decode q 0) →
    (∀ j < 128, rat (m8Decode j 0) ≤ rat (m8Decode p 0) ∨ rat (m8Decode q 0) ≤ rat (m8Decode j 0)) →
      b = if (u : ℚ) < (x - rat (m8Decode p 0)) / (rat (m8Decode q 0) - rat (m8Decode p 0)) * 2 ^ k then q else p
  own : ∀ p < 128, rat (m8Decode p 0) = x → b = p

theorem mag_inj (hp : p < 128) (hq : q < 128) (h : rat (m8Decode p 0) = rat (m8Decode q 0)) : p = q :=
  m8Mag_inj hp hq (le_antisymm ((mag_le_mag_iff hp hq).1 h.le) ((mag_le_mag_iff hq hp).1 h.ge))

/-- A body's own magnitude stays by every code. -/
theorem m8Rounds_own {code u k b : Nat} {neg : Bool} (hb : b < 128) : M8Rounds code u k neg (rat (m8Decode b 0)) b where
  nearest _ p hp := by
    rw [sub_self, abs_zero]
    exact ⟨abs_nonneg _, fun eq => .inl (mag_inj hp hb (sub_eq_zero.1 (abs_eq_zero.1 eq.symm)))⟩
  down _ _ _ := ⟨le_rfl, fun _ _ h => h⟩
  away _ := ⟨le_rfl, fun _ _ h => h⟩
  stochastic _ p hp q hq below above apart := by
    have same : p = b := mag_inj hp hb (le_antisymm below ((apart b hb).resolve_right (not_le.2 above)))
    rw [same, sub_self, zero_div, zero_mul, if_neg (not_lt.2 (Nat.cast_nonneg u))]
  own p hp h := (mag_inj hp hb h).symm

variable {b0 b1 : Nat}

/-- The bodies around an exact magnitude between two that follow one another. -/
theorem M8Between.mags (h : M8Between (m8Num m e) (m8Den e) b0 b1) :
    rat (m8Decode b0 0) < m * 2 ^ e ∧ m * 2 ^ e < rat (m8Decode b1 0) ∧
      ∀ p < 128, rat (m8Decode p 0) ≤ rat (m8Decode b0 0) ∨ rat (m8Decode b1 0) ≤ rat (m8Decode p 0) := by
  refine ⟨?_, ?_, fun p hp => (h.apart p hp).imp (mag_le_mag_iff hp h.lower).2 (mag_le_mag_iff h.upper hp).2⟩
  · rw [← not_le, le_mag_iff h.lower, not_le]
    exact h.low
  · rw [← not_le, mag_le_iff h.upper, not_le]
    exact h.high

/-- Between two bodies the code decides (R131, R133). -/
theorem m8Rounds_between {r : Rounding} {neg : Bool} (h : M8Between (m8Num m e) (m8Den e) b0 b1) :
    M8Rounds r.code r.u r.ubits neg (m * 2 ^ e)
      (if m8Picks r neg b1 (m8Num m e - m8Mag b0 * m8Den e) (m8Mag b1 * m8Den e - m8Mag b0 * m8Den e) = true then b1 else b0) := by
  obtain ⟨low, high, apart⟩ := h.mags
  have rem : m8Num m e - m8Mag b0 * m8Den e ≠ 0 := Nat.sub_ne_zero_of_lt h.low
  refine ⟨fun near p hp => ?_, fun least most inward => ?_, fun outward => ?_, fun six p hp q hq below above between => ?_, fun p hp own => ?_⟩
  · have chosen : (if m8Picks r neg b1 (m8Num m e - m8Mag b0 * m8Den e) (m8Mag b1 * m8Den e - m8Mag b0 * m8Den e) = true then b1 else b0) < 128 := by
      split
      · exact h.upper
      · exact h.lower
    obtain ⟨nearer, tie⟩ := h.nearest (neg := neg) (m8Den_pos e) rfl near hp
    refine ⟨(dist_le_iff chosen hp).2 nearer, fun eq => (tie ((dist_eq_iff chosen hp).1 eq)).imp id fun rule => ?_⟩
    by_cases rne : r.code = 1
    · rw [if_pos rne] at rule ⊢
      exact rule
    · rw [if_neg rne] at rule ⊢
      rw [← not_le, mag_le_iff chosen, not_le]
      exact rule
  · have stays : m8Picks r neg b1 (m8Num m e - m8Mag b0 * m8Den e) (m8Mag b1 * m8Den e - m8Mag b0 * m8Den e) = false := by
      have codes : r.code = 2 ∨ (r.code = 3 ∧ neg = true) ∨ (r.code = 4 ∧ neg = false) := by
        cases neg <;> simp_all <;> omega
      rcases codes with two | ⟨three, sign⟩ | ⟨four, sign⟩
      · simp [m8Picks, roundsUp, two]
      · simp [m8Picks, roundsUp, three, sign]
      · simp [m8Picks, roundsUp, four, sign]
    rw [stays, if_neg Bool.false_ne_true]
    exact ⟨low.le, fun p hp below => (apart p hp).resolve_right fun above => (below.trans_lt high).not_ge above⟩
  · have picks : m8Picks r neg b1 (m8Num m e - m8Mag b0 * m8Den e) (m8Mag b1 * m8Den e - m8Mag b0 * m8Den e) = true := by
      rcases outward with ⟨three, sign⟩ | ⟨four, sign⟩
      · simp [m8Picks, roundsUp, three, sign, rem]
      · simp [m8Picks, roundsUp, four, sign, rem]
    rw [if_pos picks]
    exact ⟨high.le, fun p hp above => (apart p hp).resolve_left fun below => (low.trans_le above).not_ge below⟩
  · have lower : p = b0 := mag_inj hp h.lower (le_antisymm ((apart p hp).resolve_right fun up => (below.trans_lt high).not_ge up)
      ((between b0 h.lower).resolve_right fun up => (low.trans above).not_ge up))
    have upper : q = b1 := mag_inj hq h.upper (le_antisymm
      ((between b1 h.upper).resolve_left fun down => (below.trans_lt high).not_ge down)
      ((apart q hq).resolve_left fun down => (low.trans above).not_ge down))
    have draw : m8Picks r neg b1 (m8Num m e - m8Mag b0 * m8Den e) (m8Mag b1 * m8Den e - m8Mag b0 * m8Den e) = true ↔
        r.u * (m8Mag b1 * m8Den e - m8Mag b0 * m8Den e) < (m8Num m e - m8Mag b0 * m8Den e) * 2 ^ r.ubits := by
      simp [m8Picks, roundsUp, six]
    rw [lower, upper]
    simp only [draw, draw_lt_iff h]
  · rcases apart p hp with down | up
    · exact absurd (own ▸ down) low.not_ge
    · exact absurd (own ▸ up) high.not_ge

/-- The result of rounding a magnitude up to the largest: a body that the code chooses, with its flags. -/
theorem roundM8_spec {code u k : Nat} {sat neg : Bool} (within : (m : ℚ) * 2 ^ e ≤ 2048) : ∃ b < 128,
    roundM8 ⟨code, sat, u, k⟩ neg m e = (m8Signed neg b,
      if rat (m8Decode b 0) = m * 2 ^ e then 0 else if (m : ℚ) * 2 ^ e < 2 ^ (-11 : Int) then fNX ||| fUF else fNX) ∧
    M8Rounds code u k neg (m * 2 ^ e) b := by
  have inside : ¬ 2 ^ 22 * m8Den e < m8Num m e := fun h => (beyond_iff.2 h).not_ge within
  have place := m8_exact_or_between (Nat.le_of_not_lt inside)
  rcases bracket : m8Bracket (m8Num m e) (m8Den e) m8Bodies with ⟨b0, b1⟩
  simp only [bracket] at place
  rcases place with ⟨body, own⟩ | between
  · have same := (mag_eq_iff body).2 own.symm
    refine ⟨b0, body, ?_, same ▸ m8Rounds_own body⟩
    rw [if_pos same]
    exact roundM8_exact inside (congrArg Prod.fst bracket) own
  · refine ⟨_, ?_, ?_, m8Rounds_between (r := ⟨code, sat, u, k⟩) (neg := neg) between⟩
    · split
      · exact between.upper
      · exact between.lower
    · obtain ⟨low, high, -⟩ := between.mags
      have differs (c : Bool) : ¬ rat (m8Decode (if c = true then b1 else b0) 0) = m * 2 ^ e := by
        cases c
        · exact low.ne
        · exact high.ne'
      rw [roundM8_between inside bracket between, if_neg (differs _)]
      simp only [lt_smallest_iff]

end

/-- Into m8, any value but a finite nonzero one has a result of its own, and the block scale divides first (R131, R151). -/
theorem roundTo_m8 (scale : Int) (r : Rounding) : (∀ sn, roundTo tM8 scale r (.nan sn) = (0x80, if sn then fNV else 0)) ∧
    (∀ neg, roundTo tM8 scale r (.inf neg) = (if neg then 0x87 else 0x07, fOF ||| fNX ||| fSAT)) ∧
    ∀ neg m e, roundTo tM8 scale r (.num neg m e) = if m = 0 then (0, 0) else roundM8 r neg m (e - scale) :=
  ⟨fun _ => rfl, fun _ => rfl, fun _ _ _ => rfl⟩

/-- R129, R131, R133: rounding into m8 by what the bracket of the magnitude chooses. -/
theorem scaledRounding : ScaledRounding := by
  refine ⟨fun code u k sat neg m e _ _ _ _ => ⟨fun beyond => roundM8_beyond (beyond_iff.1 beyond), fun within => ?_⟩, roundTo_m8⟩
  obtain ⟨b, body, result, rounds⟩ := roundM8_spec (code := code) (u := u) (k := k) (sat := sat) (neg := neg) within
  exact ⟨b, body, by rw [result]; rfl, by rw [result], rounds.nearest, rounds.down, rounds.away, rounds.stochastic, rounds.own⟩

/-- Settles O12: CVT, CVTS and FMAXX by their operations, and m8 by the bracket of a magnitude. -/
theorem conversions : Obligations.Conversions := ⟨conversion, scaledConversion, blockExponents, scaledRounding⟩

end Sys2Proof.Machine
end

section
/-! PROOF. System registers (R68 to R70, R383, R390, R391): the table of numbers, rights and values, and MFSR and MTSR on it. -/
namespace Sys2Proof.Machine
open Sys2Proof.Claims

/-- The access that a row's rights stand for (R68). -/
def accessOf : Rights → SysAccess
  | .ro => ⟨true, false, false⟩
  | .sup => ⟨true, false, true⟩
  | .user => ⟨true, true, true⟩
  | .hidden => ⟨false, false, true⟩

/-- A row of the table gives a register's access and its value. -/
structure RowHolds (s : State) (x : Nat × Rights × Nat) : Prop where
  access : sysAccess x.1 = some (accessOf x.2.1)
  value : s.readSys x.1 = BitVec.ofNat 64 x.2.2

/-- The numbers that `State.readSys` gives a case of their own. -/
def OwnCase (n : Nat) : Prop := n ≤ 3 ∨ n = 0x008 ∨ n = 0x009 ∨ n = 0x140 ∨ n = 0x141 ∨ n = 0x1B0

section
variable {s : State} {n i : Nat} {r : Regs} {x : Dword}

/-! Access by ranges of numbers -/

theorem sysAccess_ro (low : 0x010 ≤ n) (high : n ≤ 0x017) : sysAccess n = some (accessOf .ro) :=
  if_pos (by simp; omega)

theorem sysAccess_sup (h : (0x018 ≤ n ∧ n ≤ 0x13F) ∨ (0x170 ≤ n ∧ n ≤ 0x17B) ∨ (0x190 ≤ n ∧ n ≤ 0x19F)) :
    sysAccess n = some (accessOf .sup) := by
  unfold sysAccess
  rw [if_neg (by simp; omega)]
  rcases h with ⟨low, high⟩ | second | third
  · rw [if_pos (by simp [low, high])]
    rfl
  · rw [if_neg (by simp; omega), if_neg (by simp; omega), if_neg (by simp; omega), if_pos (by simp; omega)]
    rfl
  · rw [if_neg (by simp; omega), if_neg (by simp; omega), if_neg (by simp; omega), if_neg (by simp; omega), if_neg (by omega),
      if_pos (by simp; omega)]
    rfl

/-! The values -/

theorem State.readSys_of_not_ownCase (h : ¬ OwnCase n) : s.readSys n =
    if 0x190 ≤ n && n ≤ 0x19F then s.ownCore.pmc.getD (n - 0x190) 0
    else if n = 0x005 || n = 0x006 || isCrewReg n then s.focus.r.readSys n
    else s.hub.regs.read n := by
  unfold OwnCase at h
  unfold State.readSys
  split
  case h_10 => rfl
  all_goals omega

theorem State.readSys_crew (h : ¬ OwnCase n) (out : ¬ (0x190 ≤ n ∧ n ≤ 0x19F)) (crew : n = 0x005 ∨ n = 0x006 ∨ isCrewReg n = true) :
    s.readSys n = s.focus.r.readSys n := by
  rw [State.readSys_of_not_ownCase h, if_neg (by simpa using out), if_pos (by simpa [or_assoc] using crew)]

theorem State.readSys_pkg (h : ¬ OwnCase n) (crew : n ≠ 0x005 ∧ n ≠ 0x006 ∧ n ≠ 0x1B1 ∧ n ≠ 0x1B2 ∧ n ≠ 0x1D0)
    (out : ¬ (0x150 ≤ n ∧ n ≤ 0x169) ∧ ¬ (0x190 ≤ n ∧ n ≤ 0x1A4)) : s.readSys n = s.hub.regs.read n := by
  rw [State.readSys_of_not_ownCase h, if_neg (by simp; omega), if_neg (by simp [isCrewReg]; omega)]

theorem State.readSys_pmc (hi : i < 16) : s.readSys (0x190 + i) = s.ownCore.pmc.getD i 0 := by
  rw [State.readSys_of_not_ownCase (by unfold OwnCase; omega), if_pos (by simp; omega), Nat.add_sub_cancel_left]

theorem FltRegs.causeWord_eq (f : FltRegs) :
    f.causeWord = BitVec.ofNat 64 (f.code.toNat + f.eng.toNat * 2 ^ 8 + f.post.toNat * 2 ^ 9) := by
  have code := f.code.isLt
  apply BitVec.eq_of_toNat_eq
  unfold FltRegs.causeWord causeOf
  cases f.eng <;> cases f.post <;> simp <;> omega

theorem FltRegs.privWord_eq (f : FltRegs) :
    f.privWord = BitVec.ofNat 64 (f.sup.toNat + f.retire.toNat * 2 + f.cancel.toNat * 4) := by
  unfold FltRegs.privWord
  rw [Nat.mul_comm 2, Nat.mul_comm 4]

/-! The parts of the table -/

variable {w : Nat} {rights : Rights}

/-- A row whose register holds a word that is read zero-extended. -/
theorem RowHolds.word {x : BitVec w} (access : sysAccess n = some (accessOf rights)) (value : s.readSys n = x.zeroExtend 64) :
    RowHolds s (n, rights, x.toNat) := ⟨access, value.trans (BitVec.ofNat_toNat ..).symm⟩

/-- A row whose register holds a whole word. -/
theorem RowHolds.dword (access : sysAccess n = some (accessOf rights)) (value : s.readSys n = x) : RowHolds s (n, rights, x.toNat) :=
  .word access (value.trans (BitVec.setWidth_eq x).symm)

theorem crewRows_hold : ∀ x ∈ crewRows s, RowHolds s x := by
  simp only [crewRows, List.forall_mem_cons]
  exact ⟨⟨rfl, rfl⟩, ⟨rfl, rfl⟩, ⟨rfl, rfl⟩, ⟨rfl, rfl⟩, .word rfl rfl, .word rfl rfl, ⟨rfl, rfl⟩, ⟨rfl, rfl⟩, .word rfl rfl,
    ⟨rfl, rfl⟩, ⟨rfl, rfl⟩, .word rfl rfl, .word rfl rfl, .dword rfl rfl, .dword rfl rfl, .word rfl rfl, .word rfl rfl, .dword rfl rfl,
    .word rfl rfl, ⟨rfl, rfl⟩, ⟨rfl, rfl⟩, List.forall_mem_nil _⟩

theorem faultRows_hold : ∀ x ∈ faultRows s.focus.r, RowHolds s x := by
  simp only [faultRows, List.forall_mem_cons]
  exact ⟨⟨rfl, FltRegs.causeWord_eq _⟩, ⟨rfl, rfl⟩, .dword rfl rfl, .word rfl rfl, .word rfl rfl, ⟨rfl, FltRegs.privWord_eq _⟩,
    ⟨rfl, rfl⟩, .word rfl rfl, List.forall_mem_nil _⟩

theorem coreRows_hold : ∀ x ∈ coreRows (s.coreAt s.focus.core), RowHolds s x := by
  simp only [coreRows, List.forall_mem_append, List.forall_mem_cons, List.forall_mem_map, List.mem_range]
  exact ⟨⟨.word rfl rfl, .word rfl rfl, .word rfl rfl, List.forall_mem_nil _⟩,
    fun i hi => .dword (sysAccess_sup (by omega)) (State.readSys_pmc hi)⟩

theorem pkgRows_hold : ∀ x ∈ pkgRows s.hub.regs, RowHolds s x := by
  simp only [pkgRows, List.forall_mem_cons]
  exact ⟨.word rfl rfl, .word rfl rfl, .word rfl rfl, .word rfl rfl, .word rfl rfl, .word rfl rfl, List.forall_mem_nil _⟩

/-! The arrays of the package -/

theorem PkgRegs.read_harv (p : PkgRegs) (hi : i < 8) : p.read (0x010 + i) = (p.harv.getD i 0).zeroExtend 64 := by
  unfold PkgRegs.read
  rw [if_neg (by omega), if_pos (by simp; omega), Nat.add_sub_cancel_left]

theorem PkgRegs.read_diemap (p : PkgRegs) (hi : i < 8) : p.read (0x018 + i) = BitVec.ofNat 64 (p.diemap.getD i 0).val := by
  unfold PkgRegs.read
  rw [if_neg (by omega), if_neg (by simp; omega), if_pos (by simp; omega), Nat.add_sub_cancel_left]

theorem PkgRegs.read_lct (p : PkgRegs) (hi : i < 288) : p.read (0x020 + i) = p.lct.getD i 0 := by
  unfold PkgRegs.read
  rw [if_neg (by omega), if_neg (by simp; omega), if_neg (by simp; omega), if_pos (by simp; omega), Nat.add_sub_cancel_left]

theorem PkgRegs.read_retbase (p : PkgRegs) (hi : i < 4) : p.read (0x170 + i) = p.retbase.getD i 0 := by
  unfold PkgRegs.read
  rw [if_neg (by omega), if_neg (by simp; omega), if_neg (by simp; omega), if_neg (by simp; omega), if_pos (by simp; omega),
    Nat.add_sub_cancel_left]

theorem PkgRegs.read_retsize (p : PkgRegs) (hi : i < 4) : p.read (0x174 + i) = p.retsize.getD i 0 := by
  unfold PkgRegs.read
  rw [if_neg (by omega), if_neg (by simp; omega), if_neg (by simp; omega), if_neg (by simp; omega), if_neg (by simp; omega),
    if_pos (by simp; omega), Nat.add_sub_cancel_left]

theorem PkgRegs.read_retways (p : PkgRegs) (hi : i < 4) : p.read (0x178 + i) = p.retways.getD i 0 := by
  unfold PkgRegs.read
  rw [if_neg (by omega), if_neg (by simp; omega), if_neg (by simp; omega), if_neg (by simp; omega), if_neg (by simp; omega),
    if_neg (by simp; omega), if_pos (by simp; omega), Nat.add_sub_cancel_left]

theorem pkgArrays_hold : ∀ x ∈ pkgArrays s.hub.regs, RowHolds s x := by
  have pkg {n : Nat} (h : (0x010 ≤ n ∧ n ≤ 0x13F) ∨ (0x170 ≤ n ∧ n ≤ 0x17B)) : s.readSys n = s.hub.regs.read n :=
    State.readSys_pkg (by unfold OwnCase; omega) (by omega) (by omega)
  simp only [pkgArrays, List.forall_mem_append, List.forall_mem_flatMap, List.forall_mem_map, List.forall_mem_cons, List.mem_range]
  refine ⟨fun i hi => ⟨?_, ?_, List.forall_mem_nil _⟩, fun i hi => ?_, fun i hi => ⟨?_, ?_, ?_, List.forall_mem_nil _⟩⟩
  · exact .word (sysAccess_ro (by omega) (by omega)) ((pkg (by omega)).trans (PkgRegs.read_harv _ hi))
  · exact ⟨sysAccess_sup (by simp only; omega), (pkg (by simp only; omega)).trans (PkgRegs.read_diemap _ hi)⟩
  · exact .dword (sysAccess_sup (by omega)) ((pkg (by omega)).trans (PkgRegs.read_lct _ hi))
  · exact .dword (sysAccess_sup (by omega)) ((pkg (by omega)).trans (PkgRegs.read_retbase _ hi))
  · exact .dword (sysAccess_sup (by omega)) ((pkg (by omega)).trans (PkgRegs.read_retsize _ hi))
  · exact .dword (sysAccess_sup (by omega)) ((pkg (by omega)).trans (PkgRegs.read_retways _ hi))

theorem sysTable_holds : ∀ x ∈ sysTable s, RowHolds s x := by
  simp only [sysTable, List.forall_mem_append]
  exact ⟨crewRows_hold, faultRows_hold, coreRows_hold, pkgRows_hold, pkgArrays_hold⟩

/-- The table has every register number. -/
theorem sysAccess_none (absent : ∀ x ∈ sysTable s, x.1 ≠ n) : sysAccess n = none := by
  simp only [sysTable, crewRows, faultRows, coreRows, pkgRows, pkgArrays, List.forall_mem_append, List.forall_mem_flatMap,
    List.forall_mem_map, List.forall_mem_cons, List.mem_range] at absent
  obtain ⟨crew, fault, ⟨core, counters⟩, pkg, dies, cores, slots⟩ := absent
  have counters' := fun h => counters (n - 0x190) h
  have dies' := fun h => dies (n - 0x010) h
  have maps' := fun h => dies (n - 0x018) h
  have cores' := fun h => cores (n - 0x020) h
  have slots0 := fun h => slots (n - 0x170) h
  have slots1 := fun h => slots (n - 0x174) h
  have slots2 := fun h => slots (n - 0x178) h
  unfold sysAccess
  rw [if_neg (by simp; omega), if_neg (by simp; omega), if_neg (by simp; omega), if_neg (by simp; omega), if_neg (by simp; omega),
    if_neg (by omega), if_neg (by simp; omega), if_neg (by simp; omega), if_neg (by omega), if_neg (by simp; omega)]

/-! MFSR (R69, R390) -/

variable {d a : Fin 64} {num : BitVec 12} {acc : SysAccess}

theorem mfsr_runs (access : sysAccess num.toNat = some acc) (may : acc.userRead = true ∨ s.focus.r.flt.sup = true)
    (free : NoMark s .s d.val) : Writes (.mfsr d num) s d (s.readSys num.toNat) := by
  have passes : (!acc.userRead && !s.focus.r.flt.sup) = false := by simpa [or_iff_not_imp_left] using may
  have clear : ∀ u ∈ [(⟨.s, d.val, s.lanes⟩ : Use)], FreeIn s u.file u.num u.lanes := List.forall_mem_singleton.2 free
  have run : exec (.mfsr d num) s = execMfsr d num s := rfl
  simp only [Writes, Runs, run, execMfsr, access, passes, Bool.false_eq_true, if_false, checked_free _ clear]
  rfl

theorem mfsr_priv (access : sysAccess num.toNat = some acc) (hidden : acc.userRead = false) (user : s.focus.r.flt.sup = false) :
    Runs (.mfsr d num) s (s.raise (flt .priv num.toNat)) := by
  have run : exec (.mfsr d num) s = execMfsr d num s := rfl
  simp only [Runs, run, execMfsr, access, hidden, user, Bool.not_false, Bool.and_self, if_true]

theorem mfsr_illegal (access : sysAccess num.toNat = none) : Runs (.mfsr d num) s (s.raise (flt .illegal 0)) := by
  have run : exec (.mfsr d num) s = execMfsr d num s := rfl
  simp only [Runs, run, execMfsr, access]

theorem systemRegisterReads : SystemRegisterReads := by
  intro d num s
  refine ⟨?_, fun absent => mfsr_illegal (sysAccess_none absent)⟩
  rintro ⟨n, rights, value⟩ row rfl
  obtain ⟨access, reads⟩ := sysTable_holds _ row
  refine ⟨fun free may => ?_, fun hidden user => mfsr_priv access (by rw [show rights = .hidden from hidden]; rfl) user⟩
  rw [← reads]
  refine mfsr_runs access (may.imp_left fun shown => ?_) free
  cases rights <;> simp_all [accessOf]

/-! Writes of crew registers (R70, R383) -/

theorem extract_eq (x : Dword) (lo k : Nat) : x.extractLsb' lo k = BitVec.ofNat k (x.toNat / 2 ^ lo) := by
  rw [← Nat.shiftRight_eq_div_pow]
  rfl

theorem extract_low (x : Dword) (k : Nat) : x.extractLsb' 0 k = BitVec.ofNat k x.toNat := rfl

theorem bit_toNat (x : Dword) (i : Nat) : bit x.toNat i = x.getLsbD i := by
  rw [BitVec.getLsbD, Nat.testBit_eq_decide_div_mod_eq]
  rfl

theorem crewWrites_eq : ∀ w ∈ crewWrites r x, r.writeSys w.1 x = w.2 ∧ isCrewReg w.1 = true := by
  simp only [crewWrites, List.forall_mem_cons, extract_low, ← bit_toNat]
  simp only [extract_eq]
  have mode : fin 8 (x.toNat % 8) = ⟨x.toNat % 8, Nat.mod_lt _ (by decide)⟩ := Fin.ext (Nat.mod_mod _ _)
  exact ⟨⟨rfl, rfl⟩, ⟨rfl, rfl⟩, ⟨congrArg (fun m => { r with rndmode := m }) mode, rfl⟩, ⟨rfl, rfl⟩, ⟨rfl, rfl⟩, ⟨rfl, rfl⟩, ⟨rfl, rfl⟩, ⟨rfl, rfl⟩, ⟨rfl, rfl⟩, ⟨rfl, rfl⟩,
    ⟨rfl, rfl⟩, ⟨rfl, rfl⟩, ⟨rfl, rfl⟩, ⟨rfl, rfl⟩, ⟨rfl, rfl⟩, ⟨rfl, rfl⟩, ⟨rfl, rfl⟩, ⟨rfl, rfl⟩, ⟨rfl, rfl⟩, ⟨rfl, rfl⟩,
    ⟨rfl, rfl⟩, List.forall_mem_nil _⟩

/-- Every register number that the crew holds is among the writes. -/
theorem isCrewReg_false (access : sysAccess n = some acc) (absent : ∀ w ∈ crewWrites r x, w.1 ≠ n) : isCrewReg n = false := by
  simp only [crewWrites, List.forall_mem_cons] at absent
  by_contra held
  have range : (0x150 ≤ n ∧ n ≤ 0x169) ∨ (0x1A0 ≤ n ∧ n ≤ 0x1A4) ∨ n = 0x1B1 ∨ n = 0x1B2 ∨ n = 0x1D0 := by
    simp [isCrewReg] at held
    omega
  have none_ : sysAccess n = none := by
    unfold sysAccess
    rw [if_neg (by simp; omega), if_neg (by simp; omega), if_neg (by simp; omega), if_neg (by simp; omega), if_neg (by simp; omega),
      if_neg (by omega), if_neg (by simp; omega), if_neg (by simp; omega), if_neg (by omega), if_neg (by simp; omega)]
  rw [none_] at access
  cases access

theorem sysRangeBad_iff : sysRangeBad n x = true ↔ OutOfRange n x := by
  unfold sysRangeBad OutOfRange
  split
  · simp
  · simp
  · simp
  · simp_all

/-! MTSR (R69, R391) -/

theorem mtsr_illegal (access : sysAccess num.toNat = none) : Runs (.mtsr num a) s (s.raise (flt .illegal 0)) := by
  have run : exec (.mtsr num a) s = execMtsr num a s := rfl
  simp only [Runs, run, execMtsr, access]

theorem mtsr_readOnly (access : sysAccess num.toNat = some acc) (fixed : acc.supWrite = false) :
    Runs (.mtsr num a) s (s.raise (flt .illegal 0)) := by
  have run : exec (.mtsr num a) s = execMtsr num a s := rfl
  simp only [Runs, run, execMtsr, access, fixed, Bool.not_false, if_true]

theorem mtsr_priv (access : sysAccess num.toNat = some acc) (held : acc.supWrite = true) (sup : acc.userWrite = false)
    (user : s.focus.r.flt.sup = false) : Runs (.mtsr num a) s (s.raise (flt .priv num.toNat)) := by
  have run : exec (.mtsr num a) s = execMtsr num a s := rfl
  simp only [Runs, run, execMtsr, access, held, sup, user, Bool.not_true, Bool.false_eq_true, if_false, Bool.not_false, Bool.and_self, if_true]

/-- MTSR of a register that the crew may write, from an unmarked register. -/
theorem mtsr_runs (access : sysAccess num.toNat = some acc) (held : acc.supWrite = true)
    (may : acc.userWrite = true ∨ s.focus.r.flt.sup = true) (free : NoMark s .s a.val) :
    exec (.mtsr num a) s = .next (if sysRangeBad num.toNat (s.focus.r.readS a) then s.raise (flt .illegal 0)
      else if isCrewReg num.toNat then s.mapR fun r => r.writeSys num.toNat (s.focus.r.readS a)
      else s.mapChunk (Chunk.act s.origin (.sysreg num.toNat (s.focus.r.readS a)))) := by
  have passes : (!acc.userWrite && !s.focus.r.flt.sup) = false := by simpa [or_iff_not_imp_left] using may
  have clear : ∀ u ∈ [(⟨.s, a.val, s.lanes⟩ : Use)], FreeIn s u.file u.num u.lanes := List.forall_mem_singleton.2 free
  have run : exec (.mtsr num a) s = execMtsr num a s := rfl
  simp only [run, execMtsr, access, held, passes, Bool.not_true, Bool.false_eq_true, if_false, checked_free _ clear]

theorem systemRegisterWrites : SystemRegisterWrites := by
  intro num a s x
  refine ⟨?_, fun absent => mtsr_illegal (sysAccess_none absent)⟩
  rintro ⟨n, rights, value⟩ row rfl
  have access := (sysTable_holds _ row).access
  refine ⟨fun fixed => mtsr_readOnly access (by rw [show rights = .ro from fixed]; rfl), fun held user => ?_, fun may free => ?_⟩
  · refine mtsr_priv access ?_ ?_ user <;> rcases held with held | held <;> rw [show rights = _ from held] <;> rfl
  · have writes : (accessOf rights).supWrite = true ∧ ((accessOf rights).userWrite = true ∨ s.focus.r.flt.sup = true) := by
      cases rights <;> simp_all [accessOf]
    have run := mtsr_runs access writes.1 writes.2 free
    refine ⟨fun bad => ?_, fun good => ⟨fun w mem number => ?_, fun absent => ?_⟩⟩
    · rw [Runs, run, if_pos (sysRangeBad_iff.2 bad)]
    · obtain ⟨written, crew⟩ := crewWrites_eq w mem
      rw [number] at written crew
      rw [Runs, run, if_neg (good ∘ sysRangeBad_iff.1), if_pos crew, ← written]
      rfl
    · rw [ActRuns, Runs, run, if_neg (good ∘ sysRangeBad_iff.1), if_neg (by rw [isCrewReg_false access absent]; exact Bool.false_ne_true),
        Bool.or_false]
      rfl

end

/-- Settles O22: the reads and the writes by the table's rows. -/
theorem systemRegisters : Obligations.SystemRegisters := ⟨systemRegisterReads, systemRegisterWrites⟩

end Sys2Proof.Machine
end

section
/-! PROOF. A product of fewer columns than an m8 scale covers (R367): its arrays hold no scale, so any delta meets the operands' conditions. -/
namespace Sys2Proof.Machine
open Sys2Proof.Claims

/-- The shape record of a 1 × 1 matrix of m8 at the start of the own-core window. -/
def m8Record : List Byte := leBytes 8 (2 ^ 56) ++ leBytes 4 1 ++ leBytes 4 1 ++ leBytes 4 1 ++ [13] ++ List.replicate 43 0

/-- The command that multiplies that matrix by itself on one core. -/
def m8Product : TenCmd :=
  ⟨7, ⟨1, 0, []⟩, ⟨0, 0, 0⟩, .mma 0 (2 ^ 56) (2 ^ 56) true false 0, .queued, 1, 0, 0, [(2 ^ 56, m8Record), (2 ^ 56, m8Record)], [], 0, false⟩

/-- Its crew on core 0, whose window holds 1 as the one element. -/
def m8State : State :=
  { State.reset with
    focus := { Crew.empty with uid := 1, phase := .run, r := { Regs.reset with spmSize := 1 } }
    cores := State.reset.cores.modify 0 fun c => { c with ten := [m8Product] }
    mem := [(2 ^ 53, 64)], filled := [(2 ^ 53, 128)], uids := 2 }

theorem m8Record_shape : parseShape m8Record = ⟨2 ^ 56, 1, 1, 1, tM8, false, 0, 0⟩ := by decide +kernel

theorem m8State_first : First m8State 0 m8Product [] :=
  ⟨rfl, by decide +kernel, List.forall_mem_nil _⟩

theorem m8State_read : SpadRead m8State m8Product.actor (2 ^ 56) 1 64 :=
  ⟨⟨.spad, 2 ^ 53, 2 ^ 56, false, 0⟩, rfl, rfl, rfl, by decide, by decide, by decide +kernel, by decide +kernel⟩

/-- Any delta of A meets the conditions on the operands. -/
theorem m8State_operands (d : Int) : Operands m8State m8Product.actor (parseShape m8Record) (parseShape m8Record) 0 1 0 1
    (fun _ _ => 64) (fun _ _ => 64) (fun _ _ => d) (fun _ _ => 0) := by
  rw [m8Record_shape]
  refine ⟨fun i hi k hk => ?_, fun k hk j hj => ?_, fun _ _ _ g hg => absurd hg (Nat.not_lt_zero g), fun _ _ _ g hg => absurd hg (Nat.not_lt_zero g)⟩
  · obtain rfl : i = 0 := Nat.lt_one_iff.1 hi
    obtain rfl : k = 0 := Nat.lt_one_iff.1 hk
    exact m8State_read
  · obtain rfl : j = 0 := Nat.lt_one_iff.1 hj
    obtain rfl : k = 0 := Nat.lt_one_iff.1 hk
    exact m8State_read

theorem m8State_fits : ∃ av bv da db, Operands m8State m8Product.actor (parseShape m8Record) (parseShape m8Record) 0
    (parseShape m8Record).rows 0 (parseShape m8Record).cols av bv da db := by
  have rows : (parseShape m8Record).rows = 1 := congrArg Shape.rows m8Record_shape
  have cols : (parseShape m8Record).cols = 1 := congrArg Shape.cols m8Record_shape
  rw [rows, cols]
  exact ⟨_, _, _, _, m8State_operands 0⟩

theorem m8State_band : bandAt 0 (m8State.memberOf 0) false (parseShape m8Record).rows (parseShape m8Record).cols = (0, 1, 0, 1) := by
  decide +kernel

/-- The top byte of the one element of the product, for a delta of A. -/
def topByte (d : Int) : Byte :=
  BitVec.ofNat 8 ((products m8Product 0 0 true (parseShape m8Record) (parseShape m8Record) (fun _ _ => 64) (fun _ _ => 64) (fun _ _ => d)
    (fun _ _ => 0) m8State.byte 0 0).1 / 2 ^ (8 * 3))

theorem topByte_zero : topByte 0 = 0x3F := by decide +kernel
theorem topByte_one : topByte 1 = 0x40 := by decide +kernel

/-- Refutes O41: the product of the 1 × 1 matrices of m8 that hold 1 would be 1 with a delta of 0 and 2 with a delta of 1, and
the scale arrays of K = 1 columns, K / 32 = 0 nibbles a line, decide neither (R366 asks for multiples of 32, the statement does not). -/
theorem not_tensorSteps : ¬ Obligations.TensorSteps := by
  rintro ⟨-, -, -, claim, -⟩
  obtain ⟨single, -⟩ := claim m8State 0 m8Product [] 0 (2 ^ 56) (2 ^ 56) true false 0 m8Record m8Record rfl rfl (by decide +kernel)
  obtain ⟨u, fp, -, -, result⟩ := single rfl m8State_first rfl m8State_fits
  have f32 : ((parseShape m8Record).tag == tF64) = false := by
    rw [m8Record_shape]
    rfl
  have byte (d : Int) : u.byte (tileKey 0 false 0 0 0 + 3) = topByte d := by
    have filled := result 0 1 0 1 m8State_band _ _ _ _ (m8State_operands d)
    rw [f32] at filled
    unfold topByte
    have top := (filled (show 1 ≤ 1024 / 4 by decide)).elems 0 Nat.one_pos 0 Nat.one_pos 3 (show 3 < 4 by decide)
    dsimp only at top
    exact top
  exact absurd ((byte 0).symm.trans (byte 1)) (by rw [topByte_zero, topByte_one]; decide)

end Sys2Proof.Machine
end

section
/-! PROOF. Two crews with one number (R205, R264): what rolls back the one that runs reaches the other, which has begun to wait. -/
namespace Sys2Proof.Machine
open Sys2Proof.Claims

/-- A launch whose spill region, at 0, is mapped by the table at 0. -/
def spillLaunch : Launch where
  uid := 1
  number := 0
  queue := 0
  slot := some 0
  packet := ⟨0, 0, 0, 1, 0, 0, 0, 0, 0, 0, 0, 0, 0, 0, 0, 0, 0⟩
  desc := { Desc.none with spillsize := 2 ^ 24 }
  holding := false
  reducers := none
  deal := []
  groups := []
  strands := []
  recs := []
  rfNext := 0
  stopAt := none
  saved := false
  ended := none
  finals := []
  fpflags := 0
  frames := []
  pods := []

/-- A crew in step 6 whose first action is a SYNC; its strand has touched reducer 0 since the rollback point. -/
def syncing : Crew :=
  { Crew.empty with
    uid := 1, phase := .acting, r := { Regs.reset with views := [(0, .isum 0)], srctr := 5 }
    chunk := { Chunk.empty with acts := [⟨⟨0, 0, 0⟩, .sync⟩] }, task := { Task.none with launch := 1 } }

/-- A crew of the same number whose chunk has read every line. -/
def reading : Crew :=
  { Crew.empty with uid := 1, phase := .run, chunk := { Chunk.empty with rsig := BitVec.allOnes 1024 }, task := { Task.none with launch := 1 } }

/-- Both, with a table at 0 that leads to a leaf at 0x10000, not accessed yet. -/
def doubled : State :=
  { State.reset with
    pool := [syncing, reading], uids := 2, sched := { State.reset.sched with launches := [spillLaunch] }
    mem := cellsAt 0 (leBytes 8 (2 ^ 22 + 1)) ++ cellsAt 0x10000 (leBytes 8 (2 ^ 58 + 1)) }

theorem doubled_crew : doubled.crew? 1 = some syncing := rfl

theorem doubled_fresh : Fresh doubled := by
  intro y hy
  simp only [State.crews, List.mem_cons, doubled, List.not_mem_nil, or_false] at hy
  rcases hy with rfl | rfl | rfl <;> decide

/-- The walk for the frame of the sync block sets AF in the leaf, whose readers roll back (R176, R205): by its number, the crew that syncs. -/
theorem doubled_srctr : ((doubled.chunkCommit 1).crew? 1).map (fun p => p.r.srctr) = some 0 := by decide +kernel

/-- Refutes O38: after the SYNC of `doubled` the crew has the SRCTR of its rollback point, 0, and not the 5 that it had. Neither a
premise nor the invariant `State.Inv` says that no two crews have one number. -/
theorem not_taskFlow : ¬ Obligations.TaskFlow := by
  intro claim
  obtain ⟨-, sync, -⟩ := claim doubled 1 syncing doubled_crew (by decide) doubled_fresh
  obtain ⟨t, p, run, crew, -, regs, -⟩ := sync ⟨0, 0, 0⟩ [] rfl rfl rfl rfl
  obtain rfl : doubled.chunkCommit 1 = t := Host.Outcome.next.inj run
  have kept : p.r.srctr = 5 := congrArg Regs.srctr regs
  have lost := doubled_srctr
  rw [crew, Option.map_some, kept] at lost
  exact absurd lost (by decide)

end Sys2Proof.Machine
end
